-- ==== Sys2Proof/Word.lean ====
section
/-!
DEFINITION. The word types of the K8: a byte, a code word (R51, R57), a register or pair value (R68).
-/

namespace Sys2Proof

/-- One byte of memory. -/
abbrev Byte := BitVec 8

/-- One code word, and one 32-bit register. -/
abbrev Word := BitVec 32

/-- A 64-bit value: an even register pair, or one control register. -/
abbrev DWord := BitVec 64

/-- A 7-bit register operand code (R58). -/
abbrev Code := BitVec 7

/-- A 3-bit predicate number, also the number of a landing handle or of an accumulator bank. -/
abbrev P3 := BitVec 3

end Sys2Proof
end

