-- ==== Sys2Proof/Syntax.lean ====
section
/-!
DEFINITION. The instruction set: one constructor of Instr for each row of the opcode table. The first part
holds the words a clause can hold (R51 to R72); the second the events of the machine and of the outside world
that the table lists as steps of their own, each whole and indivisible.
-/

namespace Sys2Proof

/-- Element type of the D3 and DL formats (R74). -/
inductive ElemTy where
  | i32 | n32 | f32 | f16x2 | bf16x2 | i64 | f64 | i16x2
  deriving DecidableEq, Repr

/-- Integer relation of ICMP, ICMPI and RSTEST (R90, R281). -/
inductive Rel where
  | eq | ne | lt | le | gt | ge
  deriving DecidableEq, Repr

/-- Float relation of FCMP (R96). -/
inductive FRel where
  | eq | ne | lt | le | gt | ge | un | ord
  deriving DecidableEq, Repr

/-- Rounding mode, FMODE.RM (R71). -/
inductive Rm where
  | rne | rtz | rup | rdn
  deriving DecidableEq, Repr

/-- Mode field of FRND (R99). -/
inductive RndMode where
  | fmode | rne | rtz | rup | rdn
  deriving DecidableEq, Repr

/-- Format code of FCVT (R100). -/
inductive FFmt where
  | f32 | f64 | f16 | bf16 | f16x2 | bf16x2 | e4m3 | e5m2 | pp8
  deriving DecidableEq, Repr

/-- Float format of ICVT (R101). -/
inductive CvtFlt where
  | f32 | f64 | f16 | bf16
  deriving DecidableEq, Repr

/-- Integer type of ICVT (R101). -/
inductive CvtInt where
  | i32 | n32 | i64 | n64
  deriving DecidableEq, Repr

/-- Source rule of GSHF (R103). -/
inductive GshfMode where
  | tid | off | rot | rev
  deriving DecidableEq, Repr

/-- Vote of GVOTE (R105). -/
inductive VoteOp where
  | count | below | slots | same | first
  deriving DecidableEq, Repr

/-- Operation of GSCAN and GRED (R106). -/
inductive FoldOp where
  | add | min | max | and | or | xor
  deriving DecidableEq, Repr

/-- Special registers (R70), in the order of their numbers. -/
inductive SReg where
  | tid | ntid | team | core | clus | sgrp | die | dev | taskarg | tilex | tiley | tilez | clock | ctime
  | fmode | flags | asid | tenant | fault | faddr | fpc
  deriving DecidableEq, Repr

/-- Size code of a DM word (R60): 4 bits to 128 bits. -/
inductive MemSize where
  | b8 | b16 | b32 | b64 | b128 | b4
  deriving DecidableEq, Repr

/-- Type of an atomic (R129). -/
inductive AtomTy where
  | i32 | n32 | f32 | f16x2 | bf16x2 | i64 | n64
  deriving DecidableEq, Repr

/-- Operation of an atomic (R129). -/
inductive AtomOp where
  | add | min | max | and | or | xor | exch | inc
  deriving DecidableEq, Repr

/-- Reduction of a barrier phase (R137). -/
inductive RedOp where
  | none | and | or | sum | popc
  deriving DecidableEq, Repr

/-- Scope names (R2, R64, R181). -/
inductive Scope where
  | team | core | clus | sgrp | dom | sys
  deriving DecidableEq, Repr

/-- ORDER field of a form-1 modifier (R64). -/
inductive Order where
  | plain | acq | rel | acqrel
  deriving DecidableEq, Repr

/-- HINT field of a form-1 modifier (R64, R121). -/
inductive Hint where
  | normal | stream | keep | bypass
  deriving DecidableEq, Repr

/-- Output format of CMRG (R160). -/
inductive MrgFmt where
  | f16x2 | bf16x2 | f32
  deriving DecidableEq, Repr

/-- Tile format (R224, R226). -/
inductive TileFmt where
  | f32 | f16 | bf16 | q8 | q4
  deriving DecidableEq, Repr

/-- Output format of MDRAIN (R226). -/
inductive DrainFmt where
  | f32 | f16 | bf16
  deriving DecidableEq, Repr

/-- Block size of MHAD (R238). -/
inductive HadSize where
  | h16 | h32 | h64
  deriving DecidableEq, Repr

/-- What a TLBI drops (R120). -/
inductive TlbiOp where
  | page | asid | all
  deriving DecidableEq, Repr

/-- Ring-set element width and slot (R74, R273). -/
structure RsTy where
  wide : Bool
  slot : BitVec 2
  deriving DecidableEq, Repr

/-- Guard fields GEN, SENSE and PRED (R63, R64), and those of a DB word (R57). -/
structure Guard where
  en : Bool
  sense : Bool
  pred : P3
  deriving DecidableEq, Repr

/-- Form-0 modifier (R63). -/
structure ArithMod where
  sat : Bool
  clamp : Bool
  nega : Bool
  absa : Bool
  negb : Bool
  absb : Bool
  scale : BitVec 5
  guard : Guard
  deriving DecidableEq, Repr

/-- Form-1 modifier (R64). -/
structure MemMod where
  order : Order
  scope : Scope
  hint : Hint
  guard : Guard
  deriving DecidableEq, Repr

/-- Form-3 modifier (R66): barrier to count on, task push, shadow destination. -/
structure EngMod where
  bar : Option (BitVec 4)
  task : Bool
  shadow : Bool
  deriving DecidableEq, Repr

/-- The modifier word that follows an instruction, if any (R62). -/
inductive Mods where
  | none
  | f0 (a : ArithMod)
  | f1 (a : MemMod)
  | f2 (fill : BitVec 16)
  | f3 (a : EngMod)
  deriving DecidableEq, Repr

/-- What the header of a firmware image gives (R362): its length, and an RSA-3072 signature over its digest. -/
structure FwHeader where
  length : Nat
  signature : Vector Byte 384
  deriving DecidableEq, Repr

/-- What cut a firmware update short when the power went (R363): during the image or its check, while copy 0
was written, between the copies, while copy 1 was written. A torn copy is given as it stands in the flash. -/
inductive FwCut where
  | image (written : Nat)
  | copy0 (torn : List Byte)
  | between
  | copy1 (torn : List Byte)
  deriving DecidableEq, Repr

/-- The module-fatal events of R370. -/
inductive FatalEvent where
  | softError | dieLost | polfelTwice
  deriving DecidableEq, Repr

/-- The Redfish resources of R366. -/
inductive Redfish where
  | chassis | processors | memory | logServices | updateService | componentIntegrity
  deriving DecidableEq, Repr

/-- One constructor per row of the opcode table. -/
inductive Instr where
  -- moves and integer words (R81 to R91)
  | nop
  | mov (d b : Code) (t : ElemTy) (m : Mods)
  | movDl (d : Code) (t : ElemTy) (lit : Word) (m : Mods)
  | movi (d : Code) (imm : BitVec 10) (m : Mods)
  | kset (d a : Code) (t : ElemTy) (m : Mods)
  | iadd (d a b : Code) (t : ElemTy) (m : Mods)
  | iaddDl (d a : Code) (t : ElemTy) (lit : Word) (m : Mods)
  | iaddi (d a : Code) (imm : BitVec 10) (m : Mods)
  | isub (d a b : Code) (t : ElemTy) (m : Mods)
  | iaddc (d a b : Code) (p : P3) (m : Mods)
  | imul (d a b : Code) (t : ElemTy) (m : Mods)
  | imulDl (d a : Code) (t : ElemTy) (lit : Word) (m : Mods)
  | imulh (d a b : Code) (t : ElemTy) (m : Mods)
  | imad (d a b : Code) (t : ElemTy) (m : Mods)
  | idiv (d a b : Code) (t : ElemTy) (m : Mods)
  | irem (d a b : Code) (t : ElemTy) (m : Mods)
  | imin (d a b : Code) (t : ElemTy) (m : Mods)
  | imax (d a b : Code) (t : ElemTy) (m : Mods)
  | iabs (d a : Code) (t : ElemTy) (m : Mods)
  | and (d a b : Code) (t : ElemTy) (m : Mods)
  | andDl (d a : Code) (t : ElemTy) (lit : Word) (m : Mods)
  | or (d a b : Code) (t : ElemTy) (m : Mods)
  | orDl (d a : Code) (t : ElemTy) (lit : Word) (m : Mods)
  | xor (d a b : Code) (t : ElemTy) (m : Mods)
  | xorDl (d a : Code) (t : ElemTy) (lit : Word) (m : Mods)
  | andn (d a b : Code) (t : ElemTy) (m : Mods)
  | shl (d a b : Code) (t : ElemTy) (m : Mods)
  | shr (d a b : Code) (t : ElemTy) (m : Mods)
  | sar (d a b : Code) (t : ElemTy) (m : Mods)
  | rotl (d a b : Code) (t : ElemTy) (m : Mods)
  | shli (d a : Code) (w : Bool) (cnt : BitVec 6) (m : Mods)
  | shri (d a : Code) (w : Bool) (cnt : BitVec 6) (m : Mods)
  | sari (d a : Code) (w : Bool) (cnt : BitVec 6) (m : Mods)
  | popc (d a : Code) (t : ElemTy) (m : Mods)
  | clz (d a : Code) (t : ElemTy) (m : Mods)
  | ctz (d a : Code) (t : ElemTy) (m : Mods)
  | brev (d a : Code) (t : ElemTy) (m : Mods)
  | bfx (d a b : Code) (t : ElemTy) (m : Mods)
  | bfi (d a b : Code) (t : ElemTy) (m : Mods)
  | icmp (rel : Rel) (u : Bool) (pd : P3) (a b : Code) (t : ElemTy) (m : Mods)
  | icmpDl (rel : Rel) (u : Bool) (pd : P3) (a : Code) (t : ElemTy) (lit : Word) (m : Mods)
  | icmpi (rel : Rel) (u : Bool) (pd : P3) (a : Code) (imm : BitVec 10) (m : Mods)
  | sel (d a b : Code) (p : P3) (m : Mods)
  | lea (d a b : Code) (s : BitVec 3) (m : Mods)
  -- float words (R92 to R101)
  | fadd (d a b : Code) (t : ElemTy) (m : Mods)
  | faddDl (d a : Code) (t : ElemTy) (lit : Word) (m : Mods)
  | fsub (d a b : Code) (t : ElemTy) (m : Mods)
  | fmul (d a b : Code) (t : ElemTy) (m : Mods)
  | fmulDl (d a : Code) (t : ElemTy) (lit : Word) (m : Mods)
  | ffma (d a b : Code) (t : ElemTy) (m : Mods)
  | fmin (d a b : Code) (t : ElemTy) (m : Mods)
  | fminDl (d a : Code) (t : ElemTy) (lit : Word) (m : Mods)
  | fmax (d a b : Code) (t : ElemTy) (m : Mods)
  | fmaxDl (d a : Code) (t : ElemTy) (lit : Word) (m : Mods)
  | fcmp (rel : FRel) (any : Bool) (pd : P3) (a b : Code) (t : ElemTy) (m : Mods)
  | fcmpDl (rel : FRel) (any : Bool) (pd : P3) (a : Code) (t : ElemTy) (lit : Word) (m : Mods)
  | fclass (d a : Code) (t : ElemTy) (m : Mods)
  | frcp (d a : Code) (t : ElemTy) (m : Mods)
  | frsq (d a : Code) (t : ElemTy) (m : Mods)
  | fsqrt (d a : Code) (t : ElemTy) (m : Mods)
  | fdiv (d a b : Code) (t : ElemTy) (m : Mods)
  | fexp2 (d a : Code) (t : ElemTy) (m : Mods)
  | flog2 (d a : Code) (t : ElemTy) (m : Mods)
  | ftanh (d a : Code) (t : ElemTy) (m : Mods)
  | frnd (d a : Code) (mode : RndMode) (t : ElemTy) (m : Mods)
  | fcvt (d a : Code) (dst src : FFmt) (lane : BitVec 2) (m : Mods)
  | icvt (d a : Code) (flt : CvtFlt) (int : CvtInt) (toInt : Bool) (lane : BitVec 2) (m : Mods)
  -- group words (R102 to R106)
  | gshf (d a b : Code) (mode : GshfMode) (m : Mods)
  | gbcst (d a : Code) (u : BitVec 10) (m : Mods)
  | gvote (d a : Code) (op : VoteOp)
  | gscan (d a : Code) (excl : Bool) (op : FoldOp) (t : ElemTy)
  | gred (d a : Code) (op : FoldOp) (t : ElemTy)
  -- special registers, rounding mode, carve-out (R107 to R110)
  | sread (d : Code) (n : SReg) (m : Mods)
  | swrite (n : SReg) (a : Code) (m : Mods)
  | fmode (reg : Bool) (a : Code) (rm : Rm)
  | carve (a b : Code)
  -- memory words (R121 to R135)
  | ld (d base : Code) (size : MemSize) (off : BitVec 7) (m : Mods)
  | st (d base : Code) (size : MemSize) (off : BitVec 7) (m : Mods)
  | ldc (d base : Code) (size : MemSize) (off : BitVec 7) (m : Mods)
  | stsb (d base : Code) (size : MemSize) (off : BitVec 7) (m : Mods)
  | pref (base : Code) (l2 : Bool) (off : BitVec 7) (m : Mods)
  | atom (d a : Code) (t : AtomTy) (op : AtomOp) (m : Mods)
  | acas (d a : Code) (t : AtomTy) (m : Mods)
  | ared (d a : Code) (t : AtomTy) (op : AtomOp) (m : Mods)
  | fence (m : Mods)
  | guard (d a b : Code) (clr : Bool) (e : BitVec 2) (m : Mods)
  -- barrier words (R136 to R141)
  | binit (n : BitVec 4) (m : Mods)
  | bsync (d a : Code) (n : BitVec 4) (op : RedOp) (m : Mods)
  | barv (d a : Code) (n : BitVec 4) (op : RedOp) (m : Mods)
  | bwait (d a : Code) (n : BitVec 4) (m : Mods)
  | btest (pd : P3) (a : Code) (n : BitVec 4) (m : Mods)
  -- landing and task words (R142 to R153)
  | lopen (n : P3) (a : Code) (m : Mods)
  | lpush (pd n : P3) (a : Code) (m : Mods)
  | lpushBlockedServe (team tid : Nat)
  | lpop (pd n : P3) (a : Code) (m : Mods)
  | lpopBlockedServe (team tid : Nat)
  | ltrypop (pd n : P3) (a : Code) (m : Mods)
  | lseal (n : P3) (m : Mods)
  | lstat (n : P3) (a : Code) (m : Mods)
  | tspawn (a : Code) (m : Mods)
  | tdone (a : Code) (m : Mods)
  -- expert landings (R242 to R259)
  | lcfg (n : P3) (a : Code) (m : Mods)
  | lfire (pd n : P3) (m : Mods)
  | hbind (d a : Code) (m : Mods)
  | hdone (m : Mods)
  | landingAgeTick (cluster : Nat)
  -- context words (R155 to R175)
  | crsv (d a : Code) (trap : Bool) (pd : P3) (n : BitVec 5) (m : Mods)
  | cwkv (d a b : Code) (m : Mods)
  | cpub (d a : Code) (n : BitVec 10) (m : Mods)
  | cacq (a : Code) (m : Mods)
  | csig (d a b : Code)
  | catt (d a b : Code) (pd : P3)
  | cattBlockWrite (job : Nat)
  | cmrg (d a : Code) (f : MrgFmt) (m : Mods)
  | crel (d a : Code) (n : BitVec 10) (m : Mods)
  -- tile and matrix words (R223 to R241)
  | talloc (t a b : Code) (f : TileFmt) (m : Mods)
  | tready (t : Code) (m : Mods)
  | tdrain (t : Code) (m : Mods)
  | tfree (t : Code) (m : Mods)
  | tstat (d t : Code) (m : Mods)
  | mload (d a : Code) (s g : BitVec 5) (m : Mods)
  | macroLoadComplete (cluster mac : Nat)
  | mfire (d t : Code) (bank : P3) (cnt : BitVec 6) (m : Mods)
  | mhad (d s : Code) (p : HadSize) (m : Mods)
  | mqnt (d s r : Code) (q4 : Bool) (m : Mods)
  | mdrain (d : Code) (bank : P3) (f : DrainFmt) (m : Mods)
  | mclr (bank : P3) (e : BitVec 10) (m : Mods)
  | mres (d a : Code) (pd : P3) (m : Mods)
  -- ring-set words (R266 to R284)
  | rsring (a : Code) (ty : RsTy) (m : Mods)
  | ringTablesComplete (team slot : Nat)
  | rsadd (d a b : Code) (ty : RsTy) (m : Mods)
  | rssub (d a b : Code) (ty : RsTy) (m : Mods)
  | rsmul (d a b : Code) (ty : RsTy) (m : Mods)
  | rsdiv (d a b : Code) (ty : RsTy) (m : Mods)
  | rsneg (d a : Code) (ty : RsTy) (m : Mods)
  | rsrec (d a : Code) (ty : RsTy) (m : Mods)
  | rsmax (d a b : Code) (ty : RsTy) (m : Mods)
  | rsmin (d a b : Code) (ty : RsTy) (m : Mods)
  | rsuni (d a b : Code) (ty : RsTy) (m : Mods)
  | rsint (d a b : Code) (ty : RsTy) (m : Mods)
  | rsfrom (d a b : Code) (ty : RsTy) (m : Mods)
  | rslo (d a : Code) (ty : RsTy) (m : Mods)
  | rshi (d a : Code) (ty : RsTy) (m : Mods)
  | rstest (rel : Rel) (poss : Bool) (pd : P3) (a b : Code) (ty : RsTy) (m : Mods)
  | rspack (d a : Code) (ty : RsTy) (m : Mods)
  | rsunpk (d a : Code) (ty : RsTy) (m : Mods)
  -- engine words (R308 to R324)
  | xcopy (d a b : Code) (scope : Scope) (m : Mods)
  | xgath (d a b : Code) (pd : P3) (m : Mods)
  | xputs (d a : Code) (add : Bool) (m : Mods)
  | xshad (d a b : Code)
  | shadowUnbind (binding : Nat)
  | xpubb (a : Code)
  | shadowSwap (binding : Nat)
  | engineCommandComplete (core cmd : Nat) (badLines : List Nat)
  -- control transfers and system words (R111 to R120)
  | bra (g : Guard) (off : BitVec 19)
  | brc (sense : Bool) (p : P3) (off : BitVec 19)
  | brx (a : Code)
  | call (g : Guard) (off : BitVec 19)
  | callx (a : Code)
  | ret
  | reform
  | yield
  | exit
  | trap (imm : BitVec 10)
  | eret
  | tlbi (a b : Code) (op : TlbiOp) (m : Mods)
  -- issue, results and traps (R39 to R56, R325 to R336)
  | issueGroupDraw (ctl : Bool) (unit : Nat) (pipe : Nat)
  | resultReturn (team tid idx : Nat)
  | trapDeliver (team tid : Nat)
  | faultRecordPost (team : Nat)
  | verdictRetry (team : Nat)
  | verdictUser (team : Nat)
  | verdictKill (team : Nat)
  | tenantStop (tenant : Nat)
  | deviceRuntimeReset
  | wdogExpire (team tid : Nat)
  | softError (team : Nat) (kind : BitVec 2)
  -- launches, placement, stealing (R285 to R302, R30 to R38)
  | launchWindowWrite (window off : Nat) (data : List Byte)
  | launchActivate
  | launchLate (launch : Nat)
  | gridTaskGenerate (launch : Nat)
  | taskPlace (core : Nat)
  | taskComplete (team : Nat)
  | clusterSteal (thief : Nat)
  | dequeSpillReturn (cluster : Nat)
  | pressureSample
  | preemptForLaunch (launch : Nat)
  | teamDrainComplete (team : Nat)
  | teamSave (team : Nat)
  | teamRestore (team core : Nat)
  -- logical time, caches, translation (R191 to R201, R341 to R348)
  | ctimeTick
  | l1Writeback (core line : Nat)
  | epochChange (die : Nat)
  | coreSleep (core : Nat)
  | coreWake (core : Nat)
  | pageWalk (core asid va : Nat)
  -- the module in its system (R349 to R372)
  | diereset (die : Nat)
  | dieDrainTimeout (die : Nat)
  | dieReadmit (die : Nat)
  | dieLinkFail (die : Nat)
  | rtfailClear
  | tenantEnable (tenant : Nat)
  | tenantPreempt (tenant : Nat)
  | tenantResume (tenant : Nat)
  | tenantReset (tenant : Nat)
  | registerWrite (off : Nat) (data : List Byte)
  | polfelWatchdogReset
  | flitReceive (port : Nat) (flit : List Byte)
  | portDown (port : Nat)
  | portRetrain (port : Nat)
  | powerOnBoot
  | firmwareUpdate (image : List Byte) (header : FwHeader)
  | lifecycleChange
  | getVersion
  | getCapabilities
  | negotiateAlgorithms
  | getDigests
  | getCertificate
  | challenge (nonce : List Byte)
  | getMeasurements
  | redfishRequest (r : Redfish)
  | eolUpdate (hours : List Nat)
  | moduleFatal (e : FatalEvent)
  | powerLoss (cut : Option (List Byte × FwHeader × FwCut))
  | pcieConfigRequest (function : Nat)
  | pcapThrottle
  deriving DecidableEq, Repr

end Sys2Proof
end

