-- ==== Sys2Proof/WellFormed.lean ====
section
/-!
DEFINITION. When an instruction is well formed: the field rules of each word's own description, which no kernel
and no stream changes (Instr.wf), and the rules that look at the kernel's declared counts and at whether a team
thread or a control stream issues the word (Instr.legalIn, R58 and R69). A word that breaks either traps ILLOP.
-/

namespace Sys2Proof

/-- The all-zero guard: no guard. -/
def Guard.off : Guard := { en := false, sense := false, pred := 0 }

/-- The form-0 modifier with every field zero. -/
def ArithMod.zero : ArithMod :=
  { sat := false, clamp := false, nega := false, absa := false, negb := false, absb := false, scale := 0, guard := Guard.off }

/-- The form-1 modifier with every field zero. -/
def MemMod.zero : MemMod := { order := .plain, scope := .team, hint := .normal, guard := Guard.off }

/-- The form-3 modifier with every field zero. -/
def EngMod.zero : EngMod := { bar := none, task := false, shadow := false }

/-- Which modifier word an instruction accepts. -/
inductive ModSpec where
  | no
  | arith (sat clamp a b scale : Bool)
  | mem (acq rel acqrel plain : Bool) (hints : List Hint)
  | fill
  | eng (task shadow : Bool)
  deriving DecidableEq, Repr

/-- A guard in form 0 and nothing else. -/
def ModSpec.guardOnly : ModSpec := .arith false false false false false

/-- The modifier word each instruction accepts: R80, R121, R161, R226, R244, R274, R310. -/
def Instr.modSpec : Instr → ModSpec
  | .iadd .. | .iaddDl .. | .iaddi .. | .isub .. | .imul .. | .imulDl .. | .imad .. | .idiv .. | .iabs .. =>
      .arith true false false false false
  | .mov .. | .movDl .. | .movi .. | .kset .. | .iaddc .. | .imulh .. | .irem .. | .imin .. | .imax .. | .and ..
  | .andDl .. | .or .. | .orDl .. | .xor .. | .xorDl .. | .andn .. | .shl .. | .shr .. | .sar .. | .rotl .. | .shli ..
  | .shri .. | .sari .. | .popc .. | .clz .. | .ctz .. | .brev .. | .bfx .. | .bfi .. | .icmp .. | .icmpDl ..
  | .icmpi .. | .sel .. | .lea .. | .fclass .. | .sread .. | .swrite .. | .tlbi .. => .guardOnly
  | .fadd .. | .faddDl .. | .fsub .. | .fmul .. | .fmulDl .. | .ffma .. | .frcp .. | .fsqrt .. | .fdiv .. =>
      .arith true true true true true
  | .frsq .. | .fexp2 .. | .flog2 .. | .ftanh .. => .arith true true true true false
  | .fmin .. | .fminDl .. | .fmax .. | .fmaxDl .. | .fcmp .. | .fcmpDl .. => .arith false false true true false
  | .frnd .. => .arith false false true false false
  | .fcvt .. | .icvt .. => .arith true false true false true
  | .gshf .. | .gbcst .. => .fill
  | .ld .. => .mem true false false true [.normal, .stream, .keep, .bypass]
  | .st .. | .stsb .. => .mem false true false true [.normal, .stream, .keep, .bypass]
  | .ldc .. => .mem false false false true [.normal, .stream, .keep]
  | .pref .. => .mem false false false true [.normal, .stream, .keep, .bypass]
  | .atom .. | .acas .. => .mem true true true true [.normal]
  | .ared .. => .mem false true false true [.normal]
  | .fence .. => .mem true true true false [.normal]
  | .guard .. => .mem false false false true [.normal]
  | .cpub .. => .mem false true false false [.normal]
  | .cacq .. => .mem true false false false [.normal]
  | .binit .. | .bsync .. | .barv .. | .bwait .. | .btest .. | .lopen .. | .lpush .. | .lpop .. | .ltrypop .. | .lseal ..
  | .lstat .. | .tspawn .. | .tdone .. | .lcfg .. | .lfire .. | .hbind .. | .hdone .. | .crsv .. | .cwkv .. | .cmrg ..
  | .crel .. | .talloc .. | .tready .. | .tdrain .. | .tfree .. | .tstat .. | .mload .. | .mfire .. | .mhad .. | .mqnt ..
  | .mdrain .. | .mclr .. | .mres .. | .rsring .. | .rsadd .. | .rssub .. | .rsmul .. | .rsdiv .. | .rsneg .. | .rsrec ..
  | .rsmax .. | .rsmin .. | .rsuni .. | .rsint .. | .rsfrom .. | .rslo .. | .rshi .. | .rstest .. | .rspack ..
  | .rsunpk .. => .guardOnly
  | .xcopy .. => .eng true true
  | .xgath .. | .xputs .. => .eng false false
  | .nop | .gvote .. | .gscan .. | .gred .. | .fmode .. | .carve .. | .csig .. | .catt .. | .xshad .. | .xpubb .. | .bra ..
  | .brc .. | .brx .. | .call .. | .callx .. | .ret | .reform | .yield | .exit | .trap .. | .eret => .no
  | .lpushBlockedServe .. | .lpopBlockedServe .. | .landingAgeTick .. | .cattBlockWrite .. | .macroLoadComplete ..
  | .ringTablesComplete .. | .shadowUnbind .. | .shadowSwap .. | .engineCommandComplete .. | .issueGroupDraw ..
  | .resultReturn .. | .trapDeliver .. | .faultRecordPost .. | .verdictRetry .. | .verdictUser .. | .verdictKill ..
  | .tenantStop .. | .deviceRuntimeReset | .wdogExpire .. | .softError .. | .launchWindowWrite .. | .launchActivate
  | .launchLate .. | .gridTaskGenerate .. | .taskPlace .. | .taskComplete .. | .clusterSteal .. | .dequeSpillReturn ..
  | .pressureSample | .preemptForLaunch .. | .teamDrainComplete .. | .teamSave .. | .teamRestore .. | .ctimeTick
  | .l1Writeback .. | .epochChange .. | .coreSleep .. | .coreWake .. | .pageWalk .. | .diereset .. | .dieDrainTimeout ..
  | .dieReadmit .. | .dieLinkFail .. | .rtfailClear | .tenantEnable .. | .tenantPreempt .. | .tenantResume ..
  | .tenantReset .. | .registerWrite .. | .polfelWatchdogReset | .flitReceive .. | .portDown .. | .portRetrain ..
  | .powerOnBoot | .firmwareUpdate .. | .lifecycleChange | .getVersion | .getCapabilities | .negotiateAlgorithms
  | .getDigests | .getCertificate | .challenge .. | .getMeasurements | .redfishRequest .. | .eolUpdate .. | .moduleFatal ..
  | .powerLoss .. | .pcieConfigRequest .. | .pcapThrottle => .no

/-- The modifier word an instruction carries. -/
def Instr.mods : Instr → Mods
  | .mov _ _ _ m | .movDl _ _ _ m | .movi _ _ m | .kset _ _ _ m | .iadd _ _ _ _ m | .iaddDl _ _ _ _ m | .iaddi _ _ _ m
  | .isub _ _ _ _ m | .iaddc _ _ _ _ m | .imul _ _ _ _ m | .imulDl _ _ _ _ m | .imulh _ _ _ _ m | .imad _ _ _ _ m
  | .idiv _ _ _ _ m | .irem _ _ _ _ m | .imin _ _ _ _ m | .imax _ _ _ _ m | .iabs _ _ _ m | .and _ _ _ _ m
  | .andDl _ _ _ _ m | .or _ _ _ _ m | .orDl _ _ _ _ m | .xor _ _ _ _ m | .xorDl _ _ _ _ m | .andn _ _ _ _ m
  | .shl _ _ _ _ m | .shr _ _ _ _ m | .sar _ _ _ _ m | .rotl _ _ _ _ m | .shli _ _ _ _ m | .shri _ _ _ _ m
  | .sari _ _ _ _ m | .popc _ _ _ m | .clz _ _ _ m | .ctz _ _ _ m | .brev _ _ _ m | .bfx _ _ _ _ m | .bfi _ _ _ _ m
  | .icmp _ _ _ _ _ _ m | .icmpDl _ _ _ _ _ _ m | .icmpi _ _ _ _ _ m | .sel _ _ _ _ m | .lea _ _ _ _ m
  | .fadd _ _ _ _ m | .faddDl _ _ _ _ m | .fsub _ _ _ _ m | .fmul _ _ _ _ m | .fmulDl _ _ _ _ m | .ffma _ _ _ _ m
  | .fmin _ _ _ _ m | .fminDl _ _ _ _ m | .fmax _ _ _ _ m | .fmaxDl _ _ _ _ m | .fcmp _ _ _ _ _ _ m
  | .fcmpDl _ _ _ _ _ _ m | .fclass _ _ _ m | .frcp _ _ _ m | .frsq _ _ _ m | .fsqrt _ _ _ m | .fdiv _ _ _ _ m
  | .fexp2 _ _ _ m | .flog2 _ _ _ m | .ftanh _ _ _ m | .frnd _ _ _ _ m | .fcvt _ _ _ _ _ m | .icvt _ _ _ _ _ _ m
  | .gshf _ _ _ _ m | .gbcst _ _ _ m | .sread _ _ m | .swrite _ _ m | .ld _ _ _ _ m | .st _ _ _ _ m | .ldc _ _ _ _ m
  | .stsb _ _ _ _ m | .pref _ _ _ m | .atom _ _ _ _ m | .acas _ _ _ m | .ared _ _ _ _ m | .fence m | .guard _ _ _ _ _ m
  | .binit _ m | .bsync _ _ _ _ m | .barv _ _ _ _ m | .bwait _ _ _ m | .btest _ _ _ m | .lopen _ _ m | .lpush _ _ _ m
  | .lpop _ _ _ m | .ltrypop _ _ _ m | .lseal _ m | .lstat _ _ m | .tspawn _ m | .tdone _ m | .lcfg _ _ m | .lfire _ _ m
  | .hbind _ _ m | .hdone m | .crsv _ _ _ _ _ m | .cwkv _ _ _ m | .cpub _ _ _ m | .cacq _ m | .cmrg _ _ _ m
  | .crel _ _ _ m | .talloc _ _ _ _ m | .tready _ m | .tdrain _ m | .tfree _ m | .tstat _ _ m | .mload _ _ _ _ m
  | .mfire _ _ _ _ m | .mhad _ _ _ m | .mqnt _ _ _ _ m | .mdrain _ _ _ m | .mclr _ _ m | .mres _ _ _ m
  | .rsring _ _ m | .rsadd _ _ _ _ m | .rssub _ _ _ _ m | .rsmul _ _ _ _ m | .rsdiv _ _ _ _ m | .rsneg _ _ _ m
  | .rsrec _ _ _ m | .rsmax _ _ _ _ m | .rsmin _ _ _ _ m | .rsuni _ _ _ _ m | .rsint _ _ _ _ m | .rsfrom _ _ _ _ m
  | .rslo _ _ _ m | .rshi _ _ _ m | .rstest _ _ _ _ _ _ m | .rspack _ _ _ m | .rsunpk _ _ _ m | .xcopy _ _ _ _ m
  | .xgath _ _ _ _ m | .xputs _ _ _ m | .tlbi _ _ _ m => m
  | .nop | .gvote .. | .gscan .. | .gred .. | .fmode .. | .carve .. | .csig .. | .catt .. | .xshad .. | .xpubb .. | .bra ..
  | .brc .. | .brx .. | .call .. | .callx .. | .ret | .reform | .yield | .exit | .trap .. | .eret
  | .lpushBlockedServe .. | .lpopBlockedServe .. | .landingAgeTick .. | .cattBlockWrite .. | .macroLoadComplete ..
  | .ringTablesComplete .. | .shadowUnbind .. | .shadowSwap .. | .engineCommandComplete .. | .issueGroupDraw ..
  | .resultReturn .. | .trapDeliver .. | .faultRecordPost .. | .verdictRetry .. | .verdictUser .. | .verdictKill ..
  | .tenantStop .. | .deviceRuntimeReset | .wdogExpire .. | .softError .. | .launchWindowWrite .. | .launchActivate
  | .launchLate .. | .gridTaskGenerate .. | .taskPlace .. | .taskComplete .. | .clusterSteal .. | .dequeSpillReturn ..
  | .pressureSample | .preemptForLaunch .. | .teamDrainComplete .. | .teamSave .. | .teamRestore .. | .ctimeTick
  | .l1Writeback .. | .epochChange .. | .coreSleep .. | .coreWake .. | .pageWalk .. | .diereset .. | .dieDrainTimeout ..
  | .dieReadmit .. | .dieLinkFail .. | .rtfailClear | .tenantEnable .. | .tenantPreempt .. | .tenantResume ..
  | .tenantReset .. | .registerWrite .. | .polfelWatchdogReset | .flitReceive .. | .portDown .. | .portRetrain ..
  | .powerOnBoot | .firmwareUpdate .. | .lifecycleChange | .getVersion | .getCapabilities | .negotiateAlgorithms
  | .getDigests | .getCertificate | .challenge .. | .getMeasurements | .redfishRequest .. | .eolUpdate .. | .moduleFatal ..
  | .powerLoss .. | .pcieConfigRequest .. | .pcapThrottle => .none

/-- Whether a modifier word is one that the specification `p` accepts (R62 to R67). CPUB and CACQ carry their guard in their form 1
(log 92). -/
def ModSpec.accepts (p : ModSpec) (m : Mods) : Bool :=
  match p, m with
  | .mem _ _ _ plain _, .none => plain
  | _, .none => true
  | .arith sat clamp a b scale, .f0 x =>
      (sat || !x.sat) && (clamp || !x.clamp) && (a || (!x.nega && !x.absa)) && (b || (!x.negb && !x.absb))
        && (scale || x.scale == 0)
  | .mem acq rel acqrel plain hints, .f1 x =>
      (match x.order with | .plain => plain && x.scope == .team | .acq => acq | .rel => rel | .acqrel => acqrel)
        && hints.contains x.hint
  | .fill, .f2 _ => true
  | .eng task shadow, .f3 x => (task || !x.task) && (shadow || !x.shadow)
  | _, _ => false

/-- Whether the modifier word the instruction carries is one it accepts. -/
def Instr.modsOk (i : Instr) : Bool := i.modSpec.accepts i.mods

/-- Integer types 000, 001 and 101. -/
def ElemTy.isInt3 : ElemTy → Bool
  | .i32 | .n32 | .i64 => true
  | _ => false

/-- Integer types 000, 001, 101 and 111. -/
def ElemTy.isInt4 : ElemTy → Bool
  | .i32 | .n32 | .i64 | .i16x2 => true
  | _ => false

/-- The four float types 010, 011, 100 and 110. -/
def ElemTy.isFloat : ElemTy → Bool
  | .f32 | .f16x2 | .bf16x2 | .f64 => true
  | _ => false

/-- The float types without f64. -/
def ElemTy.isFloat3 : ElemTy → Bool
  | .f32 | .f16x2 | .bf16x2 => true
  | _ => false

/-- Types that occupy an even pair. -/
def ElemTy.isPair : ElemTy → Bool
  | .i64 | .f64 => true
  | _ => false

/-- FCVT formats of two 16-bit halves. -/
def FFmt.isPacked : FFmt → Bool
  | .f16x2 | .bf16x2 => true
  | _ => false

/-- FCVT formats that occupy one half. -/
def FFmt.isHalf : FFmt → Bool
  | .f16 | .bf16 => true
  | _ => false

/-- FCVT formats that occupy one byte. -/
def FFmt.isByte : FFmt → Bool
  | .e4m3 | .e5m2 | .pp8 => true
  | _ => false

/-- The combinations of operation and type that R129 lists. -/
def AtomOp.accepts : AtomOp → AtomTy → Bool
  | .and, t | .or, t | .xor, t => t == .i32 || t == .n32 || t == .i64 || t == .n64
  | .inc, t => t == .n32 || t == .n64
  | _, _ => true

/-- Whether SWRITE may ever write the register (R70). -/
def SReg.writable : SReg → Bool
  | .flags | .fault | .faddr | .fpc => true
  | _ => false

/-- Whether the register is 64 bits wide (R70). -/
def SReg.isWide : SReg → Bool
  | .taskarg | .clock | .faddr | .fpc => true
  | _ => false

/-- The field rules of each word's description, apart from its modifier word. -/
def Instr.fieldsOk : Instr → Bool
  | .kset d _ t _ => (t == .i32 || t == .i64) && 96 ≤ d.toNat && d.toNat < 127 && !(t == .i64 && d.toNat == 126)
  | .mov _ b _ _ => b != 0
  | .iadd _ _ b t _ | .imul _ _ b t _ => b != 0 && t.isInt4
  | .isub _ _ _ t _ | .imin _ _ _ t _ | .imax _ _ _ t _ => t.isInt4
  | .iaddDl _ _ t _ _ | .imulDl _ _ t _ _ => t.isInt4
  | .imulh _ _ _ t _ => t == .i32 || t == .n32
  | .imad _ _ _ t _ | .idiv _ _ _ t _ => t.isInt3
  | .irem _ _ _ t _ => t.isInt3
  | .iabs _ _ t _ => t == .i32 || t == .i64 || t == .i16x2
  | .and _ _ b t _ | .or _ _ b t _ | .xor _ _ b t _ => b != 0 && t.isInt3
  | .andDl _ _ t _ _ | .orDl _ _ t _ _ | .xorDl _ _ t _ _ | .andn _ _ _ t _ => t.isInt3
  | .shl _ _ _ t _ | .shr _ _ _ t _ | .sar _ _ _ t _ | .rotl _ _ _ t _ => t.isInt4
  | .shli _ _ w c _ | .shri _ _ w c _ | .sari _ _ w c _ => w || c.toNat < 32
  | .popc _ _ t _ | .clz _ _ t _ | .ctz _ _ t _ | .brev _ _ t _ => t.isInt3
  | .bfx _ _ _ t _ => t == .i32 || t == .n32
  | .bfi _ _ _ t _ => t == .i32
  | .icmp _ u _ _ b t _ => b != 0 && t.isInt3 && (t == .i64 || !u)
  | .icmpDl _ u _ _ t _ _ => t.isInt3 && (t == .i64 || !u)
  | .fadd _ _ b t _ | .fmul _ _ b t _ | .fmin _ _ b t _ | .fmax _ _ b t _ => b != 0 && t.isFloat
  | .faddDl _ _ t _ _ | .fmulDl _ _ t _ _ | .fminDl _ _ t _ _ | .fmaxDl _ _ t _ _ => t.isFloat
  | .fsub _ _ _ t _ | .ffma _ _ _ t _ | .fdiv _ _ _ t _ => t.isFloat
  | .fcmp _ any _ _ b t _ => b != 0 && t.isFloat && (!any || t == .f16x2 || t == .bf16x2)
  | .fcmpDl _ any _ _ t _ _ => t.isFloat && (!any || t == .f16x2 || t == .bf16x2)
  | .fclass _ _ t _ | .frcp _ _ t _ | .fsqrt _ _ t _ | .frnd _ _ _ t _ => t.isFloat
  | .frsq _ _ t _ | .fexp2 _ _ t _ | .flog2 _ _ t _ | .ftanh _ _ t _ => t.isFloat3
  | .fcvt _ _ x s l _ =>
      x != s && x.isPacked == s.isPacked && (x.isHalf || x.isByte || s.isHalf || s.isByte || l == 0)
        && (!(x.isHalf || s.isHalf) || l.toNat < 2)
  | .icvt _ _ f _ _ l _ => l.toNat < 2 && (f == .f16 || f == .bf16 || l == 0)
  | .gscan _ _ _ op t => (t.isInt3 || t == .f32) && (t != .f32 || op == .add || op == .min || op == .max)
  | .gred _ _ op t => (t.isInt3 || t == .f32) && (t != .f32 || op == .add || op == .min || op == .max)
  | .swrite n _ _ => n.writable
  | .fmode reg a rm => if reg then rm == .rne else a == 0
  | .st _ _ sz _ _ | .ldc _ _ sz _ _ => sz != .b4
  | .stsb _ _ sz _ _ => sz == .b8 || sz == .b4
  | .atom _ _ t op _ => op.accepts t
  | .acas _ _ t _ => t == .i32 || t == .n32 || t == .f32 || t == .i64 || t == .n64
  | .ared _ _ t op _ => op != .exch && op.accepts t
  | .guard d _ b clr e _ => !clr || (d == 0 && b == 0 && e == 0)
  | .bsync d a _ op _ => op != .none || (d == 0 && a == 0)
  | .barv _ a _ op _ => op != .none || a == 0
  | .lpush _ _ a _ | .lpop _ _ a _ => a.toNat ≤ 80
  | .ltrypop pd _ a _ => pd != 7 && a.toNat ≤ 80
  | .crsv _ _ _ _ n _ => 1 ≤ n.toNat && n.toNat ≤ 16
  | .cpub _ _ n _ | .crel _ _ n _ => n != 0
  | .talloc t _ _ _ _ | .tready t _ | .tdrain t _ | .tfree t _ | .tstat _ t _ => t.toNat < 64
  | .mfire d t _ c _ => t.toNat < 64 && d.toNat + c.toNat ≤ 32
  | .mhad d s _ _ => d.toNat < 64 && s.toNat < 64
  | .mqnt d s _ _ _ => d.toNat < 64 && s.toNat < 64
  | .mdrain d _ _ _ => d.toNat < 64
  | .tlbi a b op _ => match op with | .page => true | .asid => a == 0 | .all => a == 0 && b == 0
  | _ => true

/-- An instruction that the tables of the manual let stand in some clause. -/
def Instr.wf (i : Instr) : Bool := i.fieldsOk && i.modsOk

/-- Whether the row is an event of the machine or of the outside world, which no clause word encodes. -/
def Instr.isEvent : Instr → Bool
  | .lpushBlockedServe .. | .lpopBlockedServe .. | .landingAgeTick .. | .cattBlockWrite .. | .macroLoadComplete ..
  | .ringTablesComplete .. | .shadowUnbind .. | .shadowSwap .. | .engineCommandComplete .. | .issueGroupDraw ..
  | .resultReturn .. | .trapDeliver .. | .faultRecordPost .. | .verdictRetry .. | .verdictUser .. | .verdictKill ..
  | .tenantStop .. | .deviceRuntimeReset | .wdogExpire .. | .softError .. | .launchWindowWrite .. | .launchActivate
  | .launchLate .. | .gridTaskGenerate .. | .taskPlace .. | .taskComplete .. | .clusterSteal .. | .dequeSpillReturn ..
  | .pressureSample | .preemptForLaunch .. | .teamDrainComplete .. | .teamSave .. | .teamRestore .. | .ctimeTick
  | .l1Writeback .. | .epochChange .. | .coreSleep .. | .coreWake .. | .pageWalk .. | .diereset .. | .dieDrainTimeout ..
  | .dieReadmit .. | .dieLinkFail .. | .rtfailClear | .tenantEnable .. | .tenantPreempt .. | .tenantResume ..
  | .tenantReset .. | .registerWrite .. | .polfelWatchdogReset | .flitReceive .. | .portDown .. | .portRetrain ..
  | .powerOnBoot | .firmwareUpdate .. | .lifecycleChange | .getVersion | .getCapabilities | .negotiateAlgorithms
  | .getDigests | .getCertificate | .challenge .. | .getMeasurements | .redfishRequest .. | .eolUpdate .. | .moduleFatal ..
  | .powerLoss .. | .pcieConfigRequest .. | .pcapThrottle => true
  | _ => false

/-- Class numbers of R51, and the words that may stand in a clause of any class (R53). -/
inductive Cls where
  | alu | mem | sync | ctx | mat | eng | sys | any
  deriving DecidableEq, Repr

/-- The class of a word (R53). -/
def Instr.cls : Instr → Cls
  | .nop | .bra .. | .brc .. | .brx .. | .call .. | .callx .. | .ret | .reform | .yield | .exit => .any
  | .ld .. | .st .. | .ldc .. | .stsb .. | .pref .. | .atom .. | .acas .. | .ared .. | .fence .. | .guard .. => .mem
  | .binit .. | .bsync .. | .barv .. | .bwait .. | .btest .. | .lopen .. | .lpush .. | .lpop .. | .ltrypop .. | .lseal ..
  | .lstat .. | .tspawn .. | .tdone .. | .lcfg .. | .lfire .. | .hbind .. | .hdone .. => .sync
  | .crsv .. | .cwkv .. | .cpub .. | .cacq .. | .csig .. | .catt .. | .cmrg .. | .crel .. => .ctx
  | .talloc .. | .tready .. | .tdrain .. | .tfree .. | .tstat .. | .mload .. | .mfire .. | .mhad .. | .mqnt .. | .mdrain ..
  | .mclr .. | .mres .. => .mat
  | .xcopy .. | .xgath .. | .xputs .. | .xshad .. | .xpubb .. => .eng
  | .swrite .. | .fmode .. | .carve .. | .trap .. | .eret | .tlbi .. => .sys
  | _ => .alu

/-- Words that must be the last of their clause, followed at most by their modifier word (R53, R109, R122, R161,
R227). -/
def Instr.mustBeLast : Instr → Bool
  | .bra .. | .brc .. | .brx .. | .call .. | .callx .. | .ret | .reform | .yield | .exit | .trap .. | .eret | .fmode ..
  | .lpush .. | .lpop .. | .bsync .. | .bwait .. | .csig .. | .catt .. | .mload .. | .mfire .. | .mhad .. | .mqnt ..
  | .mdrain .. | .mclr .. | .mres .. => true
  | _ => false

/-- The words a control stream accepts (R69, R226). -/
def Instr.inStream : Instr → Bool
  | .mov _ _ t _ | .movDl _ t _ _ | .iadd _ _ _ t _ | .iaddDl _ _ t _ _ | .isub _ _ _ t _ | .imul _ _ _ t _
  | .imulDl _ _ t _ _ | .imulh _ _ _ t _ | .imad _ _ _ t _ | .idiv _ _ _ t _ | .irem _ _ _ t _ | .imin _ _ _ t _
  | .imax _ _ _ t _ | .iabs _ _ t _ | .and _ _ _ t _ | .andDl _ _ t _ _ | .or _ _ _ t _ | .orDl _ _ t _ _
  | .xor _ _ _ t _ | .xorDl _ _ t _ _ | .andn _ _ _ t _ | .shl _ _ _ t _ | .shr _ _ _ t _ | .sar _ _ _ t _
  | .rotl _ _ _ t _ | .popc _ _ t _ | .clz _ _ t _ | .ctz _ _ t _ | .brev _ _ t _ | .bfx _ _ _ t _ | .bfi _ _ _ t _
  | .icmp _ _ _ _ _ t _ | .icmpDl _ _ _ _ t _ _ => t.isInt3
  | .nop | .movi .. | .iaddi .. | .iaddc .. | .shli .. | .shri .. | .sari .. | .icmpi .. | .sel .. | .lea .. | .sread ..
  | .ld .. | .st .. | .atom .. | .acas .. | .fence .. | .bsync .. | .barv .. | .bwait .. | .btest .. | .talloc ..
  | .tready .. | .tdrain .. | .tfree .. | .tstat .. | .mload .. | .mfire .. | .mdrain .. | .mclr .. | .mres .. | .bra ..
  | .brc .. | .call .. | .ret | .exit => true
  | _ => false

/-- The words a team thread accepts: all but those that only a control stream may issue (R226). -/
def Instr.inTeam : Instr → Bool
  | .mload .. | .mfire .. | .mdrain .. | .mclr .. | .mres .. => false
  | i => !i.isEvent

/-- One register operand: its code, how many 32-bit registers it covers, whether the word writes it, and what the
code must be a multiple of. -/
structure Use where
  code : Code
  regs : Nat
  writes : Bool
  align : Nat
  deriving DecidableEq, Repr

/-- A 32-bit source. -/
def Use.src (c : Code) : Use := { code := c, regs := 1, writes := false, align := 1 }
/-- A pair source. -/
def Use.src2 (c : Code) : Use := { code := c, regs := 2, writes := false, align := 2 }
/-- A 32-bit destination. -/
def Use.dst (c : Code) : Use := { code := c, regs := 1, writes := true, align := 1 }
/-- A pair destination. -/
def Use.dst2 (c : Code) : Use := { code := c, regs := 2, writes := true, align := 2 }
/-- A source of the width of a type. -/
def Use.srcT (t : ElemTy) (c : Code) : Use := if t.isPair then .src2 c else .src c
/-- A destination of the width of a type. -/
def Use.dstT (t : ElemTy) (c : Code) : Use := if t.isPair then .dst2 c else .dst c

/-- Whether an atomic type names a pair. -/
def AtomTy.isPair : AtomTy → Bool
  | .i64 | .n64 => true
  | _ => false

/-- The register operand of a load or store: registers covered, and the alignment R123 asks of its code. -/
def Use.data (w : Bool) (c : Code) (sz : MemSize) : Use :=
  match sz with
  | .b64 => { code := c, regs := 2, writes := w, align := 2 }
  | .b128 => { code := c, regs := 4, writes := w, align := 4 }
  | _ => { code := c, regs := 1, writes := w, align := 1 }

/-- The register operands of a word in a team thread (R58, R77 and each description). -/
def Instr.uses : Instr → List Use
  | .mov d b t _ => [.dstT t d, .srcT t b]
  | .movDl d t _ _ => [.dstT t d]
  | .movi d _ _ => [.dst d]
  | .kset d a t _ => [.srcT t d, .srcT t a]
  | .iadd d a b t _ | .isub d a b t _ | .imul d a b t _ | .imulh d a b t _ | .imad d a b t _ | .idiv d a b t _
  | .irem d a b t _ | .imin d a b t _ | .imax d a b t _ | .and d a b t _ | .or d a b t _ | .xor d a b t _ | .andn d a b t _
  | .shl d a b t _ | .shr d a b t _ | .sar d a b t _ | .rotl d a b t _ | .bfx d a b t _ | .bfi d a b t _ | .fadd d a b t _
  | .fsub d a b t _ | .fmul d a b t _ | .ffma d a b t _ | .fmin d a b t _ | .fmax d a b t _ | .fdiv d a b t _ =>
      [.dstT t d, .srcT t a, .srcT t b]
  | .iaddDl d a t _ _ | .imulDl d a t _ _ | .andDl d a t _ _ | .orDl d a t _ _ | .xorDl d a t _ _ | .faddDl d a t _ _
  | .fmulDl d a t _ _ | .fminDl d a t _ _ | .fmaxDl d a t _ _ => [.dstT t d, .srcT t a]
  | .iabs d a t _ | .popc d a t _ | .clz d a t _ | .ctz d a t _ | .brev d a t _ | .frcp d a t _ | .frsq d a t _
  | .fsqrt d a t _ | .fexp2 d a t _ | .flog2 d a t _ | .ftanh d a t _ | .frnd d a _ t _ => [.dstT t d, .srcT t a]
  | .fclass d a t _ => [.dst d, .srcT t a]
  | .iaddi d a _ _ => [.dst d, .src a]
  | .iaddc d a b _ _ | .sel d a b _ _ => [.dst d, .src a, .src b]
  | .shli d a w _ _ | .shri d a w _ _ | .sari d a w _ _ => if w then [.dst2 d, .src2 a] else [.dst d, .src a]
  | .icmp _ _ _ a b t _ => [.srcT t a, .srcT t b]
  | .icmpDl _ _ _ a t _ _ => [.srcT t a]
  | .icmpi _ _ _ a _ _ => [.src a]
  | .lea d a b _ _ => [.dst2 d, .src2 a, .src b]
  | .fcmp _ _ _ a b t _ => [.srcT t a, .srcT t b]
  | .fcmpDl _ _ _ a t _ _ => [.srcT t a]
  | .fcvt d a x s _ _ => [if x == .f64 then .dst2 d else .dst d, if s == .f64 then .src2 a else .src a]
  | .icvt d a f n toInt _ _ =>
      let wideF := f == .f64
      let wideN := n == .i64 || n == .n64
      let (wd, wa) := if toInt then (wideN, wideF) else (wideF, wideN)
      [if wd then .dst2 d else .dst d, if wa then .src2 a else .src a]
  | .gshf d a b _ _ => [.dst d, .src a, .src b]
  | .gbcst d a _ _ | .gvote d a _ => [.dst d, .src a]
  | .gscan d a _ _ t | .gred d a _ t => [.dstT t d, .srcT t a]
  | .sread d n _ => [if n.isWide then .dst2 d else .dst d]
  | .swrite n a _ => [if n.isWide then .src2 a else .src a]
  | .fmode reg a _ => if reg then [.src a] else []
  | .carve a b => [.src a, .src b]
  | .ld d b sz _ _ | .ldc d b sz _ _ => [.data true d sz, .src2 b]
  | .st d b sz _ _ | .stsb d b sz _ _ => [.data false d sz, .src2 b]
  | .pref b _ _ _ => [.src2 b]
  | .atom d a t _ _ => [if t.isPair then .dst2 d else .dst d, .src2 a]
  | .ared d a t _ _ => [if t.isPair then .src2 d else .src d, .src2 a]
  | .acas d a t _ => [if t.isPair then { code := d, regs := 4, writes := true, align := 4 } else .dst2 d, .src2 a]
  | .guard d a b clr _ _ => if clr then [.src2 a] else [.src d, .src2 a, .src2 b]
  | .bsync d a _ op _ => if op == .none then [] else [.dst d, .src a]
  | .barv d a _ op _ => if op == .none then [.dst d] else [.dst d, .src a]
  | .bwait d a _ _ => [.dst d, .src a]
  | .btest _ a _ _ => [.src a]
  | .lopen _ a _ | .tspawn a _ | .tdone a _ | .lcfg _ a _ | .cacq a _ | .xpubb a | .brx a | .callx a
  | .rsring a _ _ => [.src2 a]
  | .lpush _ _ a _ => [{ code := a, regs := 16, writes := false, align := 1 }]
  | .lpop _ _ a _ | .ltrypop _ _ a _ => [{ code := a, regs := 16, writes := true, align := 1 }]
  | .lstat _ a _ => [.dst a]
  | .hbind d a _ => [.dst d, .src2 a]
  | .crsv d a _ _ _ _ => [.dst d, .src2 a]
  | .cwkv d a b _ => [.src d, .src2 a, .src2 b]
  | .cpub d a _ _ | .crel d a _ _ => [.src d, .src2 a]
  | .csig d a b => [.dst2 d, .src2 a, { code := b, regs := 2, writes := false, align := 1 }]
  | .catt d a b _ => [.src2 d, .src2 a, { code := b, regs := 4, writes := false, align := 1 }]
  | .cmrg d a f _ => [if f == .f32 then .dst2 d else .dst d, .src2 a]
  | .talloc _ a b _ _ => [.src2 a, .src b]
  | .tstat d _ _ => [.dst d]
  | .mqnt _ _ r _ _ => [{ code := r, regs := 2, writes := false, align := 1 }]
  | .rsadd d a b _ _ | .rssub d a b _ _ | .rsmul d a b _ _ | .rsdiv d a b _ _ | .rsmax d a b _ _ | .rsmin d a b _ _
  | .rsuni d a b _ _ | .rsint d a b _ _ | .rsfrom d a b _ _ => [.dst d, .src a, .src b]
  | .rsneg d a _ _ | .rsrec d a _ _ | .rslo d a _ _ | .rshi d a _ _ | .rspack d a _ _ | .rsunpk d a _ _ => [.dst d, .src a]
  | .rstest _ _ _ a b _ _ => [.src a, .src b]
  | .xcopy d a b _ m =>
      [.src2 d, .src2 a, .src b] ++
        (match m with
         | .f3 x => if x.task then [{ code := b, regs := 4, writes := false, align := 4 }] else []
         | _ => [])
  | .xgath d a b _ _ => [.src2 d, .src a, .src b]
  | .xputs d a _ _ => [.src d, .src2 a]
  | .xshad d a b => [.src2 d, .src2 a, .src b]
  | .tlbi a b op _ => match op with | .page => [.src2 a, .src b] | .asid => [.src b] | .all => []
  | _ => []

/-- The c registers a word names in a control stream: first register and how many it takes (R69, R123, R130). -/
def Instr.streamUses : Instr → List (Code × Nat)
  | .ld d b sz _ _ | .st d b sz _ _ => [(d, if sz == .b128 then 4 else 1), (b, 1)]
  | .acas d a t _ => [(d, if t.isPair then 3 else 2), (a, 1)]
  | .mload d a s g _ => [(d, 1), (a, 1), (s.setWidth 7, 1), (g.setWidth 7, 1)]
  | .mfire d _ _ c _ => [(d, if c.toNat = 0 then 1 else c.toNat)]
  | .mres d a _ _ => [(d, 1), (a, 1)]
  | i => i.uses.map fun u => (u.code, 1)

/-- Whether the register that a memory word names in a control stream is a multiple of what R123 and R130 ask for (log 87). -/
def Instr.streamEven : Instr → Bool
  | .ld d _ sz _ _ | .st d _ sz _ _ => d.toNat % (match sz with | .b64 => 2 | .b128 => 4 | _ => 1) == 0
  | .acas d _ t _ => d.toNat % (if t.isPair then 4 else 2) == 0
  | _ => true

/-- What the checks of R58 and R69 look at: the kind of agent, the kernel's declared counts in force, and the two
privileges a word may need (R70, R119, R120). -/
structure Limits where
  stream : Bool
  vregs : Nat
  kregs : Nat
  bars : Nat
  lands : Nat
  sup : Bool
  handler : Bool
  deriving DecidableEq, Repr

/-- R58 for one operand of a team thread. The rule speaks of the code; that every register of a pair or a block has to lie below the
declared count, where the count is odd, is the model's reading (log 91). -/
def Use.ok (l : Limits) (u : Use) : Bool :=
  let c := u.code.toNat
  if c < 96 then c % u.align == 0 && c + u.regs ≤ l.vregs
  else if u.writes then false
  else if c = 127 then u.align ≤ 2
  else c % u.align == 0 && (c + u.regs - 96 ≤ l.kregs || (c + u.regs = 128 && c + u.regs - 97 ≤ l.kregs))

/-- The words whose register block must be v registers (R58, R146, R160, R226). -/
def Instr.blockOk : Instr → Bool
  | .csig _ _ b | .catt _ _ b _ => b.toNat < 96
  | .mqnt _ _ r _ _ => r.toNat < 96
  | .xcopy _ _ b _ (.f3 x) => !x.task || b.toNat < 96
  | _ => true

/-- The barrier register a word names, if any (R137). -/
def Instr.barrier : Instr → Option (BitVec 4)
  | .binit n _ | .bsync _ _ n _ _ | .barv _ _ n _ _ | .bwait _ _ n _ | .btest _ _ n _ => some n
  | _ => none

/-- The landing handle a word names, if any (R146, R244). -/
def Instr.handle : Instr → Option P3
  | .lopen n _ _ | .lpush _ n _ _ | .lpop _ n _ _ | .ltrypop _ n _ _ | .lseal n _ | .lstat n _ _ | .lcfg n _ _
  | .lfire _ n _ => some n
  | _ => none

/-- The privileges of R70, R119 and R120. -/
def Instr.privOk (l : Limits) : Instr → Bool
  | .eret => l.handler
  | .swrite .fault _ _ | .swrite .faddr _ _ | .swrite .fpc _ _ => l.handler
  | .tlbi .. => l.sup
  | _ => true

/-- Whether a well-formed word is legal for the agent that issues it, apart from its modifier word. -/
def Instr.legalIn (l : Limits) (i : Instr) : Bool :=
  (if l.stream then i.inStream && i.streamUses.all (fun u => u.1.toNat + u.2 ≤ 32) && i.streamEven
   else i.inTeam && i.blockOk && i.uses.all (Use.ok l))
    && (match i.barrier with | some n => n.toNat < l.bars | none => true)
    && (match i.handle with | some n => n.toNat < l.lands | none => true)
    && i.privOk l

/-- Whether the barrier a form-3 modifier names is declared (R310). -/
def Mods.barOk (l : Limits) : Mods → Bool
  | .f3 x => match x.bar with | Option.some n => n.toNat < l.bars | Option.none => true
  | _ => true

end Sys2Proof
end

