-- ==== Sys2Proof/Machine/Flags.lean ====
section
/-!
DEFINITION. Flag computations and number formats (R71, R76, R92, R100, R213 to R216): saturation, the binary float
formats, rounding with its flags, and the exact operations that the float words round. Values are plain numbers; a
finite float is a sign and m · 2^e.
-/

namespace Sys2Proof.Machine

/-! ### Flags (R71) -/

/-- SAT. -/
def flSAT : BitVec 6 := 32
/-- NV. -/
def flNV : BitVec 6 := 16
/-- DZ. -/
def flDZ : BitVec 6 := 8
/-- OF. -/
def flOF : BitVec 6 := 4
/-- UF. -/
def flUF : BitVec 6 := 2
/-- NX. -/
def flNX : BitVec 6 := 1

/-- A flag that is raised on a condition. -/
def flIf (c : Bool) (f : BitVec 6) : BitVec 6 := if c then f else 0

/-! ### Integers (R76) -/

/-- sext of R76. -/
def sext (n x : Nat) : Int := if x % 2 ^ n < 2 ^ (n - 1) then (x % 2 ^ n : Nat) else (x % 2 ^ n : Nat) - (2 ^ n : Nat)

/-- The n low bits of an integer. -/
def wrap (n : Nat) (x : Int) : Nat := (x % (2 ^ n : Nat)).toNat

/-- sat of R76: the clamped value, and SAT if it clamps. -/
def sat (n : Nat) (x : Int) : Int × BitVec 6 :=
  if x < -(2 ^ (n - 1) : Nat) then (-(2 ^ (n - 1) : Nat), flSAT)
  else if (2 ^ (n - 1) : Nat) ≤ x then ((2 ^ (n - 1) : Nat) - 1, flSAT) else (x, 0)

/-- satu of R76. -/
def satu (n : Nat) (x : Int) : Int × BitVec 6 :=
  if x < 0 then (0, flSAT) else if (2 ^ n : Nat) ≤ x then ((2 ^ n : Nat) - 1, flSAT) else (x, 0)

/-! ### Binary formats (R213 to R215) -/

/-- A binary float format: exponent bits, fraction bits, and whether it has infinities. -/
structure Fmt where
  exp : Nat
  man : Nat
  infs : Bool
  deriving DecidableEq, Repr

/-- binary16. -/
def fmtF16 : Fmt := { exp := 5, man := 10, infs := true }
/-- bf16. -/
def fmtBf16 : Fmt := { exp := 8, man := 7, infs := true }
/-- binary32. -/
def fmtF32 : Fmt := { exp := 8, man := 23, infs := true }
/-- binary64. -/
def fmtF64 : Fmt := { exp := 11, man := 52, infs := true }
/-- e4m3. -/
def fmtE4m3 : Fmt := { exp := 4, man := 3, infs := false }
/-- e5m2. -/
def fmtE5m2 : Fmt := { exp := 5, man := 2, infs := true }

/-- Exponent bias. -/
def Fmt.bias (f : Fmt) : Nat := 2 ^ (f.exp - 1) - 1
/-- Exponent of the smallest normal. -/
def Fmt.emin (f : Fmt) : Int := 1 - f.bias
/-- The sign bit's value. -/
def Fmt.signBit (f : Fmt) : Nat := 2 ^ (f.exp + f.man)
/-- Exponent all ones, fraction zero. -/
def Fmt.top (f : Fmt) : Nat := (2 ^ f.exp - 1) * 2 ^ f.man
/-- The code of the largest finite magnitude. -/
def Fmt.largest (f : Fmt) : Nat := if f.infs then f.top - 1 else f.top + 2 ^ f.man - 2
/-- The quiet bit. -/
def Fmt.quiet (f : Fmt) : Nat := 2 ^ (f.man - 1)
/-- The canonical NaN (R92). -/
def Fmt.canon (f : Fmt) : Nat := f.top + f.quiet
/-- A sign on a magnitude code. -/
def Fmt.signed (f : Fmt) (neg : Bool) (code : Nat) : Nat := neg.toNat * f.signBit + code

/-- What a float encoding stands for. -/
inductive Num where
  | nan (neg signalling : Bool) (frac : Nat)
  | inf (neg : Bool)
  | fin (neg : Bool) (m : Nat) (e : Int)
  deriving DecidableEq, Repr

/-- Reads an encoding. -/
def Fmt.unpack (f : Fmt) (x : Nat) : Num :=
  let neg := x / f.signBit % 2 == 1
  let e := x / 2 ^ f.man % 2 ^ f.exp
  let m := x % 2 ^ f.man
  if f.infs ∧ e = 2 ^ f.exp - 1 then
    if m = 0 then .inf neg else .nan neg (m / f.quiet % 2 == 0) m
  else if !f.infs ∧ e = 2 ^ f.exp - 1 ∧ m = 2 ^ f.man - 1 then .nan neg false m
  else if e = 0 then .fin neg m (f.emin - f.man)
  else .fin neg (2 ^ f.man + m) ((e : Int) - f.bias - f.man)

/-- Whether a number is a NaN. -/
def Num.isNan : Num → Bool
  | .nan .. => true
  | _ => false

/-- Whether a number is a signalling NaN. -/
def Num.isSnan : Num → Bool
  | .nan _ s _ => s
  | _ => false

/-- Whether a number is a zero. -/
def Num.isZero : Num → Bool
  | .fin _ m _ => m == 0
  | _ => false

/-- The sign of a number. -/
def Num.neg : Num → Bool
  | .nan n _ _ => n
  | .inf n => n
  | .fin n _ _ => n

/-! ### Rounding (R76) -/

/-- num / den rounded to an integer, and whether it was inexact. -/
def roundInt (rm : Rm) (neg : Bool) (num den : Nat) : Nat × Bool :=
  let q := num / den
  let r := num % den
  if r = 0 then (q, false)
  else
    let up := match rm with
      | .rne => den < 2 * r || (2 * r == den && q % 2 == 1)
      | .rtz => false
      | .rup => !neg
      | .rdn => neg
    (if up then q + 1 else q, true)

/-- m · 2^e in units of 2^q, rounded. -/
def roundAt (rm : Rm) (neg : Bool) (m : Nat) (e q : Int) : Nat × Bool :=
  roundInt rm neg (m * 2 ^ (e - q).toNat) (2 ^ (q - e).toNat)

/-- round of R76 for ± m · 2^e, with SAT of R92 and R100: the encoding and the flags. UF is raised by the value as
rounded without an exponent bound. -/
def Fmt.round (f : Fmt) (rm : Rm) (sat : Bool) (neg : Bool) (m : Nat) (e : Int) : Nat × BitVec 6 :=
  if m = 0 then (f.signed neg 0, 0)
  else
    let big : Int := e + Nat.log2 m
    let q := max big f.emin - f.man
    let (k, inexact) := roundAt rm neg m e q
    let code := (q + f.man + f.bias - 1).toNat * 2 ^ f.man + k
    let tiny := big < f.emin ∧ ¬ (big + 1 = f.emin ∧ (roundAt rm neg m e (big - f.man)).1 = 2 ^ (f.man + 1))
    if code ≤ f.largest then (f.signed neg code, flIf inexact flNX ||| flIf (inexact && tiny) flUF)
    else
      let up : Bool := match rm with | .rne => true | .rtz => false | .rup => !neg | .rdn => neg
      if !f.infs then (f.signed neg f.largest, flSAT ||| flNX)
      else if sat && (up || f == fmtE5m2) then (f.signed neg f.largest, flSAT ||| flNX)
      else (f.signed neg (if up then f.top else f.largest), flOF ||| flNX)

/-- num / den · 2^e with `bits` or more significant bits and a sticky bit, as m · 2^e. -/
def ratio (bits num den : Nat) (e : Int) : Nat × Int :=
  let k := bits + Nat.log2 den + 1 - Nat.log2 num
  let n := num * 2 ^ k
  (2 * (n / den) + (if n % den = 0 then 0 else 1), e - k - 1)

/-- The integer square root of `n`, from bit `k` downwards. -/
def isqrtFrom (n : Nat) : Nat → Nat → Nat
  | 0, r => r
  | k + 1, r => let r' := r + 2 ^ k; isqrtFrom n k (if r' * r' ≤ n then r' else r)

/-- The integer square root. -/
def isqrt (n : Nat) : Nat := isqrtFrom n (Nat.log2 n / 2 + 1) 0

/-! ### The operations of R92 to R98 -/

/-- How a float word rounds: mode, SAT and SCALE. -/
structure FOp where
  rm : Rm
  sat : Bool
  scale : Int
  deriving DecidableEq, Repr

/-- Round to nearest even, nothing else. -/
def FOp.rne : FOp := { rm := .rne, sat := false, scale := 0 }

/-- The NaN rules of R92 around a word's own result: the first NaN quieted, or the result. -/
def Fmt.withNan (f : Fmt) (ops : List Nat) (extra : BitVec 6) (r : Nat × BitVec 6) : Nat × BitVec 6 :=
  let nv := flIf (ops.any fun x => (f.unpack x).isSnan) flNV
  match ops.find? fun x => (f.unpack x).isNan with
  | some x => (x ||| f.quiet, nv ||| extra)
  | none => r

/-- An invalid operation. -/
def Fmt.invalid (f : Fmt) : Nat × BitVec 6 := (f.canon, flNV)

/-- The sum of two numbers that are no NaN. -/
def Fmt.sum (f : Fmt) (o : FOp) : Num → Num → Nat × BitVec 6
  | .inf a, .inf b => if a = b then (f.signed a f.top, 0) else f.invalid
  | .inf a, _ => (f.signed a f.top, 0)
  | _, .inf b => (f.signed b f.top, 0)
  | .fin a ma ea, .fin b mb eb =>
      let e := min ea eb
      let x : Int := (ma * 2 ^ (ea - e).toNat : Nat)
      let y : Int := (mb * 2 ^ (eb - e).toNat : Nat)
      let v := (if a then -x else x) + (if b then -y else y)
      if v = 0 then (f.signed (if ma = 0 ∧ mb = 0 ∧ a = b then a else o.rm == .rdn) 0, 0)
      else f.round o.rm o.sat (v < 0) v.natAbs (e + o.scale)
  | _, _ => f.invalid

/-- The negation of a number. -/
def Num.flip : Num → Num
  | .nan n s x => .nan (!n) s x
  | .inf n => .inf (!n)
  | .fin n m e => .fin (!n) m e

/-- Whether a product of two numbers is 0 · ∞. -/
def zeroInf : Num → Num → Bool
  | .inf _, .fin _ m _ => m == 0
  | .fin _ m _, .inf _ => m == 0
  | _, _ => false

/-- The exact product of two numbers that are no NaN and not 0 · ∞. -/
def product : Num → Num → Num
  | .fin a m e, .fin b n k => .fin (a != b) (m * n) (e + k)
  | x, y => .inf (x.neg != y.neg)

/-- Rounds a number. -/
def Fmt.ofNum (f : Fmt) (o : FOp) : Num → Nat × BitVec 6
  | .nan .. => f.invalid
  | .inf n => (f.signed n f.top, 0)
  | .fin n m e => f.round o.rm o.sat n m (e + o.scale)

/-- FADD. -/
def Fmt.add (f : Fmt) (o : FOp) (x y : Nat) : Nat × BitVec 6 :=
  f.withNan [x, y] 0 (f.sum o (f.unpack x) (f.unpack y))

/-- FSUB. -/
def Fmt.sub (f : Fmt) (o : FOp) (x y : Nat) : Nat × BitVec 6 :=
  f.withNan [x, y] 0 (f.sum o (f.unpack x) (f.unpack y).flip)

/-- FMUL. -/
def Fmt.mul (f : Fmt) (o : FOp) (x y : Nat) : Nat × BitVec 6 :=
  f.withNan [x, y] 0
    (if zeroInf (f.unpack x) (f.unpack y) then f.invalid else f.ofNum o (product (f.unpack x) (f.unpack y)))

/-- FFMA. -/
def Fmt.fma (f : Fmt) (o : FOp) (x y z : Nat) : Nat × BitVec 6 :=
  let zi := zeroInf (f.unpack x) (f.unpack y)
  f.withNan [x, y, z] (flIf zi flNV)
    (if zi then f.invalid else f.sum o (product (f.unpack x) (f.unpack y)) (f.unpack z))

/-- FDIV. -/
def Fmt.div (f : Fmt) (o : FOp) (x y : Nat) : Nat × BitVec 6 :=
  f.withNan [x, y] 0
    (match f.unpack x, f.unpack y with
     | .inf _, .inf _ => f.invalid
     | .inf a, b => (f.signed (a != b.neg) f.top, 0)
     | a, .inf b => (f.signed (a.neg != b) 0, 0)
     | .fin a m e, .fin b n k =>
         if n = 0 then (if m = 0 then f.invalid else (f.signed (a != b) f.top, flDZ))
         else if m = 0 then (f.signed (a != b) 0, 0)
         else
           let (r, q) := ratio (f.man + 4) m n (e - k)
           f.round o.rm o.sat (a != b) r (q + o.scale)
     | _, _ => f.invalid)

/-- FRCP. -/
def Fmt.rcp (f : Fmt) (o : FOp) (x : Nat) : Nat × BitVec 6 :=
  f.withNan [x] 0
    (match f.unpack x with
     | .fin a m e =>
         if m = 0 then (f.signed a f.top, flDZ)
         else
           let (r, q) := ratio (f.man + 4) 1 m (-e)
           f.round o.rm o.sat a r (q + o.scale)
     | n => (f.signed n.neg 0, 0))

/-- FSQRT. -/
def Fmt.sqrt (f : Fmt) (o : FOp) (x : Nat) : Nat × BitVec 6 :=
  f.withNan [x] 0
    (match f.unpack x with
     | .fin a m e =>
         if m = 0 then (f.signed a 0, 0)
         else if a then f.invalid
         else
           let odd := (e % 2).toNat
           let n := m * 2 ^ odd * 4 ^ (f.man + 4)
           let r := isqrt n
           f.round o.rm o.sat false (2 * r + (if r * r = n then 0 else 1)) ((e - odd) / 2 - (f.man + 4) - 1 + o.scale)
     | n => if n.neg then f.invalid else (f.top, 0))

/-- FRSQ, rounded to nearest. -/
def Fmt.rsq (f : Fmt) (o : FOp) (x : Nat) : Nat × BitVec 6 :=
  f.withNan [x] 0
    (match f.unpack x with
     | .fin a m e =>
         if m = 0 then (f.signed a f.top, flDZ)
         else if a then f.invalid
         else
           let odd := (e % 2).toNat
           let n := m * 2 ^ odd
           let k := f.man + 4 + Nat.log2 n
           let r := isqrt (4 ^ k / n)
           f.round .rne o.sat false (2 * r + (if r * r * n = 4 ^ k then 0 else 1)) (-(e - odd) / 2 - k - 1)
     | n => if n.neg then f.invalid else (0, 0))

/-! ### FEXP2, FLOG2, FTANH: fixed-point series far beyond an operand's precision (log 15) -/

/-- Fraction bits of the series. -/
def fixBits : Nat := 384

/-- The sum of x^k / k!, from the term of `k`, in fixed point. -/
def expSeries (x : Nat) : Nat → Nat → Nat → Nat → Nat
  | 0, _, _, sum => sum
  | fuel + 1, k, term, sum =>
      let t := term * x / 2 ^ fixBits / k
      expSeries x fuel (k + 1) t (sum + t)

/-- e^x for 0 ≤ x < 1. -/
def fixExp (x : Nat) : Nat := expSeries x 90 1 (2 ^ fixBits) (2 ^ fixBits)

/-- The sum of z^(2k+1) / (2k+1), in fixed point. -/
def atanhSeries (z2 : Nat) : Nat → Nat → Nat → Nat → Nat
  | 0, _, _, sum => sum
  | fuel + 1, k, power, sum => atanhSeries z2 fuel (k + 2) (power * z2 / 2 ^ fixBits) (sum + power / k)

/-- ln((1 + z) / (1 - z)) for 0 ≤ z ≤ 1/3. -/
def fixLog (z : Nat) : Nat := 2 * atanhSeries (z * z / 2 ^ fixBits) 130 1 z 0

/-- ln 2. -/
def fixLn2 : Nat := fixLog (2 ^ fixBits / 3)

/-- 2^f for 0 ≤ f < 1 in fixed point. -/
def fixExp2 (x : Nat) : Nat := fixExp (x * fixLn2 / 2 ^ fixBits)

/-- 2^(±num / 2^den) rounded to nearest. -/
def Fmt.exp2Of (f : Fmt) (sat neg : Bool) (num den : Nat) : Nat × BitVec 6 :=
  let v : Int := if neg then -(num : Int) else num
  let n := max (-5000) (min 5000 (v / (2 ^ den : Nat)))
  let r := (v % (2 ^ den : Nat)).toNat
  if r = 0 then f.round .rne sat false 1 n
  else
    let y := fixExp2 (r * 2 ^ fixBits / 2 ^ den)
    f.round .rne sat false (2 * y + 1) (n - fixBits - 1)

/-- FEXP2. -/
def Fmt.exp2 (f : Fmt) (o : FOp) (x : Nat) : Nat × BitVec 6 :=
  f.withNan [x] 0
    (match f.unpack x with
     | .inf n => (if n then 0 else f.top, 0)
     | .fin a m e => f.exp2Of o.sat a (m * 2 ^ e.toNat) (-e).toNat
     | _ => f.invalid)

/-- log2 of m · 2^e, m no power of two, as a sign and m · 2^e with a sticky bit. -/
def log2Of (m : Nat) (e : Int) : Bool × Nat × Int :=
  let l := Nat.log2 m
  let n := e + l
  let a := m * 2 ^ fixBits / 2 ^ l
  let one := 2 ^ fixBits
  -- a is in [1, 2); above 3/2 the logarithm is taken of a / 2, below it of a
  let (n, up, lo, hi) := if 2 * a ≤ 3 * one then (n, false, a - one, a + one) else (n + 1, true, 2 * one - a, 2 * one + a)
  let y := fixLog (lo * one / hi) * one / fixLn2
  let v : Int := n * (one : Nat) + (if up then -(y : Int) else y)
  (v < 0, 2 * v.natAbs + 1, -(fixBits : Int) - 1)

/-- FLOG2. -/
def Fmt.log2 (f : Fmt) (_ : FOp) (x : Nat) : Nat × BitVec 6 :=
  f.withNan [x] 0
    (match f.unpack x with
     | .inf n => if n then f.invalid else (f.top, 0)
     | .fin a m e =>
         if m = 0 then (f.signed true f.top, flDZ)
         else if a then f.invalid
         else if m = 2 ^ Nat.log2 m then
           let v := e + Nat.log2 m
           f.round .rne false (v < 0) v.natAbs 0
         else
           let (neg, k, q) := log2Of m e
           f.round .rne false neg k q
     | _ => f.invalid)

/-- tanh of m · 2^e as m · 2^e with a sticky bit. -/
def tanhOf (m : Nat) (e : Int) : Nat × Int :=
  let big := e + Nat.log2 m
  if big < -40 then (m * 2 ^ 128 - 1, e - 128)
  else if 6 ≤ big then (2 ^ 200 - 1, -200)
  else
    let y := if 0 ≤ e + 1 then m * 2 ^ (e + 1).toNat * 2 ^ fixBits else m * 2 ^ fixBits / 2 ^ (-(e + 1)).toNat
    let k := y / fixLn2
    let t := fixExp (y % fixLn2) * 2 ^ k
    let one := 2 ^ fixBits
    (2 * ((t - one) * one / (t + one)) + 1, -(fixBits : Int) - 1)

/-- FTANH. -/
def Fmt.tanh (f : Fmt) (o : FOp) (x : Nat) : Nat × BitVec 6 :=
  f.withNan [x] 0
    (match f.unpack x with
     | .inf n => (f.signed n (f.bias * 2 ^ f.man), 0)
     | .fin a m e =>
         if m = 0 then (f.signed a 0, 0)
         else
           let (k, q) := tanhOf m e
           f.round .rne o.sat a k q
     | _ => f.invalid)

/-- FRND: to an integral value, with no flag but NV. -/
def Fmt.rnd (f : Fmt) (rm : Rm) (x : Nat) : Nat × BitVec 6 :=
  f.withNan [x] 0
    (match f.unpack x with
     | .fin a m e => if 0 ≤ e then (x, 0) else ((f.round .rne false a (roundAt rm a m e 0).1 0).1, 0)
     | _ => (x, 0))

/-! ### Comparison, minimum, maximum, class (R95 to R97) -/

/-- The order of two numbers that are no NaN, ±0 being equal. -/
def Num.cmp : Num → Num → Ordering
  | .inf a, .inf b => compare b.toNat a.toNat
  | .inf a, _ => if a then .lt else .gt
  | _, .inf b => if b then .gt else .lt
  | .fin a m e, .fin b n k =>
      let q := min e k
      let x : Int := (m * 2 ^ (e - q).toNat : Nat)
      let y : Int := (n * 2 ^ (k - q).toNat : Nat)
      compare (if a then -x else x) (if b then -y else y)
  | _, _ => .eq

/-- Whether x stands at or below y in the order that puts -0 below +0. -/
def Num.below (x y : Num) : Bool :=
  match x.cmp y with
  | .lt => true
  | .gt => false
  | .eq => x.neg || !y.neg

/-- FMIN and FMAX. -/
def Fmt.pick (f : Fmt) (max : Bool) (x y : Nat) : Nat × BitVec 6 :=
  let a := f.unpack x
  let b := f.unpack y
  let nv := flIf (a.isSnan || b.isSnan) flNV
  if a.isNan ∧ b.isNan then (f.canon, nv)
  else if a.isNan then (y, nv)
  else if b.isNan then (x, nv)
  else (if a.below b != max then x else y, nv)

/-- FCMP on one element. -/
def Fmt.cmp (f : Fmt) (rel : FRel) (x y : Nat) : Bool × BitVec 6 :=
  let a := f.unpack x
  let b := f.unpack y
  if a.isNan || b.isNan then
    let quiet := match rel with | .lt | .le | .gt | .ge => false | _ => true
    (rel == .ne || rel == .un, flIf (a.isSnan || b.isSnan || !quiet) flNV)
  else
    let c := a.cmp b
    (match rel with
     | .eq => c == .eq | .ne => c != .eq | .lt => c == .lt | .le => c != .gt | .gt => c == .gt | .ge => c != .lt
     | .un => false | .ord => true, 0)

/-- FCLASS on one element. -/
def Fmt.cls (f : Fmt) (x : Nat) : Nat :=
  match f.unpack x with
  | .nan _ s _ => if s then 256 else 512
  | .inf n => if n then 1 else 128
  | .fin n m _ =>
      if m = 0 then (if n then 8 else 16)
      else if m < 2 ^ f.man then (if n then 4 else 32) else (if n then 2 else 64)

/-- CLAMP of R92. -/
def Fmt.clamp (f : Fmt) (x : Nat) : Nat :=
  let one := f.bias * 2 ^ f.man
  if (f.unpack x).isNan || x / f.signBit % 2 == 1 then 0 else if one < x then one else x

/-- ABS then NEG of an operand's sign bit (R92). -/
def Fmt.sign (f : Fmt) (abs neg : Bool) (x : Nat) : Nat :=
  let s := x / f.signBit % 2 == 1
  f.signed ((s && !abs) != neg) (x % f.signBit)

/-! ### PP8 (R216, R100) -/

/-- 128 times the value of a PP8 byte. -/
def pp8Int (b : Nat) : Int :=
  let p : Int := (2 ^ (7 - b / 16 % 8) : Nat)
  let q : Int := (2 ^ (7 - b % 8) : Nat)
  (if b / 128 % 2 = 1 then -p else p) + (if b / 8 % 2 = 1 then -q else q)

/-- The canonical encoding of a value, if some byte has it: the smallest A, then B, then byte. -/
def pp8Code (v : Int) : Option Nat :=
  ((List.range 8).flatMap fun a => (List.range 8).flatMap fun b =>
    [16 * a + b, 16 * a + 8 + b, 128 + 16 * a + b, 128 + 16 * a + 8 + b]).find? fun c => pp8Int c == v

/-- The values of PP8 in rising order. -/
def pp8Values : List Int := ((List.range 513).map fun (k : Nat) => (k : Int) - 256).filter fun v => (pp8Code v).isSome

/-- Rounds ± num / den, in units of 2^-7, to PP8: the byte and the flags. -/
def pp8Round (rm : Rm) (neg : Bool) (num den : Nat) : Nat × BitVec 6 :=
  let v : Int := if neg then -(num : Int) else num
  if 256 * den < num then ((pp8Code (if neg then -256 else 256)).getD 0, flSAT ||| flNX)
  else
    let lo := (pp8Values.filter fun x => x * den ≤ v).getLastD (-256)
    let hi := (pp8Values.find? fun x => v ≤ x * den).getD 256
    let code := fun (x : Int) => (pp8Code x).getD 0
    if lo * den = v then (code lo, 0)
    else
      let a := v - lo * den
      let b := hi * den - v
      let key := fun (x : Int) => code x / 16 % 8 * 8 + code x % 8
      let pick := match rm with
        | .rne => if a < b then lo else if b < a then hi else if key lo < key hi then hi else if key hi < key lo then lo
                  else if lo.natAbs < hi.natAbs then lo else hi
        | .rtz => if neg then hi else lo
        | .rup => hi
        | .rdn => lo
      (code pick, flNX)

/-! ### Conversions (R100, R101) -/

/-- The binary format of a code; PP8 has none. -/
def ffmt : FFmt → Option Fmt
  | .f32 => some fmtF32 | .f64 => some fmtF64 | .f16 | .f16x2 => some fmtF16 | .bf16 | .bf16x2 => some fmtBf16
  | .e4m3 => some fmtE4m3 | .e5m2 => some fmtE5m2 | .pp8 => none

/-- What a source of FCVT stands for. -/
def numOf (s : FFmt) (x : Nat) : Num :=
  match ffmt s with
  | some f => f.unpack x
  | none => .fin (pp8Int x < 0) (pp8Int x).natAbs (-7)

/-- A NaN in the destination of FCVT: quieted, the payload truncated or widened; the narrow formats generate one. A NaN of a byte
format raises no NV (log 32). -/
def nanIn (d s : FFmt) (neg sig : Bool) (frac : Nat) : Nat × BitVec 6 :=
  let nv := flIf (sig && !s.isByte) flNV
  match ffmt d, ffmt s with
  | none, _ => (0x08, flNV)
  | some f, some g =>
      if d = .e4m3 then (f.signed neg 0x7F, nv)
      else if d = .e5m2 then (f.signed neg 0x7E, nv)
      else (f.signed neg (f.top + ((frac * 2 ^ (f.man - g.man) / 2 ^ (g.man - f.man)) ||| f.quiet)), nv)
  | some f, none => (f.canon, nv)

/-- FCVT on one element: abs and neg act on the source's sign, SCALE on its value. -/
def convert (d s : FFmt) (o : FOp) (abs neg : Bool) (x : Nat) : Nat × BitVec 6 :=
  let sg := fun (n : Bool) => (n && !abs) != neg
  match numOf s x with
  | .nan n sig frac => nanIn d s (sg n) sig frac
  | .inf n =>
      match ffmt d with
      | none => ((pp8Code (if sg n then -256 else 256)).getD 0, flSAT ||| flNX)
      | some f => if f.infs then (f.signed (sg n) f.top, 0) else (f.signed (sg n) f.largest, flSAT ||| flNX)
  | .fin n m e =>
      match ffmt d with
      | none =>
          let e := e + o.scale + 7
          pp8Round o.rm (sg n) (m * 2 ^ e.toNat) (2 ^ (-e).toNat)
      | some f => f.round o.rm o.sat (sg n) m (e + o.scale)

/-- The binary format of an ICVT code. -/
def cvtFmt : CvtFlt → Fmt
  | .f32 => fmtF32 | .f64 => fmtF64 | .f16 => fmtF16 | .bf16 => fmtBf16

/-- Integer to float. -/
def intToFloat (f : Fmt) (o : FOp) (v : Int) : Nat × BitVec 6 := f.round o.rm o.sat (v < 0) v.natAbs o.scale

/-- Float to integer of `w` bits (R101). A value out of range raises NV alone, with SAT too (log 93). -/
def floatToInt (f : Fmt) (o : FOp) (signed : Bool) (w : Nat) (x : Nat) : Nat × BitVec 6 :=
  let lo : Int := if signed then -(2 ^ (w - 1) : Nat) else 0
  let hi : Int := if signed then (2 ^ (w - 1) : Nat) - 1 else (2 ^ w : Nat) - 1
  match f.unpack x with
  | .nan .. => (0, flNV)
  | .inf n => (wrap w (if n then lo else hi), flNV)
  | .fin n m e =>
      let (k, inexact) := roundAt o.rm n m (e + o.scale) 0
      let v : Int := if n then -(k : Int) else k
      if v < lo then (wrap w lo, flNV) else if hi < v then (wrap w hi, flNV) else (wrap w v, flIf inexact flNX)

/-- An f32 value widened to f64 without change (R78). -/
def widen (x : Nat) : Nat :=
  match fmtF32.unpack x with
  | .nan n _ frac => fmtF64.signed n (fmtF64.top + frac * 2 ^ 29)
  | .inf n => fmtF64.signed n fmtF64.top
  | .fin n m e => (fmtF64.round .rne false n m e).1

end Sys2Proof.Machine
end

