-- ==== Sys2Proof/Config.lean ====
section
/-!
DEFINITION. What the manual leaves open: free values with no body, so that nothing proved here can rest on one
of their values, and the few constants an implementation fixes.
-/

namespace Sys2Proof

/-- The choice the hardware makes where the manual allows several outcomes (R56, R76 unpredictable), one free
number for each place a choice is made. -/
opaque Config.choice : Nat → Nat

/-- A free 32-bit value, one for each place the manual leaves a register's contents open. -/
opaque Config.freeWord : Nat → Word

/-- A free byte, one for each place the manual leaves a byte open. -/
opaque Config.freeByte : Nat → Byte

/-- The link layer's CRC-64 over bytes 0 to 247 of a flit (R357); the manual names no polynomial. -/
opaque Config.crc64 : List Byte → DWord

/-- The device identity key's RSASSA-3072 signature over SHA-256 of a message (R365). -/
opaque Config.sign : List Byte → Vector Byte 384

/-- The certificate chain of the one slot (R365). -/
opaque Config.certificate : List Byte

/-- The RSA-3072 signature that the key whose hash the ROM holds makes over a digest (R362). -/
opaque Config.imageSign : List Byte → Vector Byte 384

/-- The measurement of the ROM (R365). -/
opaque Config.romMeasure : List Byte

/-- The module's power in watts over the n-th averaging window of R351, which the manual leaves to the hardware. -/
opaque Config.powerWatts : Nat → Nat

/-- How many bytes a fatal dump brings after its header (R370), which the manual bounds and leaves open. -/
opaque Config.dumpBytes : Nat → Nat

end Sys2Proof
end

