-- ==== Sys2Proof/Machine/State.lean ====
section
/-!
DEFINITION. The state of one K8 module: everything the manual gives it, as plain data. Units that the module has
in number (cores, clusters, tenants, dies, ports) are kept as lists of the records that differ from the record
after reset. INVENTORY.md names the rule behind every field.
-/

namespace Sys2Proof.Machine

/-- The seven counters of R54. -/
inductive Ctr where
  | wl | ws | wa | wq | wc | wt | wx
  deriving DecidableEq, Repr

/-- A virtual page that a command or a word translated: its tag, its size as a power of two, and the physical
address of its leaf entry. -/
structure Pin where
  tenant : Nat
  asid : Nat
  base : Nat
  log : Nat
  pte : Nat
  deriving DecidableEq, Repr

/-- Where a byte that an agent reaches stands: memory, a team's scratchpad, or one side of a shadow binding. -/
inductive Loc where
  | mem (pa : Nat)
  | scr (team off : Nat)
  | vis (binding off : Nat)
  | shd (binding off : Nat)
  deriving DecidableEq, Repr

/-- A run of consecutive bytes at a location, with the page of memory it was found by, in whose leaf D is set when it is written
(R344). -/
structure Seg where
  loc : Loc
  len : Nat
  pin : Option Pin := none
  deriving DecidableEq, Repr

/-- A register that an unreturned word will write: its number, the value, whether another write to the register was made
meanwhile, so that either may remain, and whether one of those was by a later word and is done, so that a read before the
return no longer meets this one (R56). -/
structure RegWrite where
  idx : Nat
  val : DWord
  clash : Bool
  behind : Bool := false
  deriving DecidableEq, Repr

/-- A predicate that an unreturned word will write (R56). -/
structure PredWrite where
  idx : Nat
  val : Bool
  clash : Bool
  behind : Bool := false
  deriving DecidableEq, Repr

/-- What ties the return of a word in flight: nothing; a release, which is complete only when the thread's earlier accesses are
(R133, R176); a ring-set result, which is there when the thread's next clause outside ALU starts (R264). -/
inductive Tie where
  | free | release | ring
  deriving DecidableEq, Repr

/-- A word in flight: the counter it counts on, what it writes when it returns, the flags it raises, the job
that must end first, if any, the tiles that it reads, that it writes, and that are READY once it is complete (R224, R225), and
what ties its return (log 100). -/
structure Pending where
  ctr : Ctr
  regs : List RegWrite
  preds : List PredWrite
  flags : BitVec 6
  hold : Option Nat
  reads : List Nat := []
  writes : List Nat := []
  drains : List Nat := []
  bank : Option Nat := none
  tie : Tie := .free
  deriving DecidableEq, Repr

/-- A trap a thread has taken and not yet delivered (R326), with the cycle in which it was raised (R332). -/
structure Trap where
  cause : BitVec 8
  detail : BitVec 20
  write : Bool
  cls : BitVec 3
  addr : DWord
  header : Nat
  word : Nat
  cycle : Nat := 0
  deriving DecidableEq, Repr

/-- The word in which a thread is blocked, with what the word holds while it waits (R122, R168, R227, R110). -/
inductive Wait where
  | bsync (n : Nat) (phase : BitVec 16) (d : Code) (write : Bool)
  | bwait (n : Nat) (token : BitVec 16) (d : Code)
  | lpush (landing : Nat) (addr : DWord) (pd : P3) (data : List Byte)
  | lpop (landing : Nat) (addr : DWord) (pd : P3) (a : Code)
  | csig (d : Code) (ctx : Nat) (pos : Word) (pair : Word)
  | catt (ctx : Nat) (pos : Word) (pair : Word) (blk : DWord) (radius scale : Word) (pd : P3)
  | carve (vregs bytes : Nat)
  | mclr (bank : Nat) (e : Int)
  | mres (d : Code) (tag : Word) (pd : P3) (square : Nat)
  deriving DecidableEq, Repr

/-- A blocked word: what it waits for, its place in the code, bits P and Y of its clause, whether the clause has words
behind it, its opcode, when it blocked, and its place among the requests that wait at its home. -/
structure Block where
  wait : Wait
  header : Nat
  word : Nat
  park : Bool
  yield : Bool
  more : Bool
  opcode : Nat
  since : Nat
  order : Nat
  deriving DecidableEq, Repr

/-- Where a thread stands (R39, R55, R122, R326, R117). -/
inductive Status where
  | bin (n : Nat)
  | spill
  | held (n : Nat)
  | ready
  | issuing
  | parked
  | blocked (b : Block)
  | trapped (t : Trap)
  | faulted (t : Trap)
  | exited
  deriving DecidableEq, Repr

/-- An acquire mark of the mark table (R166), with the publish words that the home had served before it, and the cores on which
the acquirer and every resident team stood when it was performed (R181). -/
structure Mark where
  ctx : Nat
  scope : Scope
  seq : Nat
  core : Nat
  places : List (Nat × Nat)
  deriving DecidableEq, Repr

/-- A BSYNC arrival that stays recorded while its thread does not wait, saved or in a handler (R139, R327): the barrier, the
phase, the place of the word, and the phase's result once it has completed. -/
structure Arrival where
  bar : Nat
  phase : BitVec 16
  header : Nat
  word : Nat
  value : Option Word
  deriving DecidableEq, Repr

/-- One thread, or one control stream (ctl), with everything R68 to R71, R115 and R166 give it, and the barrier of the BWAIT
at which it was saved and that it has not executed again yet (R140), and whether it was blocked when its team halted, so that
its results in flight do not hold the team back (R46, R221). -/
structure Thread where
  tid : Nat
  ctl : Bool
  v : List Word
  c : List DWord
  p : BitVec 8
  flags : BitVec 6
  rm : Rm
  fault : Word
  faddr : DWord
  fpc : DWord
  handler : Bool
  pc : Nat
  word : Nat
  stack : List Nat
  marks : List Mark
  dropped : List Mark
  arrivals : List Arrival
  waitAt : Option Nat
  exempt : Bool
  pend : List Pending
  age : Nat
  yielded : Bool
  refile : Bool
  status : Status
  deriving DecidableEq, Repr

/-- A task record (R25) with what the machine knows of it beside its 64 bytes: its address, its place in the order of pushes,
its launch or landing, and its cluster set with the slot and the cluster on which the set stands (R45). -/
structure Task where
  kernel : DWord
  arg : DWord
  x : Word
  y : Word
  z : Word
  flags : Word
  join : DWord
  haul : DWord
  owner : Word
  deadline : Word
  addr : DWord
  order : Nat
  launch : Option Nat
  landing : Option Nat
  ldesc : DWord
  set : Option (Nat × Nat)
  clus : Nat
  deriving DecidableEq, Repr

/-- A kernel descriptor (R29). -/
structure Kernel where
  threads : Nat
  vregs : Nat
  kregs : Nat
  scratch : Nat
  bars : Nat
  lands : Nat
  sup : Bool
  control : Nat
  handler : Nat
  deriving DecidableEq, Repr

/-- A value that a k register has had and that some threads may still read (R81): those that are not among `know`, which the KSET
after it has reached, in its group or by a barrier; `arrived` are the barrier phases at which one of these has arrived since. -/
structure OldK where
  idx : Nat
  val : Word
  know : List Nat
  arrived : List (Nat × BitVec 16)
  deriving DecidableEq, Repr

/-- A barrier register (R136). -/
structure Barrier where
  phase : BitVec 16
  members : Nat
  arrived : Nat
  pending : Nat
  op : RedOp
  value : Word
  done1 : Word
  done2 : Word
  arr : List Nat
  deriving DecidableEq, Repr

/-- A landing handle: the landing it names and the address of the descriptor as its LOPEN named it (R147). -/
structure Handle where
  landing : Nat
  addr : DWord
  deriving DecidableEq, Repr

/-- One word of the guard table and its four entries (R134). -/
structure GuardWord where
  addr : Nat
  entries : List (Nat × Nat)
  deriving DecidableEq, Repr

/-- State of a ring slot (R269); true is width 16. -/
inductive RingState where
  | unloaded
  | loading (wide : Bool)
  | loaded (wide : Bool)
  deriving DecidableEq, Repr

/-- A ring slot: its state and the encodings of its ring values (R271, R275). -/
structure RingSlot where
  state : RingState
  values : List Word
  job : Nat
  deriving DecidableEq, Repr

/-- States of a team (R337). -/
inductive TeamState where
  | run | halt | victim | saved
  deriving DecidableEq, Repr

/-- The images that one save wrote to a team's slot (R339, R340): the number under which their bytes were drawn, and what they
hold. -/
structure Image where
  number : Nat
  threads : List Thread
  k : List Word
  bars : List Barrier
  handles : List (Option Handle)
  guards : List GuardWord
  rings : List RingSlot
  mem : List Host.Cell
  vregs : Nat
  scratch : Nat
  deriving DecidableEq, Repr

/-- A resident, halted or saved team: its task and kernel, its team context store (R36), its scratchpad, its place
and its stop state (R337), whether its owner was stopped, so that it is discarded once it has drained, and what its saves have
written, the last one first. -/
structure Team where
  id : Nat
  core : Nat
  slot : Nat
  task : Task
  kern : Kernel
  vregs : Nat
  scratch : Nat
  threads : List Thread
  k : List Word
  kold : List OldK
  bars : List Barrier
  handles : List (Option Handle)
  guards : List GuardWord
  rings : List RingSlot
  mem : List Host.Cell
  state : TeamState
  susp : Bool
  record : Option Trap
  recordTid : Nat
  posted : Bool
  postAt : Nat
  faultAt : Nat
  verdict : BitVec 2
  since : Nat
  slotOff : Nat
  slotLen : Nat
  cell : Option Nat
  floor : Bool
  retired : Bool
  stopped : Bool
  images : List Image
  deriving DecidableEq, Repr

/-- A translation a TLB holds (R346): its tags, the page, the frame and the leaf's bits. -/
structure TlbEntry where
  tenant : Nat
  asid : Nat
  base : Nat
  log : Nat
  frame : Nat
  pte : Nat
  xn : Bool
  psn : Bool
  sup : Bool
  write : Bool
  dirty : Bool
  deriving DecidableEq, Repr

/-- A dirty byte of an L1 line: its offset, its value, the teams that wrote it, each with the tagged virtual address it
used (R195, R135), the other teams of the core that have acquired since, so that the byte happens before what they
release (R188), and the cycle of the write that made it dirty. -/
structure DirtyByte where
  off : Nat
  val : Byte
  writers : List (Nat × Nat)
  carried : List Nat
  since : Nat
  deriving DecidableEq, Repr

/-- A line of an L1: the bytes fetched under its lease, the lease end and its epoch, the tagged virtual addresses it
was read under, and its dirty bytes (R192, R195). -/
structure L1Line where
  pa : Nat
  data : List Byte
  lease : Option (Nat × Nat)
  vas : List Nat
  dirty : List DirtyByte
  deriving DecidableEq, Repr

/-- A line of the constant cache (R126). -/
structure ConstLine where
  pa : Nat
  data : List Byte
  deriving DecidableEq, Repr

/-- One core: its logical time (R191), its caches and TLB, and retention sleep. -/
structure Core where
  id : Nat
  ctime : Nat
  lines : List L1Line
  consts : List ConstLine
  tlb : List TlbEntry
  asleep : Option Nat
  deriving DecidableEq, Repr

/-- States of a tile (R225). -/
inductive TileState where
  | empty | filling | ready | draining
  deriving DecidableEq, Repr

/-- What becomes of a tile once a word that waited at it has been performed (R225). -/
inductive TileThen where
  | keep | ready | drain | free
  deriving DecidableEq, Repr

/-- A word that waits at a tile, for its grant or for the matrix words that are in flight at it (R225): who issued it, the bytes
it writes into the storage, what it does to the tile, and its job. -/
structure TileOp where
  team : Nat
  tid : Nat
  writes : List (Nat × List Byte)
  next : TileThen
  job : Nat
  deriving DecidableEq, Repr

/-- A TALLOC that waits for a tile (R224, R229), with the words that wait for its grant. -/
structure TileReq where
  team : Nat
  fmt : TileFmt
  rows : Nat
  cols : Nat
  store : List Seg
  job : Nat
  after : List TileOp
  deriving DecidableEq, Repr

/-- A tile-table entry (R224), with the words that wait for the matrix words in flight at it. How many of these there are is
counted where they are in flight, in the threads and streams that issued them. -/
structure Tile where
  id : Nat
  state : TileState
  holder : Option Nat
  fmt : TileFmt
  rows : Nat
  cols : Nat
  store : List Seg
  queue : List TileReq
  after : List TileOp
  deriving DecidableEq, Repr

/-- States of a macro (R232). -/
inductive SquareState where
  | empty | loading | resident
  deriving DecidableEq, Repr

/-- A load that a macro has accepted and not completed: the image, scale and tag it brings (R234). -/
structure SquareLoad where
  image : List Byte
  scale : Byte
  tag : Word
  job : Nat
  deriving DecidableEq, Repr

/-- A compute-in-memory macro (R232). -/
structure Square where
  id : Nat
  weights : List Byte
  scale : Byte
  tag : Word
  tenant : Nat
  state : SquareState
  loader : Option Nat
  claims : List Nat
  lastUse : Nat
  load : Option SquareLoad
  deriving DecidableEq, Repr

/-- An accumulator bank (R219): its rows, each a list of 128 integers; a row that is absent is all zero. -/
structure Bank where
  id : Nat
  rows : List (List Int)
  exp : Int
  holder : Option Nat
  deriving DecidableEq, Repr

/-- One cluster: its L1 mode (R37), tile table, macros, banks, deque (R295), TLB, steal clock (R299), the last tick at which its
slice judged age and the cycle from which it may form the next age haul (R248), and the control stream that issued last
(R223). -/
structure Cluster where
  id : Nat
  fused : Bool
  tiles : List Tile
  squares : List Square
  banks : List Bank
  deque : List Task
  tlb : List TlbEntry
  stealAt : Nat
  ageAt : Nat
  ageNext : Nat
  lastStream : Nat
  deriving DecidableEq, Repr

/-- How far a warm reset of a die has gone (R360, R361). -/
inductive DieState where
  | up
  | draining (since : Nat)
  | down
  deriving DecidableEq, Repr

/-- A non-leaf entry that a die's walk cache holds (R346): the address space, the level of the entry, the part of the
virtual address above that level, and the table it names. -/
structure WalkEntry where
  tenant : Nat
  asid : Nat
  level : Nat
  part : Nat
  table : Nat
  deriving DecidableEq, Repr

/-- One compute die: its epoch and floor (R197, R201), the logical time of its cores that have no record of their own, the
regions homed on it that have conflicting sharers (R201), its walk cache (R346), its service state, whether a link of it
has failed retraining (R359), whether a DIERESET has taken it out of service (R360), and its predicted life (R371). -/
structure Die where
  id : Nat
  epoch : Nat
  idle : Nat
  floor : Nat
  regions : List Nat
  walks : List WalkEntry
  state : DieState
  lost : Bool
  warm : Bool
  eol : Word
  deriving DecidableEq, Repr

/-- What a guest copy keeps whose line was written and that the invalidation has not reached yet (R182, R189): the cycle by
which the invalidation reaches it, the bytes it was filled with, and the teams whose releases wait for the invalidation: those
that wrote the line, and those that have acquired since (R188). -/
structure Stale where
  due : Nat
  old : List Byte
  teams : List Nat
  deriving DecidableEq, Repr

/-- The stamps of a line at its home, or of a guest copy on a die (R191, R201): none for the home, the die
otherwise. -/
structure Stamp where
  pa : Nat
  die : Option Nat
  wts : Nat
  rts : Nat
  epoch : Nat
  stale : Option Stale
  deriving DecidableEq, Repr

/-- A shadow binding (R320): the two ranges, for each 4 KiB page the frame that backs it, the swaps that wait, each with
its job and the commands it waits for, and the jobs of the unbinds that wait; it lives at the home of the frame `home`, the first
of B when it was made. -/
structure Binding where
  id : Nat
  tenant : Nat
  asid : Nat
  home : Nat
  b : Nat
  s : Nat
  len : Nat
  visible : List Nat
  shadow : List Nat
  swaps : List (Nat × List Nat)
  unbinds : List Nat
  deriving DecidableEq, Repr

/-- A page whose frame an unbinding left exchanged (R321). -/
structure Remap where
  tenant : Nat
  asid : Nat
  page : Nat
  frame : Nat
  now : Nat
  deriving DecidableEq, Repr

/-- A record of a landing: its bytes, the clock of its push, and whether it lies in overflow (R148, R247). -/
structure LRec where
  data : List Byte
  clock : Nat
  ovf : Bool
  deriving DecidableEq, Repr

/-- The expert fields of a landing with the owner they were installed under (R243, R251). -/
structure Expert where
  kernel : DWord
  arg : DWord
  ctl : Word
  age : Word
  tag : Word
  owner : Word
  need : Kernel
  deriving DecidableEq, Repr

/-- A haul that is formed and not retired (R247, R254). -/
structure Haul where
  seq : Nat
  recs : List LRec
  deriving DecidableEq, Repr

/-- States of an active landing (R145). -/
inductive LandState where
  | opened | sealed | ended
  deriving DecidableEq, Repr

/-- An active landing, found by the physical address of its descriptor (R142 to R148, R242). -/
structure Landing where
  id : Nat
  desc : Nat
  addr : DWord
  tenant : Nat
  asid : Nat
  l2 : Bool
  home : Nat
  lslot : Nat
  slots : Nat
  ovf : Nat
  state : LandState
  waiting : List LRec
  hauls : List Haul
  seq : Nat
  expert : Option Expert
  readySince : Option Nat
  released : Bool
  deriving DecidableEq, Repr

/-- The pair marks a context home keeps for one page (R164). -/
structure PageMarks where
  page : Nat
  marks : List Nat
  deriving DecidableEq, Repr

/-- A served publish (R165): the context, its place in the order at the home, the positions, who published with which scope,
and the cores on which every resident team stood then (R167, R181). -/
structure Publish where
  ctx : Nat
  seq : Nat
  layer : Nat
  pos : Nat
  count : Nat
  team : Nat
  tid : Nat
  core : Nat
  scope : Scope
  places : List (Nat × Nat)
  deriving DecidableEq, Repr

/-- A CATT whose head is assembled and whose block is not yet written (R170, R171): the team, the thread whose address space
names the block, where the block stands and what it will hold. -/
structure CattJob where
  id : Nat
  team : Nat
  tid : Nat
  block : List Seg
  data : List Byte
  deriving DecidableEq, Repr

/-- One run of bytes an engine moves (R313, R318): where from, where to, the pins of the destination's pages in order,
and the CONV code; a run with no source writes zeros. -/
structure CopyRun where
  tid : Nat
  src : List Seg
  dst : List Seg
  dstPins : List Pin
  conv : Nat
  deriving DecidableEq, Repr

/-- One thread's signal of an XPUTS (R319). -/
structure Signal where
  tid : Nat
  dst : List Seg
  add : Bool
  val : Word
  deriving DecidableEq, Repr

/-- An accepted engine command (R308, R316): its engine and the cluster that issued it, what it moves and signals, the
barrier phase it arrives on, the task record it pushes with its address, the bindings whose shadow it writes, its pins,
the jobs of the TLBI words that wait for its pins (R348), and the destinations of the commands that completed while it was in
flight (R314). -/
structure EngCmd where
  core : Nat
  cluster : Nat
  id : Nat
  team : Nat
  runs : List CopyRun
  signals : List Signal
  bar : Option (Nat × BitVec 16)
  task : Option (List Byte × DWord)
  shadows : List Nat
  pins : List Pin
  waiters : List Nat
  raced : List Seg
  deriving DecidableEq, Repr

/-- An issue group between its draw and the end of its clause (R40, R41): its unit and pipe, its team and handler
bit, the clause's address and words, the word index to issue next, and its slot map. -/
structure Group where
  ctl : Bool
  unit : Nat
  pipe : Nat
  team : Nat
  handler : Bool
  header : Nat
  idx : Nat
  words : List Word
  slots : List Nat
  deriving DecidableEq, Repr

/-- A launch that holds its credit (R286, R287, R292, R293). -/
structure Launch where
  id : Nat
  tenant : Nat
  kernel : DWord
  arg : DWord
  x : Nat
  y : Nat
  z : Nat
  flags : Word
  join : DWord
  lid : Word
  dep0 : Word
  dep1 : Word
  deadline : Word
  owner : Word
  readyAt : Option Nat
  active : Bool
  next : Nat
  live : Nat
  offer : Option (Nat × Task)
  placedAt : Nat
  zeroAt : Option Nat
  late : Bool
  set : Option (Nat × Nat × Nat)
  deriving DecidableEq, Repr

/-- A launch queue of a tenant: the last accepted sequence, the queue control block and its copy in the firmware's
memory, with the last accepted sequence as it was then (R287, R355, R356). -/
structure Queue where
  last : Option Nat
  acc : Word
  gen : Word
  done : Word
  shadow : Word × Word × Word
  before : Option Nat
  deriving DecidableEq, Repr

/-- States of TCTRL (R353). -/
inductive TenantState where
  | absent | active | preempted | stopped | resetting
  deriving DecidableEq, Repr

/-- A fatal cause raised and not yet acted on (R335): its record (R333) and whether it is a supervisor's. -/
structure Fatal where
  tenant : Nat
  record : List Byte
  sup : Bool
  deriving DecidableEq, Repr

/-- A task record that lies in its tenant's spill area: the cluster it was pushed to and its place in the area (R295). -/
structure Spilled where
  cluster : Nat
  place : Nat
  task : Task
  deriving DecidableEq, Repr

/-- A tenant: its block (R290, R352), its window (R287), its queues and its spilled tasks. Number 64 is the device
runtime's window. -/
structure Tenant where
  id : Nat
  ctrl : Word
  teamq : Word
  spill : DWord
  spilln : Word
  rank : List Word
  flog : DWord
  savepool : DWord
  savebytes : DWord
  wdog : Word
  late : Word
  tcmd : BitVec 3
  state : TenantState
  drops : Nat
  lastdrop : Nat
  lost : Nat
  queues : List Queue
  spilled : List Spilled
  pressure : List (Nat × Nat)
  ranOn : List Nat
  deriving DecidableEq, Repr

/-- What a team takes of a core (R35, R36). -/
structure Load where
  teams : Nat
  threads : Nat
  granules : Nat
  bars : Nat
  lands : Nat
  deriving DecidableEq, Repr

/-- A floor reservation (R246), and whether it holds a control-stream context. -/
structure Floor where
  tenant : Nat
  stage : Nat
  core : Nat
  need : Load
  control : Bool
  deriving DecidableEq, Repr

/-- A flit that a port keeps for replay (R357): the module it goes to and the tenant whose write it carries (R358), how often it was
replayed, and its bytes. -/
structure Flit where
  dest : Nat
  tenant : Nat
  replays : Nat
  bytes : List Byte
  deriving DecidableEq, Repr

/-- A Lorric port (R357): the sequences that it takes and sends next, the flits that it has sent and that are not acknowledged, and
the payloads that it has taken. -/
structure Port where
  id : Nat
  up : Bool
  rx : Nat
  tx : Nat
  unacked : List Flit
  taken : List (List Byte)
  deriving DecidableEq, Repr

/-- Life-cycle states (R364). -/
inductive Life where
  | manufacture | secure | retired
  deriving DecidableEq, Repr

/-- A firmware slot of the boot flash: an image with its header (R362). -/
structure Slot where
  header : FwHeader
  image : List Byte
  deriving DecidableEq, Repr

/-- What the management complex has answered or raised (R365, R366, R371). -/
inductive Reply where
  | version (v : Nat)
  | capabilities
  | algorithms (asym hash : String)
  | digests (d : List (List Byte))
  | certificate (c : List Byte)
  | challengeAuth (nonce sig : List Byte)
  | measurements (m : List (List Byte))
  | chassis (power cap : Word)
  | processors (eol : List Word)
  | memory (count : Nat)
  | log (records : List Byte)
  | update
  | integrity
  | event (die : Nat)
  | retryStatus (function : Nat)
  | config (function : Nat)
  | replayFrom (port seq : Nat)
  | flit (port : Nat) (bytes : List Byte)
  | word (function off : Nat) (value : Word)
  | vector (function vector : Nat)
  deriving DecidableEq, Repr

/-- Where the module stands between power-on and work (R362, R364, R370). -/
inductive Phase where
  | off | recovery | open | dead
  deriving DecidableEq, Repr

/-- The module registers of R351. -/
structure ModRegs where
  asidtab : DWord
  fland : DWord
  devlog : DWord
  dumpbase : DWord
  cmd : Word
  cmdBusy : Bool
  cmdResult : Nat
  devnum : Nat
  rtfail : Bool
  pcap : Word
  power : Word
  rtasid : Word
  deriving DecidableEq, Repr

/-- The management complex: flash slots, marker copies, the slot that booted and the SEQ under which the markers named it, life cycle,
the loaded runtime image and its answers. -/
structure Polfel where
  slots : List Slot
  marker0 : List Byte
  marker1 : List Byte
  booted : Option Nat
  bootSeq : Option Nat
  life : Life
  runtime : List Byte
  replies : List Reply
  lastReset : Option Nat
  windows : Nat
  withhold : Bool
  deriving DecidableEq, Repr

/-- What moves next, when it is not the machine's own next word: a row of the table, another group between two
words, the host or another bus master writing memory, the host reading a function's BAR0, a launch in whose recording Polfel is
cut short, fabric bring-up, a flit that a port is to send to a module and the far side's demand for a replay, and time passing. -/
inductive Move where
  | event (i : Instr)
  | focus (k : Nat)
  | hostWrite (pa : Nat) (data : List Byte)
  | barRead (function off : Nat)
  | strike (window off : Nat) (data : List Byte)
  | send (port dest tenant : Nat) (payload : List Byte)
  | replay (port seq : Nat)
  | runtimeImage (image : List Byte)
  | fabric (dev : Nat) (routes : List (Nat × List Nat))
  | spoil (pa : Nat)
  | elapse (cycles : Nat)
  deriving DecidableEq, Repr

/-- The CRC tag that the machine keeps with a 4 KiB page of a tier below local HBM (R367). -/
structure Tag where
  page : Nat
  crc : Word
  deriving DecidableEq, Repr

/-- The whole module; fullAt is the last cycle, while a launch was active, in which no core was free (R293), and archive holds the teams
as their saves left them, which the K8 knows again by the images in their slots (R339, R369). -/
structure State where
  phase : Phase
  clock : Nat
  fresh : Nat
  ids : Nat
  agenda : List Move
  groups : List Group
  mem : List Host.Cell
  tags : List Tag
  stamps : List Stamp
  teams : List Team
  cores : List Core
  clusters : List Cluster
  dies : List Die
  landings : List Landing
  pageMarks : List PageMarks
  publishes : List Publish
  catts : List CattJob
  cmds : List EngCmd
  bindings : List Binding
  remaps : List Remap
  launches : List Launch
  tenants : List Tenant
  floors : List Floor
  fatals : List Fatal
  lastCluster : Nat
  ports : List Port
  routes : List (Nat × List Nat)
  fullAt : Nat
  tickCtime : Nat
  tickPressure : Nat
  archive : List Team
  regs : ModRegs
  polfel : Polfel
  deriving DecidableEq, Repr

/-- Why a step can stop the machine. -/
inductive Fault where
  /-- Raised by step alone, when a module-fatal event (R370) has happened and nothing from outside is to come: the
  module does nothing more before a full boot. Safe: the manual gives the module no further step. -/
  | moduleFatal
  deriving DecidableEq, Repr

/-- Why an instruction can have no meaning. -/
inductive Refusal where
  /-- Raised by exec for a row that has no meaning yet. Safe: no claim can be proved through it. -/
  | notModelled (mnemonic : String)
  deriving DecidableEq, Repr

/-- CRC-32C (Castagnoli, reflected), one bit. -/
def crcBit (c : Word) : Word := if c.getLsbD 0 then (c >>> 1) ^^^ 0x82F63B78#32 else c >>> 1

/-- CRC-32C, one byte. -/
def crcByte (c : Word) (b : Byte) : Word :=
  let x := c ^^^ b.setWidth 32
  crcBit (crcBit (crcBit (crcBit (crcBit (crcBit (crcBit (crcBit x)))))))

/-- CRC-32C of a byte string. -/
def crc32c (l : List Byte) : Word := ~~~ (l.foldl crcByte 0xFFFFFFFF#32)

/-- The little-endian bytes of a number. -/
def bytesLE : Nat → Nat → List Byte
  | 0, _ => []
  | n + 1, x => BitVec.ofNat 8 x :: bytesLE n (x / 256)

/-- A marker copy (R362): MAGIC, SEQ, SLOT and the CRC over them. -/
def markerBytes (seq slot : Nat) : List Byte :=
  let h := bytesLE 4 0x4B384D4B ++ bytesLE 4 seq ++ bytesLE 4 slot
  h ++ bytesLE 4 (crc32c h).toNat

/-- The module registers at power-on (R351). -/
def ModRegs.reset : ModRegs :=
  { asidtab := 0, fland := 0, devlog := 0, dumpbase := 0, cmd := 0, cmdBusy := false, cmdResult := 0, devnum := 0,
    rtfail := false, pcap := 10000, power := 0, rtasid := 0 }

/-- The header of an image that verifies: its length, and the signature over its digest. -/
def signedHeader (image : List Byte) : FwHeader := { length := image.length, signature := Config.imageSign (sha256 image) }

/-- The management complex as it leaves the factory (log 6). -/
def Polfel.reset : Polfel :=
  { slots := [{ header := signedHeader [], image := [] }, { header := { length := 1, signature := Vector.replicate 384 0 }, image := [] }], marker0 := markerBytes 0 0,
    marker1 := markerBytes 0 0, booted := none, bootSeq := none, life := .manufacture, runtime := [], replies := [], lastReset := none,
    windows := 0, withhold := false }

/-- The module at power-on, before Polfel has chosen a slot (R362). -/
def State.reset : State :=
  { phase := .off, clock := 0, fresh := 0, ids := 0, agenda := [], groups := [], mem := [], tags := [], stamps := [],
    teams := [], cores := [], clusters := [], dies := [], landings := [], pageMarks := [], publishes := [], catts := [], cmds := [],
    bindings := [], remaps := [], launches := [], tenants := [], floors := [], fatals := [], lastCluster := 127,
    ports := [], routes := [], fullAt := 0, tickCtime := 0, tickPressure := 0, archive := [],
    regs := ModRegs.reset, polfel := Polfel.reset }

end Sys2Proof.Machine
end

