-- ==== Sys2Proof/Machine/Ops.lean ====
section
/-!
DEFINITION. The named operations over the state: units and their records, teams and threads, the issuing group,
filing a thread, words in flight and what they write when they return, and taking and leaving a trap.
-/

namespace Sys2Proof.Machine

/-! ### Units (R3) -/

/-- What TID reads in a control stream (R70), the number the model gives a team's stream. -/
def tidCtl : Nat := 0xFFFFFFFF
/-- The number under which a team's fault record waits at a landing, which no thread has. -/
def tidRecord : Nat := 2 ^ 32

/-- Cluster of a core. -/
def clusOf (core : Nat) : Nat := core / 4
/-- Stack group of a cluster. -/
def sgrpOf (cluster : Nat) : Nat := cluster / 4
/-- Die of a core. -/
def dieOfCore (core : Nat) : Nat := core / 64
/-- Die of a cluster. -/
def dieOfClus (cluster : Nat) : Nat := cluster / 16

/-- Puts a record in a list of records, in place of the one with its key. -/
def put {α : Type} (key : α → Nat) (a : α) : List α → List α
  | [] => [a]
  | x :: l => if key x = key a then a :: l else x :: put key a l

/-- A die as it stands after reset. -/
def Die.fresh (id : Nat) : Die :=
  { id := id, epoch := 0, idle := 0, floor := 0, regions := [], walks := [], state := .up, lost := false, warm := false, eol := 0xFFFFFFFF }

/-- Die `d`. -/
def State.die (s : State) (d : Nat) : Die := (s.dies.find? (·.id = d)).getD (Die.fresh d)

/-- Changes die `d`. -/
def State.modDie (s : State) (d : Nat) (f : Die → Die) : State := { s with dies := put (·.id) (f (s.die d)) s.dies }

/-- A core that nothing has touched since reset but time. -/
def Core.fresh (id time : Nat) : Core :=
  { id := id, ctime := time, lines := [], consts := [], tlb := [], asleep := none }

/-- Core `c`. -/
def State.core (s : State) (c : Nat) : Core := (s.cores.find? (·.id = c)).getD (Core.fresh c (s.die (dieOfCore c)).idle)

/-- The state with one core's record. -/
def State.setCore (s : State) (c : Core) : State := { s with cores := put (·.id) c s.cores }

/-- Changes core `c`. -/
def State.modCore (s : State) (c : Nat) (f : Core → Core) : State := s.setCore (f (s.core c))

/-- A cluster that nothing has touched since reset. -/
def Cluster.fresh (id : Nat) : Cluster :=
  { id := id, fused := false, tiles := [], squares := [], banks := [], deque := [], tlb := [], stealAt := 0, ageAt := 0, ageNext := 0,
    lastStream := 0 }

/-- Cluster `c`. -/
def State.cluster (s : State) (c : Nat) : Cluster := (s.clusters.find? (·.id = c)).getD (Cluster.fresh c)

/-- The state with one cluster's record. -/
def State.setCluster (s : State) (c : Cluster) : State := { s with clusters := put (·.id) c s.clusters }

/-- Changes cluster `c`. -/
def State.modCluster (s : State) (c : Nat) (f : Cluster → Cluster) : State := s.setCluster (f (s.cluster c))

/-- Whether die `d` is in service: its homes answer (R361). -/
def Die.serves (d : Die) : Bool := d.state != .down

/-- A queue as it stands after tenant reset. -/
def Queue.fresh : Queue := { last := none, acc := 0, gen := 0, done := 0, shadow := (0, 0, 0), before := none }

/-- The reset value of a rank entry (R291): AGESTEP 1, LEVEL 511. -/
def rankReset : Word := 0x010001FF#32

/-- The reset value of CTRL (R290): CREDITS 256, WCLASS 7. -/
def ctrlReset : Word := 0x00000807#32

/-- The number of the device runtime's launch window. -/
def rtWindow : Nat := 64

/-- A tenant as it stands after reset; the runtime's window, for which the manual gives no scheduling block, is always open, with the
reset values of one: CREDITS 256, WCLASS 7 and the rank entries (R290, R291, log 53). -/
def Tenant.fresh (id : Nat) : Tenant :=
  { id := id, ctrl := ctrlReset, teamq := if id = rtWindow then 8192 else 0, spill := 0, spilln := 0,
    rank := List.replicate 4 rankReset,
    flog := 0, savepool := 0, savebytes := 0, wdog := 0, late := 0, tcmd := 0, state := if id = rtWindow then .active else .absent,
    drops := 0, lastdrop := 0, lost := 0, queues := List.replicate 16 Queue.fresh, spilled := [], pressure := [],
    ranOn := [] }

/-- Tenant `t`. -/
def State.tenant (s : State) (t : Nat) : Tenant := (s.tenants.find? (·.id = t)).getD (Tenant.fresh t)

/-- The state with one tenant's record. -/
def State.setTenant (s : State) (t : Tenant) : State := { s with tenants := put (·.id) t s.tenants }

/-- Changes tenant `t`. -/
def State.modTenant (s : State) (t : Nat) (f : Tenant → Tenant) : State := s.setTenant (f (s.tenant t))

/-- Draws a name that nothing carries yet. -/
def State.newId (s : State) : Nat × State := (s.ids, { s with ids := s.ids + 1 })

/-- Records something that the module sends out. -/
def State.reply (s : State) (r : Reply) : State := { s with polfel := { s.polfel with replies := s.polfel.replies ++ [r] } }

/-! ### Owner words (R27) -/

/-- SUP. -/
def ownerSup (o : Word) : Bool := o.getLsbD 18
/-- TENANT. -/
def ownerTenant (o : Word) : Nat := (o.extractLsb' 12 6).toNat
/-- ASID. -/
def ownerAsid (o : Word) : Nat := (o.extractLsb' 0 12).toNat
/-- An owner word. -/
def ownerWord (sup : Bool) (tenant asid : Nat) : Word :=
  BitVec.ofNat 32 (sup.toNat * 2 ^ 18 + tenant % 64 * 2 ^ 12 + asid % 4096)
/-- The number under which the model keeps an owner's tenant: the runtime's for a supervisor task. -/
def ownerId (o : Word) : Nat := if ownerSup o then rtWindow else ownerTenant o

/-- The teams of an owner number. -/
def State.teamsOf (s : State) (id : Nat) : List Team := s.teams.filter fun t => ownerId t.task.owner = id

/-! ### Teams and threads -/

/-- Team `id`. -/
def State.team? (s : State) (id : Nat) : Option Team := s.teams.find? (·.id = id)

/-- Changes team `id`. -/
def State.modTeam (s : State) (id : Nat) (f : Team → Team) : State :=
  { s with teams := s.teams.map fun t => if t.id = id then f t else t }

/-- Thread `tid` of a team. -/
def Team.thread? (t : Team) (tid : Nat) : Option Thread := t.threads.find? (·.tid = tid)

/-- Changes thread `tid` of a team. -/
def Team.modThread (t : Team) (tid : Nat) (f : Thread → Thread) : Team :=
  { t with threads := t.threads.map fun h => if h.tid = tid then f h else h }

/-- Thread `tid` of team `id`. -/
def State.thread? (s : State) (id tid : Nat) : Option Thread := (s.team? id).bind (·.thread? tid)

/-- Changes thread `tid` of team `id`. -/
def State.modThread (s : State) (id tid : Nat) (f : Thread → Thread) : State := s.modTeam id (·.modThread tid f)

/-- Whether a thread has not executed EXIT. -/
def Thread.live (t : Thread) : Bool := t.status != .exited

/-- The live threads of a team, its control stream apart (R43, R136). -/
def Team.liveThreads (t : Team) : List Thread := t.threads.filter fun h => h.live && !h.ctl

/-- Whether the team's control stream has not executed EXIT. -/
def Team.liveStream (t : Team) : Bool := t.threads.any fun h => h.live && h.ctl

/-- Whether the task has a control stream. -/
def Team.hasStream (t : Team) : Bool := t.kern.control != 0

/-- The team's tenant. -/
def Team.tenant (t : Team) : Nat := ownerTenant t.task.owner
/-- The team's ASID. -/
def Team.asid (t : Team) : Nat := ownerAsid t.task.owner
/-- Whether the team runs a supervisor task. -/
def Team.sup (t : Team) : Bool := ownerSup t.task.owner
/-- Flag CBOUND of the team's task. -/
def Team.cbound (t : Team) : Bool := t.task.flags.getLsbD 16

/-- Whether a core holds the team: it has not been saved. -/
def Team.resident (t : Team) : Bool := t.state != .saved

/-- The teams that stand on core `c`. -/
def State.teamsOn (s : State) (c : Nat) : List Team := s.teams.filter fun t => t.core = c && t.resident

/-! ### Words in flight (R54, R56) -/

/-- The counter a blocked word counts on (R122, R161, R227); CARVE counts on none. -/
def Wait.ctr : Wait → Option Ctr
  | .bsync .. | .bwait .. | .lpush .. | .lpop .. => some .wq
  | .csig .. | .catt .. => some .wc
  | .mclr .. | .mres .. => some .wt
  | .carve .. => none

/-- One of the seven counters of a thread. -/
def Thread.count (t : Thread) (c : Ctr) : Nat :=
  (t.pend.filter (·.ctr = c)).length +
    (match t.status with
     | .blocked b => if b.wait.ctr = some c then 1 else 0
     | _ => 0)

/-- Whether all seven counters are zero. -/
def Thread.drained (t : Thread) : Bool :=
  t.pend.isEmpty && (match t.status with | .blocked b => b.wait.ctr.isNone | _ => true)

/-- One of several values, when the manual allows each of them. -/
def choose {α : Type} (n : Nat) (d : α) : List α → α
  | [] => d
  | [x] => x
  | x :: y :: l => (x :: y :: l).getD (Config.choice n % (l.length + 2)) d

/-- The place in the run at which a choice is made: the step, the thread and the operand. -/
def choiceAt (step tid k : Nat) : Nat := (step * 2 ^ 32 + tid) * 64 + k

/-- The i-th of several choices that are made at one place, each by itself. -/
def nth (n i : Nat) : Nat := n + i * 2 ^ 128

/-- A v or c register as it stands. -/
def Thread.raw (t : Thread) (i : Nat) : DWord :=
  if t.ctl then (if i = 0 then 0 else t.c.getD i 0) else (t.v.getD i 0).setWidth 64

/-- Puts a value in a v or c register; a write to c0 is discarded. -/
def Thread.setRaw (t : Thread) (i : Nat) (x : DWord) : Thread :=
  if t.ctl then (if i = 0 then t else { t with c := t.c.set i x }) else { t with v := t.v.set i (x.setWidth 32) }

/-- The values that unreturned words will write to a register over its present value (R56); nothing writes c0. -/
def Thread.coming (t : Thread) (i : Nat) : List DWord :=
  if t.ctl && i = 0 then [] else t.pend.flatMap fun p => (p.regs.filter fun r => r.idx = i && !r.behind).map (·.val)

/-- A register as a word reads it at issue: the old value or any that is on its way (R56). -/
def Thread.read (t : Thread) (n i : Nat) : DWord := choose n (t.raw i) (t.raw i :: t.coming i)

/-- Marks every write on its way to a register as racing with another one. -/
def Pending.clashReg (i : Nat) (p : Pending) : Pending :=
  { p with regs := p.regs.map fun r => if r.idx = i then { r with clash := true } else r }

/-- Marks every write on its way to a predicate as racing with another one. -/
def Pending.clashPred (i : Nat) (p : Pending) : Pending :=
  { p with preds := p.preds.map fun r => if r.idx = i then { r with clash := true } else r }

/-- A later word's write of a register is done: the writes on their way to it lie behind that one. -/
def Pending.passReg (i : Nat) (p : Pending) : Pending :=
  { p with regs := p.regs.map fun r => if r.idx = i then { r with clash := true, behind := true } else r }

/-- A later word's write of a predicate is done. -/
def Pending.passPred (i : Nat) (p : Pending) : Pending :=
  { p with preds := p.preds.map fun r => if r.idx = i then { r with clash := true, behind := true } else r }

/-- A fixed-latency write of a register. -/
def Thread.write (t : Thread) (i : Nat) (x : DWord) : Thread :=
  { t.setRaw i x with pend := t.pend.map (Pending.passReg i) }

/-- A predicate as it stands; p7 reads 1. -/
def Thread.rawPred (t : Thread) (i : Nat) : Bool := if i = 7 then true else t.p.getLsbD i

/-- Puts a value in a predicate; a write to p7 is discarded. -/
def Thread.setRawPred (t : Thread) (i : Nat) (x : Bool) : Thread :=
  if i = 7 then t
  else { t with p := if x then t.p ||| (1#8 <<< i) else t.p &&& ~~~(1#8 <<< i) }

/-- A predicate as a word reads it at issue (R56). -/
def Thread.readPred (t : Thread) (n i : Nat) : Bool :=
  choose n (t.rawPred i)
    (t.rawPred i :: t.pend.flatMap fun p => (p.preds.filter fun r => r.idx = i && !r.behind && i != 7).map (·.val))

/-- A fixed-latency write of a predicate. -/
def Thread.writePred (t : Thread) (i : Nat) (x : Bool) : Thread :=
  { t.setRawPred i x with pend := t.pend.map (Pending.passPred i) }

/-- Puts a word in flight. -/
def Thread.launch (t : Thread) (p : Pending) : Thread := { t with pend := t.pend ++ [p] }

/-- One register result arrives: the value written, or either value where another write raced with it. -/
def Thread.landReg (t : Thread) (n : Nat) (r : RegWrite) : Thread :=
  let x := if r.clash then choose n r.val [t.raw r.idx, r.val] else r.val
  { t.setRaw r.idx x with pend := t.pend.map (Pending.clashReg r.idx) }

/-- One predicate result arrives. -/
def Thread.landPred (t : Thread) (n : Nat) (r : PredWrite) : Thread :=
  let x := if r.clash then choose n r.val [t.rawPred r.idx, r.val] else r.val
  { t.setRawPred r.idx x with pend := t.pend.map (Pending.clashPred r.idx) }

/-- What a returned word writes: its registers and its predicates, each decided by itself (R56), and its flags (R54, R221). -/
def Thread.land (n : Nat) (t : Thread) (p : Pending) : Thread :=
  let t := p.regs.zipIdx.foldl (fun t x => t.landReg (nth n x.2) x.1) t
  let t := p.preds.zipIdx.foldl (fun t x => t.landPred (nth n (32 + x.2)) x.1) t
  { t with flags := t.flags ||| p.flags }

/-- A word in flight that was issued before word `p`, once `p` has returned. -/
def Pending.passedBy (p q : Pending) : Pending :=
  p.preds.foldl (fun q r => q.passPred r.idx) (p.regs.foldl (fun q r => q.passReg r.idx) q)

/-- A word in flight of a thread that has executed EXIT: it writes no register or predicate any more, but it still ends (R117). -/
def Pending.orphan (p : Pending) : Pending := { p with regs := [], preds := [] }

/-- Parts the words in flight that `sel` picks from the others, which those of them that follow have passed. -/
def partDone (sel : Pending → Bool) (l : List Pending) : List Pending × List Pending :=
  l.foldl (fun x q => if sel q then (x.1 ++ [q], x.2.map q.passedBy) else (x.1, x.2 ++ [q])) ([], [])

/-- The words in flight that `sel` picks return, in the order of their issue. -/
def Thread.returnThose (t : Thread) (n : Nat) (sel : Pending → Bool) : Thread :=
  let x := partDone sel t.pend
  x.1.zipIdx.foldl (fun t y => t.land (nth n (64 * y.2)) y.1) { t with pend := x.2 }

/-- Whether a word in flight is a memory word, behind which a release acts (R133). -/
def Pending.memory (p : Pending) : Bool := (p.ctr == .wl || p.ctr == .ws) && p.hold.isNone

/-- The word in flight at place `i` returns, if nothing holds it; the words before it were issued before it. With a release the
memory words before it return, since it is not complete until they are performed (R133): that a load is performed when its
register is written is the model's reading, which R176 to R179 need (log 100). -/
def Thread.returnAt (n i : Nat) (t : Thread) : Thread :=
  match t.pend[i]? with
  | some p =>
      if p.hold.isNone then
        let x := if p.tie = .release then partDone Pending.memory (t.pend.take i) else ([], t.pend.take i)
        let t := x.1.zipIdx.foldl (fun t y => t.land (nth n (64 * (y.2 + 1))) y.1)
          { t with pend := x.2.map p.passedBy ++ t.pend.drop (i + 1) }
        t.land n p
      else t
  | none => t

/-- Every word that waits for job `j` returns. -/
def Thread.returnJob (t : Thread) (n j : Nat) : Thread := t.returnThose n fun p => p.hold = some j

/-- What is there when a clause of a class starts: outside ALU, the ring-set results on their way. R264 gives the end of a program
whose store, in a clause with no wait bit, reads such a result; R56 and R274 leave every other early read open (log 100). -/
def Thread.startClause (t : Thread) (n : Nat) (cls : BitVec 3) : Thread :=
  if cls = 0 then t else t.returnThose n fun p => p.tie = .ring && p.hold.isNone

/-- Every thread of the module whose word waits for job `j` gets its result. -/
def State.endJob (s : State) (j : Nat) : State :=
  { s with
    teams := s.teams.map fun t =>
      { t with threads := t.threads.map fun h => h.returnJob (choiceAt s.fresh (t.id * 2048 + h.tid % 2048) 0) j }
    fresh := s.fresh + 1 }

/-- A word in flight that writes nothing. -/
def ack (c : Ctr) : Pending := { ctr := c, regs := [], preds := [], flags := 0, hold := none }

/-! ### Filing threads (R39) -/

/-- The key of a thread's bin: team, next PC and handler bit. -/
def Thread.key (team : Nat) (t : Thread) : Nat × Nat × Nat × Bool := (team, t.pc, t.word, t.handler)

/-- The bins of core `c` in use, with their keys. -/
def State.binsOf (s : State) (c : Nat) : List (Nat × (Nat × Nat × Nat × Bool)) :=
  (s.teamsOn c).flatMap fun t => t.threads.filterMap fun h =>
    match h.status with
    | .bin n => some (n, h.key t.id)
    | _ => none

/-- The bin that takes a key, if one holds it or one is empty. -/
def State.binFor (s : State) (c : Nat) (key : Nat × Nat × Nat × Bool) : Option Nat :=
  let used := s.binsOf c
  match used.find? (·.2 = key) with
  | some x => some x.1
  | none => (List.range 16).find? fun n => used.all (·.1 ≠ n)

/-- Files a thread at its next PC: the bin of its key, an empty bin, or the spill list. A control stream becomes
ready. -/
def State.file (s : State) (id tid : Nat) : State :=
  match s.team? id, s.thread? id tid with
  | some tm, some th =>
      let place := if th.ctl then .ready else
        match s.binFor tm.core (th.key id) with
        | some n => Status.bin n
        | none => .spill
      s.modThread id tid fun h => { h with status := place, age := s.clock, refile := false }
  | _, _ => s

/-- Files a thread whose clause ended without a yield. -/
def State.fileReady (s : State) (id tid : Nat) : State :=
  (s.modThread id tid fun h => { h with yielded := false }).file id tid

/-- Files a thread that leaves a yield (R40). -/
def State.fileYield (s : State) (id tid : Nat) : State :=
  (s.modThread id tid fun h => { h with yielded := true }).file id tid

/-- A parked thread whose counters are zero is filed (R55). -/
def State.unpark (s : State) (id tid : Nat) : State :=
  match s.thread? id tid with
  | some th =>
      if th.status = .parked ∧ th.pend.isEmpty then (if th.yielded then s.fileYield id tid else s.fileReady id tid) else s
  | none => s

/-- The number of held groups on core `c`. -/
def State.heldOn (s : State) (c : Nat) : List Nat :=
  ((s.teamsOn c).flatMap fun t => t.threads.filterMap fun h =>
    match h.status with | .held n => some n | _ => none).dedup

/-! ### The issuing group -/

/-- CLASS of the clause (R51). -/
def Group.cls (g : Group) : BitVec 3 := (g.words.headD 0).extractLsb' 25 3

/-- Address of the clause that follows in memory (R111). -/
def Group.fall (g : Group) : Nat := g.header + 4 * g.words.length

/-- Bit P of the clause (R51). -/
def Group.park (g : Group) : Bool := (g.words.headD 0).getLsbD 15

/-- Bit Y of the clause (R51). -/
def Group.yields (g : Group) : Bool := (g.words.headD 0).getLsbD 14

/-- The slots of the group that still hold a thread: those it has not left by a trap or a blocking word. -/
def State.present (s : State) (g : Group) : List Nat :=
  g.slots.filter fun tid => match s.thread? g.team tid with | some h => h.status = .issuing | none => false

/-- The slot that holds a team thread, as R76 gives. -/
def State.laneOf (s : State) (g : Group) (tid : Nat) : Option Nat :=
  if tid ∈ s.present g then (g.slots.findIdx? (· = tid)) else none

/-! ### Traps (R325 to R331) -/

/-- Ends the word for one thread with a trap that names the word being issued. -/
def State.trapAs (s : State) (g : Group) (tid : Nat) (cause : Nat) (detail : Nat) (write : Bool) (addr : DWord) : State :=
  s.modThread g.team tid fun h =>
    { h with status := .trapped { cause := BitVec.ofNat 8 cause, detail := BitVec.ofNat 20 detail, write := write,
                                  cls := g.cls, addr := addr, header := g.header, word := g.idx, cycle := s.clock } }

/-- FAULT as R71 lays it out. -/
def Trap.fault (t : Trap) : Word := t.detail ++ BitVec.ofBool t.write ++ t.cls ++ t.cause

/-- FPC as R71 lays it out. -/
def Trap.fpc (t : Trap) : DWord := BitVec.ofNat 64 (t.word % 16 * 2 ^ 48 + t.header % 2 ^ 48)

/-- FADDR as R71 lays it out: bits 63:48 are zero. -/
def Trap.faddr (t : Trap) : DWord := (t.addr.extractLsb' 0 48).setWidth 64

/-- Taking a trap: FAULT, FADDR and FPC are written (R326). -/
def Thread.takeTrap (t : Trap) (h : Thread) : Thread := { h with fault := t.fault, faddr := t.faddr, fpc := t.fpc }

/-- Entering the handler (R329): the handler bit is set and the next PC is the handler's first clause. -/
def Thread.enterHandler (tm : Team) (h : Thread) : Thread :=
  { h with handler := true, pc := (tm.task.kernel.toNat + tm.kern.handler) % 2 ^ 48, word := 0, waitAt := none }

/-- Leaving the handler (R119): the handler bit is cleared and the thread resumes at FPC. -/
def Thread.leaveHandler (h : Thread) : Thread :=
  { h with handler := false, pc := h.fpc.toNat % 2 ^ 48 / 4 * 4, word := h.fpc.toNat / 2 ^ 48 % 16 }

/-- The trap causes of R327. -/
inductive Cause where
  | illop | align | xlate | perm | poison | homedown | lspill | lsealed | mscale | tilestate | nopage | barrier | wdog
  | trapi | stack | ringload | scope | taskrec | joinzero | dequefull | nohandler | ctltrap | savefail | killed | machine
  deriving DecidableEq, Repr

/-- Codes of R327. -/
def Cause.code : Cause → Nat
  | .illop => 0x01 | .align => 0x02 | .xlate => 0x03 | .perm => 0x04 | .poison => 0x05 | .homedown => 0x06
  | .lspill => 0x07 | .lsealed => 0x08 | .mscale => 0x09 | .tilestate => 0x0A | .nopage => 0x0B | .barrier => 0x0C
  | .wdog => 0x0D | .trapi => 0x0E | .stack => 0x0F | .ringload => 0x10 | .scope => 0x11 | .taskrec => 0x20
  | .joinzero => 0x21 | .dequefull => 0x22 | .nohandler => 0x23 | .ctltrap => 0x24 | .savefail => 0x25 | .killed => 0x26
  | .machine => 0x27

/-- What a check of a word found wrong. -/
structure Bad where
  cause : Cause
  detail : Nat
  write : Bool
  addr : DWord
  deriving DecidableEq, Repr

/-- Ends the word for one thread with what a check found. -/
def State.trap (s : State) (g : Group) (tid : Nat) (b : Bad) : State :=
  s.trapAs g tid b.cause.code b.detail b.write b.addr

/-- A check's finding with no address. -/
def bad (c : Cause) (detail : Nat) : Bad := { cause := c, detail := detail, write := false, addr := 0 }

/-- A check's finding with an address. -/
def badAt (c : Cause) (detail : Nat) (addr : DWord) : Bad := { cause := c, detail := detail, write := false, addr := addr }

/-! ### Fault records (R333, R336) -/

/-- A fault record: FAULT with SUPRET 0, owner, FADDR, FPC, TID, place, kernel, resume cell and CLOCK. -/
def faultRecord (fault owner : Word) (faddr fpc : DWord) (tid core slot : Nat) (kernel cell : DWord) (clock : Nat) :
    List Byte :=
  bytesLE 4 fault.toNat ++ bytesLE 4 owner.toNat ++ bytesLE 8 faddr.toNat ++ bytesLE 8 fpc.toNat ++ bytesLE 4 tid
    ++ bytesLE 4 (core * 2 ^ 16 + slot) ++ bytesLE 8 kernel.toNat ++ bytesLE 8 cell.toNat ++ bytesLE 8 clock ++ bytesLE 8 0

/-- Raises a fatal cause for the owner of a task (R335). -/
def State.raise (s : State) (owner : Word) (record : List Byte) : State :=
  { s with fatals := s.fatals ++ [{ tenant := ownerTenant owner, record := record, sup := ownerSup owner }] }

/-- FAULT of a fatal cause with its DETAIL. -/
def fatalWord (c : Cause) (detail : Nat) (cls : BitVec 3) (write : Bool) : Word :=
  BitVec.ofNat 20 detail ++ BitVec.ofBool write ++ cls ++ BitVec.ofNat 8 c.code

/-- Raises a fatal cause that no thread's trap names: it carries an address and the kernel of the task concerned. -/
def State.raiseTask (s : State) (c : Cause) (detail : Nat) (owner : Word) (addr kernel : DWord) (core slot : Nat) : State :=
  s.raise owner (faultRecord (fatalWord c detail 0 false) owner addr 0 0 core slot kernel 0 s.clock)

/-- Raises a fatal cause out of a thread's trap (R330, R331, R334). -/
def State.raiseTrap (s : State) (tm : Team) (tid : Nat) (c : Cause) (detail : Nat) (t : Trap) : State :=
  s.raise tm.task.owner (faultRecord (fatalWord c detail t.cls t.write) tm.task.owner t.faddr t.fpc tid tm.core tm.slot
    tm.task.kernel 0 s.clock)

end Sys2Proof.Machine
end

