-- ==== Sys2Proof/Machine/Memory.lean ====
section
/-!
DEFINITION. Memory: the cells of the physical address space, homes and their stamps, the L1s, translation, and the
accesses of the memory words (R121 to R135, R180 to R204, R341 to R349).
-/

namespace Sys2Proof

/-- Whether a scope is cluster or wider. -/
def Scope.homeWide : Scope → Bool
  | .team | .core => false
  | _ => true

/-- Whether an order acquires. -/
def Order.acquires : Order → Bool
  | .acq | .acqrel => true
  | _ => false

/-- Whether an order releases. -/
def Order.releases : Order → Bool
  | .rel | .acqrel => true
  | _ => false

end Sys2Proof

namespace Sys2Proof.Machine

/-! ### Cells -/

/-- What an address that nothing has written reads as: HBM is zeroed at boot (R364); log 4 for the rest. -/
def memDefault : Byte := 0

/-- One byte. -/
def cellGet (a : Nat) : List Host.Cell → Byte
  | [] => memDefault
  | (x, b) :: l => if x = a then b else if a < x then memDefault else cellGet a l

/-- Writes one byte, keeping the canonical form. -/
def cellSet (a : Nat) (v : Byte) : List Host.Cell → List Host.Cell
  | [] => if v = memDefault then [] else [(a, v)]
  | (x, b) :: l =>
      if a < x then (if v = memDefault then (x, b) :: l else (a, v) :: (x, b) :: l)
      else if a = x then (if v = memDefault then l else (x, v) :: l)
      else (x, b) :: cellSet a v l

/-- The canonical form: addresses strictly rising from `lo`, no entry equal to the default. -/
def cellsFrom (lo : Nat) : List Host.Cell → Bool
  | [] => true
  | (x, b) :: l => lo ≤ x && b != memDefault && cellsFrom (x + 1) l

/-- The canonical form. -/
def Memory.wf (m : List Host.Cell) : Bool := cellsFrom 0 m

/-- Consecutive bytes. -/
def cellsGet (m : List Host.Cell) (a : Nat) : Nat → List Byte
  | 0 => []
  | n + 1 => cellGet a m :: cellsGet m (a + 1) n

/-- Writes consecutive bytes. -/
def cellsSet (m : List Host.Cell) (a : Nat) : List Byte → List Host.Cell
  | [] => m
  | b :: l => cellsSet (cellSet a b m) (a + 1) l

/-- The number that bytes spell, the lowest address first. -/
def leNat : List Byte → Nat
  | [] => 0
  | b :: l => b.toNat + 256 * leNat l

/-! ### The physical map (R349) -/

/-- The ranges of the physical address space. -/
inductive Range where
  | hbm | reserved | host | storage
  deriving DecidableEq, Repr

/-- The range an address lies in. -/
def rangeOf (pa : Nat) : Range :=
  if pa < 0x0800000000000 then .hbm else if pa < 0x4000000000000 then .reserved
  else if pa < 0x8000000000000 then .host else if pa < 0x10000000000000 then .storage else .reserved

/-- The module that holds an HBM address. -/
def moduleOf (pa : Nat) : Nat := pa / 2 ^ 41 % 64

/-- The cluster whose slice homes an HBM address of this module. -/
def homeOf (pa : Nat) : Nat := pa / 2 ^ 36 % 32 * 4 + pa / 2 ^ 21 % 4

/-- Whether the address is HBM of this module. -/
def State.isLocal (s : State) (pa : Nat) : Bool := rangeOf pa == .hbm && moduleOf pa == s.regs.devnum

/-- Port `p` of the fabric (R357). -/
def State.port (s : State) (p : Nat) : Port :=
  (s.ports.find? (·.id = p)).getD { id := p, up := true, rx := 0, tx := 0, unacked := [], taken := [] }

/-- Whether some live route leads to a module (R358). -/
def State.reachable (s : State) (module' : Nat) : Bool := s.routes.any fun r => r.1 == module' && r.2.any fun p => (s.port p).up

/-- Whether the home of an address answers: its die is in service, its module reachable (R358, R361). -/
def State.homeUp (s : State) (pa : Nat) : Bool :=
  match rangeOf pa with
  | .hbm => if moduleOf pa = s.regs.devnum then (s.die (dieOfClus (homeOf pa))).serves else s.reachable (moduleOf pa)
  | _ => true

/-- The line that holds an address. -/
def lineOf (pa : Nat) : Nat := pa / 64 * 64

/-! ### Stamps (R191 to R197, R201) -/

/-- The key of a stamp in its list. -/
def Stamp.key (x : Stamp) : Nat := x.pa * 16 + (match x.die with | none => 0 | some d => d + 1)

/-- The die that homes a line. -/
def homeDie (line : Nat) : Nat := dieOfClus (homeOf line)

/-- Whether a stamp is one of a die: of a line homed there, or of a guest copy there. -/
def Stamp.on (x : Stamp) (die : Nat) : Bool := x.die.getD (homeDie x.pa) == die

/-- The stamps of a line at a home or as a guest copy; a stamp of an older epoch reads as 0 (R197). -/
def State.stamp (s : State) (pa : Nat) (die : Option Nat) : Stamp :=
  let e := (s.die (die.getD (homeDie pa))).epoch
  let zero : Stamp := { pa := pa, die := die, wts := 0, rts := 0, epoch := e, stale := none }
  match s.stamps.find? (fun x => x.pa = pa ∧ x.die = die) with
  | some x => if x.epoch = e then x else { zero with stale := x.stale }
  | none => zero

/-- Sets a stamp. -/
def State.setStamp (s : State) (x : Stamp) : State := { s with stamps := put Stamp.key x s.stamps }

/-- What a logical time or stamp of die `b` reads as on die `a`: 0 where its epoch tag is another (R197). -/
def State.across (s : State) (a b x : Nat) : Nat := if (s.die a).epoch = (s.die b).epoch then x else 0

/-- The value past which no logical time and no stamp goes (R197). -/
def epochLimit : Nat := 0xF0000000

/-- The lines of an L1 without their leases, which have expired. -/
def Core.expired (c : Core) : List L1Line := c.lines.map fun (x : L1Line) => { x with lease := none }

/-- The lines of an L1 that is cleared: a dirty byte that could not go home because its home is out of service stays (R361). -/
def Core.cleared (c : Core) : List L1Line := c.expired.filter fun x => !x.dirty.isEmpty

/-- A core of a die at an epoch change: awake, its logical time is 1 and its leases have expired; asleep since an earlier
epoch than the present one, its L1 is cleared. -/
def Core.newEpoch (epoch : Nat) (c : Core) : Core :=
  match c.asleep with
  | none => { c with ctime := 1, lines := c.expired }
  | some e => if e = epoch then { c with lines := c.expired } else { c with asleep := some 4, lines := c.cleared }

/-- The epoch change of a die (R197): every stamp of it reads as 0 of the new epoch, and its homes have retagged their
lines before the next change. -/
def State.changeEpoch (s : State) (die : Nat) : State :=
  let e := (s.die die).epoch
  let s := { s with
    cores := s.cores.map (fun (c : Core) => if dieOfCore c.id = die then c.newEpoch e else c)
    stamps := s.stamps.filter fun x => !x.on die }
  s.modDie die fun d => { d with epoch := (e + 1) % 4, idle := 1, floor := 0 }

/-- Makes room for a logical time or stamp of a die: one that would pass the limit starts an epoch change first (R197). -/
def State.roomFor (s : State) (die x : Nat) : State := if epochLimit < x then s.changeEpoch die else s

/-- Invalidates the guest copies that `sel` picks; each raises its die's floor past its latest lease (R201). -/
def State.dropCopies (s : State) (sel : Stamp → Bool) : State :=
  let gone := s.stamps.filter fun x => x.die.isSome && sel x
  let s := gone.foldl (fun s x =>
    match x.die with
    | some d => s.modDie d fun y => { y with floor := max y.floor (x.rts + 1) }
    | none => s) s
  { s with stamps := s.stamps.filter fun x => !(x.die.isSome && sel x) }

/-- Invalidates the guest copies of a line at once. -/
def State.dropGuests (s : State) (line : Nat) : State := s.dropCopies (·.pa == line)

/-- Every invalidation that is on its way arrives: the writes it belongs to are then performed at domain scope (R182). -/
def State.settle (s : State) : State := s.dropCopies (·.stale.isSome)

/-- The invalidations arrive of the writes that happen before what a team releases (R182, R188). -/
def State.settleFor (s : State) (team : Nat) : State := s.dropCopies fun x => x.stale.any (·.teams.contains team)

/-- The invalidations that are on their way to a die arrive there. -/
def State.settleDie (s : State) (die : Nat) : State := s.dropCopies fun x => x.stale.isSome && x.die == some die

/-- The writes whose invalidations are on their way happen before what a team that acquires does next (R188). -/
def State.sees (s : State) (team : Nat) : State :=
  { s with stamps := s.stamps.map fun x => { x with stale := x.stale.map fun y => { y with teams := (team :: y.teams).dedup } } }

/-- The invalidations of lines among `n` bytes that are on their way to a die arrive there. -/
def State.settleAt (s : State) (die pa n : Nat) : State :=
  s.dropCopies fun x => x.stale.isSome && x.die == some die && x.pa < pa + n && pa < x.pa + 64

/-- The region a line lies in (R201). -/
def regionOf (line : Nat) : Nat := line / 4096

/-- The lines of a die's conflicting regions that guest copies exist of: the line entries in use (R201). -/
def State.lineEntries (s : State) (die : Nat) : Nat :=
  ((s.stamps.filter fun x => x.die.isSome && homeDie x.pa == die && (s.die die).regions.contains (regionOf x.pa)).map (·.pa)).dedup.length

/-- The line entries of a die's directory (R201). -/
def lineLimit : Nat := 131072

/-- What the directory of the home's die does at a write of a line (R201): a core's write to a region of which another
die holds a guest copy makes its sharers conflict; the guest copies of the line are invalidated, or those of the whole
region once the line entries have run out. The writer's own die, and every die where the writer is no core, loses its
copy at once; the invalidation reaches another die's copy by cycle `due`, and releases of `teams` wait for it. What becomes of the
region entries when all 262,144 are in use is open; the model keeps as many as there are regions with sharers (log 117). -/
def State.directory (s : State) (line : Nat) (writer : Option Nat) (due : Nat) (teams : List Nat) : State :=
  let hd := homeDie line
  let shared := s.stamps.any fun x => x.die.isSome && regionOf x.pa == regionOf line && x.die != writer
  let s := if writer.isSome && shared then
      s.modDie hd fun d => { d with regions := (regionOf line :: d.regions).dedup }
    else s
  let full := (s.die hd).regions.contains (regionOf line) && decide (lineLimit < s.lineEntries hd)
  let hit := fun (x : Stamp) => x.die.isSome && (x.pa == line || (full && regionOf x.pa == regionOf line))
  let s := s.dropCopies fun x => hit x && (writer.isNone || x.die == writer)
  { s with stamps := s.stamps.map fun x =>
      if hit x then
        let y := x.stale.getD { due := due, old := cellsGet s.mem x.pa 64, teams := [] }
        { x with stale := some { y with teams := (teams ++ y.teams).dedup } }
      else x }

/-- The logical time of a writer as the home of a line sees it; an agent without one counts as 0. -/
def State.writerTime (s : State) (line : Nat) (core : Option Nat) : Nat :=
  match core with
  | some c => s.across (homeDie line) (dieOfCore c) (s.core c).ctime
  | none => 0

/-- The home's stamps at a write of a line by a core, or by an agent without logical time (R194), with the new wts. -/
def State.stampWrite (s : State) (line : Nat) (core : Option Nat) (due : Nat) (teams : List Nat) : Nat × State :=
  if s.isLocal line then
    let hd := homeDie line
    let s := s.roomFor hd (max (s.writerTime line core) ((s.stamp line none).rts + 1))
    let x := s.stamp line none
    let w := max (s.writerTime line core) (x.rts + 1)
    (w, (s.setStamp { x with wts := w }).directory line (core.map dieOfCore) due teams)
  else (0, s)

/-- Bytes written at a resume cell while SUSP is set: the first nonzero value is the verdict (R334). -/
def Team.seeVerdict (pa : Nat) (bytes : List Byte) (t : Team) : Team :=
  match t.cell with
  | some c =>
      if t.susp ∧ t.verdict = 0 ∧ pa ≤ c ∧ c < pa + bytes.length then
        { t with verdict := (bytes.getD (c - pa) 0).setWidth 2 }
      else t
  | none => t

/-- Bytes become the contents of memory at their home. -/
def State.homeWrite (s : State) (pa : Nat) (bytes : List Byte) : State :=
  { s with mem := cellsSet s.mem pa bytes, teams := s.teams.map (Team.seeVerdict pa bytes) }

/-- Bytes at their home. -/
def State.homeRead (s : State) (pa n : Nat) : List Byte := cellsGet s.mem pa n

/-- A write of some teams at the home by core `c`, with the stamps of R194; no line is crossed. -/
def State.coreHomeWrite (s : State) (c pa due : Nat) (teams : List Nat) (bytes : List Byte) : State :=
  let (w, s) := s.stampWrite (lineOf pa) (some c) due teams
  let w := s.across (dieOfCore c) (homeDie (lineOf pa)) w
  (s.homeWrite pa bytes).modCore c fun x => { x with ctime := max x.ctime w }

/-- A write at the home by an agent that has no logical time: an engine, a slice, a control stream, the host. -/
def State.agentWrite (s : State) (pa : Nat) : List Byte → State
  | [] => s
  | b :: l => ((((s.stampWrite (lineOf pa) none 0 []).2).homeWrite pa [b]).agentWrite (pa + 1) l)

/-! ### L1 (R192 to R198) -/

/-- Whether a line may be read under its lease (R192, R197). -/
def L1Line.valid (x : L1Line) (ctime epoch : Nat) : Bool :=
  match x.lease with
  | some (last, e) => e == epoch && ctime ≤ last
  | none => false

/-- One byte of a line: dirty, or as fetched. -/
def L1Line.byte (x : L1Line) (off : Nat) : Byte :=
  match x.dirty.find? (·.off = off) with
  | some d => d.val
  | none => x.data.getD off 0

/-- The line of core `c` that holds an address. -/
def State.line (s : State) (c pa : Nat) : L1Line :=
  ((s.core c).lines.find? (·.pa = lineOf pa)).getD
    { pa := lineOf pa, data := List.replicate 64 0, lease := none, vas := [], dirty := [] }

/-- Sets a line of core `c`. -/
def State.setLine (s : State) (c : Nat) (x : L1Line) : State :=
  s.modCore c fun y => { y with lines := put (·.pa) x y.lines }

/-- The bytes that a guest copy keeps of a line whose invalidation is on its way to the die of core `c`, where the core
still meets that copy: which of the two comes first is a free choice (R189). -/
def State.guestOld (s : State) (c line : Nat) : Option (List Byte) :=
  if homeDie line = dieOfCore c then none
  else match (s.stamp line (some (dieOfCore c))).stale with
    | some x => if Config.choice (choiceAt s.fresh (line % 2 ^ 32) 62) % 2 = 1 then some x.old else none
    | none => none

/-- The bytes that core `c` gets when it fetches a line: of the home, or of its die's guest copy. -/
def State.fetched (s : State) (c line : Nat) : List Byte := (s.guestOld c line).getD (s.homeRead line 64)

/-- Before a lease is granted to core `c`, the invalidation of a copy that its die is to fetch anew has arrived and raised the floor,
and the die's epoch has room for the lease's stamps (R197, R201). -/
def State.leaseRoom (s : State) (c line : Nat) : State :=
  let d := dieOfCore c
  let s := if homeDie line = d ∨ (s.guestOld c line).isSome then s else s.settleAt d line 64
  s.roomFor d (max ((s.core c).ctime + 32) (s.die d).floor)

/-- A lease granted to core `c`, for which there is room: at the home, or through its die's guest copy, whose wts lies at or above the
die's floor (R192, R201). -/
def State.grant (s : State) (c line : Nat) : Nat × State :=
  let d := dieOfCore c
  let keep := (s.guestOld c line).isSome
  let last := (s.core c).ctime + 32
  if homeDie line = d then
    let x := s.stamp line none
    (last, s.setStamp { x with rts := max x.rts last })
  else
    let x := s.stamp line (some d)
    let w := max (max x.wts (s.across d (homeDie line) (s.stamp line none).wts)) (s.die d).floor
    (last, s.setStamp { x with wts := if keep then x.wts else w, rts := max x.rts last })

/-- Fetches a line with a lease (R192). -/
def State.fetchLine (s : State) (c pa va : Nat) : State :=
  let data := s.fetched c (lineOf pa)
  let (last, s) := (s.leaseRoom c (lineOf pa)).grant c (lineOf pa)
  let x := s.line c pa
  s.setLine c { x with data := data, lease := some (last, (s.die (dieOfCore c)).epoch), vas := (va :: x.vas).dedup }

/-- Whether a line was fetched under the addresses that the line of a tagged virtual address has. -/
def L1Line.knows (x : L1Line) (va : Nat) : Bool := x.vas.any fun v => v / 64 == va / 64

/-- A read through the L1 of core `c`, within one line: of its dirty bytes, or under a lease. A line that was fetched under
other virtual addresses only is fetched again, since a guarded acquire judges lines by their addresses (R135, R204). -/
def State.l1Load (s : State) (c pa va n : Nat) : State × List Byte :=
  let x := s.line c pa
  let off := pa % 64
  let own := (List.range n).all fun i => x.dirty.any (·.off = off + i)
  let s := if own || (x.valid (s.core c).ctime (s.die (dieOfCore c)).epoch && x.knows va) then s else s.fetchLine c pa va
  (s, (List.range n).map fun i => (s.line c pa).byte (off + i))

/-- Makes one byte of a line dirty in a cycle; a byte that was dirty keeps the cycle since which it is. -/
def L1Line.store (x : L1Line) (off : Nat) (v : Byte) (writer : Nat × Nat) (now : Nat) : L1Line :=
  let old := x.dirty.find? (·.off = off)
  { x with dirty :=
      { off := off, val := v, writers := (writer :: (old.map (·.writers)).getD []).dedup
        carried := (old.map (·.carried)).getD [], since := (old.map (·.since)).getD now } :: x.dirty.filter (·.off ≠ off) }

/-- A write into the L1 of core `c`, within one line, by a team (R195). -/
def State.l1Store (s : State) (c team pa va : Nat) (bytes : List Byte) : State :=
  let x := (List.range bytes.length).foldl
    (fun (x : L1Line) i => x.store ((pa + i) % 64) (bytes.getD i 0) (team, va + i) s.clock) (s.line c pa)
  s.setLine c x

/-- The cycles within which a dirty byte is written back (R195). -/
def writeBackCycles : Nat := 2048

/-- The offsets of the dirty bytes that leave a line when those at `offs` do: with a byte go those of its aligned 8-byte part
that one team has written with it, so that no access of 64 bits is torn (R184); `n` times over. -/
def L1Line.wholes (x : L1Line) : Nat → List Nat → List Nat
  | 0, offs => offs
  | n + 1, offs => x.wholes n ((x.dirty.filter fun d => offs.contains d.off || x.dirty.any fun e =>
      offs.contains e.off && e.off / 8 == d.off / 8 && e.writers.any fun w => d.writers.any (·.1 = w.1)).map (·.off))

/-- Writes back the dirty bytes of one line that `sel` picks, with those that R184 keeps with them, byte by byte, unless
the home is out of service (R195, R361). -/
def State.writeBackLine (s : State) (c pa : Nat) (sel : DirtyByte → Bool) : State :=
  let x := s.line c pa
  let offs := x.wholes 8 ((x.dirty.filter sel).map (·.off))
  let (out, kept) := x.dirty.partition fun d => offs.contains d.off
  if out.isEmpty || !s.homeUp pa then s
  else
    let s := out.foldl (fun s d => s.coreHomeWrite c (lineOf pa + d.off) (d.since + writeBackCycles) (d.writers.map (·.1) ++ d.carried) [d.val]) s
    let lease := (s.line c pa).lease
    s.setLine c { x with lease := lease, dirty := kept, data := out.foldl (fun l d => l.set d.off d.val) x.data }

/-- Writes back the dirty bytes of core `c` that `sel` picks. -/
def State.writeBack (s : State) (c : Nat) (sel : DirtyByte → Bool) : State :=
  ((s.core c).lines.map (·.pa)).foldl (fun s pa => s.writeBackLine c pa sel) s

/-- Whether a dirty byte happens before what a team releases: the team wrote it, or has acquired since (R188). -/
def DirtyByte.before (d : DirtyByte) (team : Nat) : Bool := d.writers.any (·.1 = team) || d.carried.contains team

/-- Writes back the dirty bytes that happen before what a team releases. -/
def State.flushTeam (s : State) (c team : Nat) : State := s.writeBack c (·.before team)

/-- What happens before what a team releases is performed at domain scope (R182, R188, R195). -/
def State.releaseTeam (s : State) (c team : Nat) : State := (s.flushTeam c team).settleFor team

/-- Writes back every dirty byte of a core. -/
def State.flushCore (s : State) (c : Nat) : State := s.writeBack c fun _ => true

/-- Writes back the core's dirty bytes among `n` bytes and those that share an aligned 8-byte part with one of them, before
an access of that core is performed at the home (R183, R184). -/
def State.flushBytes (s : State) (c pa n : Nat) : State :=
  (List.range (n / 64 + 2)).foldl (fun s i =>
    let l := lineOf pa + 64 * i
    s.writeBackLine c l fun d => pa / 8 * 8 ≤ l + d.off && l + d.off < (pa + n + 7) / 8 * 8) s

/-- The leases of lines that an access at the home has met are dropped in core `c`, so that its threads do not read older
bytes after it (R183). -/
def State.dropLeases (s : State) (c pa n : Nat) : State :=
  s.modCore c fun y => { y with lines := y.lines.map fun x =>
    if x.pa < pa + n ∧ pa < x.pa + 64 then { x with lease := none } else x }

/-- The logical time of a core once it has passed the leases it holds on lines that `sel` picks (R196, R204). -/
def Core.passed (x : Core) (epoch : Nat) (sel : L1Line → Bool) : Nat :=
  x.lines.foldl (fun m l => match l.lease with
    | some (last, e) => if e = epoch && sel l then max m (last + 1) else m
    | none => m) x.ctime

/-- The acquire of a core: its logical time passes every lease it holds, by an epoch change where it would pass the limit
(R196, R197). -/
def State.acquireCore (s : State) (c : Nat) : State :=
  let d := dieOfCore c
  let now := (s.core c).passed (s.die d).epoch fun _ => true
  if epochLimit < now then s.changeEpoch d else s.modCore c fun x => { x with ctime := now }

/-- What a line's lease is once the core's logical time has moved for leases on other lines: it stays in force for the
ticks it had left: R204 does not say how, and the model chooses so (log 106). -/
def L1Line.keepLease (x : L1Line) (old now epoch : Nat) : L1Line :=
  match x.lease with
  | some (last, e) => if e = epoch && old ≤ last then { x with lease := some (last + (now - old), e) } else x
  | none => x

/-- A lease on a die ends at `last`: the read stamp of the home or of the die's guest copy lies at or above it, or the die's
floor above it where the copy is gone (R192, R194, R201). -/
def State.coverLease (s : State) (die line last : Nat) : State :=
  let at' := if homeDie line = die then none else some die
  if at' = none ∨ s.stamps.any fun x => x.pa == line && x.die == at' then
    let x := s.stamp line at'
    s.setStamp { x with rts := max x.rts last }
  else s.modDie die fun d => { d with floor := max d.floor (last + 1) }

/-- The leases that core `c` holds are covered by the stamps they came from. -/
def State.coverLeases (s : State) (c : Nat) : State :=
  let d := dieOfCore c
  (s.core c).lines.foldl (fun s l => match l.lease with
    | some (last, e) => if e = (s.die d).epoch then s.coverLease d l.pa last else s
    | none => s) s

/-- The acquire of a core for the lines that `sel` picks only: its logical time passes their leases, and the other leases
stay in force (R204): how is the model's choice (log 106). -/
def State.acquireLines (s : State) (c : Nat) (sel : L1Line → Bool) : State :=
  let d := dieOfCore c
  let e := (s.die d).epoch
  let x := s.core c
  let now := x.passed e sel
  let top := x.lines.foldl (fun m l => match (l.keepLease x.ctime now e).lease with | some (last, _) => max m last | none => m) now
  if epochLimit < top then s.changeEpoch d
  else
    (s.modCore c fun x =>
      { x with ctime := now, lines := x.lines.map fun l => if sel l then l else l.keepLease x.ctime now e }).coverLeases c

/-- The dirty bytes of a core happen before what a team that acquires there does next (R188). -/
def State.carry (s : State) (c team : Nat) : State :=
  s.modCore c fun y => { y with lines := y.lines.map fun x =>
    { x with dirty := x.dirty.map fun d => { d with carried := (team :: d.carried).dedup } } }

/-! ### Translation (R341 to R348) -/

/-- A leaf or an error: DETAIL of XLATE without FETCH and SUPRET (R328). -/
abbrev Walk := Except Nat TlbEntry

/-- DETAIL of XLATE. -/
def xlateDetail (asid bad nomap : Bool) (level : Nat) : Nat := asid.toNat * 64 + bad.toNat * 32 + nomap.toNat * 4 + level

/-- A page-table entry of the memory. -/
def State.pte (s : State) (pa : Nat) : Nat := leNat (s.homeRead pa 8)

/-- Whether a valid non-leaf entry is well formed (R342). -/
def tableOk (e : Nat) : Bool := e / 2 ^ 52 == 0 && e / 2 ^ 9 % 8 == 0 && e / 4 % 32 == 0 && e / 2 ^ 8 % 2 == 0

/-- Whether a level-0 leaf is part of a 64 KiB page (R342). -/
def sz64 (e level : Nat) : Bool := level == 0 && e / 2 ^ 11 % 2 == 1

/-- The size of the page that a leaf at a level maps, as a power of two (R341, R343). -/
def leafLog (e level : Nat) : Nat := if sz64 e level then 16 else 12 + 9 * level

/-- FRAME of an entry. -/
def frameOf (e : Nat) : Nat := e / 2 ^ 12 % 2 ^ 40 * 2 ^ 12

/-- Whether a valid leaf at a level is well formed (R342, R349). -/
def leafOk (e level : Nat) : Bool :=
  level != 3 && e / 2 ^ 52 % 128 == 0 && e / 2 ^ 8 % 2 == 0 && e / 4 % 8 == 0
    && frameOf e % 2 ^ leafLog e level == 0 && rangeOf (frameOf e) != .reserved

/-- The leaf that an entry describes. -/
def leafOf (tenant asid va level pte e : Nat) : TlbEntry :=
  let log := leafLog e level
  { tenant := tenant, asid := asid, base := va / 2 ^ log * 2 ^ log, log := log, frame := frameOf e
    pte := pte, xn := e / 2 ^ 63 % 2 == 1, psn := e / 2 ^ 62 % 2 == 1, sup := e / 2 ^ 6 % 2 == 1, write := e / 2 ^ 5 % 2 == 1
    dirty := e / 2 ^ 10 % 2 == 1 }

/-- An entry without A, D and FRAME bits 15:12, in which the entries of a 64 KiB page agree (R343). -/
def sameIn64 (e : Nat) : Nat := e - e / 2 ^ 9 % 4 * 2 ^ 9 - e / 2 ^ 12 % 16 * 2 ^ 12

/-- The entry that the walk of an address uses at a level-0 leaf: its own, unless it is one of 16 entries of a 64 KiB page
that disagree, where it is a free choice among those that are well formed (R343). -/
def State.leafEntry (s : State) (pa e : Nat) : Nat × Nat :=
  if !sz64 e 0 then (pa, e)
  else
    let all := (List.range 16).map fun i => (pa / 128 * 128 + 8 * i, s.pte (pa / 128 * 128 + 8 * i))
    if all.all fun x => sameIn64 x.2 == sameIn64 e then (pa, e)
    else
      let ok := all.filter fun x => x.2 % 2 == 1 && x.2 / 2 ^ 7 % 2 == 1 && sz64 x.2 0 && leafOk x.2 0
      choose (choiceAt s.fresh (pa / 128 % 2 ^ 32) 61) (pa, e) ok

/-- The walk from a table at a level downwards (R341). -/
def State.walkFrom (s : State) (tenant asid va : Nat) : Nat → Nat → Walk
  | level, table =>
      let pa := table + va / 2 ^ (12 + 9 * level) % 512 * 8
      let e := s.pte pa
      if e % 2 = 0 then .error (xlateDetail false false (e / 2 % 2 == 1) level)
      else if e / 2 ^ 7 % 2 = 1 then
        if leafOk e level then
          let x := if level = 0 then s.leafEntry pa e else (pa, e)
          .ok (leafOf tenant asid va level x.1 x.2)
        else .error (xlateDetail false true false level)
      else
        match level with
        | 0 => .error (xlateDetail false true false 0)
        | l + 1 =>
            if tableOk e then s.walkFrom tenant asid va l (frameOf e)
            else .error (xlateDetail false true false (l + 1))

/-- The root of an address space for a tenant, or why it has none (R345); an address above 48 bits is malformed (R341). -/
def State.rootOf (s : State) (tenant asid va : Nat) : Except Nat Nat :=
  let pa := s.regs.asidtab.toNat + 16 * asid
  let root := leNat (s.homeRead pa 8)
  let own := (s.homeRead (pa + 8) 1).headD 0
  let fl := (s.homeRead (pa + 9) 1).headD 0
  let sup := tenant == rtWindow
  if !fl.getLsbD 0 || fl.getLsbD 1 != sup || (!sup && own.toNat != tenant) || fl.toNat ≥ 4 || root % 4096 ≠ 0 || root ≥ 2 ^ 52 then
    .error (xlateDetail true false false 3)
  else if va ≥ 2 ^ 48 then .error (xlateDetail false true false 3)
  else .ok root

/-- The walk of a virtual address in an address space (R341, R345). -/
def State.walk (s : State) (tenant asid va : Nat) : Walk :=
  match s.rootOf tenant asid va with
  | .error d => .error d
  | .ok root => s.walkFrom tenant asid va 3 root

/-! ### TLBs and walk caches (R346) -/

/-- Whether a walk cache's entry stands on the walk of an address. -/
def WalkEntry.hits (w : WalkEntry) (tenant asid va level : Nat) : Bool :=
  w.tenant == tenant && w.asid == asid && w.level == level && w.part == va / 2 ^ (12 + 9 * level)

/-- Where a die's walk of an address starts: below the lowest non-leaf entry that its walk cache holds, or at the root. -/
def State.walkStart (s : State) (die tenant asid va root : Nat) : Nat × Nat :=
  let at' := fun (level : Nat) => ((s.die die).walks.find? (·.hits tenant asid va level)).map fun w => (level - 1, w.table)
  ((at' 1).or ((at' 2).or (at' 3))).getD (3, root)

/-- The non-leaf entries of a walk from a table at a level, the lowest first. -/
def State.walkPath (s : State) (tenant asid va : Nat) : Nat → Nat → List WalkEntry
  | 0, _ => []
  | level + 1, table =>
      let e := s.pte (table + va / 2 ^ (12 + 9 * (level + 1)) % 512 * 8)
      if e % 2 = 1 ∧ e / 2 ^ 7 % 2 = 0 then
        s.walkPath tenant asid va level (frameOf e) ++
          [{ tenant := tenant, asid := asid, level := level + 1, part := va / 2 ^ (12 + 9 * (level + 1)), table := frameOf e }]
      else []

/-- The walk that a die's walkers make: it may start below a non-leaf entry of the walk cache (R346, R347). -/
def State.walkBy (s : State) (die tenant asid va : Nat) : Walk :=
  match s.rootOf tenant asid va with
  | .error d => .error d
  | .ok root => let x := s.walkStart die tenant asid va root; s.walkFrom tenant asid va x.1 x.2

/-- The 256 entries of a walk cache after a walk that succeeded: no failed walk is cached (R347). -/
def State.walked (s : State) (die tenant asid va : Nat) : State :=
  match s.rootOf tenant asid va with
  | .error _ => s
  | .ok root =>
      let x := s.walkStart die tenant asid va root
      let l := s.walkPath tenant asid va x.1 x.2
      if l.isEmpty then s else s.modDie die fun d => { d with walks := (l ++ d.walks).take 256 }

/-- Whether a TLB entry translates an address. -/
def TlbEntry.hits (e : TlbEntry) (tenant asid va : Nat) : Bool :=
  e.tenant == tenant && e.asid == asid && va / 2 ^ e.log * 2 ^ e.log == e.base

/-- Whether two TLB entries are of one page. -/
def TlbEntry.same (x y : TlbEntry) : Bool := x.tenant == y.tenant && x.asid == y.asid && x.base == y.base && x.log == y.log

/-- Puts an entry in front of an L1 TLB of 64 entries, the least recently used one leaving it. -/
def tlbPut (e : TlbEntry) (l : List TlbEntry) : List TlbEntry := (e :: l.filter fun x => !x.same e).take 64

/-- The set of a cluster TLB that a page belongs to (log 12). -/
def TlbEntry.set (e : TlbEntry) : Nat := e.base / 2 ^ e.log % 256

/-- Puts an entry in its set of a cluster TLB of 256 sets of 8 ways, the oldest of a full set leaving it. -/
def tlbPutSet (e : TlbEntry) (l : List TlbEntry) : List TlbEntry :=
  let (own, rest) := (l.filter fun x => !x.same e).partition (·.set == e.set)
  e :: own.take 7 ++ rest

/-- Sets flags of a leaf at its home (R344). -/
def State.setPte (s : State) (pte mask : Nat) : State :=
  s.agentWrite pte (bytesLE 8 (s.pte pte ||| mask))

/-- Installs a walked leaf: A is set, and D for a write (R344, R346). A control stream and an engine use the cluster's TLB
only. -/
def State.install (s : State) (core : Nat) (direct write : Bool) (e : TlbEntry) : State × TlbEntry :=
  let s := s.setPte e.pte (2 ^ 9 + write.toNat * 2 ^ 10)
  let e := { e with dirty := e.dirty || write }
  let s := s.modCluster (clusOf core) fun x => { x with tlb := tlbPutSet e x.tlb }
  (if direct then s else s.modCore core fun x => { x with tlb := tlbPut e x.tlb }, e)

/-- The cached leaf of an address: the core's TLB, then the cluster's. -/
def State.cached (s : State) (core : Nat) (direct : Bool) (tenant asid va : Nat) : Option TlbEntry :=
  let own := if direct then none else (s.core core).tlb.find? (·.hits tenant asid va)
  own.or ((s.cluster (clusOf core)).tlb.find? (·.hits tenant asid va))

/-- Who makes an access: its team and thread, where it sits, whether it is a control stream, whether it translates without
the core's L1 TLB (R346: streams and engines), and the address space. -/
structure Agent where
  team : Nat
  tid : Nat
  core : Nat
  stream : Bool
  direct : Bool
  tenant : Nat
  asid : Nat
  sup : Bool
  wide : Bool
  deriving DecidableEq, Repr

/-- The agent that a thread of a team is; in a task with a control stream team scope is cluster scope (R182). -/
def Team.agent (t : Team) (tid : Nat) : Agent :=
  { team := t.id, tid := tid, core := t.core, stream := tid = tidCtl, direct := tid = tidCtl, tenant := ownerId t.task.owner
    asid := t.asid, sup := t.sup, wide := t.hasStream }

/-- The agent for the addresses that an engine word of a thread names: the engine has no L1 TLB (R346). -/
def Team.engine (t : Team) (tid : Nat) : Agent := { t.agent tid with direct := true }

/-- The shadow binding of a tenant one of whose two ranges holds an address; true is B. -/
def State.bindingAt (s : State) (tenant asid va : Nat) : Option (Binding × Bool) :=
  (s.bindings.find? fun x => x.tenant = tenant && x.asid = asid
      && ((x.b ≤ va && va < x.b + x.len) || (x.s ≤ va && va < x.s + x.len))).map
    fun x => (x, x.b ≤ va && va < x.b + x.len)

/-- Where an unbinding left a page's storage exchanged (R321). -/
def State.remapped (s : State) (tenant asid va pa : Nat) : Nat :=
  match s.remaps.find? fun r => r.tenant = tenant ∧ r.asid = asid ∧ r.page = va / 4096 * 4096 ∧ r.frame = pa / 4096 * 4096 with
  | some r => r.now + pa % 4096
  | none => pa

/-- Kinds of access; a claim is checked as a write that may still not happen, so that D stays as it is (R344). -/
inductive Kind where
  | read | write | claim | fetch
  deriving DecidableEq, Repr

/-- Whether a kind is checked as a write. -/
def Kind.writes : Kind → Bool
  | .write | .claim => true
  | _ => false

/-- The checks PERM, POISON and HOMEDOWN of R128 once a leaf is found, in that order, and where the byte then stands. -/
def State.checkLeaf (s : State) (tenant asid va : Nat) (sup : Bool) (kind : Kind) (e : TlbEntry) : Except (Cause × Nat) Loc :=
  let f := (kind == .fetch).toNat * 16
  if kind.writes ∧ !e.write then .error (.perm, 1 + f)
  else if e.sup ∧ !sup then .error (.perm, 2 + f)
  else if kind = .fetch ∧ e.xn then .error (.perm, 3 + f)
  else
    let pa := s.remapped tenant asid va (e.frame + va % 2 ^ e.log)
    match s.bindingAt tenant asid va with
    | some (_, false) => .error (.perm, 4 + f)
    | some (x, true) =>
        if e.psn then .error (.poison, 0)
        else if !s.homeUp (x.visible.getD ((va - x.b) / 4096) 0) then .error (.homedown, 0)
        else .ok (.vis x.id (va - x.b))
    | none =>
        if e.psn then .error (.poison, 0)
        else if !s.homeUp pa then .error (.homedown, 0)
        else .ok (.mem pa)

/-- Whether a leaf lets a write through: D is set only then (R344). -/
def State.writable (s : State) (tenant asid va : Nat) (e : TlbEntry) : Bool :=
  match s.checkLeaf tenant asid va (tenant == rtWindow) .write e with
  | .ok _ => true
  | .error _ => false

/-- A page walk for one address (R346): the leaf is installed where the walk succeeds; no failed walk is cached
(R347). -/
def State.pageWalk (s : State) (core : Nat) (direct : Bool) (tenant asid va : Nat) (write : Bool) :
    State × Except Nat TlbEntry :=
  match s.walkBy (dieOfCore core) tenant asid va with
  | .ok e =>
      let s := s.walked (dieOfCore core) tenant asid va
      let (s, e) := s.install core direct (write && s.writable tenant asid va e) e
      (s, .ok e)
  | .error d => (s, .error d)

/-- The leaf for an access: a cached one, or a walk; a write that finds D clear walks again (R344, R347). -/
def State.leafFor (s : State) (core : Nat) (direct : Bool) (tenant asid va : Nat) (kind : Kind) :
    State × Except Nat TlbEntry :=
  match s.cached core direct tenant asid va with
  | some e =>
      if va < 2 ^ 48 ∧ (!kind.writes || e.dirty || !s.writable tenant asid va e) then
        (if direct then s else s.modCore core fun x => { x with tlb := tlbPut e x.tlb }, .ok e)
      else s.pageWalk core direct tenant asid va (kind == .write)
  | none => s.pageWalk core direct tenant asid va (kind == .write)

/-- Translates one address and applies the checks XLATE, PERM, POISON and HOMEDOWN of R128, in that order. -/
def State.translate (s : State) (ag : Agent) (va : Nat) (kind : Kind) : State × Except Bad (Loc × Pin) :=
  let mk := fun c d => ({ cause := c, detail := d, write := kind.writes, addr := BitVec.ofNat 64 va } : Bad)
  match s.leafFor ag.core ag.direct ag.tenant ag.asid va kind with
  | (s, .error d) => (s, .error (mk .xlate (d + (kind == .fetch).toNat * 16)))
  | (s, .ok e) =>
      match s.checkLeaf ag.tenant ag.asid va ag.sup kind e with
      | .error x => (s, .error (mk x.1 x.2))
      | .ok l => (s, .ok (l, { tenant := ag.tenant, asid := ag.asid, base := e.base, log := e.log, pte := e.pte }))

/-! ### Scratchpads (R44) -/

/-- The generic window. -/
def scrBase : Nat := 0xFF0000000000
/-- The cluster range. -/
def scrClus : Nat := 0xFF8000000000

/-- Whether an address lies in the scratchpad window. -/
def inWindow (va : Nat) : Bool := scrBase ≤ va && va < 2 ^ 48

/-- The scratchpad and offset that a window address names for an agent, with every byte of the access inside it. -/
def State.scratchAt (s : State) (ag : Agent) (va n : Nat) : Option (Nat × Nat) :=
  match s.team? ag.team with
  | none => none
  | some tm =>
      if va < scrClus then
        let o := va - scrBase
        if o + n ≤ tm.scratch then some (tm.id, o) else none
      else if !tm.cbound then none
      else
        let k := (va - scrClus) / 0x200000
        let o := (va - scrClus) % 0x200000
        match s.teams.find? (fun t => t.task.set.isSome ∧ t.task.set.map (·.1) = tm.task.set.map (·.1)
            ∧ t.task.set.map (·.2) = some k) with
        | some t => if k < 4 ∧ o + n ≤ t.scratch then some (t.id, o) else none
        | none => none

/-- Where the bytes of one access stand, after the checks of R128 but alignment. -/
def State.place (s : State) (ag : Agent) (va n : Nat) (kind : Kind) : State × Except Bad (Loc × Option Pin) :=
  if inWindow va then
    match s.scratchAt ag va n with
    | some (t, o) => (s, .ok (.scr t o, none))
    | none => (s, .error { cause := .scope, detail := 1, write := kind.writes, addr := BitVec.ofNat 64 va })
  else
    match s.translate ag va kind with
    | (s, .ok (l, p)) => (s, .ok (l, some p))
    | (s, .error b) => (s, .error b)

/-! ### Reading and writing at a location -/

/-- The physical address of a byte of one side of a binding. -/
def State.bound (s : State) (id off : Nat) (shadow : Bool) : Nat :=
  match s.bindings.find? (·.id = id) with
  | some x => (if shadow then x.shadow else x.visible).getD (off / 4096) 0 + off % 4096
  | none => 0

/-- The physical address behind a location that is not a scratchpad. -/
def State.paOf (s : State) : Loc → Nat
  | .mem pa => pa
  | .vis b o => s.bound b o false
  | .shd b o => s.bound b o true
  | .scr _ _ => 0

/-- A location some bytes further on. -/
def Loc.add (l : Loc) (n : Nat) : Loc :=
  match l with
  | .mem pa => .mem (pa + n)
  | .scr t o => .scr t (o + n)
  | .vis b o => .vis b (o + n)
  | .shd b o => .shd b (o + n)

/-- Bytes of a scratchpad. -/
def State.scrRead (s : State) (t o n : Nat) : List Byte :=
  match s.team? t with
  | some tm => cellsGet tm.mem o n
  | none => List.replicate n 0

/-- Writes bytes of a scratchpad. -/
def State.scrWrite (s : State) (t o : Nat) (bytes : List Byte) : State :=
  s.modTeam t fun tm => { tm with mem := cellsSet tm.mem o bytes }

/-- Bytes at their home or in their array. -/
def State.locRead (s : State) (l : Loc) (n : Nat) : List Byte :=
  match l with
  | .scr t o => s.scrRead t o n
  | l => s.homeRead (s.paOf l) n

/-- Bytes written at their home or in their array by an agent without an L1. -/
def State.locWrite (s : State) (l : Loc) (bytes : List Byte) : State :=
  match l with
  | .scr t o => s.scrWrite t o bytes
  | l => s.agentWrite (s.paOf l) bytes

/-- Bytes of a run of segments. -/
def State.segRead (s : State) (l : List Seg) : List Byte := l.flatMap fun x => s.locRead x.loc x.len

/-- Writes the bytes of a run of segments. -/
def State.segWrite (s : State) : List Seg → List Byte → State
  | [], _ => s
  | x :: l, bytes => (s.locWrite x.loc (bytes.take x.len)).segWrite l (bytes.drop x.len)

/-- The part of a run of segments from an offset. -/
def segDrop : List Seg → Nat → List Seg
  | [], _ => []
  | x :: l, n => if n < x.len then { x with loc := x.loc.add n, len := x.len - n } :: l else segDrop l (n - x.len)

/-- The first bytes of a run of segments. -/
def segTake : List Seg → Nat → List Seg
  | [], _ => []
  | x :: l, n => if n = 0 then [] else if n ≤ x.len then [{ x with len := n }] else x :: segTake l (n - x.len)

/-- A part of a run of segments. -/
def segSlice (l : List Seg) (off n : Nat) : List Seg := segTake (segDrop l off) n

/-- How many bytes from a window address on lie in the scratchpad it names; 0 elsewhere. -/
def State.windowPart (s : State) (ag : Agent) (va : Nat) : Nat :=
  if inWindow va then
    match s.scratchAt ag va 1 with
    | some (t, o) => ((s.team? t).map (·.scratch)).getD 0 - o
    | none => 0
  else 0

/-- The segments of a range that a word checks whole (R128, R311): page by page, the first failure being the first
failing address; the range's pages are pinned by the caller. -/
def State.rangeFrom (s : State) (ag : Agent) (kind : Kind) : Nat → Nat → Nat → State × Except Bad (List Seg × List Pin)
  | 0, _, _ => (s, .ok ([], []))
  | fuel + 1, va, n =>
      if n = 0 then (s, .ok ([], []))
      else
        let k := if inWindow va then n else min n (4096 - va % 4096)
        match s.place ag va k kind with
        | (s, .error b) => (s, .error { b with addr := BitVec.ofNat 64 (va + s.windowPart ag va) })
        | (s, .ok (l, p)) =>
            match s.rangeFrom ag kind fuel (va + k) (n - k) with
            | (s, .error b) => (s, .error b)
            | (s, .ok (segs, pins)) => (s, .ok ({ loc := l, len := k, pin := p } :: segs, p.toList ++ pins))

/-- The pages of some pins are written: D is set in their leaves, where an entry is still valid (R344). -/
def State.dirtied (s : State) (pins : List Pin) : State :=
  pins.foldl (fun s p => if s.pte p.pte % 2 = 0 ∨ s.pte p.pte / 2 ^ 10 % 2 = 1 then s else s.setPte p.pte (2 ^ 10)) s

/-- The pages of some segments are written. -/
def State.dirtySegs (s : State) (l : List Seg) : State := s.dirtied (l.filterMap (·.pin))

/-- The segments of a range; D is set in the leaves of one to be written only where every page of it passes (R344). -/
def State.range (s : State) (ag : Agent) (va n : Nat) (kind : Kind) : State × Except Bad (List Seg × List Pin) :=
  match s.rangeFrom ag (if kind = .write then .claim else kind) (n / 4096 + 2) va n with
  | (s, .error b) => (s, .error b)
  | (s, .ok x) => (if kind = .write then s.dirtied x.2 else s, .ok x)

/-! ### Orders and scopes (R133, R135, R181, R187) -/

/-- The scope at which an agent's access is performed (R182). -/
def Agent.scope (ag : Agent) (sc : Scope) : Scope := if sc = .team ∧ ag.wide then .clus else sc

/-- The guard entry of the issuing team for a synchronisation word at an address (R134, R135). -/
def State.guardOf (s : State) (ag : Agent) (va : Nat) : Option GuardWord :=
  (s.team? ag.team).bind fun t => t.guards.find? (·.addr = va)

/-- A virtual address with its address space, as dirty bytes and lines carry it. -/
def tagVa (asid va : Nat) : Nat := asid * 2 ^ 48 + va % 2 ^ 48

/-- Whether a tagged address lies in a range of a guard word. -/
def GuardWord.covers (g : GuardWord) (asid va : Nat) : Bool :=
  g.entries.any fun e => e.1 < e.2 && tagVa asid e.1 ≤ va && va < tagVa asid e.1 + (e.2 - e.1)

/-- Whether a guarded release of a team orders a dirty byte: the team wrote it, and it, or a byte of its aligned 8-byte
part, lies in the word's ranges or in the word itself (R135, R184, R204); or another team wrote it and the team has acquired since,
so that it happens before the release by the order of the team's accesses (R188). -/
def GuardWord.orders (g : GuardWord) (team asid : Nat) (d : DirtyByte) : Bool :=
  d.carried.contains team || d.writers.any fun x => x.1 = team && (List.range 8).any fun i =>
    let va := x.2 / 8 * 8 + i
    g.covers asid va || (tagVa asid g.addr ≤ va && va < tagVa asid g.addr + 8)

/-- A release by an agent: what happens before it, or only its team's writes that a guard word orders, becomes performed
at the scope (R133, R135, R188, R195). -/
def State.release (s : State) (ag : Agent) (sc : Scope) (g : Option GuardWord) : State :=
  if !(ag.scope sc).homeWide then s
  else
    let s := if ag.stream then s
      else match g with
        | none => s.flushTeam ag.core ag.team
        | some w => s.writeBack ag.core (w.orders ag.team ag.asid)
    s.settleFor ag.team

/-- Whether a guard word's ranges overlap a line that a core holds (R204). -/
def GuardWord.overlaps (g : GuardWord) (asid : Nat) (x : L1Line) : Bool :=
  x.vas.any fun v => (List.range 64).any fun i => g.covers asid (v / 64 * 64 + i)

/-- An acquire by an agent (R133, R135, R196, R204): the core's leases end, and what its L1 holds, or is not yet performed
at domain scope, happens before what the team does next; under a guard word only the leases of lines that its ranges overlap
end. A control stream, which reads the homes, has the dirty bytes of its core written back (R181, R187). -/
def State.acquire (s : State) (ag : Agent) (sc : Scope) (g : Option GuardWord) : State :=
  if ag.scope sc = .team then s
  else
    let s := if ag.stream then s.flushCore ag.core
      else match g with
        | none => s.acquireCore ag.core
        | some w => s.acquireLines ag.core (w.overlaps ag.asid)
    (s.carry ag.core ag.team).sees ag.team

/-- Whether an access may go through the core's L1: an own line of this module, no bypass, a core's thread
(R182, R200, R202, R223). -/
def State.cacheable (s : State) (ag : Agent) (l : Loc) (h : Hint) : Bool :=
  match l with
  | .mem pa => !ag.stream && h != .bypass && s.isLocal pa
  | _ => false

/-- Order and scope of an access. -/
structure Sync where
  order : Order
  scope : Scope
  hint : Hint
  deriving DecidableEq, Repr

/-- No order. -/
def Sync.plain : Sync := { order := .plain, scope := .team, hint := .normal }

/-- Prepares an access of an agent at the home of some bytes: its core's dirty bytes of them are there, and no
invalidation of them is on its way to its die (R183, R184). -/
def State.toHome (s : State) (ag : Agent) (l : Loc) (n : Nat) : State :=
  match l with
  | .scr _ _ => s
  | l => (if ag.stream then s else s.flushBytes ag.core (s.paOf l) n).settleAt (dieOfCore ag.core) (s.paOf l) n

/-- After an access at the home, the agent's core holds no lease on its bytes (R183). -/
def State.fromHome (s : State) (ag : Agent) (l : Loc) (n : Nat) : State :=
  match l with
  | .scr _ _ => s
  | l => if ag.stream then s else s.dropLeases ag.core (s.paOf l) n

/-- Reads the bytes of one checked access at its location. -/
def State.loadAt (s : State) (ag : Agent) (va : Nat) (l : Loc) (n : Nat) (h : Hint) : State × List Byte :=
  if s.cacheable ag l h then s.l1Load ag.core (s.paOf l) (tagVa ag.asid va) n
  else
    let s := s.toHome ag l n
    (s.fromHome ag l n, s.locRead l n)

/-- Writes bytes at their home or in their array, with the stamps of the agent's core. -/
def State.putAt (s : State) (ag : Agent) (l : Loc) (bytes : List Byte) : State :=
  match l with
  | .scr t o => s.scrWrite t o bytes
  | l =>
      if ag.stream then s.agentWrite (s.paOf l) bytes
      else s.coreHomeWrite ag.core (s.paOf l) (s.clock + writeBackCycles) [ag.team] bytes

/-- Writes the bytes of one access at its home or array. -/
def State.storeHome (s : State) (ag : Agent) (l : Loc) (bytes : List Byte) : State :=
  ((s.toHome ag l bytes.length).putAt ag l bytes).fromHome ag l bytes.length

/-- Writes the bytes of one checked access: in the L1, or at the home when it must be performed there. -/
def State.storeAt (s : State) (ag : Agent) (va : Nat) (l : Loc) (bytes : List Byte) (y : Sync) : State :=
  if s.cacheable ag l y.hint ∧ !(y.order.releases ∧ (ag.scope y.scope).homeWide) then
    s.l1Store ag.core ag.team (s.paOf l) (tagVa ag.asid va) bytes
  else s.storeHome ag l bytes

/-- ALIGN of R128. -/
def misaligned (va n : Nat) (write : Bool) : Option Bad :=
  if va % n = 0 then none else some { cause := .align, detail := 0, write := write, addr := BitVec.ofNat 64 va }

/-- mem_read of R76 for whole bytes: the checks of R128, the read, and the acquire it carries. -/
def State.memRead (s : State) (ag : Agent) (va n : Nat) (y : Sync) : State × Except Bad (List Byte) :=
  match misaligned va n false with
  | some b => (s, .error b)
  | none =>
      match s.place ag va n .read with
      | (s, .error b) => (s, .error b)
      | (s, .ok (l, _)) =>
          let (s, bytes) := s.loadAt ag va l n y.hint
          (if y.order.acquires then s.acquire ag y.scope (s.guardOf ag va) else s, .ok bytes)

/-- mem_write of R76 for whole bytes: the checks of R128, the release it carries, and the write. -/
def State.memWrite (s : State) (ag : Agent) (va : Nat) (bytes : List Byte) (y : Sync) : State × Except Bad Unit :=
  match misaligned va bytes.length true with
  | some b => (s, .error b)
  | none =>
      match s.place ag va bytes.length .write with
      | (s, .error b) => (s, .error b)
      | (s, .ok (l, _)) =>
          let s := if y.order.releases then s.release ag y.scope (s.guardOf ag va) else s
          (s.storeAt ag va l bytes y, .ok ())

/-- An indivisible read-modify-write at the home or in the array (R131): `f` gives the new bytes, if any. A guard narrows the
release of every such word, STSB's too, which R135 does not name: the model's choice (log 30). Each counts as a write for its leaf, an
ACAS that stores nothing too (log 128). -/
def State.memRmw (s : State) (ag : Agent) (va n : Nat) (y : Sync) (write : Bool) (f : List Byte → Option (List Byte)) :
    State × Except Bad (List Byte) :=
  match misaligned va n write with
  | some b => (s, .error b)
  | none =>
      match s.place ag va n .write with
      | (s, .error b) => (s, .error b)
      | (s, .ok (l, _)) =>
          let g := s.guardOf ag va
          let s := if y.order.releases then s.release ag y.scope g else s
          let s := s.toHome ag l n
          let old := s.locRead l n
          let s := match f old with
            | some new => s.storeHome ag l new
            | none => s.fromHome ag l n
          (if y.order.acquires then s.acquire ag y.scope g else s, .ok old)

/-- Prepares an access of an agent at the homes of segments. -/
def State.toHomes (s : State) (ag : Agent) (segs : List Seg) : State := segs.foldl (fun s x => s.toHome ag x.loc x.len) s

/-- After an access at the homes of segments. -/
def State.fromHomes (s : State) (ag : Agent) (segs : List Seg) : State := segs.foldl (fun s x => s.fromHome ag x.loc x.len) s

/-- A structure that a word reads for itself at the home, after the issuing core's dirty bytes of it are there: a
descriptor, a record, an image. -/
def State.readStruct (s : State) (ag : Agent) (va n align : Nat) : State × Except Bad (List Byte) :=
  match misaligned va align false with
  | some b => (s, .error b)
  | none =>
      match s.range ag va n .read with
      | (s, .error b) => (s, .error b)
      | (s, .ok (segs, _)) =>
          let s := s.toHomes ag segs
          (s.fromHomes ag segs, .ok (s.segRead segs))

/-- Writes segments for an agent: at the homes or in the array, the agent's core keeping no older lease or dirty byte
of them. -/
def State.segStore (s : State) (ag : Agent) (segs : List Seg) (bytes : List Byte) : State :=
  ((s.toHomes ag segs).segWrite segs bytes).fromHomes ag segs

/-- The leaf of an address of an address space, without a TLB, for the homes' own accesses: of a page that the tenant may
reach (R345), and may write where they write. -/
def State.homeLeaf (s : State) (tenant asid va : Nat) (write : Bool) : Option TlbEntry :=
  match s.walk tenant asid va with
  | .ok e => if (e.sup && tenant != rtWindow) || (write && !e.write) then none else some e
  | .error _ => none

/-- The physical address of a virtual one for the homes' own accesses, which a shadow binding redirects as it does every other
(R207, R320). -/
def State.homeAddr (s : State) (tenant asid va : Nat) (write : Bool) : Option Nat :=
  (s.homeLeaf tenant asid va write).bind fun e =>
    match s.bindingAt tenant asid va with
    | some (x, true) => some (x.visible.getD ((va - x.b) / 4096) 0 + (va - x.b) % 4096)
    | some (_, false) => none
    | none => some (s.remapped tenant asid va (e.frame + va % 2 ^ e.log))

/-- An access sets A of a leaf, and D where it writes (R344). -/
def State.markLeaf (s : State) (e : TlbEntry) (write : Bool) : State :=
  let mask := 2 ^ 9 + write.toNat * 2 ^ 10
  if s.pte e.pte ||| mask = s.pte e.pte then s else s.setPte e.pte mask

/-- An access that the K8 makes by itself to an address sets A of its leaf, and D where it writes (R344). -/
def State.touched (s : State) (tenant asid va : Nat) (write : Bool) : State :=
  match s.homeLeaf tenant asid va write with
  | some e => s.markLeaf e write
  | none => s

/-- The K8 accesses `n` bytes from an address on by itself. -/
def State.touchedAll (s : State) (tenant asid va n : Nat) (write : Bool) : State :=
  (List.range ((va % 4096 + n + 4095) / 4096)).foldl (fun s i => s.touched tenant asid ((va / 4096 + i) * 4096) write) s

end Sys2Proof.Machine
end

