-- ==== Sys2Proof/Machine/Operands.lean ====
section
/-!
DEFINITION. Operands and results: how a word reads its registers and predicates in each thread (R56, R58, R68,
R69), what it writes and when (R54), its guard (R67), and the three ways a word runs over its issuing group: in every
thread by itself, in ascending slot order over the state, and once by the lowest active slot.
-/

namespace Sys2Proof.Machine

/-- What a word can read beside the thread's own registers. -/
structure Env where
  tm : Team
  step : Nat
  clock : Nat
  ctime : Nat
  dev : Nat
  deriving DecidableEq, Repr

/-- The environment of a team's threads. -/
def State.env (s : State) (tm : Team) : Env :=
  { tm := tm, step := s.fresh, clock := s.clock, ctime := (s.core tm.core).ctime, dev := s.regs.devnum }

/-- The values that a k register has had and that a thread may still read (R81). -/
def Team.staleK (tm : Team) (tid i : Nat) : List Word := (tm.kold.filter fun x => x.idx = i && !x.know.contains tid).map (·.val)

/-- The old values of k registers that some live thread may still read. -/
def Team.keepOld (tm : Team) (l : List OldK) : List OldK :=
  l.filter fun x => tm.threads.any fun h => !h.ctl && h.status != .exited && !x.know.contains h.tid

/-- A k register as a thread reads it: its value, or one that a KSET of another group has replaced and that no barrier has
ordered before the read (R81). -/
def Team.readK (tm : Team) (n tid i : Nat) : Word := choose n (tm.k.getD i 0) (tm.k.getD i 0 :: tm.staleK tid i)

/-- The register of an operand code: 32 bits in a team thread, a whole c register in a stream (R58). Two operands that name
one register in flight are decided each by itself: R56 leaves it open, and the model chooses so (log 7). -/
def Env.reg (e : Env) (th : Thread) (code : Nat) (k : Nat) : DWord :=
  if th.ctl then th.read (choiceAt e.step th.tid k) code
  else if code < 96 then th.read (choiceAt e.step th.tid k) code
  else if code = 127 then 0
  else (e.tm.readK (choiceAt e.step th.tid k) th.tid (code - 96)).setWidth 64

/-- A 32-bit source. -/
def Env.rd32 (e : Env) (th : Thread) (c : Code) (k : Nat) : Word := (e.reg th c.toNat k).setWidth 32

/-- A 64-bit source: an even pair, k31 as zero, or one c register. -/
def Env.rd64 (e : Env) (th : Thread) (c : Code) (k : Nat) : DWord :=
  if th.ctl then e.reg th c.toNat k
  else if c = 127 then 0
  else (e.reg th (c.toNat + 1) (k + 1)).setWidth 32 ++ (e.reg th c.toNat k).setWidth 32

/-- A 32-bit source some registers after a code. -/
def Env.rdAt (e : Env) (th : Thread) (c : Code) (i k : Nat) : Word := (e.reg th (c.toNat + i) k).setWidth 32

/-- A source of the width of an element type, as a number. -/
def Env.rdT (e : Env) (th : Thread) (t : ElemTy) (c : Code) (k : Nat) : Nat :=
  if t.isPair then (e.rd64 th c k).toNat else (e.rd32 th c k).toNat

/-- A predicate source. -/
def Env.pred (e : Env) (th : Thread) (p : P3) (k : Nat) : Bool := th.readPred (choiceAt e.step th.tid k) p.toNat

/-- What a word writes in one thread. -/
structure Out where
  regs : List (Nat × DWord)
  preds : List (Nat × Bool)
  flags : BitVec 6
  deriving DecidableEq, Repr

/-- Nothing. -/
def Out.none : Out := { regs := [], preds := [], flags := 0 }

/-- Registers only. -/
def Out.reg (r : List (Nat × DWord)) : Out := { regs := r, preds := [], flags := 0 }

/-- One predicate only. -/
def Out.pred (p : P3) (x : Bool) : Out := { regs := [], preds := [(p.toNat, x)], flags := 0 }

/-- A 32-bit destination: in a stream, sign-extended or zero-extended to the c register (R69). -/
def Thread.dst32 (th : Thread) (d : Code) (x : Word) (signed : Bool) : List (Nat × DWord) :=
  [(d.toNat, if th.ctl && signed then x.signExtend 64 else x.setWidth 64)]

/-- A 64-bit destination: an even pair, or one c register. -/
def Thread.dst64 (th : Thread) (d : Code) (x : DWord) : List (Nat × DWord) :=
  if th.ctl then [(d.toNat, x)]
  else [(d.toNat, (x.setWidth 32).setWidth 64), (d.toNat + 1, (x.extractLsb' 32 32).setWidth 64)]

/-- A destination of the width of an element type; type n32 is zero-extended in a stream (R69). -/
def Thread.dstT (th : Thread) (t : ElemTy) (d : Code) (x : Nat) : List (Nat × DWord) :=
  if t.isPair then th.dst64 d (BitVec.ofNat 64 x) else th.dst32 d (BitVec.ofNat 32 x) (t != .n32)

/-- The results of a fixed-latency word are there at once (R56). -/
def Out.now (o : Out) (th : Thread) : Thread :=
  let th := o.regs.foldl (fun t r => t.write r.1 r.2) th
  let th := o.preds.foldl (fun t r => t.writePred r.1 r.2) th
  { th with flags := th.flags ||| o.flags }

/-- The results of a variable-latency word as a word in flight (R54). -/
def Out.later (o : Out) (c : Ctr) (hold : Option Nat) : Pending :=
  { ctr := c, regs := o.regs.map fun r => { idx := r.1, val := r.2, clash := false }
    preds := o.preds.map fun r => { idx := r.1, val := r.2, clash := false }, flags := o.flags, hold := hold }

/-- The results of a word, now or when its counter falls. -/
def Out.apply (o : Out) (lat : Option Ctr) (th : Thread) : Thread :=
  match lat with
  | Option.none => o.now th
  | some c => th.launch (o.later c Option.none)

/-- The guard of a modifier word. -/
def guardOf : Mods → Guard
  | .f0 x => x.guard
  | .f1 x => x.guard
  | _ => Guard.off

/-- Whether a thread's guard is true (R67). -/
def Env.guardTrue (e : Env) (th : Thread) (m : Mods) : Bool :=
  !(guardOf m).en || e.pred th (guardOf m).pred 63 == (guardOf m).sense

/-- The issuing group. -/
def State.group? (s : State) : Option Group := s.groups.head?

/-- Whether a thread of the issuing group's team is in the group still. -/
def Group.holds (g : Group) (th : Thread) : Bool := g.slots.contains th.tid && th.status == .issuing

/-- What a word does in one thread that computes by itself. -/
def laneThread (g : Group) (e : Env) (m : Mods) (lat : Option Ctr) (f : Env → Thread → Out) (th : Thread) : Thread :=
  if g.holds th && e.guardTrue th m then (f e th).apply lat th else th

/-- A word that each thread of the group computes by itself. -/
def lane (m : Mods) (lat : Option Ctr) (f : Env → Thread → Out) (s : State) : State :=
  match s.groups with
  | [] => s
  | g :: _ =>
      { s with
        teams := s.teams.map fun tm =>
          if tm.id = g.team then { tm with threads := tm.threads.map (laneThread g (s.env tm) m lat f) } else tm
        fresh := s.fresh + 1 }

/-- What a word does to one thread whose own state it changes beside its registers. -/
def ownThread (g : Group) (e : Env) (m : Mods) (f : Env → Thread → Thread) (th : Thread) : Thread :=
  if g.holds th && e.guardTrue th m then f e th else th

/-- A word that each thread of the group performs on itself. -/
def own (m : Mods) (f : Env → Thread → Thread) (s : State) : State :=
  match s.groups with
  | [] => s
  | g :: _ =>
      { s with
        teams := s.teams.map fun tm =>
          if tm.id = g.team then { tm with threads := tm.threads.map (ownThread g (s.env tm) m f) } else tm
        fresh := s.fresh + 1 }

/-- The threads of the group whose guard is true, in ascending slot order. -/
def State.active (s : State) (g : Group) (m : Mods) : List Nat :=
  match s.team? g.team with
  | none => []
  | some tm => g.slots.filter fun tid =>
      match tm.thread? tid with
      | some th => th.status == .issuing && (s.env tm).guardTrue th m
      | none => false

/-- A word that the threads of the group perform over the state in ascending slot order. -/
def eachLane (m : Mods) (f : State → Group → Nat → State) (s : State) : State :=
  match s.groups with
  | [] => s
  | g :: _ =>
      let s' := (s.active g m).foldl (fun s tid => f s g tid) s
      { s' with fresh := s'.fresh + 1 }

/-- A word that the lowest active slot performs once for the group. -/
def onceLane (m : Mods) (f : State → Group → Nat → State) (s : State) : State :=
  match s.groups with
  | [] => s
  | g :: _ =>
      match s.active g m with
      | [] => s
      | tid :: _ => let s' := f s g tid; { s' with fresh := s'.fresh + 1 }

/-- Runs `f` on a thread and its team, where they exist. -/
def State.withThread (s : State) (g : Group) (tid : Nat) (f : Team → Thread → Env → State) : State :=
  match s.team? g.team with
  | none => s
  | some tm =>
      match tm.thread? tid with
      | some th => f tm th (s.env tm)
      | none => s

/-- Gives a thread the results of a word that counts on `c`, which may wait for a job. -/
def State.results (s : State) (g : Group) (tid : Nat) (c : Ctr) (o : Out) (hold : Option Nat) : State :=
  s.modThread g.team tid fun th => th.launch (o.later c hold)

/-- Blocks a thread in the word being issued (R122). -/
def State.block (s : State) (g : Group) (tid : Nat) (w : Wait) : State :=
  let (n, s) := s.newId
  s.modThread g.team tid fun th =>
    { th with status := .blocked { wait := w, header := g.header, word := g.idx, park := g.park, yield := g.yields
                                   more := decide (g.idx + 1 < g.words.length)
                                   opcode := (g.words.getD g.idx 0).toNat / 2 ^ 24, since := s.clock, order := n } }

/-- A thread whose blocked word is the last of its clause once its results are written: bits P and Y of the clause act
(R51, R55). -/
def Thread.leave (b : Block) (th : Thread) : Thread :=
  { th with status := if b.park then .parked else .ready, yielded := b.yield }

/-- A thread whose blocked word, a CARVE, has words behind it in its clause stands at the next of them (R39, R110). -/
def Thread.goOn (b : Block) (th : Thread) : Thread :=
  { th with status := .ready, pc := b.header, word := b.word + 1, yielded := false }

/-- The thread of a blocked word goes on: it is filed at its next PC, or parks where its clause says so (R55, R122). -/
def State.goOn (s : State) (id tid : Nat) (b : Block) : State :=
  let last := !(b.wait.ctr.isNone && b.more)
  let s := s.modThread id tid fun th => if last then th.leave b else th.goOn b
  if last && b.park then s.unpark id tid else s.file id tid

/-- A blocked word completes: its results are written and its thread goes on (R122). -/
def State.unblock (s : State) (id tid : Nat) (o : Out) : State :=
  match (s.thread? id tid).map (·.status) with
  | some (Status.blocked b) =>
      let p := o.later .wq none
      let n := choiceAt s.fresh tid 0
      let s := s.modThread id tid fun th => { th with pend := th.pend.map p.passedBy }.land n p
      { s.goOn id tid b with fresh := s.fresh + 1 }
  | _ => s

/-- A blocked word lets its thread go on with the results still to come, at the end of a job (R168). -/
def State.letGo (s : State) (id tid : Nat) (c : Ctr) (o : Out) (job : Nat) : State :=
  match (s.thread? id tid).map (·.status) with
  | some (Status.blocked b) => (s.modThread id tid fun th => th.launch (o.later c (some job))).goOn id tid b
  | _ => s

/-- FAULT.WRITE of a trap in a blocked word (R128). -/
def Wait.writes : Wait → Bool
  | .lpush .. => true
  | _ => false

/-- A blocked word ends in a trap that names it (R326). -/
def State.trapBlocked (s : State) (id tid : Nat) (cause detail : Nat) (addr : DWord) : State :=
  s.modThread id tid fun th =>
    match th.status with
    | .blocked b =>
        let cls : BitVec 3 := if b.opcode / 16 = 0x7 then 6 else if b.opcode / 16 = 0xB then 3 else if b.opcode / 16 = 0xC then 4 else 2
        let t : Trap := { cause := BitVec.ofNat 8 cause, detail := BitVec.ofNat 20 detail, write := b.wait.writes, cls := cls
                          addr := addr, header := b.header, word := b.word, cycle := s.clock }
        { th with status := .trapped t }
    | _ => th

end Sys2Proof.Machine
end

