-- ==== Sys2Proof/Machine/Alu.lean ====
section
/-!
DEFINITION. Moves, integer words, bits and shifts, compare and select (R77 to R91).
-/

namespace Sys2Proof.Machine

/-! ### Elements (R74) -/

/-- The width of an element. -/
def ElemTy.width : ElemTy → Nat
  | .i64 | .f64 => 64
  | .f16x2 | .bf16x2 | .i16x2 => 16
  | _ => 32

/-- Whether a type holds two halves. -/
def ElemTy.packed : ElemTy → Bool
  | .f16x2 | .bf16x2 | .i16x2 => true
  | _ => false

/-- An element as the type reads it: unsigned for n32, signed otherwise. -/
def ElemTy.value (t : ElemTy) (x : Nat) : Int := if t = .n32 then (x : Int) else sext (ElemTy.width t) x

/-- Applies an operation on elements to whole operands, each half by itself for a packed type. -/
def lift (t : ElemTy) (f : List Nat → Nat × BitVec 6) (xs : List Nat) : Nat × BitVec 6 :=
  if ElemTy.packed t then
    let lo := f (xs.map (· % 65536))
    let hi := f (xs.map (· / 65536))
    (lo.1 % 65536 + hi.1 % 65536 * 65536, lo.2 ||| hi.2)
  else f xs

/-- The literal of a DL word as its type reads it (R78). -/
def litVal (t : ElemTy) (lit : Word) : Nat :=
  match t with
  | .i64 => (lit.signExtend 64).toNat
  | .f64 => widen lit.toNat
  | _ => lit.toNat

/-- SAT of a modifier word. -/
def modSat : Mods → Bool
  | .f0 a => a.sat
  | _ => false

/-- The result of a typed word in a destination. -/
def outT (th : Thread) (t : ElemTy) (d : Code) (r : Nat × BitVec 6) : Out :=
  { regs := th.dstT t d r.1, preds := [], flags := r.2 }

/-- A word d := f(reg(a)). -/
def unT (d a : Code) (t : ElemTy) (m : Mods) (c : Option Ctr) (f : List Nat → Nat × BitVec 6) (s : State) : State :=
  lane m c (fun e th => outT th t d (lift t f [e.rdT th t a 0])) s

/-- A word d := f(reg(a), reg(b)). -/
def binT (d a b : Code) (t : ElemTy) (m : Mods) (c : Option Ctr) (f : List Nat → Nat × BitVec 6) (s : State) : State :=
  lane m c (fun e th => outT th t d (lift t f [e.rdT th t a 0, e.rdT th t b 2])) s

/-- A word d := f(reg(a), literal). -/
def binL (d a : Code) (t : ElemTy) (lit : Word) (m : Mods) (f : List Nat → Nat × BitVec 6) (s : State) : State :=
  lane m none (fun e th => outT th t d (lift t f [e.rdT th t a 0, litVal t lit])) s

/-- A word d := f(reg(a), reg(b), reg(d)). -/
def triT (d a b : Code) (t : ElemTy) (m : Mods) (f : List Nat → Nat × BitVec 6) (s : State) : State :=
  lane m none (fun e th => outT th t d (lift t f [e.rdT th t a 0, e.rdT th t b 2, e.rdT th t d 4])) s

/-! ### Moves (R81) -/

/-- Meaning of MOV in D3. -/
def execMov (d b : Code) (t : ElemTy) (m : Mods) (s : State) : Host.Outcome State Fault Refusal :=
  .next (lane m none (fun e th => outT th t d (e.rdT th t b 0, 0)) s)

/-- Meaning of MOV in DL. -/
def execMovDl (d : Code) (t : ElemTy) (lit : Word) (m : Mods) (s : State) : Host.Outcome State Fault Refusal :=
  .next (lane m none (fun _ th => outT th t d (litVal t lit, 0)) s)

/-- Meaning of MOVI. -/
def execMovi (d : Code) (imm : BitVec 10) (m : Mods) (s : State) : Host.Outcome State Fault Refusal :=
  .next (lane m none (fun _ th => Out.reg (th.dst32 d (imm.signExtend 32) true)) s)

/-- The threads of a team that know every later value than some old ones. -/
def Team.knowAll (tm : Team) (l : List OldK) : List Nat :=
  (tm.threads.map (·.tid)).filter fun tid => l.all (·.know.contains tid)

/-- A group, the threads `who`, writes k register `i` (R81): they read the new value from now on, other threads the old one or the
new one until a barrier orders them. Where another group's KSET of the register is not ordered before this one, one of the two
values remains, by a free choice. -/
def Team.writeK (n i : Nat) (who : List Nat) (x : Word) (tm : Team) : Team :=
  let raced := tm.kold.filter fun y => y.idx = i && !(who.all y.know.contains)
  let kold := tm.kold.map fun y => if y.idx = i then { y with know := (who ++ y.know).dedup } else y
  if raced.isEmpty || choose n true [true, false] then
    { tm with k := tm.k.set i x, kold := tm.keepOld ({ idx := i, val := tm.k.getD i 0, know := who, arrived := [] } :: kold) }
  else { tm with kold := tm.keepOld ({ idx := i, val := x, know := tm.knowAll raced, arrived := [] } :: kold) }

/-- Writes a team's k register or pair for a group. -/
def Team.setK (n code : Nat) (pair : Bool) (who : List Nat) (x : Nat) (tm : Team) : Team :=
  let tm := tm.writeK n (code - 96) who (BitVec.ofNat 32 x)
  if pair then tm.writeK (nth n 1) (code - 95) who (BitVec.ofNat 32 (x / 2 ^ 32)) else tm

/-- Meaning of KSET: the value of the lowest active slot, for the team. -/
def execKset (d a : Code) (t : ElemTy) (m : Mods) (s : State) : Host.Outcome State Fault Refusal :=
  .next (onceLane m (fun s g tid => s.withThread g tid fun _ th e =>
    s.modTeam g.team (Team.setK (choiceAt s.fresh tid 8) d.toNat t.isPair (s.present g) (e.rdT th t a 0))) s)

/-! ### Integer arithmetic (R82 to R85) -/

/-- An element result of R82: exact, then SAT, then wrapped. -/
def intOp (t : ElemTy) (m : Mods) (f : List Int → Int) (xs : List Nat) : Nat × BitVec 6 :=
  let r := f (xs.map (ElemTy.value t))
  let r := if modSat m then (if t = .n32 then satu 32 r else sat (ElemTy.width t) r) else (r, 0)
  (wrap (ElemTy.width t) r.1, r.2)

/-- A binary operation on integers as one on lists. -/
def two (f : Int → Int → Int) : List Int → Int
  | x :: y :: _ => f x y
  | _ => 0

/-- Meaning of IADD in D3. -/
def execIadd (d a b : Code) (t : ElemTy) (m : Mods) (s : State) : Host.Outcome State Fault Refusal :=
  .next (binT d a b t m none (intOp t m (two (· + ·))) s)

/-- Meaning of IADD in DL. -/
def execIaddDl (d a : Code) (t : ElemTy) (lit : Word) (m : Mods) (s : State) : Host.Outcome State Fault Refusal :=
  .next (binL d a t lit m (intOp t m (two (· + ·))) s)

/-- Meaning of IADDI. -/
def execIaddi (d a : Code) (imm : BitVec 10) (m : Mods) (s : State) : Host.Outcome State Fault Refusal :=
  .next (binL d a .i32 (imm.signExtend 32) m (intOp .i32 m (two (· + ·))) s)

/-- Meaning of ISUB. -/
def execIsub (d a b : Code) (t : ElemTy) (m : Mods) (s : State) : Host.Outcome State Fault Refusal :=
  .next (binT d a b t m none (intOp t m (two (· - ·))) s)

/-- Meaning of IADDC (R84): the destination is an n32. -/
def execIaddc (d a b : Code) (p : P3) (m : Mods) (s : State) : Host.Outcome State Fault Refusal :=
  .next (lane m none (fun e th =>
    let r := (e.rd32 th a 0).toNat + (e.rd32 th b 2).toNat + (e.pred th p 4).toNat
    { regs := th.dst32 d (BitVec.ofNat 32 r) false, preds := [(p.toNat, 2 ^ 32 ≤ r)], flags := 0 }) s)

/-- Meaning of IMUL in D3. -/
def execImul (d a b : Code) (t : ElemTy) (m : Mods) (s : State) : Host.Outcome State Fault Refusal :=
  .next (binT d a b t m none (intOp t m (two (· * ·))) s)

/-- Meaning of IMUL in DL. -/
def execImulDl (d a : Code) (t : ElemTy) (lit : Word) (m : Mods) (s : State) : Host.Outcome State Fault Refusal :=
  .next (binL d a t lit m (intOp t m (two (· * ·))) s)

/-- Meaning of IMULH: the product's upper half, rounded down. -/
def execImulh (d a b : Code) (t : ElemTy) (m : Mods) (s : State) : Host.Outcome State Fault Refusal :=
  .next (binT d a b t m none (intOp t m (two fun x y => (x * y).fdiv (2 ^ 32))) s)

/-- Meaning of IMAD. -/
def execImad (d a b : Code) (t : ElemTy) (m : Mods) (s : State) : Host.Outcome State Fault Refusal :=
  .next (triT d a b t m (intOp t m fun l => match l with | x :: y :: z :: _ => x * y + z | _ => 0) s)

/-- R83: quotient or remainder of one element. -/
def divOp (t : ElemTy) (m : Mods) (rem : Bool) (xs : List Nat) : Nat × BitVec 6 :=
  match xs with
  | x :: y :: _ =>
      if y = 0 then (if rem then x else 2 ^ ElemTy.width t - 1, flDZ)
      else intOp t m (two fun x y => if rem then x.tmod y else x.tdiv y) xs
  | _ => (0, 0)

/-- Meaning of IDIV. -/
def execIdiv (d a b : Code) (t : ElemTy) (m : Mods) (s : State) : Host.Outcome State Fault Refusal :=
  .next (binT d a b t m (some .wa) (divOp t m false) s)

/-- Meaning of IREM. -/
def execIrem (d a b : Code) (t : ElemTy) (m : Mods) (s : State) : Host.Outcome State Fault Refusal :=
  .next (binT d a b t m (some .wa) (divOp t m true) s)

/-- Meaning of IMIN. -/
def execImin (d a b : Code) (t : ElemTy) (m : Mods) (s : State) : Host.Outcome State Fault Refusal :=
  .next (binT d a b t m none (intOp t m (two min)) s)

/-- Meaning of IMAX. -/
def execImax (d a b : Code) (t : ElemTy) (m : Mods) (s : State) : Host.Outcome State Fault Refusal :=
  .next (binT d a b t m none (intOp t m (two max)) s)

/-- Meaning of IABS. -/
def execIabs (d a : Code) (t : ElemTy) (m : Mods) (s : State) : Host.Outcome State Fault Refusal :=
  .next (unT d a t m none (intOp t m fun l => (l.headD 0).natAbs) s)

/-! ### Bits and shifts (R86 to R89) -/

/-- An element operation without flags. -/
def bitOp (f : Nat → Nat → Nat) : List Nat → Nat × BitVec 6
  | x :: y :: _ => (f x y, 0)
  | _ => (0, 0)

/-- Meaning of AND in D3. -/
def execAnd (d a b : Code) (t : ElemTy) (m : Mods) (s : State) : Host.Outcome State Fault Refusal :=
  .next (binT d a b t m none (bitOp (· &&& ·)) s)

/-- Meaning of AND in DL. -/
def execAndDl (d a : Code) (t : ElemTy) (lit : Word) (m : Mods) (s : State) : Host.Outcome State Fault Refusal :=
  .next (binL d a t lit m (bitOp (· &&& ·)) s)

/-- Meaning of OR in D3. -/
def execOr (d a b : Code) (t : ElemTy) (m : Mods) (s : State) : Host.Outcome State Fault Refusal :=
  .next (binT d a b t m none (bitOp (· ||| ·)) s)

/-- Meaning of OR in DL. -/
def execOrDl (d a : Code) (t : ElemTy) (lit : Word) (m : Mods) (s : State) : Host.Outcome State Fault Refusal :=
  .next (binL d a t lit m (bitOp (· ||| ·)) s)

/-- Meaning of XOR in D3. -/
def execXor (d a b : Code) (t : ElemTy) (m : Mods) (s : State) : Host.Outcome State Fault Refusal :=
  .next (binT d a b t m none (bitOp (· ^^^ ·)) s)

/-- Meaning of XOR in DL. -/
def execXorDl (d a : Code) (t : ElemTy) (lit : Word) (m : Mods) (s : State) : Host.Outcome State Fault Refusal :=
  .next (binL d a t lit m (bitOp (· ^^^ ·)) s)

/-- Meaning of ANDN. -/
def execAndn (d a b : Code) (t : ElemTy) (m : Mods) (s : State) : Host.Outcome State Fault Refusal :=
  .next (binT d a b t m none (bitOp fun x y => x &&& (y ^^^ (2 ^ ElemTy.width t - 1))) s)

/-- x shifted left by c modulo the width. -/
def shlOp (w x y : Nat) : Nat := x * 2 ^ (y % w) % 2 ^ w
/-- x shifted right by c modulo the width, zeros in. -/
def shrOp (w x y : Nat) : Nat := x / 2 ^ (y % w)
/-- x shifted right by c modulo the width, copies of the top bit in. -/
def sarOp (w x y : Nat) : Nat := wrap w ((sext w x).fdiv (2 ^ (y % w) : Nat))
/-- x rotated left by c modulo the width. -/
def rotlOp (w x y : Nat) : Nat := x * 2 ^ (y % w) % 2 ^ w + x / 2 ^ (w - y % w)

/-- Meaning of SHL. -/
def execShl (d a b : Code) (t : ElemTy) (m : Mods) (s : State) : Host.Outcome State Fault Refusal :=
  .next (binT d a b t m none (bitOp (shlOp (ElemTy.width t))) s)

/-- Meaning of SHR. -/
def execShr (d a b : Code) (t : ElemTy) (m : Mods) (s : State) : Host.Outcome State Fault Refusal :=
  .next (binT d a b t m none (bitOp (shrOp (ElemTy.width t))) s)

/-- Meaning of SAR. -/
def execSar (d a b : Code) (t : ElemTy) (m : Mods) (s : State) : Host.Outcome State Fault Refusal :=
  .next (binT d a b t m none (bitOp (sarOp (ElemTy.width t))) s)

/-- Meaning of ROTL. -/
def execRotl (d a b : Code) (t : ElemTy) (m : Mods) (s : State) : Host.Outcome State Fault Refusal :=
  .next (binT d a b t m none (bitOp (rotlOp (ElemTy.width t))) s)

/-- A shift by an immediate count, on 32 or 64 bits (R87). -/
def shiftImm (d a : Code) (w : Bool) (cnt : BitVec 6) (m : Mods) (f : Nat → Nat → Nat → Nat) (s : State) : State :=
  let t : ElemTy := if w then .i64 else .i32
  unT d a t m none (fun xs => (f (ElemTy.width t) (xs.headD 0) cnt.toNat, 0)) s

/-- Meaning of SHLI. -/
def execShli (d a : Code) (w : Bool) (cnt : BitVec 6) (m : Mods) (s : State) : Host.Outcome State Fault Refusal :=
  .next (shiftImm d a w cnt m shlOp s)

/-- Meaning of SHRI. -/
def execShri (d a : Code) (w : Bool) (cnt : BitVec 6) (m : Mods) (s : State) : Host.Outcome State Fault Refusal :=
  .next (shiftImm d a w cnt m shrOp s)

/-- Meaning of SARI. -/
def execSari (d a : Code) (w : Bool) (cnt : BitVec 6) (m : Mods) (s : State) : Host.Outcome State Fault Refusal :=
  .next (shiftImm d a w cnt m sarOp s)

/-- The bits of a number, the lowest first. -/
def bitsOf (w x : Nat) : List Bool := (List.range w).map x.testBit

/-- The number whose bits are given, the lowest first. -/
def ofBits : List Bool → Nat
  | [] => 0
  | b :: l => b.toNat + 2 * ofBits l

/-- Meaning of POPC. -/
def execPopc (d a : Code) (t : ElemTy) (m : Mods) (s : State) : Host.Outcome State Fault Refusal :=
  .next (unT d a t m none (fun xs => ((bitsOf (ElemTy.width t) (xs.headD 0)).count true, 0)) s)

/-- Meaning of CLZ. -/
def execClz (d a : Code) (t : ElemTy) (m : Mods) (s : State) : Host.Outcome State Fault Refusal :=
  .next (unT d a t m none (fun xs => (((bitsOf (ElemTy.width t) (xs.headD 0)).reverse.takeWhile (!·)).length, 0)) s)

/-- Meaning of CTZ. -/
def execCtz (d a : Code) (t : ElemTy) (m : Mods) (s : State) : Host.Outcome State Fault Refusal :=
  .next (unT d a t m none (fun xs => (((bitsOf (ElemTy.width t) (xs.headD 0)).takeWhile (!·)).length, 0)) s)

/-- Meaning of BREV. -/
def execBrev (d a : Code) (t : ElemTy) (m : Mods) (s : State) : Host.Outcome State Fault Refusal :=
  .next (unT d a t m none (fun xs => (ofBits (bitsOf (ElemTy.width t) (xs.headD 0)).reverse, 0)) s)

/-- The bits that a field covers: its position, and its length within 32 bits (R89). -/
def fieldOf (y : Nat) : Nat × Nat := (y % 256, min (y / 256 % 256) (32 - y % 256))

/-- Meaning of BFX. -/
def execBfx (d a b : Code) (t : ElemTy) (m : Mods) (s : State) : Host.Outcome State Fault Refusal :=
  .next (binT d a b t m none (bitOp fun x y =>
    let (pos, len) := fieldOf y
    let f := x / 2 ^ pos % 2 ^ len
    if len = 0 then 0 else if t = .i32 then wrap 32 (sext len f) else f) s)

/-- Meaning of BFI. -/
def execBfi (d a b : Code) (t : ElemTy) (m : Mods) (s : State) : Host.Outcome State Fault Refusal :=
  .next (triT d a b t m (fun xs =>
    match xs with
    | x :: y :: z :: _ =>
        let (pos, len) := fieldOf y
        (if len = 0 then z else z - z / 2 ^ pos % 2 ^ len * 2 ^ pos + x % 2 ^ len * 2 ^ pos, 0)
    | _ => (0, 0)) s)

/-! ### Compare and select (R90, R91) -/

/-- A relation between two integers. -/
def relHolds (rel : Rel) (x y : Int) : Bool :=
  match rel with
  | .eq => x == y | .ne => x != y | .lt => x < y | .le => x ≤ y | .gt => y < x | .ge => y ≤ x

/-- A compared operand: unsigned for n32 and under U. -/
def cmpVal (t : ElemTy) (u : Bool) (x : Nat) : Int := if u then (x : Int) else ElemTy.value t x

/-- Meaning of ICMP in D3. -/
def execIcmp (rel : Rel) (u : Bool) (pd : P3) (a b : Code) (t : ElemTy) (m : Mods) (s : State) :
    Host.Outcome State Fault Refusal :=
  .next (lane m none (fun e th =>
    Out.pred pd (relHolds rel (cmpVal t u (e.rdT th t a 0)) (cmpVal t u (e.rdT th t b 2)))) s)

/-- Meaning of ICMP in DL. -/
def execIcmpDl (rel : Rel) (u : Bool) (pd : P3) (a : Code) (t : ElemTy) (lit : Word) (m : Mods) (s : State) :
    Host.Outcome State Fault Refusal :=
  .next (lane m none (fun e th =>
    Out.pred pd (relHolds rel (cmpVal t u (e.rdT th t a 0)) (cmpVal t u (litVal t lit)))) s)

/-- Meaning of ICMPI. -/
def execIcmpi (rel : Rel) (u : Bool) (pd : P3) (a : Code) (imm : BitVec 10) (m : Mods) (s : State) :
    Host.Outcome State Fault Refusal :=
  .next (lane m none (fun e th =>
    let x := (e.rd32 th a 0).toNat
    Out.pred pd (if u then relHolds rel x imm.toNat else relHolds rel (sext 32 x) imm.toInt)) s)

/-- A word whose 32 bits of result the manual does not extend in a stream: the upper half of the c register is free
(log 22). -/
def Thread.dstFree (th : Thread) (n : Nat) (d : Code) (x : Word) : List (Nat × DWord) :=
  [(d.toNat, if th.ctl then Config.freeWord n ++ x else x.setWidth 64)]

/-- Meaning of SEL. -/
def execSel (d a b : Code) (p : P3) (m : Mods) (s : State) : Host.Outcome State Fault Refusal :=
  .next (lane m none (fun e th =>
    Out.reg (th.dstFree (choiceAt e.step th.tid 8) d (if e.pred th p 4 then e.rd32 th a 0 else e.rd32 th b 2))) s)

/-- Meaning of LEA (R85). -/
def execLea (d a b : Code) (sh : BitVec 3) (m : Mods) (s : State) : Host.Outcome State Fault Refusal :=
  .next (lane m none (fun e th =>
    Out.reg (th.dst64 d (e.rd64 th a 0 + ((e.rd32 th b 2).signExtend 64 <<< sh.toNat)))) s)

/-- Meaning of NOP. -/
def execNop (s : State) : Host.Outcome State Fault Refusal := .next s

end Sys2Proof.Machine
end

