-- ==== Sys2Proof/Machine/Barrier.lean ====
section
/-!
DEFINITION. Barrier registers and the barrier words (R136 to R141), and how a member leaves them (R117).
-/

namespace Sys2Proof.Machine

/-- A barrier register in its task-start state. -/
def Barrier.start (members : Nat) : Barrier :=
  { phase := 0, members := members, arrived := 0, pending := 0, op := .none, value := 0, done1 := 0, done2 := 0, arr := [] }

/-- The members a barrier expects: the live threads and the live control stream. -/
def Team.members (tm : Team) : Nat := tm.liveThreads.length + tm.liveStream.toNat

/-- The identity of a reduction. -/
def redIdentity : RedOp → Word
  | .and => 0xFFFFFFFF
  | _ => 0

/-- One payload folded in. -/
def redFold (op : RedOp) (v x : Word) : Word :=
  match op with
  | .none => v
  | .and => v &&& x
  | .or => v ||| x
  | .sum => v + x
  | .popc => if x = 0 then v else v + 1

/-- Barrier `n` of a team. -/
def Team.bar (tm : Team) (n : Nat) : Barrier := tm.bars.getD n (Barrier.start tm.members)

/-- Changes barrier `n` of a team. -/
def Team.modBar (tm : Team) (n : Nat) (f : Barrier → Barrier) : Team := { tm with bars := tm.bars.set n (f (tm.bar n)) }

/-- A member has arrived in a phase of barrier `n`, which is now `b`: what it knows of k registers the phase makes known (R81). -/
def Team.arrives (tid n : Nat) (phase : BitVec 16) (b : Barrier) (tm : Team) : Team :=
  { tm.modBar n (fun _ => b) with
    kold := tm.kold.map fun x => if x.know.contains tid then { x with arrived := (n, phase) :: x.arrived } else x }

/-- A member goes on after a phase of barrier `n`: it knows the values of k registers that the phase makes known (R81). -/
def Team.learns (tid n : Nat) (phase : BitVec 16) (tm : Team) : Team :=
  { tm with kold := tm.kold.map fun x => if x.arrived.contains (n, phase) then { x with know := (tid :: x.know).dedup } else x }

/-- A member goes on after a phase of barrier `n`, an acquire at team scope (R138). -/
def State.passBar (s : State) (tm : Team) (tid n : Nat) (phase : BitVec 16) : State :=
  (s.acquire (tm.agent tid) .team none).modTeam tm.id (Team.learns tid n phase)

/-- An arrival of a member with a payload (R138): the DETAIL of its trap, or the barrier after it. Where exits have withdrawn
every arrival of the phase, ARRIVED is 0 and the next arrival fixes OP and starts VALUE anew (log 85). -/
def Barrier.arrive (b : Barrier) (tid : Nat) (op : RedOp) (x : Word) : Except Nat Barrier :=
  if tid ∈ b.arr then .error 5
  else
    let b := if b.arrived = 0 then { b with op := op, value := redIdentity op } else b
    if op ≠ b.op then .error 7
    else .ok { b with arr := tid :: b.arr, arrived := b.arrived + 1, value := redFold op b.value x }

/-- The step by which a phase completes, with the engine arrivals that the next phase expects. -/
def Barrier.complete (b : Barrier) (pending : Nat) : Barrier :=
  { b with done2 := b.done1, done1 := b.value, phase := b.phase + 1, arrived := 0, pending := pending, value := 0, arr := [] }

/-- Engine arrivals of a team on barrier `n` that belong to a phase (R141). -/
def State.engineDue (s : State) (team n : Nat) (phase : BitVec 16) : Nat :=
  (s.cmds.filter fun c => c.team = team ∧ c.bar = some (n, phase)).length

/-- The result of a blocked barrier word in its destination. -/
def barOut (th : Thread) (n : Nat) (d : Code) (write : Bool) (x : Word) : Out :=
  if write then Out.reg (th.dstFree n d x) else Out.none

/-- The result of a phase in the recorded arrivals that belong to it (R139). -/
def Thread.record (n : Nat) (phase : BitVec 16) (x : Word) (h : Thread) : Thread :=
  { h with arrivals := h.arrivals.map fun a => if a.bar = n ∧ a.phase = phase ∧ a.value = none then { a with value := some x } else a }

/-- A thread that waits on a completed phase of barrier `n` goes on, with an acquire at team scope; arrivals recorded in it have
their result. -/
def State.wakeBar (team n : Nat) (phase : BitVec 16) (x : Word) (s : State) (tid : Nat) : State :=
  let s := s.modThread team tid (Thread.record n phase x)
  match s.team? team, s.thread? team tid with
  | some tm, some th =>
      match th.status with
      | .blocked b =>
          let go := fun (d : Code) (write : Bool) =>
            (s.passBar tm tid n phase).unblock team tid (barOut th (choiceAt s.fresh tid 9) d write x)
          match b.wait with
          | .bsync k p d w => if k = n ∧ p = phase then go d w else s
          | .bwait k p d => if k = n ∧ p = phase then go d true else s
          | _ => s
      | _ => s
  | _, _ => s

/-- The old values of k registers when a phase of barrier `n` completes: what every thread knows is gone, and no token names a phase
before the one before (R139). -/
def Team.oldKs (tm : Team) (n : Nat) (phase : BitVec 16) : List OldK :=
  (tm.keepOld tm.kold).map fun x =>
    { x with arrived := x.arrived.filter (· ≠ (n, phase - 2)) }

/-- Completes the phase of barrier `n` if all its members and engine arrivals are there. -/
def State.checkBar (team : Nat) (s : State) (n : Nat) : State :=
  match s.team? team with
  | some tm =>
      let b := tm.bar n
      if n < tm.bars.length ∧ b.arrived = b.members ∧ b.members ≠ 0 ∧ b.pending = 0 then
        let s := s.modTeam team fun tm => { tm.modBar n (·.complete (s.engineDue team n (b.phase + 1))) with kold := tm.oldKs n b.phase }
        (tm.threads.map (·.tid)).foldl (State.wakeBar team n b.phase b.value) s
      else s
  | none => s

/-- Whether a thread waits in a BWAIT on barrier `n`: it is blocked there, or it was saved there and has not executed the word
again (R140). -/
def Thread.awaits (n : Nat) (h : Thread) : Bool :=
  match h.status with
  | .blocked x => (match x.wait with | .bwait k _ _ => k == n | _ => false)
  | .exited => false
  | _ => h.waitAt == some n

/-- A barrier in its task-start state: its phases are numbered anew. -/
def Team.restart (n : Nat) (tm : Team) : Team :=
  { tm.modBar n (fun _ => Barrier.start tm.members) with
    kold := tm.kold.map fun x => { x with arrived := x.arrived.filter (·.1 ≠ n) } }

/-- BINIT by one thread for its group. -/
def State.binitOne (n : BitVec 4) (s : State) (g : Group) (tid : Nat) : State :=
  s.withThread g tid fun tm _ _ =>
    let b := tm.bar n.toNat
    if b.arrived ≠ 0 ∨ b.pending ≠ 0 ∨ tm.threads.any (·.awaits n.toNat) then s.trap g tid (bad .barrier 4)
    else (s.modTeam tm.id (Team.restart n.toNat)).results g tid .wq Out.none none

/-- Meaning of BINIT (R140). -/
def execBinit (n : BitVec 4) (m : Mods) (s : State) : Host.Outcome State Fault Refusal :=
  .next (onceLane m (State.binitOne n) s)

/-- Whether a recorded arrival is that of a group's word at a barrier. -/
def Arrival.isAt (x : Arrival) (n : Nat) (g : Group) : Bool := x.bar == n && x.header == g.header && x.word == g.idx

/-- BSYNC in one thread: it arrives and blocks, or goes on with its arrival that was recorded (R139). -/
def State.bsyncOne (d a : Code) (n : BitVec 4) (op : RedOp) (s : State) (g : Group) (tid : Nat) : State :=
  s.withThread g tid fun tm th e =>
    let b := tm.bar n.toNat
    let w := op != .none
    let wait := fun (p : BitVec 16) => Wait.bsync n.toNat p d w
    match th.arrivals.find? (·.isAt n.toNat g) with
    | some x =>
        let s := s.modThread tm.id tid fun h => { h with arrivals := h.arrivals.filter fun x => !x.isAt n.toNat g }
        match x.value with
        | some v => (s.passBar tm tid n.toNat x.phase).results g tid .wq (barOut th (choiceAt e.step tid 9) d w v) none
        | none => s.block g tid (wait x.phase)
    | none =>
        match b.arrive tid op (if w then e.rd32 th a 0 else 0) with
        | .error k => s.trap g tid (bad .barrier k)
        | .ok b' =>
            ((((s.release (tm.agent tid) .team none).modTeam tm.id (Team.arrives tid n.toNat b.phase b')).block g tid
              (wait b.phase)).checkBar tm.id n.toNat)

/-- Meaning of BSYNC. -/
def execBsync (d a : Code) (n : BitVec 4) (op : RedOp) (m : Mods) (s : State) : Host.Outcome State Fault Refusal :=
  .next (eachLane m (State.bsyncOne d a n op) s)

/-- BARV in one thread. -/
def State.barvOne (d a : Code) (n : BitVec 4) (op : RedOp) (s : State) (g : Group) (tid : Nat) : State :=
  s.withThread g tid fun tm th e =>
    let b := tm.bar n.toNat
    match b.arrive tid op (if op = .none then 0 else e.rd32 th a 0) with
    | .error k => s.trap g tid (bad .barrier k)
    | .ok b' =>
        ((((s.release (tm.agent tid) .team none).modTeam tm.id (Team.arrives tid n.toNat b.phase b')).results g tid .wq
          (Out.reg (th.dstFree (choiceAt e.step tid 9) d (b.phase.setWidth 32))) none).checkBar tm.id n.toNat)

/-- Meaning of BARV. -/
def execBarv (d a : Code) (n : BitVec 4) (op : RedOp) (m : Mods) (s : State) : Host.Outcome State Fault Refusal :=
  .next (eachLane m (State.barvOne d a n op) s)

/-- The result of a phase that a token names, if it is among the last two completed (R139). -/
def Barrier.result (b : Barrier) (t : BitVec 16) : Option Word :=
  if t = b.phase - 1 then some b.done1 else if t = b.phase - 2 then some b.done2 else none

/-- BWAIT in one thread. -/
def State.bwaitOne (d a : Code) (n : BitVec 4) (s : State) (g : Group) (tid : Nat) : State :=
  s.withThread g tid fun tm th e =>
    let b := tm.bar n.toNat
    let t := (e.rd32 th a 0).setWidth 16
    let s := s.modThread tm.id tid fun h => { h with waitAt := none }
    if t = b.phase then s.block g tid (.bwait n.toNat t d)
    else
      match b.result t with
      | some x =>
          (s.passBar tm tid n.toNat t).results g tid .wq (Out.reg (th.dstFree (choiceAt e.step tid 9) d x)) none
      | none => s.trap g tid (bad .barrier 6)

/-- Meaning of BWAIT. -/
def execBwait (d a : Code) (n : BitVec 4) (m : Mods) (s : State) : Host.Outcome State Fault Refusal :=
  .next (eachLane m (State.bwaitOne d a n) s)

/-- BTEST in one thread. -/
def State.btestOne (pd : P3) (a : Code) (n : BitVec 4) (s : State) (g : Group) (tid : Nat) : State :=
  s.withThread g tid fun tm th e =>
    let b := tm.bar n.toNat
    let t := (e.rd32 th a 0).setWidth 16
    if t = b.phase then s.results g tid .wq (Out.pred pd false) none
    else if (b.result t).isSome then s.results g tid .wq (Out.pred pd true) none
    else s.trap g tid (bad .barrier 6)

/-- Meaning of BTEST. -/
def execBtest (pd : P3) (a : Code) (n : BitVec 4) (m : Mods) (s : State) : Host.Outcome State Fault Refusal :=
  .next (eachLane m (State.btestOne pd a n) s)

/-- An exiting member leaves a barrier (R117, R140). -/
def Barrier.leave (tid : Nat) (b : Barrier) : Barrier :=
  let b := { b with members := b.members - 1 }
  if tid ∈ b.arr then { b with arr := b.arr.erase tid, arrived := b.arrived - 1 } else b

/-- An exiting member leaves every barrier of its team, which may complete some. -/
def State.leaveBars (s : State) (team tid : Nat) : State :=
  let s := s.modTeam team fun tm => { tm with bars := tm.bars.map (Barrier.leave tid) }
  (List.range 16).foldl (State.checkBar team) s

/-- An engine's arrival on a barrier register (R141). -/
def State.engineArrive (s : State) (team n : Nat) (phase : BitVec 16) : State :=
  (s.modTeam team fun tm => if (tm.bar n).phase = phase then tm.modBar n fun b => { b with pending := b.pending - 1 } else tm).checkBar
    team n

end Sys2Proof.Machine
end

