-- ==== Sys2Proof/Machine/Mem.lean ====
section
/-!
DEFINITION. The memory words (R121 to R135): loads and stores, the constant cache, prefetch, atomics, fences and
guards.
-/

namespace Sys2Proof.Machine

/-- Order, scope and hint of a form-1 modifier word. -/
def syncOf : Mods → Sync
  | .f1 x => { order := x.order, scope := x.scope, hint := x.hint }
  | _ => Sync.plain

/-- Gives a thread the results of a memory word, which may be a release (R133). -/
def State.ordered (s : State) (g : Group) (tid : Nat) (m : Mods) (o : Out) : State :=
  s.modThread g.team tid fun th => th.launch { o.later .ws none with tie := if (syncOf m).order.releases then .release else .free }

/-- Bytes of an access. -/
def sizeBytes : MemSize → Nat
  | .b8 | .b4 => 1 | .b16 => 2 | .b32 => 4 | .b64 => 8 | .b128 => 16

/-- The effective address of R60 in bytes. -/
def effAddr (base : DWord) (off : BitVec 7) (scale : Nat) : Nat := (((base.toNat : Int) + scale * off.toInt) % (2 ^ 64 : Nat)).toNat

/-- The byte address and the nibble, 0 or 1, of a 4-bit access (R60). -/
def effNibble (base : DWord) (off : BitVec 7) : Nat × Nat :=
  let a := ((2 * base.toNat : Nat) : Int) + off.toInt
  (((a.fdiv 2) % (2 ^ 64 : Nat)).toNat, (a % 2).toNat)

/-- A loaded value in its destination registers: registers of 32 bits, or in a stream one whole c register for up to 64 bits
(R69, R123). -/
def Thread.dstMem (th : Thread) (d : Code) (bytes : List Byte) : List (Nat × DWord) :=
  let n := bytes.length
  let unit := if th.ctl && n ≤ 8 then 8 else 4
  (List.range ((n + unit - 1) / unit)).map fun i => (d.toNat + i, BitVec.ofNat 64 (leNat ((bytes.drop (unit * i)).take unit)))

/-- The low `n` bytes of the registers that hold a stored value. -/
def Env.srcMem (e : Env) (th : Thread) (d : Code) (n : Nat) : List Byte :=
  if th.ctl && n ≤ 8 then bytesLE n (e.reg th d.toNat 8).toNat
  else
    (List.range ((n + 3) / 4)).flatMap fun i =>
      bytesLE (min 4 (n - 4 * i)) (if d = 127 then 0 else e.rdAt th d i (8 + i)).toNat

/-- The address register of a word. -/
def Env.addr (e : Env) (th : Thread) (a : Code) : DWord := e.rd64 th a 0

/-! ### Loads and stores (R123 to R127) -/

/-- LD in one thread. -/
def State.ldOne (d base : Code) (size : MemSize) (off : BitVec 7) (m : Mods) (s : State) (g : Group) (tid : Nat) : State :=
  s.withThread g tid fun tm th e =>
    let b := e.addr th base
    let (va, nib) := if size = .b4 then effNibble b off else (effAddr b off (sizeBytes size), 0)
    match s.memRead (tm.agent tid) va (sizeBytes size) (syncOf m) with
    | (s, .error x) => s.trap g tid x
    | (s, .ok bytes) =>
        let bytes := if size = .b4 then [BitVec.ofNat 8 ((bytes.headD 0).toNat / 16 ^ nib % 16)] else bytes
        s.results g tid .wl (Out.reg (th.dstMem d bytes)) none

/-- Meaning of LD. -/
def execLd (d base : Code) (size : MemSize) (off : BitVec 7) (m : Mods) (s : State) : Host.Outcome State Fault Refusal :=
  .next (eachLane m (State.ldOne d base size off m) s)

/-- ST in one thread. -/
def State.stOne (d base : Code) (size : MemSize) (off : BitVec 7) (m : Mods) (s : State) (g : Group) (tid : Nat) : State :=
  s.withThread g tid fun tm th e =>
    let n := sizeBytes size
    match s.memWrite (tm.agent tid) (effAddr (e.addr th base) off n) (e.srcMem th d n) (syncOf m) with
    | (s, .error x) => s.trap g tid x
    | (s, .ok _) => s.ordered g tid m Out.none

/-- Meaning of ST: ascending slots, so the highest slot's value remains. -/
def execSt (d base : Code) (size : MemSize) (off : BitVec 7) (m : Mods) (s : State) : Host.Outcome State Fault Refusal :=
  .next (eachLane m (State.stOne d base size off m) s)

/-- The values that a part of a constant line and of memory may give (R126). -/
def constPart (n : Nat) (old new : List Byte) (i : Nat) : Byte :=
  choose n (new.getD i 0) [old.getD i 0, new.getD i 0]

/-- The lines of a constant cache of 64 KiB. -/
def constLines : Nat := 1024

/-- Whether the constant cache keeps the line of a location: HBM of this module under no binding (R200, R202, R349). -/
def State.constCached (s : State) (l : Loc) : Bool :=
  match l with
  | .mem pa => s.isLocal pa
  | _ => false

/-- A read through the constant cache of core `c`; a line that it does not keep is read at its home. -/
def State.constRead (s : State) (c : Nat) (l : Loc) (n seed : Nat) : State × List Byte :=
  let pa := s.paOf l
  if !s.constCached l then (s, s.homeRead pa n)
  else
    match (s.core c).consts.find? (·.pa = lineOf pa) with
    | none =>
        let fresh : ConstLine := { pa := lineOf pa, data := s.homeRead (lineOf pa) 64 }
        (s.modCore c fun x => { x with consts := (fresh :: x.consts).take constLines }, s.homeRead pa n)
    | some x =>
        let old := (List.range n).map fun i => x.data.getD (pa % 64 + i) 0
        let new := s.homeRead pa n
        (s, (List.range n).map fun i =>
          let part := fun (l : List Byte) => (l.drop (i / 4 * 4)).take 4
          if part old = part new then new.getD i 0 else constPart (choiceAt seed 0 (16 + i / 4)) old new i)

/-- LDC in one thread. -/
def State.ldcOne (d base : Code) (size : MemSize) (off : BitVec 7) (s : State) (g : Group) (tid : Nat) : State :=
  s.withThread g tid fun tm th e =>
    let n := sizeBytes size
    let va := effAddr (e.addr th base) off n
    match misaligned va n false with
    | some x => s.trap g tid x
    | none =>
        if inWindow va then s.trap g tid (badAt .scope 1 (BitVec.ofNat 64 va))
        else
          match s.translate (tm.agent tid) va .read with
          | (s, .error x) => s.trap g tid x
          | (s, .ok (l, _)) =>
              let (s, bytes) := s.constRead tm.core l n (e.step * 2 ^ 32 + tid)
              s.results g tid .wl (Out.reg (th.dstMem d bytes)) none

/-- Meaning of LDC. -/
def execLdc (d base : Code) (size : MemSize) (off : BitVec 7) (m : Mods) (s : State) : Host.Outcome State Fault Refusal :=
  .next (eachLane m (State.ldcOne d base size off) s)

/-- STSB in one thread: one indivisible replacement of a byte or nibble at the home. -/
def State.stsbOne (d base : Code) (size : MemSize) (off : BitVec 7) (m : Mods) (s : State) (g : Group) (tid : Nat) : State :=
  s.withThread g tid fun tm th e =>
    let b := e.addr th base
    let x := (e.rd32 th d 8).toNat
    let (va, nib) := if size = .b4 then effNibble b off else (effAddr b off 1, 0)
    let f := fun (old : List Byte) =>
      let o := (old.headD 0).toNat
      some [BitVec.ofNat 8 (if size = .b4 then o - o / 16 ^ nib % 16 * 16 ^ nib + x % 16 * 16 ^ nib else x)]
    match s.memRmw (tm.agent tid) va 1 (syncOf m) true f with
    | (s, .error x) => s.trap g tid x
    | (s, .ok _) => s.ordered g tid m Out.none

/-- Meaning of STSB. -/
def execStsb (d base : Code) (size : MemSize) (off : BitVec 7) (m : Mods) (s : State) : Host.Outcome State Fault Refusal :=
  .next (eachLane m (State.stsbOne d base size off m) s)

/-- PREF in one thread: a line that may be read is brought to the L1, or left at its home. -/
def State.prefOne (base : Code) (l2 : Bool) (off : BitVec 7) (m : Mods) (s : State) (g : Group) (tid : Nat) : State :=
  s.withThread g tid fun tm th e =>
    let ag := tm.agent tid
    let va := effAddr (e.addr th base) off 1
    if inWindow va then s
    else
      match s.translate ag va .read with
      | (s, .error _) => s
      | (s, .ok (l, _)) =>
          if !l2 && s.cacheable ag l (syncOf m).hint then s.fetchLine ag.core (s.paOf l) (tagVa ag.asid va) else s

/-- Meaning of PREF. -/
def execPref (base : Code) (l2 : Bool) (off : BitVec 7) (m : Mods) (s : State) : Host.Outcome State Fault Refusal :=
  .next (eachLane m (State.prefOne base l2 off m) s)

/-! ### Atomics (R129 to R132) -/

/-- Whether an atomic type is a pair. -/
def atomWide (t : AtomTy) : Bool := t == .i64 || t == .n64

/-- Halves of a packed atomic. -/
def halves (f : Nat → Nat → Nat × BitVec 6) (x y : Nat) : Nat × BitVec 6 :=
  let lo := f (x % 65536) (y % 65536)
  let hi := f (x / 65536) (y / 65536)
  (lo.1 + hi.1 * 65536, lo.2 ||| hi.2)

/-- A float or integer operation by type: `fl` on floats, `int` on integers. -/
def byType (t : AtomTy) (fl : Fmt → Nat → Nat → Nat × BitVec 6) (int : Int → Int → Int) (x y : Nat) : Nat × BitVec 6 :=
  match t with
  | .f32 => fl fmtF32 x y
  | .f16x2 => halves (fl fmtF16) x y
  | .bf16x2 => halves (fl fmtBf16) x y
  | .i32 => (wrap 32 (int (sext 32 x) (sext 32 y)), 0)
  | .i64 => (wrap 64 (int (sext 64 x) (sext 64 y)), 0)
  | .n32 => (wrap 32 (int x y), 0)
  | .n64 => (wrap 64 (int x y), 0)

/-- The new value of R129 and the flags of its computation. -/
def atomNew (op : AtomOp) (t : AtomTy) (old x : Nat) : Nat × BitVec 6 :=
  match op with
  | .add => byType t (fun f => f.add FOp.rne) (· + ·) old x
  | .min => byType t (fun f => f.pick false) min old x
  | .max => byType t (fun f => f.pick true) max old x
  | .and => (old &&& x, 0)
  | .or => (old ||| x, 0)
  | .xor => (old ^^^ x, 0)
  | .exch => (x, 0)
  | .inc => (if x ≤ old then 0 else old + 1, 0)

/-- The value that an atomic brings in register d. -/
def Env.atomSrc (e : Env) (th : Thread) (t : AtomTy) (d : Code) : Nat :=
  if atomWide t then (e.rd64 th d 8).toNat else (e.rd32 th d 8).toNat

/-- The old value in its destination: extended in a stream as the type says (R69), free above bit 31 for a type that
R69 does not name (log 22). -/
def Thread.dstAtom (th : Thread) (n : Nat) (t : AtomTy) (d : Code) (old : Nat) : List (Nat × DWord) :=
  match t with
  | .i64 | .n64 => th.dst64 d (BitVec.ofNat 64 old)
  | .i32 => th.dst32 d (BitVec.ofNat 32 old) true
  | .n32 => th.dst32 d (BitVec.ofNat 32 old) false
  | _ => th.dstFree n d (BitVec.ofNat 32 old)

/-- ATOM or ARED in one thread. -/
def State.atomOne (back : Bool) (d a : Code) (t : AtomTy) (op : AtomOp) (m : Mods) (s : State) (g : Group) (tid : Nat) :
    State :=
  s.withThread g tid fun tm th e =>
    let n := if atomWide t then 8 else 4
    let x := e.atomSrc th t d
    match s.memRmw (tm.agent tid) (e.addr th a).toNat n (syncOf m) true
        fun old => some (bytesLE n (atomNew op t (leNat old) x).1) with
    | (s, .error x) => s.trap g tid x
    | (s, .ok old) =>
        let fl := (atomNew op t (leNat old) x).2
        s.ordered g tid m
          { regs := if back then th.dstAtom (choiceAt e.step tid 9) t d (leNat old) else [], preds := [], flags := fl }

/-- Meaning of ATOM. -/
def execAtom (d a : Code) (t : AtomTy) (op : AtomOp) (m : Mods) (s : State) : Host.Outcome State Fault Refusal :=
  .next (eachLane m (State.atomOne true d a t op m) s)

/-- The new value of ACAS: register d + 1, or pair d + 2, which in a stream is one c register (R69, R130). -/
def Env.acasNew (e : Env) (th : Thread) (t : AtomTy) (d : Code) : Nat :=
  if th.ctl && atomWide t then (e.reg th (d.toNat + 2) 12).toNat
  else if atomWide t then (e.rdAt th d 3 13).toNat * 2 ^ 32 + (e.rdAt th d 2 12).toNat
  else (e.rdAt th d 1 12).toNat

/-- ACAS in one thread. -/
def State.acasOne (d a : Code) (t : AtomTy) (m : Mods) (s : State) (g : Group) (tid : Nat) : State :=
  s.withThread g tid fun tm th e =>
    let n := if atomWide t then 8 else 4
    let want := e.atomSrc th t d
    let new := e.acasNew th t d
    match s.memRmw (tm.agent tid) (e.addr th a).toNat n (syncOf m) true
        fun old => if leNat old = want then some (bytesLE n new) else none with
    | (s, .error x) => s.trap g tid x
    | (s, .ok old) => s.ordered g tid m (Out.reg (th.dstAtom (choiceAt e.step tid 9) t d (leNat old)))

/-- Meaning of ACAS. -/
def execAcas (d a : Code) (t : AtomTy) (m : Mods) (s : State) : Host.Outcome State Fault Refusal :=
  .next (eachLane m (State.acasOne d a t m) s)

/-- Meaning of ARED. -/
def execAred (d a : Code) (t : AtomTy) (op : AtomOp) (m : Mods) (s : State) : Host.Outcome State Fault Refusal :=
  .next (eachLane m (State.atomOne false d a t op m) s)

/-! ### Fences and guards (R133 to R135) -/

/-- The order of a fence by an agent, outside any guard. -/
def State.fence (s : State) (ag : Agent) (y : Sync) : State :=
  let s := if y.order.releases then s.release ag y.scope none else s
  if y.order.acquires then s.acquire ag y.scope none else s

/-- Meaning of FENCE. -/
def execFence (m : Mods) (s : State) : Host.Outcome State Fault Refusal :=
  .next (eachLane m (fun s g tid => s.withThread g tid fun tm _ _ =>
    (s.fence (tm.agent tid) (syncOf m)).ordered g tid m Out.none) s)

/-- Sets entry `e` of a word of the guard table, or empties the word; a word with no entry leaves the table. -/
def setGuard (addr : Nat) (clr : Bool) (e : Nat) (lo hi : Nat) (l : List GuardWord) : List GuardWord :=
  let old := ((l.find? (·.addr = addr)).map (·.entries)).getD (List.replicate 4 (0, 0))
  let new := if clr then List.replicate 4 (0, 0) else old.set e (if lo < hi then (lo, hi) else (0, 0))
  let rest := l.filter (·.addr ≠ addr)
  if new.all fun x => x.1 == x.2 then rest else { addr := addr, entries := new } :: rest

/-- GUARD in one thread. -/
def State.guardOne (d a b : Code) (clr : Bool) (k : BitVec 2) (s : State) (g : Group) (tid : Nat) : State :=
  s.withThread g tid fun tm th e =>
    let va := (e.addr th a).toNat
    let lo := if clr then 0 else (e.rd64 th b 2).toNat
    let len := if clr then 0 else (e.rd32 th d 4).toNat
    match misaligned va 4 false with
    | some x => s.trap g tid x
    | none =>
        match s.place (tm.agent tid) va 4 .read with
        | (s, .error x) => s.trap g tid x
        | (s, .ok _) =>
            if len ≠ 0 ∧ tm.guards.length = 8 ∧ tm.guards.all (·.addr ≠ va) then
              s.trap g tid (badAt .scope 2 (BitVec.ofNat 64 va))
            else s.modTeam tm.id fun tm => { tm with guards := setGuard va clr k.toNat lo (lo + len) tm.guards }

/-- Meaning of GUARD. -/
def execGuard (d a b : Code) (clr : Bool) (e : BitVec 2) (m : Mods) (s : State) : Host.Outcome State Fault Refusal :=
  .next (eachLane m (State.guardOne d a b clr e) s)

end Sys2Proof.Machine
end

