-- ==== Sys2Proof/Machine/Place.lean ====
section
/-!
DEFINITION. Task records and kernel descriptors (R25 to R29), what a core can hold (R35 to R37), deques (R295), starting
a team, save slots, and saving and restoring a team (R46 to R48, R338 to R340).
-/

namespace Sys2Proof.Machine

/-! ### Records in memory -/

/-- A little-endian field of a record. -/
def fieldAt (b : List Byte) (off n : Nat) : Nat := leNat ((b.drop off).take n)

/-- A task record with the owner that the K8 writes and the haul field zeroed (R25, R27). -/
def taskOf (b : List Byte) (owner : Word) (addr : DWord) (order : Nat) : Task :=
  { kernel := BitVec.ofNat 64 (fieldAt b 0 8), arg := BitVec.ofNat 64 (fieldAt b 8 8), x := BitVec.ofNat 32 (fieldAt b 16 4)
    y := BitVec.ofNat 32 (fieldAt b 20 4), z := BitVec.ofNat 32 (fieldAt b 24 4), flags := BitVec.ofNat 32 (fieldAt b 28 4)
    join := BitVec.ofNat 64 (fieldAt b 32 8), haul := 0, owner := owner, deadline := BitVec.ofNat 32 (fieldAt b 52 4)
    addr := addr, order := order, launch := none, landing := none, ldesc := 0, set := none, clus := 0 }

/-- The zero bits of a flags word (R26). -/
def flagsOk (f : Word) : Bool := f &&& 0xFFFC00FC#32 == 0

/-- Whether the bytes of a task record keep R25 and R26. -/
def taskBytesOk (b : List Byte) : Bool :=
  fieldAt b 0 8 % 64 == 0 && flagsOk (BitVec.ofNat 32 (fieldAt b 28 4)) && fieldAt b 56 8 == 0

/-- PRIO of a task. -/
def Task.prio (t : Task) : Nat := (t.flags.extractLsb' 0 2).toNat
/-- STAGE of a task. -/
def Task.stage (t : Task) : Nat := (t.flags.extractLsb' 8 8).toNat
/-- CBOUND of a task. -/
def Task.cbound (t : Task) : Bool := t.flags.getLsbD 16
/-- FUSE of a task. -/
def Task.fuse (t : Task) : Bool := t.flags.getLsbD 17

/-- A kernel descriptor (R29). -/
def kernelOf (b : List Byte) : Kernel :=
  { threads := fieldAt b 0 2, vregs := fieldAt b 2 1, kregs := fieldAt b 3 1, scratch := fieldAt b 4 4
    bars := fieldAt b 8 1, lands := fieldAt b 9 1, sup := fieldAt b 10 2 % 2 == 1, control := fieldAt b 12 4
    handler := fieldAt b 16 4 }

/-- Whether the bytes of a kernel descriptor keep R29. -/
def kernelBytesOk (b : List Byte) : Bool :=
  let k := kernelOf b
  let entry := fun o => o == 0 || (o % 4 == 0 && 64 ≤ o)
  1 ≤ k.threads && k.threads ≤ 1024 && 1 ≤ k.vregs && k.vregs ≤ 96 && k.kregs ≤ 31 && k.scratch ≤ 1441792 && k.bars ≤ 16
    && k.lands ≤ 8 && fieldAt b 10 2 ≤ 1 && entry k.control && entry k.handler && (b.drop 20).all (· == 0)

/-- The kernel descriptor at an address of an owner's address space, if it is there and keeps R29. -/
def State.kernelAt (s : State) (owner : Word) (addr : DWord) : Option Kernel :=
  match s.homeAddr (ownerId owner) (ownerAsid owner) addr.toNat false with
  | some pa =>
      let b := s.homeRead pa 64
      if addr.toNat % 64 = 0 ∧ kernelBytesOk b then some (kernelOf b) else none
  | none => none

/-- The kernel that a task may run (R28, R29). -/
def State.taskKernel (s : State) (t : Task) : Option Kernel :=
  (s.kernelAt t.owner t.kernel).filter fun k => !k.sup || ownerSup t.owner

/-- The K8 reads the kernel descriptor that a task names, which sets A of its leaf (R344). -/
def State.seenKernel (s : State) (t : Task) : State := s.touched (ownerId t.owner) (ownerAsid t.owner) t.kernel.toNat false

/-- Posts TASKREC for a task (R28). -/
def State.raiseTaskRec (s : State) (t : Task) : State := s.raiseTask .taskrec 0 t.owner t.addr t.kernel 0 0

/-! ### What a core holds (R35 to R37, R144) -/

/-- The sum of two loads. -/
def Load.add (a b : Load) : Load :=
  { teams := a.teams + b.teams, threads := a.threads + b.threads, granules := a.granules + b.granules
    bars := a.bars + b.bars, lands := a.lands + b.lands }

/-- Whole granules of 4 KiB. -/
def granules (n : Nat) : Nat := (n + 4095) / 4096

/-- What a team with some register count and scratchpad takes (R36). -/
def loadOf (threads vregs scratch bars lands : Nat) : Load :=
  { teams := 1, threads := threads, granules := granules (threads * vregs * 4) + granules scratch, bars := bars, lands := lands }

/-- What a team of a kernel takes. -/
def Kernel.load (k : Kernel) : Load := loadOf k.threads k.vregs k.scratch k.bars k.lands

/-- What a team takes with the carve-out in force. -/
def Team.load (t : Team) : Load := loadOf t.kern.threads t.vregs t.scratch t.kern.bars t.kern.lands

/-- Granules that core landings take on a core. -/
def State.landingGranules (s : State) (c : Nat) : Nat :=
  s.landings.foldl (fun n l => if !l.l2 && l.home == c then n + granules (l.slots * 64) else n) 0

/-- The larger of two loads, field by field. -/
def Load.sup (a b : Load) : Load :=
  { teams := max a.teams b.teams, threads := max a.threads b.threads, granules := max a.granules b.granules
    bars := max a.bars b.bars, lands := max a.lands b.lands }

/-- Whether a team stands in a floor reservation (R246). -/
def Floor.covers (f : Floor) (t : Team) : Bool :=
  t.floor && t.core == f.core && ownerId t.task.owner == f.tenant && t.task.stage == f.stage

/-- Whether a resident team takes room of its core by itself: it stands in no floor reservation. -/
def State.ownRoom (s : State) (t : Team) : Bool := t.resident && !(s.floors.any fun f => f.covers t)

/-- What a floor reservation takes of its core: its need, or what the team in it has grown to. -/
def State.floorLoad (s : State) (f : Floor) : Load :=
  s.teams.foldl (fun l t => if t.resident && f.covers t then l.sup t.load else l) f.need

/-- Whether a fatal cause of a team's owner waits to be acted on: its save has failed, and it is not saved again (R338). -/
def State.doomed (s : State) (t : Team) : Bool :=
  s.fatals.any fun f => f.sup == t.sup && (f.sup || f.tenant == t.tenant)

/-- Whether a team is a victim whose room can be claimed (R47). -/
def State.claimable (s : State) (t : Team) : Bool := t.state == .victim && !s.doomed t

/-- What core `c` holds; with `claim`, what it would hold after every victim's granules were claimed. -/
def State.usage (s : State) (c : Nat) (claim : Bool) : Load :=
  let ts := (s.teamsOn c).filter fun t => s.ownRoom t && !(claim && s.claimable t)
  let fs := s.floors.filter (·.core = c)
  let z : Load := { teams := 0, threads := 0, granules := s.landingGranules c, bars := 0, lands := 0 }
  fs.foldl (fun l f => l.add (s.floorLoad f)) (ts.foldl (fun l t => l.add t.load) z)

/-- Whether a load keeps the limits of R35. -/
def Load.ok (l : Load) : Bool :=
  l.teams ≤ 16 && l.threads ≤ 2048 && l.granules ≤ 352 && l.bars ≤ 128 && l.lands ≤ 64

/-- Stream contexts in use on the cluster of core `c`: of the floor reservations that hold one, and of the resident teams that stand
in none of them; with `claim`, those left once every victim of that core were saved. -/
def State.streamsOn (s : State) (c : Nat) (claim : Bool) : Nat :=
  (s.teams.filter fun t => clusOf t.core = clusOf c && t.hasStream && t.resident
      && !(s.floors.any fun f => f.covers t && f.control) && !(claim && t.core == c && s.claimable t)).length
    + (s.floors.filter fun f => clusOf f.core = clusOf c && f.control).length

/-- Whether the four cores of a cluster hold no team. -/
def State.clusterEmpty (s : State) (cl : Nat) : Bool := s.teams.all fun t => !(clusOf t.core == cl && t.resident)

/-- Whether a core has room for a load, and its cluster for a stream where it has one (R35). -/
def State.roomOn (s : State) (c : Nat) (l : Load) (stream claim : Bool) : Bool :=
  ((s.usage c claim).add l).ok && (!stream || s.streamsOn c claim < 16)

/-- Whether a task of a cluster set may stand on a core: the core slot of its place in the set, on the set's cluster (R45). -/
def Task.setOk (t : Task) (c : Nat) : Bool :=
  match t.set with
  | none => true
  | some (_, k) => c % 4 == k && clusOf c == t.clus

/-- Whether a core is free: a team of one thread and one granule would have room on it. The manual does not say what a free core is;
the model reads it so (log 101). -/
def State.coreFree (s : State) (c : Nat) : Bool :=
  ((s.usage c true).add { teams := 1, threads := 1, granules := 1, bars := 0, lands := 0 }).ok && (s.die (dieOfCore c)).state == .up

/-! ### Deadlines and ranks (R292) -/

/-- CLOCK bits 41:10. -/
def State.unit (s : State) : Nat := s.clock / 1024 % 2 ^ 32

/-- Units until a deadline, 0 once it has come. -/
def untilDue (deadline : Word) (unit : Nat) : Nat :=
  let u := (deadline.toNat + 2 ^ 32 - unit) % 2 ^ 32
  if u < 2 ^ 31 then u else 0

/-- A launch that is late is counted once (R292), and its tenant's vector 1 fires. -/
def State.countLate (s : State) (launch : Nat) : State :=
  match s.launches.find? (·.id = launch) with
  | some l =>
      if !l.late && l.deadline != 0 && untilDue l.deadline s.unit == 0 then
        let s := { s with launches := s.launches.map fun (x : Launch) => if x.id = launch then { x with late := true } else x }
        let s := s.modTenant l.tenant fun t => { t with late := t.late + 1 }
        if l.tenant = rtWindow then s else s.reply (.vector (l.tenant + 1) 1)
      else s
  | none => s

/-- WCLASS of a tenant. -/
def Tenant.wclass (t : Tenant) : Nat := (t.ctrl.extractLsb' 0 3).toNat

/-- The rank of a launch at a cycle (R292). -/
def State.rankAt (s : State) (l : Launch) (clock : Nat) : Nat :=
  let t := s.tenant l.tenant
  let e := t.rank.getD (l.flags.extractLsb' 0 2).toNat rankReset
  let step := let a := (e.extractLsb' 24 8).toNat; if a = 0 then 1 else a
  let slack := if !e.getLsbD 19 || l.deadline == 0 then 0xFFFFF
    else min (untilDue l.deadline (clock / 1024 % 2 ^ 32) / 2 ^ (e.extractLsb' 20 4).toNat) 0xFFFFF
  let wait := clock - l.readyAt.getD clock
  t.wclass * 2 ^ 29 + (e.extractLsb' 0 9).toNat * 2 ^ 20 + slack - step * 2 ^ 20 * (wait / 65536)

/-- The rank of a launch now. -/
def State.rankOf (s : State) (l : Launch) : Nat := s.rankAt l s.clock

/-- The clock moves on to a cycle; while a launch is active, the last cycle in which no core was free is kept (R293), and so is
since when an active launch has had rank 0 (R301); invalidations that were to arrive by now have arrived (R182, R186). -/
def State.passTo (s : State) (clock : Nat) : State :=
  let full := s.launches.any (·.active) && !(List.range 512).any s.coreFree
  let s := { s with
    clock := clock, fullAt := if full then clock else s.fullAt
    launches := s.launches.map fun (l : Launch) =>
      { l with zeroAt := if l.active && s.rankAt l clock == 0 then some (l.zeroAt.getD clock) else none } }
  if s.stamps.any fun x => x.stale.any (·.due ≤ clock) then s.dropCopies fun x => x.stale.any (·.due ≤ clock) else s

/-- Whether a byte that a team's release needs is dirty in an L1, of its core or of one it was saved on, while its home is out of
service (R361). -/
def State.dirtyDown (s : State) (tm : Team) : Bool :=
  s.cores.any fun c => c.lines.any fun x => !s.homeUp x.pa && x.dirty.any (·.before tm.id)

/-- Whether a stopped team has room on a core as it is, in its floor reservation where it has one; with `claim`, once every other
victim of the core were saved (R35, R246, R340). -/
def State.takesBack (s : State) (t : Team) (c : Nat) (claim : Bool) : Bool :=
  let s' := s.modTeam t.id fun x => { x with core := c, state := .run }
  (s'.usage c claim).ok && s'.streamsOn c claim ≤ 16

/-- Whether a task of a kernel fits on a core (R35). -/
def State.fits (s : State) (c : Nat) (t : Task) (k : Kernel) (claim : Bool) : Bool :=
  s.roomOn c k.load (k.control != 0) claim
    && (!t.fuse || (s.cluster (clusOf c)).fused || s.clusterEmpty (clusOf c)) && t.setOk c
    && (s.die (dieOfCore c)).state == .up

/-- The members of a team's cluster set, or the team itself (R45). -/
def State.setOf (s : State) (tm : Team) : List Team :=
  match tm.task.set with
  | some (id, _) => s.teams.filter fun t => t.task.set.map (·.1) = some id
  | none => [tm]

/-- The cluster on which a set stands from now on: its members, its queued tasks and the launch that generates it (R45). -/
def State.moveSet (s : State) (id cl : Nat) : State :=
  let go := fun (t : Task) => if t.set.map (·.1) = some id then { t with clus := cl } else t
  { s with
    teams := s.teams.map fun t => { t with task := go t.task }
    clusters := s.clusters.map fun (c : Cluster) => { c with deque := c.deque.map go }
    tenants := s.tenants.map fun (x : Tenant) => { x with spilled := x.spilled.map fun y => { y with task := go y.task } }
    launches := s.launches.map fun (l : Launch) =>
      { l with set := l.set.map fun x => if x.1 = id then (x.1, cl, x.2.2) else x
               offer := l.offer.map fun x => if x.2.set.map (·.1) = some id then (cl, go x.2) else x } }

/-! ### The L1 beside the carve-outs (R35, R36) -/

/-- The lines that the L1 part of a core's array of 384 granules holds: 64 to a granule. -/
def State.l1Room (s : State) (c : Nat) : Nat := (384 - (s.usage c false).granules) * 64

/-- An L1 that has outgrown its part of the array loses the lines it has held longest, whose dirty bytes are written back;
which lines leave is the model's choice (log 11). -/
def State.trimL1 (s : State) (c : Nat) : State :=
  let n := (s.core c).lines.length - s.l1Room c
  if n = 0 then s
  else
    let gone := ((s.core c).lines.take n).map (·.pa)
    let s := gone.foldl (fun s pa => s.writeBackLine c pa fun _ => true) s
    s.modCore c fun x => { x with lines := x.lines.filter fun l => !(gone.contains l.pa && l.dirty.isEmpty) }

/-! ### Deques (R295) -/

/-- The bytes of a task record. -/
def Task.bytes (t : Task) : List Byte :=
  bytesLE 8 t.kernel.toNat ++ bytesLE 8 t.arg.toNat ++ bytesLE 4 t.x.toNat ++ bytesLE 4 t.y.toNat ++ bytesLE 4 t.z.toNat
    ++ bytesLE 4 t.flags.toNat ++ bytesLE 8 t.join.toNat ++ bytesLE 8 t.haul.toNat ++ bytesLE 4 t.owner.toNat
    ++ bytesLE 4 t.deadline.toNat ++ bytesLE 8 0

/-- The address of a place in a tenant's spill area. -/
def Tenant.spillAt (t : Tenant) (place : Nat) : Nat := t.spill.toNat + 64 * place

/-- Puts a record at the lowest free place of its tenant's spill area, where one is left (R295). SPILL is a physical address, as the
model reads it (log 125). -/
def State.spillTask (s : State) (cl : Nat) (t : Task) : Option State :=
  let id := ownerId t.owner
  let tn := s.tenant id
  if tn.spilled.length < tn.spilln.toNat then
    let n := ((List.range (tn.spilled.length + 1)).find? fun n => tn.spilled.all (·.place ≠ n)).getD 0
    some ((s.agentWrite (tn.spillAt n) t.bytes).modTenant id fun x =>
      { x with spilled := x.spilled ++ [{ cluster := cl, place := n, task := t }] })
  else none

/-- A spilled record as its bytes in the spill area have it; its owner word and the sequence number of its haul, which no program
may forge, stay those under which it was pushed (R27). -/
def State.spilledTask (s : State) (x : Spilled) : Task :=
  let b := s.homeRead ((s.tenant (ownerId x.task.owner)).spillAt x.place) 64
  { x.task with
    kernel := BitVec.ofNat 64 (fieldAt b 0 8), arg := BitVec.ofNat 64 (fieldAt b 8 8), x := BitVec.ofNat 32 (fieldAt b 16 4)
    y := BitVec.ofNat 32 (fieldAt b 20 4), z := BitVec.ofNat 32 (fieldAt b 24 4), flags := BitVec.ofNat 32 (fieldAt b 28 4)
    join := BitVec.ofNat 64 (fieldAt b 32 8)
    deadline := BitVec.ofNat 32 (fieldAt b 52 4) }

/-- Pushes a record to the deque of a cluster, or to its tenant's spill area. -/
def State.pushTask (s : State) (cl : Nat) (t : Task) : State :=
  let (n, s) := s.newId
  let t := { t with order := n }
  if (s.cluster cl).deque.length < 1024 then s.modCluster cl fun x => { x with deque := x.deque ++ [t] }
  else (s.spillTask cl t).getD (s.raiseTask .dequefull 0 t.owner (BitVec.ofNat 64 cl) t.kernel 0 0)

/-- The K8 reads the kernel descriptor of a record whose bytes it has found right (R28, R344). -/
def State.seenTask (s : State) (bytes : List Byte) (t : Task) : State := if taskBytesOk bytes then s.seenKernel t else s

/-- Whether a record makes a task, its bytes and its kernel being right (R28). -/
def State.goodTask (s : State) (bytes : List Byte) (t : Task) : Bool := taskBytesOk bytes && (s.taskKernel t).isSome

/-- A task is pushed where its record, whose kernel has been read, is good; TASKREC is posted otherwise (R28, R30). -/
def State.putTask (s : State) (cl : Nat) (bytes : List Byte) (t : Task) : State :=
  if s.goodTask bytes t then s.pushTask cl t else s.raiseTaskRec t

/-- Creates a task on the device from a record (R28, R30): it is pushed, or TASKREC is posted. -/
def State.createTask (s : State) (cl : Nat) (bytes : List Byte) (t : Task) : State := (s.seenTask bytes t).putTask cl bytes t

/-! ### Save slots (R338, R339) -/

/-- Size of a save slot. -/
def slotBytes (threads gran : Nat) : Nat := granules (16384 + 256 * threads + 4096 * gran) * 4096

/-- The save slots of a tenant's pool in use. -/
def State.slotsOf (s : State) (tenant : Nat) : List (Nat × Nat) :=
  s.teams.filterMap fun t => if ownerId t.task.owner = tenant then some (t.slotOff, t.slotLen) else none

/-- A free place in a pool of some bytes, the lowest one. -/
def findSlot (bytes len : Nat) (used : List (Nat × Nat)) : Option Nat :=
  ((0 :: used.map fun u => u.1 + u.2).filter fun o =>
    o + len ≤ bytes && used.all fun u => o + len ≤ u.1 || u.1 + u.2 ≤ o).foldl
    (fun m o => match m with | none => some o | some x => some (min x o)) none

/-- What the save pool says to a team's slot: it fits at an offset, it must wait, or it can never fit. -/
inductive SlotAnswer where
  | fits (off : Nat)
  | waits
  | never
  deriving DecidableEq, Repr

/-- Reserves a slot for a team of a tenant (R338); a supervisor task has no pool (log 23). -/
def State.askSlot (s : State) (owner : Word) (len : Nat) (used : List (Nat × Nat)) : SlotAnswer :=
  if ownerSup owner then .fits 0
  else
    let bytes := (s.tenant (ownerTenant owner)).savebytes.toNat
    if bytes < len then .never
    else match findSlot bytes len used with | some o => .fits o | none => .waits

/-- Address of a team's save slot. -/
def State.slotAddr (s : State) (t : Team) : Nat := (s.tenant (ownerTenant t.task.owner)).savepool.toNat + t.slotOff

/-- The physical address of a byte of a team's slot, if R128 lets the K8 read or write it. -/
def State.slotPa (s : State) (t : Team) (va : Nat) (write : Bool) : Option Nat :=
  match s.walk (ownerId t.task.owner) t.asid va with
  | .ok e =>
      match s.checkLeaf (ownerId t.task.owner) t.asid va t.sup (if write then .write else .read) e with
      | .ok l => some (s.paOf l)
      | .error _ => none
  | .error _ => none

/-- Writes bytes of a slot at an address, page by page; the first failing address if R128 fails. -/
def State.slotStore (s : State) (t : Team) : Nat → Nat → List Byte → Except Nat State
  | 0, _, _ => .ok s
  | fuel + 1, va, bytes =>
      if bytes.isEmpty then .ok s
      else
        let n := 4096 - va % 4096
        match s.slotPa t va true with
        | none => .error va
        | some pa =>
            ((s.touched (ownerId t.task.owner) t.asid va true).agentWrite pa (bytes.take n)).slotStore t fuel (va + n) (bytes.drop n)

/-- Reads bytes of a slot from an address, page by page; the first failing address if R128 fails. -/
def State.slotLoad (s : State) (t : Team) : Nat → Nat → Nat → State × Except Nat (List Byte)
  | 0, _, _ => (s, .ok [])
  | fuel + 1, va, n =>
      if n = 0 then (s, .ok [])
      else
        let k := min n (4096 - va % 4096)
        match s.slotPa t va false with
        | none => (s, .error va)
        | some pa =>
            let own := s.homeRead pa k
            match (s.touched (ownerId t.task.owner) t.asid va false).slotLoad t fuel (va + k) (n - k) with
            | (s, .error x) => (s, .error x)
            | (s, .ok rest) => (s, .ok (own ++ rest))

/-- STATE of a slot (R339). -/
def Team.slotState (t : Team) : Nat :=
  (match t.state with | .run | .halt => 0 | .victim => 1 | .saved => 2) + t.susp.toNat * 4

/-- Refreshes STATE in a team's slot. -/
def State.refreshSlot (s : State) (id : Nat) : State :=
  match s.team? id with
  | some t =>
      if t.sup then s
      else match s.slotStore t 2 (s.slotAddr t + 8) (bytesLE 4 t.slotState) with | .ok s => s | .error _ => s
  | none => s

/-- Changes the state of a team and its slot's STATE. -/
def State.setTeamState (s : State) (id : Nat) (f : Team → Team) : State := (s.modTeam id f).refreshSlot id

/-- The bytes of the images of a save, in the K8's own format: free bytes (log 17). -/
def imageBytes (number n : Nat) : List Byte := (List.range n).map fun i => Config.freeByte (number * 2 ^ 24 + i)

/-- What the images of a save hold. -/
def Team.image (t : Team) (number : Nat) : Image :=
  { number := number, threads := t.threads, k := t.k, bars := t.bars, handles := t.handles, guards := t.guards, rings := t.rings
    mem := t.mem, vregs := t.vregs, scratch := t.scratch }

/-- A team as an image has it. -/
def Team.fromImage (t : Team) (x : Image) : Team :=
  { t with threads := x.threads.map fun h => { h with pend := [] }, k := x.k, kold := [], bars := x.bars, handles := x.handles, guards := x.guards, rings := x.rings, mem := x.mem
           vregs := x.vregs, scratch := x.scratch }

/-- The header of a save slot from offset 8 and the images behind it (R339). -/
def State.slotImage (s : State) (t : Team) : List Byte :=
  bytesLE 4 t.slotState ++ bytesLE 4 t.task.owner.toNat ++ t.task.bytes ++ bytesLE 4 t.core ++ bytesLE 4 t.kern.threads
    ++ bytesLE 4 t.vregs ++ bytesLE 4 t.scratch ++ bytesLE 8 s.clock ++ imageBytes s.fresh (t.slotLen - 104)

/-- Raises SAVEFAIL for a team's save area (R338). -/
def State.saveFail (s : State) (t : Team) (va : Nat) : State :=
  s.raiseTask .savefail 0 t.task.owner (BitVec.ofNat 64 va) t.task.kernel t.core t.slot

/-- Saves a victim (R340): its writes are performed, and with them those of its core's other teams, which it may have read (R183);
its slot, then its granules and team slot are free. Where the save fails, the team stays as it is until its tenant stops. -/
def State.saveTeam (s : State) (id : Nat) : State :=
  match s.team? id with
  | some t =>
      if s.claimable t then
        let s := (s.flushCore t.core).settleFor id
        let n := s.fresh
        let t := { t with state := .saved }
        if t.sup then { s.modTeam id fun x => { x with state := .saved } with fresh := n + 1 }
        else
          match s.slotStore t (t.slotLen / 4096 + 2) (s.slotAddr t + 8) (s.slotImage t) with
          | .ok s =>
              let s := s.modTeam id fun x => { x with state := .saved, images := x.image n :: x.images }
              { s with fresh := n + 1, archive := (s.team? id).toList ++ s.archive }
          | .error va => s.saveFail t va
      else s
  | none => s

/-- Saves victims of a core other than team `keep`, one after another, until a test holds (R47). Which of them is saved first
is the model's choice (log 90): the first in the list of teams. -/
def State.claim (c keep : Nat) (ok : State → Bool) : Nat → State → State
  | 0, s => s
  | fuel + 1, s =>
      if ok s then s
      else match (s.teamsOn c).find? fun t => s.claimable t && t.id != keep with
        | some t => (s.saveTeam t.id).claim c keep ok fuel
        | none => s

/-! ### Starting a team (R35, R37, R38, R31) -/

/-- A thread at task start (R68, R71). -/
def Thread.start (tid : Nat) (ctl : Bool) (vregs pc clock : Nat) : Thread :=
  { tid := tid, ctl := ctl, v := List.replicate (if ctl then 0 else vregs) 0, c := List.replicate (if ctl then 32 else 0) 0
    p := 0, flags := 0, rm := .rne, fault := 0, faddr := 0, fpc := 0, handler := false, pc := pc, word := 0, stack := []
    marks := [], dropped := [], arrivals := [], waitAt := none, exempt := false, pend := [], age := clock, yielded := false, refile := false, status := .ready }

/-- A team at task start. -/
def Team.start (id core slot : Nat) (t : Task) (k : Kernel) (clock off len : Nat) (floor : Bool) : Team :=
  let pc := (t.kernel.toNat + 64) % 2 ^ 48
  let members := k.threads + (if k.control = 0 then 0 else 1)
  { id := id, core := core, slot := slot, task := t, kern := k, vregs := k.vregs, scratch := k.scratch
    threads := (List.range k.threads).map (fun i => Thread.start i false k.vregs pc clock) ++
      (if k.control = 0 then [] else [Thread.start tidCtl true 0 ((t.kernel.toNat + k.control) % 2 ^ 48) clock])
    k := List.replicate 31 0, kold := [], bars := List.replicate k.bars (Barrier.start members), handles := List.replicate k.lands none
    guards := [], rings := List.replicate 4 { state := .unloaded, values := [], job := 0 }, mem := [], state := .run
    susp := false, record := none, recordTid := 0, posted := false, postAt := 0, faultAt := 0, verdict := 0, since := clock, slotOff := off
    slotLen := len, cell := none, floor := floor, retired := false, stopped := false, images := [] }

/-- The lowest free team slot of a core. -/
def State.freeSlot (s : State) (c : Nat) : Nat :=
  ((List.range 16).find? fun n => (s.teamsOn c).all (·.slot ≠ n)).getD 0

/-- Writes back and empties the L1 of a core; a dirty byte whose home is out of service stays (R361). -/
def State.emptyL1 (s : State) (c : Nat) : State := (s.flushCore c).modCore c fun x => { x with lines := x.cleared }

/-- Sets the L1 mode of a cluster at a placement on it (R37). -/
def State.setMode (s : State) (cl : Nat) (fuse : Bool) : State :=
  if s.clusterEmpty cl ∧ (s.cluster cl).fused ≠ fuse then
    ([0, 1, 2, 3].foldl (fun s i => s.emptyL1 (4 * cl + i)) s).modCluster cl fun x => { x with fused := fuse }
  else s

/-- A core leaves retention sleep: its L1 and L1 TLB are kept unless its die's epoch changed meanwhile (R198). -/
def State.wakeCore (s : State) (c : Nat) : State :=
  match (s.core c).asleep with
  | some e =>
      if e = (s.die (dieOfCore c)).epoch then s.modCore c fun x => { x with asleep := none }
      else s.modCore c fun x => { x with asleep := none, lines := x.cleared, ctime := 1 }
  | none => s

/-- A thread that is to be filed stands in no bin of a core it has left. -/
def Thread.unfile (h : Thread) : Thread :=
  match h.status with
  | .bin _ | .spill | .held _ => { h with status := .ready }
  | _ => h

/-- Files every thread of a team that is neither blocked nor parked nor trapped (R39). -/
def State.fileTeam (s : State) (id : Nat) : State :=
  match s.team? id with
  | some t =>
      let ready := (t.threads.filter fun h => h.unfile.status == .ready).map (·.tid)
      ready.foldl (fun s tid => s.file id tid) (s.modTeam id fun x => { x with threads := x.threads.map Thread.unfile })
  | none => s

/-- What a placement does to its core and cluster before the first clause issues (R37, R198, R35). -/
def State.occupy (s : State) (c : Nat) (fuse : Bool) : State := (s.wakeCore c).setMode (clusOf c) fuse

/-- A team of a tenant has come to a core: the core's acquire at dom scope (R31, R199), and the L1's share of the array. -/
def State.arrived (s : State) (owner : Word) (c : Nat) : State :=
  ((s.modTenant (ownerId owner) fun x => { x with ranOn := (dieOfCore c :: x.ranOn).dedup }).acquireCore c).trimL1 c

/-- Places a task on a core that it fits, with a reserved save slot; victims are claimed where it needs their room. The task
leaves its queue by `take`; where a claim has failed and the room is not there, nothing is placed. -/
def State.startTeam (s : State) (c : Nat) (t : Task) (k : Kernel) (off : Nat) (floor : Bool) (take : State → State) : State :=
  let room := fun (s : State) => floor || s.fits c t k false
  let s := State.claim c s.ids room 17 s
  if !room s then s
  else
    let s := (take s).occupy c t.fuse
    let (id, s) := s.newId
    let (n, s) := s.newId
    let t := if t.cbound ∧ t.set = none then { t with set := some (n, c % 4), clus := clusOf c } else t
    let tm := Team.start id c (s.freeSlot c) t k s.clock off (slotBytes k.threads k.load.granules) floor
    let tm := { tm with threads := tm.threads.map fun h => { h with status := if h.ctl then .ready else .exited } }
    let s := { s with teams := s.teams ++ [tm] }
    let s := ((List.range k.threads).foldl (fun s i =>
      (s.modThread id i fun h => { h with status := .ready }).file id i) s).refreshSlot id
    s.arrived t.owner c

/-! ### Restoring a team (R340) -/

/-- A team's contexts as its slot has them: of the save whose images lie there (R339, R340, R369); those of its last save have
taken what arrived since (R221, R334). -/
def State.reloadTeam (s : State) (id : Nat) (bytes : List Byte) : State :=
  s.modTeam id fun t =>
    match t.images with
    | [] => t
    | last :: older =>
        if bytes == imageBytes last.number (t.slotLen - 104) then t
        else match older.find? fun x => bytes == imageBytes x.number (t.slotLen - 104) with
          | some x => t.fromImage x
          | none => t

/-- Whether a save slot holds what a save of a team left there: STATE SAVED, and the images of that save (R339). -/
def State.slotHolds (s : State) (t : Team) : Bool :=
  (match (s.slotLoad t 2 (s.slotAddr t + 8) 4).2 with | .ok b => leNat b % 4 == 2 | .error _ => false)
    && match t.images, (s.slotLoad t (t.slotLen / 4096 + 2) (s.slotAddr t + 104) (t.slotLen - 104)).2 with
      | x :: _, .ok b => b == imageBytes x.number (t.slotLen - 104)
      | _, _ => false

/-- A team that its slot alone still holds, under a new number: what it had of launches and landings that are gone is gone. -/
def State.revived (s : State) (id : Nat) (t : Team) : Team :=
  { t with
    id := id, state := .saved, stopped := false, images := [], mem := t.mem.foldl (fun m c => cellSet c.1 c.2 m) []
    task := { t.task with launch := t.task.launch.filter fun l => s.launches.any (·.id = l) }
    threads := t.threads.map fun h => { h with pend := [] }
    handles := t.handles.map fun h => h.filter fun x => s.landings.any (·.id = x.landing) }

/-- The teams of an owner number that stand in its save slots and nowhere else, as after a checkpoint was copied back, are saved teams
again (R369, log 109). -/
def State.revive (s : State) (owner : Nat) : State :=
  (s.archive.filter fun t => ownerId t.task.owner = owner).foldl (fun s t =>
    let free := (s.slotsOf owner).all fun u => t.slotOff + t.slotLen ≤ u.1 || u.1 + u.2 ≤ t.slotOff
    if free && s.slotHolds t then
      let (id, s) := s.newId
      { s with teams := s.teams ++ [s.revived id t] }
    else s) s

/-- The team's accepted engine commands go to its new place (R316). -/
def State.redirect (s : State) (id c : Nat) : State :=
  { s with cmds := s.cmds.map fun (x : EngCmd) => if x.team = id then { x with core := c } else x }

/-- A saved team stands on a core again: its carve-out, its images, the acquire, its engine commands (R340). No copy on the die is
older than what the team has read or written elsewhere (R183). -/
def State.bringBack (s : State) (t : Team) (c : Nat) : State :=
  let room := fun (s : State) => s.takesBack t c false
  let s := State.claim c t.id room 17 s
  if !room s then s
  else
    let load := if t.sup then (s, .ok []) else s.slotLoad t (t.slotLen / 4096 + 2) (s.slotAddr t + 104) (t.slotLen - 104)
    match load with
    | (s, .error va) => s.saveFail t va
    | (s, .ok bytes) =>
        let s := (if t.sup then s else s.reloadTeam t.id bytes).occupy c t.task.fuse
        let n := s.freeSlot c
        let s := s.modTeam t.id fun x => { x with core := c, slot := n, state := .run, floor := x.floor && x.core == c }
        ((((s.refreshSlot t.id).arrived t.task.owner c).settleDie (dieOfCore c)).redirect t.id c).fileTeam t.id

/-- A victim or a saved team runs again on a core. A victim that resumes on its own core does so without a copy, once there is
room for it as it is; elsewhere it is saved first. -/
def State.restoreTeam (s : State) (id c : Nat) : State :=
  match s.team? id with
  | some t =>
      if t.state = .victim ∧ t.core = c then
        let room := fun (s : State) => s.takesBack t c false
        let s := State.claim c id room 17 s
        if room s then ((s.setTeamState id fun x => { x with state := .run }).fileTeam id).arrived t.task.owner c else s
      else
        let s := if t.state = .victim then s.saveTeam id else s
        match s.team? id with
        | some t => if t.state = .saved then s.bringBack t c else s
        | none => s
  | none => s

end Sys2Proof.Machine
end

