-- ==== Sys2Proof/Machine/Landing.lean ====
section
/-!
DEFINITION. Landings: the words of R142 to R151, expert landings, hauls and stage floors (R242 to R259).
-/

namespace Sys2Proof.Machine

/-! ### Landings and handles -/

/-- Landing `id`. -/
def State.landing? (s : State) (id : Nat) : Option Landing := s.landings.find? (·.id = id)

/-- Changes landing `id`. -/
def State.modLanding (s : State) (id : Nat) (f : Landing → Landing) : State :=
  { s with landings := s.landings.map fun l => if l.id = id then f l else l }

/-- Whether a handle of some team names a landing. -/
def State.named (s : State) (id : Nat) : Bool :=
  s.teams.any fun t => t.handles.any fun h => h.any (·.landing == id)

/-- Records in slots or overflow: waiting and held. -/
def Landing.records (l : Landing) : List LRec := l.waiting ++ l.hauls.flatMap (·.recs)

/-- Filled slots. -/
def Landing.inSlots (l : Landing) : Nat := (l.records.filter (!·.ovf)).length
/-- Filled overflow entries. -/
def Landing.inOvf (l : Landing) : Nat := (l.records.filter (·.ovf)).length

/-- The scope of a landing's pushes and pops (R150). -/
def Landing.scope (l : Landing) : Scope := if l.l2 then .dom else .clus

/-- Whether a blocked word waits at a landing to push, or to pop. -/
def Wait.at (w : Wait) (id : Nat) (push : Bool) : Bool :=
  match w with
  | .lpush l .. => push && l == id
  | .lpop l .. => !push && l == id
  | _ => false

/-- The supervisor fault landing (R332), whose descriptor FLAND names under RTASID. -/
def State.faultLanding (s : State) : Option Landing :=
  (s.homeAddr rtWindow (s.regs.rtasid.toNat % 4096) s.regs.fland.toNat false).bind fun pa =>
    s.landings.find? fun l => l.desc = pa ∧ !l.released

/-- Whether a team's fault record waits to be posted (R332). -/
def Team.toPost (t : Team) : Bool := t.susp && t.record.isSome && !t.posted && !t.stopped

/-- The fault records that wait at a landing: each is a push with its place in the order of arrival (R148, R332), which is that of
its team's suspension: the model's reading (log 124). -/
def State.recordsAt (s : State) (id : Nat) : List (Nat × Nat × Nat) :=
  match s.teams.filter (·.toPost) with
  | [] => []
  | l => if s.faultLanding.map (·.id) = some id then l.map fun t => (t.postAt, t.id, tidRecord) else []

/-- The blocked pushers or poppers at a landing, each with its team, thread and place in the order of arrival, a fault record that
waits among the pushers; a team that is not running has withdrawn its requests (R148, R149, R332). -/
def State.waiters (s : State) (id : Nat) (push : Bool) : List (Nat × Nat × Nat) :=
  (if push then s.recordsAt id else []) ++ s.teams.flatMap fun t =>
    if t.state != .run then []
    else t.threads.filterMap fun h => match h.status with
      | .blocked b => if b.wait.at id push then some (b.order, t.id, h.tid) else none
      | _ => none

/-- The waiter that arrived first. -/
def firstOf (l : List (Nat × Nat × Nat)) : Option (Nat × Nat × Nat) :=
  l.foldl (fun m x => match m with | none => some x | some y => if x.1 < y.1 then some x else some y) none

/-! ### Stage floors (R246) -/

/-- Whether a stage of a tenant is configured by some expert landing. -/
def State.stageUsed (s : State) (tenant stage : Nat) : Bool :=
  s.landings.any fun l => !l.released && l.expert.any fun e =>
    ownerId e.owner == tenant && (e.ctl.extractLsb' 16 8).toNat == stage

/-- Frees the reservations that `keep` does not pick; a team that stands in one keeps its room as its own. -/
def State.keepFloors (s : State) (keep : Floor → Bool) : State :=
  if s.floors.all keep then s
  else { s with
    floors := s.floors.filter keep
    teams := s.teams.map fun t => { t with floor := t.floor && (s.floors.filter keep).any (·.covers t) } }

/-- Frees the reservations of stages that are no longer configured. -/
def State.trimFloors (s : State) : State := s.keepFloors fun f => s.stageUsed f.tenant f.stage

/-- The cores of the module from a cluster's first core onwards, cyclically. -/
def coresFrom (cl : Nat) : List Nat := (List.range 512).map fun i => (4 * cl + i) % 512

/-- Whether a core keeps the limits of R35 with the floor reservations that stand on it. -/
def State.floorsFit (s : State) (c : Nat) (claim : Bool) : Bool := (s.usage c claim).ok && s.streamsOn c claim ≤ 16

/-- Sets a floor reservation beside the others, claiming victims' room where it needs it (R246); whether it could be set. -/
def State.setFloor (s : State) (f : Floor) (rest : List Floor) : State × Bool :=
  let s' := { s with floors := f :: rest }
  if !s'.floorsFit f.core true then (s, false)
  else
    let s' := State.claim f.core s.ids (fun s => s.floorsFit f.core false) 17 s'
    if s'.floorsFit f.core false then (s', true) else ({ s' with floors := s.floors }, false)

/-- Reserves or enlarges the floor of a stage (R246); the core is the first with room from the home cluster on
(log 24). A reservation keeps what it was enlarged to until its stage is no longer configured, also when the landing with the largest
kernel stops naming the stage: the model's choice (log 123). -/
def State.reserveFloor (s : State) (tenant stage cl : Nat) (k : Kernel) : State × Bool :=
  match s.floors.find? fun f => f.tenant = tenant ∧ f.stage = stage with
  | some f =>
      s.setFloor { f with need := f.need.sup k.load, control := f.control || k.control != 0 } (s.floors.filter (· ≠ f))
  | none =>
      let on := fun (c : Nat) => ({ tenant := tenant, stage := stage, core := c, need := k.load, control := k.control != 0 } : Floor)
      let fits := fun (c : Nat) => { s with floors := on c :: s.floors }.floorsFit c true && (s.die (dieOfCore c)).state == .up
      match (coresFrom cl).find? fits with
      | some c => s.setFloor (on c) s.floors
      | none => (s, false)

/-! ### Release (R145) -/

/-- The K8 writes into the descriptor of a landing, which a tenant's address names: A and D of its leaf are set (R344). -/
def State.descWrite (s : State) (tenant asid : Nat) (l : Landing) (addr : DWord) (off : Nat) (bytes : List Byte) : State :=
  let s := match s.walk tenant asid (addr.toNat + off) with
    | .ok e => s.markLeaf e true
    | .error _ => s
  s.agentWrite (l.desc + off) bytes

/-- A released landing: HOME and the expert fields of its descriptor are cleared; it keeps storage while hauls are
unretired (R254). -/
def State.releaseLanding (s : State) (id : Nat) : State :=
  match s.landing? id with
  | some l =>
      let s := (s.descWrite l.tenant l.asid l l.addr 4 (bytesLE 4 0)).descWrite l.tenant l.asid l l.addr 32 (List.replicate 32 0)
      let s := if l.hauls.isEmpty then { s with landings := s.landings.filter (·.id ≠ id) }
        else s.modLanding id fun l => { l with released := true, waiting := [] }
      s.trimFloors
  | none => s

/-- Releases a landing where R145 says so: a core landing that no handle names, an ended L2 landing likewise. -/
def State.checkRelease (s : State) (id : Nat) : State :=
  match s.landing? id with
  | some l => if !l.released && !s.named id && (!l.l2 || l.state == .ended) then s.releaseLanding id else s
  | none => s

/-- A task's handles are freed (R33, R145). -/
def State.freeHandles (s : State) (team : Nat) : State :=
  match s.team? team with
  | some t =>
      let s := s.modTeam team fun t => { t with handles := t.handles.map fun _ => none }
      (t.handles.filterMap id).foldl (fun s h => s.checkRelease h.landing) s
  | none => s

/-! ### Hauls (R247 to R252) -/

/-- F of an expert landing. -/
def Expert.fill (e : Expert) : Nat := (e.ctl.extractLsb' 0 8).toNat
/-- CLASS of an expert landing. -/
def Expert.cls (e : Expert) : Nat := (e.ctl.extractLsb' 8 2).toNat
/-- STAGE of an expert landing. -/
def Expert.stage (e : Expert) : Nat := (e.ctl.extractLsb' 16 8).toNat
/-- A of an expert landing. -/
def Expert.limit (e : Expert) : Nat := (e.age.extractLsb' 0 20).toNat

/-- The haul descriptor of R250. -/
def haulWord (l : Landing) (e : Expert) (count cause : Nat) : DWord :=
  BitVec.ofNat 64 (l.seq % 2 ^ 16 * 2 ^ 48 + count * 2 ^ 40 + cause * 2 ^ 38 + e.stage * 2 ^ 12 + l.home * 2 ^ 5 + l.lslot)

/-- The deadline of a haul task (R251). -/
def haulDeadline (push : Nat) (e : Expert) : Word :=
  let d := (push + 16 * e.limit + 1023) / 1024 % 2 ^ 32
  BitVec.ofNat 32 (if d = 0 then 1 else d)

/-- Whether a cluster holds a resident macro with a tag for a tenant. -/
def State.hasTag (s : State) (tenant : Nat) (tag : Word) (cl : Nat) : Bool :=
  (s.cluster cl).squares.any fun q => q.state == .resident && q.tag == tag && q.tenant == tenant

/-- The cluster with the fewest queued tasks, the lowest number between equals. -/
def State.leastQueued (s : State) (l : List Nat) : Option Nat :=
  l.foldl (fun m c => match m with
    | none => some c
    | some x => if (s.cluster c).deque.length < (s.cluster x).deque.length then some c else some x) none

/-- The preferred cluster of a haul task (R252). -/
def State.preferred (s : State) (l : Landing) (e : Expert) : Nat :=
  let near := fun (n : Nat) => s.leastQueued ((List.range 128).filter fun c => c / n == l.home / n && s.hasTag (ownerId e.owner) e.tag c)
  if e.tag = 0 then l.home else ((near 4).or ((near 16).or (near 128))).getD l.home

/-- An expert landing forms a haul of its oldest waiting records. -/
def State.formHaul (s : State) (id cause : Nat) : State :=
  match s.landing? id with
  | some l =>
      match l.expert, l.waiting with
      | some e, r :: _ =>
          let recs := l.waiting.take 128
          let rest := l.waiting.drop 128
          let t : Task := { kernel := e.kernel, arg := e.arg, x := BitVec.ofNat 32 (l.seq % 2 ^ 16), y := BitVec.ofNat 32 recs.length
                            z := 0, flags := BitVec.ofNat 32 (e.stage * 256 + e.cls), join := 0
                            haul := haulWord l e recs.length cause, owner := e.owner, deadline := haulDeadline r.clock e
                            addr := 0, order := 0, launch := none, landing := some id, ldesc := l.addr, set := none
                            clus := 0 }
          let ended := l.state == .sealed && rest.isEmpty
          let late := rest.any fun r => 16 * e.limit < s.clock / 16 * 16 - r.clock
          let s := s.modLanding id fun l =>
            { l with waiting := rest, hauls := l.hauls ++ [{ seq := l.seq, recs := recs }], seq := l.seq + 1
                     state := if ended then .ended else l.state, readySince := if late && cause != 1 then l.readySince else none }
          let s := s.seenKernel t
          let s := if (s.taskKernel t).isSome then s.pushTask (s.preferred l e) t else s.raiseTaskRec t
          if ended then s.checkRelease id else s
      | _, _ => s
  | none => s

/-- Forms hauls while the waiting count is at least F. -/
def State.fillHauls (id : Nat) : Nat → State → State
  | 0, s => s
  | fuel + 1, s =>
      match s.landing? id with
      | some l =>
          match l.expert with
          | some e => if e.fill ≤ l.waiting.length then State.fillHauls id fuel (s.formHaul id 0) else s
          | none => s
      | none => s

/-- Forms every haul that the fill threshold calls for. -/
def State.refill (s : State) (id : Nat) : State :=
  State.fillHauls id (((s.landing? id).map (·.waiting.length)).getD 0 + 1) s

/-- Forms hauls until no record waits (the seal case of R247). -/
def State.sealHauls (id : Nat) : Nat → State → State
  | 0, s => s
  | fuel + 1, s =>
      match s.landing? id with
      | some l => if l.expert.isSome && !l.waiting.isEmpty then State.sealHauls id fuel (s.formHaul id 3) else s
      | none => s

/-- Puts a record into a landing with room (R148), and forms the hauls that this causes. -/
def State.putRecord (s : State) (id : Nat) (data : List Byte) : State :=
  let s := s.modLanding id fun l =>
    { l with waiting := l.waiting ++ [{ data := data, clock := s.clock, ovf := !(decide (l.inSlots < l.slots)) }] }
  s.refill id

/-- What a landing says to a push. -/
inductive PushAnswer where
  | refused | room | spill | full
  deriving DecidableEq, Repr

/-- R148 for one push. -/
def Landing.ask (l : Landing) : PushAnswer :=
  if l.state != .opened then .refused
  else if l.inSlots < l.slots then .room
  else if l.l2 && l.ovf != 0 then (if l.inOvf < l.ovf then .room else .spill)
  else .full

/-- The oldest record leaves a landing (R149): one at place `k`, behind those that earlier poppers have waited for. -/
def State.takeRecord (s : State) (id k : Nat) : State :=
  let s := s.modLanding id fun l =>
    let rest := l.waiting.eraseIdx k
    { l with waiting := rest, state := if l.state = .sealed ∧ rest.isEmpty then .ended else l.state }
  s.checkRelease id

/-! ### The words -/

/-- Handle `n` of a team, or DETAIL 3. -/
def Team.handle (tm : Team) (n : P3) : Option Handle := (tm.handles.getD n.toNat none)

/-- A finding of LSEALED. -/
def sealed (detail : Nat) (addr : DWord) (write : Bool) : Bad :=
  { cause := .lsealed, detail := detail, write := write, addr := addr }

/-- What a landing descriptor says, if it keeps R142: whether it is an L2 landing, its slots, its overflow slots. -/
def landingOf (b : List Byte) : Option (Bool × Nat × Nat) :=
  let cfg := fieldAt b 0 4
  let l2 := cfg / 2 ^ 28 % 2 == 1
  let slots := cfg % 2 ^ 13
  let base := fieldAt b 8 8
  let ovf := fieldAt b 16 4
  if cfg / 2 ^ 29 = 0 ∧ cfg / 2 ^ 13 % 2 ^ 15 = 0 ∧ 2 ≤ slots ∧ slots ≤ (if l2 then 4096 else 256) ∧ base % 4096 = 0
      ∧ ovf ≤ 1048576 ∧ (l2 ∨ (base = 0 ∧ ovf = 0)) ∧ ((b.drop 20).take 12).all (· == 0) then
    some (l2, slots, if base = 0 then 0 else ovf)
  else none

/-- Whether the home of a landing is out of service (R361). -/
def State.landDown (s : State) (l : Landing) : Bool := !(s.die (if l.l2 then dieOfClus l.home else dieOfCore l.home)).serves

/-- A finding of HOMEDOWN. -/
def homeDown (addr : DWord) (write : Bool) : Bad := { cause := .homedown, detail := 0, write := write, addr := addr }

/-- Binds a handle, freeing an earlier binding to another landing (R147). -/
def State.bindHandle (s : State) (team n : Nat) (h : Handle) : State :=
  let old := ((s.team? team).bind fun t => t.handles.getD n none)
  let s := s.modTeam team fun t => { t with handles := t.handles.set n (some h) }
  match old with
  | some o => if o.landing = h.landing then s else s.checkRelease o.landing
  | none => s

/-- Activates a landing (R144): a new record, or DETAIL 4 or 5. Whether the granules that the handle's earlier landing is about to
free count as room is open; the model judges the room before that landing is released (log 94). -/
def State.activate (s : State) (tm : Team) (pa : Nat) (va : DWord) (b : List Byte) : Except Nat (Nat × State) :=
  match landingOf b with
  | none => .error 4
  | some (l2, slots, ovf) =>
      let (id, s) := s.newId
      let home := if l2 then homeOf pa else tm.core
      let mine := s.landings.filter fun l => l.l2 && l.home == home
      let lslot := ((List.range 32).find? fun n => mine.all (·.lslot ≠ n)).getD 0
      let l : Landing := { id := id, desc := pa, addr := va, tenant := ownerId tm.task.owner, asid := tm.asid, l2 := l2, home := home
                           lslot := if l2 then lslot else 0, slots := slots, ovf := ovf, state := .opened, waiting := []
                           hauls := [], seq := 0, expert := none, readySince := none, released := false }
      let room := if l2 then s.isLocal pa && mine.length < 32 && (s.landings.filter (·.l2)).length < 4096
        else (s.usage tm.core false).granules + granules (slots * 64) ≤ 352
      if room then
        .ok (id, ({ s with landings := s.landings ++ [l] }).descWrite l.tenant l.asid l va 4 (bytesLE 4 (2 ^ 31 + home)))
      else .error 5

/-- LOPEN (R147); the landing that the handle named before is released after the new one has its room (log 94). What a program writes
into the descriptor of an active landing is without effect: the model goes on with the landing as it was opened and answers truly, where
R142 leaves unpredictable status or a trap LSEALED (log 115). -/
def State.lopenOne (n : P3) (a : Code) (s : State) (g : Group) (tid : Nat) : State :=
  s.withThread g tid fun tm th e =>
    let va := e.addr th a
    let ag := tm.agent tid
    match s.readStruct ag va.toNat 64 64 with
    | (s, .error b) => s.trap g tid b
    | (s, .ok b) =>
        match s.place ag va.toNat 64 .read with
        | (s, .error b) => s.trap g tid b
        | (s, .ok (.scr _ _, _)) => s.trap g tid (sealed 4 va false)
        | (s, .ok (l, _)) =>
            let pa := s.paOf l
            let done := fun (s : State) (id : Nat) =>
              (s.bindHandle tm.id n.toNat { landing := id, addr := va }).results g tid .wq Out.none none
            match s.landings.find? fun l => l.desc = pa ∧ !l.released with
            | some l =>
                if !l.l2 && clusOf l.home != clusOf tm.core then s.trap g tid (badAt .scope 3 va) else done s l.id
            | none =>
                match s.activate tm pa va b with
                | .error k => s.trap g tid (sealed k va false)
                | .ok (id, s) => done s id

/-- Meaning of LOPEN. -/
def execLopen (n : P3) (a : Code) (m : Mods) (s : State) : Host.Outcome State Fault Refusal :=
  .next (onceLane m (State.lopenOne n a) s)

/-- The 64 bytes of 16 registers (R146). -/
def Env.regs16 (e : Env) (th : Thread) (a : Code) : List Byte :=
  (List.range 16).flatMap fun i => bytesLE 4 (e.rdAt th a i (8 + i)).toNat

/-- The 16 registers of a record's 64 bytes. -/
def outRecord (a : Code) (pd : P3) (data : List Byte) : Out :=
  { regs := (List.range 16).map fun i => (a.toNat + i, BitVec.ofNat 64 (leNat ((data.drop (4 * i)).take 4)))
    preds := [(pd.toNat, true)], flags := 0 }

/-- LPUSH in one thread (R148). -/
def State.lpushOne (pd n : P3) (a : Code) (s : State) (g : Group) (tid : Nat) : State :=
  s.withThread g tid fun tm th e =>
    match tm.handle n with
    | none => s.trap g tid (sealed 3 0 true)
    | some h =>
        match s.landing? h.landing with
        | none => s.trap g tid (sealed 3 0 true)
        | some l =>
            let ag := tm.agent tid
            if s.landDown l then s.trap g tid (homeDown h.addr true)
            else match l.ask with
            | .refused =>
                if pd = 7 then s.trap g tid (sealed 1 h.addr true)
                else (s.acquire ag l.scope none).results g tid .wq (Out.pred pd false) none
            | .spill => s.trap g tid { cause := .lspill, detail := 0, write := true, addr := h.addr }
            | .full => (s.release ag l.scope none).block g tid (.lpush l.id h.addr pd (e.regs16 th a))
            | .room =>
                if (s.waiters l.id true).isEmpty then
                  ((s.release ag l.scope none).putRecord l.id (e.regs16 th a)).results g tid .wq (Out.pred pd true) none
                else (s.release ag l.scope none).block g tid (.lpush l.id h.addr pd (e.regs16 th a))

/-- Meaning of LPUSH. -/
def execLpush (pd n : P3) (a : Code) (m : Mods) (s : State) : Host.Outcome State Fault Refusal :=
  .next (eachLane m (State.lpushOne pd n a) s)

/-- Serves a blocked pusher: room, or the seal that came meanwhile (R148). A landing that was released meanwhile is taken as
sealed: the manual does not say, and the model chooses so (log 112). -/
def State.servePush (s : State) (team tid : Nat) : State :=
  match s.team? team, s.thread? team tid with
  | some tm, some th =>
      match th.status with
      | .blocked b =>
          match b.wait with
          | .lpush id addr pd data =>
              let refuse := fun (sc : Scope) =>
                if pd = 7 then s.trapBlocked team tid Cause.lsealed.code 1 addr
                else (s.acquire (tm.agent tid) sc none).unblock team tid (Out.pred pd false)
              if tm.state ≠ .run then s
              else match s.landing? id with
                | none => refuse .dom
                | some l =>
                    if s.landDown l then s
                    else if l.state != .opened then refuse l.scope
                    else if (firstOf (s.waiters id true)).map (·.2) = some (team, tid) ∧ l.ask = .room then
                      (s.putRecord id data).unblock team tid (Out.pred pd true)
                    else s
          | _ => s
      | _ => s
  | _, _ => s

/-- Meaning of LPUSH_BLOCKED_SERVE. -/
def execLpushBlockedServe (team tid : Nat) (s : State) : Host.Outcome State Fault Refusal := .next (s.servePush team tid)

/-- LPOP or LTRYPOP in one thread (R149). -/
def State.lpopOne (wait : Bool) (pd n : P3) (a : Code) (s : State) (g : Group) (tid : Nat) : State :=
  s.withThread g tid fun tm _ _ =>
    match tm.handle n with
    | none => s.trap g tid (sealed 3 0 false)
    | some h =>
        match s.landing? h.landing with
        | none => s.trap g tid (sealed 3 0 false)
        | some l =>
            let ag := tm.agent tid
            let k := (s.waiters l.id false).length
            if s.landDown l then s.trap g tid (homeDown h.addr false)
            else if l.expert.isSome then s.trap g tid (sealed 6 h.addr false)
            else match l.waiting[k]? with
              | some r => ((s.takeRecord l.id k).acquire ag l.scope none).results g tid .wq (outRecord a pd r.data) none
              | none =>
                  if l.state = .opened then
                    if wait then s.block g tid (.lpop l.id h.addr pd a) else s.results g tid .wq (Out.pred pd false) none
                  else if wait ∧ pd = 7 then s.trap g tid (sealed 2 h.addr false)
                  else (s.acquire ag l.scope none).results g tid .wq (Out.pred pd false) none

/-- Meaning of LPOP. -/
def execLpop (pd n : P3) (a : Code) (m : Mods) (s : State) : Host.Outcome State Fault Refusal :=
  .next (eachLane m (State.lpopOne true pd n a) s)

/-- Serves a blocked popper: the oldest record, or the end of the landing (R149). A landing that has become an expert landing
meanwhile is emptied by hauls only: the popper traps as one that comes later does (R149, R242, log 98). A landing that was
released meanwhile is taken as ended: the manual does not say, and the model chooses so (log 112). -/
def State.servePop (s : State) (team tid : Nat) : State :=
  match s.team? team, s.thread? team tid with
  | some tm, some th =>
      match th.status with
      | .blocked b =>
          match b.wait with
          | .lpop id addr pd a =>
              let refuse := fun (sc : Scope) =>
                if pd = 7 then s.trapBlocked team tid Cause.lsealed.code 2 addr
                else (s.acquire (tm.agent tid) sc none).unblock team tid (Out.pred pd false)
              if tm.state ≠ .run then s
              else match s.landing? id with
                | none => refuse .dom
                | some l =>
                    if s.landDown l then s
                    else if l.expert.isSome then s.trapBlocked team tid Cause.lsealed.code 6 addr
                    else match l.waiting with
                    | r :: _ =>
                        if (firstOf (s.waiters id false)).map (·.2) = some (team, tid) then
                          ((s.takeRecord id 0).acquire (tm.agent tid) l.scope none).unblock team tid (outRecord a pd r.data)
                        else s
                    | [] => if l.state = .ended then refuse l.scope else s
          | _ => s
      | _ => s
  | _, _ => s

/-- Meaning of LPOP_BLOCKED_SERVE. -/
def execLpopBlockedServe (team tid : Nat) (s : State) : Host.Outcome State Fault Refusal := .next (s.servePop team tid)

/-- Meaning of LTRYPOP. -/
def execLtrypop (pd n : P3) (a : Code) (m : Mods) (s : State) : Host.Outcome State Fault Refusal :=
  .next (eachLane m (State.lpopOne false pd n a) s)

/-- Seals a landing (R151, R247). -/
def State.sealLanding (s : State) (id : Nat) : State :=
  match s.landing? id with
  | some l =>
      if l.state = .opened then
        let s := s.modLanding id fun l => { l with state := if l.waiting.isEmpty then .ended else .sealed }
        (State.sealHauls id (l.waiting.length + 1) s).checkRelease id
      else s
  | none => s

/-- LSEAL in one thread. -/
def State.lsealOne (n : P3) (s : State) (g : Group) (tid : Nat) : State :=
  s.withThread g tid fun tm _ _ =>
    match tm.handle n with
    | none => s.trap g tid (sealed 3 0 false)
    | some h =>
        match s.landing? h.landing with
        | none => s.trap g tid (sealed 3 0 false)
        | some l =>
            if s.landDown l then s.trap g tid (homeDown h.addr false)
            else ((s.release (tm.agent tid) l.scope none).sealLanding l.id).results g tid .wq Out.none none

/-- Meaning of LSEAL. -/
def execLseal (n : P3) (m : Mods) (s : State) : Host.Outcome State Fault Refusal :=
  .next (eachLane m (State.lsealOne n) s)

/-- The LSTAT word of R151 and R258. -/
def Landing.stat (l : Landing) : Word :=
  let st := match l.state with | .opened => 1 | .sealed => 2 | .ended => 3
  match l.expert with
  | none => BitVec.ofNat 32 (st * 2 ^ 30 + (decide (0 < l.inOvf)).toNat * 2 ^ 29 + l.waiting.length % 2 ^ 21)
  | some e =>
      BitVec.ofNat 32 (st * 2 ^ 30 + (decide (0 < l.inOvf)).toNat * 2 ^ 29 + 2 ^ 28 + e.cls * 2 ^ 26
        + l.readySince.isSome.toNat * 2 ^ 25 + min l.hauls.length 15 * 2 ^ 21 + l.waiting.length % 2 ^ 21)

/-- LSTAT in one thread. -/
def State.lstatOne (n : P3) (a : Code) (s : State) (g : Group) (tid : Nat) : State :=
  s.withThread g tid fun tm th _ =>
    match tm.handle n with
    | none => s.trap g tid (sealed 3 0 false)
    | some h =>
        match s.landing? h.landing with
        | none => s.trap g tid (sealed 3 0 false)
        | some l =>
            if s.landDown l then s.trap g tid (homeDown h.addr false)
            else s.results g tid .wq (Out.reg (th.dst32 a l.stat false)) none

/-- Meaning of LSTAT. -/
def execLstat (n : P3) (a : Code) (m : Mods) (s : State) : Host.Outcome State Fault Refusal :=
  .next (eachLane m (State.lstatOne n a) s)

/-! ### Expert words (R243 to R254) -/

/-- Whether an LCFG block keeps R243 for a landing, the kernel descriptor apart. -/
def blockOk (b : List Byte) (l : Landing) : Bool :=
  let ctl := BitVec.ofNat 32 (fieldAt b 16 4)
  let age := fieldAt b 20 4
  let f := (ctl.extractLsb' 0 8).toNat
  fieldAt b 0 8 % 64 == 0 && ctl &&& 0xFF00FC00#32 == 0 && 1 ≤ f && f ≤ 128 && f ≤ l.slots + l.ovf
    && 1 ≤ age && age < 2 ^ 20 && fieldAt b 28 4 == 0

/-- Installs a block in a landing and in its descriptor, which the word's team names by an address of its own (R245). -/
def State.install2 (s : State) (ag : Agent) (addr : DWord) (l : Landing) (b : List Byte) (e : Option Expert) : State :=
  ((s.modLanding l.id fun x => { x with expert := e, readySince := none }).descWrite ag.tenant ag.asid l addr 32 b).trimFloors

/-- LCFG (R245). -/
def State.lcfgOne (n : P3) (a : Code) (s : State) (g : Group) (tid : Nat) : State :=
  s.withThread g tid fun tm th e =>
    match tm.handle n with
    | none => s.trap g tid (sealed 3 0 false)
    | some h =>
        let ag := tm.agent tid
        match s.readStruct ag (e.addr th a).toNat 32 32 with
        | (s, .error b) => s.trap g tid b
        | (s, .ok b) =>
            match s.landing? h.landing with
            | none => s.trap g tid (sealed 3 0 false)
            | some l =>
                let plain := b.all (· == 0)
                let ka := fieldAt b 0 8
                let (s, kb) := if plain ∨ ka % 64 ≠ 0 then (s, .ok []) else s.readStruct ag ka 64 64
                match kb with
                | .error x => s.trap g tid x
                | .ok kb =>
                    let k := kernelOf kb
                    if s.landDown l then s.trap g tid (homeDown h.addr false)
                    else if !l.l2 then s.trap g tid (sealed 7 h.addr false)
                    else if !(plain || (blockOk b l && kernelBytesOk kb && !k.sup)) then s.trap g tid (sealed 8 h.addr false)
                    else if l.state ≠ .opened ∨ !l.waiting.isEmpty then s.trap g tid (sealed 10 h.addr false)
                    else if plain then (s.install2 ag h.addr l b none).results g tid .wq Out.none none
                    else
                      let x : Expert := { kernel := BitVec.ofNat 64 ka, arg := BitVec.ofNat 64 (fieldAt b 8 8)
                                          ctl := BitVec.ofNat 32 (fieldAt b 16 4), age := BitVec.ofNat 32 (fieldAt b 20 4)
                                          tag := BitVec.ofNat 32 (fieldAt b 24 4), owner := tm.task.owner, need := k }
                      match s.reserveFloor (ownerId tm.task.owner) x.stage l.home k with
                      | (s, false) => s.trap g tid (sealed 9 h.addr false)
                      | (s, true) => (s.install2 ag h.addr l b (some x)).results g tid .wq Out.none none

/-- Meaning of LCFG. -/
def execLcfg (n : P3) (a : Code) (m : Mods) (s : State) : Host.Outcome State Fault Refusal :=
  .next (onceLane m (State.lcfgOne n a) s)

/-- LFIRE (R249). -/
def State.lfireOne (pd n : P3) (s : State) (g : Group) (tid : Nat) : State :=
  s.withThread g tid fun tm _ _ =>
    match tm.handle n with
    | none => s.trap g tid (sealed 3 0 false)
    | some h =>
        match s.landing? h.landing with
        | none => s.trap g tid (sealed 3 0 false)
        | some l =>
            if s.landDown l then s.trap g tid (homeDown h.addr false)
            else if l.expert.isNone then s.trap g tid (sealed 11 h.addr false)
            else if l.state = .ended ∨ l.waiting.isEmpty then s.results g tid .wq (Out.pred pd false) none
            else ((s.formHaul l.id 2).refill l.id).results g tid .wq (Out.pred pd true) none

/-- Meaning of LFIRE. -/
def execLfire (pd n : P3) (m : Mods) (s : State) : Host.Outcome State Fault Refusal :=
  .next (onceLane m (State.lfireOne pd n) s)

/-- The records of a team's unretired haul. -/
def State.haulOf (s : State) (tm : Team) : Option (Landing × Haul) :=
  if tm.retired then none
  else
    match tm.task.landing.bind s.landing? with
    | some l => (l.hauls.find? fun h => h.seq % 2 ^ 16 = (tm.task.haul.extractLsb' 48 16).toNat).map fun h => (l, h)
    | none => none

/-- DETAIL 12 for a team with no haul to act on (R259). -/
def noHaul (tm : Team) : Bad := sealed 12 (if tm.task.haul = 0 then 0 else tm.task.ldesc) false

/-- Plain stores of a thread of whole 64-byte records along checked segments. -/
def State.storeRecords (s : State) (ag : Agent) (va : Nat) (segs : List Seg) : Nat → List (List Byte) → State
  | _, [] => s
  | i, r :: l =>
      let s := match (segSlice segs (64 * i) 64).head? with
        | some x => s.storeAt ag (va + 64 * i) x.loc r Sync.plain
        | none => s
      s.storeRecords ag va segs (i + 1) l

/-- HBIND (R253). -/
def State.hbindOne (d a : Code) (s : State) (g : Group) (tid : Nat) : State :=
  s.withThread g tid fun tm th e =>
    match s.haulOf tm with
    | none => s.trap g tid (noHaul tm)
    | some (l, h) =>
        let ag := tm.agent tid
        if s.landDown l then s.trap g tid (homeDown tm.task.ldesc false) else
        let va := (e.addr th a).toNat
        match misaligned va 64 true with
        | some b => s.trap g tid b
        | none =>
            match s.range ag va (64 * h.recs.length) .write with
            | (s, .error b) => s.trap g tid b
            | (s, .ok (segs, _)) =>
                (s.storeRecords ag va segs 0 (h.recs.map (·.data))).results g tid .wq
                  (Out.reg (th.dst32 d (BitVec.ofNat 32 h.recs.length) false)) none

/-- Meaning of HBIND. -/
def execHbind (d a : Code) (m : Mods) (s : State) : Host.Outcome State Fault Refusal :=
  .next (onceLane m (State.hbindOne d a) s)

/-- Retires a team's haul (R254). -/
def State.retire (s : State) (tm : Team) : State :=
  match s.haulOf tm with
  | some (l, h) =>
      let s := s.modTeam tm.id fun t => { t with retired := true }
      let s := s.modLanding l.id fun l => { l with hauls := l.hauls.filter (·.seq ≠ h.seq) }
      { s with landings := s.landings.filter fun l => !(l.released && l.hauls.isEmpty) }
  | none => s

/-- HDONE. -/
def State.hdoneOne (s : State) (g : Group) (tid : Nat) : State :=
  s.withThread g tid fun tm _ _ =>
    match s.haulOf tm with
    | none => s.trap g tid (noHaul tm)
    | some (l, _) => if s.landDown l then s.trap g tid (homeDown tm.task.ldesc false) else (s.retire tm).results g tid .wq Out.none none

/-- Meaning of HDONE. -/
def execHdone (m : Mods) (s : State) : Host.Outcome State Fault Refusal := .next (onceLane m State.hdoneOne s)

/-! ### The age tick (R247, R248) -/

/-- Judges the age of a landing at the last multiple of 16 of CLOCK. -/
def Landing.judge (clock : Nat) (l : Landing) : Landing :=
  let tick := clock / 16 * 16
  match l.expert, l.waiting with
  | some e, r :: _ =>
      if 16 * e.limit < tick - r.clock then { l with readySince := l.readySince.or (some tick) } else { l with readySince := none }
  | _, _ => { l with readySince := none }

/-- Whether landing x takes its turn before landing y (R248): the longest-ready of those ready for 32 cycles, then CLASS, then
the older oldest record, then the landing slot. -/
def Landing.turn (clock : Nat) (x y : Landing) : Bool :=
  let key := fun (l : Landing) =>
    let since := l.readySince.getD clock
    [if since + 32 ≤ clock then since else clock + 1, 3 - (l.expert.map (·.cls)).getD 0, (l.waiting.head?.map (·.clock)).getD 0, l.lslot]
  key x < key y

/-- Whether a landing is one of a slice's that age can fire. -/
def Landing.agesAt (l : Landing) (cl : Nat) : Bool := l.l2 && l.home == cl && !l.released && l.expert.isSome

/-- The home judges age once for each multiple of 16 (R247). -/
def State.judgeAge (s : State) (cl : Nat) : State :=
  if s.clock / 16 ≤ (s.cluster cl).ageAt then s
  else
    { s.modCluster cl fun c => { c with ageAt := s.clock / 16 } with
      landings := s.landings.map fun l => if l.agesAt cl then l.judge s.clock else l }

/-- The landings of a slice that are age-ready, if one of them may form a haul in this cycle (R248). -/
def State.ageReady (s : State) (cl : Nat) : List Landing :=
  if (s.cluster cl).ageNext ≤ s.clock then s.landings.filter fun l => l.agesAt cl && l.readySince.isSome else []

/-- The age tick of a home: it judges age at a multiple of 16, and forms at most one age haul in a cycle (R248). -/
def State.ageTick (s : State) (cl : Nat) : State :=
  if !(s.die (dieOfClus cl)).serves then s
  else
    let s := s.judgeAge cl
    match (s.ageReady cl).foldl (fun (m : Option Landing) x => match m with
        | none => some x | some y => if x.turn s.clock y then some x else some y) none with
    | some l => ((s.modCluster cl fun c => { c with ageNext := s.clock + 1 }).formHaul l.id 1).refill l.id
    | none => s

/-- Whether the age tick of a slice is due. -/
def State.ageDue (s : State) (l : Landing) : Bool :=
  l.agesAt l.home && !l.waiting.isEmpty && !s.landDown l
    && ((s.cluster l.home).ageAt < s.clock / 16 || (l.readySince.isSome && (s.cluster l.home).ageNext ≤ s.clock))

/-- Meaning of LANDING_AGE_TICK. -/
def execLandingAgeTick (cluster : Nat) (s : State) : Host.Outcome State Fault Refusal := .next (s.ageTick cluster)

end Sys2Proof.Machine
end

