-- ==== Sys2Proof/Machine/Flow.lean ====
section
/-!
DEFINITION. Special registers, the rounding mode, carve-outs (R107 to R110, R43) and flow (R111 to R120).
-/

namespace Sys2Proof.Machine

/-! ### Special registers (R70, R107 to R109) -/

/-- The code of a rounding mode. -/
def rmCode : Rm → Nat
  | .rne => 0 | .rtz => 1 | .rup => 2 | .rdn => 3

/-- The rounding mode of a code. -/
def rmOf (n : Nat) : Rm := match n % 4 with | 0 => .rne | 1 => .rtz | 2 => .rup | _ => .rdn

/-- What a special register reads in a thread. A control stream reads the place and the logical time of its team's core: R107 does
not say what it reads there, and the model chooses so (log 20). -/
def Env.special (e : Env) (th : Thread) (n : SReg) : DWord :=
  let c := e.tm.core
  match n with
  | .tid => BitVec.ofNat 64 th.tid
  | .ntid => BitVec.ofNat 64 e.tm.kern.threads
  | .team => BitVec.ofNat 64 e.tm.slot
  | .core => BitVec.ofNat 64 c
  | .clus => BitVec.ofNat 64 (clusOf c)
  | .sgrp => BitVec.ofNat 64 (sgrpOf (clusOf c))
  | .die => BitVec.ofNat 64 (dieOfCore c)
  | .dev => BitVec.ofNat 64 e.dev
  | .taskarg => e.tm.task.arg
  | .tilex => e.tm.task.x.setWidth 64
  | .tiley => e.tm.task.y.setWidth 64
  | .tilez => e.tm.task.z.setWidth 64
  | .clock => BitVec.ofNat 64 e.clock
  | .ctime => BitVec.ofNat 64 (e.ctime % 2 ^ 32)
  | .fmode => BitVec.ofNat 64 (rmCode th.rm)
  | .flags => th.flags.setWidth 64
  | .asid => BitVec.ofNat 64 e.tm.asid
  | .tenant => BitVec.ofNat 64 e.tm.tenant
  | .fault => th.fault.setWidth 64
  | .faddr => th.faddr
  | .fpc => th.fpc

/-- Meaning of SREAD. -/
def execSread (d : Code) (n : SReg) (m : Mods) (s : State) : Host.Outcome State Fault Refusal :=
  .next (lane m none (fun e th =>
    let x := e.special th n
    Out.reg (if n.isWide then th.dst64 d x else th.dst32 d (x.setWidth 32) false)) s)

/-- A thread with a special register written (R71, R108). -/
def Thread.setSpecial (th : Thread) (n : SReg) (x : DWord) : Thread :=
  match n with
  | .flags => { th with flags := x.setWidth 6 }
  | .fault => { th with fault := x.setWidth 32 }
  | .faddr => { th with faddr := (x.extractLsb' 0 48).setWidth 64 }
  | .fpc => { th with fpc := x &&& 0x000FFFFFFFFFFFFC#64 }
  | _ => th

/-- Meaning of SWRITE. -/
def execSwrite (n : SReg) (a : Code) (m : Mods) (s : State) : Host.Outcome State Fault Refusal :=
  .next (own m (fun e th =>
    th.setSpecial n (if n.isWide then e.rd64 th a 0 else (e.rd32 th a 0).setWidth 64)) s)

/-- Meaning of FMODE. -/
def execFmode (reg : Bool) (a : Code) (rm : Rm) (s : State) : Host.Outcome State Fault Refusal :=
  .next (own .none (fun e th => { th with rm := if reg then rmOf (e.rd32 th a 0).toNat else rm }) s)

/-! ### Carve-outs (R43, R110) -/

/-- The register count and scratchpad size that a thread waits for in a CARVE. -/
def Thread.carving (th : Thread) : Option (Nat × Nat) :=
  match th.status with
  | .blocked b => match b.wait with | .carve v n => some (v, n) | _ => none
  | _ => none

/-- A thread's registers under a new count: added ones read zero. -/
def Thread.resize (old new : Nat) (th : Thread) : Thread :=
  if th.ctl then th else { th with v := th.v.take (min old new) ++ List.replicate (new - old) 0 }

/-- A team with a new carve-out: added registers and bytes read zero, lost bytes are gone. -/
def Team.resize (v n : Nat) (tm : Team) : Team :=
  { tm with vregs := v, scratch := n, threads := tm.threads.map (Thread.resize tm.vregs v)
            mem := tm.mem.filter fun c => c.1 < min tm.scratch n }

/-- A team halts, with the members of its cluster set (R43, R45). -/
def State.haltSet (s : State) (tm : Team) : State :=
  (s.setOf tm).foldl (fun s t => if t.state = .run then s.setTeamState t.id fun x => { x with state := .halt, since := s.clock } else s) s

/-- The carve-out of a team changes (R43, R338), if its save slot can grow: its threads go on, on its core, or
elsewhere after a pre-emption. -/
def State.applyCarve (s : State) (tm : Team) (v n : Nat) : State :=
  let new := loadOf tm.kern.threads v n tm.kern.bars tm.kern.lands
  let len := slotBytes tm.kern.threads new.granules
  let others := (s.teams.filter fun t => ownerId t.task.owner = ownerId tm.task.owner ∧ t.id ≠ tm.id).map fun t => (t.slotOff, t.slotLen)
  match if len ≤ tm.slotLen then SlotAnswer.fits tm.slotOff else s.askSlot tm.task.owner len others with
  | .waits => s
  | .never => s.raiseTask .savefail 0 tm.task.owner (BitVec.ofNat 64 (s.slotAddr tm)) tm.task.kernel tm.core tm.slot
  | .fits off =>
      let s := s.modTeam tm.id fun t => { t.resize v n with slotOff := off, slotLen := max len t.slotLen }
      let s := State.claim tm.core tm.id (fun s => (s.usage tm.core false).ok) 17 s
      let s := tm.threads.foldl (fun s h => if h.carving.isSome then s.unblock tm.id h.tid Out.none else s) s
      if (s.usage tm.core false).ok then (s.refreshSlot tm.id).trimL1 tm.core else s.haltSet tm

/-- Whether a block of CATT or an engine command that moves bytes of a team's scratchpad is outstanding (R110, R316). -/
def State.scrMoves (s : State) (tm : Team) : Bool :=
  let here := fun (x : Seg) => match x.loc with | .scr t _ => t == tm.id | _ => false
  s.catts.any (fun c => c.team == tm.id && c.block.any here)
    || s.cmds.any fun c => c.runs.any (fun r => r.src.any here || r.dst.any here) || c.signals.any fun x => x.dst.any here

/-- Whether a matrix word of a team is outstanding at a tile whose storage is the team's scratchpad: in flight, or behind the
tile's grant (R110, R225). -/
def State.tileMoves (s : State) (tm : Team) : Bool :=
  let here := fun (x : Seg) => match x.loc with | .scr t _ => t == tm.id | _ => false
  let flies := fun (n : Nat) => tm.threads.any fun h => h.pend.any fun p => p.reads.contains n || p.writes.contains n || p.drains.contains n
  (s.cluster (clusOf tm.core)).tiles.any fun t =>
    (t.holder == some tm.id && t.store.any here && flies t.id)
      || t.queue.any fun r => r.team == tm.id && r.store.any here && r.after.any (!·.writes.isEmpty)

/-- Whether an access of a team to its scratchpad is outstanding (R110). -/
def State.scrBusy (s : State) (tm : Team) : Bool :=
  (tm.liveThreads.any fun h => h.pend.any fun p => [Ctr.wl, .ws, .wq, .wc].contains p.ctr) || s.scrMoves tm || s.tileMoves tm

/-- Judges a CARVE once every live thread of the team waits in one (R43, R110): `take` is what it does when it takes effect. -/
def State.judgeCarve (s : State) (team : Nat) (take : State → Team → Nat → Nat → State) : State :=
  match s.team? team with
  | none => s
  | some tm =>
      let ops := tm.liveThreads.map (·.carving)
      match ops.head? with
      | some (some (v, n)) =>
          if ops.all (·.isSome) then
            let range := ops.all fun o => o.all fun x => 1 ≤ x.1 && x.1 ≤ 96 && x.2 ≤ 1441792
            let same := ops.all fun o => o == some (v, n)
            if range && same then (if s.scrBusy tm then s else take s tm v n)
            else tm.liveThreads.foldl (fun s h => s.trapBlocked team h.tid Cause.barrier.code (if range then 1 else 2) 0) s
          else s
      | _ => s

/-- Judges a CARVE of a team; where it has moved the team's save slot, the CARVEs of its tenant that wait for room in the pool are
judged again (R338), `n` of them at most. -/
def State.checkCarves : Nat → State → Nat → State
  | 0, s, _ => s
  | n + 1, s, team => s.judgeCarve team fun s tm v b =>
      let t := s.applyCarve tm v b
      if (t.team? tm.id).any (·.slotOff != tm.slotOff) then
        (((t.teamsOf (ownerId tm.task.owner)).map (·.id)).filter (· ≠ tm.id)).foldl (fun s id => s.checkCarves n id) t
      else t

/-- Judges a CARVE of a team. -/
def State.checkCarve (s : State) (team : Nat) : State := s.checkCarves (s.teams.length + 1) team

/-- CARVE in one thread. -/
def State.carveOne (a b : Code) (s : State) (g : Group) (tid : Nat) : State :=
  s.withThread g tid fun tm th e =>
    if tm.hasStream then s.trap g tid (bad .barrier 3)
    else (s.block g tid (.carve (e.rd32 th a 0).toNat (e.rd32 th b 2).toNat)).checkCarve tm.id

/-- Meaning of CARVE. -/
def execCarve (a b : Code) (s : State) : Host.Outcome State Fault Refusal := .next (eachLane .none (State.carveOne a b) s)

/-! ### Transfers (R111 to R116) -/

/-- The target of a DB word (R61). -/
def Group.target (g : Group) (off : BitVec 19) : Nat := (((g.header : Int) + 4 * off.toInt) % (2 ^ 48 : Nat)).toNat

/-- Whether a DB word's guard holds in a thread. -/
def Env.takes (e : Env) (th : Thread) (g : Guard) : Bool := !g.en || e.pred th g.pred 63 == g.sense

/-- Meaning of BRA. -/
def execBra (gd : Guard) (off : BitVec 19) (s : State) : Host.Outcome State Fault Refusal :=
  match s.groups with
  | [] => .next s
  | g :: _ => .next (own .none (fun e th => if e.takes th gd then { th with pc := g.target off } else th) s)

/-- Meaning of BRC: every thread of the group transfers, or none does. -/
def execBrc (sense : Bool) (p : P3) (off : BitVec 19) (s : State) : Host.Outcome State Fault Refusal :=
  match s.groups with
  | [] => .next s
  | g :: _ => .next (own .none (fun e th =>
      let all := e.tm.threads.all fun x => !g.holds x || e.pred x p 63 == sense
      if all then { th with pc := g.target off } else th) s)

/-- BRX in one thread. -/
def State.brxOne (a : Code) (s : State) (g : Group) (tid : Nat) : State :=
  s.withThread g tid fun tm th e =>
    let x := e.rd64 th a 0
    if x.toNat % 4 ≠ 0 then s.trap g tid (badAt .align 0 x)
    else s.modThread tm.id tid fun h => { h with pc := x.toNat }

/-- Meaning of BRX. -/
def execBrx (a : Code) (s : State) : Host.Outcome State Fault Refusal := .next (eachLane .none (State.brxOne a) s)

/-- A call of one thread: the next PC is pushed, or STACK is trapped (R115). -/
def State.call (s : State) (g : Group) (tid : Nat) (th : Thread) (target : Nat) : State :=
  if 16 ≤ th.stack.length then s.trap g tid (bad .stack 1)
  else s.modThread g.team tid fun h => { h with stack := g.fall % 2 ^ 48 :: h.stack, pc := target }

/-- Meaning of CALL. -/
def execCall (gd : Guard) (off : BitVec 19) (s : State) : Host.Outcome State Fault Refusal :=
  .next (eachLane .none (fun s g tid => s.withThread g tid fun _ th e =>
    if e.takes th gd then s.call g tid th (g.target off) else s) s)

/-- CALLX in one thread. -/
def State.callxOne (a : Code) (s : State) (g : Group) (tid : Nat) : State :=
  s.withThread g tid fun _ th e =>
    let x := e.rd64 th a 0
    if x.toNat % 4 ≠ 0 then s.trap g tid (badAt .align 0 x) else s.call g tid th x.toNat

/-- Meaning of CALLX. -/
def execCallx (a : Code) (s : State) : Host.Outcome State Fault Refusal := .next (eachLane .none (State.callxOne a) s)

/-- Meaning of RET. -/
def execRet (s : State) : Host.Outcome State Fault Refusal :=
  .next (eachLane .none (fun s g tid => s.withThread g tid fun tm th _ =>
    match th.stack with
    | [] => s.trap g tid (bad .stack 2)
    | x :: l => s.modThread tm.id tid fun h => { h with stack := l, pc := x }) s)

/-- Meaning of REFORM: the threads are filed at the end of the clause. -/
def execReform (s : State) : Host.Outcome State Fault Refusal := .next (own .none (fun _ th => { th with refile := true }) s)

/-- Meaning of YIELD. -/
def execYield (s : State) : Host.Outcome State Fault Refusal :=
  .next (own .none (fun _ th => { th with refile := true, yielded := true }) s)

/-! ### Leaving (R117 to R119) -/

/-- EXIT of one thread: its results in flight are discarded, the words behind them end as they would, and it leaves its
barriers and any CARVE (R117). -/
def State.exitOne (s : State) (g : Group) (tid : Nat) : State :=
  ((s.modThread g.team tid fun h => { h with status := .exited, pend := h.pend.map Pending.orphan }).leaveBars g.team tid).checkCarve
    g.team

/-- Meaning of EXIT. -/
def execExit (s : State) : Host.Outcome State Fault Refusal := .next (eachLane .none State.exitOne s)

/-- Meaning of TRAP: FPC names the clause that follows (R118). -/
def execTrap (imm : BitVec 10) (s : State) : Host.Outcome State Fault Refusal :=
  .next (eachLane .none (fun s g tid => s.modThread g.team tid fun h =>
    { h with status := .trapped { cause := 0x0E, detail := imm.setWidth 20, write := false, cls := 6, addr := 0
                                  header := g.fall, word := 0, cycle := s.clock } }) s)

/-- Meaning of ERET: the thread leaves its handler for FPC; recorded BSYNC arrivals are kept only for its own word. -/
def execEret (s : State) : Host.Outcome State Fault Refusal :=
  .next (own .none (fun _ th =>
    let h := th.leaveHandler
    { h with refile := true, arrivals := th.arrivals.filter fun x => x.header % 2 ^ 48 = h.pc ∧ x.word % 16 = h.word }) s)

/-! ### TLBI (R120, R348) -/

/-- Whether a translation is one that a TLBI covers. -/
def covered (op : TlbiOp) (asid va : Nat) (easid base log : Nat) : Bool :=
  match op with
  | .page => easid == asid && va / 2 ^ log * 2 ^ log == base
  | .asid => easid == asid
  | .all => true

/-- Whether a walk cache's entry is one that a TLBI covers: `.page` does not reach the walk caches (R347). -/
def tlbiWalk (op : TlbiOp) (asid : Nat) (w : WalkEntry) : Bool :=
  match op with
  | .page => false
  | .asid => w.asid == asid
  | .all => true

/-- Drops translations from every TLB of the module, and non-leaf entries from every walk cache (R348). -/
def State.dropTlb (s : State) (hit : TlbEntry → Bool) (walk : WalkEntry → Bool) : State :=
  { s with
    cores := s.cores.map fun c => { c with tlb := c.tlb.filter fun e => !hit e }
    clusters := s.clusters.map fun c => { c with tlb := c.tlb.filter fun e => !hit e }
    dies := s.dies.map fun d => { d with walks := d.walks.filter fun w => !walk w } }

/-- TLBI in one thread: the result waits for the engine commands that pin a covered page. -/
def State.tlbiOne (a b : Code) (op : TlbiOp) (s : State) (g : Group) (tid : Nat) : State :=
  s.withThread g tid fun tm th e =>
    let va := if op = .page then (e.rd64 th a 0).toNat else 0
    let asid := if op = .all then 0 else (e.rd32 th b 2).toNat % 4096
    let s := s.release (tm.agent tid) .dom none
    let s := s.dropTlb (fun x => covered op asid va x.asid x.base x.log) (tlbiWalk op asid)
    let pinned := fun (c : EngCmd) => c.pins.any fun p => covered op asid va p.asid p.base p.log
    if s.cmds.any pinned then
      let (j, s) := s.newId
      let s := { s with cmds := s.cmds.map fun c => if pinned c then { c with waiters := j :: c.waiters } else c }
      s.results g tid .ws Out.none (some j)
    else s.results g tid .ws Out.none none

/-- Meaning of TLBI. -/
def execTlbi (a b : Code) (op : TlbiOp) (m : Mods) (s : State) : Host.Outcome State Fault Refusal :=
  .next (eachLane m (State.tlbiOne a b op) s)

end Sys2Proof.Machine
end

