-- ==== Sys2Proof/Machine/Ctx.lean ====
section
/-!
DEFINITION. The shared attention context (R155 to R175): the descriptor and the structures it names, the words that
reserve, write, publish, acquire, query, merge and release.
-/

namespace Sys2Proof.Machine

/-! ### Structures in memory (R155 to R158) -/

/-- Bytes at a virtual address, read at their home. -/
def State.vRead (s : State) (tenant asid : Nat) : Nat → Nat → Nat → Option (List Byte)
  | 0, _, _ => some []
  | fuel + 1, va, n =>
      if n = 0 then some []
      else
        let k := min n (4096 - va % 4096)
        match s.homeAddr tenant asid va false with
        | some pa => (s.vRead tenant asid fuel (va + k) (n - k)).map (s.homeRead pa k ++ ·)
        | none => none

/-- Bytes at a virtual address, written at their home. -/
def State.vWrite (s : State) (tenant asid : Nat) : Nat → Nat → List Byte → Option State
  | 0, _, _ => some s
  | fuel + 1, va, bytes =>
      if bytes.isEmpty then some s
      else
        let k := 4096 - va % 4096
        match s.homeAddr tenant asid va true with
        | some pa => ((s.touched tenant asid va true).agentWrite pa (bytes.take k)).vWrite tenant asid fuel (va + k) (bytes.drop k)
        | none => none

/-- A context as its descriptor gives it. -/
structure Ctx where
  addr : Nat
  pa : Nat
  tenant : Nat
  asid : Nat
  layers : Nat
  heads : Nat
  hdim : Nat
  bf : Bool
  opened : Bool
  seed : Nat
  span : Nat
  bytes : Nat
  maxpos : Nat
  tail : Nat
  pseq : Nat
  free : Nat
  count : Nat
  table : Nat
  deriving DecidableEq, Repr

/-- Elements of a position, E of R158. -/
def Ctx.elems (c : Ctx) : Nat := c.heads * c.hdim

/-- PAGEBYTES (R158). -/
def pageBytes (heads hdim : Nat) : Nat := (64 * (heads * hdim) + 128 * heads + 64 + 255) / 256 * 256

/-- The context that a descriptor's bytes describe, if they keep R155 and R156. -/
def ctxOf (b : List Byte) (addr pa tenant asid : Nat) : Option Ctx :=
  let geom := fieldAt b 4 4
  let c : Ctx :=
    { addr := addr, pa := pa, tenant := tenant, asid := asid, layers := geom / 2 ^ 24, heads := geom / 2 ^ 18 % 64 + 1
      hdim := geom / 2 ^ 9 % 512, bf := geom / 2 ^ 8 % 2 == 1, opened := geom / 2 ^ 7 % 2 == 1, seed := fieldAt b 8 4
      span := fieldAt b 12 4, bytes := fieldAt b 36 4, maxpos := fieldAt b 40 4, tail := fieldAt b 0 4
      pseq := fieldAt b 16 8, free := fieldAt b 24 8, count := fieldAt b 32 4, table := fieldAt b 48 8 }
  if geom % 2 ^ 7 = 0 ∧ 1 ≤ c.layers ∧ c.hdim % 2 = 0 ∧ 2 ≤ c.hdim ∧ c.hdim ≤ 256 ∧ c.elems ≤ 2048 ∧ 1 ≤ c.span
      ∧ c.span ≤ 128 ∧ c.bytes = pageBytes c.heads c.hdim ∧ c.maxpos % 16 = 0 ∧ c.maxpos ≤ 2 ^ 24 ∧ c.tail ≤ c.maxpos
      ∧ fieldAt b 44 4 = 0 ∧ (b.drop 56).all (· == 0) then some c else none

/-- Bytes of a context's structures. -/
def State.cRead (s : State) (c : Ctx) (va n : Nat) : Option (List Byte) := s.vRead c.tenant c.asid (n / 4096 + 2) va n

/-- Writes bytes of a context's structures. -/
def State.cWrite (s : State) (c : Ctx) (va : Nat) (bytes : List Byte) : Option State :=
  s.vWrite c.tenant c.asid (bytes.length / 4096 + 2) va bytes

/-- A number of a context's structures. -/
def State.cNat (s : State) (c : Ctx) (va n : Nat) : Option Nat := (s.cRead c va n).map leNat

/-- The page table and the publish bitmap of a layer (R157). -/
def State.ctxLayer (s : State) (c : Ctx) (l : Nat) : Option (Nat × Nat) :=
  match s.cNat c (c.table + 16 * l) 8, s.cNat c (c.table + 16 * l + 8) 8 with
  | some x, some y => some (x, y)
  | _, _ => none

/-- The page that holds positions 16j to 16j + 15 at a layer, if the entry is valid. -/
def State.ctxPage (s : State) (c : Ctx) (l j : Nat) : Option Nat :=
  match s.ctxLayer c l with
  | some (t, _) =>
      match s.cNat c (t + 8 * j) 8 with
      | some e => if e / 2 ^ 63 = 1 then some (e / 2 ^ 8 % 2 ^ 40 * 2 ^ 8) else none
      | none => none
  | none => none

/-- Writes the fields of the descriptor that the K8 keeps. -/
def State.ctxPut (s : State) (c : Ctx) : State :=
  ((((s.touched c.tenant c.asid c.addr true).agentWrite c.pa (bytesLE 4 c.tail)).agentWrite (c.pa + 16) (bytesLE 8 c.pseq)).agentWrite (c.pa + 24)
    (bytesLE 8 c.free)).agentWrite (c.pa + 32) (bytesLE 4 c.count)

/-- The key of a page in the pair marks: where it stands. -/
def State.pageKey (s : State) (c : Ctx) (page : Nat) : Nat := (s.homeAddr c.tenant c.asid page false).getD 0

/-- The pair marks of a page (R164). -/
def State.marksOf (s : State) (key : Nat) : List Nat :=
  ((s.pageMarks.find? (·.page = key)).map (·.marks)).getD []

/-- Address of the write count of position r of a page. -/
def Ctx.countAt (c : Ctx) (page r : Nat) : Nat := page + 64 * c.elems + 128 * c.heads + 4 * r

/-- Address of element i of head h of position r of a page. -/
def Ctx.keyAt (c : Ctx) (page r h i : Nat) : Nat := page + 2 * ((r * c.heads + h) * c.hdim + i)

/-- Address of the signature of head h of position r of a page. -/
def Ctx.sigAt (c : Ctx) (page r h : Nat) : Nat := page + 64 * c.elems + 8 * (r * c.heads + h)

/-! ### Signatures (R159) -/

/-- Whether H(L, h, k, i) is +1. -/
def hyper (seed l h k i : Nat) : Bool :=
  let z : DWord := BitVec.ofNat 64 (seed * 2 ^ 32 + l * 2 ^ 20 + h * 2 ^ 14 + i * 2 ^ 6 + k)
  let z := (z ^^^ (z >>> 30)) * 0xBF58476D1CE4E5B9#64
  let z := (z ^^^ (z >>> 27)) * 0x94D049BB133111EB#64
  let z := z ^^^ (z >>> 31)
  !z.getLsbD 63

/-- The format of keys and values. -/
def Ctx.fmt (c : Ctx) : Fmt := if c.bf then fmtBf16 else fmtF16

/-- A finite number as an integer in units of 2^lo. -/
def Num.units (lo : Int) : Num → Option Int
  | .fin n m e => let x : Int := (m * 2 ^ (e - lo).toNat : Nat); some (if n then -x else x)
  | _ => none

/-- The integers of a vector's elements in one unit, if all are finite. -/
def Ctx.exacts (c : Ctx) (l : List Nat) : Option (List Int) := l.mapM fun x => (c.fmt.unpack x).units (c.fmt.emin - c.fmt.man)

/-- The signature of a vector of HDIM elements for layer l and head h. -/
def Ctx.signature (c : Ctx) (l h : Nat) (x : List Nat) : DWord :=
  match c.exacts x with
  | none => BitVec.allOnes 64
  | some xs =>
      (List.range 64).foldl (fun (z : DWord) k =>
        let sum := xs.zipIdx.foldl (fun (a : Int) y => if hyper c.seed l h k y.2 then a + y.1 else a - y.1) 0
        if 0 < sum then z ||| (1#64 <<< k) else z) 0

/-- Consecutive 16-bit elements. -/
def halfwords : Nat → List Byte → List Nat
  | 0, _ => []
  | n + 1, b => leNat (b.take 2) :: halfwords n (b.drop 2)

/-! ### The descriptor check (R162) -/

/-- The context that a descriptor's bytes at an address describe, or SCOPE with DETAIL 5 (R156). -/
def State.ctxFrom (s : State) (ag : Agent) (va : Nat) (b : List Byte) : Except Bad Ctx :=
  match (s.homeAddr ag.tenant ag.asid va false).bind fun pa => ctxOf b va pa ag.tenant ag.asid with
  | some c => .ok c
  | none => .error (badAt .scope 5 (BitVec.ofNat 64 va))

/-- The context of a word's address pair, checked under R128 and R156; a word that writes the descriptor must be let to
(log 107). -/
def State.ctxAt (s : State) (ag : Agent) (va : Nat) (write : Bool) : State × Except Bad Ctx :=
  match s.readStruct ag va 256 256 with
  | (s, .error b) => (s, .error b)
  | (s, .ok b) =>
      if write && !inWindow va && (s.homeAddr ag.tenant ag.asid va true).isNone then
        (s, .error { cause := .perm, detail := 1, write := false, addr := BitVec.ofNat 64 va })
      else (s, s.ctxFrom ag va b)

/-- A finding about a context. -/
def Ctx.bad (c : Ctx) (detail : Nat) : Bad := badAt .scope detail (BitVec.ofNat 64 c.addr)

/-- The layer of a position word. -/
def posLayer (w : Word) : Nat := (w.extractLsb' 24 8).toNat
/-- The position of a position word. -/
def posOf (w : Word) : Nat := (w.extractLsb' 0 24).toNat

/-- Runs a context word in one thread on its checked context. -/
def State.withCtx (s : State) (g : Group) (tid : Nat) (a : Code) (write : Bool) (f : State → Team → Thread → Env → Ctx → State) : State :=
  s.withThread g tid fun tm th e =>
    match s.ctxAt (tm.agent tid) (e.addr th a).toNat write with
    | (s, .error b) => s.trap g tid b
    | (s, .ok c) => f s tm th e c

/-- A state that a context's structures gave, or SCOPE with DETAIL 5 where one of them cannot be read. -/
def State.orBroken (s : State) (g : Group) (tid : Nat) (c : Ctx) (r : Option State) : State :=
  match r with
  | some s => s
  | none => s.trap g tid (c.bad 5)

/-! ### The homes of a context's structures (R344, R361) -/

/-- The layer's entry, and the page-table entry of page index j. -/
def State.entrySpans (s : State) (c : Ctx) (l j : Nat) : List (Nat × Nat) :=
  (c.table + 16 * l, 16) :: ((s.ctxLayer c l).map fun x => (x.1 + 8 * j, 8)).toList

/-- The publish bits of n positions from p on. -/
def State.bitSpans (s : State) (c : Ctx) (l p n : Nat) : List (Nat × Nat) :=
  ((s.ctxLayer c l).map fun x => (x.2 + p / 8, (p + n - 1) / 8 + 1 - p / 8)).toList

/-- Some bytes of a context page by page, each part with its address and length. -/
def pageParts (l : List (Nat × Nat)) : List (Nat × Nat) :=
  l.flatMap fun x => (List.range ((x.1 % 4096 + x.2 + 4095) / 4096)).map fun i =>
    let va := if i = 0 then x.1 else (x.1 / 4096 + i) * 4096
    (va, min (x.1 + x.2) ((x.1 / 4096 + i + 1) * 4096) - va)

/-- The first address among some bytes of a context whose home is out of service (R361). -/
def State.downIn (s : State) (c : Ctx) (l : List (Nat × Nat)) : Option Nat :=
  ((pageParts l).map (·.1)).find? fun va => (s.homeAddr c.tenant c.asid va false).any fun pa => !s.homeUp pa

/-- A word's accesses to some bytes of a context are performed at the home, in its agent's program order: the core's dirty bytes of
them are there, and the core keeps no lease on them (R164, R183). -/
def State.meetSpans (s : State) (ag : Agent) (c : Ctx) (l : List (Nat × Nat)) : State :=
  (pageParts l).foldl (fun s x => match s.homeAddr c.tenant c.asid x.1 false with
    | some pa => (s.toHome ag (.mem pa) x.2).fromHome ag (.mem pa) x.2
    | none => s) s

/-- The homes' own accesses to some bytes of a context set A of their leaves (R344). -/
def State.touchSpans (s : State) (c : Ctx) (l : List (Nat × Nat)) : State :=
  l.foldl (fun s x => s.touchedAll c.tenant c.asid x.1 x.2 false) s

/-- What a word does in one thread with bytes of a context; it traps HOMEDOWN where one of them is homed on a die that is out of
service (R361). -/
def State.onLive (s : State) (g : Group) (tid : Nat) (c : Ctx) (l : List (Nat × Nat)) (f : State → State) : State :=
  match s.downIn c l with
  | some va => s.trap g tid (homeDown (BitVec.ofNat 64 va) false)
  | none => f (match s.team? g.team with | some tm => s.meetSpans (tm.agent tid) c l | none => s)

/-! ### CRSV (R163) -/

/-- Takes the first free page for page index j at layer l. -/
def State.takePage (s : State) (c : Ctx) (l j : Nat) : Option (Ctx × State) :=
  match s.cNat c c.free 8, s.ctxLayer c l with
  | some next, some (t, _) =>
      let key := s.pageKey c c.free
      match s.cWrite c (c.countAt c.free 0) (List.replicate 64 0) with
      | some s =>
          let s := { s with pageMarks := s.pageMarks.filter (·.page ≠ key) }
          (s.cWrite c (t + 8 * j) (bytesLE 8 (2 ^ 63 + c.free / 2 ^ 8 % 2 ^ 40 * 2 ^ 8))).map fun s =>
            ({ c with free := next, count := c.count - 1 }, s)
      | none => none
  | _, _ => none

/-- Takes a page for page index j at each layer. -/
def State.takePages (s : State) (c : Ctx) (j : Nat) : Nat → Nat → Option (Ctx × State)
  | 0, _ => some (c, s)
  | n + 1, l =>
      match s.takePage c l j with
      | some (c, s) => s.takePages c j n (l + 1)
      | none => none

/-- The pages of the free list. -/
def State.freePages (s : State) (c : Ctx) : Nat → Nat → List Nat
  | 0, _ => []
  | n + 1, p => p :: s.freePages c n (((s.cNat c p 8)).getD 0)

/-- What taking a page for page index j at each layer reads and writes. -/
def State.takeSpans (s : State) (c : Ctx) (j : Nat) : List (Nat × Nat) :=
  (s.freePages c c.layers c.free).zipIdx.flatMap fun x => (x.1, 8) :: (c.countAt x.1 0, 64) :: s.entrySpans c x.2 j

/-- CRSV in one thread. -/
def State.crsvOne (d a : Code) (trap : Bool) (pd : P3) (n : BitVec 5) (s : State) (g : Group) (tid : Nat) : State :=
  s.withCtx g tid a true fun s _ th _ c =>
    let p := c.tail
    let j := (p + 15) / 16
    let new := 16 * j < p + n.toNat
    if p + n.toNat > c.maxpos ∨ c.count < (if new then c.layers else 0) then
      if trap then s.trap g tid (badAt .nopage 0 (BitVec.ofNat 64 c.addr))
      else s.results g tid .wc { regs := th.dst32 d 0xFFFFFFFF false, preds := [(pd.toNat, false)], flags := 0 } none
    else
      let l := if new then s.takeSpans c j else []
      s.onLive g tid c l fun s => s.orBroken g tid c ((if new then s.takePages c j c.layers 0 else some (c, s)).map fun (c, s) =>
        ((s.touchSpans c l).ctxPut { c with tail := p + n.toNat }).results g tid .wc
          { regs := th.dst32 d (BitVec.ofNat 32 p) false, preds := [(pd.toNat, true)], flags := 0 } none)

/-- Meaning of CRSV: ascending slots, each served at the home. -/
def execCrsv (d a : Code) (trap : Bool) (pd : P3) (n : BitVec 5) (m : Mods) (s : State) : Host.Outcome State Fault Refusal :=
  .next (eachLane m (State.crsvOne d a trap pd n) s)

/-! ### CWKV and CPUB (R164, R165) -/

/-- Sets or clears the bitmap bit of position p at a layer. -/
def State.ctxBit (s : State) (c : Ctx) (l p : Nat) (on : Bool) : Option State :=
  match s.ctxLayer c l with
  | some (_, b) =>
      match s.cNat c (b + p / 8) 1 with
      | some x =>
          let k := 2 ^ (p % 8)
          s.cWrite c (b + p / 8) [BitVec.ofNat 8 (x - x / k % 2 * k + on.toNat * k)]
      | none => none
  | none => none

/-- Whether position p is published at a layer. -/
def State.published (s : State) (c : Ctx) (l p : Nat) : Bool :=
  match s.ctxLayer c l with
  | some (_, b) => ((s.cNat c (b + p / 8) 1).getD 0) / 2 ^ (p % 8) % 2 == 1
  | none => false

/-- Writes the signatures of heads h onwards of a complete position. -/
def State.writeSigs (s : State) (c : Ctx) (l page r : Nat) : Nat → Nat → Option State
  | 0, _ => some s
  | n + 1, h =>
      match s.cRead c (c.keyAt page r h 0) (2 * c.hdim) with
      | some b =>
          match s.cWrite c (c.sigAt page r h) (bytesLE 8 (c.signature l h (halfwords c.hdim b)).toNat) with
          | some s => s.writeSigs c l page r n (h + 1)
          | none => none
      | none => none

/-- One element pair at its page: elements, write count, and at the last pair the signatures and a requested publish. -/
def State.writePair (s : State) (c : Ctx) (l p page tid : Nat) (kv : DWord) : Option State :=
  let r := p % 16
  let h := 2 * tid / c.hdim
  let i := 2 * tid % c.hdim
  let at' := c.keyAt page r h i
  match s.cWrite c at' (bytesLE 4 (kv.toNat % 2 ^ 32)) with
  | none => none
  | some s =>
      match s.cWrite c (at' + 32 * c.elems) (bytesLE 4 (kv.toNat / 2 ^ 32)), s.cNat c (c.countAt page r) 4 with
      | some s, some n =>
          match s.cWrite c (c.countAt page r) (bytesLE 4 (n + 1)) with
          | none => none
          | some s =>
              if (n + 1) % 2 ^ 16 = c.elems / 2 then
                match s.writeSigs c l page r c.heads 0 with
                | some s => if n / 2 ^ 16 % 2 = 1 then s.ctxBit c l p true else some s
                | none => none
              else some s
      | _, _ => none

/-- What writing an element pair of a thread reads and writes: the pair and the write count, and at the last pair the keys and
signatures, with the publish bit where a publish is requested. -/
def State.pairSpans (s : State) (c : Ctx) (l p page tid : Nat) : List (Nat × Nat) :=
  let r := p % 16
  let at' := c.keyAt page r (2 * tid / c.hdim) (2 * tid % c.hdim)
  let n := (s.cNat c (c.countAt page r) 4).getD 0
  [(at', 4), (at' + 32 * c.elems, 4), (c.countAt page r, 4)]
    ++ (if (n + 1) % 2 ^ 16 = c.elems / 2 then
          [(c.keyAt page r 0 0, 2 * c.elems), (c.sigAt page r 0, 8 * c.heads)] ++ (if n / 2 ^ 16 % 2 = 1 then s.bitSpans c l p 1 else [])
        else [])

/-- CWKV in one thread. -/
def State.cwkvOne (d a b : Code) (s : State) (g : Group) (tid : Nat) : State :=
  s.withCtx g tid a false fun s _ th e c =>
    let w := e.rd32 th d 6
    let l := posLayer w
    let p := posOf w
    if c.layers ≤ l then s.trap g tid (c.bad 6)
    else if c.elems / 2 ≤ tid then s.trap g tid (c.bad 8)
    else if c.tail ≤ p then s.trap g tid (c.bad 7)
    else s.onLive g tid c (s.entrySpans c l (p / 16)) fun s =>
      match s.ctxPage c l (p / 16) with
      | none => s.trap g tid (c.bad 7)
      | some page =>
          let key := s.pageKey c page
          let mark := p % 16 * 1024 + tid
          let spans := s.pairSpans c l p page tid
          s.onLive g tid c spans fun s =>
          if mark ∈ s.marksOf key then s.trap g tid (c.bad 9)
          else
            s.orBroken g tid c ((s.writePair c l p page tid (e.rd64 th b 2)).map fun s =>
              let s := s.touchSpans c (s.entrySpans c l (p / 16) ++ spans)
              ({ s with pageMarks := put (·.page) { page := key, marks := mark :: s.marksOf key } s.pageMarks }).results g tid
                .wc Out.none none)

/-- Meaning of CWKV. -/
def execCwkv (d a b : Code) (m : Mods) (s : State) : Host.Outcome State Fault Refusal :=
  .next (eachLane m (State.cwkvOne d a b) s)

/-- Publishes one position: its bit, or the request. -/
def State.publishOne (s : State) (c : Ctx) (l p : Nat) : Option State :=
  match s.ctxPage c l (p / 16) with
  | some page =>
      match s.cNat c (c.countAt page (p % 16)) 4 with
      | some n =>
          if n % 2 ^ 16 = c.elems / 2 then s.ctxBit c l p true
          else s.cWrite c (c.countAt page (p % 16)) (bytesLE 4 (n % 2 ^ 16 + 2 ^ 16))
      | none => none
  | none => none

/-- Publishes n positions. -/
def State.publishAll (s : State) (c : Ctx) (l : Nat) : Nat → Nat → Option State
  | 0, _ => some s
  | n + 1, p =>
      match s.publishOne c l p with
      | some s => s.publishAll c l n (p + 1)
      | none => none

/-- Whether every page of a run of positions is valid at a layer and the run lies below TAIL. -/
def State.coveredRun (s : State) (c : Ctx) (l p n : Nat) : Bool :=
  p + n ≤ c.tail && (List.range ((p + n - 1) / 16 + 1 - p / 16)).all fun i => (s.ctxPage c l (p / 16 + i)).isSome

/-- The layer's entries for the pages of n positions from p on. -/
def State.runSpans (s : State) (c : Ctx) (l p n : Nat) : List (Nat × Nat) :=
  (List.range ((p + n - 1) / 16 + 1 - p / 16)).flatMap fun i => s.entrySpans c l (p / 16 + i)

/-- What publishing n positions from p on reads and writes of their pages and of the bitmap. -/
def State.publishSpans (s : State) (c : Ctx) (l p n : Nat) : List (Nat × Nat) :=
  (List.range n).flatMap fun i =>
    ((s.ctxPage c l ((p + i) / 16)).map fun page =>
      let x := c.countAt page ((p + i) % 16)
      (x, 4) :: (if ((s.cNat c x 4).getD 0) % 2 ^ 16 = c.elems / 2 then s.bitSpans c l (p + i) 1 else [])).getD []

/-- Where every resident team stands. -/
def State.teamPlaces (s : State) : List (Nat × Nat) := (s.teams.filter (·.resident)).map fun t => (t.id, t.core)

/-- CPUB in one thread. -/
def State.cpubOne (d a : Code) (n : BitVec 10) (m : Mods) (s : State) (g : Group) (tid : Nat) : State :=
  s.withCtx g tid a true fun s tm th e c =>
    let w := e.rd32 th d 6
    let l := posLayer w
    let p := posOf w
    if c.layers ≤ l then s.trap g tid (c.bad 6)
    else if c.tail < p + n.toNat then s.trap g tid (c.bad 7)
    else s.onLive g tid c (s.runSpans c l p n.toNat) fun s =>
      let spans := s.publishSpans c l p n.toNat
      if !s.coveredRun c l p n.toNat then s.trap g tid (c.bad 7)
      else s.onLive g tid c spans fun s =>
      let ag := tm.agent tid
      let sc := (syncOf m).scope
      s.orBroken g tid c (((s.release ag sc none).publishAll c l n.toNat p).map fun s =>
        let s := s.touchSpans c (s.runSpans c l p n.toNat ++ spans)
        let x : Publish := { ctx := c.pa, seq := c.pseq, layer := l, pos := p, count := n.toNat, team := tm.id, tid := tid
                             core := tm.core, scope := ag.scope sc, places := s.teamPlaces }
        ({ s with publishes := s.publishes ++ [x] }.ctxPut { c with pseq := (c.pseq + 1) % 2 ^ 64 }).results g tid .wc
          Out.none none)

/-- Meaning of CPUB. -/
def execCpub (d a : Code) (n : BitVec 10) (m : Mods) (s : State) : Host.Outcome State Fault Refusal :=
  .next (eachLane m (State.cpubOne d a n m) s)

/-! ### CACQ (R166) -/

/-- Records an acquire mark; of five, the oldest is dropped and its scope remembered. -/
def Thread.mark (x : Mark) (th : Thread) : Thread :=
  let l := x :: th.marks.filter (·.ctx ≠ x.ctx)
  { th with marks := l.take 4
            dropped := l.drop 4 ++ th.dropped.filter fun y => y.ctx ≠ x.ctx ∧ (l.drop 4).all (·.ctx ≠ y.ctx) }

/-- CACQ in one thread. The mark is taken when the word issues, so that a CATT that issues before the CACQ has returned includes
what that CACQ covers as well, which R167 leaves open: the model's choice (log 113). -/
def State.cacqOne (a : Code) (m : Mods) (s : State) (g : Group) (tid : Nat) : State :=
  s.withCtx g tid a false fun s tm _ _ c =>
    let ag := tm.agent tid
    let sc := (syncOf m).scope
    ((s.acquire ag sc none).modThread tm.id tid (Thread.mark
      { ctx := c.addr, scope := ag.scope sc, seq := c.pseq, core := tm.core, places := s.teamPlaces })).results g tid .wc Out.none none

/-- Meaning of CACQ. -/
def execCacq (a : Code) (m : Mods) (s : State) : Host.Outcome State Fault Refusal :=
  .next (eachLane m (State.cacqOne a m) s)

/-! ### Assembling a head (R168) -/

/-- The contributors of the head that a thread belongs to. -/
def Ctx.contributors (c : Ctx) (tid : Nat) : List Nat :=
  let n := c.hdim / 2
  (List.range n).map (tid / n * n + ·)

/-- What a thread that is blocked in a word of a head still being assembled holds. -/
def Thread.joining (th : Thread) : Option Wait :=
  match th.status with
  | .blocked b =>
      match b.wait with
      | .csig .. => some b.wait
      | .catt .. => some b.wait
      | _ => none
  | _ => none

/-- Whether two contributors of one word agree; none where they are in different words. R168 does not say what makes two words of a head
the same: the model joins any two CSIGs of it, and any two CATTs, wherever they stand in the code, and lets a CSIG and a CATT wait apart
(log 116). -/
def Wait.agrees : Wait → Wait → Option Bool
  | .csig _ c p _, .csig _ c' p' _ => some (c == c' && p == p')
  | .catt c p _ k r x _, .catt c' p' _ k' r' x' _ => some (c == c' && p == p' && k == k' && r == r' && x == x')
  | _, _ => none

/-- The waits of a head's contributors, by ascending TID. -/
def Team.joined (tm : Team) (l : List Nat) (w : Wait) : List Wait :=
  l.filterMap fun t => ((tm.thread? t).bind (·.joining)).filter fun x => (w.agrees x).isSome

/-- The element pair of a contributor. -/
def Wait.pair : Wait → Word
  | .csig _ _ _ x => x
  | .catt _ _ x _ _ _ _ => x
  | _ => 0

/-- The assembled vector of a head. -/
def assembled (l : List Wait) : List Nat := l.flatMap fun w => [w.pair.toNat % 65536, w.pair.toNat / 65536]

/-- Blocks a thread as a contributor, traps it where it disagrees, and runs `done` when the head is complete. -/
def State.join (s : State) (g : Group) (tid : Nat) (tm : Team) (c : Ctx) (w : Wait) (done : State → List Nat → List Wait → State) :
    State :=
  let who := c.contributors tid
  if (tm.joined who w).any fun x => w.agrees x == some false then s.trap g tid (c.bad 10)
  else
    let s := s.block g tid w
    match s.team? tm.id with
    | some tm' =>
        let l := tm'.joined who w
        if l.length = who.length then done s who l else s
    | none => s

/-! ### CSIG (R169) -/

/-- CSIG in one thread. The last contributor's step writes every pair, so that no word reads a pair before its result has
returned, as R56 would let one: the model's choice (log 114). -/
def State.csigOne (d a b : Code) (s : State) (g : Group) (tid : Nat) : State :=
  s.withCtx g tid a false fun s tm th e c =>
    let pos := e.rdAt th b 1 3
    if c.elems / 2 ≤ tid then s.trap g tid (c.bad 8)
    else if c.layers ≤ posLayer pos then s.trap g tid (c.bad 6)
    else
      s.join g tid tm c (.csig d c.addr pos (e.rd32 th b 2)) fun s who l =>
        let x := c.signature (posLayer pos) (tid / (c.hdim / 2)) (assembled l)
        (who.zip l).foldl (fun s y =>
          match y.2, s.thread? tm.id y.1 with
          | .csig d _ _ _, some h => s.unblock tm.id y.1 (Out.reg (h.dst64 d x))
          | _, _ => s) s

/-- Meaning of CSIG. -/
def execCsig (d a b : Code) (s : State) : Host.Outcome State Fault Refusal := .next (eachLane .none (State.csigOne d a b) s)

/-! ### CATT (R167, R170 to R172) -/

/-- The exact sum of two numbers. -/
def Num.plus : Num → Num → Num
  | .fin a m e, .fin b n k =>
      let q := min e k
      let x : Int := (m * 2 ^ (e - q).toNat : Nat)
      let y : Int := (n * 2 ^ (k - q).toNat : Nat)
      let v := (if a then -x else x) + (if b then -y else y)
      .fin (v < 0) v.natAbs q
  | .inf a, .inf b => if a = b then .inf a else .nan false false 0
  | .inf a, .fin .. => .inf a
  | .fin .., .inf b => .inf b
  | _, _ => .nan false false 0

/-- The exact product of two numbers. -/
def Num.times (x y : Num) : Num := if x.isNan || y.isNan || zeroInf x y then .nan false false 0 else product x y

/-- An exact sum. -/
def Num.sum (l : List Num) : Num := l.foldl Num.plus (.fin false 0 0)

/-- The exact zero without a sign. -/
def Num.tidy : Num → Num
  | .fin n m e => .fin (n && m != 0) m e
  | x => x

/-- Rounds an exact value to f32 with `round_ne` (R170), whose flags are R76's. -/
def roundSum (x : Num) : Nat × BitVec 6 :=
  match x.tidy with
  | .nan .. => (fmtF32.canon, 0)
  | y => fmtF32.ofNum FOp.rne y

/-- 2^(x - top) as FEXP2 gives it, of an exact difference that is not above 0; any rounding sets NX (R170, log 44). -/
def powDiff (x top : Num) : Nat × BitVec 6 :=
  match x.plus top.flip with
  | .fin n m e =>
      let r := fmtF32.exp2Of false n (m * 2 ^ e.toNat) (-e).toNat
      (r.1, r.2 &&& flNX)
  | _ => (0, 0)

/-- A position that a query includes: its score's encoding, and its values. -/
structure Included where
  score : Nat
  values : List Nat
  deriving DecidableEq, Repr

/-- M, S and O of one slice (R170), with flags. -/
def Ctx.partialOf (c : Ctx) (l : List Included) : Nat × Nat × List Nat × BitVec 6 :=
  let xs := l.map fun (i : Included) => fmtF32.unpack i.score
  if xs.any fun x => x.isNan || x == .inf false then
    (fmtF32.canon, fmtF32.canon, List.replicate c.hdim fmtF32.canon, 0)
  else if xs.all (· == .inf true) then (fmtF32.signed true fmtF32.top, 0, List.replicate c.hdim 0, 0)
  else
    let top := l.foldl (fun (m : Nat) i => (fmtF32.pick true m i.score).1) (fmtF32.signed true fmtF32.top)
    let terms := xs.map fun x => if x == .inf true then (0, 0) else powDiff x (fmtF32.unpack top)
    let sum := roundSum (Num.sum (terms.map fun t => fmtF32.unpack t.1))
    let outs := (List.range c.hdim).map fun e =>
      roundSum (Num.sum ((terms.zip l).map fun y => (fmtF32.unpack y.1.1).times (c.fmt.unpack (y.2.values.getD e 0))))
    (top, sum.1, outs.map (·.1), (terms.map (·.2) ++ outs.map (·.2)).foldl (· ||| ·) sum.2)

/-- Whether a scope of a party on a core contains another team, which stands on some core or on none (R181). -/
def Scope.holds (sc : Scope) (team core team' : Nat) (core' : Option Nat) : Bool :=
  match sc with
  | .team => team == team'
  | .core => core'.any (core == ·)
  | .clus => core'.any fun x => clusOf core == clusOf x
  | .sgrp => core'.any fun x => sgrpOf (clusOf core) == sgrpOf (clusOf x)
  | .dom | .sys => true

/-- The core of a team in a record of where the teams stood. -/
def placeIn (l : List (Nat × Nat)) (team : Nat) : Option Nat := (l.find? (·.1 = team)).map (·.2)

/-- Whether a publish must be seen by a thread that acquired with a mark (R167): each scope is judged by where the parties stood
when its word was performed (R181). -/
def Publish.seenBy (x : Publish) (tm : Team) (tid : Nat) (y : Mark) : Bool :=
  (x.team == tm.id && x.tid == tid) ||
    (x.seq < y.seq && Scope.holds x.scope x.team x.core tm.id (placeIn x.places tm.id)
      && Scope.holds y.scope tm.id y.core x.team (placeIn y.places x.team))

/-- The mark under which a thread queries a context: its own, or the one that comes with the CATT (R166). A mark belongs to the
virtual address of a descriptor, which the manual leaves open: the model's choice (log 113). -/
def Thread.markFor (th : Thread) (ag : Agent) (c : Ctx) (places : List (Nat × Nat)) : Mark × Bool :=
  match th.marks.find? (·.ctx = c.addr) with
  | some x => (x, false)
  | none =>
      let sc := ((th.dropped.find? (·.ctx = c.addr)).map (·.scope)).getD (ag.scope .team)
      ({ ctx := c.addr, scope := sc, seq := c.pseq, core := ag.core, places := places }, true)

/-- The pages of a context that are valid at a layer, with their page index. -/
def State.ctxPages (s : State) (c : Ctx) (l : Nat) : List (Nat × Nat) :=
  (List.range (c.maxpos / 16)).filterMap fun j => (s.ctxPage c l j).map fun p => (j, p)

/-- The cluster whose slice homes a page. -/
def State.pageHome (s : State) (c : Ctx) (page : Nat) : Nat := homeOf ((s.homeAddr c.tenant c.asid page false).getD 0)

/-- The slices that home the pool's pages, in ascending order. -/
def State.ctxSlices (s : State) (c : Ctx) : List Nat :=
  let pages := (List.range c.layers).flatMap (fun l => (s.ctxPages c l).map (·.2)) ++ s.freePages c c.count c.free
  let homes := pages.map (s.pageHome c)
  (List.range 128).filter fun n => homes.contains n

/-- Whether a memory page that holds bytes of a context page is poisoned (R172). -/
def State.pagePoisoned (s : State) (c : Ctx) (page : Nat) : Bool :=
  (List.range ((c.bytes + 4095) / 4096 + 1)).any fun i =>
    match s.walk c.tenant c.asid (min (page + 4096 * i) (page + c.bytes - 1)) with
    | .ok e => e.psn
    | .error _ => false

/-- A query that has been assembled. -/
structure Query where
  layer : Nat
  limit : Nat
  head : Nat
  vec : List Nat
  sig : DWord
  radius : Nat
  scale : Nat
  must : List Publish
  deriving DecidableEq, Repr

/-- The score of a key (R170) with the flags of its rounding. -/
def Ctx.score (c : Ctx) (q : Query) (key : List Nat) : Nat × BitVec 6 :=
  let dot := Num.sum ((q.vec.zip key).map fun x => (c.fmt.unpack x.1).times (c.fmt.unpack x.2))
  roundSum ((fmtF32.unpack q.scale).times dot)

/-- The position r of a page in a query: left out, or included with its score's flags (R167). -/
def State.consider (s : State) (c : Ctx) (q : Query) (j page r : Nat) : Option (Included × BitVec 6) :=
  let p := 16 * j + r
  let near := fun (x : Nat) => ((List.range 64).countP fun k => (BitVec.ofNat 64 x ^^^ q.sig).getLsbD k) ≤ q.radius
  let must := q.must.any fun x => x.pos ≤ p && p < x.pos + x.count
  if (c.opened || p ≤ q.limit) && s.published c q.layer p && near ((s.cNat c (c.sigAt page r q.head) 8).getD 0)
      && (must || choose (choiceAt s.fresh p 50) true [true, false]) then
    let key := halfwords c.hdim ((s.cRead c (c.keyAt page r q.head 0) (2 * c.hdim)).getD [])
    let val := halfwords c.hdim ((s.cRead c (c.keyAt page r q.head 0 + 32 * c.elems) (2 * c.hdim)).getD [])
    let x := c.score q key
    some ({ score := x.1, values := val }, x.2)
  else none

/-- What one slice answers: its record, the positions it included, poisoned pages, whether its die is down, whether M is
NaN, flags. -/
structure Answer where
  record : List Byte
  incl : Nat
  poisoned : Nat
  down : Bool
  nan : Bool
  flags : BitVec 6
  deriving DecidableEq, Repr

/-- RSIZE (R171). -/
def recordSize (hdim : Nat) : Nat := (16 + 4 * hdim + 15) / 16 * 16

/-- A slice's answer to a query (R170, R172). -/
def State.askSlice (s : State) (c : Ctx) (q : Query) (slice : Nat) : Answer :=
  let down := !(s.die (dieOfClus slice)).serves
  let mine := if down then [] else (s.ctxPages c q.layer).filter fun x => s.pageHome c x.2 == slice
  let (bad, good) := mine.partition fun x => s.pagePoisoned c x.2
  let inc := good.flatMap fun x => (List.range 16).filterMap fun r => s.consider c q x.1 x.2 r
  let (m, sum, o, fl) := c.partialOf (inc.map (·.1))
  let b := bytesLE 4 m ++ bytesLE 4 sum ++ bytesLE 4 inc.length ++ bytesLE 4 slice ++ o.flatMap (bytesLE 4)
  { record := b ++ List.replicate (recordSize c.hdim - b.length) 0, incl := inc.length, poisoned := bad.length, down := down
    nan := (fmtF32.unpack m).isNan, flags := inc.foldl (fun f x => f ||| x.2) fl }

/-- The block of a CATT (R171), whether STATUS bits 1:0 are zero, and the flags. -/
def State.cattBlock (s : State) (c : Ctx) (q : Query) (slices : List Nat) : List Byte × Bool × BitVec 6 :=
  let as := slices.map (s.askSlice c q)
  let pois := (as.map (·.poisoned)).sum
  let st := (decide (0 < pois)).toNat + (as.any (·.down)).toNat * 2 + (as.any (·.nan)).toNat * 4
  (bytesLE 4 as.length ++ bytesLE 4 (as.map (·.incl)).sum ++ bytesLE 2 (min pois 65535) ++ bytesLE 1 q.head ++ bytesLE 1 st
    ++ bytesLE 2 c.hdim ++ bytesLE 2 (recordSize c.hdim) ++ as.flatMap (·.record), st % 4 == 0,
    as.foldl (fun f x => f ||| x.flags) 0)

/-- The destination predicate of a thread's blocked CATT. -/
def Thread.cattPred (th : Thread) : Option P3 :=
  match th.status with
  | .blocked b => (match b.wait with | .catt _ _ _ _ _ _ pd => some pd | _ => none)
  | _ => none

/-- The slices' own reads of a context's structures at a layer, and of the pages that are valid there (R344). -/
def State.touchCtx (s : State) (c : Ctx) (l : Nat) : State :=
  let go := fun (s : State) (va n : Nat) => s.touchedAll c.tenant c.asid va n false
  let s := match s.ctxLayer c l with
    | some (t, b) => go (go s t (8 * (c.maxpos / 16))) b (c.maxpos / 8)
    | none => s
  (s.ctxPages c l).foldl (fun s x => go s x.2 c.bytes) (go s (c.table + 16 * l) 16)

/-- A complete head is sent to every slice, and its block waits to be written; its contributors go on, and the predicate and the
flags reach each of them on WC with the block (R168, R171). The CACQ that comes with a CATT records no mark: the manual does not
say that it does, and the model chooses so (log 113). -/
def State.query (s : State) (tm : Team) (c : Ctx) (segs : List Seg) (pos radius scale : Word) (head : Nat) (who : List Nat)
    (vec : List Nat) : State :=
  let (s, must) := who.foldl (fun (a : State × List Publish) t =>
    match a.1.thread? tm.id t with
    | some th =>
        let ag := tm.agent t
        let (x, implied) := th.markFor ag c a.1.teamPlaces
        (if implied then a.1.acquire ag x.scope none else a.1,
          a.2 ++ a.1.publishes.filter fun y => y.ctx == c.pa && y.layer == posLayer pos && y.seenBy tm t x)
    | none => a) (s, [])
  let q : Query := { layer := posLayer pos, limit := posOf pos, head := head, vec := vec
                     sig := c.signature (posLayer pos) head vec, radius := radius.toNat, scale := scale.toNat, must := must }
  let (data, ok, flags) := s.cattBlock c q (s.ctxSlices c)
  let (id, s) := s.newId
  let s := who.foldl (fun s t =>
    match (s.thread? tm.id t).bind (·.cattPred) with
    | some pd => s.letGo tm.id t .wc { regs := [], preds := [(pd.toNat, ok)], flags := flags } id
    | none => s) (s.touchCtx c (posLayer pos))
  { s with catts := s.catts ++ [{ id := id, team := tm.id, tid := who.headD 0, block := segs, data := data }] }

/-- The bytes of a CATT's block for a context; where the descriptor is malformed, of the block's header alone (log 97). -/
def cattSpan (x : Except Bad Ctx) : Nat := match x with | .ok c => 16 + c.span * recordSize c.hdim | .error _ => 16

/-- CATT in one thread: the descriptor's address and the block are checked under R128, then what this chapter lists (R162). -/
def State.cattOne (d a b : Code) (pd : P3) (s : State) (g : Group) (tid : Nat) : State :=
  s.withThread g tid fun tm th e =>
    let ag := tm.agent tid
    let blk := e.rd64 th d 6
    let pos := e.rdAt th b 1 3
    let radius := e.rdAt th b 2 4
    let scale := e.rdAt th b 3 5
    match s.readStruct ag (e.addr th a).toNat 256 256 with
    | (s, .error x) => s.trap g tid x
    | (s, .ok bytes) =>
        let found := s.ctxFrom ag (e.addr th a).toNat bytes
        match misaligned blk.toNat 16 true with
        | some x => s.trap g tid x
        | none =>
            match s.range ag blk.toNat (cattSpan found) .claim with
            | (s, .error x) => s.trap g tid x
            | (s, .ok (segs, _)) =>
                match found with
                | .error x => s.trap g tid x
                | .ok c =>
                    if (s.ctxSlices c).length ≠ c.span then s.trap g tid (c.bad 5)
                    else if c.elems / 2 ≤ tid then s.trap g tid (c.bad 8)
                    else if c.layers ≤ posLayer pos then s.trap g tid (c.bad 6)
                    else if 64 < radius.toNat then s.trap g tid (c.bad 11)
                    else
                      s.join g tid tm c (.catt c.addr pos (e.rd32 th b 2) blk radius scale pd) fun s who l =>
                        s.query tm c segs pos radius scale (tid / (c.hdim / 2)) who (assembled l)

/-- Meaning of CATT. -/
def execCatt (d a b : Code) (pd : P3) (s : State) : Host.Outcome State Fault Refusal :=
  .next (eachLane .none (State.cattOne d a b pd) s)

/-- The core writes a block once every slice has answered, and each contributor gets its results (R171). -/
def State.writeBlock (s : State) (job : Nat) : State :=
  match s.catts.find? (·.id = job) with
  | some j =>
      let s := { s with catts := s.catts.filter (·.id ≠ job) }
      match s.team? j.team with
      | some tm => ((s.dirtySegs j.block).segStore (tm.agent j.tid) j.block j.data).endJob job
      | none => s
  | none => s

/-- Meaning of CATT_BLOCK_WRITE: with its block written, a CARVE of the team may take effect (R110). -/
def execCattBlockWrite (job : Nat) (s : State) : Host.Outcome State Fault Refusal :=
  .next (match s.catts.find? (·.id = job) with
    | some j => (s.writeBlock job).checkCarve j.team
    | none => s)

/-! ### CMRG (R173) -/

/-- Reads n pieces of 16 bytes as LD does. -/
def State.loadPieces (s : State) (ag : Agent) : Nat → Nat → State × Except Bad (List Byte)
  | 0, _ => (s, .ok [])
  | n + 1, va =>
      match s.memRead ag va 16 Sync.plain with
      | (s, .error b) => (s, .error b)
      | (s, .ok x) =>
          match s.loadPieces ag n (va + 16) with
          | (s, .error b) => (s, .error b)
          | (s, .ok y) => (s, .ok (x ++ y))

/-- The quotient of two exact values, rounded once. -/
def Fmt.quotient (f : Fmt) (o : FOp) : Num → Num → Nat × BitVec 6
  | .fin a m e, .fin b n k =>
      if n = 0 then (if m = 0 then f.invalid else (f.signed (a != b) f.top, flDZ))
      else if m = 0 then (f.signed (a != b) 0, 0)
      else
        let (r, q) := ratio (f.man + 4) m n (e - k)
        f.round o.rm o.sat (a != b) r q
  | .nan .., _ => (f.canon, 0)
  | _, .nan .. => (f.canon, 0)
  | .inf _, .inf _ => f.invalid
  | .inf a, b => (f.signed (a != b.neg) f.top, 0)
  | a, .inf b => (f.signed (a.neg != b) 0, 0)

/-- Merges records of M, S, O_2j, O_2j+1 (R173). The flags are those of the quotients; the manual does not say that rounding an
f_k raises any, and the model drops them (log 45). -/
def mergeRecords (f : Fmt) (rm : Rm) (l : List (Nat × Nat × Nat × Nat)) : Nat × Nat × BitVec 6 :=
  let ms := l.map fun x => fmtF32.unpack x.1
  if ms.any (·.isNan) then (f.canon, f.canon, flNV)
  else
    let top := ms.foldl (fun m x => if m.cmp x == .lt then x else m) (.inf true)
    if top == .inf true then (0, 0, 0)
    else
      let fs := ms.map fun x => fmtF32.unpack (if x == top then fmtF32.bias * 2 ^ 23 else (powDiff x top).1)
      let sum := fun (g : Nat × Nat × Nat × Nat → Nat) =>
        (Num.sum ((fs.zip l).map fun y => y.1.times (fmtF32.unpack (g y.2)))).tidy
      let o : FOp := { rm := rm, sat := false, scale := 0 }
      let s := sum fun x => x.2.1
      let a := f.quotient o (sum fun x => x.2.2.1) s
      let b := f.quotient o (sum fun x => x.2.2.2) s
      (a.1, b.1, a.2 ||| b.2)

/-- The format of CMRG's output. -/
def mrgFmt : MrgFmt → Fmt
  | .f16x2 => fmtF16 | .bf16x2 => fmtBf16 | .f32 => fmtF32

/-- CMRG in one thread. -/
def State.cmrgOne (d a : Code) (f : MrgFmt) (s : State) (g : Group) (tid : Nat) : State :=
  s.withThread g tid fun tm th e =>
    let ag := tm.agent tid
    let va := (e.addr th a).toNat
    match s.memRead ag va 16 Sync.plain with
    | (s, .error x) => s.trap g tid x
    | (s, .ok hd) =>
        let n := fieldAt hd 0 4
        let hdim := fieldAt hd 12 2
        let rs := fieldAt hd 14 2
        if n = 0 ∨ 128 < n ∨ hdim % 2 ≠ 0 ∨ hdim < 2 ∨ 256 < hdim ∨ rs ≠ recordSize hdim then
          s.trap g tid (badAt .scope 12 (BitVec.ofNat 64 va))
        else
          match s.range ag va (16 + n * rs) .read with
          | (s, .error x) => s.trap g tid x
          | (s, .ok _) =>
              match s.loadPieces ag (n * rs / 16) (va + 16) with
              | (s, .error x) => s.trap g tid x
              | (s, .ok b) =>
                  let j := tid % (hdim / 2)
                  let l := (List.range n).map fun k =>
                    (fieldAt b (k * rs) 4, fieldAt b (k * rs + 4) 4, fieldAt b (k * rs + 16 + 8 * j) 4, fieldAt b (k * rs + 20 + 8 * j) 4)
                  let (x, y, fl) := mergeRecords (mrgFmt f) th.rm l
                  let regs := if f = .f32 then th.dst64 d (BitVec.ofNat 64 (y * 2 ^ 32 + x))
                    else th.dst32 d (BitVec.ofNat 32 (y * 2 ^ 16 + x)) false
                  s.results g tid .wc { regs := regs, preds := [], flags := fl } none

/-- Meaning of CMRG. -/
def execCmrg (d a : Code) (f : MrgFmt) (m : Mods) (s : State) : Host.Outcome State Fault Refusal :=
  .next (eachLane m (State.cmrgOne d a f) s)

/-! ### CREL (R174) -/

/-- Links a run of released pages to the former head of the free list. -/
def State.linkPages (s : State) (c : Ctx) (head : Nat) : List Nat → Option State
  | [] => some s
  | p :: l =>
      match s.cWrite c p (bytesLE 8 (l.headD head)) with
      | some s => s.linkPages c head l
      | none => none

/-- Clears the page-table entries of page indices and layers. -/
def State.clearEntries (s : State) (c : Ctx) : List (Nat × Nat) → Option State
  | [] => some s
  | (j, l) :: rest =>
      match s.ctxLayer c l with
      | some (t, b) =>
          match s.cWrite c (t + 8 * j) (List.replicate 8 0) with
          | some s => match s.cWrite c (b + 2 * j) [0, 0] with
              | some s => s.clearEntries c rest
              | none => none
          | none => none
      | none => none

/-- The layers' entries and the publish bits of page indices and layers. -/
def State.clearSpans (s : State) (c : Ctx) (which : List (Nat × Nat)) : List (Nat × Nat) :=
  which.flatMap fun x => s.entrySpans c x.2 x.1 ++ s.bitSpans c x.2 (16 * x.1) 16

/-- CREL in one thread. -/
def State.crelOne (d a : Code) (n : BitVec 10) (s : State) (g : Group) (tid : Nat) : State :=
  s.withCtx g tid a true fun s _ th e c =>
    let w := e.rd32 th d 6
    let p := posOf w
    let which := (List.range n.toNat).flatMap fun i => (List.range c.layers).map fun l => (p / 16 + i, l)
    let pages := which.filterMap fun x => s.ctxPage c x.2 x.1
    if posLayer w ≠ 0 ∨ p % 16 ≠ 0 then s.trap g tid (c.bad 13)
    else if c.tail < p + 16 * n.toNat then s.trap g tid (c.bad 7)
    else
      let spans := s.clearSpans c which ++ pages.map (·, 8)
      s.onLive g tid c spans fun s =>
      if pages.length ≠ which.length then s.trap g tid (c.bad 7)
      else s.orBroken g tid c (((s.clearEntries c which).bind fun s => s.linkPages c c.free pages).map fun s =>
        ((s.touchSpans c spans).ctxPut { c with free := pages.headD c.free, count := c.count + pages.length }).results g tid .wc Out.none none)

/-- Meaning of CREL. -/
def execCrel (d a : Code) (n : BitVec 10) (m : Mods) (s : State) : Host.Outcome State Fault Refusal :=
  .next (eachLane m (State.crelOne d a n) s)

end Sys2Proof.Machine
end

