-- ==== Sys2Proof/Machine/Task.lean ====
section
/-!
DEFINITION. Tasks that a thread creates or signals: TSPAWN, TDONE and join cells (R30, R31, R34, R152, R153).
-/

namespace Sys2Proof.Machine

/-- The slots of a cluster set that a team or a queued task holds, or that the launch of the set still owes to its next tasks
(R45). -/
def State.setSlots (s : State) (id : Nat) : List Nat :=
  let of := fun (t : Task) => match t.set with | some (i, k) => if i = id then some k else none | none => none
  let owed := s.launches.flatMap fun l => match l.set with
    | some (i, _, k) => if i = id then (List.range 4).filter fun n => k ≤ n && n < k + (l.x * l.y * l.z - l.next) else []
    | none => []
  (s.teams.filterMap fun t => of t.task) ++ (s.clusters.flatMap fun c => c.deque.filterMap of)
    ++ (s.tenants.flatMap fun t => t.spilled.filterMap fun x => of x.task) ++ owed

/-- A free slot of a team's cluster set, the lowest one. -/
def State.freeSet (s : State) (tm : Team) : Option (Nat × Nat) :=
  match tm.task.set with
  | some (id, _) => ((List.range 4).find? fun k => k ∉ s.setSlots id).map fun k => (id, k)
  | none => none

/-- TSPAWN in one thread: the release comes before the record and its kernel are judged (R152). -/
def State.tspawnOne (a : Code) (s : State) (g : Group) (tid : Nat) : State :=
  s.withThread g tid fun tm th e =>
    let va := e.addr th a
    let ag := tm.agent tid
    match s.readStruct ag va.toNat 64 64 with
    | (s, .error b) => s.trap g tid b
    | (s, .ok b) =>
        let s := s.release ag .dom none
        let t := taskOf b tm.task.owner va 0
        let s := s.seenTask b t
        if s.goodTask b t && t.cbound && (s.freeSet tm).isNone then s.trap g tid (bad .scope 4)
        else
          let t := if t.cbound then { t with set := s.freeSet tm, clus := clusOf tm.core } else t
          (s.putTask (clusOf tm.core) b t).results g tid .wq Out.none none

/-- Meaning of TSPAWN. -/
def execTspawn (a : Code) (m : Mods) (s : State) : Host.Outcome State Fault Refusal :=
  .next (eachLane m (State.tspawnOne a) s)

/-- What a decrement of a join cell finds. -/
inductive CellAnswer where
  | zero
  | left
  | done (record : List Byte)
  deriving DecidableEq, Repr

/-- Decrements the count of a join cell at its home by an agent, as one step (R153); D of its page is set where the count is written
(R344). -/
def State.cellDown (s : State) (ag : Agent) (l : Loc) (pin : Option Pin) : State × CellAnswer :=
  let s := match l with | .scr _ _ => s | l => if ag.stream then s else s.flushBytes ag.core (s.paOf l) 128
  let n := leNat (s.locRead l 8)
  if n = 0 then (s, .zero)
  else
    let s := (s.dirtied pin.toList).storeHome ag l (bytesLE 8 (n - 1))
    (s, if n = 1 then .done (s.locRead (l.add 64) 64) else .left)

/-- TDONE in one thread. -/
def State.tdoneOne (a : Code) (s : State) (g : Group) (tid : Nat) : State :=
  s.withThread g tid fun tm th e =>
    let va := e.addr th a
    let ag := tm.agent tid
    match misaligned va.toNat 128 true with
    | some b => s.trap g tid b
    | none =>
        match s.place ag va.toNat 128 .claim with
        | (s, .error b) => s.trap g tid b
        | (s, .ok (l, p)) =>
            match (s.release ag .dom none).cellDown ag l p with
            | (s, .zero) => s.trap g tid { cause := .barrier, detail := 8, write := true, addr := 0 }
            | (s, .left) => s.results g tid .wq Out.none none
            | (s, .done b) =>
                (s.createTask (clusOf tm.core) b (taskOf b tm.task.owner (va + 64) 0)).results g tid .wq Out.none none

/-- Meaning of TDONE. -/
def execTdone (a : Code) (m : Mods) (s : State) : Host.Outcome State Fault Refusal :=
  .next (eachLane m (State.tdoneOne a) s)

end Sys2Proof.Machine
end

