-- ==== Sys2Proof/Machine/Eng.lean ====
section
/-!
DEFINITION. The engines (R205 to R207, R308 to R324): acceptance with its checks, what a command moves when it
completes, and shadowed buffers.
-/

namespace Sys2Proof.Machine

/-! ### Poison -/

/-- The leaf entries of the page that a pin holds: the 16 of a 64 KiB page (R343), else one. -/
def Pin.entries (p : Pin) : List Nat := if p.log = 16 then (List.range 16).map fun i => p.pte / 128 * 128 + 8 * i else [p.pte]

/-- Marks a page poisoned in its leaf entries; no TLB keeps it (R311). -/
def State.poisonPage (s : State) (p : Pin) : State :=
  (p.entries.foldl (fun s x => s.setPte x (2 ^ 62)) s).dropTlb (fun e => p.entries.contains e.pte) fun _ => false

/-! ### Moving bytes (R313) -/

/-- Source bytes, none where their line fails its integrity check. -/
def State.engRead (s : State) (bad : List Nat) (l : List Seg) : List (Option Byte) :=
  l.flatMap fun x => match x.loc with
    | .scr t o => (s.scrRead t o x.len).map some
    | loc => (s.homeRead (s.paOf loc) x.len).zipIdx.map fun y => if bad.contains (lineOf (s.paOf loc + y.2)) then none else some y.1

/-- Source format, destination format, and the bytes of each element, of a CONV code. -/
def convOf : Nat → Option (FFmt × FFmt × Nat × Nat)
  | 1 => some (.f32, .bf16, 4, 2)
  | 2 => some (.f32, .f16, 4, 2)
  | 3 => some (.bf16, .f32, 2, 4)
  | 4 => some (.f16, .f32, 2, 4)
  | _ => none

/-- Converts n elements. -/
def convBytes (sf df : FFmt) (k o : Nat) : Nat → List (Option Byte) → List (Option Byte) × BitVec 6
  | 0, _ => ([], 0)
  | n + 1, l =>
      let (rest, fl) := convBytes sf df k o n (l.drop k)
      let e := l.take k
      if e.all (·.isSome) then
        let r := convert df sf FOp.rne false false (leNat (e.map fun b => b.getD 0))
        ((bytesLE o r.1).map some ++ rest, r.2 ||| fl)
      else (List.replicate o none ++ rest, fl)

/-- The bytes that a run brings, with flags. -/
def moveBytes (conv : Nat) (l : List (Option Byte)) : List (Option Byte) × BitVec 6 :=
  match convOf conv with
  | some (sf, df, k, o) => convBytes sf df k o (l.length / k) l
  | none => (l, 0)

/-- Bytes of an XCOPY destination. -/
def convLen (conv n : Nat) : Nat := if conv = 1 ∨ conv = 2 then n / 2 else if conv = 0 then n else 2 * n

/-- Writes at the homes or in the array for an engine; the issuing core keeps no older byte or lease. -/
def State.engWrite (s : State) (ag : Option Agent) (x : Seg) (bytes : List Byte) : State :=
  match ag with
  | some a => s.segStore a [x] bytes
  | none => s.segWrite [x] bytes

/-- Writes a run's bytes along its destination: bytes that did not arrive poison their page, or are zero in a scratchpad
and raise NV (R311). -/
def State.landRun (s : State) (ag : Option Agent) : List Seg → List Pin → List (Option Byte) → State × BitVec 6
  | [], _, _ => (s, 0)
  | x :: l, pins, d =>
      let c := d.take x.len
      let whole := c.all (·.isSome)
      match x.loc with
      | .scr _ _ =>
          let (s, fl) := (s.engWrite ag x (c.map fun b => b.getD 0)).landRun ag l pins (d.drop x.len)
          (s, fl ||| flIf (!whole) flNV)
      | loc =>
          let old := s.homeRead (s.paOf loc) x.len
          let s := s.engWrite ag x (List.zipWith (fun (b : Option Byte) o => b.getD o) c old)
          let s := match pins with
            | p :: _ => if whole then s else s.poisonPage p
            | [] => s
          s.landRun ag l (pins.drop 1) (d.drop x.len)

/-- ORs flags into a thread that has not exited (R221). -/
def State.giveFlags (s : State) (team tid : Nat) (fl : BitVec 6) : State :=
  s.modThread team tid fun h => if h.live then { h with flags := h.flags ||| fl } else h

/-- The pages of tiers below local HBM that hold bytes of some segments. -/
def State.lowPages (s : State) (l : List Seg) : List Nat :=
  (l.filterMap fun x => match x.loc with
    | .scr _ _ => none
    | loc => if s.isLocal (s.paOf loc) then none else some (s.paOf loc / 4096 * 4096)).dedup

/-- Whether some segments hold every byte of a page. -/
def State.wholePage (s : State) (l : List Seg) (page : Nat) : Bool :=
  (List.range 1024).all fun i => l.any fun x => match x.loc with
    | .scr _ _ => false
    | loc => s.paOf loc ≤ page + 4 * i && page + 4 * i < s.paOf loc + x.len

/-- The pages of lower tiers that a command of the device runtime has written whole get their tags; one that it has written in
part loses its tag (R367, log 111). -/
def State.tagPages (s : State) (l : List Seg) : State :=
  (s.lowPages l).foldl (fun s page =>
    let rest := s.tags.filter (·.page ≠ page)
    { s with tags := if s.wholePage l page then put (·.page) { page := page, crc := crc32c (s.homeRead page 4096) } rest else rest }) s

/-- The whole pages of lower tiers among a command's sources that do not match their tags (R367). -/
def State.badPages (s : State) (l : List Seg) : List Nat :=
  (s.lowPages l).filter fun page => s.wholePage l page && s.tags.any fun t => t.page = page && crc32c (s.homeRead page 4096) != t.crc

/-- The parts of a run's source that lie in some pages, as offsets and lengths in its destination. -/
def State.failedIn (s : State) (failed : List Nat) (conv : Nat) : Nat → List Seg → List (Nat × Nat)
  | _, [] => []
  | off, x :: l =>
      let hit := match x.loc with | .scr _ _ => false | loc => failed.contains (s.paOf loc / 4096 * 4096)
      (if hit then [(convLen conv off, convLen conv x.len)] else []) ++ s.failedIn failed conv (off + x.len) l

/-- Poisons the destination pages that hold bytes of failed pages (R367). -/
def State.poisonFailed (s : State) (failed : List (Nat × Nat)) : Nat → List Seg → List Pin → State
  | _, [], _ => s
  | off, x :: l, pins =>
      let hit := failed.any fun o => o.1 < off + x.len && off < o.1 + o.2
      match x.loc, pins with
      | .scr _ _, _ => s.poisonFailed failed (off + x.len) l pins
      | _, p :: rest => (if hit then s.poisonPage p else s).poisonFailed failed (off + x.len) l rest
      | _, [] => s

/-- Moves one run; `failed` are the source pages that do not match their tags. -/
def State.doRun (s : State) (team : Nat) (ag : Option Agent) (bad failed : List Nat) (r : CopyRun) : State :=
  let n := (r.dst.map (·.len)).sum
  let (d, f1) := if r.src.isEmpty then (List.replicate n (some 0), 0) else moveBytes r.conv (s.engRead bad r.src)
  let (s, f2) := s.landRun ag r.dst r.dstPins d
  let s := if failed.isEmpty then s else s.poisonFailed (s.failedIn failed r.conv 0 r.src) 0 r.dst r.dstPins
  s.giveFlags team r.tid (f1 ||| f2)

/-- Performs one signal at its home (R319); the issuing core's own bytes of the word are there first (R203). -/
def State.doSignal (s : State) (ag : Option Agent) (x : Signal) : State :=
  let s := match ag with | some a => s.toHomes a x.dst | none => s
  let v := if x.add then BitVec.ofNat 32 (leNat (s.segRead x.dst)) + x.val else x.val
  match x.dst with
  | seg :: _ => s.engWrite ag seg (bytesLE 4 v.toNat)
  | [] => s

/-! ### Overlapping runs (R314) -/

/-- The array that a location lies in, and its place there. -/
def State.spot (s : State) : Loc → Nat × Nat
  | .scr t o => (t + 1, o)
  | l => (0, s.paOf l)

/-- Whether two segments share a byte. -/
def State.segsMeet (s : State) (x y : Seg) : Bool :=
  let a := s.spot x.loc
  let b := s.spot y.loc
  a.1 == b.1 && decide (a.2 < b.2 + y.len ∧ b.2 < a.2 + x.len)

/-- Whether two runs of segments share a byte. -/
def State.runsMeet (s : State) (l m : List Seg) : Bool := l.any fun x => m.any fun y => s.segsMeet x y

/-- Cuts a segment into parts of `w` bytes. -/
def cutSeg (w : Nat) (x : Seg) : List Seg :=
  (List.range ((x.len + w - 1) / w)).map fun i => { loc := x.loc.add (w * i), len := min w (x.len - w * i) }

/-- The wholes of a run (R313): parts of its destination, each with the source bytes that make it and the pin of its page. -/
def CopyRun.cut (r : CopyRun) (w : Nat) : Nat → List Seg → List Pin → List CopyRun
  | _, [], _ => []
  | off, x :: l, pins =>
      let from' := fun (o n : Nat) =>
        if r.src.isEmpty then [] else
        if r.conv = 0 then segSlice r.src o n else if r.conv ≤ 2 then segSlice r.src (2 * o) (2 * n) else segSlice r.src (o / 2) (n / 2)
      let scr := match x.loc with | .scr _ _ => true | _ => false
      let pin := if scr then [] else pins.take 1
      ((cutSeg w x).zipIdx.map fun y => { r with src := from' (off + w * y.2) y.1.len, dst := [y.1], dstPins := pin })
        ++ r.cut w (off + x.len) l (if scr then pins else pins.drop 1)

/-- The wholes of a run in ascending order: 8 bytes where its source and destination allow it, else 4. -/
def State.wholes (s : State) (r : CopyRun) : List CopyRun :=
  let by8 := fun (l : List Seg) => l.all fun x => (s.spot x.loc).2 % 8 == 0 && x.len % 8 == 0
  r.cut (if r.conv = 0 && by8 r.src && by8 r.dst then 8 else 4) 0 r.dst r.dstPins

/-- An order of some things that nothing fixes. -/
def shuffle {α : Type} (n : Nat) : Nat → List α → List α
  | 0, l => l
  | fuel + 1, l =>
      match l with
      | [] => []
      | x :: rest =>
          let i := Config.choice (n + fuel) % l.length
          l.getD i x :: shuffle n fuel (if i = 0 then rest else l.eraseIdx i)

/-- Whether which bytes a command leaves is unpredictable: destinations of two of its threads overlap, a destination overlaps a
source, or it overlaps what another command wrote while this one was in flight (R314). -/
def State.overlaps (s : State) (c : EngCmd) : Bool :=
  let dsts := c.runs.flatMap (·.dst)
  (c.runs.zipIdx.any fun x => c.runs.zipIdx.any fun y => x.2 < y.2 && s.runsMeet x.1.dst y.1.dst)
    || s.runsMeet dsts (c.runs.flatMap (·.src)) || s.runsMeet dsts c.raced

/-- What a command moves, in the order in which the model moves it: run by run, or whole by whole in a free order where R314
leaves open what remains; a whole that another command raced for may be left to that one (log 96). -/
def State.moves (s : State) (c : EngCmd) : List CopyRun :=
  if !s.overlaps c then c.runs
  else
    let l := c.runs.flatMap s.wholes
    let n := choiceAt s.fresh 0 0 * 2 ^ 24
    let l := l.zipIdx.filter fun x => !(s.runsMeet x.1.dst c.raced && Config.choice (n + 2 ^ 23 + x.2) % 2 == 1)
    shuffle n l.length (l.map (·.1))

/-! ### Completion (R316) -/

/-- Whether a tenant's engine commands still arrive and push tasks when they complete. -/
def State.counts (s : State) (tenant : Nat) : Bool :=
  match (s.tenant tenant).state with
  | .active | .preempted => true
  | _ => false

/-- Ends the TLBI jobs that no command of the engines holds up any more (R323). -/
def State.endWaiters (s : State) : List Nat → State
  | [] => s
  | j :: l =>
      let s := if s.cmds.any fun c => c.waiters.contains j then s else s.endJob j
      s.endWaiters l

/-- The signals of the threads of a command that `sel` picks. -/
def State.doSignals (s : State) (c : EngCmd) (ag : Option Agent) (sel : Nat → Bool) : State :=
  (c.signals.filter fun x => sel x.tid).foldl (fun s x => s.doSignal ag x) s

/-- Moves the runs of a command in their order; a thread's signals follow its last one and wait for no other thread's bytes
(R319). -/
def State.doRuns (s : State) (c : EngCmd) (ag : Option Agent) (bad failed : List Nat) : List CopyRun → State
  | [] => s
  | r :: l =>
      let s := s.doRun c.team ag bad failed r
      (if l.any (·.tid = r.tid) then s else s.doSignals c ag (· == r.tid)).doRuns c ag bad failed l

/-- A command moves its bytes and sends its signals; the device runtime's pages of lower tiers are checked and tagged (R367). -/
def State.moveCmd (s : State) (c : EngCmd) (bad : List Nat) : State :=
  let ag := (s.team? c.team).map fun tm => tm.engine ((c.runs.map (·.tid)).headD 0)
  let runtime := ag.any (·.sup)
  let failed := if runtime then s.badPages (c.runs.flatMap (·.src)) else []
  let l := s.moves c
  let s := (s.doSignals c ag fun tid => l.all (·.tid ≠ tid)).doRuns c ag bad failed l
  let s := if runtime then s.tagPages (l.flatMap (·.dst)) else s
  { s with fresh := s.fresh + 1 }

/-- A command leaves its engine: its pins drop, and the commands in flight with it have raced with it. -/
def State.dropCmd (s : State) (c : EngCmd) : State :=
  let rest := s.cmds.filter fun x => ¬ (x.id = c.id ∧ x.core = c.core)
  let raced := fun (x : EngCmd) => { x with raced := x.raced ++ c.runs.flatMap (·.dst) }
  State.endWaiters { s with cmds := rest.map raced } c.waiters

/-- The team of a command, and those whose scratchpads it moves bytes of. -/
def EngCmd.teams (c : EngCmd) : List Nat :=
  (c.team :: (c.runs.flatMap (fun r => r.src ++ r.dst) ++ c.signals.flatMap (·.dst)).filterMap fun x =>
    match x.loc with | .scr t _ => some t | _ => none).dedup

/-- A command completes: its bytes and signals, then its arrival and its task; its pins drop, and a CARVE that has waited for it may
take effect (R110). -/
def State.finishCmd (s : State) (c : EngCmd) (bad : List Nat) : State :=
  let s := c.teams.foldl State.checkCarve ((s.moveCmd c bad).dropCmd c)
  match s.team? c.team with
  | none => s
  | some tm =>
      if s.counts (ownerId tm.task.owner) then
        let s := match c.bar with
          | some (n, phase) => s.engineArrive c.team n phase
          | none => s
        match c.task with
        | some (b, addr) => s.createTask c.cluster b (taskOf b tm.task.owner addr 0)
        | none => s
      else s

/-- Completes a command of an engine, if it is there. -/
def State.completeCmd (s : State) (core id : Nat) (bad : List Nat) : State :=
  match s.cmds.find? fun c => c.core = core ∧ c.id = id with
  | some c => s.finishCmd c bad
  | none => s

/-- Meaning of ENGINE_COMMAND_COMPLETE: the lines whose integrity check fails are given. -/
def execEngineCommandComplete (core cmd : Nat) (badLines : List Nat) (s : State) : Host.Outcome State Fault Refusal :=
  .next (s.completeCmd core cmd badLines)

/-! ### Acceptance (R308, R311) -/

/-- The engine fields of a modifier word. -/
def modEng : Mods → EngMod
  | .f3 a => a
  | _ => { bar := none, task := false, shadow := false }

/-- A place among the 64 commands of an engine: a full engine completes its oldest command first. -/
def State.engPlace (s : State) (core : Nat) : State :=
  let l := s.cmds.filter (·.core = core)
  if 64 ≤ l.length then match l with | c :: _ => s.completeCmd c.core c.id [] | [] => s else s

/-- The phase in which a thread's next arrival on a barrier will be counted; its PENDING rises (R141). -/
def State.expectArrival (s : State) (tm : Team) (tid n : Nat) : State × BitVec 16 :=
  match s.team? tm.id with
  | some tm =>
      let b := tm.bar n
      if tid ∈ b.arr then (s, b.phase + 1)
      else (s.modTeam tm.id (·.modBar n fun b => { b with pending := b.pending + 1 }), b.phase)
  | none => (s, 0)

/-- What one thread adds to a command. -/
structure Part where
  runs : List CopyRun
  signals : List Signal
  shadows : List Nat
  pins : List Pin
  pred : Option (Nat × Bool)
  task : Option (List Byte × DWord)
  deriving DecidableEq, Repr

/-- What the threads of a group have added so far. -/
def Part.add (x y : Part) : Part :=
  { runs := x.runs ++ y.runs, signals := x.signals ++ y.signals, shadows := x.shadows ++ y.shadows, pins := x.pins ++ y.pins
    pred := none, task := x.task.or y.task }

/-- Nothing. -/
def Part.empty : Part := { runs := [], signals := [], shadows := [], pins := [], pred := none, task := none }

/-- Before a command is accepted there is a place for it, and what happens before it is performed at its scope (R205, R308). -/
def State.engReady (s : State) (tm : Team) (sc : Scope) : State :=
  let s := s.engPlace tm.core
  if ((tm.agent 0).scope sc).homeWide then s.releaseTeam tm.core tm.id else s.flushTeam tm.core tm.id

/-- Accepts one command for a group: each present thread gives its part or traps, in ascending slot order; then WX falls
for each that passed. A thread that traps may still bring the word's task record (R315). A word whose every thread trapped is a
command too, and completes at once (R311). Its one arrival belongs to the phase of the next arrival of the group's lowest slot:
R141 speaks of one issuing thread, and the model takes that one (log 95). -/
def State.accept (s : State) (g : Group) (m : EngMod) (sc : Scope) (f : State → Nat → State × Except Bad Part)
    (late : State → Nat → State × Except Bad (Option (List Byte × DWord))) (who : List Nat) : State :=
  match s.team? g.team, who with
  | some tm, lead :: _ =>
      let (s, all) := who.foldl (fun (a : State × Part) tid =>
        match f a.1 tid with
        | (s, .error b) =>
            match late s tid with
            | (s, .ok t) => (s.trap g tid b, { a.2 with task := a.2.task.or t })
            | (s, .error _) => (s.trap g tid b, a.2)
        | (s, .ok p) =>
            (s.results g tid .wx { regs := [], preds := p.pred.toList, flags := 0 } none, a.2.add p)) (s.engReady tm sc, Part.empty)
      let (s, bar) := match m.bar with
        | some n => let r := s.expectArrival tm lead n.toNat; (r.1, some (n.toNat, r.2))
        | none => (s, none)
      let (id, s) := s.newId
      let c : EngCmd := { core := tm.core, cluster := clusOf tm.core, id := id, team := tm.id, runs := all.runs, signals := all.signals
                          bar := bar, task := all.task, shadows := all.shadows.dedup, pins := all.pins, waiters := [], raced := [] }
      let s := { s with cmds := s.cmds ++ [c] }
      if all.runs.isEmpty && all.signals.isEmpty then s.finishCmd c [] else s
  | _, _ => s

/-- A word of an engine over its group; ENG words carry no guard. -/
def engWord (f : State → Group → State) (s : State) : State :=
  match s.groups with
  | [] => s
  | g :: _ => let s' := f s g; { s' with fresh := s'.fresh + 1 }

/-- The first failing address of a list of segments whose home does not answer. -/
def State.downAt (s : State) (va : Nat) : List Seg → Option Nat
  | [] => none
  | x :: l => if s.homeUp (s.paOf x.loc) then s.downAt (va + x.len) l else some va

/-- The shadow side of segments of a bound range. -/
def shadowSegs (l : List Seg) : List Seg :=
  l.map fun x => match x.loc with
    | .vis b o => { x with loc := .shd b o }
    | _ => x

/-! ### XCOPY (R312 to R315) -/

/-- The binding of an agent's tenant that holds a range whole. -/
def State.boundRange (s : State) (ag : Agent) (va n : Nat) : Option Binding :=
  s.bindings.find? fun x => x.tenant = ag.tenant ∧ x.asid = ag.asid ∧ x.b ≤ va ∧ va + n ≤ x.b + x.len

/-- The address of the task record of an XCOPY with TASK, in the group's lowest slot (R315). -/
def Env.copyTask (e : Env) (th : Thread) (b : Code) : DWord := e.rdAt th b 3 7 ++ e.rdAt th b 2 6

/-- Reads the task record of a thread that brings one. -/
def State.readTask (s : State) (ag : Agent) (va : Option DWord) : State × Except Bad (Option (List Byte × DWord)) :=
  match va with
  | none => (s, .ok none)
  | some va =>
      match s.readStruct ag va.toNat 64 64 with
      | (s, .error x) => (s, .error x)
      | (s, .ok r) => (s, .ok (some (r, va)))

/-- The checks of the length register of an XCOPY (R312). -/
def copyLenBad (w : Nat) : Option Bad :=
  let conv := w / 2 ^ 28
  let n := w % 2 ^ 17
  if 4 < conv ∨ w / 2 ^ 17 % 2 ^ 11 ≠ 0 then some (bad .scope 15)
  else if 65536 < n ∨ n % (if conv = 1 ∨ conv = 2 then 8 else 4) ≠ 0 then some (bad .scope 14)
  else none

/-- One thread's part of an XCOPY; `lead` is the slot that brings the task record where the word has TASK. The length register is
judged first (R312), then the alignments, then the ranges under R128, the record last (log 36). -/
def State.xcopyPart (d a b : Code) (shadow : Bool) (lead : Option Nat) (g : Group) (s : State) (tid : Nat) :
    State × Except Bad Part :=
  match s.team? g.team, s.thread? g.team tid with
  | some tm, some th =>
      let e := s.env tm
      let ag := tm.engine tid
      let w := (e.rd32 th b 4).toNat
      let conv := w / 2 ^ 28
      let n := w % 2 ^ 17
      let src := (e.rd64 th a 0).toNat
      let dst := (e.rd64 th d 2).toNat
      let m := convLen conv n
      let va := if lead = some tid then some (e.copyTask th b) else none
      let recBad := va.bind fun va => misaligned va.toNat 64 false
      match copyLenBad w with
      | some x => (s, .error x)
      | none =>
          if n = 0 then
            match s.readTask ag va with
            | (s, .error x) => (s, .error x)
            | (s, .ok t) => (s, .ok { Part.empty with task := t })
          else
            match (misaligned src 4 false).or ((misaligned dst 4 true).or recBad) with
            | some x => (s, .error x)
            | none =>
                let x := s.boundRange ag dst m
                if shadow ∧ x.isNone then
                  (s, .error { cause := .scope, detail := 18, write := true, addr := BitVec.ofNat 64 dst })
                else
                  match s.range ag src n .read with
                  | (s, .error x) => (s, .error x)
                  | (s, .ok (from', p1)) =>
                      match s.range ag dst m .claim with
                      | (s, .error x) => (s, .error x)
                      | (s, .ok (to', p2)) =>
                          let to' := if shadow then shadowSegs to' else to'
                          match if shadow then s.downAt dst to' else none with
                          | some va => (s, .error { cause := .homedown, detail := 0, write := true, addr := BitVec.ofNat 64 va })
                          | none =>
                              match s.readTask ag va with
                              | (s, .error x) => (s, .error x)
                              | (s, .ok t) =>
                                  (s.dirtied p2, .ok
                                    { runs := [{ tid := tid, src := from', dst := to', dstPins := p2, conv := conv }], signals := []
                                      shadows := if shadow then (x.map (·.id)).toList else [], pins := p1 ++ p2, pred := none
                                      task := t })
  | _, _ => (s, .ok Part.empty)

/-- The task record that a thread of an XCOPY brings though its own part traps. -/
def State.xcopyTask (b : Code) (lead : Option Nat) (g : Group) (s : State) (tid : Nat) :
    State × Except Bad (Option (List Byte × DWord)) :=
  match s.team? g.team, s.thread? g.team tid with
  | some tm, some th => s.readTask (tm.engine tid) (if lead = some tid then some ((s.env tm).copyTask th b) else none)
  | _, _ => (s, .ok none)

/-- Meaning of XCOPY. -/
def execXcopy (d a b : Code) (sc : Scope) (m : Mods) (s : State) : Host.Outcome State Fault Refusal :=
  .next (engWord (fun s g =>
    let e := modEng m
    let who := s.present g
    let lead := if e.task then who.head? else none
    s.accept g e sc (State.xcopyPart d a b e.shadow lead g) (State.xcopyTask b lead g) who) s)

/-! ### XGATH (R317, R318) -/

/-- Destination chunks of a gathered row: chunk c of the row stands at place (c + s) mod C of the slot. -/
def gatherSegs (team off rowb slot : Nat) : List Seg :=
  let c := rowb / 16
  (List.range c).map fun i => { loc := .scr team (off + (i + slot) % c * 16), len := 16 }

/-- One thread's part of an XGATH. -/
def State.xgathPart (d a b : Code) (pd : P3) (g : Group) (s : State) (tid : Nat) : State × Except Bad Part :=
  match s.team? g.team, s.thread? g.team tid with
  | some tm, some th =>
      let e := s.env tm
      let ag := tm.engine tid
      let da := (e.rd64 th d 0).toNat
      match s.readStruct ag da 32 32 with
      | (s, .error x) => (s, .error x)
      | (s, .ok r) =>
          let base := fieldAt r 0 8
          let rowb := fieldAt r 8 4
          let dest := fieldAt r 16 8
          let slots := fieldAt r 24 4
          let i := (e.rd32 th a 2).toNat
          let n := (e.rd32 th b 4).toNat
          if base % 16 ≠ 0 ∨ rowb % 16 ≠ 0 ∨ rowb < 16 ∨ 4096 < rowb ∨ dest % 16 ≠ 0 ∨ slots = 0 ∨ 1024 < slots
              ∨ fieldAt r 28 4 ≠ 0 then (s, .error (badAt .scope 16 (BitVec.ofNat 64 da)))
          else
            let at' := dest + n * rowb
            match (if n < slots ∧ inWindow at' then s.scratchAt ag at' rowb else none).filter (·.1 = tm.id) with
            | none => (s, .error { bad .scope 17 with write := decide (n < slots) })
            | some (t, o) =>
                let dst := gatherSegs t o rowb n
                if i < fieldAt r 12 4 then
                  match s.range ag (base + i * rowb) rowb .read with
                  | (s, .error x) => (s, .error x)
                  | (s, .ok (src, p)) =>
                      (s, .ok { runs := [{ tid := tid, src := src, dst := dst, dstPins := [], conv := 0 }], signals := [], shadows := []
                                pins := p, pred := some (pd.toNat, true), task := none })
                else
                  (s, .ok { runs := [{ tid := tid, src := [], dst := dst, dstPins := [], conv := 0 }], signals := [], shadows := []
                            pins := [], pred := some (pd.toNat, false), task := none })
  | _, _ => (s, .ok Part.empty)

/-- Meaning of XGATH. -/
def execXgath (d a b : Code) (pd : P3) (m : Mods) (s : State) : Host.Outcome State Fault Refusal :=
  .next (engWord (fun s g => s.accept g (modEng m) .team (State.xgathPart d a b pd g) (fun s _ => (s, .ok none)) (s.present g)) s)

/-! ### XPUTS (R319) -/

/-- One thread's part of an XPUTS. -/
def State.xputsPart (d a : Code) (add : Bool) (g : Group) (s : State) (tid : Nat) : State × Except Bad Part :=
  match s.team? g.team, s.thread? g.team tid with
  | some tm, some th =>
      let e := s.env tm
      let ag := tm.engine tid
      match s.readStruct ag (e.rd64 th a 0).toNat 32 32 with
      | (s, .error x) => (s, .error x)
      | (s, .ok r) =>
          let src := fieldAt r 0 8
          let dst := fieldAt r 8 8
          let sig := fieldAt r 16 8
          let n := fieldAt r 24 4
          match (misaligned src 4 false).or ((misaligned dst 4 true).or (misaligned sig 4 true)) with
          | some x => (s, .error x)
          | none =>
              if fieldAt r 28 4 ≠ 0 then (s, .error (badAt .scope 16 (e.rd64 th a 0)))
              else if 1048576 < n ∨ n % 4 ≠ 0 then (s, .error (bad .scope 14))
              else
                match s.range ag src n .read with
                | (s, .error x) => (s, .error x)
                | (s, .ok (from', p1)) =>
                    match s.range ag dst n .claim with
                    | (s, .error x) => (s, .error x)
                    | (s, .ok (to', p2)) =>
                        match s.range ag sig 4 .write with
                        | (s, .error x) => (s, .error x)
                        | (s, .ok (at', p3)) =>
                            let s := s.dirtied p2
                            let runs := if n = 0 then [] else
                              [{ tid := tid, src := from', dst := to', dstPins := p2, conv := 0 : CopyRun }]
                            (s, .ok { runs := runs, signals := [{ tid := tid, dst := at', add := add, val := e.rd32 th d 4 }], shadows := []
                                      pins := p1 ++ p2 ++ p3, pred := none, task := none })
  | _, _ => (s, .ok Part.empty)

/-- Meaning of XPUTS. -/
def execXputs (d a : Code) (add : Bool) (m : Mods) (s : State) : Host.Outcome State Fault Refusal :=
  .next (engWord (fun s g => s.accept g (modEng m) .dom (State.xputsPart d a add g) (fun s _ => (s, .ok none)) (s.present g)) s)

/-! ### Shadowed buffers (R320 to R322) -/

/-- Whether two addresses have one home. -/
def sameHome (a b : Nat) : Bool := a / 2 ^ 41 == b / 2 ^ 41 && homeOf a == homeOf b

/-- Whether two ranges meet. -/
def rangesMeet (a n b m : Nat) : Bool := a < b + m && b < a + n

/-- No core keeps a line of a page, and no die a guest copy. -/
def State.evictPage (s : State) (frame : Nat) : State :=
  let s := s.cores.foldl (fun (s : State) c =>
    let s := ((c.lines.filter fun x => x.pa / 4096 * 4096 = frame).map (·.pa)).foldl (fun s pa => s.writeBackLine c.id pa fun _ => true) s
    s.modCore c.id fun c => { c with lines := c.lines.filter fun x => x.pa / 4096 * 4096 ≠ frame }) s
  (List.range 64).foldl (fun s i => s.dropGuests (frame + 64 * i)) s

/-- Binds B and S (R321): a finding, or the state with the binding. A range that R128 finds in the scratchpad, which has no L2
home, traps SCOPE 19 too (log 50). -/
def State.bind (s : State) (ag : Agent) (b sh len : Nat) : State × Except Bad Unit :=
  let hits := fun (va : Nat) => s.bindings.any fun x =>
    x.tenant == ag.tenant && x.asid == ag.asid && (rangesMeet va len x.b x.len || rangesMeet va len x.s x.len)
  let wrong := fun (va : Nat) => va % 4096 != 0 || hits va
  let no := fun (va : Nat) =>
    (Except.error { cause := .scope, detail := 19, write := true, addr := BitVec.ofNat 64 va } : Except Bad Unit)
  if wrong b then (s, no b)
  else if wrong sh then (s, no sh)
  else if len % 4096 ≠ 0 ∨ 2 ^ 26 < len ∨ rangesMeet b len sh len then (s, no b)
  else
    match s.range ag b len .claim with
    | (s, .error x) => (s, .error x)
    | (s, .ok (v, _)) =>
        match s.range ag sh len .claim with
        | (s, .error x) => (s, .error x)
        | (s, .ok (w, _)) =>
            let frames := fun (l : List Seg) => l.map fun x => s.paOf x.loc
            let home := (frames v).headD 0
            let inScr := fun (l : List Seg) => l.any fun x => match x.loc with | .scr _ _ => true | _ => false
            if inScr v then (s, no b)
            else if inScr w then (s, no sh)
            else if 16 ≤ (s.bindings.filter fun x => sameHome x.home home).length then (s, .error (bad .scope 20))
            else
              let (id, s) := s.newId
              let x : Binding := { id := id, tenant := ag.tenant, asid := ag.asid, home := home, b := b, s := sh, len := len
                                   visible := frames v, shadow := frames w, swaps := [], unbinds := [] }
              let s := (frames v ++ frames w).foldl State.evictPage s
              ({ s with bindings := s.bindings ++ [x] }, .ok ())

/-- The binding of an agent's tenant whose B starts at an address. -/
def State.bindingOf (s : State) (ag : Agent) (va : Nat) : Option Binding :=
  s.bindings.find? fun x => x.tenant = ag.tenant ∧ x.asid = ag.asid ∧ x.b = va

/-- The shadow-writing commands on a binding, of one team or of any. -/
def State.shadowCmds (s : State) (id : Nat) (team : Option Nat) : List Nat :=
  (s.cmds.filter fun c => c.shadows.contains id && team.all (· == c.team)).map (·.id)

/-- A page that an unbinding leaves on a frame that the page table does not name. -/
def State.remapPage (s : State) (tenant asid page now : Nat) : State :=
  let rest := s.remaps.filter fun r => ¬ (r.tenant = tenant ∧ r.asid = asid ∧ r.page = page)
  match s.walk tenant asid page with
  | .ok e =>
      let f := (e.frame + page % 2 ^ e.log) / 4096 * 4096
      { s with remaps := if f = now then rest else { tenant := tenant, asid := asid, page := page, frame := f, now := now } :: rest }
  | .error _ => { s with remaps := rest }

/-- A location of a binding as the storage behind it at this moment. -/
def State.fixLoc (s : State) (id : Nat) (l : Loc) : Loc :=
  match l with
  | .vis b _ => if b = id then .mem (s.paOf l) else l
  | .shd b _ => if b = id then .mem (s.paOf l) else l
  | l => l

/-- Changes the locations that words and commands have translated. -/
def State.mapLocs (s : State) (f : Loc → Loc) : State :=
  let segs := fun (l : List Seg) => l.map fun x => { x with loc := f x.loc }
  let run := fun (r : CopyRun) => { r with src := segs r.src, dst := segs r.dst }
  { s with
    cmds := s.cmds.map fun c => { c with
      runs := c.runs.map run, signals := c.signals.map fun x => { x with dst := segs x.dst }, raced := segs c.raced }
    catts := s.catts.map fun c => { c with block := segs c.block }
    clusters := s.clusters.map fun (c : Cluster) => { c with
      tiles := c.tiles.map fun t => { t with
        store := segs t.store, queue := t.queue.map fun r => { r with store := segs r.store } } } }

/-- What words and commands have translated through a binding keeps its storage when the binding goes (R311, R321). -/
def State.fixAll (s : State) (id : Nat) : State := s.mapLocs (s.fixLoc id)

/-- Unbinds: B keeps the storage that is visible, S takes the other (R321). -/
def State.unbind (s : State) (x : Binding) : State :=
  let s := s.fixAll x.id
  let s := { s with bindings := s.bindings.filter (·.id ≠ x.id) }
  let s := x.visible.zipIdx.foldl (fun s y => s.remapPage x.tenant x.asid (x.b + 4096 * y.2) y.1) s
  x.shadow.zipIdx.foldl (fun s y => s.remapPage x.tenant x.asid (x.s + 4096 * y.2) y.1) s

/-- Exchanges the storages of a binding. -/
def State.swap (s : State) (id : Nat) : State :=
  { s with bindings := s.bindings.map fun (x : Binding) => if x.id = id then { x with visible := x.shadow, shadow := x.visible } else x }

/-- Gives every thread of a group the end of an XSHAD or XPUBB, which may wait for a job. -/
def State.ackAll (s : State) (g : Group) (hold : Option Nat) : State :=
  (s.present g).foldl (fun s tid => s.results g tid .wx Out.none hold) s

/-- XSHAD by the group's lowest slot. -/
def State.xshadOne (d a b : Code) (s : State) (g : Group) (tid : Nat) : State :=
  s.withThread g tid fun tm th e =>
    let ag := tm.engine tid
    let va := (e.rd64 th d 0).toNat
    let len := (e.rd32 th b 4).toNat
    if len = 0 then
      match s.bindingOf ag va with
      | none => s.trap g tid (bad .scope 21)
      | some x =>
          if !s.homeUp x.home then s.trap g tid (homeDown (BitVec.ofNat 64 va) true)
          else if (s.shadowCmds x.id none).isEmpty && x.swaps.isEmpty then (s.unbind x).ackAll g none
          else
            let (j, s) := s.newId
            { s with bindings := s.bindings.map fun (y : Binding) => if y.id = x.id then { y with unbinds := y.unbinds ++ [j] } else y }.ackAll
              g (some j)
    else
      match s.bind ag va (e.rd64 th a 2).toNat len with
      | (s, .error x) => s.trap g tid x
      | (s, .ok _) => s.ackAll g none

/-- Meaning of XSHAD. -/
def execXshad (d a b : Code) (s : State) : Host.Outcome State Fault Refusal :=
  .next (onceLane .none (State.xshadOne d a b) s)

/-- A binding whose shadow writers and swaps have ended is unbound for the words that wait. -/
def State.serveUnbind (s : State) (id : Nat) : State :=
  match s.bindings.find? (·.id = id) with
  | some x =>
      if s.homeUp x.home && !x.unbinds.isEmpty && (s.shadowCmds id none).isEmpty && x.swaps.isEmpty then
        x.unbinds.foldl (fun s j => s.endJob j) (s.unbind x)
      else s
  | none => s

/-- Meaning of SHADOW_UNBIND. -/
def execShadowUnbind (binding : Nat) (s : State) : Host.Outcome State Fault Refusal := .next (s.serveUnbind binding)

/-- XPUBB by the group's lowest slot. -/
def State.xpubbOne (a : Code) (s : State) (g : Group) (tid : Nat) : State :=
  s.withThread g tid fun tm th e =>
    let ag := tm.engine tid
    match s.bindingOf ag (e.rd64 th a 0).toNat with
    | none => s.trap g tid (bad .scope 21)
    | some x =>
        if !s.homeUp x.home then s.trap g tid (homeDown (e.rd64 th a 0) true) else
        let s := s.release ag .dom none
        let wait := s.shadowCmds x.id (some tm.id)
        if wait.isEmpty && x.swaps.isEmpty then (s.swap x.id).ackAll g none
        else
          let (j, s) := s.newId
          { s with bindings := s.bindings.map fun (y : Binding) => if y.id = x.id then { y with swaps := y.swaps ++ [(j, wait)] } else y }.ackAll
            g (some j)

/-- Meaning of XPUBB. -/
def execXpubb (a : Code) (s : State) : Host.Outcome State Fault Refusal := .next (onceLane .none (State.xpubbOne a) s)

/-- The first waiting swap of a binding none of whose commands is left is performed. -/
def State.serveSwap (s : State) (id : Nat) : State :=
  match s.bindings.find? (·.id = id) with
  | some x =>
      if !s.homeUp x.home then s
      else match x.swaps.find? fun y => y.2.all fun c => s.cmds.all (·.id ≠ c) with
      | some y =>
          let s := s.swap id
          { s with bindings := s.bindings.map fun (z : Binding) => if z.id = id then { z with swaps := z.swaps.filter (· ≠ y) } else z }.endJob y.1
      | none => s
  | none => s

/-- Meaning of SHADOW_SWAP. -/
def execShadowSwap (binding : Nat) (s : State) : Host.Outcome State Fault Refusal := .next (s.serveSwap binding)

end Sys2Proof.Machine
end

