-- ==== Sys2Proof/Machine/Float.lean ====
section
/-!
DEFINITION. The float words and the conversions (R92 to R101).
-/

namespace Sys2Proof.Machine

/-- The format of a float type's elements. -/
def fmtOf : ElemTy → Fmt
  | .f16x2 => fmtF16
  | .bf16x2 => fmtBf16
  | .f64 => fmtF64
  | _ => fmtF32

/-- The arithmetic fields of a modifier word, all zero without one. -/
def modArith : Mods → ArithMod
  | .f0 a => a
  | _ => ArithMod.zero

/-- How a word rounds in a thread: its mode, SAT and SCALE. -/
def fop (th : Thread) (m : Mods) : FOp :=
  { rm := th.rm, sat := (modArith m).sat, scale := (modArith m).scale.toInt }

/-- One element of a float word: the sign fields on a and b, the operation, CLAMP (R92). -/
def floatElem (f : Fmt) (m : Mods) (op : List Nat → Nat × BitVec 6) (xs : List Nat) : Nat × BitVec 6 :=
  let am := modArith m
  let xs := match xs with
    | x :: y :: l => f.sign am.absa am.nega x :: f.sign am.absb am.negb y :: l
    | [x] => [f.sign am.absa am.nega x]
    | [] => []
  let r := op xs
  (if am.clamp then f.clamp r.1 else r.1, r.2)

/-- A float word d := f(reg(a)). -/
def unF (d a : Code) (t : ElemTy) (m : Mods) (c : Option Ctr) (op : Fmt → FOp → Nat → Nat × BitVec 6) (s : State) : State :=
  lane m c (fun e th => outT th t d
    (lift t (floatElem (fmtOf t) m fun l => op (fmtOf t) (fop th m) (l.headD 0)) [e.rdT th t a 0])) s

/-- A float operation on two elements as one on lists. -/
def twoF (op : Nat → Nat → Nat × BitVec 6) : List Nat → Nat × BitVec 6
  | x :: y :: _ => op x y
  | _ => (0, 0)

/-- A float word d := f(reg(a), reg(b)). -/
def binF (d a b : Code) (t : ElemTy) (m : Mods) (c : Option Ctr) (op : Fmt → FOp → Nat → Nat → Nat × BitVec 6) (s : State) :
    State :=
  lane m c (fun e th => outT th t d
    (lift t (floatElem (fmtOf t) m (twoF (op (fmtOf t) (fop th m)))) [e.rdT th t a 0, e.rdT th t b 2])) s

/-- A float word d := f(reg(a), literal). -/
def litF (d a : Code) (t : ElemTy) (lit : Word) (m : Mods) (op : Fmt → FOp → Nat → Nat → Nat × BitVec 6) (s : State) :
    State :=
  lane m none (fun e th => outT th t d
    (lift t (floatElem (fmtOf t) m (twoF (op (fmtOf t) (fop th m)))) [e.rdT th t a 0, litVal t lit])) s

/-- Meaning of FADD in D3. -/
def execFadd (d a b : Code) (t : ElemTy) (m : Mods) (s : State) : Host.Outcome State Fault Refusal :=
  .next (binF d a b t m none Fmt.add s)

/-- Meaning of FADD in DL. -/
def execFaddDl (d a : Code) (t : ElemTy) (lit : Word) (m : Mods) (s : State) : Host.Outcome State Fault Refusal :=
  .next (litF d a t lit m Fmt.add s)

/-- Meaning of FSUB. -/
def execFsub (d a b : Code) (t : ElemTy) (m : Mods) (s : State) : Host.Outcome State Fault Refusal :=
  .next (binF d a b t m none Fmt.sub s)

/-- Meaning of FMUL in D3. -/
def execFmul (d a b : Code) (t : ElemTy) (m : Mods) (s : State) : Host.Outcome State Fault Refusal :=
  .next (binF d a b t m none Fmt.mul s)

/-- Meaning of FMUL in DL. -/
def execFmulDl (d a : Code) (t : ElemTy) (lit : Word) (m : Mods) (s : State) : Host.Outcome State Fault Refusal :=
  .next (litF d a t lit m Fmt.mul s)

/-- Meaning of FFMA. -/
def execFfma (d a b : Code) (t : ElemTy) (m : Mods) (s : State) : Host.Outcome State Fault Refusal :=
  .next (lane m none (fun e th => outT th t d
    (lift t (floatElem (fmtOf t) m fun l => match l with | x :: y :: z :: _ => (fmtOf t).fma (fop th m) x y z | _ => (0, 0))
      [e.rdT th t a 0, e.rdT th t b 2, e.rdT th t d 4])) s)

/-- Meaning of FMIN in D3. -/
def execFmin (d a b : Code) (t : ElemTy) (m : Mods) (s : State) : Host.Outcome State Fault Refusal :=
  .next (binF d a b t m none (fun f _ => f.pick false) s)

/-- Meaning of FMIN in DL. -/
def execFminDl (d a : Code) (t : ElemTy) (lit : Word) (m : Mods) (s : State) : Host.Outcome State Fault Refusal :=
  .next (litF d a t lit m (fun f _ => f.pick false) s)

/-- Meaning of FMAX in D3. -/
def execFmax (d a b : Code) (t : ElemTy) (m : Mods) (s : State) : Host.Outcome State Fault Refusal :=
  .next (binF d a b t m none (fun f _ => f.pick true) s)

/-- Meaning of FMAX in DL. -/
def execFmaxDl (d a : Code) (t : ElemTy) (lit : Word) (m : Mods) (s : State) : Host.Outcome State Fault Refusal :=
  .next (litF d a t lit m (fun f _ => f.pick true) s)

/-- A float comparison of two operands: both halves or either, for a packed type (R96). -/
def cmpF (rel : FRel) (any : Bool) (t : ElemTy) (m : Mods) (x y : Nat) : Bool × BitVec 6 :=
  let f := fmtOf t
  let am := modArith m
  let one := fun (x y : Nat) => f.cmp rel (f.sign am.absa am.nega x) (f.sign am.absb am.negb y)
  if ElemTy.packed t then
    let lo := one (x % 65536) (y % 65536)
    let hi := one (x / 65536) (y / 65536)
    (if any then lo.1 || hi.1 else lo.1 && hi.1, lo.2 ||| hi.2)
  else one x y

/-- The outcome of a comparison in a predicate. -/
def outPred (pd : P3) (r : Bool × BitVec 6) : Out := { regs := [], preds := [(pd.toNat, r.1)], flags := r.2 }

/-- Meaning of FCMP in D3. -/
def execFcmp (rel : FRel) (any : Bool) (pd : P3) (a b : Code) (t : ElemTy) (m : Mods) (s : State) :
    Host.Outcome State Fault Refusal :=
  .next (lane m none (fun e th => outPred pd (cmpF rel any t m (e.rdT th t a 0) (e.rdT th t b 2))) s)

/-- Meaning of FCMP in DL. -/
def execFcmpDl (rel : FRel) (any : Bool) (pd : P3) (a : Code) (t : ElemTy) (lit : Word) (m : Mods) (s : State) :
    Host.Outcome State Fault Refusal :=
  .next (lane m none (fun e th => outPred pd (cmpF rel any t m (e.rdT th t a 0) (litVal t lit))) s)

/-- Meaning of FCLASS. -/
def execFclass (d a : Code) (t : ElemTy) (m : Mods) (s : State) : Host.Outcome State Fault Refusal :=
  .next (lane m none (fun e th =>
    let x := e.rdT th t a 0
    let r := if ElemTy.packed t then (fmtOf t).cls (x % 65536) + (fmtOf t).cls (x / 65536) * 65536 else (fmtOf t).cls x
    Out.reg (th.dst32 d (BitVec.ofNat 32 r) false)) s)

/-- Meaning of FRCP. -/
def execFrcp (d a : Code) (t : ElemTy) (m : Mods) (s : State) : Host.Outcome State Fault Refusal :=
  .next (unF d a t m (some .wa) Fmt.rcp s)

/-- Meaning of FRSQ. -/
def execFrsq (d a : Code) (t : ElemTy) (m : Mods) (s : State) : Host.Outcome State Fault Refusal :=
  .next (unF d a t m (some .wa) Fmt.rsq s)

/-- Meaning of FSQRT. -/
def execFsqrt (d a : Code) (t : ElemTy) (m : Mods) (s : State) : Host.Outcome State Fault Refusal :=
  .next (unF d a t m (some .wa) Fmt.sqrt s)

/-- Meaning of FDIV. -/
def execFdiv (d a b : Code) (t : ElemTy) (m : Mods) (s : State) : Host.Outcome State Fault Refusal :=
  .next (binF d a b t m (some .wa) Fmt.div s)

/-- Meaning of FEXP2. -/
def execFexp2 (d a : Code) (t : ElemTy) (m : Mods) (s : State) : Host.Outcome State Fault Refusal :=
  .next (unF d a t m (some .wa) Fmt.exp2 s)

/-- Meaning of FLOG2. -/
def execFlog2 (d a : Code) (t : ElemTy) (m : Mods) (s : State) : Host.Outcome State Fault Refusal :=
  .next (unF d a t m (some .wa) Fmt.log2 s)

/-- Meaning of FTANH. -/
def execFtanh (d a : Code) (t : ElemTy) (m : Mods) (s : State) : Host.Outcome State Fault Refusal :=
  .next (unF d a t m (some .wa) Fmt.tanh s)

/-- The mode of FRND. -/
def rndMode (mode : RndMode) (rm : Rm) : Rm :=
  match mode with
  | .fmode => rm | .rne => .rne | .rtz => .rtz | .rup => .rup | .rdn => .rdn

/-- Meaning of FRND. -/
def execFrnd (d a : Code) (mode : RndMode) (t : ElemTy) (m : Mods) (s : State) : Host.Outcome State Fault Refusal :=
  .next (unF d a t m none (fun f o => f.rnd (rndMode mode o.rm)) s)

/-! ### Conversions (R100, R101) -/

/-- The element of a scalar operand in a register value: a half, a byte, or all of it. -/
def cvtGet (half byte : Bool) (lane x : Nat) : Nat :=
  if half then x / 65536 ^ lane % 65536 else if byte then x / 256 ^ lane % 256 else x

/-- Puts an element into a register value, leaving the rest unchanged. -/
def cvtPut (half byte : Bool) (lane old x : Nat) : Nat :=
  if half then old - old / 65536 ^ lane % 65536 * 65536 ^ lane + x * 65536 ^ lane
  else if byte then old - old / 256 ^ lane % 256 * 256 ^ lane + x * 256 ^ lane
  else x

/-- Meaning of FCVT. -/
def execFcvt (d a : Code) (dst src : FFmt) (lane : BitVec 2) (m : Mods) (s : State) : Host.Outcome State Fault Refusal :=
  .next (Machine.lane m none (fun e th =>
    let am := modArith m
    let x := if src = .f64 then (e.rd64 th a 0).toNat else (e.rd32 th a 0).toNat
    let conv := convert dst src (fop th m) am.absa am.nega
    if dst.isPacked then
      let lo := conv (x % 65536)
      let hi := conv (x / 65536)
      { regs := th.dst32 d (BitVec.ofNat 32 (lo.1 + hi.1 * 65536)) false, preds := [], flags := lo.2 ||| hi.2 }
    else
      let r := conv (cvtGet src.isHalf src.isByte lane.toNat x)
      let y := cvtPut dst.isHalf dst.isByte lane.toNat (e.rd32 th d 4).toNat r.1
      { regs := if dst = .f64 then th.dst64 d (BitVec.ofNat 64 y) else th.dst32 d (BitVec.ofNat 32 y) false
        preds := [], flags := r.2 }) s)

/-- Whether an ICVT integer type is signed, and whether it is a pair. -/
def cvtInt : CvtInt → Bool × Bool
  | .i32 => (true, false) | .n32 => (false, false) | .i64 => (true, true) | .n64 => (false, true)

/-- Meaning of ICVT. -/
def execIcvt (d a : Code) (flt : CvtFlt) (int : CvtInt) (toInt : Bool) (lane : BitVec 2) (m : Mods) (s : State) :
    Host.Outcome State Fault Refusal :=
  .next (Machine.lane m none (fun e th =>
    let am := modArith m
    let f := cvtFmt flt
    let (signed, wide) := cvtInt int
    let half := flt == .f16 || flt == .bf16
    let w := if wide then 64 else 32
    if toInt then
      let x := if flt = .f64 then (e.rd64 th a 0).toNat else cvtGet half false lane.toNat (e.rd32 th a 0).toNat
      let r := floatToInt f (fop th m) signed w (f.sign am.absa am.nega x)
      { regs := if wide then th.dst64 d (BitVec.ofNat 64 r.1) else th.dst32 d (BitVec.ofNat 32 r.1) signed
        preds := [], flags := r.2 }
    else
      let x := if wide then (e.rd64 th a 0).toNat else (e.rd32 th a 0).toNat
      let v : Int := if signed then sext w x else x
      let v : Int := if am.absa then v.natAbs else v
      let v := if am.nega then -v else v
      let r := intToFloat f (fop th m) v
      let y := cvtPut half false lane.toNat (e.rd32 th d 4).toNat r.1
      { regs := if flt = .f64 then th.dst64 d (BitVec.ofNat 64 y) else th.dst32 d (BitVec.ofNat 32 y) false
        preds := [], flags := r.2 }) s)

end Sys2Proof.Machine
end

