-- ==== Sys2Proof/Machine/Group.lean ====
section
/-!
DEFINITION. The group words (R102 to R106): every thread of the issuing group takes part.
-/

namespace Sys2Proof.Machine

/-- The threads of a group in slot order, each with its slot. -/
def Group.members (g : Group) (tm : Team) : List (Nat × Thread) :=
  g.slots.zipIdx.filterMap fun p =>
    match tm.thread? p.1 with
    | some th => if th.status = .issuing then some (p.2, th) else none
    | none => none

/-- A word that gives every thread of the group a result computed from all of them. -/
def groupLane (f : List (Nat × Thread) → Env → Thread → Out) (s : State) : State :=
  match s.groups with
  | [] => s
  | g :: _ => lane .none (some .wa) (fun e th => f (g.members e.tm) e th) s

/-- The thread of the group that has a team thread id (lane_of of R76). -/
def member (l : List (Nat × Thread)) (u : Int) : Option Thread := (l.find? fun p => (p.2.tid : Int) == u).map (·.2)

/-- FILL of a modifier word, sign-extended. -/
def fillOf : Mods → Word
  | .f2 x => x.signExtend 32
  | _ => 0

/-- The source thread of GSHF, ABSENT being none (R103). -/
def gshfSource (mode : GshfMode) (t y : Nat) : Option Int :=
  match mode with
  | .tid => some (y % 1024 : Nat)
  | .off => some (t + sext 16 y)
  | .rot =>
      let z := y / 65536 % 16
      if 1 ≤ z ∧ z ≤ 10 then
        let base := t - t % 2 ^ z
        some (base + ((t % 2 ^ z : Nat) + sext 16 y) % (2 ^ z : Nat))
      else none
  | .rev =>
      let z := y % 16
      if 1 ≤ z ∧ z ≤ 10 then some ((t - t % 2 ^ z : Nat) + (2 ^ z - 1 - (t % 2 ^ z : Nat))) else none

/-- The value a thread receives from a source thread, or the fill value. -/
def gotFrom (l : List (Nat × Thread)) (e : Env) (a : Code) (fill : Word) (u : Option Int) : Word :=
  match u with
  | some u =>
      if 0 ≤ u ∧ u < e.tm.kern.threads then
        match member l u with
        | some th => e.rd32 th a 0
        | none => fill
      else fill
  | none => fill

/-- Meaning of GSHF. -/
def execGshf (d a b : Code) (mode : GshfMode) (m : Mods) (s : State) : Host.Outcome State Fault Refusal :=
  .next (groupLane (fun l e th =>
    Out.reg (th.dst32 d (gotFrom l e a (fillOf m) (gshfSource mode th.tid (e.rd32 th b 2).toNat)) false)) s)

/-- Meaning of GBCST. -/
def execGbcst (d a : Code) (u : BitVec 10) (m : Mods) (s : State) : Host.Outcome State Fault Refusal :=
  .next (groupLane (fun l e th => Out.reg (th.dst32 d (gotFrom l e a (fillOf m) (some u.toNat)) false)) s)

/-- The result of GVOTE in a thread (R105). -/
def voteOf (op : VoteOp) (l : List (Nat × Thread)) (e : Env) (a : Code) (tid : Nat) : Nat :=
  let yes := l.filter fun p => e.rd32 p.2 a 0 != 0
  match op with
  | .count => yes.length
  | .below =>
      let me := ((l.find? fun p => p.2.tid = tid).map (·.1)).getD 0
      (yes.filter (·.1 < me)).length
  | .slots => yes.foldl (fun m p => m + 2 ^ p.1) 0
  | .same =>
      match l with
      | [] => 1
      | p :: _ => (l.all fun q => e.rd32 q.2 a 0 == e.rd32 p.2 a 0).toNat
  | .first => match yes with | p :: _ => p.2.tid | [] => 0xFFFFFFFF

/-- Meaning of GVOTE. -/
def execGvote (d a : Code) (op : VoteOp) (s : State) : Host.Outcome State Fault Refusal :=
  .next (groupLane (fun l e th => Out.reg (th.dst32 d (BitVec.ofNat 32 (voteOf op l e a th.tid)) false)) s)

/-- One step of a fold (R106). -/
def foldStep (op : FoldOp) (t : ElemTy) (rm : Rm) (x y : Nat) : Nat × BitVec 6 :=
  let int := fun (f : Int → Int → Int) => (wrap (ElemTy.width t) (f (ElemTy.value t x) (ElemTy.value t y)), (0 : BitVec 6))
  match op with
  | .add => if t = .f32 then fmtF32.add { rm := rm, sat := false, scale := 0 } x y else int (· + ·)
  | .min => if t = .f32 then fmtF32.pick false x y else int min
  | .max => if t = .f32 then fmtF32.pick true x y else int max
  | .and => (x &&& y, 0)
  | .or => (x ||| y, 0)
  | .xor => (x ^^^ y, 0)

/-- The identity an exclusive scan gives the first slot. -/
def foldIdentity (op : FoldOp) (t : ElemTy) : Nat :=
  let w := ElemTy.width t
  match op with
  | .add | .or | .xor => 0
  | .and => 2 ^ w - 1
  | .min => if t = .f32 then 0x7F800000 else if t = .n32 then 2 ^ w - 1 else 2 ^ (w - 1) - 1
  | .max => if t = .f32 then 0xFF800000 else if t = .n32 then 0 else 2 ^ (w - 1)

/-- The fold of some values in order, with the flags of its steps. -/
def foldAll (op : FoldOp) (t : ElemTy) (rm : Rm) : List Nat → Nat × BitVec 6
  | [] => (foldIdentity op t, 0)
  | x :: l => l.foldl (fun r y => let q := foldStep op t rm r.1 y; (q.1, r.2 ||| q.2)) (x, 0)

/-- The fold of some slots: the mode is that of the lowest slot, which every fold with a step covers. -/
def foldOf (l : List (Nat × Thread)) (e : Env) (a : Code) (op : FoldOp) (t : ElemTy) : Nat × BitVec 6 :=
  foldAll op t ((l.head?.map (·.2.rm)).getD .rne) (l.map fun p => e.rdT p.2 t a 0)

/-- The slots that a thread's scan covers. -/
def scanSlots (excl : Bool) (tid : Nat) : List (Nat × Thread) → List (Nat × Thread)
  | [] => []
  | p :: l => if p.2.tid = tid then (if excl then [] else [p]) else p :: scanSlots excl tid l

/-- Meaning of GSCAN. -/
def execGscan (d a : Code) (excl : Bool) (op : FoldOp) (t : ElemTy) (s : State) : Host.Outcome State Fault Refusal :=
  .next (groupLane (fun l e th => outT th t d (foldOf (scanSlots excl th.tid l) e a op t)) s)

/-- Meaning of GRED. -/
def execGred (d a : Code) (op : FoldOp) (t : ElemTy) (s : State) : Host.Outcome State Fault Refusal :=
  .next (groupLane (fun l e th => outT th t d (foldOf l e a op t)) s)

end Sys2Proof.Machine
end

