-- ==== Sys2Proof/Decode.lean ====
section
/-!
DEFINITION. The decoder and the encoder (R51, R57 to R66, R72 to R74 and each word's encoding). A word is read as
its opcode and its fields d (23:17), a (16:10), b (9:3) and t (2:0); imm10 is b and t together, and the 24 bits of a
DB word are all four. Every encoding either is an instruction or is rejected by name with the offset of the word
at fault (R73).
-/

namespace Sys2Proof

/-- Why a word is no instruction (R52, R59, R62, R73). The offset counts words from the instruction's own. -/
inductive DecodeError where
  | noWord
  | badWord
  | noLiteral
  | strayModifier
  | badField
  | badModifier (offset : Nat)
  | modifierMissing
  deriving DecidableEq, Repr

/-- Offset of the word at fault. -/
def DecodeError.offset : DecodeError → Nat
  | .badModifier n => n
  | _ => 0

/-- Codes of R74. -/
def ElemTy.code : ElemTy → Nat
  | .i32 => 0 | .n32 => 1 | .f32 => 2 | .f16x2 => 3 | .bf16x2 => 4 | .i64 => 5 | .f64 => 6 | .i16x2 => 7

/-- The type of a code of R74. -/
def ElemTy.ofCode : Nat → Option ElemTy
  | 0 => some .i32 | 1 => some .n32 | 2 => some .f32 | 3 => some .f16x2 | 4 => some .bf16x2 | 5 => some .i64
  | 6 => some .f64 | 7 => some .i16x2 | _ => none

/-- REL codes of R90 and R281. -/
def Rel.code : Rel → Nat
  | .eq => 0 | .ne => 1 | .lt => 2 | .le => 3 | .gt => 4 | .ge => 5

/-- The relation of a REL code. -/
def Rel.ofCode : Nat → Option Rel
  | 0 => some .eq | 1 => some .ne | 2 => some .lt | 3 => some .le | 4 => some .gt | 5 => some .ge | _ => none

/-- REL codes of R96. -/
def FRel.code : FRel → Nat
  | .eq => 0 | .ne => 1 | .lt => 2 | .le => 3 | .gt => 4 | .ge => 5 | .un => 6 | .ord => 7

/-- The relation of a REL code of R96. -/
def FRel.ofCode : Nat → Option FRel
  | 0 => some .eq | 1 => some .ne | 2 => some .lt | 3 => some .le | 4 => some .gt | 5 => some .ge | 6 => some .un
  | 7 => some .ord | _ => none

/-- Rounding-mode codes of R71. -/
def Rm.code : Rm → Nat
  | .rne => 0 | .rtz => 1 | .rup => 2 | .rdn => 3

/-- The mode of a code of R71. -/
def Rm.ofCode : Nat → Option Rm
  | 0 => some .rne | 1 => some .rtz | 2 => some .rup | 3 => some .rdn | _ => none

/-- Mode codes of R99. -/
def RndMode.code : RndMode → Nat
  | .fmode => 0 | .rne => 1 | .rtz => 2 | .rup => 3 | .rdn => 4

/-- The mode of a code of R99. -/
def RndMode.ofCode : Nat → Option RndMode
  | 0 => some .fmode | 1 => some .rne | 2 => some .rtz | 3 => some .rup | 4 => some .rdn | _ => none

/-- Format codes of R100. -/
def FFmt.code : FFmt → Nat
  | .f32 => 0 | .f64 => 1 | .f16 => 2 | .bf16 => 3 | .f16x2 => 4 | .bf16x2 => 5 | .e4m3 => 6 | .e5m2 => 7 | .pp8 => 8

/-- The format of a code of R100. -/
def FFmt.ofCode : Nat → Option FFmt
  | 0 => some .f32 | 1 => some .f64 | 2 => some .f16 | 3 => some .bf16 | 4 => some .f16x2 | 5 => some .bf16x2
  | 6 => some .e4m3 | 7 => some .e5m2 | 8 => some .pp8 | _ => none

/-- FLT codes of R101. -/
def CvtFlt.code : CvtFlt → Nat
  | .f32 => 0 | .f64 => 1 | .f16 => 2 | .bf16 => 3

/-- The format of a FLT code. -/
def CvtFlt.ofCode : Nat → Option CvtFlt
  | 0 => some .f32 | 1 => some .f64 | 2 => some .f16 | 3 => some .bf16 | _ => none

/-- INT codes of R101. -/
def CvtInt.code : CvtInt → Nat
  | .i32 => 0 | .n32 => 1 | .i64 => 2 | .n64 => 3

/-- The type of an INT code. -/
def CvtInt.ofCode : Nat → Option CvtInt
  | 0 => some .i32 | 1 => some .n32 | 2 => some .i64 | 3 => some .n64 | _ => none

/-- Sub-ops of R103. -/
def GshfMode.code : GshfMode → Nat
  | .tid => 0 | .off => 1 | .rot => 2 | .rev => 3

/-- The mode of a sub-op of R103. -/
def GshfMode.ofCode : Nat → Option GshfMode
  | 0 => some .tid | 1 => some .off | 2 => some .rot | 3 => some .rev | _ => none

/-- Sub-ops of R105. -/
def VoteOp.code : VoteOp → Nat
  | .count => 0 | .below => 1 | .slots => 2 | .same => 3 | .first => 4

/-- The vote of a sub-op of R105. -/
def VoteOp.ofCode : Nat → Option VoteOp
  | 0 => some .count | 1 => some .below | 2 => some .slots | 3 => some .same | 4 => some .first | _ => none

/-- Operation codes of R106. -/
def FoldOp.code : FoldOp → Nat
  | .add => 0 | .min => 1 | .max => 2 | .and => 3 | .or => 4 | .xor => 5

/-- The operation of a code of R106. -/
def FoldOp.ofCode : Nat → Option FoldOp
  | 0 => some .add | 1 => some .min | 2 => some .max | 3 => some .and | 4 => some .or | 5 => some .xor | _ => none

/-- Numbers of R70. -/
def SReg.code : SReg → Nat
  | .tid => 0 | .ntid => 1 | .team => 2 | .core => 3 | .clus => 4 | .sgrp => 5 | .die => 6 | .dev => 7 | .taskarg => 8
  | .tilex => 9 | .tiley => 10 | .tilez => 11 | .clock => 12 | .ctime => 13 | .fmode => 14 | .flags => 15 | .asid => 16
  | .tenant => 17 | .fault => 18 | .faddr => 19 | .fpc => 20

/-- The register of a number of R70. -/
def SReg.ofCode : Nat → Option SReg
  | 0 => some .tid | 1 => some .ntid | 2 => some .team | 3 => some .core | 4 => some .clus | 5 => some .sgrp
  | 6 => some .die | 7 => some .dev | 8 => some .taskarg | 9 => some .tilex | 10 => some .tiley | 11 => some .tilez
  | 12 => some .clock | 13 => some .ctime | 14 => some .fmode | 15 => some .flags | 16 => some .asid | 17 => some .tenant
  | 18 => some .fault | 19 => some .faddr | 20 => some .fpc | _ => none

/-- Size codes of R60. -/
def MemSize.code : MemSize → Nat
  | .b8 => 0 | .b16 => 1 | .b32 => 2 | .b64 => 3 | .b128 => 4 | .b4 => 5

/-- The size of a code of R60. -/
def MemSize.ofCode : Nat → Option MemSize
  | 0 => some .b8 | 1 => some .b16 | 2 => some .b32 | 3 => some .b64 | 4 => some .b128 | 5 => some .b4 | _ => none

/-- Atomic types of R129. -/
def AtomTy.code : AtomTy → Nat
  | .i32 => 0 | .n32 => 1 | .f32 => 2 | .f16x2 => 3 | .bf16x2 => 4 | .i64 => 5 | .n64 => 6

/-- The atomic type of a code. -/
def AtomTy.ofCode : Nat → Option AtomTy
  | 0 => some .i32 | 1 => some .n32 | 2 => some .f32 | 3 => some .f16x2 | 4 => some .bf16x2 | 5 => some .i64
  | 6 => some .n64 | _ => none

/-- Sub-ops of R129. -/
def AtomOp.code : AtomOp → Nat
  | .add => 0 | .min => 1 | .max => 2 | .and => 3 | .or => 4 | .xor => 5 | .exch => 6 | .inc => 7

/-- The operation of a sub-op of R129. -/
def AtomOp.ofCode : Nat → Option AtomOp
  | 0 => some .add | 1 => some .min | 2 => some .max | 3 => some .and | 4 => some .or | 5 => some .xor | 6 => some .exch
  | 7 => some .inc | _ => none

/-- Sub-ops of R137. -/
def RedOp.code : RedOp → Nat
  | .none => 0 | .and => 1 | .or => 2 | .sum => 3 | .popc => 4

/-- The reduction of a sub-op of R137. -/
def RedOp.ofCode : Nat → Option RedOp
  | 0 => some .none | 1 => some .and | 2 => some .or | 3 => some .sum | 4 => some .popc | _ => Option.none

/-- SCOPE codes of R64. -/
def Scope.code : Scope → Nat
  | .team => 0 | .core => 1 | .clus => 2 | .sgrp => 3 | .dom => 4 | .sys => 5

/-- The scope of a code of R64. -/
def Scope.ofCode : Nat → Option Scope
  | 0 => some .team | 1 => some .core | 2 => some .clus | 3 => some .sgrp | 4 => some .dom | 5 => some .sys | _ => none

/-- ORDER codes of R64. -/
def Order.code : Order → Nat
  | .plain => 0 | .acq => 1 | .rel => 2 | .acqrel => 3

/-- The order of a code of R64. -/
def Order.ofCode : Nat → Option Order
  | 0 => some .plain | 1 => some .acq | 2 => some .rel | 3 => some .acqrel | _ => none

/-- HINT codes of R64. -/
def Hint.code : Hint → Nat
  | .normal => 0 | .stream => 1 | .keep => 2 | .bypass => 3

/-- The hint of a code of R64. -/
def Hint.ofCode : Nat → Option Hint
  | 0 => some .normal | 1 => some .stream | 2 => some .keep | 3 => some .bypass | _ => none

/-- Sub-ops of CMRG (R160). -/
def MrgFmt.code : MrgFmt → Nat
  | .f16x2 => 0 | .bf16x2 => 1 | .f32 => 2

/-- The output format of a sub-op of CMRG. -/
def MrgFmt.ofCode : Nat → Option MrgFmt
  | 0 => some .f16x2 | 1 => some .bf16x2 | 2 => some .f32 | _ => none

/-- Format codes of TALLOC (R226). -/
def TileFmt.code : TileFmt → Nat
  | .f32 => 0 | .f16 => 1 | .bf16 => 2 | .q8 => 3 | .q4 => 4

/-- The tile format of a code. -/
def TileFmt.ofCode : Nat → Option TileFmt
  | 0 => some .f32 | 1 => some .f16 | 2 => some .bf16 | 3 => some .q8 | 4 => some .q4 | _ => none

/-- Sub-ops of MDRAIN (R226). -/
def DrainFmt.code : DrainFmt → Nat
  | .f32 => 0 | .f16 => 1 | .bf16 => 2

/-- The format of a sub-op of MDRAIN. -/
def DrainFmt.ofCode : Nat → Option DrainFmt
  | 0 => some .f32 | 1 => some .f16 | 2 => some .bf16 | _ => none

/-- Sub-ops of MHAD (R226). -/
def HadSize.code : HadSize → Nat
  | .h16 => 0 | .h32 => 1 | .h64 => 2

/-- The block size of a sub-op of MHAD. -/
def HadSize.ofCode : Nat → Option HadSize
  | 0 => some .h16 | 1 => some .h32 | 2 => some .h64 | _ => none

/-- Sub-ops of TLBI (R120). -/
def TlbiOp.code : TlbiOp → Nat
  | .page => 0 | .asid => 1 | .all => 2

/-- What a sub-op of TLBI drops. -/
def TlbiOp.ofCode : Nat → Option TlbiOp
  | 0 => some .page | 1 => some .asid | 2 => some .all | _ => none

/-- Width and slot of a ring-set word (R74). -/
def RsTy.code (t : RsTy) : Nat := t.wide.toNat * 4 + t.slot.toNat

/-- The width and slot that bits 2:0 name. -/
def RsTy.ofCode (n : Nat) : RsTy := { wide := n / 4 % 2 == 1, slot := BitVec.ofNat 2 n }

/-- An operand code. -/
def codeOf (n : Nat) : Code := BitVec.ofNat 7 n

/-- What the first word of an instruction asks for besides itself: nothing, perhaps a modifier word, or a literal and
perhaps a modifier word. -/
inductive Parsed where
  | plain (i : Instr)
  | modded (f : Mods → Instr)
  | literal (f : Word → Mods → Instr)

/-- `x` when a field that must be zero is. -/
def zeroed {α : Type} (n : Nat) (x : Option α) : Option α := if n = 0 then x else none

/-- D3 words with a type field. -/
def d3 (f : Code → Code → Code → ElemTy → Mods → Instr) (d a b t : Nat) : Option Parsed :=
  (ElemTy.ofCode t).map fun ty => .modded (f (codeOf d) (codeOf a) (codeOf b) ty)

/-- D3 words with b = 0. -/
def d3u (f : Code → Code → ElemTy → Mods → Instr) (d a b t : Nat) : Option Parsed :=
  zeroed b ((ElemTy.ofCode t).map fun ty => .modded (f (codeOf d) (codeOf a) ty))

/-- Words with a D3 and a DL form: bits 9:3 = 0 selects the DL form (R78). -/
def d3l (f : Code → Code → Code → ElemTy → Mods → Instr) (g : Code → Code → ElemTy → Word → Mods → Instr)
    (d a b t : Nat) : Option Parsed :=
  (ElemTy.ofCode t).map fun ty =>
    if b = 0 then .literal (g (codeOf d) (codeOf a) ty) else .modded (f (codeOf d) (codeOf a) (codeOf b) ty)

/-- Shift words with an immediate (R87). -/
def shimm (f : Code → Code → Bool → BitVec 6 → Mods → Instr) (d a b t : Nat) : Option Parsed :=
  let imm := b * 8 + t
  zeroed (imm / 64 % 8) (some (.modded (f (codeOf d) (codeOf a) (imm / 512 % 2 == 1) (BitVec.ofNat 6 imm))))

/-- Opcodes 0x00 to 0x24. -/
def parseInt (op d a b t : Nat) : Option Parsed :=
  match op with
  | 0x00 => zeroed (d + a + b + t) (some (.plain .nop))
  | 0x01 => zeroed a ((ElemTy.ofCode t).map fun ty =>
      if b = 0 then .literal (.movDl (codeOf d) ty) else .modded (.mov (codeOf d) (codeOf b) ty))
  | 0x02 => zeroed a (some (.modded (.movi (codeOf d) (BitVec.ofNat 10 (b * 8 + t)))))
  | 0x03 => zeroed b ((ElemTy.ofCode t).map fun ty => .modded (.kset (codeOf d) (codeOf a) ty))
  | 0x04 => d3l .iadd .iaddDl d a b t
  | 0x05 => some (.modded (.iaddi (codeOf d) (codeOf a) (BitVec.ofNat 10 (b * 8 + t))))
  | 0x06 => d3 .isub d a b t
  | 0x07 => some (.modded (.iaddc (codeOf d) (codeOf a) (codeOf b) (BitVec.ofNat 3 t)))
  | 0x08 => d3l .imul .imulDl d a b t
  | 0x09 => d3 .imulh d a b t
  | 0x0A => d3 .imad d a b t
  | 0x0B => d3 .idiv d a b t
  | 0x0C => d3 .irem d a b t
  | 0x0D => d3 .imin d a b t
  | 0x0E => d3 .imax d a b t
  | 0x0F => d3u .iabs d a b t
  | 0x10 => d3l .and .andDl d a b t
  | 0x11 => d3l .or .orDl d a b t
  | 0x12 => d3l .xor .xorDl d a b t
  | 0x13 => d3 .andn d a b t
  | 0x14 => d3 .shl d a b t
  | 0x15 => d3 .shr d a b t
  | 0x16 => d3 .sar d a b t
  | 0x17 => d3 .rotl d a b t
  | 0x18 => shimm .shli d a b t
  | 0x19 => shimm .shri d a b t
  | 0x1A => shimm .sari d a b t
  | 0x1B => d3u .popc d a b t
  | 0x1C => d3u .clz d a b t
  | 0x1D => d3u .ctz d a b t
  | 0x1E => d3u .brev d a b t
  | 0x1F => d3 .bfx d a b t
  | 0x20 => d3 .bfi d a b t
  | 0x21 => (Rel.ofCode (d / 16)).bind fun r => (ElemTy.ofCode t).map fun ty =>
      if b = 0 then .literal (.icmpDl r (d / 8 % 2 == 1) (BitVec.ofNat 3 d) (codeOf a) ty)
      else .modded (.icmp r (d / 8 % 2 == 1) (BitVec.ofNat 3 d) (codeOf a) (codeOf b) ty)
  | 0x22 => (Rel.ofCode (d / 16)).map fun r =>
      .modded (.icmpi r (d / 8 % 2 == 1) (BitVec.ofNat 3 d) (codeOf a) (BitVec.ofNat 10 (b * 8 + t)))
  | 0x23 => some (.modded (.sel (codeOf d) (codeOf a) (codeOf b) (BitVec.ofNat 3 t)))
  | 0x24 => some (.modded (.lea (codeOf d) (codeOf a) (codeOf b) (BitVec.ofNat 3 t)))
  | _ => none

/-- Opcodes 0x40 to 0x51. -/
def parseFlt (op d a b t : Nat) : Option Parsed :=
  match op with
  | 0x40 => d3l .fadd .faddDl d a b t
  | 0x41 => d3 .fsub d a b t
  | 0x42 => d3l .fmul .fmulDl d a b t
  | 0x43 => d3 .ffma d a b t
  | 0x44 => d3l .fmin .fminDl d a b t
  | 0x45 => d3l .fmax .fmaxDl d a b t
  | 0x46 => (FRel.ofCode (d / 16)).bind fun r => (ElemTy.ofCode t).map fun ty =>
      if b = 0 then .literal (.fcmpDl r (d / 8 % 2 == 1) (BitVec.ofNat 3 d) (codeOf a) ty)
      else .modded (.fcmp r (d / 8 % 2 == 1) (BitVec.ofNat 3 d) (codeOf a) (codeOf b) ty)
  | 0x47 => d3u .fclass d a b t
  | 0x48 => d3u .frcp d a b t
  | 0x49 => d3u .frsq d a b t
  | 0x4A => d3u .fsqrt d a b t
  | 0x4B => d3 .fdiv d a b t
  | 0x4C => d3u .fexp2 d a b t
  | 0x4D => d3u .flog2 d a b t
  | 0x4E => d3u .ftanh d a b t
  | 0x4F => (RndMode.ofCode b).bind fun r => (ElemTy.ofCode t).map fun ty => .modded (.frnd (codeOf d) (codeOf a) r ty)
  | 0x50 =>
      let imm := b * 8 + t
      (FFmt.ofCode (imm / 64)).bind fun x => (FFmt.ofCode (imm / 4 % 16)).map fun s =>
        .modded (.fcvt (codeOf d) (codeOf a) x s (BitVec.ofNat 2 imm))
  | 0x51 =>
      let imm := b * 8 + t
      (CvtFlt.ofCode (imm / 64)).bind fun x => (CvtInt.ofCode (imm / 8 % 8)).map fun n =>
        .modded (.icvt (codeOf d) (codeOf a) x n (imm / 4 % 2 == 1) (BitVec.ofNat 2 imm))
  | _ => none

/-- Opcodes 0x70 to 0x7B. -/
def parseGrp (op d a b t : Nat) : Option Parsed :=
  match op with
  | 0x70 => (GshfMode.ofCode t).map fun g => .modded (.gshf (codeOf d) (codeOf a) (codeOf b) g)
  | 0x71 => some (.modded (.gbcst (codeOf d) (codeOf a) (BitVec.ofNat 10 (b * 8 + t))))
  | 0x72 => zeroed b ((VoteOp.ofCode t).map fun v => .plain (.gvote (codeOf d) (codeOf a) v))
  | 0x73 => zeroed (b / 16) ((FoldOp.ofCode (b % 8)).bind fun o => (ElemTy.ofCode t).map fun ty =>
      .plain (.gscan (codeOf d) (codeOf a) (b / 8 % 2 == 1) o ty))
  | 0x74 => zeroed (b / 8) ((FoldOp.ofCode (b % 8)).bind fun o => (ElemTy.ofCode t).map fun ty =>
      .plain (.gred (codeOf d) (codeOf a) o ty))
  | 0x78 => zeroed a ((SReg.ofCode (b * 8 + t)).map fun n => .modded (.sread (codeOf d) n))
  | 0x79 => zeroed d ((SReg.ofCode (b * 8 + t)).map fun n => .modded (.swrite n (codeOf a)))
  | 0x7A => zeroed (d + (b * 8 + t) / 4 % 128) ((Rm.ofCode (t % 4)).map fun r =>
      .plain (.fmode ((b * 8 + t) / 512 == 1) (codeOf a) r))
  | 0x7B => zeroed (d + t) (some (.plain (.carve (codeOf a) (codeOf b))))
  | _ => none

/-- DM words (R60). -/
def dm (f : Code → Code → MemSize → BitVec 7 → Mods → Instr) (d a b t : Nat) : Option Parsed :=
  (MemSize.ofCode ((b * 8 + t) / 128)).map fun s => .modded (f (codeOf d) (codeOf a) s (BitVec.ofNat 7 (b * 8 + t)))

/-- Opcodes 0x80 to 0x89. -/
def parseMem (op d a b t : Nat) : Option Parsed :=
  match op with
  | 0x80 => dm .ld d a b t
  | 0x81 => dm .st d a b t
  | 0x82 => dm .ldc d a b t
  | 0x83 => dm .stsb d a b t
  | 0x84 => zeroed (d + (b * 8 + t) / 256)
      (some (.modded (.pref (codeOf a) ((b * 8 + t) / 128 % 2 == 1) (BitVec.ofNat 7 (b * 8 + t)))))
  | 0x85 => zeroed (b / 8) ((AtomTy.ofCode (b % 8)).bind fun ty => (AtomOp.ofCode t).map fun o =>
      .modded (.atom (codeOf d) (codeOf a) ty o))
  | 0x86 => zeroed (b / 8 + t) ((AtomTy.ofCode (b % 8)).map fun ty => .modded (.acas (codeOf d) (codeOf a) ty))
  | 0x87 => zeroed (b / 8) ((AtomTy.ofCode (b % 8)).bind fun ty => (AtomOp.ofCode t).map fun o =>
      .modded (.ared (codeOf d) (codeOf a) ty o))
  | 0x88 => zeroed (d + a + b + t) (some (.modded .fence))
  | 0x89 => some (.modded (.guard (codeOf d) (codeOf a) (codeOf b) (t / 4 == 1) (BitVec.ofNat 2 t)))
  | _ => none

/-- Opcodes 0x90 to 0xA3. -/
def parseSync (op d a b t : Nat) : Option Parsed :=
  match op with
  | 0x90 => zeroed (d + a + b / 16 + t) (some (.modded (.binit (BitVec.ofNat 4 b))))
  | 0x91 => zeroed (b / 16) ((RedOp.ofCode t).map fun o => .modded (.bsync (codeOf d) (codeOf a) (BitVec.ofNat 4 b) o))
  | 0x92 => zeroed (b / 16) ((RedOp.ofCode t).map fun o => .modded (.barv (codeOf d) (codeOf a) (BitVec.ofNat 4 b) o))
  | 0x93 => zeroed (b / 16 + t) (some (.modded (.bwait (codeOf d) (codeOf a) (BitVec.ofNat 4 b))))
  | 0x94 => zeroed (d / 8 + b / 16 + t) (some (.modded (.btest (BitVec.ofNat 3 d) (codeOf a) (BitVec.ofNat 4 b))))
  | 0x98 => zeroed (d / 8 + b + t) (some (.modded (.lopen (BitVec.ofNat 3 d) (codeOf a))))
  | 0x99 => zeroed (d / 64 + b + t) (some (.modded (.lpush (BitVec.ofNat 3 (d / 8)) (BitVec.ofNat 3 d) (codeOf a))))
  | 0x9A => zeroed (d / 64 + b + t) (some (.modded (.lpop (BitVec.ofNat 3 (d / 8)) (BitVec.ofNat 3 d) (codeOf a))))
  | 0x9B => zeroed (d / 64 + b + t) (some (.modded (.ltrypop (BitVec.ofNat 3 (d / 8)) (BitVec.ofNat 3 d) (codeOf a))))
  | 0x9C => zeroed (d / 8 + a + b + t) (some (.modded (.lseal (BitVec.ofNat 3 d))))
  | 0x9D => zeroed (d / 8 + b + t) (some (.modded (.lstat (BitVec.ofNat 3 d) (codeOf a))))
  | 0x9E => zeroed (d + b + t) (some (.modded (.tspawn (codeOf a))))
  | 0x9F => zeroed (d + b + t) (some (.modded (.tdone (codeOf a))))
  | 0xA0 => zeroed (d / 8 + b + t) (some (.modded (.lcfg (BitVec.ofNat 3 d) (codeOf a))))
  | 0xA1 => zeroed (d / 64 + a + b + t) (some (.modded (.lfire (BitVec.ofNat 3 (d / 8)) (BitVec.ofNat 3 d))))
  | 0xA2 => zeroed (b + t) (some (.modded (.hbind (codeOf d) (codeOf a))))
  | 0xA3 => zeroed (d + a + b + t) (some (.modded .hdone))
  | _ => none

/-- Opcodes 0xB0 to 0xB7. -/
def parseCtx (op d a b t : Nat) : Option Parsed :=
  let imm := b * 8 + t
  match op with
  | 0xB0 => zeroed (imm / 32 % 2) (some (.modded
      (.crsv (codeOf d) (codeOf a) (imm / 512 == 1) (BitVec.ofNat 3 (imm / 64)) (BitVec.ofNat 5 imm))))
  | 0xB1 => zeroed t (some (.modded (.cwkv (codeOf d) (codeOf a) (codeOf b))))
  | 0xB2 => some (.modded (.cpub (codeOf d) (codeOf a) (BitVec.ofNat 10 imm)))
  | 0xB3 => zeroed (d + b + t) (some (.modded (.cacq (codeOf a))))
  | 0xB4 => zeroed t (some (.plain (.csig (codeOf d) (codeOf a) (codeOf b))))
  | 0xB5 => some (.plain (.catt (codeOf d) (codeOf a) (codeOf b) (BitVec.ofNat 3 t)))
  | 0xB6 => zeroed b ((MrgFmt.ofCode t).map fun f => .modded (.cmrg (codeOf d) (codeOf a) f))
  | 0xB7 => some (.modded (.crel (codeOf d) (codeOf a) (BitVec.ofNat 10 imm)))
  | _ => none

/-- Opcodes 0xC0 to 0xCE. -/
def parseMat (op d a b t : Nat) : Option Parsed :=
  let imm := b * 8 + t
  match op with
  | 0xC0 => (TileFmt.ofCode t).map fun f => .modded (.talloc (codeOf d) (codeOf a) (codeOf b) f)
  | 0xC1 => zeroed (a + imm) (some (.modded (.tready (codeOf d))))
  | 0xC2 => zeroed (a + imm) (some (.modded (.tdrain (codeOf d))))
  | 0xC3 => zeroed (a + imm) (some (.modded (.tfree (codeOf d))))
  | 0xC4 => zeroed imm (some (.modded (.tstat (codeOf d) (codeOf a))))
  | 0xC8 => some (.modded (.mload (codeOf d) (codeOf a) (BitVec.ofNat 5 (imm / 32)) (BitVec.ofNat 5 imm)))
  | 0xC9 => zeroed (imm % 2)
      (some (.modded (.mfire (codeOf d) (codeOf a) (BitVec.ofNat 3 (imm / 128)) (BitVec.ofNat 6 (imm / 2)))))
  | 0xCA => zeroed b ((HadSize.ofCode t).map fun h => .modded (.mhad (codeOf d) (codeOf a) h))
  | 0xCB => zeroed (t / 2) (some (.modded (.mqnt (codeOf d) (codeOf a) (codeOf b) (t % 2 == 1))))
  | 0xCC => zeroed (a / 8 + b) ((DrainFmt.ofCode t).map fun f => .modded (.mdrain (codeOf d) (BitVec.ofNat 3 a) f))
  | 0xCD => zeroed (d / 8 + a) (some (.modded (.mclr (BitVec.ofNat 3 d) (BitVec.ofNat 10 imm))))
  | 0xCE => zeroed b (some (.modded (.mres (codeOf d) (codeOf a) (BitVec.ofNat 3 t))))
  | _ => none

/-- Ring-set words of three registers (R273). -/
def rs3 (f : Code → Code → Code → RsTy → Mods → Instr) (d a b t : Nat) : Option Parsed :=
  some (.modded (f (codeOf d) (codeOf a) (codeOf b) (RsTy.ofCode t)))

/-- Ring-set words with b = 0. -/
def rs2 (f : Code → Code → RsTy → Mods → Instr) (d a b t : Nat) : Option Parsed :=
  zeroed b (some (.modded (f (codeOf d) (codeOf a) (RsTy.ofCode t))))

/-- Opcodes 0xD0 to 0xDF. -/
def parseRing (op d a b t : Nat) : Option Parsed :=
  match op with
  | 0xD0 => zeroed (d + b) (some (.modded (.rsring (codeOf a) (RsTy.ofCode t))))
  | 0xD1 => rs3 .rsadd d a b t
  | 0xD2 => rs3 .rssub d a b t
  | 0xD3 => rs3 .rsmul d a b t
  | 0xD4 => rs3 .rsdiv d a b t
  | 0xD5 => rs2 .rsneg d a b t
  | 0xD6 => rs2 .rsrec d a b t
  | 0xD7 => rs3 .rsmax d a b t
  | 0xD8 => rs3 .rsmin d a b t
  | 0xD9 => rs3 .rsuni d a b t
  | 0xDA => rs3 .rsint d a b t
  | 0xDB => rs3 .rsfrom d a b t
  | 0xDC => rs2 .rslo d a b t
  | 0xDD => rs2 .rshi d a b t
  | 0xDE => (Rel.ofCode (d / 16)).map fun r =>
      .modded (.rstest r (d / 8 % 2 == 1) (BitVec.ofNat 3 d) (codeOf a) (codeOf b) (RsTy.ofCode t))
  | 0xDF =>
      match b with
      | 0 => some (.modded (.rspack (codeOf d) (codeOf a) (RsTy.ofCode t)))
      | 1 => some (.modded (.rsunpk (codeOf d) (codeOf a) (RsTy.ofCode t)))
      | _ => none
  | _ => none

/-- Opcodes 0xE0 to 0xE4. -/
def parseEng (op d a b t : Nat) : Option Parsed :=
  match op with
  | 0xE0 => (Scope.ofCode t).map fun s => .modded (.xcopy (codeOf d) (codeOf a) (codeOf b) s)
  | 0xE1 => some (.modded (.xgath (codeOf d) (codeOf a) (codeOf b) (BitVec.ofNat 3 t)))
  | 0xE2 => zeroed (b + t / 2) (some (.modded (.xputs (codeOf d) (codeOf a) (t == 1))))
  | 0xE3 => zeroed t (some (.plain (.xshad (codeOf d) (codeOf a) (codeOf b))))
  | 0xE4 => zeroed (d + b + t) (some (.plain (.xpubb (codeOf a))))
  | _ => none

/-- The guard field of a DB word (R57). -/
def dbGuard (d : Nat) : Guard := { en := d / 64 == 1, sense := d / 32 % 2 == 1, pred := BitVec.ofNat 3 (d / 4) }

/-- The offset field of a DB word. -/
def dbOff (d a b t : Nat) : BitVec 19 := BitVec.ofNat 19 (d % 4 * 2 ^ 17 + a * 2 ^ 10 + b * 8 + t)

/-- Opcodes 0xF0 to 0xFB. -/
def parseFlow (op d a b t : Nat) : Option Parsed :=
  match op with
  | 0xF0 => some (.plain (.bra (dbGuard d) (dbOff d a b t)))
  | 0xF1 => zeroed (1 - d / 64) (some (.plain (.brc (dbGuard d).sense (dbGuard d).pred (dbOff d a b t))))
  | 0xF2 => zeroed (d + b + t) (some (.plain (.brx (codeOf a))))
  | 0xF3 => some (.plain (.call (dbGuard d) (dbOff d a b t)))
  | 0xF4 => zeroed (d + b + t) (some (.plain (.callx (codeOf a))))
  | 0xF5 => zeroed (d + a + b + t) (some (.plain .ret))
  | 0xF6 => zeroed (d + a + b + t) (some (.plain .reform))
  | 0xF7 => zeroed (d + a + b + t) (some (.plain .yield))
  | 0xF8 => zeroed (d + a + b + t) (some (.plain .exit))
  | 0xF9 => zeroed (d + a) (some (.plain (.trap (BitVec.ofNat 10 (b * 8 + t)))))
  | 0xFA => zeroed (d + a + b + t) (some (.plain .eret))
  | 0xFB => zeroed d ((TlbiOp.ofCode t).map fun o => .modded (.tlbi (codeOf a) (codeOf b) o))
  | _ => none

/-- The first word of an instruction, from its opcode and fields (R72). -/
def parseFields (op d a b t : Nat) : Option Parsed :=
  match op / 16 with
  | 0x0 | 0x1 | 0x2 => parseInt op d a b t
  | 0x4 | 0x5 => parseFlt op d a b t
  | 0x7 => parseGrp op d a b t
  | 0x8 => parseMem op d a b t
  | 0x9 | 0xA => parseSync op d a b t
  | 0xB => parseCtx op d a b t
  | 0xC => parseMat op d a b t
  | 0xD => parseRing op d a b t
  | 0xE => parseEng op d a b t
  | 0xF => parseFlow op d a b t
  | _ => none

/-- The first word of an instruction. -/
def parseWord (w : Nat) : Option Parsed :=
  parseFields (w / 2 ^ 24) (w / 2 ^ 17 % 128) (w / 2 ^ 10 % 128) (w / 8 % 128) (w % 8)

/-- Whether a word is a modifier word (R62). -/
def isModWord (w : Nat) : Bool := w / 2 ^ 24 == 0xFF

/-- The guard of a form-0 or form-1 modifier (R63, R64). -/
def modGuard (w : Nat) : Guard :=
  { en := w / 2 ^ 9 % 2 == 1, sense := w / 2 ^ 8 % 2 == 1, pred := BitVec.ofNat 3 (w / 2 ^ 5) }

/-- The BAR field of a form-3 modifier (R66). -/
def modBar (n : Nat) : Option (Option (BitVec 4)) :=
  if n = 0 then some none else if n < 16 then none else some (some (BitVec.ofNat 4 n))

/-- A modifier word (R62 to R66). -/
def decodeMods (w : Nat) : Option Mods :=
  match w / 2 ^ 21 % 8 with
  | 0 => zeroed (w % 32) (some (.f0
      { sat := w / 2 ^ 20 % 2 == 1, clamp := w / 2 ^ 19 % 2 == 1, nega := w / 2 ^ 18 % 2 == 1, absa := w / 2 ^ 17 % 2 == 1,
        negb := w / 2 ^ 16 % 2 == 1, absb := w / 2 ^ 15 % 2 == 1, scale := BitVec.ofNat 5 (w / 2 ^ 10), guard := modGuard w }))
  | 1 => zeroed (w % 32 + w / 2 ^ 10 % 16) ((Order.ofCode (w / 2 ^ 19 % 4)).bind fun o =>
      (Scope.ofCode (w / 2 ^ 16 % 8)).bind fun s => (Hint.ofCode (w / 2 ^ 14 % 4)).map fun h =>
        .f1 { order := o, scope := s, hint := h, guard := modGuard w })
  | 2 => zeroed (w / 2 ^ 16 % 32) (some (.f2 (BitVec.ofNat 16 w)))
  | 3 => zeroed (w % 2 ^ 14) ((modBar (w / 2 ^ 16 % 32)).map fun b =>
      .f3 { bar := b, task := w / 2 ^ 15 % 2 == 1, shadow := w / 2 ^ 14 % 2 == 1 })
  | _ => none

/-- An instruction is taken when its fields and its modifier word are legal; `n` is how many words it has. -/
def finish (i : Instr) (n : Nat) : Except DecodeError (Instr × Nat) :=
  if i.fieldsOk then
    if i.modsOk then .ok (i, n) else if i.mods = .none then .error .modifierMissing else .error (.badModifier (n - 1))
  else .error .badField

/-- Attaches the modifier word that follows, if one does. -/
def attach (f : Mods → Instr) (n : Nat) : List Word → Except DecodeError (Instr × Nat)
  | m :: _ =>
      if isModWord m.toNat then
        match decodeMods m.toNat with
        | some md => finish (f md) (n + 1)
        | none => if (f .none).fieldsOk then .error (.badModifier n) else .error .badField
      else finish (f .none) n
  | [] => finish (f .none) n

/-- The instruction at the front of a list of words, with how many words it has (R57 to R67). -/
def decode : List Word → Except DecodeError (Instr × Nat)
  | [] => .error .noWord
  | w :: rest =>
      if isModWord w.toNat then .error .strayModifier
      else
        match parseWord w.toNat with
        | none => .error .badWord
        | some (.plain i) => finish i 1
        | some (.modded f) => attach f 1 rest
        | some (.literal f) =>
            match rest with
            | [] => .error .noLiteral
            | l :: rest => attach (f l) 2 rest

/-! ### The encoder -/

/-- A word of the formats D3 and DX. -/
def w3 (op d a b t : Nat) : Nat := op * 2 ^ 24 + d * 2 ^ 17 + a * 2 ^ 10 + b * 8 + t

/-- A word of the formats DI and DM. -/
def wi (op d a imm : Nat) : Nat := op * 2 ^ 24 + d * 2 ^ 17 + a * 2 ^ 10 + imm

/-- A DB word. -/
def wb (op : Nat) (g : Guard) (off : BitVec 19) : Nat :=
  op * 2 ^ 24 + g.en.toNat * 2 ^ 23 + g.sense.toNat * 2 ^ 22 + g.pred.toNat * 2 ^ 19 + off.toNat

/-- The d field of a compare: REL, a bit, and the predicate. -/
def cmpd (r : Nat) (u : Bool) (p : P3) : Nat := r * 16 + u.toNat * 8 + p.toNat

/-- The first word of an instruction; 0 for a row that no word encodes. -/
def Instr.word : Instr → Nat
  | .nop => 0
  | .mov d b t _ => w3 0x01 d.toNat 0 b.toNat t.code
  | .movDl d t _ _ => w3 0x01 d.toNat 0 0 t.code
  | .movi d i _ => wi 0x02 d.toNat 0 i.toNat
  | .kset d a t _ => w3 0x03 d.toNat a.toNat 0 t.code
  | .iadd d a b t _ => w3 0x04 d.toNat a.toNat b.toNat t.code
  | .iaddDl d a t _ _ => w3 0x04 d.toNat a.toNat 0 t.code
  | .iaddi d a i _ => wi 0x05 d.toNat a.toNat i.toNat
  | .isub d a b t _ => w3 0x06 d.toNat a.toNat b.toNat t.code
  | .iaddc d a b p _ => w3 0x07 d.toNat a.toNat b.toNat p.toNat
  | .imul d a b t _ => w3 0x08 d.toNat a.toNat b.toNat t.code
  | .imulDl d a t _ _ => w3 0x08 d.toNat a.toNat 0 t.code
  | .imulh d a b t _ => w3 0x09 d.toNat a.toNat b.toNat t.code
  | .imad d a b t _ => w3 0x0A d.toNat a.toNat b.toNat t.code
  | .idiv d a b t _ => w3 0x0B d.toNat a.toNat b.toNat t.code
  | .irem d a b t _ => w3 0x0C d.toNat a.toNat b.toNat t.code
  | .imin d a b t _ => w3 0x0D d.toNat a.toNat b.toNat t.code
  | .imax d a b t _ => w3 0x0E d.toNat a.toNat b.toNat t.code
  | .iabs d a t _ => w3 0x0F d.toNat a.toNat 0 t.code
  | .and d a b t _ => w3 0x10 d.toNat a.toNat b.toNat t.code
  | .andDl d a t _ _ => w3 0x10 d.toNat a.toNat 0 t.code
  | .or d a b t _ => w3 0x11 d.toNat a.toNat b.toNat t.code
  | .orDl d a t _ _ => w3 0x11 d.toNat a.toNat 0 t.code
  | .xor d a b t _ => w3 0x12 d.toNat a.toNat b.toNat t.code
  | .xorDl d a t _ _ => w3 0x12 d.toNat a.toNat 0 t.code
  | .andn d a b t _ => w3 0x13 d.toNat a.toNat b.toNat t.code
  | .shl d a b t _ => w3 0x14 d.toNat a.toNat b.toNat t.code
  | .shr d a b t _ => w3 0x15 d.toNat a.toNat b.toNat t.code
  | .sar d a b t _ => w3 0x16 d.toNat a.toNat b.toNat t.code
  | .rotl d a b t _ => w3 0x17 d.toNat a.toNat b.toNat t.code
  | .shli d a w c _ => wi 0x18 d.toNat a.toNat (w.toNat * 512 + c.toNat)
  | .shri d a w c _ => wi 0x19 d.toNat a.toNat (w.toNat * 512 + c.toNat)
  | .sari d a w c _ => wi 0x1A d.toNat a.toNat (w.toNat * 512 + c.toNat)
  | .popc d a t _ => w3 0x1B d.toNat a.toNat 0 t.code
  | .clz d a t _ => w3 0x1C d.toNat a.toNat 0 t.code
  | .ctz d a t _ => w3 0x1D d.toNat a.toNat 0 t.code
  | .brev d a t _ => w3 0x1E d.toNat a.toNat 0 t.code
  | .bfx d a b t _ => w3 0x1F d.toNat a.toNat b.toNat t.code
  | .bfi d a b t _ => w3 0x20 d.toNat a.toNat b.toNat t.code
  | .icmp r u p a b t _ => w3 0x21 (cmpd r.code u p) a.toNat b.toNat t.code
  | .icmpDl r u p a t _ _ => w3 0x21 (cmpd r.code u p) a.toNat 0 t.code
  | .icmpi r u p a i _ => wi 0x22 (cmpd r.code u p) a.toNat i.toNat
  | .sel d a b p _ => w3 0x23 d.toNat a.toNat b.toNat p.toNat
  | .lea d a b s _ => w3 0x24 d.toNat a.toNat b.toNat s.toNat
  | .fadd d a b t _ => w3 0x40 d.toNat a.toNat b.toNat t.code
  | .faddDl d a t _ _ => w3 0x40 d.toNat a.toNat 0 t.code
  | .fsub d a b t _ => w3 0x41 d.toNat a.toNat b.toNat t.code
  | .fmul d a b t _ => w3 0x42 d.toNat a.toNat b.toNat t.code
  | .fmulDl d a t _ _ => w3 0x42 d.toNat a.toNat 0 t.code
  | .ffma d a b t _ => w3 0x43 d.toNat a.toNat b.toNat t.code
  | .fmin d a b t _ => w3 0x44 d.toNat a.toNat b.toNat t.code
  | .fminDl d a t _ _ => w3 0x44 d.toNat a.toNat 0 t.code
  | .fmax d a b t _ => w3 0x45 d.toNat a.toNat b.toNat t.code
  | .fmaxDl d a t _ _ => w3 0x45 d.toNat a.toNat 0 t.code
  | .fcmp r u p a b t _ => w3 0x46 (cmpd r.code u p) a.toNat b.toNat t.code
  | .fcmpDl r u p a t _ _ => w3 0x46 (cmpd r.code u p) a.toNat 0 t.code
  | .fclass d a t _ => w3 0x47 d.toNat a.toNat 0 t.code
  | .frcp d a t _ => w3 0x48 d.toNat a.toNat 0 t.code
  | .frsq d a t _ => w3 0x49 d.toNat a.toNat 0 t.code
  | .fsqrt d a t _ => w3 0x4A d.toNat a.toNat 0 t.code
  | .fdiv d a b t _ => w3 0x4B d.toNat a.toNat b.toNat t.code
  | .fexp2 d a t _ => w3 0x4C d.toNat a.toNat 0 t.code
  | .flog2 d a t _ => w3 0x4D d.toNat a.toNat 0 t.code
  | .ftanh d a t _ => w3 0x4E d.toNat a.toNat 0 t.code
  | .frnd d a m t _ => w3 0x4F d.toNat a.toNat m.code t.code
  | .fcvt d a x s l _ => wi 0x50 d.toNat a.toNat (x.code * 64 + s.code * 4 + l.toNat)
  | .icvt d a f n o l _ => wi 0x51 d.toNat a.toNat (f.code * 64 + n.code * 8 + o.toNat * 4 + l.toNat)
  | .gshf d a b g _ => w3 0x70 d.toNat a.toNat b.toNat g.code
  | .gbcst d a u _ => wi 0x71 d.toNat a.toNat u.toNat
  | .gvote d a o => w3 0x72 d.toNat a.toNat 0 o.code
  | .gscan d a e o t => w3 0x73 d.toNat a.toNat (e.toNat * 8 + o.code) t.code
  | .gred d a o t => w3 0x74 d.toNat a.toNat o.code t.code
  | .sread d n _ => wi 0x78 d.toNat 0 n.code
  | .swrite n a _ => wi 0x79 0 a.toNat n.code
  | .fmode r a m => wi 0x7A 0 a.toNat (r.toNat * 512 + m.code)
  | .carve a b => w3 0x7B 0 a.toNat b.toNat 0
  | .ld d b s o _ => wi 0x80 d.toNat b.toNat (s.code * 128 + o.toNat)
  | .st d b s o _ => wi 0x81 d.toNat b.toNat (s.code * 128 + o.toNat)
  | .ldc d b s o _ => wi 0x82 d.toNat b.toNat (s.code * 128 + o.toNat)
  | .stsb d b s o _ => wi 0x83 d.toNat b.toNat (s.code * 128 + o.toNat)
  | .pref b l o _ => wi 0x84 0 b.toNat (l.toNat * 128 + o.toNat)
  | .atom d a t o _ => w3 0x85 d.toNat a.toNat t.code o.code
  | .acas d a t _ => w3 0x86 d.toNat a.toNat t.code 0
  | .ared d a t o _ => w3 0x87 d.toNat a.toNat t.code o.code
  | .fence _ => w3 0x88 0 0 0 0
  | .guard d a b c e _ => w3 0x89 d.toNat a.toNat b.toNat (c.toNat * 4 + e.toNat)
  | .binit n _ => w3 0x90 0 0 n.toNat 0
  | .bsync d a n o _ => w3 0x91 d.toNat a.toNat n.toNat o.code
  | .barv d a n o _ => w3 0x92 d.toNat a.toNat n.toNat o.code
  | .bwait d a n _ => w3 0x93 d.toNat a.toNat n.toNat 0
  | .btest p a n _ => w3 0x94 p.toNat a.toNat n.toNat 0
  | .lopen n a _ => w3 0x98 n.toNat a.toNat 0 0
  | .lpush p n a _ => w3 0x99 (p.toNat * 8 + n.toNat) a.toNat 0 0
  | .lpop p n a _ => w3 0x9A (p.toNat * 8 + n.toNat) a.toNat 0 0
  | .ltrypop p n a _ => w3 0x9B (p.toNat * 8 + n.toNat) a.toNat 0 0
  | .lseal n _ => w3 0x9C n.toNat 0 0 0
  | .lstat n a _ => w3 0x9D n.toNat a.toNat 0 0
  | .tspawn a _ => w3 0x9E 0 a.toNat 0 0
  | .tdone a _ => w3 0x9F 0 a.toNat 0 0
  | .lcfg n a _ => w3 0xA0 n.toNat a.toNat 0 0
  | .lfire p n _ => w3 0xA1 (p.toNat * 8 + n.toNat) 0 0 0
  | .hbind d a _ => w3 0xA2 d.toNat a.toNat 0 0
  | .hdone _ => w3 0xA3 0 0 0 0
  | .crsv d a t p n _ => wi 0xB0 d.toNat a.toNat (t.toNat * 512 + p.toNat * 64 + n.toNat)
  | .cwkv d a b _ => w3 0xB1 d.toNat a.toNat b.toNat 0
  | .cpub d a n _ => wi 0xB2 d.toNat a.toNat n.toNat
  | .cacq a _ => w3 0xB3 0 a.toNat 0 0
  | .csig d a b => w3 0xB4 d.toNat a.toNat b.toNat 0
  | .catt d a b p => w3 0xB5 d.toNat a.toNat b.toNat p.toNat
  | .cmrg d a f _ => w3 0xB6 d.toNat a.toNat 0 f.code
  | .crel d a n _ => wi 0xB7 d.toNat a.toNat n.toNat
  | .talloc t a b f _ => w3 0xC0 t.toNat a.toNat b.toNat f.code
  | .tready t _ => w3 0xC1 t.toNat 0 0 0
  | .tdrain t _ => w3 0xC2 t.toNat 0 0 0
  | .tfree t _ => w3 0xC3 t.toNat 0 0 0
  | .tstat d t _ => w3 0xC4 d.toNat t.toNat 0 0
  | .mload d a s g _ => wi 0xC8 d.toNat a.toNat (s.toNat * 32 + g.toNat)
  | .mfire d t b c _ => wi 0xC9 d.toNat t.toNat (b.toNat * 128 + c.toNat * 2)
  | .mhad d s p _ => w3 0xCA d.toNat s.toNat 0 p.code
  | .mqnt d s r q _ => w3 0xCB d.toNat s.toNat r.toNat q.toNat
  | .mdrain d b f _ => w3 0xCC d.toNat b.toNat 0 f.code
  | .mclr b e _ => wi 0xCD b.toNat 0 e.toNat
  | .mres d a p _ => w3 0xCE d.toNat a.toNat 0 p.toNat
  | .rsring a y _ => w3 0xD0 0 a.toNat 0 y.code
  | .rsadd d a b y _ => w3 0xD1 d.toNat a.toNat b.toNat y.code
  | .rssub d a b y _ => w3 0xD2 d.toNat a.toNat b.toNat y.code
  | .rsmul d a b y _ => w3 0xD3 d.toNat a.toNat b.toNat y.code
  | .rsdiv d a b y _ => w3 0xD4 d.toNat a.toNat b.toNat y.code
  | .rsneg d a y _ => w3 0xD5 d.toNat a.toNat 0 y.code
  | .rsrec d a y _ => w3 0xD6 d.toNat a.toNat 0 y.code
  | .rsmax d a b y _ => w3 0xD7 d.toNat a.toNat b.toNat y.code
  | .rsmin d a b y _ => w3 0xD8 d.toNat a.toNat b.toNat y.code
  | .rsuni d a b y _ => w3 0xD9 d.toNat a.toNat b.toNat y.code
  | .rsint d a b y _ => w3 0xDA d.toNat a.toNat b.toNat y.code
  | .rsfrom d a b y _ => w3 0xDB d.toNat a.toNat b.toNat y.code
  | .rslo d a y _ => w3 0xDC d.toNat a.toNat 0 y.code
  | .rshi d a y _ => w3 0xDD d.toNat a.toNat 0 y.code
  | .rstest r q p a b y _ => w3 0xDE (cmpd r.code q p) a.toNat b.toNat y.code
  | .rspack d a y _ => w3 0xDF d.toNat a.toNat 0 y.code
  | .rsunpk d a y _ => w3 0xDF d.toNat a.toNat 1 y.code
  | .xcopy d a b s _ => w3 0xE0 d.toNat a.toNat b.toNat s.code
  | .xgath d a b p _ => w3 0xE1 d.toNat a.toNat b.toNat p.toNat
  | .xputs d a k _ => w3 0xE2 d.toNat a.toNat 0 k.toNat
  | .xshad d a b => w3 0xE3 d.toNat a.toNat b.toNat 0
  | .xpubb a => w3 0xE4 0 a.toNat 0 0
  | .bra g o => wb 0xF0 g o
  | .brc s p o => wb 0xF1 { en := true, sense := s, pred := p } o
  | .brx a => w3 0xF2 0 a.toNat 0 0
  | .call g o => wb 0xF3 g o
  | .callx a => w3 0xF4 0 a.toNat 0 0
  | .ret => w3 0xF5 0 0 0 0
  | .reform => w3 0xF6 0 0 0 0
  | .yield => w3 0xF7 0 0 0 0
  | .exit => w3 0xF8 0 0 0 0
  | .trap i => wi 0xF9 0 0 i.toNat
  | .eret => w3 0xFA 0 0 0 0
  | .tlbi a b o _ => w3 0xFB 0 a.toNat b.toNat o.code
  | _ => 0

/-- The literal of a DL word (R59). -/
def Instr.lit : Instr → List Word
  | .movDl _ _ l _ | .iaddDl _ _ _ l _ | .imulDl _ _ _ l _ | .andDl _ _ _ l _ | .orDl _ _ _ l _ | .xorDl _ _ _ l _
  | .icmpDl _ _ _ _ _ l _ | .faddDl _ _ _ l _ | .fmulDl _ _ _ l _ | .fminDl _ _ _ l _ | .fmaxDl _ _ _ l _
  | .fcmpDl _ _ _ _ _ l _ => [l]
  | _ => []

/-- The guard bits of a modifier word (R63, R64). -/
def Guard.bits (g : Guard) : Nat := g.en.toNat * 2 ^ 9 + g.sense.toNat * 2 ^ 8 + g.pred.toNat * 2 ^ 5

/-- A modifier word, or none (R62 to R66). -/
def Mods.words : Mods → List Word
  | .none => []
  | .f0 x => [BitVec.ofNat 32 (0xFF * 2 ^ 24 + x.sat.toNat * 2 ^ 20 + x.clamp.toNat * 2 ^ 19 + x.nega.toNat * 2 ^ 18
      + x.absa.toNat * 2 ^ 17 + x.negb.toNat * 2 ^ 16 + x.absb.toNat * 2 ^ 15 + x.scale.toNat * 2 ^ 10 + x.guard.bits)]
  | .f1 x => [BitVec.ofNat 32 (0xFF * 2 ^ 24 + 1 * 2 ^ 21 + x.order.code * 2 ^ 19 + x.scope.code * 2 ^ 16
      + x.hint.code * 2 ^ 14 + x.guard.bits)]
  | .f2 fill => [BitVec.ofNat 32 (0xFF * 2 ^ 24 + 2 * 2 ^ 21 + fill.toNat)]
  | .f3 x => [BitVec.ofNat 32 (0xFF * 2 ^ 24 + 3 * 2 ^ 21
      + (match x.bar with | some n => 16 + n.toNat | Option.none => 0) * 2 ^ 16 + x.task.toNat * 2 ^ 15
      + x.shadow.toNat * 2 ^ 14)]

/-- The words of an instruction: its own, its literal and its modifier word. -/
def encode (i : Instr) : List Word := BitVec.ofNat 32 i.word :: (i.lit ++ i.mods.words)

/-- The word of number `k` of an instruction whose bits are `w`, bit 0 being the least of the first word. -/
def tableWord (w k : Nat) : Word := BitVec.ofNat 32 (w / 2 ^ (32 * k))

/-- The instruction that the decoder reads from bits `w`; every bit above `nbits` is zero. The longest instruction
has three words. -/
def decodeTableWord (nbits w : Nat) : Option Instr :=
  let v := w % 2 ^ nbits
  match decode [tableWord v 0, tableWord v 1, tableWord v 2] with
  | .ok (i, _) => some i
  | .error _ => none

end Sys2Proof
end

