-- ==== Sys2Proof/Machine/Mat.lean ====
section
/-!
DEFINITION. Tiles, macros and accumulator banks (R217 to R241).
-/

namespace Sys2Proof.Machine

/-! ### Tiles (R224, R225) -/

/-- A tile that nothing has touched since reset. -/
def Tile.fresh (id : Nat) : Tile :=
  { id := id, state := .empty, holder := none, fmt := .f32, rows := 0, cols := 0, store := [], queue := [], after := [] }

/-- Tile n of a cluster. -/
def State.tile (s : State) (cl n : Nat) : Tile := ((s.cluster cl).tiles.find? (·.id = n)).getD (Tile.fresh n)

/-- Sets a tile of a cluster. -/
def State.setTile (s : State) (cl : Nat) (t : Tile) : State :=
  s.modCluster cl fun x => { x with tiles := put (·.id) t x.tiles }

/-- Blocks per row. -/
def tileBlocks (cols : Nat) : Nat := (cols + 127) / 128

/-- Bytes of a Q8 or Q4 strip. -/
def stripBytes (f : TileFmt) : Nat := if f = .q4 then 64 else 128

/-- Bytes of a float element. -/
def elemBytes (f : TileFmt) : Nat := if f = .f32 then 4 else 2

/-- Whether a tile format is a float one. -/
def tileFloat (f : TileFmt) : Bool := f != .q8 && f != .q4

/-- Bytes from one row of a float tile to the next. -/
def tileStride (f : TileFmt) (cols : Nat) : Nat := (cols * elemBytes f + 15) / 16 * 16

/-- Bytes of a tile's storage. -/
def tileBytes (f : TileFmt) (rows cols : Nat) : Nat :=
  if tileFloat f then rows * tileStride f cols else rows * tileBlocks cols * (stripBytes f + 1)

/-- A tile as the words of one task see it. -/
structure TileView where
  state : TileState
  fmt : TileFmt
  rows : Nat
  cols : Nat
  store : List Seg
  queued : Bool
  deriving DecidableEq, Repr

/-- The view of a task that holds a tile or has queued for it; a queued tile counts as FILLING (R225). -/
def Tile.view (t : Tile) (team : Nat) : Option TileView :=
  if t.holder = some team then
    some { state := t.state, fmt := t.fmt, rows := t.rows, cols := t.cols, store := t.store, queued := false }
  else (t.queue.find? (·.team = team)).map fun r =>
    { state := .filling, fmt := r.fmt, rows := r.rows, cols := r.cols, store := r.store, queued := true }

/-- Writes parts of a tile's storage for an agent, performed at clus scope (R228). -/
def State.tileWrites (s : State) (ag : Agent) (store : List Seg) (l : List (Nat × List Byte)) : State :=
  l.foldl (fun s w =>
    let x := segSlice store w.1 w.2.length
    (s.dirtySegs x).segStore ag x w.2) s

/-- The count of in-flight matrix words that read, or that write, tile n of a team (R224). -/
def Team.tileCount (tm : Team) (n : Nat) (f : Pending → List Nat) : Nat :=
  (tm.threads.map fun h => (h.pend.filter fun p => (f p).contains n).length).sum

/-- Whether a tile of a team has matrix writers in flight. -/
def Team.writing (tm : Team) (n : Nat) : Bool := tm.tileCount n (·.writes) != 0 || tm.tileCount n (·.drains) != 0

/-- Whether a tile of a team has matrix readers in flight. -/
def Team.reading (tm : Team) (n : Nat) : Bool := tm.tileCount n (·.reads) != 0

/-- Whether the matrix words in flight at a tile let it go on as a word wants (R225, R228). -/
def TileThen.may (x : TileThen) (tm : Team) (n : Nat) : Bool :=
  match x with
  | .keep => true
  | .ready => !tm.writing n
  | .drain => !tm.reading n
  | .free => !tm.writing n && !tm.reading n

/-- A finding of TILESTATE. -/
def tileBad (detail : Nat) : Bad := bad .tilestate detail

/-! ### Macros and banks (R219, R227, R232, R233, R235) -/

/-- A macro that nothing has touched since reset. -/
def Square.fresh (id : Nat) : Square :=
  { id := id, weights := List.replicate 16384 0, scale := 0, tag := 0, tenant := 0, state := .empty, loader := none
    claims := [], lastUse := 0, load := none }

/-- Macro n of a cluster. -/
def State.square (s : State) (cl n : Nat) : Square := ((s.cluster cl).squares.find? (·.id = n)).getD (Square.fresh n)

/-- Sets a macro of a cluster. -/
def State.setSquare (s : State) (cl : Nat) (q : Square) : State :=
  s.modCluster cl fun x => { x with squares := put (·.id) q x.squares }

/-- The victim of R233: the lowest EMPTY unclaimed macro, else the unclaimed RESIDENT one with the oldest use. -/
def State.victimSquare (s : State) (cl : Nat) : Nat :=
  match (List.range 512).find? fun n => (s.square cl n).state == .empty && (s.square cl n).claims.isEmpty with
  | some n => n
  | none =>
      let l := ((List.range 512).map (s.square cl)).filter fun q => q.state == .resident && q.claims.isEmpty
      ((l.foldl (fun (m : Option Square) q => match m with
        | none => some q
        | some x => if q.lastUse < x.lastUse then some q else some x) none).map (·.id)).getD 0

/-- What MRES answers. -/
inductive ResAnswer where
  | given (square : Nat) (hit : Bool)
  | tooMany
  | waits (square : Nat)
  deriving DecidableEq, Repr

/-- A team claims a macro for MRES. -/
def State.claimSquare (s : State) (cl team n : Nat) : State × ResAnswer :=
  let q := s.square cl n
  (s.setSquare cl { q with claims := team :: q.claims }, .given n true)

/-- A miss of MRES: the victim is taken for the tag (R233). -/
def State.takeSquare (s : State) (cl team tenant : Nat) (tag : Word) : State × ResAnswer :=
  let n := s.victimSquare cl
  (s.setSquare cl { s.square cl n with tag := tag, tenant := tenant, state := .loading, loader := some team
                                       claims := [team], load := none }, .given n false)

/-- MRES for a team and a tag (R233). Where several macros of the tenant carry the tag, "some macro M" is the first of them in the
cluster's list of macros: the model's choice (log 120). -/
def State.reserve (s : State) (cl team tenant : Nat) (tag : Word) : State × ResAnswer :=
  let l := (s.cluster cl).squares
  let own := l.filter fun q => q.claims.contains team
  match if tag = 0 then none else own.find? (·.tag = tag) with
  | some q => (s, .given q.id (q.state == .resident))
  | none =>
      if 32 ≤ own.length then (s, .tooMany)
      else
        let same := fun (st : SquareState) => if tag = 0 then none else
          l.find? fun q => q.tag == tag && q.tenant == tenant && q.state == st
        match same .resident, same .loading with
        | some q, _ => s.claimSquare cl team q.id
        | none, some q => (s, .waits q.id)
        | none, none => s.takeSquare cl team tenant tag

/-- The result of an MRES. -/
def resOut (d : Code) (pd : P3) (n : Nat) (hit : Bool) : Out :=
  { regs := [(d.toNat, BitVec.ofNat 64 n)], preds := [(pd.toNat, hit)], flags := 0 }

/-- A bank that nothing has touched since reset. -/
def Bank.fresh (id : Nat) : Bank := { id := id, rows := [], exp := 0, holder := none }

/-- Bank n of a cluster. -/
def State.bank (s : State) (cl n : Nat) : Bank := ((s.cluster cl).banks.find? (·.id = n)).getD (Bank.fresh n)

/-- Sets a bank of a cluster. -/
def State.setBank (s : State) (cl : Nat) (b : Bank) : State :=
  s.modCluster cl fun x => { x with banks := put (·.id) b x.banks }

/-- Whether a thread has a matrix word on a bank in flight, or behind the grant of a tile (R235). -/
def Thread.onBank (th : Thread) (n : Nat) : Bool := th.pend.any fun p => p.bank == some n

/-- A stream that is blocked in MCLR or MRES tries again. MRES has waited for one macro: once it is RESIDENT, the stream claims it,
whatever its tag is now; once it has become EMPTY, the stream goes on as a miss (R233). `was` is what that macro is before any
stream that waits with this one has gone on. -/
def State.retryMat (s : State) (cl team tid : Nat) (was : SquareState) : State :=
  match s.team? team, s.thread? team tid with
  | some tm, some th =>
      match th.status with
      | .blocked b =>
          match b.wait with
          | .mclr n e =>
              let k := s.bank cl n
              if k.holder = none ∨ (k.holder = some team ∧ !th.onBank n) then
                (s.setBank cl { k with rows := [], exp := e, holder := some team }).unblock team tid Out.none
              else s
          | .mres d tag pd n =>
              match (match was with
                | .loading => (s, ResAnswer.waits n)
                | .resident => s.claimSquare cl team n
                | .empty => s.takeSquare cl team (ownerId tm.task.owner) tag) with
              | (s, .given n hit) => s.unblock team tid (resOut d pd n hit)
              | (s, _) => s
          | _ => s
      | _ => s
  | _, _ => s

/-- Inserts a blocked word in order of arrival. -/
def byOrder {α : Type} (x : Nat × α) : List (Nat × α) → List (Nat × α)
  | [] => [x]
  | y :: l => if x.1 ≤ y.1 then x :: y :: l else y :: byOrder x l

/-- The macro for which a blocked MRES waits. -/
def Wait.square : Wait → Option Nat
  | .mres _ _ _ n => some n
  | _ => none

/-- The blocked streams of a cluster try again, in order of arrival (R227). -/
def State.wakeMat (s : State) (cl : Nat) : State :=
  let l := s.teams.flatMap fun t =>
    if t.state != .run || clusOf t.core != cl then []
    else t.threads.filterMap fun h => match h.status with
      | .blocked b => some (b.order, t.id, h.tid, ((b.wait.square).map fun n => (s.square cl n).state).getD .empty)
      | _ => none
  (l.foldl (fun l x => byOrder x l) []).foldl (fun s x => s.retryMat cl x.2.1 x.2.2.1 x.2.2.2) s

/-! ### Grants (R225, R229) -/

/-- A tile returns to EMPTY and is granted to the first queued request, whose waiting words are then performed; words that waited
at it for its last holder have nothing left to wait for (R225). -/
def State.emptyTile (cl n : Nat) : Nat → State → State
  | 0, s => s
  | fuel + 1, s =>
      let t := s.tile cl n
      let s := t.after.foldl (fun s op => s.endJob op.job) s
      match t.queue with
      | [] => s.setTile cl (Tile.fresh n)
      | r :: rest =>
          let s := s.setTile cl { t with state := .filling, holder := some r.team, fmt := r.fmt, rows := r.rows, cols := r.cols
                                         store := r.store, queue := rest, after := [] }
          r.after.foldl (fun s op =>
            match s.team? op.team with
            | some tm =>
                let ag := tm.agent op.tid
                let s := s.tileWrites ag r.store op.writes
                let held := (s.tile cl n).holder == some op.team
                let s := match op.next with
                  | .keep => s
                  | .drain => if held then s.setTile cl { s.tile cl n with state := .filling } else s
                  | .ready =>
                      let s := s.release ag .clus none
                      if held then s.setTile cl { s.tile cl n with state := .ready } else s
                  | .free => if held then State.emptyTile cl n fuel s else s
                s.endJob op.job
            | none => s) (s.endJob r.job)

/-- Frees a tile; the words that are performed with its grants may let a CARVE of their teams, or an MCLR that has waited for one of
them, take effect (R110, R235). -/
def State.freeTile (s : State) (cl n : Nat) : State :=
  let q := (s.tile cl n).queue
  let s := ((q.takeWhile fun r => !r.after.isEmpty).map (·.team)).foldl State.checkCarve (State.emptyTile cl n (q.length + 1) s)
  if q.any fun r => !r.after.isEmpty then s.wakeMat cl else s

/-- Queues a word behind the grant of a tile that its team has queued for. -/
def State.afterGrant (s : State) (cl n : Nat) (op : TileOp) : State :=
  let t := s.tile cl n
  s.setTile cl { t with queue := t.queue.map fun (r : TileReq) => if r.team = op.team then { r with after := r.after ++ [op] } else r }

/-- Queues a word behind the matrix words in flight at a tile. -/
def State.afterFlight (s : State) (cl n : Nat) (op : TileOp) : State :=
  let t := s.tile cl n
  s.setTile cl { t with after := t.after ++ [op] }

/-- Tile n of a team goes on as a word wants (R225, R228). -/
def State.turnTile (s : State) (cl n : Nat) (ag : Agent) : TileThen → State
  | .keep => s
  | .ready => (s.release ag .clus none).setTile cl { s.tile cl n with state := .ready }
  | .drain => s.setTile cl { s.tile cl n with state := .filling }
  | .free => s.freeTile cl n

/-- Puts a word in flight that counts on WT, with the tiles that it reads and writes and the bank it acts on. -/
def State.matResults (s : State) (g : Group) (tid : Nat) (flags : BitVec 6) (reads writes drains : List Nat) (bank hold : Option Nat) :
    State :=
  s.modThread g.team tid fun th =>
    th.launch { ack .wt with flags := flags, hold := hold, reads := reads, writes := writes, drains := drains, bank := bank }

/-- Performs an accepted TREADY, TDRAIN or TFREE of tile n of a team: at once, after the grant, or when the matrix words in
flight that it waits for are done; it counts on WT until then. -/
def State.tileTurn (s : State) (g : Group) (tid cl n : Nat) (tm : Team) (v : TileView) (next : TileThen) : State :=
  let (j, s') := s.newId
  let op : TileOp := { team := tm.id, tid := tid, writes := [], next := next, job := j }
  if v.queued then (s'.afterGrant cl n op).matResults g tid 0 [] [] [] none (some j)
  else if next.may tm n && (s.tile cl n).after.isEmpty then (s.turnTile cl n (tm.agent tid) next).matResults g tid 0 [] [] [] none none
  else
    let s := if next = .drain then s'.setTile cl { s.tile cl n with state := .draining } else s'
    (s.afterFlight cl n op).matResults g tid 0 [] [] [] none (some j)

/-- Performs an accepted matrix word that writes tile n of a team and reads some tiles, at once or after the grant; it counts on
WT with its flags. One that acts on a bank is an MDRAIN, which makes the tile READY at its completion. -/
def State.tileWord (s : State) (g : Group) (tid cl n : Nat) (tm : Team) (v : TileView) (writes : List (Nat × List Byte))
    (reads : List Nat) (bank : Option Nat) (flags : BitVec 6) : State :=
  if v.queued then
    let (j, s) := s.newId
    let op : TileOp := { team := tm.id, tid := tid, writes := writes, next := if bank.isSome then .ready else .keep, job := j }
    (s.afterGrant cl n op).matResults g tid flags reads [] [] bank (some j)
  else
    let s := s.tileWrites (tm.agent tid) v.store writes
    if bank.isSome then s.matResults g tid flags reads [] [n] bank none else s.matResults g tid flags reads [n] [] none none

/-- The words that wait at a tile are performed in order, as far as the matrix words in flight let them (R225). -/
def State.flightDone (cl n : Nat) : Nat → State → State
  | 0, s => s
  | fuel + 1, s =>
      match (s.tile cl n).after with
      | [] => s
      | op :: rest =>
          match s.team? op.team with
          | some tm =>
              if op.next.may tm n then
                State.flightDone cl n fuel
                  (((s.setTile cl { s.tile cl n with after := rest }).turnTile cl n (tm.agent op.tid) op.next).endJob op.job)
              else s
          | none => s

/-- The tiles of a cluster go on where the matrix words that they wait for are done. -/
def State.settleTiles (s : State) (cl : Nat) : State :=
  (((s.cluster cl).tiles.filter fun t => !t.after.isEmpty).map (·.id)).foldl
    (fun s n => State.flightDone cl n (s.tile cl n).after.length s) s

/-- Whether a word in flight may return: an MDRAIN, which makes its tile READY, waits for the tile's other writers (R225, R228). -/
def Pending.mayReturn (tm : Team) (p : Pending) : Bool := p.hold.isNone && p.drains.all fun n => tm.tileCount n (·.writes) == 0

/-- An MDRAIN has returned: its tile is READY, and its stream has released (R228). -/
def State.drained (s : State) (team tid : Nat) (p : Pending) : State :=
  match s.team? team with
  | some tm => p.drains.foldl (fun s n => s.turnTile (clusOf tm.core) n (tm.agent tid) .ready) s
  | none => s

/-! ### Tile words (R229 to R231) -/

/-- Whether a segment of tile storage lies where R224 allows: a scratchpad that the agent may name, or this module's
memory. -/
def State.tilePlace (s : State) (x : Seg) : Bool :=
  match x.loc with
  | .scr _ _ => true
  | l => s.isLocal (s.paOf l)

/-- TALLOC in one thread. -/
def State.tallocOne (t a b : Code) (f : TileFmt) (s : State) (g : Group) (tid : Nat) : State :=
  s.withThread g tid fun tm th e =>
    let w := (e.rd32 th b 2).toNat
    let rows := w % 65536
    let cols := if w / 65536 = 0 then 128 else w / 65536
    let va := (e.addr th a).toNat
    if rows = 0 ∨ 128 < rows ∨ 4096 < cols then s.trap g tid (tileBad 1)
    else match misaligned va 16 true with
      | some x => s.trap g tid x
      | none =>
          match s.range (tm.agent tid) va (tileBytes f rows cols) .claim with
          | (s, .error x) => s.trap g tid x
          | (s, .ok (segs, _)) =>
              let cl := clusOf tm.core
              let t := s.tile cl t.toNat
              if !segs.all s.tilePlace then s.trap g tid (tileBad 7)
              else if (t.view tm.id).isSome then s.trap g tid (tileBad 4)
              else if t.state = .empty then
                (s.setTile cl { t with state := .filling, holder := some tm.id, fmt := f, rows := rows, cols := cols, store := segs }).results
                  g tid .wt Out.none none
              else
                let (j, s) := s.newId
                let r : TileReq := { team := tm.id, fmt := f, rows := rows, cols := cols, store := segs, job := j, after := [] }
                (s.setTile cl { t with queue := t.queue ++ [r] }).results g tid .wt Out.none (some j)

/-- Meaning of TALLOC. -/
def execTalloc (t a b : Code) (f : TileFmt) (m : Mods) (s : State) : Host.Outcome State Fault Refusal :=
  .next (eachLane m (State.tallocOne t a b f) s)

/-- TREADY in one thread. -/
def State.treadyOne (t : Code) (s : State) (g : Group) (tid : Nat) : State :=
  s.withThread g tid fun tm _ _ =>
    let cl := clusOf tm.core
    match (s.tile cl t.toNat).view tm.id with
    | none => s.trap g tid (tileBad 2)
    | some v => if v.state = .filling then s.tileTurn g tid cl t.toNat tm v .ready else s.trap g tid (tileBad 3)

/-- Meaning of TREADY. -/
def execTready (t : Code) (m : Mods) (s : State) : Host.Outcome State Fault Refusal :=
  .next (eachLane m (State.treadyOne t) s)

/-- TDRAIN in one thread: a READY tile is DRAINING until its readers in flight are done, then FILLING again. -/
def State.tdrainOne (t : Code) (s : State) (g : Group) (tid : Nat) : State :=
  s.withThread g tid fun tm _ _ =>
    let cl := clusOf tm.core
    match (s.tile cl t.toNat).view tm.id with
    | none => s.trap g tid (tileBad 2)
    | some v => if v.state = .ready then s.tileTurn g tid cl t.toNat tm v .drain else s.trap g tid (tileBad 3)

/-- Meaning of TDRAIN. -/
def execTdrain (t : Code) (m : Mods) (s : State) : Host.Outcome State Fault Refusal :=
  .next (eachLane m (State.tdrainOne t) s)

/-- TFREE in one thread. -/
def State.tfreeOne (t : Code) (s : State) (g : Group) (tid : Nat) : State :=
  s.withThread g tid fun tm _ _ =>
    let cl := clusOf tm.core
    match (s.tile cl t.toNat).view tm.id with
    | none => s.trap g tid (tileBad 2)
    | some v => s.tileTurn g tid cl t.toNat tm v .free

/-- Meaning of TFREE. -/
def execTfree (t : Code) (m : Mods) (s : State) : Host.Outcome State Fault Refusal :=
  .next (eachLane m (State.tfreeOne t) s)

/-- Code of a tile state (R231). -/
def tileStateCode : TileState → Nat
  | .empty => 0 | .filling => 1 | .ready => 2 | .draining => 3

/-- The TSTAT word. For a tile that the task has queued for and another holds, R231 does not say whose shape shows: STATE is that of the
tile as its holder has it, FMT, COLS and ROWS are those of the queued request (log 118). -/
def Tile.stat (t : Tile) (team : Nat) : Word :=
  let mine := match t.view team with
    | some v => 2 ^ 29 + v.fmt.code * 2 ^ 26 + v.cols * 2 ^ 13 + v.rows * 2 ^ 5
    | none => 0
  BitVec.ofNat 32 (tileStateCode t.state * 2 ^ 30 + mine + (!t.queue.isEmpty).toNat * 2 ^ 4)

/-- TSTAT in one thread. -/
def State.tstatOne (d t : Code) (s : State) (g : Group) (tid : Nat) : State :=
  s.withThread g tid fun tm th e =>
    s.results g tid .wt (Out.reg (th.dstFree (choiceAt e.step tid 9) d ((s.tile (clusOf tm.core) t.toNat).stat tm.id))) none

/-- Meaning of TSTAT. -/
def execTstat (d t : Code) (m : Mods) (s : State) : Host.Outcome State Fault Refusal :=
  .next (eachLane m (State.tstatOne d t) s)

/-! ### MRES (R233) -/

/-- MRES in the stream. -/
def State.mresOne (d a : Code) (pd : P3) (s : State) (g : Group) (tid : Nat) : State :=
  s.withThread g tid fun tm th e =>
    let tag := e.rd32 th a 0
    match s.reserve (clusOf tm.core) tm.id (ownerId tm.task.owner) tag with
    | (s, .given n hit) => s.results g tid .wt (resOut d pd n hit) none
    | (s, .tooMany) => s.trap g tid (tileBad 11)
    | (s, .waits n) => s.block g tid (.mres d tag pd n)

/-- Meaning of MRES. -/
def execMres (d a : Code) (pd : P3) (m : Mods) (s : State) : Host.Outcome State Fault Refusal :=
  .next (eachLane m (State.mresOne d a pd) s)

/-! ### Banks (R219, R235) -/

/-- Element (r, c) of a bank. -/
def Bank.at (b : Bank) (r c : Nat) : Int := (b.rows.getD r []).getD c 0

/-- MCLR in the stream: it clears the bank, or blocks while another task holds it or a bank word of its own is not done. -/
def State.mclrOne (bank : P3) (x : BitVec 10) (s : State) (g : Group) (tid : Nat) : State :=
  s.withThread g tid fun tm th _ =>
    let cl := clusOf tm.core
    let b := s.bank cl bank.toNat
    if b.holder = none ∨ (b.holder = some tm.id ∧ !th.onBank bank.toNat) then
      (s.setBank cl { b with rows := [], exp := x.toInt, holder := some tm.id }).results g tid .wt Out.none none
    else s.block g tid (.mclr bank.toNat x.toInt)

/-- Meaning of MCLR. -/
def execMclr (bank : P3) (e : BitVec 10) (m : Mods) (s : State) : Host.Outcome State Fault Refusal :=
  .next (eachLane m (State.mclrOne bank e) s)

/-! ### Loading a macro (R234) -/

/-- A macro whose load is complete is RESIDENT, and words that wait for it go on. The cycle of its last MLOAD (R232) is the one in which
the load completes: the model's choice (log 119). -/
def State.completeLoad (s : State) (cl n : Nat) : State :=
  let q := s.square cl n
  match q.load with
  | some l =>
      let s := s.setSquare cl { q with weights := l.image, scale := l.scale, tag := l.tag, state := .resident, loader := none
                                       lastUse := s.clock, load := none }
      (s.endJob l.job).wakeMat cl
  | none => s

/-- Meaning of MACRO_LOAD_COMPLETE. -/
def execMacroLoadComplete (cluster mac : Nat) (s : State) : Host.Outcome State Fault Refusal := .next (s.completeLoad cluster mac)

/-- MLOAD in the stream. -/
def State.mloadOne (d a : Code) (sc tg : BitVec 5) (s : State) (g : Group) (tid : Nat) : State :=
  s.withThread g tid fun tm th e =>
    let n := (e.reg th d.toNat 8).toNat
    let scale : Byte := (e.reg th sc.toNat 9).setWidth 8
    let tag : Word := (e.reg th tg.toNat 10).setWidth 32
    let cl := clusOf tm.core
    let q := s.square cl n
    if !(n < 512 && ((q.state == .loading && q.loader == some tm.id) || (q.state == .resident && q.claims == [tm.id]))) then
      s.trap g tid (tileBad 8)
    else if scale = 0xFF then s.trap g tid (bad .mscale 3)
    else
      match s.readStruct (tm.agent tid) (e.addr th a).toNat 16384 256 with
      | (s, .error x) => s.trap g tid x
      | (s, .ok image) =>
          let s := s.completeLoad cl n
          let (j, s) := s.newId
          (s.setSquare cl { s.square cl n with state := .loading, loader := some tm.id
                                               load := some { image := image, scale := scale, tag := tag, job := j } }).results
            g tid .wt Out.none (some j)

/-- Meaning of MLOAD. -/
def execMload (d a : Code) (sc tg : BitVec 5) (m : Mods) (s : State) : Host.Outcome State Fault Refusal :=
  .next (eachLane m (State.mloadOne d a sc tg) s)

/-! ### Firing (R236) -/

/-- Element k of a Q8 or Q4 strip. -/
def stripElem (f : TileFmt) (strip : List Byte) (k : Nat) : Int :=
  if f = .q4 then sext 4 ((strip.getD (k / 2) 0).toNat / 16 ^ (k % 2) % 16) else (strip.getD k 0).toInt

/-- The sums over k of q(k) · w′(k, c), from input row k onwards. -/
def macSums : List Int → List Byte → List Int → List Int
  | [], _, acc => acc
  | q :: l, w, acc =>
      macSums l (w.drop 128) (if q = 0 then acc else List.zipWith (fun (a : Int) (b : Byte) => a + q * pp8Int b.toNat) acc (w.take 128))

/-- P · 2^s as an integer, and NX. -/
def scaleSum (p s : Int) : Int × BitVec 6 :=
  if 0 ≤ s then (p * (2 ^ s.toNat : Nat), 0)
  else
    let (k, inexact) := roundInt .rne (p < 0) p.natAbs (2 ^ (-s).toNat)
    (if p < 0 then -(k : Int) else k, flIf inexact flNX)

/-- One K-block accumulated into a row of the bank. -/
def accumulate (row : List Int) (sums : List Int) (s : Int) : List Int × BitVec 6 :=
  let l := List.zipWith (fun (b p : Int) =>
    let v := scaleSum p s
    let r := sat 40 (b + v.1)
    (r.1, v.2 ||| r.2)) row sums
  (l.map (·.1), l.foldl (fun f x => f ||| x.2) 0)

/-- The tile of an MFIRE as read at acceptance: strip (r, j) and its scale. -/
def tileStrip (f : TileFmt) (cols : Nat) (data : List Byte) (r j : Nat) : List Byte :=
  (data.drop ((r * tileBlocks cols + j) * stripBytes f)).take (stripBytes f)

/-- The scale bytes of a Q8 or Q4 tile. -/
def tileScales (f : TileFmt) (rows cols : Nat) (data : List Byte) : List Byte := data.drop (rows * tileBlocks cols * stripBytes f)

/-- The K-blocks of one row run through their macros in ascending order. -/
def fireRow (f : TileFmt) (cols exp : Int) (row : List Int) (blocks : List (List Byte × Byte × Square)) (j : Nat) :
    List Int × BitVec 6 :=
  match blocks with
  | [] => (row, 0)
  | (strip, sa, q) :: rest =>
      let n := min 128 (cols.toNat - 128 * j)
      let sums := macSums ((List.range n).map (stripElem f strip)) q.weights (List.replicate 128 0)
      let (row, fl) := accumulate row sums ((sa.toNat : Int) + q.scale.toNat - 261 - exp)
      let (row, fl') := fireRow f cols exp row rest (j + 1)
      (row, fl ||| fl')

/-- A bank after the strips of a tile have run through macros. -/
def Bank.fire (b : Bank) (v : TileView) (data : List Byte) (qs : List Square) : Bank × BitVec 6 :=
  let n := tileBlocks v.cols
  let scales := tileScales v.fmt v.rows v.cols data
  let l := (List.range v.rows).map fun r =>
    fireRow v.fmt v.cols b.exp ((List.range 128).map (b.at r))
      (qs.zipIdx.map fun y => (tileStrip v.fmt v.cols data r y.2, scales.getD (r * n + y.2) 0, y.1)) 0
  ({ b with rows := l.map (·.1) ++ b.rows.drop v.rows }, l.foldl (fun f x => f ||| x.2) 0)

/-- Whether a macro may serve a fire of a stream. -/
def Square.usable (q : Square) (team : Nat) : Bool :=
  q.claims.contains team && (q.state == .resident || (q.state == .loading && q.loader == some team && q.load.isSome))

/-- MFIRE in the stream. -/
def State.mfireOne (d t : Code) (bank : P3) (cnt : BitVec 6) (s : State) (g : Group) (tid : Nat) : State :=
  s.withThread g tid fun tm th e =>
    let cl := clusOf tm.core
    let ns := (List.range cnt.toNat).map fun j => (e.reg th (d.toNat + j) (8 + j)).toNat
    match (s.tile cl t.toNat).view tm.id with
    | none => s.trap g tid (tileBad 2)
    | some v =>
        if v.state ≠ .ready then s.trap g tid (tileBad 3)
        else if tileFloat v.fmt then s.trap g tid (tileBad 5)
        else if (s.bank cl bank.toNat).holder ≠ some tm.id then s.trap g tid (tileBad 9)
        else if !ns.all fun n => n < 512 && (s.square cl n).usable tm.id then s.trap g tid (tileBad 8)
        else if cnt.toNat ≠ tileBlocks v.cols then s.trap g tid (bad .mscale 1)
        else
          let data := s.segRead v.store
          if (tileScales v.fmt v.rows v.cols data).contains 0xFF then s.trap g tid (bad .mscale 2)
          else
            let s := ns.foldl (fun s n => s.completeLoad cl n) s
            let (b, fl) := (s.bank cl bank.toNat).fire v data (ns.map (s.square cl))
            let s := ns.foldl (fun s n => s.setSquare cl { s.square cl n with lastUse := s.clock }) (s.setBank cl b)
            s.matResults g tid fl [t.toNat] [] [] (some bank.toNat) none

/-- Meaning of MFIRE. -/
def execMfire (d t : Code) (bank : P3) (cnt : BitVec 6) (m : Mods) (s : State) : Host.Outcome State Fault Refusal :=
  .next (eachLane m (State.mfireOne d t bank cnt) s)

/-! ### Draining, rotating, quantising (R237 to R239) -/

/-- The binary format of a float tile. -/
def tileFmt : TileFmt → Fmt
  | .f16 => fmtF16
  | .bf16 => fmtBf16
  | _ => fmtF32

/-- The FCVT format of a float tile. -/
def tileCvt : TileFmt → FFmt
  | .f16 => .f16
  | .bf16 => .bf16
  | _ => .f32

/-- The tile format of an MDRAIN. -/
def drainFmt : DrainFmt → TileFmt
  | .f32 => .f32 | .f16 => .f16 | .bf16 => .bf16

/-- Elements of a row of a float tile. -/
def State.tileRow (s : State) (v : TileView) (r : Nat) : List Nat :=
  let n := elemBytes v.fmt
  let b := s.segRead (segSlice v.store (r * tileStride v.fmt v.cols) (v.cols * n))
  (List.range v.cols).map fun c => leNat ((b.drop (c * n)).take n)

/-- Row r of a float tile as a write into its storage. -/
def rowWrite (v : TileView) (r : Nat) (l : List Nat) : Nat × List Byte :=
  (r * tileStride v.fmt v.cols, l.flatMap (bytesLE (elemBytes v.fmt)))

/-- MDRAIN in the stream. -/
def State.mdrainOne (d : Code) (bank : P3) (f : DrainFmt) (s : State) (g : Group) (tid : Nat) : State :=
  s.withThread g tid fun tm _ _ =>
    let cl := clusOf tm.core
    match (s.tile cl d.toNat).view tm.id with
    | none => s.trap g tid (tileBad 2)
    | some v =>
        let b := s.bank cl bank.toNat
        if v.state ≠ .filling then s.trap g tid (tileBad 3)
        else if v.fmt ≠ drainFmt f then s.trap g tid (tileBad 5)
        else if v.cols ≠ 128 then s.trap g tid (tileBad 6)
        else if b.holder ≠ some tm.id then s.trap g tid (tileBad 9)
        else
          let l := (List.range v.rows).map fun r => (List.range 128).map fun c =>
            (tileFmt v.fmt).round .rne false (b.at r c < 0) (b.at r c).natAbs b.exp
          let fl := l.foldl (fun f row => row.foldl (fun f x => f ||| x.2) f) 0
          s.tileWord g tid cl d.toNat tm v (l.zipIdx.map fun y => rowWrite v y.2 (y.1.map (·.1))) [] (some bank.toNat) fl

/-- Meaning of MDRAIN. -/
def execMdrain (d : Code) (bank : P3) (f : DrainFmt) (m : Mods) (s : State) : Host.Outcome State Fault Refusal :=
  .next (eachLane m (State.mdrainOne d bank f) s)

/-- One stage of MHAD on a block, with distance h. -/
def hadStage (h : Nat) (y : List Nat) : List Nat × BitVec 6 :=
  let l := (List.range y.length).map fun i =>
    if i / h % 2 = 0 then fmtF32.add FOp.rne (y.getD i 0) (y.getD (i + h) 0)
    else fmtF32.sub FOp.rne (y.getD (i - h) 0) (y.getD i 0)
  (l.map (·.1), l.foldl (fun f x => f ||| x.2) 0)

/-- The stages of MHAD on a block of P elements. -/
def hadStages : Nat → Nat → List Nat → List Nat × BitVec 6
  | 0, _, y => (y, 0)
  | n + 1, h, y =>
      let (y, fl) := hadStage h y
      let (y, fl') := hadStages n (2 * h) y
      (y, fl ||| fl')

/-- Stages of a block size. -/
def hadCount : HadSize → Nat
  | .h16 => 4 | .h32 => 5 | .h64 => 6

/-- A list cut in pieces of n. -/
def pieces (n : Nat) : Nat → List Nat → List (List Nat)
  | 0, _ => []
  | k + 1, l => l.take n :: pieces n k (l.drop n)

/-- Conversion of a row, with flags; f32 to f32 changes nothing. -/
def convertRow (d s : TileFmt) (l : List Nat) : List Nat × BitVec 6 :=
  if tileCvt d = tileCvt s then (l, 0)
  else
    let r := l.map (convert (tileCvt d) (tileCvt s) FOp.rne false false)
    (r.map (·.1), r.foldl (fun f x => f ||| x.2) 0)

/-- A row rotated by MHAD. -/
def hadRow (p : HadSize) (d s : TileFmt) (l : List Nat) : List Nat × BitVec 6 :=
  let (y, f1) := convertRow .f32 s l
  let n := 2 ^ hadCount p
  let bs := (pieces n (l.length / n) y).map (hadStages (hadCount p) 1)
  let (o, f3) := convertRow d .f32 (bs.flatMap (·.1))
  (o, bs.foldl (fun f x => f ||| x.2) (f1 ||| f3))

/-- MHAD in one thread. -/
def State.mhadOne (d t : Code) (p : HadSize) (s : State) (g : Group) (tid : Nat) : State :=
  s.withThread g tid fun tm _ _ =>
    let cl := clusOf tm.core
    match (s.tile cl d.toNat).view tm.id, (s.tile cl t.toNat).view tm.id with
    | some vd, some vs =>
        if vs.state ≠ .ready ∨ vd.state ≠ .filling then s.trap g tid (tileBad 3)
        else if !(tileFloat vs.fmt && tileFloat vd.fmt) then s.trap g tid (tileBad 5)
        else if vs.rows ≠ vd.rows ∨ vs.cols ≠ vd.cols ∨ vs.cols % 2 ^ hadCount p ≠ 0 then s.trap g tid (tileBad 6)
        else
          let l := (List.range vs.rows).map fun r => hadRow p vd.fmt vs.fmt (s.tileRow vs r)
          s.tileWord g tid cl d.toNat tm vd (l.zipIdx.map fun y => rowWrite vd y.2 y.1.1) [t.toNat] none (l.foldl (fun f x => f ||| x.2) 0)
    | _, _ => s.trap g tid (tileBad 2)

/-- Meaning of MHAD. -/
def execMhad (d t : Code) (p : HadSize) (m : Mods) (s : State) : Host.Outcome State Fault Refusal :=
  .next (eachLane m (State.mhadOne d t p) s)

/-- Whether m · 2^e is at most n. -/
def atMost (m : Nat) (e : Int) (n : Nat) : Bool := m * 2 ^ e.toNat ≤ n * 2 ^ (-e).toNat

/-- One element quantised under scale s, with limit n (R239). -/
def quantOne (n s : Nat) : Num → Int × BitVec 6
  | .nan .. => (0, flNV)
  | .inf neg => (if neg then -(n : Int) else n, flSAT)
  | .fin neg m e =>
      let k := roundAt .rne neg m (e + 127 - s) 0
      let sg := fun (x : Nat) => if neg then -(x : Int) else (x : Int)
      if n < k.1 then (sg n, flSAT ||| flNX) else (sg k.1, flIf k.2 flNX)

/-- The scale of a block (R239): the smallest under which its largest finite magnitude is at most n. -/
def quantScale (n : Nat) (xs : List Num) : Nat :=
  ((List.range 255).find? fun (s : Nat) => xs.all fun x => match x with
    | .fin _ m e => atMost m (e + 127 - (s : Int)) n
    | _ => true).getD 254

/-- A strip's bytes. -/
def stripOf (q4 : Bool) (l : List Int) : List Byte :=
  if q4 then (List.range 64).map fun i => BitVec.ofNat 8 (wrap 4 (l.getD (2 * i) 0) + 16 * wrap 4 (l.getD (2 * i + 1) 0))
  else (List.range 128).map fun i => BitVec.ofNat 8 (wrap 8 (l.getD i 0))

/-- MQNT of one row into row r: the writes and the flags. -/
def quantRow (q4 : Bool) (v : TileView) (r : Nat) (f : TileFmt) (l : List Nat) : List (Nat × List Byte) × BitVec 6 :=
  let n := tileBlocks v.cols
  let lim := if q4 then 7 else 127
  let bs := (pieces 128 n l).map fun b =>
    let xs := b.map (tileFmt f).unpack
    let sc := quantScale lim xs
    let q := xs.map (quantOne lim sc)
    (stripOf q4 (q.map (·.1)), sc, q.foldl (fun f x => f ||| x.2) (0 : BitVec 6))
  (bs.zipIdx.flatMap fun y =>
    [((r * n + y.2) * stripBytes v.fmt, y.1.1), (v.rows * n * stripBytes v.fmt + r * n + y.2, bytesLE 1 y.1.2.1)],
   bs.foldl (fun f x => f ||| x.2.2) 0)

/-- MQNT in one thread. -/
def State.mqntOne (d t b : Code) (q4 : Bool) (s : State) (g : Group) (tid : Nat) : State :=
  s.withThread g tid fun tm th e =>
    let cl := clusOf tm.core
    let r := (e.rd32 th b 2).toNat
    let r' := (e.rdAt th b 1 3).toNat
    match (s.tile cl d.toNat).view tm.id, (s.tile cl t.toNat).view tm.id with
    | some vd, some vs =>
        if vs.state ≠ .ready ∨ vd.state ≠ .filling then s.trap g tid (tileBad 3)
        else if !tileFloat vs.fmt ∨ vd.fmt ≠ (if q4 then TileFmt.q4 else TileFmt.q8) then s.trap g tid (tileBad 5)
        else if vs.cols ≠ vd.cols then s.trap g tid (tileBad 6)
        else if vd.rows ≤ r ∨ vs.rows ≤ r' then s.trap g tid (tileBad 10)
        else
          let (ws, fl) := quantRow q4 vd r vs.fmt (s.tileRow vs r')
          s.tileWord g tid cl d.toNat tm vd ws [t.toNat] none fl
    | _, _ => s.trap g tid (tileBad 2)

/-- Meaning of MQNT. -/
def execMqnt (d t r : Code) (q4 : Bool) (m : Mods) (s : State) : Host.Outcome State Fault Refusal :=
  .next (eachLane m (State.mqntOne d t r q4) s)

/-! ### Task completion (R240) -/

/-- Whether a task still has a MAT word that has not finished: one in flight, a queued TALLOC, a word that waits at a tile, or a load
that has not completed. -/
def State.matBusy (s : State) (tm : Team) : Bool :=
  let c := s.cluster (clusOf tm.core)
  (tm.threads.any fun h => h.pend.any (·.ctr == .wt)) ||
  c.tiles.any (fun t => (t.queue.any fun r => r.team == tm.id) || t.after.any fun x => x.team == tm.id) || c.squares.any fun q => q.loader == some tm.id && q.load.isSome

/-- Frees what a task holds of its cluster's matrix unit. -/
def State.freeMat (s : State) (tm : Team) : State :=
  let cl := clusOf tm.core
  let s := s.modCluster cl fun c => { c with
    tiles := c.tiles.map fun t => { t with queue := t.queue.filter (·.team ≠ tm.id) }
    banks := c.banks.map fun b => if b.holder = some tm.id then { b with holder := none } else b
    squares := c.squares.map fun (q : Square) =>
      let q := { q with claims := q.claims.filter (· ≠ tm.id) }
      if q.state = .loading ∧ q.loader = some tm.id then { q with state := .empty, tag := 0, loader := none, load := none } else q }
  let s := (((s.cluster cl).tiles.filter fun t => t.holder = some tm.id).map (·.id)).foldl (fun s n => s.freeTile cl n) s
  s.wakeMat cl

end Sys2Proof.Machine
end

