-- ==== Sys2Proof/Machine/Issue.lean ====
section
/-!
DEFINITION. Issue (R39 to R41, R51 to R55, R223): drawing a group, fetching and checking its clause, moving past a
word, the end of a clause, and a word in flight that returns.
-/

namespace Sys2Proof.Machine

/-- The counter a word counts on (R54). -/
def ctrOf (i : Instr) : Option Ctr :=
  match i with
  | .ld .. | .ldc .. => some .wl
  | .st .. | .stsb .. | .atom .. | .acas .. | .ared .. | .fence .. | .tlbi .. => some .ws
  | .frcp .. | .frsq .. | .fsqrt .. | .fdiv .. | .fexp2 .. | .flog2 .. | .ftanh .. | .idiv .. | .irem .. | .gshf ..
  | .gbcst .. | .gvote .. | .gscan .. | .gred .. | .rsring .. | .rsadd .. | .rssub .. | .rsmul .. | .rsdiv ..
  | .rsneg .. | .rsrec .. | .rsmax .. | .rsmin .. | .rsuni .. | .rsint .. | .rsfrom .. | .rslo .. | .rshi .. | .rstest ..
  | .rspack .. | .rsunpk .. => some .wa
  | i =>
      match i.cls with
      | .sync => some .wq
      | .ctx => some .wc
      | .mat => some .wt
      | .eng => some .wx
      | _ => none

/-! ### Clauses (R51 to R53, R119) -/

/-- COUNT of a header. -/
def hdrCount (h : Word) : Nat := (h.extractLsb' 28 4).toNat
/-- CLASS of a header. -/
def hdrClass (h : Word) : Nat := (h.extractLsb' 25 3).toNat
/-- Whether a header keeps the rules of R51. -/
def hdrOk (h : Word) : Bool := hdrCount h != 0 && hdrClass h != 7 && h.extractLsb' 23 2 == 0 && h.extractLsb' 0 14 == 0
/-- P: park. -/
def hdrPark (h : Word) : Bool := h.getLsbD 15
/-- Y: yield. -/
def hdrYield (h : Word) : Bool := h.getLsbD 14
/-- Whether a header waits on a counter. -/
def hdrWaits (h : Word) : Ctr → Bool
  | .wx => h.getLsbD 22 | .wt => h.getLsbD 21 | .wc => h.getLsbD 20 | .wq => h.getLsbD 19 | .wa => h.getLsbD 18
  | .ws => h.getLsbD 17 | .wl => h.getLsbD 16

/-- The wait bits of a header against a thread's counters (R55). -/
def Thread.readyFor (t : Thread) (h : Word) : Bool :=
  [Ctr.wx, .wt, .wc, .wq, .wa, .ws, .wl].all fun c => !hdrWaits h c || t.count c == 0

/-- The class number of a word. -/
def clsNum : Cls → Option Nat
  | .alu => some 0 | .mem => some 1 | .sync => some 2 | .ctx => some 3 | .mat => some 4 | .eng => some 5 | .sys => some 6
  | .any => none

/-- The instruction that a first word names, without its modifier word. -/
def bareInstr : List Word → Option Instr
  | [] => none
  | w :: rest =>
      match parseWord w.toNat, rest with
      | some (.plain i), _ => some i
      | some (.modded f), _ => some (f .none)
      | some (.literal f), l :: _ => some (f l .none)
      | _, _ => none

/-- Whether an instruction may stand in a clause of a class for an agent, with `more` words behind it (R53, R58). -/
def placeOk (l : Limits) (cls : Nat) (i : Instr) (more : Bool) : Bool :=
  (match clsNum i.cls with | some c => c == cls | none => true) && !(i.mustBeLast && more) && i.legalIn l

/-- The first offending word of a clause, counting words from `idx` (R52). -/
def checkFrom (l : Limits) (cls : Nat) : Nat → Nat → List Word → Option Nat
  | 0, _, _ => none
  | fuel + 1, idx, ws =>
      if ws.isEmpty then none
      else
        match decode ws with
        | .error e =>
            match bareInstr ws with
            | some i => if placeOk l cls i (e.offset + 1 < ws.length) then some (idx + e.offset) else some idx
            | none => some (idx + e.offset)
        | .ok (i, n) =>
            if !placeOk l cls i (n < ws.length) then some idx
            else if !i.mods.barOk l then some (idx + n - 1)
            else checkFrom l cls fuel (idx + n) (ws.drop n)

/-- The first offending word of a clause, 0 being the header (R52). -/
def checkClause (l : Limits) (ws : List Word) : Option Nat :=
  match ws with
  | [] => some 0
  | h :: ws => if hdrOk h then checkFrom l (hdrClass h) 16 1 ws else some 0

/-- Whether an index is that of an instruction's own word in a checked clause (R119). -/
def isStart : Nat → Nat → Nat → List Word → Bool
  | 0, _, _, _ => false
  | fuel + 1, want, idx, ws =>
      if ws.isEmpty then false
      else if idx = want then true
      else match decode ws with
        | .ok (_, n) => isStart fuel want (idx + n) (ws.drop n)
        | .error _ => false

/-- What the checks of R58 and R69 look at for a team's threads or stream. -/
def Team.limits (t : Team) (stream handler : Bool) : Limits :=
  { stream := stream, vregs := t.vregs, kregs := t.kern.kregs, bars := t.kern.bars, lands := t.kern.lands, sup := t.sup
    handler := handler }

/-- Fetches `n` consecutive code words (R52); the first failure names its address. A fetch at an address of the scratchpad
window goes through the page tables like any other: the manual does not say otherwise, and the model chooses so (log 89). -/
def State.fetchWords (s : State) (ag : Agent) : Nat → Nat → State × Except Bad (List Word)
  | 0, _ => (s, .ok [])
  | n + 1, va =>
      match s.translate ag va .fetch with
      | (s, .error b) => (s, .error b)
      | (s, .ok (l, _)) =>
          let w := BitVec.ofNat 32 (leNat (s.locRead l 4))
          match s.fetchWords ag n (va + 4) with
          | (s, .error b) => (s, .error b)
          | (s, .ok ws) => (s, .ok (w :: ws))

/-- Fetches and checks the clause at an address for a team's threads: its words, or the trap each of them takes
(R52, R119). -/
def State.fetchClause (s : State) (tm : Team) (stream handler : Bool) (tid pc word : Nat) :
    State × Except Trap (List Word) :=
  let ag := tm.agent tid
  let mk := fun (b : Bad) (cls w : Nat) => ({ cause := BitVec.ofNat 8 b.cause.code, detail := BitVec.ofNat 20 b.detail
                                              write := false, cls := BitVec.ofNat 3 cls, addr := b.addr, header := pc
                                              word := w, cycle := s.clock } : Trap)
  match s.fetchWords ag 1 pc with
  | (s, .error b) => (s, .error (mk b 0 0))
  | (s, .ok hd) =>
      let h := hd.headD 0
      if !hdrOk h then (s, .error (mk (bad .illop 0) (hdrClass h) 0))
      else
        match s.fetchWords ag (hdrCount h) (pc + 4) with
        | (s, .error b) => (s, .error (mk b (hdrClass h) 0))
        | (s, .ok ws) =>
            match checkClause (tm.limits stream handler) (h :: ws) with
            | some w => (s, .error (mk (bad .illop 0) (hdrClass h) w))
            | none =>
                if word = 0 ∨ isStart 16 word 1 ws then (s, .ok (h :: ws))
                else (s, .error (mk (bad .illop 0) (hdrClass h) 0))

/-- The header that a fetch at an address would give now: what a pipe knows of a source's wait bits (R55). -/
def State.peekHeader (s : State) (tm : Team) (tid pc : Nat) : Option Word :=
  match (s.translate (tm.agent tid) pc .fetch).2 with
  | .ok (l, _) => some (BitVec.ofNat 32 (leNat (s.locRead l 4)))
  | .error _ => none

/-! ### Drawing a group (R40, R41, R55, R223) -/

/-- A source of a core's pipe: its threads, those of them that the wait bits let start, and whether it is held or full. -/
structure Source where
  team : Team
  all : List Thread
  threads : List Thread
  quick : Bool
  deriving DecidableEq, Repr

/-- The age of a source's oldest thread. -/
def Source.age (x : Source) : Nat := x.all.foldl (fun m t => min m t.age) (x.all.head?.elim 0 (·.age))

/-- The order of sources: the oldest thread, then the lower team slot, then the lower lowest thread (R40). -/
def Source.before (x y : Source) : Bool :=
  let k := fun (z : Source) => (z.age, z.team.slot, z.all.foldl (fun m t => min m t.tid) (z.all.head?.elim 0 (·.tid)))
  let a := k x
  let b := k y
  a.1 < b.1 || (a.1 == b.1 && (a.2.1 < b.2.1 || (a.2.1 == b.2.1 && a.2.2 ≤ b.2.2)))

/-- The threads of a source that the wait bits of their clause let start (R55). -/
def State.readyOf (s : State) (tm : Team) (l : List Thread) : List Thread :=
  match l with
  | [] => []
  | t :: _ =>
      match s.peekHeader tm t.tid t.pc with
      | some h => l.filter (·.readyFor h)
      | none => l

/-- The sources of a core: held groups, bins and keys of the spill list, each with its ready threads (R39, R40, R55). A source is
as old as its oldest thread, whether that is ready or not, and a bin is full by all its threads but those that yielded and have
not aged; one with no ready thread is none (log 88). -/
def State.sources (s : State) (c : Nat) : List Source :=
  (s.teamsOn c).flatMap fun tm =>
    if tm.state != .run then []
    else
      let places := (tm.threads.filterMap fun t => match t.status with
        | .bin _ | .spill | .held _ => some (t.status, t.key tm.id) | _ => none).dedup
      places.filterMap fun p =>
        let all := tm.threads.filter fun t => t.status = p.1 ∧ t.key tm.id = p.2
        let l := s.readyOf tm all
        let quick := match p.1 with
          | .held _ => true
          | .bin _ => 32 ≤ (all.filter fun t => !t.yielded || t.age + 64 ≤ s.clock).length
          | _ => false
        if l.isEmpty then none else some { team := tm, all := all, threads := l, quick := quick }

/-- Inserts a thread in order of age, then of number. -/
def byAge (t : Thread) : List Thread → List Thread
  | [] => [t]
  | x :: l => if t.age < x.age ∨ (t.age = x.age ∧ t.tid ≤ x.tid) then t :: x :: l else x :: byAge t l

/-- Inserts a number in ascending order. -/
def byNum (n : Nat) : List Nat → List Nat
  | [] => [n]
  | x :: l => if n ≤ x then n :: x :: l else x :: byNum n l

/-- The source a pipe takes: the oldest aged one, failing that the oldest held group or full bin (R40). -/
def State.pickSource (s : State) (c : Nat) : Option Source :=
  let l := s.sources c
  let best := fun (l : List Source) => l.foldl (fun (m : Option Source) x =>
    match m with | none => some x | some y => if y.before x then some y else some x) none
  match best (l.filter fun x => x.age + 64 ≤ s.clock) with
  | some x => some x
  | none => best (l.filter (·.quick))

/-- Starts a clause for the threads of a group, or gives each the trap that the fetch found. -/
def State.startGroup (s : State) (tm : Team) (ctl : Bool) (unit pipe : Nat) (tids : List Nat) (pc word : Nat)
    (handler : Bool) : State :=
  match s.fetchClause tm ctl handler (tids.headD 0) pc word with
  | (s, .error t) => tids.foldl (fun s tid => s.modThread tm.id tid fun h => { h with status := .trapped t }) s
  | (s, .ok ws) =>
      let g : Group := { ctl := ctl, unit := unit, pipe := pipe, team := tm.id, handler := handler, header := pc
                         idx := max word 1, words := ws, slots := tids }
      let n := s.fresh
      let s := tids.foldl (fun s tid => s.modThread tm.id tid fun h =>
        { h.startClause (choiceAt n tid 0) g.cls with
          status := .issuing, pc := g.fall, word := 0, refile := false, yielded := false, exempt := false }) s
      { s with groups := g :: s.groups, fresh := n + 1 }

/-- A core's pipe draws a group (R40, R41): the oldest 32 ready threads of the source's key. That the wait bits are tested before
the 32 are counted, and that a yielded thread which has not aged is among them where its age puts it there, the manual leaves
open, and the model chooses so (log 88). -/
def State.drawCore (s : State) (c pipe : Nat) : State :=
  match s.pickSource c with
  | none => s
  | some x =>
      let l := ((x.threads.foldl (fun l t => byAge t l) []).take 32)
      match l with
      | [] => s
      | t :: _ =>
          let tids := l.foldl (fun l t => byNum t.tid l) []
          let late : List Thread := match t.status with
            | .held n => x.team.threads.filter fun h => h.status = .held n ∧ h.tid ∉ tids
            | _ => []
          let s := late.foldl (fun (s : State) h => (s.file x.team.id h.tid).modThread x.team.id h.tid fun k => { k with age := h.age }) s
          s.startGroup x.team false c pipe tids t.pc t.word t.handler

/-- Whether a stream can be taken: it is ready, its wait bits let it start, and a yield of it has lasted 64 cycles as on a core
(R40, R223). -/
def State.streamReady (s : State) (tm : Team) (t : Thread) : Bool :=
  t.ctl && t.status == .ready && (!t.yielded || t.age + 64 ≤ s.clock) && !(s.readyOf tm [t]).isEmpty

/-- The control core takes its ready streams round-robin (R223). -/
def State.drawStream (s : State) (cl : Nat) : State :=
  let teams := s.teams.filter fun tm => clusOf tm.core = cl ∧ tm.state = .run ∧ tm.threads.any (s.streamReady tm)
  let last := (s.cluster cl).lastStream
  match (teams.find? (last < ·.id)).or teams.head? with
  | none => s
  | some tm =>
      match tm.thread? tidCtl with
      | some t => (s.modCluster cl fun x => { x with lastStream := tm.id }).startGroup tm true cl 0 [tidCtl] t.pc t.word false
      | none => s

/-- Every parked thread whose counters have become zero is filed (R55). -/
def State.unparkAll (s : State) : State :=
  s.teams.foldl (fun s t => (t.threads.map (·.tid)).foldl (fun (s : State) tid => s.unpark t.id tid) s) s

/-- Meaning of ISSUE_GROUP_DRAW (R40): a free one of a core's two pipes, or a free control core, draws a group. -/
def execIssueGroupDraw (ctl : Bool) (unit pipe : Nat) (s : State) : Host.Outcome State Fault Refusal :=
  if s.phase = .open ∧ pipe < (if ctl then 1 else 2)
      ∧ s.groups.all (fun g => !(g.ctl == ctl && g.unit == unit && g.pipe == pipe)) then
    let s := s.unparkAll
    .next (if ctl then s.drawStream unit else s.drawCore unit pipe)
  else .next s

/-! ### Words in flight that return (R54, R55) -/

/-- What the return of a word lets go on: an MDRAIN's tile, words that wait at the tiles of the cluster, a CARVE, an MCLR that has
waited for the word (R110, R225, R235). -/
def State.afterReturn (s : State) (tm : Team) (tid : Nat) (p : Pending) : State :=
  let s := ((s.drained tm.id tid p).settleTiles (clusOf tm.core)).checkCarve tm.id
  if p.bank.isSome then s.wakeMat (clusOf tm.core) else s

/-- Meaning of RESULT_RETURN (R54): a word in flight that nothing holds returns. -/
def execResultReturn (team tid idx : Nat) (s : State) : Host.Outcome State Fault Refusal :=
  .next (match s.team? team, (s.thread? team tid).bind (·.pend[idx]?) with
    | some tm, some p =>
        if p.mayReturn tm then
          let s := s.modThread team tid (Thread.returnAt (choiceAt s.fresh tid 0) idx)
          (({ s with fresh := s.fresh + 1 }.unpark team tid).afterReturn tm tid p)
        else s
    | _, _ => s)

/-! ### Past a word, and the end of a clause (R39) -/

/-- Keeps the threads of a group together as a held group, or files them where 64 groups are held. -/
def State.hold (s : State) (core id : Nat) (tids : List Nat) : State :=
  if (s.heldOn core).length < 64 then
    let (n, s) := s.newId
    tids.foldl (fun s tid => s.modThread id tid fun h =>
      { h with status := .held n, age := s.clock, yielded := false, refile := false }) s
  else tids.foldl (fun s tid => s.fileReady id tid) s

/-- The end of a clause for the threads that are still in the group (R39, R55). -/
def State.endClause (s : State) (g : Group) : State :=
  let tids := s.present g
  let h := g.words.headD 0
  let who := tids.filterMap fun tid => s.thread? g.team tid
  if g.ctl then
    tids.foldl (fun s tid => (s.modThread g.team tid fun t =>
      { t with status := if hdrPark h then .parked else .ready, age := s.clock, yielded := hdrYield h || t.yielded }).unpark g.team tid) s
  else if hdrPark h then
    tids.foldl (fun s tid => (s.modThread g.team tid fun t =>
      { t with status := .parked, yielded := hdrYield h || t.yielded }).unpark g.team tid) s
  else if hdrYield h || who.any (·.refile) then
    tids.foldl (fun s tid => if hdrYield h || who.any (·.yielded) then s.fileYield g.team tid else s.fileReady g.team tid) s
  else
    match who with
    | [] => s
    | t :: _ =>
        let (same, rest) := who.partition fun x => x.pc = t.pc ∧ x.word = t.word ∧ x.handler = t.handler
        let core := ((s.team? g.team).map (·.core)).getD 0
        let s := s.hold core g.team (same.map (·.tid))
        (rest.map (·.tid)).foldl (fun s tid => s.fileReady g.team tid) s

/-- What the core of a group's team does after each word: the L1 keeps to its part of the array (R35), and words that wait at tiles
go on where a thread has left. -/
def State.afterWord (s : State) (g : Group) : State :=
  match s.team? g.team with
  | some tm => (s.trimL1 tm.core).settleTiles (clusOf tm.core)
  | none => s

/-- Moves the group that issued past a word of `n` words; at the end of the clause, or when no thread is left in it,
the group leaves the pipe. One cycle passes (R40). -/
def State.advance (s : State) (n : Nat) : State :=
  match s.groups with
  | [] => s
  | g :: rest =>
      let g' := { g with idx := g.idx + n }
      let s := (s.afterWord g).passTo (s.clock + 1)
      if g'.idx < g.words.length ∧ !(s.present g).isEmpty then { s with groups := g' :: rest }
      else ({ s with groups := rest }).endClause g'

/-- The instruction that the head group issues next. -/
def Group.next (g : Group) : Except DecodeError (Instr × Nat) := decode (g.words.drop g.idx)

/-- Whether a word is a release of cluster scope or wider by a thread of a team (R133, R190, R228). -/
def releases (wide : Bool) (i : Instr) : Bool :=
  let sync := (syncOf i.mods).order.releases && ((syncOf i.mods).scope.homeWide || wide)
  match i with
  | .st .. | .stsb .. | .atom .. | .acas .. | .ared .. | .fence .. | .cacq .. => sync
  | .cpub .. => (syncOf i.mods).scope.homeWide || wide
  | .bsync .. | .barv .. => wide
  | .lpush .. | .lseal .. | .tspawn .. | .tdone .. | .tready .. | .xcopy .. | .xgath .. | .xputs .. | .xpubb .. | .tlbi .. => true
  | _ => false

/-- Whether an earlier ENG word of a core is not accepted yet (R308). -/
def State.engWaits (s : State) (c : Nat) : Bool :=
  s.teams.any fun t => t.core == c && t.threads.any fun h => h.pend.any fun p => p.ctr == .wx && p.hold.isSome

/-- Whether the head group is held at its word: a counter would pass 63 (R54), the engine has still to accept an earlier word of the
core (R308), or a release waits for a home (R361). -/
def State.heldUp (s : State) (g : Group) (i : Instr) : Bool :=
  let full := match ctrOf i with
    | none => false
    | some c => (s.active g i.mods).any fun tid => match s.thread? g.team tid with | some t => 63 ≤ t.count c | none => false
  let waits := match s.team? g.team with
    | some tm => (ctrOf i == some .wx && s.engWaits tm.core) || (!g.ctl && releases tm.hasStream i && s.dirtyDown tm)
    | none => false
  full || waits

/-- A clause word that is no instruction cannot stand in a checked clause; were one there, its threads would trap. -/
def State.badWord (s : State) (g : Group) : State :=
  (s.present g).foldl (fun s tid => s.trap g tid (bad .illop 0)) s

end Sys2Proof.Machine
end

