-- ==== Sys2Proof/Machine/Ring.lean ====
section
/-!
DEFINITION. Ring sets (R266 to R284): a team's ring slots, the regions of a ring as exact intervals, and the words that
combine sets of regions.
-/

namespace Sys2Proof.Machine

/-! ### Exact ends (R266, R272) -/

/-- An extended real as a fraction; a denominator of 0 stands for an infinity. -/
structure Frac where
  num : Int
  den : Nat
  deriving DecidableEq, Repr

/-- +∞. -/
def Frac.top : Frac := { num := 1, den := 0 }
/-- -∞. -/
def Frac.bot : Frac := { num := -1, den := 0 }
/-- 0. -/
def Frac.zero : Frac := { num := 0, den := 1 }

/-- Strict order. -/
def Frac.lt (x y : Frac) : Bool :=
  if x.den = 0 ∧ y.den = 0 then x.num < y.num else x.num * y.den < y.num * x.den

/-- Equality as extended reals. -/
def Frac.same (x y : Frac) : Bool := !x.lt y && !y.lt x

/-- Sum; an infinity absorbs. -/
def Frac.add (x y : Frac) : Frac :=
  if x.den = 0 then x else if y.den = 0 then y else { num := x.num * y.den + y.num * x.den, den := x.den * y.den }

/-- Product; 0 times an infinity is 0, the limit that bounds a product of intervals. -/
def Frac.mul (x y : Frac) : Frac :=
  if x.num = 0 ∨ y.num = 0 then .zero
  else if x.den = 0 ∨ y.den = 0 then (if (x.num < 0) = (y.num < 0) then .top else .bot)
  else { num := x.num * y.num, den := x.den * y.den }

/-- Negation. -/
def Frac.neg (x : Frac) : Frac := { x with num := -x.num }

/-- The reciprocal of an end on one side of zero. -/
def Frac.inv (negative : Bool) (x : Frac) : Frac :=
  if x.num = 0 then (if negative then .bot else .top)
  else { num := if x.num < 0 then -(x.den : Int) else x.den, den := x.num.natAbs }

/-- A set of finite reals between two ends, each of which belongs to it or not. -/
structure Arc where
  lo : Frac
  hi : Frac
  lc : Bool
  hc : Bool
  deriving DecidableEq, Repr

/-- Whether every real of one arc is below every real of another. -/
def Arc.under (x y : Arc) : Bool := x.hi.lt y.lo || (x.hi.same y.lo && !(x.hc && y.lc))

/-- Whether two arcs meet. -/
def Arc.meets (x y : Arc) : Bool := !x.under y && !y.under x

/-- Whether an arc holds zero. -/
def Arc.hasZero (x : Arc) : Bool := x.meets { lo := .zero, hi := .zero, lc := true, hc := true }

/-- Sums. -/
def Arc.add (x y : Arc) : Arc := { lo := x.lo.add y.lo, hi := x.hi.add y.hi, lc := x.lc && y.lc, hc := x.hc && y.hc }

/-- Negations. -/
def Arc.neg (x : Arc) : Arc := { lo := x.hi.neg, hi := x.lo.neg, lc := x.hc, hc := x.lc }

/-- Maxima. -/
def Arc.max (x y : Arc) : Arc :=
  let lo := if x.lo.lt y.lo then (y.lo, y.lc) else if y.lo.lt x.lo then (x.lo, x.lc) else (x.lo, x.lc && y.lc)
  let hi := if x.hi.lt y.hi then (y.hi, y.hc) else if y.hi.lt x.hi then (x.hi, x.hc) else (x.hi, x.hc || y.hc)
  { lo := lo.1, hi := hi.1, lc := lo.2, hc := hi.2 }

/-- Products: the bounds are reached at corners, or are 0 where one factor can be 0. -/
def Arc.mul (x y : Arc) : Arc :=
  let cs := [(x.lo.mul y.lo, x.lc && y.lc), (x.lo.mul y.hi, x.lc && y.hc), (x.hi.mul y.lo, x.hc && y.lc),
    (x.hi.mul y.hi, x.hc && y.hc)]
  let z := x.hasZero || y.hasZero
  let at' := fun (b : Frac) => if b.num = 0 then z else cs.any fun c => c.1.same b && c.2
  let lo := cs.foldl (fun (m : Frac) c => if c.1.lt m then c.1 else m) .top
  let hi := cs.foldl (fun (m : Frac) c => if m.lt c.1 then c.1 else m) .bot
  { lo := lo, hi := hi, lc := at' lo, hc := at' hi }

/-- Reciprocals of the nonzero reals of an arc: those of its negative and of its positive part. -/
def Arc.inv (x : Arc) : List Arc :=
  let neg := if x.lo.lt .zero then
      let h := if Frac.zero.lt x.hi then (Frac.zero, false) else (x.hi, x.hc)
      [{ lo := Frac.inv true h.1, hi := Frac.inv true x.lo, lc := h.2 && h.1.num != 0, hc := x.lc : Arc }]
    else []
  let pos := if Frac.zero.lt x.hi then
      let l := if x.lo.lt .zero then (Frac.zero, false) else (x.lo, x.lc)
      [{ lo := Frac.inv false x.hi, hi := Frac.inv false l.1, lc := x.hc, hc := l.2 && l.1.num != 0 : Arc }]
    else []
  neg ++ pos

/-! ### Rings (R266 to R268) -/

/-- The number of regions of a width. -/
def ringW (wide : Bool) : Nat := if wide then 16 else 8

/-- A ring value as a fraction. -/
def ringValue (x : Word) : Frac :=
  match fmtF32.unpack x.toNat with
  | .fin n m e =>
      let k : Int := (m * 2 ^ e.toNat : Nat)
      { num := if n then -k else k, den := 2 ^ (-e).toNat }
  | .inf n => if n then .bot else .top
  | .nan .. => .zero

/-- A finite region of a ring, 1 to 2n + 1. -/
def region (vs : List Word) (i : Nat) : Arc :=
  let v := fun (k : Nat) => ringValue (vs.getD (k - 1) 0)
  if i % 2 = 0 then { lo := v (i / 2), hi := v (i / 2), lc := true, hc := true }
  else
    { lo := if i = 1 then .bot else v (i / 2), hi := if i / 2 = vs.length then .top else v (i / 2 + 1), lc := false, hc := false }

/-- Whether bit i of a set is set. -/
def hasBit (x i : Nat) : Bool := x / 2 ^ i % 2 == 1

/-- A set with the bits that a test picks. -/
def pickBits (w : Nat) (f : Nat → Bool) : Nat := ((List.range w).map fun i => if f i then 2 ^ i else 0).sum

/-- mask of a set of finite reals that some arcs make up. -/
def maskOf (vs : List Word) (l : List Arc) : Nat :=
  pickBits (2 * vs.length + 2) fun i => i != 0 && l.any fun a => (region vs i).meets a

/-- The whole line. -/
def ringAll (vs : List Word) : Nat := 2 ^ (2 * vs.length + 2) - 1

/-! ### The tables (R272) -/

/-- T_add. -/
def tabAdd (vs : List Word) (i j : Nat) : Nat :=
  if i = 0 ∧ j = 0 then ringAll vs else if i = 0 ∨ j = 0 then 1 else maskOf vs [(region vs i).add (region vs j)]

/-- T_mul. -/
def tabMul (vs : List Word) (i j : Nat) : Nat :=
  if (i = 0 ∧ j ≠ 0 ∧ (region vs j).hasZero) ∨ (j = 0 ∧ i ≠ 0 ∧ (region vs i).hasZero) then ringAll vs
  else if i = 0 ∨ j = 0 then 1 else maskOf vs [(region vs i).mul (region vs j)]

/-- T_max. -/
def tabMax (vs : List Word) (i j : Nat) : Nat :=
  if i = 0 ∨ j = 0 then ringAll vs else maskOf vs [(region vs i).max (region vs j)]

/-- T_min. -/
def tabMin (vs : List Word) (i j : Nat) : Nat :=
  if i = 0 ∨ j = 0 then ringAll vs else maskOf vs [((region vs i).neg.max (region vs j).neg).neg]

/-- T_neg. -/
def tabNeg (vs : List Word) (i : Nat) : Nat := if i = 0 then 1 else maskOf vs [(region vs i).neg]

/-- T_rec. -/
def tabRec (vs : List Word) (i : Nat) : Nat :=
  if i = 0 then maskOf vs [{ lo := .zero, hi := .zero, lc := true, hc := true }]
  else maskOf vs (region vs i).inv ||| (if (region vs i).hasZero then 1 else 0)

/-! ### Table words (R276 to R278) -/

/-- The set bits of a set. -/
def setBits (w x : Nat) : List Nat := (List.range w).filter (hasBit x)

/-- The union of a table's entries over the pairs of two sets. -/
def ringPairs (vs : List Word) (t : List Word → Nat → Nat → Nat) (x y : Nat) : Nat :=
  let w := 2 * vs.length + 2
  (setBits w x).foldl (fun r i => (setBits w y).foldl (fun r j => r ||| t vs i j) r) 0

/-- The union of a table's entries over a set. -/
def ringEach (vs : List Word) (t : List Word → Nat → Nat) (x : Nat) : Nat :=
  (setBits (2 * vs.length + 2) x).foldl (fun r i => r ||| t vs i) 0

/-- RSSUB. -/
def ringSub (vs : List Word) (x y : Nat) : Nat := ringPairs vs tabAdd x (ringEach vs tabNeg y)

/-- RSDIV. -/
def ringDiv (vs : List Word) (x y : Nat) : Nat :=
  let w := 2 * vs.length + 2
  if setBits w x = [] ∨ setBits w y = [] then 0
  else if (setBits w y).any fun j => j != 0 && (region vs j).hasZero then ringAll vs
  else ringPairs vs tabMul x (ringEach vs tabRec y)

/-! ### Conversion, bounds, tests, packing (R279 to R283) -/

/-- RSFROM. -/
def ringFrom (vs : List Word) (lo hi : Word) : Nat :=
  if (fmtF32.unpack lo.toNat).isNan || (fmtF32.unpack hi.toNat).isNan then ringAll vs
  else
    let a := ringValue lo
    let b := ringValue hi
    if b.lt a then 0
    else
      let fin := if a.same .top || b.same .bot then 0
        else maskOf vs [{ lo := a, hi := b, lc := a.den != 0, hc := b.den != 0 }]
      fin ||| (if a.den = 0 ∨ b.den = 0 then 1 else 0)

/-- RSLO. -/
def ringLo (vs : List Word) (x : Nat) : Word :=
  match setBits (2 * vs.length + 2) x with
  | [] => 0x7F800000
  | i :: _ => if i ≤ 1 then 0xFF800000 else vs.getD (i / 2 - 1) 0

/-- RSHI. -/
def ringHi (vs : List Word) (x : Nat) : Word :=
  match (setBits (2 * vs.length + 2) x).getLast? with
  | none => 0xFF800000
  | some i => if hasBit x 0 ∨ i = 2 * vs.length + 1 then 0x7F800000 else vs.getD ((i + 1) / 2 - 1) 0

/-- Whether all pairs, or some pair, of values of two regions stand in a relation (R281). -/
def regionRel (vs : List Word) (rel : Rel) (some' : Bool) (i j : Nat) : Bool :=
  let x := region vs i
  let y := region vs j
  let lt := fun (x y : Arc) => if some' then x.lo.lt y.hi else x.under y
  let le := fun (x y : Arc) =>
    if some' then x.lo.lt y.hi || (x.lo.same y.hi && x.lc && y.hc) else x.hi.lt y.lo || x.hi.same y.lo
  match rel with
  | .eq => i == j && (some' || i % 2 == 0)
  | .ne => if some' then i != j || i % 2 == 1 else i != j
  | .lt => i != 0 && j != 0 && lt x y
  | .le => i != 0 && j != 0 && le x y
  | .gt => i != 0 && j != 0 && lt y x
  | .ge => i != 0 && j != 0 && le y x

/-- RSTEST. -/
def ringTest (vs : List Word) (rel : Rel) (poss : Bool) (x y : Nat) : Bool :=
  let w := 2 * vs.length + 2
  if poss then (setBits w x).any fun i => (setBits w y).any fun j => regionRel vs rel true i j
  else (setBits w x).all fun i => (setBits w y).all fun j => regionRel vs rel false i j

/-- The arc of regions s to s + l, modulo w. -/
def arcMask (w s l : Nat) : Nat := pickBits w fun i => decide ((i + w - s) % w ≤ l)

/-- RSPACK: the byte, and SAT where the arc is wider than the set. -/
def ringPack (w x : Nat) : Nat × BitVec 6 :=
  let x := x % 2 ^ w
  if x = 0 then (16 + (w - 1), 0)
  else
    let arcs := (List.range w).flatMap fun l => (List.range w).map fun s => (s, l)
    match arcs.find? fun a => arcMask w a.1 a.2 &&& x = x with
    | some a => (16 * a.1 + a.2, flIf (arcMask w a.1 a.2 != x) flSAT)
    | none => (w - 1, 0)

/-- RSUNPK. -/
def ringUnpack (w b : Nat) : Nat :=
  let s := b / 16 % 16
  let l := b % 16
  if s < w ∧ l < w - 1 then arcMask w s l else if s = 1 ∧ l = w - 1 then 0 else 2 ^ w - 1

/-! ### Slots (R269, R270, R275) -/

/-- A slot of a team. -/
def Team.ring (tm : Team) (n : Nat) : RingSlot := tm.rings.getD n { state := .unloaded, values := [], job := 0 }

/-- Sets a slot of a team. -/
def State.setRing (s : State) (team n : Nat) (r : RingSlot) : State := s.modTeam team fun t => { t with rings := t.rings.set n r }

/-- Reads the words of a ring image by the issuing thread. -/
def State.ringImage (s : State) (ag : Agent) : Nat → Nat → State × Except Bad (List Word)
  | 0, _ => (s, .ok [])
  | n + 1, va =>
      match s.memRead ag va 4 Sync.plain with
      | (s, .error b) => (s, .error b)
      | (s, .ok x) =>
          match s.ringImage ag n (va + 4) with
          | (s, .error b) => (s, .error b)
          | (s, .ok l) => (s, .ok (BitVec.ofNat 32 (leNat x) :: l))

/-- Whether values are finite and strictly increasing. -/
def ringOk : List Word → Bool
  | x :: y :: l => (ringValue x).den != 0 && (ringValue x).lt (ringValue y) && ringOk (y :: l)
  | [x] => (ringValue x).den != 0
  | [] => true

/-- Whether a value is no NaN. -/
def ringReal (x : Word) : Bool := !(fmtF32.unpack x.toNat).isNan

/-- RSRING by the lowest active thread, for every active thread of the group. -/
def State.rsringOne (a : Code) (ty : RsTy) (m : Mods) (s : State) (g : Group) (tid : Nat) : State :=
  s.withThread g tid fun tm th e =>
    let who := s.active g m
    let n := ty.slot.toNat
    let va := (e.addr th a).toNat
    match s.ringImage (tm.agent tid) (if ty.wide then 7 else 3) va with
    | (s, .error b) => s.trap g tid b
    | (s, .ok l) =>
        let l := l.map fun x => if x = 0x80000000 then 0 else x
        if !(l.all ringReal && ringOk l) then s.trap g tid (badAt .ringload 3 (BitVec.ofNat 64 va))
        else
          let old := tm.ring n
          let (fresh, s) := s.newId
          let j := match old.state with | .loading _ => old.job | _ => fresh
          let s := s.setRing tm.id n { state := .loading ty.wide, values := l, job := j }
          who.foldl (fun s t => s.results g t .wa Out.none (some j)) s

/-- Meaning of RSRING. -/
def execRsring (a : Code) (ty : RsTy) (m : Mods) (s : State) : Host.Outcome State Fault Refusal :=
  .next (onceLane m (State.rsringOne a ty m) s)

/-- The tables of a slot are complete (R270). -/
def State.tablesComplete (s : State) (team n : Nat) : State :=
  match s.team? team with
  | some tm =>
      match (tm.ring n).state with
      | .loading w => (s.setRing team n { tm.ring n with state := .loaded w }).endJob (tm.ring n).job
      | _ => s
  | none => s

/-- Meaning of RING_TABLES_COMPLETE. -/
def execRingTablesComplete (team slot : Nat) (s : State) : Host.Outcome State Fault Refusal := .next (s.tablesComplete team slot)

/-- A word that reads its slot in one thread, or traps RINGLOAD. -/
def State.ringOne (ty : RsTy) (f : List Word → Env → Thread → Out) (s : State) (g : Group) (tid : Nat) : State :=
  s.withThread g tid fun tm th e =>
    let r := tm.ring ty.slot.toNat
    match r.state with
    | .loaded w =>
        if w = ty.wide then s.modThread g.team tid fun h => h.launch { (f r.values e th).later .wa none with tie := .ring }
        else s.trap g tid (bad .ringload 2)
    | _ => s.trap g tid (bad .ringload 1)

/-- The set in a register. -/
def Env.ringSet (e : Env) (th : Thread) (vs : List Word) (c : Code) (k : Nat) : Nat :=
  (e.rd32 th c k).toNat % 2 ^ (2 * vs.length + 2)

/-- A word d := f(x, y) on sets. -/
def ringBin (d a b : Code) (ty : RsTy) (m : Mods) (f : List Word → Nat → Nat → Nat) (s : State) : State :=
  eachLane m (State.ringOne ty fun vs e th =>
    Out.reg (th.dst32 d (BitVec.ofNat 32 (f vs (e.ringSet th vs a 0) (e.ringSet th vs b 2))) false)) s

/-- A word d := f(x) on a set. -/
def ringUn (d a : Code) (ty : RsTy) (m : Mods) (f : List Word → Nat → Nat) (s : State) : State :=
  eachLane m (State.ringOne ty fun vs e th =>
    Out.reg (th.dst32 d (BitVec.ofNat 32 (f vs (e.ringSet th vs a 0))) false)) s

/-- Meaning of RSADD. -/
def execRsadd (d a b : Code) (ty : RsTy) (m : Mods) (s : State) : Host.Outcome State Fault Refusal :=
  .next (ringBin d a b ty m (fun vs => ringPairs vs tabAdd) s)

/-- Meaning of RSSUB. -/
def execRssub (d a b : Code) (ty : RsTy) (m : Mods) (s : State) : Host.Outcome State Fault Refusal :=
  .next (ringBin d a b ty m ringSub s)

/-- Meaning of RSMUL. -/
def execRsmul (d a b : Code) (ty : RsTy) (m : Mods) (s : State) : Host.Outcome State Fault Refusal :=
  .next (ringBin d a b ty m (fun vs => ringPairs vs tabMul) s)

/-- Meaning of RSDIV. -/
def execRsdiv (d a b : Code) (ty : RsTy) (m : Mods) (s : State) : Host.Outcome State Fault Refusal :=
  .next (ringBin d a b ty m ringDiv s)

/-- Meaning of RSNEG. -/
def execRsneg (d a : Code) (ty : RsTy) (m : Mods) (s : State) : Host.Outcome State Fault Refusal :=
  .next (ringUn d a ty m (fun vs => ringEach vs tabNeg) s)

/-- Meaning of RSREC. -/
def execRsrec (d a : Code) (ty : RsTy) (m : Mods) (s : State) : Host.Outcome State Fault Refusal :=
  .next (ringUn d a ty m (fun vs => ringEach vs tabRec) s)

/-- Meaning of RSMAX. -/
def execRsmax (d a b : Code) (ty : RsTy) (m : Mods) (s : State) : Host.Outcome State Fault Refusal :=
  .next (ringBin d a b ty m (fun vs => ringPairs vs tabMax) s)

/-- Meaning of RSMIN. -/
def execRsmin (d a b : Code) (ty : RsTy) (m : Mods) (s : State) : Host.Outcome State Fault Refusal :=
  .next (ringBin d a b ty m (fun vs => ringPairs vs tabMin) s)

/-- Meaning of RSUNI. -/
def execRsuni (d a b : Code) (ty : RsTy) (m : Mods) (s : State) : Host.Outcome State Fault Refusal :=
  .next (ringBin d a b ty m (fun _ x y => x ||| y) s)

/-- Meaning of RSINT. -/
def execRsint (d a b : Code) (ty : RsTy) (m : Mods) (s : State) : Host.Outcome State Fault Refusal :=
  .next (ringBin d a b ty m (fun _ x y => x &&& y) s)

/-- Meaning of RSFROM. -/
def execRsfrom (d a b : Code) (ty : RsTy) (m : Mods) (s : State) : Host.Outcome State Fault Refusal :=
  .next (eachLane m (State.ringOne ty fun vs e th =>
    Out.reg (th.dst32 d (BitVec.ofNat 32 (ringFrom vs (e.rd32 th a 0) (e.rd32 th b 2))) false)) s)

/-- Meaning of RSLO. -/
def execRslo (d a : Code) (ty : RsTy) (m : Mods) (s : State) : Host.Outcome State Fault Refusal :=
  .next (ringUn d a ty m (fun vs x => (ringLo vs x).toNat) s)

/-- Meaning of RSHI. -/
def execRshi (d a : Code) (ty : RsTy) (m : Mods) (s : State) : Host.Outcome State Fault Refusal :=
  .next (ringUn d a ty m (fun vs x => (ringHi vs x).toNat) s)

/-- Meaning of RSTEST. -/
def execRstest (rel : Rel) (poss : Bool) (pd : P3) (a b : Code) (ty : RsTy) (m : Mods) (s : State) :
    Host.Outcome State Fault Refusal :=
  .next (eachLane m (State.ringOne ty fun vs e th =>
    Out.pred pd (ringTest vs rel poss (e.ringSet th vs a 0) (e.ringSet th vs b 2))) s)

/-- Meaning of RSPACK. -/
def execRspack (d a : Code) (ty : RsTy) (m : Mods) (s : State) : Host.Outcome State Fault Refusal :=
  .next (eachLane m (State.ringOne ty fun vs e th =>
    let r := ringPack (2 * vs.length + 2) (e.ringSet th vs a 0)
    { regs := th.dst32 d (BitVec.ofNat 32 r.1) false, preds := [], flags := r.2 }) s)

/-- Meaning of RSUNPK. -/
def execRsunpk (d a : Code) (ty : RsTy) (m : Mods) (s : State) : Host.Outcome State Fault Refusal :=
  .next (eachLane m (State.ringOne ty fun vs e th =>
    Out.reg (th.dst32 d (BitVec.ofNat 32 (ringUnpack (2 * vs.length + 2) (e.rd32 th a 0).toNat)) false)) s)

end Sys2Proof.Machine
end

