-- ==== Sys2Proof/Machine/Trap.lean ====
section
/-!
DEFINITION. The roads of a trap (R325 to R336): delivery, the supervisor road with its record and verdicts, the fatal
road with the fault logs, the device road (R354), the watchdog and soft errors; and how a team halts (R46, R337).
-/

namespace Sys2Proof.Machine

/-! ### Halting a team (R46, R337) -/

/-- The arrival that a blocked BSYNC leaves recorded (R139). -/
def Block.arrival (b : Block) : Option Arrival :=
  match b.wait with
  | .bsync n phase _ _ => some { bar := n, phase := phase, header := b.header, word := b.word, value := none }
  | _ => none

/-- The barrier on which a blocked BWAIT waits (R140). -/
def Block.waitAt (b : Block) : Option Nat :=
  match b.wait with
  | .bwait n _ _ => some n
  | _ => none

/-- A blocked thread's request is withdrawn: it stands at its word again, a BSYNC with its arrival recorded, and its team is not
held back for what it has in flight (R46, R139, R168, R221, R227). -/
def Thread.withdraw (b : Block) (h : Thread) : Thread :=
  { h with arrivals := b.arrival.toList ++ h.arrivals, waitAt := b.waitAt, pc := b.header, word := b.word, status := .ready, exempt := true }

/-- Withdraws the blocked word of one thread of a halted team. -/
def State.withdrawThread (team : Nat) (s : State) (tid : Nat) : State :=
  match (s.thread? team tid).map (·.status) with
  | some (Status.blocked b) => (s.modThread team tid (Thread.withdraw b)).file team tid
  | _ => s

/-- Withdraws every blocked word of a team. -/
def State.withdrawTeam (s : State) (team : Nat) : State :=
  match s.team? team with
  | some tm => (tm.threads.map (·.tid)).foldl (State.withdrawThread team) s
  | none => s

/-- A running team halts: it issues no further clause, and its blocked words are withdrawn (R46). -/
def State.haltTeam (s : State) (team : Nat) : State :=
  match s.team? team with
  | some tm =>
      if tm.state = .run then (s.setTeamState team fun t => { t with state := .halt, since := s.clock }).withdrawTeam team
      else s
  | none => s

/-! ### Delivery (R326 to R332) -/

/-- The original cause's code as the DETAIL of a fatal cause. -/
def Trap.origin (t : Trap) : Nat := t.cause.toNat

/-- Whether a cause takes the supervisor road (R327). -/
def Trap.toSupervisor (t : Trap) : Bool := t.cause.toNat == Cause.xlate.code || t.cause.toNat == Cause.perm.code

/-- The thread's trap has taken the fatal road or waits for a verdict. -/
def State.markFaulted (s : State) (team tid : Nat) (t : Trap) : State :=
  s.modThread team tid fun h => { h with status := .faulted t }

/-- A thread stands at its failing word again. -/
def Thread.retryAt (t : Trap) (h : Thread) : Thread := { h with pc := t.header % 2 ^ 48, word := t.word % 16, status := .ready }

/-- The thread enters its handler (R329). -/
def State.enter (s : State) (tm : Team) (tid : Nat) : State :=
  (s.modThread tm.id tid fun h => { h.enterHandler tm with status := .ready }).fileReady tm.id tid

/-- Whether a thread's user-road cause can enter a handler (R330). -/
def Team.canHandle (tm : Team) (th : Thread) : Bool := tm.kern.handler != 0 && !th.handler

/-- XLATE or PERM of a user task (R332): the team halts and is suspended, and the record of the first thread waits to be
posted; other threads stand at their words. -/
def State.suspend (s : State) (tm : Team) (tid : Nat) (t : Trap) : State :=
  if s.regs.fland = 0 then (s.markFaulted tm.id tid t).raiseTrap tm tid .savefail 1 t
  else
    let s := s.haltTeam tm.id
    let cell := (s.slotPa tm (s.slotAddr tm) true)
    if tm.record.isNone then
      let (at0, s) := s.newId
      (s.markFaulted tm.id tid t).setTeamState tm.id fun x =>
        { x with susp := true, record := some t, recordTid := tid, posted := false, postAt := at0, faultAt := s.clock, verdict := 0, cell := cell }
    else ((s.modThread tm.id tid (Thread.retryAt t)).fileReady tm.id tid)

/-- The road of a delivered trap (R327 to R332). A supervisor task's XLATE and PERM are user-road causes of its own, NOHANDLER where
no handler can be entered (log 56); a trap of a team that its tenant's stop has halted has no road left (R335). -/
def State.road (s : State) (tm : Team) (th : Thread) (t : Trap) : State :=
  if tm.stopped then s.markFaulted tm.id th.tid t
  else if th.ctl then (s.markFaulted tm.id th.tid t).raiseTrap tm th.tid .ctltrap t.origin t
  else if t.toSupervisor && !tm.sup then s.suspend tm th.tid t
  else if tm.canHandle th then s.enter tm th.tid
  else (s.markFaulted tm.id th.tid t).raiseTrap tm th.tid .nohandler t.origin t

/-- Whether another thread of lower number trapped XLATE or PERM in the same cycle and is to be recorded first (R332). -/
def Team.beforeIt (tm : Team) (tid : Nat) (t : Trap) : Bool :=
  tm.record.isNone && tm.threads.any fun h => match h.status with
    | .trapped u => h.tid < tid && !h.ctl && u.toSupervisor && u.cycle == t.cycle
    | _ => false

/-- A trapped thread whose counters are zero writes FAULT, FADDR and FPC and takes its road (R326). -/
def State.deliver (s : State) (team tid : Nat) : State :=
  match s.team? team, s.thread? team tid with
  | some tm, some th =>
      match th.status with
      | .trapped t =>
          if !th.pend.isEmpty || (!tm.sup && !th.ctl && t.toSupervisor && tm.beforeIt tid t) then s
          else (s.modThread team tid (Thread.takeTrap t)).road tm th t
      | _ => s
  | _, _ => s

/-- Meaning of TRAP_DELIVER. -/
def execTrapDeliver (team tid : Nat) (s : State) : Host.Outcome State Fault Refusal := .next (s.deliver team tid)

/-! ### The fault record and the verdict (R332 to R334) -/

/-- The fault record of a suspended team (R333). -/
def State.recordOf (s : State) (tm : Team) (t : Trap) : List Byte :=
  faultRecord t.fault tm.task.owner t.faddr t.fpc tm.recordTid tm.core tm.slot tm.task.kernel (BitVec.ofNat 64 (s.slotAddr tm))
    tm.faultAt

/-- Posts the record of a suspended team: a push that waits for its turn and while the landing is full, and SAVEFAIL with DETAIL 1 where
no open landing is there. -/
def State.postRecord (s : State) (team : Nat) : State :=
  match s.team? team with
  | some tm =>
      match tm.record with
      | some t =>
          if !tm.toPost then s
          else
            let s := s.touched rtWindow (s.regs.rtasid.toNat % 4096) s.regs.fland.toNat false
            match s.faultLanding with
            | none => (s.modTeam team fun x => { x with posted := true }).raiseTrap tm tm.recordTid .savefail 1 t
            | some l =>
                if s.landDown l then s
                else match l.ask with
                | .refused => (s.modTeam team fun x => { x with posted := true }).raiseTrap tm tm.recordTid .savefail 1 t
                | .room =>
                    if (firstOf (s.waiters l.id true)).map (·.2) = some (team, tidRecord) then
                      (s.modTeam team fun x => { x with posted := true }).putRecord l.id (s.recordOf tm t)
                    else s
                | _ => s
      | none => s
  | none => s

/-- Meaning of FAULT_RECORD_POST. -/
def execFaultRecordPost (team : Nat) (s : State) : Host.Outcome State Fault Refusal := .next (s.postRecord team)

/-- The K8 acts on a verdict (R334): it clears the cell and SUSP once the team is a victim or saved. -/
def State.onVerdict (s : State) (team : Nat) (v : BitVec 2) (act : State → Team → Thread → Trap → State) : State :=
  match s.team? team with
  | some tm =>
      match tm.record, s.thread? team tm.recordTid with
      | some t, some th =>
          if tm.susp ∧ tm.verdict = v ∧ (tm.state = .victim ∨ tm.state = .saved) then
            let s := match tm.cell with | some c => s.agentWrite c (bytesLE 8 0) | none => s
            let s := s.setTeamState team fun x => { x with susp := false, record := none, posted := false, verdict := 0, cell := none }
            act s tm th t
          else s
      | _, _ => s
  | none => s

/-- Meaning of VERDICT_RETRY: the thread executes its failing word again on resume. -/
def execVerdictRetry (team : Nat) (s : State) : Host.Outcome State Fault Refusal :=
  .next (s.onVerdict team 1 fun s tm th t => (s.modThread tm.id th.tid (Thread.retryAt t)).fileReady tm.id th.tid)

/-- Meaning of VERDICT_USER: the thread enters its handler on resume, with SUPRET set, or NOHANDLER is raised. -/
def execVerdictUser (team : Nat) (s : State) : Host.Outcome State Fault Refusal :=
  .next (s.onVerdict team 2 fun s tm th t =>
    if tm.canHandle th then
      (s.modThread tm.id th.tid fun h => { h with fault := h.fault ||| 0x00008000#32 }).enter tm th.tid
    else s.raiseTrap tm th.tid .nohandler t.origin t)

/-- Meaning of VERDICT_KILL. -/
def execVerdictKill (team : Nat) (s : State) : Host.Outcome State Fault Refusal :=
  .next (s.onVerdict team 3 fun s tm th t => s.raiseTrap tm th.tid .killed t.origin t)

/-! ### Fault logs (R336) -/

/-- Writes a record to a fault log and then increments its POSTED. -/
def State.postLog (s : State) (base : Nat) (record : List Byte) : State :=
  let n := leNat (s.homeRead base 4)
  (s.agentWrite (base + 64 + 64 * (n % 63)) record).agentWrite base (bytesLE 4 (n + 1))

/-- Posts to the device fault log and fires the PF vector; with DEVLOG 0 nothing is written. -/
def State.postDevice (s : State) (record : List Byte) : State :=
  (if s.regs.devlog = 0 then s else s.postLog s.regs.devlog.toNat record).reply (.vector 0 0)

/-- Posts to a tenant's fault log and fires its vector 0, or to the device's where it has none. -/
def State.postTenant (s : State) (tenant : Nat) (record : List Byte) : State :=
  let base := (s.tenant tenant).flog
  if base = 0 then s.postDevice record else (s.postLog base.toNat record).reply (.vector (tenant + 1) 0)

/-! ### Stopping a tenant, resetting the runtime (R335, R354) -/

/-- A team is discarded with no save: its handles, tiles, banks and claims are freed, and its slot holds no stopped team any more
(log 109). -/
def State.discardTeam (s : State) (team : Nat) : State :=
  match s.team? team with
  | some tm =>
      let s := if tm.state = .saved ∨ tm.state = .victim then s.setTeamState team fun t => { t with state := .run } else s
      let s := s.freeHandles team
      let s := { s with
        groups := s.groups.filter (·.team ≠ team)
        catts := s.catts.filter (·.team ≠ team)
        teams := s.teams.filter (·.id ≠ team) }
      s.freeMat tm
  | none => s

/-- Everything that an owner number has queued is discarded, and its teams halt: its engine commands complete first, the stopped
teams are discarded at once, and a running one when it has drained (R316, R335, R337). -/
def State.discardOwner (s : State) (id : Nat) : State :=
  let mine := (s.teamsOf id).map (·.id)
  let s := ((s.launches.filter (·.tenant = id)).map (·.id)).foldl State.countLate s
  let s := mine.foldl (fun s t => s.haltTeam t) s
  let s := (s.cmds.filter fun c => mine.contains c.team).foldl (fun (s : State) c => s.finishCmd c []) s
  let s := ((s.teamsOf id).filter (·.state ≠ .halt)).foldl (fun s t => s.discardTeam t.id) s
  let s := mine.foldl (fun s t => s.modTeam t fun x => { x with stopped := true }) s
  let s := { s with
    clusters := s.clusters.map (fun (c : Cluster) => { c with deque := c.deque.filter fun t => ownerId t.owner ≠ id })
    launches := s.launches.filter (·.tenant ≠ id) }
  s.modTenant id fun t => { t with spilled := [] }

/-- Whether a tenant can be stopped: it is active or pre-empted. -/
def Tenant.stoppable (t : Tenant) : Bool := t.state == .active || t.state == .preempted

/-- Stops a tenant with some records (R335); the credits of its launches stay held until tenant reset (R287, R353). -/
def State.stopTenant (s : State) (id : Nat) (records : List (List Byte)) : State :=
  let held := (s.launches.filter (·.tenant = id)).length
  let s := s.modTenant id fun t => { t with state := .stopped, lost := t.lost + held }
  records.foldl (fun s r => s.postTenant id r) ((s.discardOwner id).keepFloors (·.tenant ≠ id))

/-- The fatal causes of a tenant that have been raised. -/
def State.fatalsOf (s : State) (id : Nat) : List Fatal := s.fatals.filter fun f => !f.sup && f.tenant == id

/-- Meaning of TENANT_STOP: the tenant's fatal causes stop it; for a tenant that is stopped already they are without
effect. -/
def execTenantStop (tenant : Nat) (s : State) : Host.Outcome State Fault Refusal :=
  let fs := s.fatalsOf tenant
  let s' := { s with fatals := s.fatals.filter fun f => !(!f.sup && f.tenant == tenant) }
  .next (if fs.isEmpty then s
    else if (s.tenant tenant).stoppable then s'.stopTenant tenant (fs.map (·.record)) else s')

/-- Meaning of DEVICE_RUNTIME_RESET (R354): the records go to the device fault log, every supervisor task is discarded,
RTFAIL is set. -/
def execDeviceRuntimeReset (s : State) : Host.Outcome State Fault Refusal :=
  let fs := s.fatals.filter (·.sup)
  if fs.isEmpty then .next s
  else
    let s := { s with fatals := s.fatals.filter (!·.sup) }
    let s := (fs.map (·.record)).foldl State.postDevice s
    let s := s.discardOwner rtWindow
    .next { s with regs := { s.regs with rtfail := true } }

/-! ### The watchdog and soft errors (R327) -/

/-- Whether the watchdog watches a blocking word (R122, R168, R227). -/
def Wait.watched (w : Wait) : Bool :=
  match w with
  | .carve .. => false
  | _ => true

/-- Meaning of WDOG_EXPIRE: the word's request is withdrawn and the thread traps WDOG at the word. -/
def execWdogExpire (team tid : Nat) (s : State) : Host.Outcome State Fault Refusal :=
  .next (match s.team? team, s.thread? team tid with
    | some tm, some th =>
        let wdog := (s.tenant (ownerId tm.task.owner)).wdog.toNat
        match th.status with
        | .blocked b =>
            if tm.state = .run ∧ wdog ≠ 0 ∧ b.wait.watched ∧ b.since + 65536 * wdog < s.clock then
              (s.modThread team tid fun h => { h with arrivals := b.arrival.toList ++ h.arrivals }).trapBlocked team tid Cause.wdog.code b.opcode 0
            else s
        | _ => s
    | _, _ => s)

/-- Meaning of SOFT_ERROR: kind 0 is corrected and has no effect; the others raise MACHINE for the owner of the state. -/
def execSoftError (team : Nat) (kind : BitVec 2) (s : State) : Host.Outcome State Fault Refusal :=
  .next (match s.team? team with
    | some tm => if kind = 0 then s else s.raiseTask .machine kind.toNat tm.task.owner 0 tm.task.kernel tm.core tm.slot
    | none => s)

end Sys2Proof.Machine
end

