-- ==== Sys2Proof/Machine/Sched.lean ====
section
/-!
DEFINITION. The dispatcher (R285 to R302): the launch window, ranks and activation, grid tasks, placement, completion,
stealing, spilling, pressure; and stopping, saving and restoring teams for it (R46 to R49, R301, R337, R340).
-/

namespace Sys2Proof.Machine

/-! ### The launch window (R285 to R289) -/

/-- A sequence of a launch queue with its queue: LID, DEP0 or DEP1. -/
def lidQueue (w : Word) : Nat := (w.extractLsb' 24 4).toNat
/-- The sequence of a LID or dependence. -/
def lidSeq (w : Word) : Nat := (w.extractLsb' 0 24).toNat

/-- Whether sequence a is after sequence b in serial order (R288). -/
def seqAfter (a b : Nat) : Bool :=
  let d := (a + 2 ^ 24 - b) % 2 ^ 24
  1 ≤ d && d ≤ 8388607

/-- Whether a is b or after it. -/
def seqFrom (a b : Nat) : Bool := a == b || seqAfter a b

/-- V of a dependence. -/
def depValid (w : Word) : Bool := w.getLsbD 31

/-- Credits that a tenant holds: accepted launches, and those a stop has discarded. -/
def State.creditsUsed (s : State) (id : Nat) : Nat := (s.launches.filter (·.tenant = id)).length + (s.tenant id).lost

/-- CREDITS of a tenant. -/
def Tenant.credits (t : Tenant) : Nat := (t.ctrl.extractLsb' 3 9).toNat

/-- The window status word (R287). -/
def State.windowStatus (s : State) (id : Nat) : Word :=
  let t := s.tenant id
  BitVec.ofNat 32 ((t.credits - s.creditsUsed id) % 512 * 2 ^ 23 + t.lastdrop % 16 * 2 ^ 12 + t.drops % 4096)

/-- A record is dropped with a code. -/
def State.dropLaunch (s : State) (id code : Nat) : State :=
  s.modTenant id fun t => { t with drops := min 4095 (t.drops + 1), lastdrop := code }

/-- Queue `q` of a tenant. -/
def Tenant.queue (t : Tenant) (q : Nat) : Queue := t.queues.getD q Queue.fresh

/-- Whether a dependence of a tenant's launch is met (R289). -/
def State.depMet (s : State) (id : Nat) (d : Word) : Bool :=
  !depValid d ||
    (((s.tenant id).queue (lidQueue d)).last.any (fun a => seqFrom a (lidSeq d))
      && s.launches.all fun l => !(l.tenant == id && lidQueue l.lid == lidQueue d && seqFrom (lidSeq d) (lidSeq l.lid)))

/-- Launches of a tenant whose dependences have come to be met are ready from now on. -/
def State.markReady (s : State) (id : Nat) : State :=
  { s with launches := s.launches.map fun l =>
      if l.tenant = id ∧ l.readyAt = none ∧ s.depMet id l.dep0 ∧ s.depMet id l.dep1 then { l with readyAt := some s.clock } else l }

/-- DONESEQ of a queue: the sequence before its earliest launch that is not complete, or ACCSEQ (R355). -/
def State.doneSeq (s : State) (id q : Nat) (acc : Nat) : Nat :=
  let open' := (s.launches.filter fun l => l.tenant = id ∧ lidQueue l.lid = q).map fun l => lidSeq l.lid
  match open' with
  | [] => acc
  | x :: l => (l.foldl (fun m y => if seqAfter m y then y else m) x + 2 ^ 24 - 1) % 2 ^ 24

/-- Firmware updates a queue control block and copies it to its shadow (R355). -/
def State.updateQcb (s : State) (id q : Nat) : State :=
  let acc := ((s.tenant id).queue q).last.getD 0
  let done := s.doneSeq id q acc
  s.modTenant id fun t =>
    let k := t.queue q
    let gen := (k.gen ||| 1) + 1
    let k := { k with acc := BitVec.ofNat 32 acc, done := BitVec.ofNat 32 done, gen := gen
                      shadow := (gen, BitVec.ofNat 32 acc, BitVec.ofNat 32 done), before := k.last }
    { t with queues := t.queues.set q k }

/-- Meaning of LAUNCH_LATE. -/
def execLaunchLate (launch : Nat) (s : State) : Host.Outcome State Fault Refusal := .next (s.countLate launch)

/-- The ASID of a tenant's window (R27): the first valid user entry of the ASID table that names the tenant (log 26). -/
def State.windowAsid (s : State) (id : Nat) : Nat :=
  ((List.range 4096).find? fun a =>
    let pa := s.regs.asidtab.toNat + 16 * a + 8
    s.homeRead pa 2 == [BitVec.ofNat 8 id, 1]).getD 0

/-- The owner word of a window's launches (R27). -/
def State.windowOwner (s : State) (id : Nat) : Word :=
  if id = rtWindow then ownerWord true 0 (s.regs.rtasid.toNat % 4096) else ownerWord false id (s.windowAsid id)

/-- Checks 3 of R287. -/
def launchFieldsOk (b : List Byte) : Bool :=
  fieldAt b 16 4 != 0 && fieldAt b 20 4 != 0 && fieldAt b 24 4 != 0 && fieldAt b 56 8 == 0 && fieldAt b 40 4 / 2 ^ 28 == 0
    && fieldAt b 44 4 / 2 ^ 28 % 8 == 0 && fieldAt b 48 4 / 2 ^ 28 % 8 == 0

/-- The launch that a record describes (R286). -/
def launchOf (b : List Byte) (id tenant : Nat) (owner : Word) : Launch :=
  let w := fun o => BitVec.ofNat 32 (fieldAt b o 4)
  { id := id, tenant := tenant, kernel := BitVec.ofNat 64 (fieldAt b 0 8), arg := BitVec.ofNat 64 (fieldAt b 8 8), x := fieldAt b 16 4
    y := fieldAt b 20 4, z := fieldAt b 24 4, flags := w 28, join := BitVec.ofNat 64 (fieldAt b 32 8), lid := w 40, dep0 := w 44
    dep1 := w 48, deadline := w 52, owner := owner, readyAt := none, active := false, next := 0, live := 0, offer := none
    placedAt := 0, zeroAt := none, late := false, set := none }

/-- The code of the first check of R287 that a record fails. -/
def State.launchCheck (s : State) (id off : Nat) (b : List Byte) : Option Nat :=
  let t := s.tenant id
  let lid := BitVec.ofNat 32 (fieldAt b 40 4)
  let self := fun (d : Word) => depValid d && lidQueue d == lidQueue lid && seqFrom (lidSeq d) (lidSeq lid)
  if t.state ≠ .active ∧ t.state ≠ .preempted then some 6
  else if off % 64 ≠ 0 ∨ b.length ≠ 64 then some 1
  else if t.credits ≤ s.creditsUsed id then some 2
  else if !launchFieldsOk b then some 3
  else if ((t.queue (lidQueue lid)).last.any fun a => !seqAfter (lidSeq lid) a) then some 4
  else if self (BitVec.ofNat 32 (fieldAt b 44 4)) || self (BitVec.ofNat 32 (fieldAt b 48 4)) then some 5
  else none

/-- A write to a launch window (R285, R287): beyond the slots it is discarded; else it is accepted or dropped. What follows the
acceptance is given. -/
def State.windowThen (s : State) (id off : Nat) (b : List Byte) (next : State → Launch → State) : State :=
  if 0x800 ≤ off ∨ rtWindow < id ∨ s.phase ≠ .open then s
  else
    match s.launchCheck id off b with
    | some code => s.dropLaunch id code
    | none =>
        let (n, s) := s.newId
        let l := launchOf b n id (s.windowOwner id)
        let s := { s with launches := s.launches ++ [l] }
        next (s.modTenant id fun t =>
          { t with queues := t.queues.set (lidQueue l.lid) { t.queue (lidQueue l.lid) with last := some (lidSeq l.lid) } }) l

/-- A write to a launch window: firmware records an accepted launch, which may be ready or late at once. -/
def State.windowWrite (s : State) (id off : Nat) (b : List Byte) : State :=
  s.windowThen id off b fun s l => ((s.updateQcb id (lidQueue l.lid)).markReady id).countLate l.id

/-- A write to a launch window in whose recording firmware is cut short: GEN of the block is odd (R355, R356). -/
def State.windowCut (s : State) (id off : Nat) (b : List Byte) : State :=
  s.windowThen id off b fun s l => s.modTenant id fun t =>
    let q := lidQueue l.lid
    { t with queues := t.queues.set q { t.queue q with gen := (t.queue q).gen ||| 1, acc := BitVec.ofNat 32 (lidSeq l.lid) } }

/-- Meaning of LAUNCH_WINDOW_WRITE. -/
def execLaunchWindowWrite (window off : Nat) (data : List Byte) (s : State) : Host.Outcome State Fault Refusal :=
  .next (s.windowWrite window off data)

/-! ### Ranks and activation (R291 to R293) -/

/-- Whether a launch ranks before another: the lower rank, the earlier acceptance between equals (R292). -/
def State.ranksBefore (s : State) (x y : Launch) : Bool :=
  s.rankOf x < s.rankOf y || (s.rankOf x == s.rankOf y && x.id < y.id)

/-- Whether the dispatcher places anything for an owner number (R353). -/
def State.places (s : State) (id : Nat) : Bool := (s.tenant id).state == .active

/-- Whether a launch still has tasks to generate. -/
def Launch.open (l : Launch) : Bool := l.next < l.x * l.y * l.z

/-- The launch of lowest rank, the earlier acceptance between equals. -/
def State.lowest (s : State) (l : List Launch) : Option Launch :=
  l.foldl (fun m x => match m with
    | none => some x
    | some y => if s.rankOf x < s.rankOf y then some x else some y) none

/-- The launches that generate tasks. -/
def State.activeLaunches (s : State) : List Launch := s.launches.filter fun l => l.active && l.open

/-- The launch that becomes active next. -/
def State.toActivate (s : State) : Option Launch :=
  if s.activeLaunches.length < 8 then s.lowest (s.launches.filter fun l => !l.active && l.readyAt.isSome && s.places l.tenant) else none

/-- Changes a launch. -/
def State.modLaunch (s : State) (id : Nat) (f : Launch → Launch) : State :=
  { s with launches := s.launches.map fun l => if l.id = id then f l else l }

/-- A kernel boundary (R49, R199), at the end of a grid and at the start of one (R126): L1s of the tenant's dies are written back, every
invalidation on its way arrives, their cores' logical times pass every lease, and every constant cache is empty. -/
def State.kernelBoundary (s : State) (id : Nat) : State :=
  let dies := (s.tenant id).ranOn
  let cores := (s.cores.filter fun c => dies.contains (dieOfCore c.id)).map (·.id)
  let s := (cores.foldl (fun s c => (s.flushCore c).acquireCore c) s).settle
  { s with cores := s.cores.map fun (c : Core) => { c with consts := [] } }

/-- Meaning of LAUNCH_ACTIVATE. -/
def execLaunchActivate (s : State) : Host.Outcome State Fault Refusal :=
  .next (match s.toActivate with
    | some l => (s.kernelBoundary l.tenant).modLaunch l.id fun l => { l with active := true, placedAt := s.clock }
    | none => s)

/-! ### What can be placed where (R35, R294, R296, R338) -/

/-- Teams that count toward an owner's TEAMQ. -/
def State.quotaUsed (s : State) (id : Nat) : Nat :=
  (s.teams.filter fun t => ownerId t.task.owner = id ∧ s.ownRoom t).length

/-- Whether an owner is below its quota (R296). -/
def State.belowQuota (s : State) (id : Nat) : Bool := s.quotaUsed id < (s.tenant id).teamq.toNat % 2 ^ 14

/-- The kernel and the save slot with which a task can be placed on a core now. -/
def State.fitOn (s : State) (c : Nat) (t : Task) : Option (Kernel × Nat) :=
  match s.taskKernel t with
  | some k =>
      if s.fits c t k true then
        match s.askSlot t.owner (slotBytes k.threads k.load.granules) (s.slotsOf (ownerId t.owner)) with
        | .fits o => some (k, o)
        | _ => none
      else none
  | none => none

/-- Threads that reside on a core. -/
def State.threadsOn (s : State) (c : Nat) : Nat := ((s.teamsOn c).map (·.kern.threads)).sum

/-- The core of a cluster that a task takes among those that `ok` picks: the fewest resident threads, the lower slot between equals
(R294). -/
def State.coreBy (s : State) (ok : Nat → Bool) (cl : Nat) (t : Task) : Option Nat :=
  ([0, 1, 2, 3].map (4 * cl + ·)).foldl (fun m c =>
    if ok c && (s.fitOn c t).isSome then
      match m with
      | none => some c
      | some d => if s.threadsOn c < s.threadsOn d then some c else some d
    else m) none

/-- The core of a cluster that a task takes. -/
def State.coreFor (s : State) (cl : Nat) (t : Task) : Option Nat := s.coreBy (fun _ => true) cl t

/-- The clusters in the order of the dispatcher's scan. -/
def State.scan (s : State) : List Nat := (List.range 128).map fun i => (s.lastCluster + 1 + i) % 128

/-- The implicit task of a launch's next coordinate (R32), with a place in the order of offers. -/
def Launch.task (l : Launch) (order : Nat) : Task :=
  { kernel := l.kernel, arg := l.arg, x := BitVec.ofNat 32 (l.next % l.x), y := BitVec.ofNat 32 (l.next / l.x % l.y)
    z := BitVec.ofNat 32 (l.next / l.x / l.y), flags := l.flags, join := l.join, haul := 0, owner := l.owner
    deadline := l.deadline, addr := 0, order := order, launch := some l.id, landing := none, ldesc := 0, set := none, clus := 0 }

/-- Whether the four cores of a cluster, all of them among those that `ok` picks, can take the next set of a cluster-bound launch
(R45). -/
def State.setFits (s : State) (ok : Nat → Bool) (cl : Nat) (l : Launch) (t : Task) : Bool :=
  (List.range (min 4 (l.x * l.y * l.z - l.next))).all fun k =>
    ok (4 * cl + k) && (s.fitOn (4 * cl + k) { t with set := some (s.ids, k), clus := cl }).isSome

/-- Whether a team holds a tile of its cluster. -/
def State.holdsTile (s : State) (tm : Team) : Bool :=
  (s.cluster (clusOf tm.core)).tiles.any fun t => t.holder == some tm.id || t.queue.any (·.team == tm.id)

/-- Whether a team holds an open handle to a core landing (R144). -/
def State.holdsCoreLanding (s : State) (tm : Team) : Bool :=
  tm.handles.any fun h => h.any fun h => s.landings.any fun l => l.id == h.landing && !l.l2

/-- Whether a team can be restored only onto the cluster it left (R48, R144). -/
def State.bound' (s : State) (tm : Team) : Bool := tm.hasStream || s.holdsTile tm || s.holdsCoreLanding tm

/-- Whether the core slot and the cluster of a set let a stopped member be restored on a core: the set stays on its cluster while a
member runs or halts there, and can move once all are stopped (R45). -/
def State.setAllows (s : State) (tm : Team) (c : Nat) : Bool :=
  match tm.task.set with
  | none => true
  | some (_, k) => c % 4 == k && (clusOf c == tm.task.clus || (s.setOf tm).all fun t => t.state == .victim || t.state == .saved)

/-- The active launch of lowest rank that has placed nothing for 65,536 cycles while some core was free, for which cores drain
(R293). -/
def State.starved (s : State) : Option Launch :=
  (s.lowest (s.activeLaunches.filter fun l => s.places l.tenant)).filter fun l => max l.placedAt s.fullAt + 65536 ≤ s.clock

/-- The next member of a launch's set that stands already: its task, and the core that is its place. -/
def Launch.member (l : Launch) : Option (Task × Nat) :=
  l.set.bind fun x =>
    if 0 < x.2.2 ∧ x.2.2 < 4 then some ({ l.task 0 with set := some (x.1, x.2.2), clus := x.2.1 }, 4 * x.2.1 + x.2.2) else none

/-- Whether a launch's next task may stand on a core at all: on any, where it is no member of a set; on its place, where its set
stands; else on a core slot of the set to come (R45). -/
def Launch.mayUse (l : Launch) (c : Nat) : Bool :=
  !(l.task 0).cbound || match l.member with
    | some (_, k) => c == k
    | none => c % 4 < l.x * l.y * l.z - l.next

/-- Whether a core is kept for another launch than some task's: while a launch is starved, a core that its next task would fit once the
core had drained takes no task of another launch, and no team of one comes back to it (R293). -/
def State.kept (s : State) (c : Nat) (launch : Option Nat) : Bool :=
  match launch, s.starved with
  | some l, some x => x.id != l && x.mayUse c && match s.taskKernel (x.task 0) with
      | some k =>
          let fs := s.floors.filter (·.core = c)
          let z : Load := { teams := 0, threads := 0, granules := s.landingGranules c, bars := 0, lands := 0 }
          ((fs.foldl (fun l f => l.add f.need) z).add k.load).ok
      | none => false
  | _, _ => false

/-- Whether one stopped team can stand on a core again: in its floor reservation, or where it fits as any other team (R43, R340; log
63). -/
def State.canStand (s : State) (tm : Team) (c : Nat) : Bool :=
  let id := ownerId tm.task.owner
  (tm.state == .victim || tm.state == .saved) && !tm.susp && s.places id && c < 512 && !s.doomed tm
    && (!s.bound' tm || clusOf c == clusOf tm.core) && s.setAllows tm c && (s.die (dieOfCore c)).state == .up
    && (if s.floors.any (·.covers tm) then c == tm.core || s.belowQuota id else tm.state == .victim || s.belowQuota id)
    && (!tm.task.fuse || (s.cluster (clusOf c)).fused || s.clusterEmpty (clusOf c)) && s.takesBack tm c true
    && !s.kept c tm.task.launch

/-- The rank of a team's launch. -/
def State.teamRank (s : State) (tm : Team) : Nat :=
  ((s.launches.find? fun x => tm.task.launch = some x.id).map s.rankOf).getD 0

/-- Whether a stopped team whose launch ranks before another one's would fit on a core: it is placed first (R301). -/
def State.victimFirst (s : State) (c : Nat) (l : Launch) : Bool :=
  s.teams.any fun t => t.state != .run && t.state != .halt
    && (s.launches.any fun x => t.task.launch == some x.id && s.ranksBefore x l) && s.canStand t c

/-- Whether a core may take a launch's task: no victim of a launch that ranks before it fits there (R301), and the core is not kept for
another launch (R293). -/
def State.allows (s : State) (c : Nat) (l : Launch) : Bool := !s.victimFirst c l && !s.kept c (some l.id)

/-- Where the next task of a launch can go, on cores that may take it: the cluster, the task, and the state in which its set has a name. A set none of whose
members stands may still go to another cluster. -/
def State.offerFor (s : State) (l : Launch) : Option (Nat × Task × State) :=
  let (n, s') := s.newId
  let t := l.task n
  let ok := fun c => s.allows c l
  if !t.cbound then
    (s.scan.find? fun c => (s.coreBy ok c t).isSome).map fun c => (c, t, s')
  else
    match l.set with
    | some (id, c, k) =>
        if k = 0 then
          (if s.setFits ok c l t then some c else s.scan.find? fun c => s.setFits ok c l t).map fun c =>
            (c, { t with set := some (id, 0), clus := c }, s'.modLaunch l.id fun x => { x with set := some (id, c, 0) })
        else if k < 4 then
          let t := { t with set := some (id, k), clus := c }
          if ok (4 * c + k) && (s.fitOn (4 * c + k) t).isSome then some (c, t, s') else none
        else
          (s.scan.find? fun c => s.setFits ok c l t).map fun c =>
            let (id, s') := s'.newId
            (c, { t with set := some (id, 0), clus := c }, s'.modLaunch l.id fun x => { x with set := some (id, c, 0) })
    | none =>
        (s.scan.find? fun c => s.setFits ok c l t).map fun c =>
          let (id, s') := s'.newId
          (c, { t with set := some (id, 0), clus := c }, s'.modLaunch l.id fun x => { x with set := some (id, c, 0) })

/-- Whether an offer still stands: a core of the cluster takes the task. -/
def State.offerStands (s : State) (l : Launch) : Bool :=
  l.offer.any fun x => (s.coreBy (fun c => s.allows c l) x.1 x.2).isSome

/-- Whether a launch can have its next task generated and offered. -/
def State.canOffer (s : State) (l : Launch) : Bool :=
  l.active && l.open && s.places l.tenant && s.belowQuota l.tenant && !s.offerStands l && (s.offerFor l).isSome

/-- The state in which some teams have become victims. -/
def State.ifVictims (s : State) (who : List Team) : State :=
  { s with teams := s.teams.map fun (x : Team) => if who.any (·.id == x.id) then { x with state := .victim } else x }

/-- Whether a launch's next task fits a core, or will once the teams that halt on its cluster are victims. -/
def State.wantsCore (s : State) (l : Launch) (c : Nat) : Bool :=
  let s := s.ifVictims (s.teams.filter fun t => clusOf t.core == clusOf c && t.state == .halt && !t.stopped)
  if !(l.task 0).cbound then (s.fitOn c (l.task 0)).isSome
  else match l.member with
    | some (t, k) => c == k && (s.fitOn c t).isSome
    | none => decide (c % 4 < l.x * l.y * l.z - l.next) && s.setFits (fun _ => true) (clusOf c) l (l.task 0)

/-- Whether a launch that ranks before a team's, and that may place, has its next task to go to a core: the team comes back to it
after that task (R293, R301, log 129). -/
def State.outranked (s : State) (tm : Team) (c : Nat) : Bool :=
  (s.launches.any fun l => tm.task.launch == some l.id && s.activeLaunches.any fun x =>
    x.id != l.id && s.ranksBefore x l && s.places x.tenant && s.belowQuota x.tenant && s.wantsCore x c)

/-- Whether one stopped team can be restored on a core now: it can stand there, and nothing is to be placed there before it. -/
def State.canRestore (s : State) (tm : Team) (c : Nat) : Bool := s.canStand tm c && !s.outranked tm c

/-- An implicit task that breaks R25, R26 or R29, or whose save slot exceeds the whole pool, is fatal (R28, R338). -/
def State.badTask (s : State) (t : Task) : Option State :=
  if !(flagsOk t.flags && t.kernel.toNat % 64 == 0) then some (s.raiseTaskRec t)
  else
    match s.taskKernel t with
    | none => some (s.raiseTaskRec t)
    | some k =>
        match s.askSlot t.owner (slotBytes k.threads k.load.granules) (s.slotsOf (ownerId t.owner)) with
        | .never => some (s.raiseTask .savefail 0 t.owner (s.tenant (ownerId t.owner)).savepool t.kernel 0 0)
        | _ => none

/-- Generates the next implicit task of a launch and offers it to a cluster (R32, R293, R294). -/
def State.generate (s : State) (launch : Nat) : State :=
  match s.launches.find? (·.id = launch) with
  | some l =>
      if !(l.active && l.open && s.places l.tenant) then s
      else
        match s.badTask (l.task 0) with
        | some s => s
        | none =>
            let better := s.activeLaunches.filter fun x => s.ranksBefore x l && s.canOffer x
            if !s.canOffer l || !better.isEmpty then s
            else
              match s.offerFor l with
              | some (c, t, s) => { (s.seenKernel t).modLaunch l.id (fun x => { x with offer := some (c, t) }) with lastCluster := c }
              | none => s
  | none => s

/-- Meaning of GRID_TASK_GENERATE. -/
def execGridTaskGenerate (launch : Nat) (s : State) : Host.Outcome State Fault Refusal := .next (s.generate launch)

/-! ### Placement (R297, R298) -/

/-- The pressure of a task at the last sample (R298). -/
def State.pressureOf (s : State) (t : Task) : Nat :=
  if 1 ≤ t.stage ∧ t.stage ≤ 254 then
    (((s.tenant (ownerId t.owner)).pressure.filter fun x => x.1 = t.stage + 1).map (·.2)).sum
  else 0

/-- The deadline key of a task: every passed deadline counts as due now, 0 is latest (R297). -/
def State.dueKey (s : State) (t : Task) : Nat := if t.deadline = 0 then 2 ^ 32 else untilDue t.deadline s.unit

/-- Whether task x is better than task y by the keys of R297. -/
def State.betterTask (s : State) (x y : Task) : Bool :=
  y.prio < x.prio || (x.prio == y.prio && (s.pressureOf x < s.pressureOf y || (s.pressureOf x == s.pressureOf y &&
    (s.dueKey x < s.dueKey y || (s.dueKey x == s.dueKey y && y.order < x.order)))))

/-- The best of some tasks. -/
def State.bestTask (s : State) (l : List Task) : Option Task :=
  l.foldl (fun m x => match m with | none => some x | some y => if s.betterTask x y then some x else some y) none

/-- The tasks that step 2 of R297 may place on a core: of its cluster's deque and of the launches that offer one here. -/
def State.candidates (s : State) (c : Nat) : List Task :=
  let fit := fun (t : Task) => s.places (ownerId t.owner) && s.belowQuota (ownerId t.owner) && (s.fitOn c t).isSome
  let offers := s.activeLaunches.filterMap fun l => match l.offer with
    | some (cl, t) => if cl = clusOf c ∧ s.coreBy (fun c => s.allows c l) cl t = some c then some t else none
    | none => none
  ((s.cluster (clusOf c)).deque ++ offers).filter fit

/-- Every haul task in a deque or spill area, with its cluster. -/
def State.haulTasks (s : State) : List (Nat × Task) :=
  ((s.clusters.flatMap fun (c : Cluster) => c.deque.map fun t => (c.id, t)) ++
    (s.tenants.flatMap fun (x : Tenant) => x.spilled.map fun y => (y.cluster, y.task))).filter fun x => x.2.landing.isSome

/-- The earliest-formed haul task of a floor's stage, if the reservation is free and the task fits it (R246, R297). Two points that R246
and R257 leave open are the model's: a team that is suspended or saved keeps the reservation taken until it ends or comes back elsewhere
(log 121), and an earliest haul that does not fit a reservation made anew for a smaller kernel holds the later ones back (log 122). -/
def State.floorTask (s : State) (f : Floor) : Option (Task × Kernel × Nat) :=
  let busy := s.teams.any f.covers
  if busy || !s.places f.tenant || (s.die (dieOfCore f.core)).state != .up then none
  else
    let l := (s.haulTasks.map (·.2)).filter fun t => ownerId t.owner = f.tenant ∧ t.stage = f.stage
    match l.foldl (fun m x => match m with | none => some x | some y => if x.order < y.order then some x else some y) (none : Option Task) with
    | some t =>
        match s.taskKernel t with
        | some k =>
            let fits := k.load.sup f.need == f.need && (k.control == 0 || f.control)
            match s.askSlot t.owner (slotBytes k.threads k.load.granules) (s.slotsOf (ownerId t.owner)) with
            | .fits o => if fits then some (t, k, o) else none
            | _ => none
        | none => none
    | none => none

/-- Takes a queued task out of every deque and spill area. -/
def State.takeTask (s : State) (t : Task) : State :=
  { s with
    clusters := s.clusters.map (fun (c : Cluster) => { c with deque := c.deque.filter (·.order ≠ t.order) })
    tenants := s.tenants.map (fun (x : Tenant) => { x with spilled := x.spilled.filter (·.task.order ≠ t.order) }) }

/-- A launch has placed the task it offered. -/
def State.placedFor (s : State) (t : Task) : State :=
  match t.launch with
  | some id => s.modLaunch id fun l =>
      { l with offer := none, next := l.next + 1, live := l.live + 1, placedAt := s.clock
               set := l.set.map fun x => if t.cbound then (x.1, x.2.1, x.2.2 + 1) else x }
  | none => s

/-- The first task of a cluster's deque that can never run. -/
def State.deadTask (s : State) (cl : Nat) : Option Task :=
  (s.cluster cl).deque.find? fun t => s.places (ownerId t.owner) && (s.badTask t).isSome

/-- Fills a core that has room (R297): a floor haul, else the best task; a queued task that can never run is fatal. -/
def State.placeOn (s : State) (c : Nat) : State :=
  if s.phase ≠ .open then s
  else
    match s.deadTask (clusOf c) with
    | some t => ((s.takeTask t).badTask t).getD s
    | none =>
        match (s.floors.filter (·.core = c)).findSome? s.floorTask with
        | some (t, k, o) => s.startTeam c t k o true (·.takeTask t)
        | none =>
            match s.bestTask (s.candidates c) with
            | some t =>
                match s.fitOn c t with
                | some (k, o) =>
                    s.startTeam c t k o false fun s => if t.launch.isSome then s.placedFor t else s.takeTask t
                | none => s
            | none => s

/-- Meaning of TASK_PLACE. -/
def execTaskPlace (core : Nat) (s : State) : Host.Outcome State Fault Refusal := .next (s.placeOn core)

/-- Meaning of PRESSURE_SAMPLE: the sums of FILL by stage, once the clock has come to the next multiple of 1,024. -/
def execPressureSample (s : State) : Host.Outcome State Fault Refusal :=
  let sample := fun (id : Nat) => s.landings.filterMap fun l => match l.expert with
    | some e => if ownerId e.owner = id ∧ !l.released then some (e.stage, l.waiting.length) else none
    | none => none
  .next (if s.clock / 1024 ≤ s.tickPressure then s
    else { s with
      tenants := s.tenants.map (fun (t : Tenant) => { t with pressure := sample t.id })
      tickPressure := s.clock / 1024 })

/-! ### Completion (R33, R49) -/

/-- A task of a launch has completed; with the last one the grid completes, its credit returns and its queue's block is
updated. -/
def State.launchDown (s : State) (launch : Nat) : State :=
  match s.launches.find? (·.id = launch) with
  | some l =>
      let l := { l with live := l.live - 1 }
      if l.open || l.live != 0 then s.modLaunch launch fun _ => l
      else
        let s := (s.countLate launch).kernelBoundary l.tenant
        let s := { s with launches := s.launches.filter (·.id ≠ launch) }
        (s.updateQcb l.tenant (lidQueue l.lid)).markReady l.tenant
  | none => s

/-- Whether a task's join cell has its home out of service, so that its completion waits (R361). -/
def State.joinWaits (s : State) (tm : Team) : Bool :=
  tm.task.join != 0 && match s.homeAddr (ownerId tm.task.owner) tm.asid tm.task.join.toNat true with
    | some pa => !s.homeUp pa
    | none => false

/-- The join signal of a completed task (R33): a cell that cannot be decremented is JOINZERO (log 25). -/
def State.signalJoin (s : State) (tm : Team) : State :=
  let va := tm.task.join
  let no := fun (s : State) => s.raiseTask .joinzero 0 tm.task.owner va 0 tm.core tm.slot
  if va = 0 then s
  else if va.toNat % 128 ≠ 0 then no s
  else
    match s.place (tm.agent 0) va.toNat 128 .claim with
    | (s, .error _) => no s
    | (s, .ok (l, p)) =>
        match s.cellDown (tm.agent 0) l p with
        | (s, .zero) => no s
        | (s, .left) => s
        | (s, .done b) => s.createTask (clusOf tm.core) b (taskOf b tm.task.owner (va + 64) 0)

/-- Whether a task is complete: everyone has executed EXIT and nothing of it is outstanding (R33). -/
def State.finished (s : State) (tm : Team) : Bool :=
  (tm.state == .run || tm.state == .halt) && !tm.stopped && !s.dirtyDown tm && tm.threads.all (!·.live) && s.cmds.all (·.team != tm.id) && !s.matBusy tm
    && s.catts.all (·.team != tm.id) && s.groups.all (·.team != tm.id) && !s.joinWaits tm

/-- A task completes (R33). -/
def State.completeTask (s : State) (team : Nat) : State :=
  match s.team? team with
  | some tm =>
      if s.finished tm then
        let s := (s.retire tm).releaseTeam tm.core team
        let s := (s.signalJoin tm).discardTeam team
        let s := match tm.task.launch with | some l => s.launchDown l | none => s
        ((s.teamsOf (ownerId tm.task.owner)).map (·.id)).foldl State.checkCarve s
      else s
  | none => s

/-- Meaning of TASK_COMPLETE. -/
def execTaskComplete (team : Nat) (s : State) : Host.Outcome State Fault Refusal := .next (s.completeTask team)

/-! ### Stealing and spilling (R295, R299) -/

/-- The clusters that a thief tries, ring by ring. -/
def rings (thief : Nat) : List Nat :=
  let l := (List.range 127).map fun i => (thief + 1 + i) % 128
  l.filter (fun c => c / 4 = thief / 4) ++ l.filter (fun c => c / 4 ≠ thief / 4 ∧ c / 16 = thief / 16)
    ++ l.filter fun c => c / 16 ≠ thief / 16

/-- The oldest task of a victim's deque that suits a thief, with its core; a die that is not in service is no victim (R360). Where the
task fits several of the thief's cores R299 names none; the model takes the one with the fewest resident threads (log 126). -/
def State.suitable (s : State) (thief victim : Nat) : Option (Task × Nat) :=
  if (s.die (dieOfClus victim)).state ≠ .up then none else ((s.cluster victim).deque.filterMap fun t =>
    if s.places (ownerId t.owner) && s.belowQuota (ownerId t.owner) then (s.coreFor thief t).map fun c => (t, c) else none).foldl
    (fun m x => match m with | none => some x | some y => if x.1.order < y.1.order then some x else some y) none

/-- What a thief finds. -/
def State.loot (s : State) (thief : Nat) : Option (Task × Nat) := (rings thief).findSome? (s.suitable thief)

/-- Whether step 3 of R297 applies to a cluster: a core of it has room, none of its cores has a task of step 1 or 2, and 256 cycles
have passed since its last attempt. -/
def State.idle (s : State) (cl : Nat) : Bool :=
  (s.cluster cl).stealAt ≤ s.clock && ([0, 1, 2, 3].any fun i => s.coreFree (4 * cl + i)) && [0, 1, 2, 3].all fun i =>
    (s.candidates (4 * cl + i)).isEmpty && ((s.floors.filter (·.core = 4 * cl + i)).findSome? s.floorTask).isNone

/-- Meaning of CLUSTER_STEAL. -/
def execClusterSteal (thief : Nat) (s : State) : Host.Outcome State Fault Refusal :=
  .next (if s.phase = .open ∧ s.idle thief ∧ thief < 128 then
      let s' := s.modCluster thief fun c => { c with stealAt := s.clock + 256 }
      match s.loot thief with
      | some (t, c) =>
          match s.fitOn c t with
          | some (k, o) => s'.startTeam c t k o false (·.takeTask t)
          | none => s'
      | none => s'
    else s)

/-- The oldest record that was pushed to a cluster and spilled. -/
def State.oldestSpilled (s : State) (cl : Nat) : Option Spilled :=
  ((s.tenants.flatMap fun (x : Tenant) => x.spilled).filter (·.cluster = cl)).foldl (fun m x => match m with
    | none => some x
    | some y => if x.task.order < y.task.order then some x else some y) none

/-- Whether a cluster's deque takes a spilled record back: it has room, and its die is in service (R295, R360). -/
def State.takesSpilled (s : State) (cl : Nat) : Bool :=
  (s.cluster cl).deque.length < 1024 && (s.die (dieOfClus cl)).state == .up

/-- Meaning of DEQUE_SPILL_RETURN: the record comes back as the spill area holds it. -/
def execDequeSpillReturn (cluster : Nat) (s : State) : Host.Outcome State Fault Refusal :=
  .next (match s.oldestSpilled cluster with
    | some x =>
        if s.takesSpilled cluster then
          (s.takeTask x.task).modCluster cluster fun c => { c with deque := c.deque ++ [s.spilledTask x] }
        else s
    | none => s)

/-! ### Pre-emption, drain, save, restore (R46 to R48, R301, R337, R340) -/

/-- Whether the dispatcher may pre-empt one team for a launch (R301). -/
def State.preemptible (s : State) (l : Launch) (tm : Team) : Bool :=
  tm.state == .run && tm.task.launch.isSome && tm.task.landing.isNone && !tm.floor && !s.holdsTile tm && !s.holdsCoreLanding tm
    && ownerId tm.task.owner != l.tenant
    && (s.launches.any fun x => tm.task.launch == some x.id && s.rankOf l < s.rankOf x)

/-- The teams that are pre-empted with a team: the members of its set that run (R45). -/
def State.mates (s : State) (tm : Team) : List Team := (s.setOf tm).filter (·.state = .run)

/-- Inserts a team, the highest rank first. -/
def State.byRank (s : State) (t : Team) : List Team → List Team
  | [] => [t]
  | x :: l => if s.teamRank x < s.teamRank t then t :: x :: l else x :: s.byRank t l

/-- The fewest teams of a core, the highest rank first, whose pre-emption makes room for a task, each with its set. -/
def State.victimsOn (s : State) (l : Launch) (t : Task) (c : Nat) : Option (List Team) :=
  let order := ((s.teamsOn c).filter fun x => (s.mates x).all (s.preemptible l) && s.preemptible l x).foldl (fun m x => s.byRank x m) []
  (List.range (order.length + 1)).findSome? fun n =>
    let who := ((order.take n).flatMap s.mates).dedup
    if ((s.ifVictims who).fitOn c t).isSome then some who else none

/-- The teams whose pre-emption makes room for the first set of a cluster-bound launch on a cluster: core after core, those that the
cores need (R45, R301; log 102). -/
def State.victimsOnSet (s : State) (l : Launch) (cl : Nat) : Option (List Team) :=
  (List.range (min 4 (l.x * l.y * l.z - l.next))).foldl (fun (m : Option (List Team)) k => m.bind fun w =>
    ((s.ifVictims w).victimsOn l { l.task 0 with set := some (s.ids, k), clus := cl } (4 * cl + k)).map (w ++ ·)) (some [])

/-- Whether the dispatcher pre-empts teams for a launch: it has been active with rank 0 for 65,536 cycles and has placed nothing
meanwhile, and no offer stands. -/
def State.mayPreempt (s : State) (l : Launch) : Bool :=
  l.active && l.open && s.places l.tenant && s.belowQuota l.tenant && l.placedAt + 65536 ≤ s.clock
    && s.rankOf l == 0 && l.zeroAt.any (· + 65536 ≤ s.clock) && !s.canOffer l && !s.offerStands l
    && s.teams.all fun t => t.state != .halt

/-- The teams to pre-empt for a launch's next task: those of the core that needs the fewest, the lowest number between equals; none
where a core needs none. -/
def State.preemptPlan (s : State) (l : Launch) : Option (List Team) :=
  let plans := match l.member with
    | some (t, c) => [s.victimsOn l t c]
    | none =>
        if (l.task 0).cbound then (List.range 128).map (s.victimsOnSet l) else (List.range 512).map (s.victimsOn l (l.task 0))
  plans.foldl (fun m v =>
    match v with
    | none => m
    | some v => match m with
        | none => some v
        | some w => if v.length < w.length then some v else some w) none

/-- Meaning of PREEMPT_FOR_LAUNCH. -/
def execPreemptForLaunch (launch : Nat) (s : State) : Host.Outcome State Fault Refusal :=
  .next (match s.launches.find? (·.id = launch) with
    | some l =>
        if s.mayPreempt l then
          match s.preemptPlan l with
          | some v => v.foldl (fun s t => s.haltTeam t.id) s
          | none => s
        else s
    | none => s)

/-- The jobs of the TALLOCs that a team has queued, and of the words that wait for their grants: no outstanding results
for R46 (R227). -/
def State.queuedJobs (s : State) (tm : Team) : List Nat :=
  (s.cluster (clusOf tm.core)).tiles.flatMap fun t => t.queue.flatMap fun r =>
    if r.team = tm.id then r.job :: r.after.map (·.job) else []

/-- Whether a thread does not hold its halted team back: it stands at a clause or a word, and has nothing outstanding, or was blocked
in a word (R46, R221). -/
def Thread.settled (jobs : List Nat) (h : Thread) : Bool :=
  match h.status with
  | .issuing | .trapped _ => false
  | .blocked _ => true
  | _ => h.exempt || h.pend.all fun p => p.hold.any jobs.contains

/-- Whether a halted team has drained: its threads, its RSRINGs (R271), its CATTs and the commands on its scratchpad (R46, R316). -/
def State.drainedTeam (s : State) (tm : Team) : Bool :=
  tm.state == .halt && tm.threads.all (Thread.settled (s.queuedJobs tm)) && s.groups.all (·.team != tm.id) && !s.scrMoves tm
    && s.catts.all (·.team != tm.id) && tm.rings.all fun r => match r.state with | .loading _ => false | _ => true

/-- Meaning of TEAM_DRAIN_COMPLETE: the team becomes a victim, or is discarded where its owner was stopped (R337). -/
def execTeamDrainComplete (team : Nat) (s : State) : Host.Outcome State Fault Refusal :=
  .next (match s.team? team with
    | some tm =>
        if !s.drainedTeam tm then s
        else if tm.stopped then ((s.cmds.filter (·.team = team)).foldl (fun (s : State) c => s.finishCmd c []) s).discardTeam team
        else (s.withdrawTeam team).setTeamState team fun t => { t with state := .victim, since := s.clock }
    | none => s)

/-- Meaning of TEAM_SAVE. -/
def execTeamSave (team : Nat) (s : State) : Host.Outcome State Fault Refusal := .next (s.saveTeam team)

/-- The core on which a member of a set stands when another member stands on core `c`. -/
def memberCore (c : Nat) (tm : Team) : Nat := match tm.task.set with | some (_, k) => clusOf c * 4 + k | none => c

/-- Restores some teams, one after another, each where it can be; the state in which one could not be. -/
def State.restoreAll (s : State) (c : Nat) : List Nat → Except State State
  | [] => .ok s
  | id :: l =>
      match s.team? id with
      | some t =>
          let c' := memberCore c t
          if s.canRestore t c' then
            let s := s.restoreTeam id c'
            if (s.team? id).any (·.state == .run) then s.restoreAll c l else .error s
          else .error s
      | none => .error s

/-- A team and the stopped members of its set are restored together or not at all, the set on the cluster of the core where none of
it runs (R45, R340); what is left of an attempt that fails is the fatal cause of a slot that could not be read. -/
def State.restoreSet (s : State) (team c : Nat) : State :=
  match s.team? team with
  | some tm =>
      let l := (s.setOf tm).filter (·.state ≠ .run)
      let moved := match tm.task.set with | some (id, _) => if l.length = (s.setOf tm).length then s.moveSet id (clusOf c) else s | none => s
      match moved.restoreAll c (l.map (·.id)) with
      | .ok s => s.wakeMat (clusOf c)
      | .error s' => { s with fatals := s'.fatals }
  | none => s

/-- Meaning of TEAM_RESTORE. -/
def execTeamRestore (team core : Nat) (s : State) : Host.Outcome State Fault Refusal := .next (s.restoreSet team core)

end Sys2Proof.Machine
end

