-- ==== Sys2Proof/Machine/Time.lean ====
section
/-!
DEFINITION. Logical time, write-backs, epochs and retention sleep (R191 to R198), and page walks (R346).
-/

namespace Sys2Proof.Machine

/-- Meaning of CTIME_TICK (R191): every 256 cycles each awake core's logical time advances by 1. -/
def execCtimeTick (s : State) : Host.Outcome State Fault Refusal :=
  .next (if s.clock / 256 ≤ s.tickCtime then s
    else
      { s with
        cores := s.cores.map (fun (c : Core) => if c.asleep.isNone then { c with ctime := c.ctime + 1 } else c)
        dies := (List.range 8).map fun d => let x := s.die d; { x with idle := x.idle + 1 }
        tickCtime := s.tickCtime + 1 })

/-- Meaning of L1_WRITEBACK (R195): the dirty bytes of a line reach their home. -/
def execL1Writeback (core line : Nat) (s : State) : Host.Outcome State Fault Refusal :=
  .next (s.writeBackLine core (lineOf line) fun _ => true)

/-- Whether the next tick would take a logical time of a die past the limit (R197); a lease or a stamp that would pass it makes room
for itself (State.roomFor). -/
def State.epochDue (s : State) (die : Nat) : Bool :=
  epochLimit ≤ (s.die die).idle || s.cores.any fun c => dieOfCore c.id == die && c.asleep.isNone && epochLimit ≤ c.ctime

/-- Meaning of EPOCH_CHANGE (R197): every stamp of the die reads as 0 of the new epoch, and every home has retagged its
lines before the next change. -/
def execEpochChange (die : Nat) (s : State) : Host.Outcome State Fault Refusal :=
  .next (if s.epochDue die then s.changeEpoch die else s)

/-- Meaning of CORE_SLEEP (R198): a core that holds no team writes back every dirty byte and sleeps. -/
def execCoreSleep (core : Nat) (s : State) : Host.Outcome State Fault Refusal :=
  .next (if (s.teamsOn core).isEmpty && (s.core core).asleep.isNone then
      let s := s.flushCore core
      if (s.core core).lines.all (·.dirty.isEmpty) then
        s.modCore core fun c => { c with asleep := some (s.die (dieOfCore core)).epoch }
      else s
    else s)

/-- Meaning of CORE_WAKE. -/
def execCoreWake (core : Nat) (s : State) : Host.Outcome State Fault Refusal := .next (s.wakeCore core)

/-- Meaning of PAGE_WALK (R346): the walk for an address that a team of a core asks for in its address space. -/
def execPageWalk (core asid va : Nat) (s : State) : Host.Outcome State Fault Refusal :=
  .next (match (s.teamsOn core).find? fun t => t.asid = asid with
    | some t => (s.pageWalk core false (ownerId t.task.owner) asid va false).1
    | none => s)

end Sys2Proof.Machine
end

