-- ==== Sys2Proof/Machine/System.lean ====
section
/-!
DEFINITION. The module in its system (R349 to R372): registers and tenant blocks, tenant commands, warm reset of a die,
the fabric, boot, attestation and management, fatal events and power.
-/

namespace Sys2Proof.Machine

/-! ### Register writes (R290, R291, R351, R352) -/

/-- A register of `len` bytes at offset `at'` after a write of bytes at an offset. -/
def mergeBytes (old at' len off : Nat) (data : List Byte) : Nat :=
  leNat ((List.range len).map fun i =>
    if off ≤ at' + i ∧ at' + i < off + data.length then data.getD (at' + i - off) 0 else BitVec.ofNat 8 (old / 256 ^ i))

/-- Whether a write touches a register. -/
def touches (at' len off : Nat) (data : List Byte) : Bool := off < at' + len && at' < off + data.length

/-- A PF write to the module registers: ASIDTAB, FLAND, DEVLOG, DUMPBASE, CMD, PCAP and RTASID, and a 1 written to RTFAIL clears it
(R354); a PCAP outside its range is ignored (log 27). The low bits of ASIDTAB and DUMPBASE, which the manual aligns, are not kept (log
127). -/
def ModRegs.write (r : ModRegs) (off : Nat) (data : List Byte) : ModRegs :=
  let new := fun (old at' len : Nat) => mergeBytes old at' len off data
  let cap := new r.pcap.toNat 0x30 4
  { r with
    asidtab := BitVec.ofNat 64 (new r.asidtab.toNat 0x00 8 / 65536 * 65536)
    fland := BitVec.ofNat 64 (new r.fland.toNat 0x08 8)
    devlog := BitVec.ofNat 64 (new r.devlog.toNat 0x10 8)
    dumpbase := BitVec.ofNat 64 (new r.dumpbase.toNat 0x18 8 / 4096 * 4096)
    cmd := BitVec.ofNat 32 (new r.cmd.toNat 0x20 4 % 2 ^ 7)
    rtfail := r.rtfail && new 0 0x2C 4 % 2 = 0
    pcap := if 6000 ≤ cap ∧ cap ≤ 10000 then BitVec.ofNat 32 cap else r.pcap
    rtasid := BitVec.ofNat 32 (new r.rtasid.toNat 0x38 4 % 4096) }

/-- A PF write to a tenant block: the scheduling block and the fields of R352; FLOGBASE, SAVEPOOL and SAVEBYTES only while
the tenant is ABSENT or STOPPED. The low bits of SPILL and SAVEPOOL, which the manual aligns, are not kept (log 127). -/
def Tenant.write (t : Tenant) (off : Nat) (data : List Byte) : Tenant :=
  let new := fun (old at' len : Nat) => mergeBytes old at' len off data
  let quiet := t.state == .absent || t.state == .stopped
  let pool := fun (old : DWord) (x : Nat) => if quiet then BitVec.ofNat 64 x else old
  { t with
    ctrl := BitVec.ofNat 32 (new t.ctrl.toNat 0 4 % 2 ^ 12)
    teamq := BitVec.ofNat 32 (new t.teamq.toNat 4 4 % 2 ^ 14)
    spill := BitVec.ofNat 64 (new t.spill.toNat 8 8 / 4096 * 4096)
    spilln := BitVec.ofNat 32 (new t.spilln.toNat 16 4 % 2 ^ 25)
    rank := t.rank.zipIdx.map fun x => BitVec.ofNat 32 (new x.1.toNat (32 + 4 * x.2) 4) &&& 0xFFF801FF#32
    flog := pool t.flog (new t.flog.toNat 64 8)
    savepool := pool t.savepool (new t.savepool.toNat 72 8 / 4096 * 4096)
    savebytes := pool t.savebytes (new t.savebytes.toNat 80 8)
    wdog := BitVec.ofNat 32 (new t.wdog.toNat 88 4) }

/-- Meaning of RTFAIL_CLEAR (R354). -/
def execRtfailClear (s : State) : Host.Outcome State Fault Refusal := .next { s with regs := { s.regs with rtfail := false } }

/-! ### Tenant commands (R353) -/

/-- BUSY of a tenant: it is pre-empted and a team of it is not yet saved, or its reset waits for teams to drain. -/
def State.tenantBusy (s : State) (id : Nat) : Bool :=
  ((s.tenant id).state == .preempted && (s.teamsOf id).any fun t => t.state != .saved) || (s.tenant id).state == .resetting

/-- ENABLE; in RETIRED no tenant can be enabled (R364). -/
def State.enableTenant (s : State) (tenant : Nat) : State :=
  if tenant < 64 ∧ s.phase = .open ∧ s.polfel.life ≠ .retired ∧ (s.tenant tenant).state = .absent then
    s.modTenant tenant fun t => { t with state := .active }
  else s

/-- Meaning of TENANT_ENABLE. -/
def execTenantEnable (tenant : Nat) (s : State) : Host.Outcome State Fault Refusal := .next (s.enableTenant tenant)

/-- PREEMPT: every team of the tenant halts, to be saved. -/
def State.preemptTenant (s : State) (tenant : Nat) : State :=
  if tenant < 64 ∧ (s.tenant tenant).state = .active then
    let s := s.modTenant tenant fun t => { t with state := .preempted }
    (s.teamsOf tenant).foldl (fun s t => s.haltTeam t.id) s
  else s

/-- Meaning of TENANT_PREEMPT. -/
def execTenantPreempt (tenant : Nat) (s : State) : Host.Outcome State Fault Refusal := .next (s.preemptTenant tenant)

/-- RESUME: the tenant's saved teams, those that only its save slots hold among them, can be restored (R353, R369). -/
def State.resumeTenant (s : State) (tenant : Nat) : State :=
  if (s.tenant tenant).state = .preempted && !s.tenantBusy tenant then
    (s.modTenant tenant fun t => { t with state := .active }).revive tenant
  else s

/-- Meaning of TENANT_RESUME. -/
def execTenantResume (tenant : Nat) (s : State) : Host.Outcome State Fault Refusal := .next (s.resumeTenant tenant)

/-- A tenant's landings are released, in whatever state they are (R353). -/
def State.releaseAll (s : State) (id : Nat) : State :=
  let l := s.landings.filter (·.tenant = id)
  let s := l.foldl (fun s x => s.releaseLanding x.id) s
  { s with landings := s.landings.filter (·.tenant ≠ id) }.trimFloors

/-- Whether an ASID entry is valid and a tenant's (R345). -/
def State.asidOf (s : State) (id asid : Nat) : Bool :=
  let b := s.homeRead (s.regs.asidtab.toNat + 16 * asid + 8) 2
  (b.getD 1 0).getLsbD 0 && !(b.getD 1 0).getLsbD 1 && (b.headD 0).toNat == id

/-- An L1 line without what a tenant has in it: its dirty bytes, and the bytes fetched under its addresses. -/
def L1Line.scrub (mine : Nat → Bool) (x : L1Line) : L1Line :=
  let dirty := x.dirty.filter fun d => !d.writers.all fun w => mine (w.2 / 2 ^ 48)
  if x.vas.any fun v => mine (v / 2 ^ 48) then { x with data := List.replicate 64 0, lease := none, vas := [], dirty := dirty }
  else { x with dirty := dirty }

/-- The core arrays hold nothing of a tenant any more (R353). -/
def State.scrubCores (s : State) (id : Nat) : State :=
  let mine := s.asidOf id
  { s with cores := s.cores.map fun (c : Core) =>
      { c with lines := (c.lines.map (L1Line.scrub mine)).filter fun x => x.lease.isSome || !x.dirty.isEmpty, consts := [] } }

/-- What tenant reset does after the stop (R353). -/
def State.scrubTenant (s : State) (id : Nat) : State :=
  let s := (((s.dropTlb (fun e => e.tenant == id) fun w => w.tenant == id).scrubCores id).releaseAll id)
  let s := (s.bindings.filter (·.tenant = id)).foldl State.unbind s
  let s := { s with clusters := s.clusters.map fun (c : Cluster) =>
    { c with squares := c.squares.filter (·.tenant ≠ id) } }
  s.modTenant id fun t =>
    { t with state := .absent, tcmd := 0, drops := 0, lastdrop := 0, lost := 0, late := 0, queues := List.replicate 16 Queue.fresh
             spilled := [], pressure := [], ranOn := [] }

/-- RESET: the tenant is stopped, which halts its running teams and posts the fatal causes that have been raised (R335); once the teams
have drained and are gone, the scrub ends the reset. -/
def State.resetTenant (s : State) (tenant : Nat) : State :=
  let st := (s.tenant tenant).state
  if 64 ≤ tenant ∨ st = .absent ∨ (st = .preempted ∧ s.tenantBusy tenant = true) then s
  else
    let records := (s.fatalsOf tenant).map (·.record)
    let s := { s with fatals := s.fatals.filter fun f => !(!f.sup && f.tenant == tenant) }
    let s := if st = .stopped ∨ st = .resetting then s else s.stopTenant tenant records
    if (s.teamsOf tenant).isEmpty then s.scrubTenant tenant
    else s.modTenant tenant fun t => { t with state := .resetting }

/-- Meaning of TENANT_RESET. -/
def execTenantReset (tenant : Nat) (s : State) : Host.Outcome State Fault Refusal := .next (s.resetTenant tenant)

/-- A PF write to TCTRL: the command is kept and carried out; while BUSY the write is ignored. -/
def State.tctrl (s : State) (id x : Nat) : State :=
  if s.tenantBusy id ∨ 64 ≤ id then s
  else
    let s := s.modTenant id fun t => { t with tcmd := BitVec.ofNat 3 x }
    match x % 8 with
    | 1 => s.enableTenant id
    | 2 => s.preemptTenant id
    | 3 => s.resumeTenant id
    | 4 => s.resetTenant id
    | _ => s

/-- Code of STATE in TCTRL. -/
def TenantState.code : TenantState → Nat
  | .absent => 0 | .active => 1 | .preempted => 2 | .stopped => 3 | .resetting => 4

/-- The TCTRL word: STATE reads PREEMPTED once every team is in its save slot, and ACTIVE until then (R353, R369). -/
def State.tctrlWord (s : State) (id : Nat) : Word :=
  let st := (s.tenant id).state
  let st := if st = .preempted ∧ s.tenantBusy id then .active else st
  BitVec.ofNat 32 ((s.tenantBusy id).toNat * 2 ^ 31 + st.code * 2 ^ 8 + (s.tenant id).tcmd.toNat)

/-! ### Warm reset of a die (R360, R361) -/

/-- Starts the drain of a die: nothing new is placed there, and its teams are halted to be saved, but for those that are
kept on their cluster. -/
def State.startDrain (s : State) (die : Nat) : State :=
  let s := s.modDie die fun d => { d with state := .draining s.clock }
  (s.teams.filter fun t => dieOfCore t.core = die ∧ t.resident ∧ s.bound' t = false).foldl
    (fun s t => (s.setOf t).foldl (fun s x => if s.bound' x then s else s.haltTeam x.id) s) s

/-- DIERESET: refused while another die is out of service. A die that is out of service itself, since a link of it failed, is reset and
retrained from where it stands, and returns unless a link fails again (R359, R360); one that a DIERESET has taken already goes on. -/
def State.dieReset (s : State) (die : Nat) : State :=
  let regs := { s.regs with cmd := BitVec.ofNat 32 (die % 8 * 16 + 1) }
  if s.phase ≠ .open ∨ 8 ≤ die then s
  else if s.dies.any fun d => d.id != die && d.state != .up then { s with regs := { regs with cmdResult := 1 } }
  else
    let s : State := { s with regs := { regs with cmdBusy := true, cmdResult := 0 } }
    (if (s.die die).state = .up then s.startDrain die else s).modDie die fun d => { d with warm := true, lost := false }

/-- Meaning of DIERESET. -/
def execDiereset (die : Nat) (s : State) : Host.Outcome State Fault Refusal := .next (s.dieReset die)

/-- The CMDSTAT word. -/
def ModRegs.cmdstat (r : ModRegs) : Word := BitVec.ofNat 32 (r.cmdBusy.toNat * 2 ^ 31 + r.cmdResult % 16)

/-- A PF write to the module registers, with the command that a write to CMD names. -/
def State.moduleWrite (s : State) (off : Nat) (data : List Byte) : State :=
  let regs := s.regs.write off data
  let s : State := { s with regs := regs }
  if touches 0x20 4 off data && regs.cmd.toNat % 16 == 1 then s.dieReset (regs.cmd.toNat / 16 % 8) else s

/-- A PF write to tenant block `id` at an offset in it. -/
def State.blockWrite (s : State) (id off : Nat) (data : List Byte) : State :=
  let s := s.modTenant id fun t => t.write off data
  if touches 96 4 off data then s.tctrl id (mergeBytes (s.tenant id).tcmd.toNat 96 4 off data) else s

/-- Meaning of REGISTER_WRITE: a PF write to a module register, the runtime's launch window or a tenant block. -/
def execRegisterWrite (off : Nat) (data : List Byte) (s : State) : Host.Outcome State Fault Refusal :=
  .next (if s.phase ≠ .open then s
    else if off < 0x1000 then s.moduleWrite off data
    else if off < 0x2000 then s.windowWrite rtWindow (off - 0x1000) data
    else if 0x8000 ≤ off ∧ off < 0x10000 then s.blockWrite ((off - 0x8000) / 512) ((off - 0x8000) % 512) data
    else s)

/-! ### Register reads (R285, R350 to R355) -/

/-- A word of a launch window: the status, zeros behind it, and a free value where a slot is read (R285). -/
def State.windowWord (s : State) (id off : Nat) : Word :=
  if off / 4 * 4 = 0x800 then s.windowStatus id else if 0x800 < off then 0 else Config.freeWord s.fresh

/-- Word `k` of a 64-bit field. -/
def half (x : DWord) (k : Nat) : Word := x.extractLsb' (32 * k) 32

/-- A word of the module registers. -/
def State.moduleWord (s : State) (off : Nat) : Word :=
  let r := s.regs
  match off / 4 with
  | 0 => half r.asidtab 0 | 1 => half r.asidtab 1
  | 2 => half r.fland 0 | 3 => half r.fland 1
  | 4 => half r.devlog 0 | 5 => half r.devlog 1
  | 6 => half r.dumpbase 0 | 7 => half r.dumpbase 1
  | 8 => r.cmd | 9 => r.cmdstat
  | 10 => BitVec.ofNat 32 r.devnum | 11 => BitVec.ofNat 32 r.rtfail.toNat
  | 12 => r.pcap | 13 => r.power | 14 => r.rtasid
  | n => if 16 ≤ n ∧ n < 24 then (s.die (n - 16)).eol else Config.freeWord s.fresh

/-- A word of a tenant block. -/
def State.blockWord (s : State) (id off : Nat) : Word :=
  let t := s.tenant id
  let n := off / 4
  match n with
  | 0 => t.ctrl | 1 => t.teamq
  | 2 => half t.spill 0 | 3 => half t.spill 1
  | 4 => t.spilln
  | 16 => half t.flog 0 | 17 => half t.flog 1
  | 18 => half t.savepool 0 | 19 => half t.savepool 1
  | 20 => half t.savebytes 0 | 21 => half t.savebytes 1
  | 22 => t.wdog | 23 => t.late | 24 => s.tctrlWord id
  | n =>
      if 8 ≤ n ∧ n < 12 then t.rank.getD (n - 8) 0
      else if 64 ≤ n then
        let q := t.queue ((n - 64) / 4)
        match n % 4 with
        | 0 => q.gen | 1 => q.acc | 2 => q.done | _ => 0
      else 0

/-- What a read of a word of a function's BAR0 gives (R350): VF n + 1 shows tenant n's launch window; what the manual describes no
reading of is free. -/
def State.barWord (s : State) (function off : Nat) : Word :=
  if function ≠ 0 then s.windowWord (function - 1) off
  else if off < 0x1000 then s.moduleWord off
  else if off < 0x2000 then s.windowWord rtWindow (off - 0x1000)
  else if 0x8000 ≤ off ∧ off < 0x10000 then s.blockWord ((off - 0x8000) / 512) ((off - 0x8000) % 512)
  else Config.freeWord s.fresh

/-- A function's BAR0 is read. -/
def State.barRead (s : State) (function off : Nat) : State :=
  if s.phase = .open ∧ function ≤ 64 ∧ off < (if function = 0 then 0x10000 else 0x1000) then
    { s with fresh := s.fresh + 1 }.reply (.word function off (s.barWord function off))
  else s

/-- Whether some location of an engine command is homed on a die. -/
def State.cmdOn (s : State) (die : Nat) (c : EngCmd) : Bool :=
  let here := fun (x : Seg) => match x.loc with
    | .scr _ _ => false
    | l => s.isLocal (s.paOf l) && dieOfClus (homeOf (s.paOf l)) == die
  dieOfCore c.core == die || c.runs.any (fun r => r.src.any here || r.dst.any here) || c.signals.any fun x => x.dst.any here

/-- The deque records of a die's clusters go to their tenants' spill areas; one that finds its area full stops its tenant
with DEQUEFULL (R295, R360). -/
def State.spillDeques (s : State) (die : Nat) : State :=
  let l := (s.clusters.filter fun c => dieOfClus c.id = die).flatMap fun (c : Cluster) => c.deque.map fun t => (c.id, t)
  let s := { s with clusters := s.clusters.map fun (c : Cluster) => if dieOfClus c.id = die then { c with deque := [] } else c }
  l.foldl (fun (s : State) (x : Nat × Task) =>
    (s.spillTask x.1 x.2).getD (s.raiseTask .dequefull 0 x.2.owner (BitVec.ofNat 64 x.1) x.2.kernel 0 0)) s

/-- A cluster whose logic was reset (R360). -/
def Cluster.cleared (c : Cluster) : Cluster :=
  { c with fused := false, tiles := [], squares := [], banks := [], tlb := [], lastStream := 0 }

/-- The rest of a warm reset once the drain has ended: commands that name the die complete, queued records move out, the die's own
cores write back what is dirty in them (a dirty byte elsewhere stays, R361), guest copies of the lines homed there are dropped, and
the die's own units are cleared (R360). -/
def State.takeDown (s : State) (die : Nat) : State :=
  let s := (s.cmds.filter (s.cmdOn die)).foldl (fun (s : State) c => s.finishCmd c []) s
  let s := (s.teams.filter fun t => dieOfCore t.core = die ∧ t.state = .victim).foldl (fun s t => s.saveTeam t.id) s
  let s := s.spillDeques die
  let s := ((s.cores.map (·.id)).filter fun c => dieOfCore c = die).foldl (fun s c => s.flushCore c) s
  let lines := (s.stamps.filter fun x => x.die.isSome && dieOfClus (homeOf x.pa) == die).map (·.pa)
  let s := lines.foldl State.dropGuests s
  let s := { s with
    stamps := s.stamps.filter fun x => !x.on die
    cores := s.cores.filter fun c => dieOfCore c.id ≠ die
    clusters := s.clusters.map fun (c : Cluster) => if dieOfClus c.id = die then c.cleared else c }
  s.modDie die fun d => { d with state := .down, epoch := 0, idle := 0, floor := 0, regions := [], walks := [] }

/-- The cycles of the 10 ms that a drain may take, at 1.5 GHz. -/
def drainCycles : Nat := 15000000

/-- The teams of a die that still run. -/
def State.stillOn (s : State) (die : Nat) : List Team :=
  s.teams.filter fun t => dieOfCore t.core = die ∧ (t.state = .run ∨ t.state = .halt)

/-- Meaning of DIE_DRAIN_TIMEOUT: once 10 ms have passed, the tasks that still run stop their tenants with KILLED, DETAIL
6; with none left, or after the tenants' stop, the die is taken down. -/
def execDieDrainTimeout (die : Nat) (s : State) : Host.Outcome State Fault Refusal :=
  .next (match (s.die die).state with
    | .draining since =>
        let l := s.stillOn die
        if l.isEmpty then s.takeDown die
        else if since + drainCycles ≤ s.clock then
          let owners := ((l.filter (!·.stopped)).map fun t => ownerId t.task.owner).dedup
          let s := owners.foldl (fun s id =>
            match l.find? fun t => ownerId t.task.owner = id && !t.stopped with
            | some t =>
                let rec' := faultRecord (fatalWord .killed 6 0 false) t.task.owner 0 0 0 t.core t.slot t.task.kernel 0 s.clock
                if id = rtWindow then s.raise t.task.owner rec' else s.stopTenant id [rec']
            | none => s) s
          if (s.stillOn die).isEmpty then s.takeDown die else s
        else s
    | _ => s)

/-- Whether a die that is down comes back: no link of it has failed retraining (R359). -/
def Die.returns (d : Die) : Bool := d.state == .down && !d.lost

/-- The dirty bytes of lines that are homed on a die reach their homes. -/
def State.flushTo (s : State) (die : Nat) : State :=
  s.cores.foldl (fun (s : State) c =>
    ((c.lines.filter fun x => homeDie x.pa = die).map (·.pa)).foldl (fun s pa => s.writeBackLine c.id pa fun _ => true) s) s

/-- Meaning of DIE_READMIT: a die that returned serves again, and what waited dirty for its homes goes there (R361). -/
def execDieReadmit (die : Nat) (s : State) : Host.Outcome State Fault Refusal :=
  .next (if (s.die die).returns then
      ({ s with regs := { s.regs with cmdBusy := false, cmdResult := 0 } }.modDie die fun d => { d with state := .up, warm := false }).flushTo die
    else s)

/-- Meaning of DIE_LINK_FAIL (R359): the die is taken out of service as a warm reset does, does not come back, and CMDSTAT
reports 2. -/
def execDieLinkFail (die : Nat) (s : State) : Host.Outcome State Fault Refusal :=
  .next (if 8 ≤ die then s
    else
      let s : State := { s with regs := { s.regs with cmdBusy := false, cmdResult := 2 } }
      let s := s.modDie die fun d => { d with lost := true }
      if (s.die die).state = .up then s.startDrain die else s)

/-! ### The fabric (R357, R358) -/

/-- Changes a port. -/
def State.modPort (s : State) (p : Nat) (f : Port → Port) : State := { s with ports := put (·.id) (f (s.port p)) s.ports }

/-- The sequence of a flit. -/
def flitSeq (f : List Byte) : Nat := fieldAt f 2 2 % 2 ^ 12

/-- The acknowledged sequence in a flit (log 28). -/
def flitAck (f : List Byte) : Nat := fieldAt f 4 4 % 2 ^ 12

/-- Whether flit sequence a is b or before it, modulo 4,096. -/
def flitUpTo (a b : Nat) : Bool := (b + 4096 - a) % 4096 < 2048

/-- Meaning of FLIT_RECEIVE: a flit with a bad CRC is discarded and a replay asked for from its sequence; one that comes
next is taken, with what it acknowledges; a flit that was taken already is discarded. -/
def execFlitReceive (port : Nat) (flit : List Byte) (s : State) : Host.Outcome State Fault Refusal :=
  let p := s.port port
  let good := flit.length == 256 && bytesLE 8 (Config.crc64 (flit.take 248)).toNat == flit.drop 248 && fieldAt flit 2 2 / 2 ^ 12 == 0
  let n := flitSeq flit
  .next (if !p.up || 36 ≤ port then s
    else if !good then s.reply (.replayFrom port n)
    else
      let s := s.modPort port fun p =>
        { p with unacked := p.unacked.filter fun f => !flitUpTo (flitSeq f.bytes) (flitAck flit) }
      if n = p.rx then
        s.modPort port fun p => { p with rx := (p.rx + 1) % 4096, taken := p.taken ++ [(flit.drop 8).take 240] }
      else if flitUpTo n p.rx then s
      else s.reply (.replayFrom port p.rx))

/-- A flit of a port with a payload: its sequence, what the port acknowledges, and the CRC; type and credits are free (R357, log 28). -/
def Port.pack (p : Port) (kind credits : Nat) (payload : List Byte) : List Byte :=
  let b := bytesLE 2 kind ++ bytesLE 2 p.tx ++ bytesLE 4 (credits * 2 ^ 12 + (p.rx + 4095) % 4096) ++ (payload ++ List.replicate 240 0).take 240
  b ++ bytesLE 8 (Config.crc64 b).toNat

/-- Whether a port can take one more flit to a module: it is up, lies on a route to it, and keeps fewer than 1,024 flits (R357,
R358). -/
def State.takesFlit (s : State) (dest p : Nat) : Bool :=
  decide (p < 36) && (s.port p).up && decide ((s.port p).unacked.length < 1024) && s.routes.any fun r => r.1 == dest && r.2.contains p

/-- A port that takes flits sends a flit to a module under its next sequence, and keeps it for replay. -/
def State.putFlit (s : State) (port dest tenant kind credits : Nat) (payload : List Byte) : State :=
  let b := (s.port port).pack kind credits payload
  (s.modPort port fun p =>
    { p with tx := (p.tx + 1) % 4096, unacked := p.unacked ++ [{ dest := dest, tenant := tenant, replays := 0, bytes := b }] }).reply
      (.flit port b)

/-- A port sends a payload of a tenant's write to a module (R357). -/
def State.sendFlit (s : State) (port dest tenant : Nat) (payload : List Byte) : State :=
  if s.takesFlit dest port then
    { s with fresh := s.fresh + 1 }.putFlit port dest tenant (Config.choice (2 * s.fresh)) (Config.choice (2 * s.fresh + 1) % 2 ^ 20) payload
  else s

/-- The far side of a port asks for a replay from a sequence: the port sends its flits from there on again (R357). -/
def State.replayFlits (s : State) (port seq : Nat) : State :=
  let p := s.port port
  if 36 ≤ port ∨ !p.up then s
  else
    let again := fun (f : Flit) => flitUpTo seq (flitSeq f.bytes)
    let s := s.modPort port fun p => { p with unacked := p.unacked.map fun f => if again f then { f with replays := f.replays + 1 } else f }
    (p.unacked.filter again).foldl (fun s f => s.reply (.flit port f.bytes)) s

/-- Whether a port goes down: it is up, and a flit has been replayed 8 times without success (R357). -/
def Port.fails (p : Port) : Bool := p.up && p.unacked.any fun f => 8 ≤ f.replays

/-- The engine commands that write to a module that no live route leads to. -/
def State.undeliverable (s : State) : List EngCmd :=
  let lost := fun (x : Seg) => match x.loc with
    | .scr _ _ => false
    | l => rangeOf (s.paOf l) == .hbm && !s.isLocal (s.paOf l) && !s.reachable (moduleOf (s.paOf l))
  s.cmds.filter fun c => c.runs.any (fun r => r.dst.any lost) || c.signals.any fun x => x.dst.any lost

/-- Writes that were accepted and cannot be delivered stop their tenants with KILLED, DETAIL 6 (R358). -/
def State.dropLost (s : State) : State :=
  let l := s.undeliverable
  let s := l.foldl (fun (s : State) c => match s.team? c.team with
    | some t => s.raiseTask .killed 6 t.task.owner 0 t.task.kernel t.core t.slot
    | none => s) s
  { s with cmds := s.cmds.filter fun c => !l.contains c }.endWaiters (l.flatMap fun (c : EngCmd) => c.waiters)

/-- The tenants whose accepted writes are lost with some flits stop with KILLED, DETAIL 6 (R358). -/
def State.loseFlits (s : State) (l : List Flit) : State :=
  (l.map (·.tenant)).dedup.foldl (fun s id => s.raiseTask .killed 6 (ownerWord (id == rtWindow) (id % 64) 0) 0 0 0 0) s

/-- A flit goes out again on a port, under that port's next sequence. -/
def State.resend (s : State) (port : Nat) (f : Flit) : State :=
  s.putFlit port f.dest f.tenant (fieldAt f.bytes 0 2) 0 ((f.bytes.drop 8).take 240)

/-- The ports that can take a flit to a module. -/
def State.waysTo (s : State) (dest : Nat) : List Nat := (List.range 36).filter (s.takesFlit dest)

/-- A flit of a port that is down goes out again over another live route to its module (R358); where every port on one keeps as many
flits as it can, it waits. -/
def State.reroute (port : Nat) (s : State) (f : Flit) : State :=
  match s.waysTo f.dest with
  | p :: _ => s.resend p f
  | [] => s.modPort port fun x => { x with unacked := x.unacked ++ [f] }

/-- Whether something is to be done for the flits of a port: it fails, or it is down and one of its flits can go another way or none
at all. -/
def State.portDue (s : State) (p : Port) : Bool :=
  p.fails || (!p.up && p.unacked.any fun f => !(s.waysTo f.dest).isEmpty || !s.reachable f.dest)

/-- Meaning of PORT_DOWN: the port's unacknowledged flits are replayed over another live route to their modules, and those to a module
without one are lost; so are other writes to such a module (R358). -/
def execPortDown (port : Nat) (s : State) : Host.Outcome State Fault Refusal :=
  let old := s.port port
  .next (if !s.portDue old || 36 ≤ port then s
    else
      let s := s.modPort port fun p => { p with up := false, unacked := [] }
      let (go, lost) := old.unacked.partition fun f => s.reachable f.dest
      ((go.foldl (State.reroute port) s).loseFlits lost).dropLost)

/-- Meaning of PORT_RETRAIN: a port that is down comes up, and sends what it still holds (R357). -/
def execPortRetrain (port : Nat) (s : State) : Host.Outcome State Fault Refusal :=
  let old := s.port port
  .next (if old.up || 36 ≤ port then s
    else
      let s := s.modPort port fun p => { p with up := true, rx := 0, tx := 0, unacked := [] }
      old.unacked.foldl (fun s f => s.resend port f) s)

/-- The address that one of this module's HBM takes when its DEV number changes, and the other way round (R349, log 110). -/
def rehome (old new pa : Nat) : Nat :=
  if rangeOf pa != .hbm then pa
  else if pa / 2 ^ 41 = old then pa % 2 ^ 41 + new * 2 ^ 41
  else if pa / 2 ^ 41 = new then pa % 2 ^ 41 + old * 2 ^ 41
  else pa

/-- This module takes a DEV number: what it knows by physical addresses of its own HBM it knows by the new ones (R349). -/
def State.takeDev (s : State) (new : Nat) : State :=
  let f := rehome s.regs.devnum new
  let s := s.mapLocs fun l => match l with | .mem pa => .mem (f pa) | l => l
  { s with
    regs := { s.regs with devnum := new }
    mem := s.mem.foldl (fun m c => cellSet (f c.1) c.2 m) []
    tags := s.tags.map fun x => { x with page := f x.page }
    stamps := s.stamps.map fun x => { x with pa := f x.pa }
    cores := s.cores.map fun (c : Core) => { c with lines := c.lines.map fun x => { x with pa := f x.pa } }
    dies := s.dies.map fun (d : Die) => { d with regions := d.regions.map fun r => f (4096 * r) / 4096 }
    landings := s.landings.map fun l => { l with desc := f l.desc }
    pageMarks := s.pageMarks.map fun x => { x with page := f x.page }
    publishes := s.publishes.map fun x => { x with ctx := f x.ctx }
    bindings := s.bindings.map fun (x : Binding) => { x with home := f x.home, visible := x.visible.map f, shadow := x.shadow.map f }
    remaps := s.remaps.map fun x => { x with frame := f x.frame, now := f x.now } }

/-! ### Boot and firmware (R362 to R364) -/

/-- The sequence and slot of a marker copy, if it is intact. -/
def markerOf (b : List Byte) : Option (Nat × Nat) :=
  if b.length = 16 ∧ fieldAt b 0 4 = 0x4B384D4B ∧ fieldAt b 12 4 = (crc32c (b.take 12)).toNat then some (fieldAt b 4 4, fieldAt b 8 4)
  else none

/-- Whether marker sequence a is newer than b (R362). -/
def newer (a b : Nat) : Bool :=
  let d := (a + 2 ^ 32 - b) % 2 ^ 32
  1 ≤ d && d ≤ 0x7FFFFFFF

/-- The intact marker copies, the newest first, copy 0 first between equals. -/
def Polfel.markers (p : Polfel) : List (Nat × Nat) :=
  match markerOf p.marker0, markerOf p.marker1 with
  | some a, some b => if newer b.1 a.1 then [b, a] else [a, b]
  | some a, none => [a]
  | none, some b => [b]
  | none, none => []

/-- Whether an image verifies: its header's length is right, and its signature is the key's over its digest (R362, log 103). -/
def Slot.verifies (x : Slot) : Bool :=
  x.header.length == x.image.length && x.header.signature == Config.imageSign (sha256 x.image)

/-- The bytes that a slot holds: the header first (log 103). -/
def Slot.bytes (x : Slot) : List Byte := bytesLE 4 x.header.length ++ x.header.signature.toList ++ x.image

/-- Whether a slot verifies. -/
def Polfel.verifies (p : Polfel) (n : Nat) : Bool := (p.slots[n]?).any (·.verifies)

/-- The slot that boots, if any (R362). -/
def Polfel.choice (p : Polfel) : Option Nat :=
  ((p.markers.map (·.2)).find? p.verifies).or (if p.verifies 0 then some 0 else if p.verifies 1 then some 1 else none)

/-- The SEQ under which the newest marker copy names a slot. -/
def Polfel.seqOf (p : Polfel) (n : Nat) : Option Nat := (p.markers.find? (·.2 = n)).map (·.1)

/-- This module's HBM and every SRAM are zeroed: what remains is memory elsewhere, the registers, the fabric, Polfel, and whether each
die is in service. -/
def State.zeroAll (s : State) : State :=
  { State.reset with
    phase := s.phase, clock := s.clock, fresh := s.fresh, ids := s.ids, agenda := s.agenda
    mem := s.mem.filter (fun c => !s.isLocal c.1), tags := s.tags
    tenants := s.tenants.map (fun (t : Tenant) =>
      { t with state := if t.id = rtWindow then .active else .absent, tcmd := 0, drops := 0, lastdrop := 0, lost := 0, late := 0
               queues := List.replicate 16 Queue.fresh, spilled := [], pressure := [], ranOn := [] })
    dies := s.dies.map (fun (d : Die) => { Die.fresh d.id with eol := d.eol, state := d.state, lost := d.lost, warm := d.warm })
    ports := s.ports, routes := s.routes, tickCtime := s.clock / 256, tickPressure := s.clock / 1024, archive := s.archive
    regs := s.regs, polfel := s.polfel }

/-- The links and stacks are trained: every die is in service (R364, step 1). -/
def State.trainAll (s : State) : State := { s with dies := s.dies.map fun (d : Die) => { Die.fresh d.id with eol := d.eol } }

/-- Meaning of POWER_ON_BOOT: the slot is chosen, the links trained, memory zeroed and PCIe opened, or recovery entered. -/
def execPowerOnBoot (s : State) : Host.Outcome State Fault Refusal :=
  .next (if s.phase ≠ .off then s
    else
      match s.polfel.choice with
      | some n => { s.trainAll.zeroAll with phase := .open, polfel := { s.polfel with booted := some n, bootSeq := s.polfel.seqOf n, lastReset := none } }
      | none => { s with phase := .recovery, polfel := { s.polfel with booted := none, bootSeq := none, lastReset := none } })

/-- The steady state that a firmware update starts from: sequence and slot. -/
def Polfel.steady (p : Polfel) : Nat × Nat := (p.markers.head?).getD (0, 1)

/-- Writes an image to the slot that is not active (R363, step 1). -/
def Polfel.writeSlot (p : Polfel) (x : Slot) : Polfel := { p with slots := p.slots.set (1 - p.steady.2) x }

/-- The marker copy that an update writes. -/
def Polfel.newMarker (p : Polfel) : List Byte := markerBytes ((p.steady.1 + 1) % 2 ^ 32) (1 - p.steady.2)

/-- Meaning of FIRMWARE_UPDATE: the four steps of R363. -/
def execFirmwareUpdate (image : List Byte) (header : FwHeader) (s : State) : Host.Outcome State Fault Refusal :=
  let p := s.polfel
  let m := p.newMarker
  let x : Slot := { header := header, image := image }
  let q := p.writeSlot x
  .next (if s.phase = .open ∨ s.phase = .recovery then
      { s with polfel := if x.verifies then { q with marker0 := m, marker1 := m } else q }.reply .update
    else s)

/-- Meaning of LIFECYCLE_CHANGE: MANUFACTURE, then SECURE, then RETIRED, with the zeroing repeated. -/
def execLifecycleChange (s : State) : Host.Outcome State Fault Refusal :=
  let go := fun (l : Life) => let s := s.zeroAll; { s with polfel := { s.polfel with life := l } }
  .next (if s.phase ≠ .open then s
    else match s.polfel.life with
      | .manufacture => go .secure
      | .secure => go .retired
      | .retired => s)

/-- Where a power loss strikes a firmware update, if one is under way (R363): what the flash holds then. A slot that was being written
holds what had come of the image. -/
def Polfel.cutAt (p : Polfel) (x : Slot) (cut : FwCut) : Polfel :=
  let q := p.writeSlot x
  let m := p.newMarker
  match cut with
  | .image written => p.writeSlot { x with image := x.image.take written }
  | .copy0 torn => if x.verifies then { q with marker0 := torn } else q
  | .between => if x.verifies then { q with marker0 := m } else q
  | .copy1 torn => if x.verifies then { q with marker0 := m, marker1 := torn } else q

/-- Meaning of POWER_LOSS: everything but flash, host memory and fabric storage is lost. -/
def execPowerLoss (cut : Option (List Byte × FwHeader × FwCut)) (s : State) : Host.Outcome State Fault Refusal :=
  let p := match cut with
    | some (image, h, c) =>
        if s.phase = Phase.open ∨ s.phase = Phase.recovery then s.polfel.cutAt { header := h, image := image } c else s.polfel
    | none => s.polfel
  .next { State.reset with
    fresh := s.fresh, ids := s.ids, agenda := s.agenda, mem := s.mem.filter (fun c => !s.isLocal c.1), tags := s.tags, archive := s.archive
    polfel := { Polfel.reset with slots := p.slots, marker0 := p.marker0, marker1 := p.marker1, life := p.life, replies := p.replies } }

/-- Meaning of PCIE_CONFIG_REQUEST: retry status until boot has opened PCIe; there are the PF and 64 VFs (R350). -/
def execPcieConfigRequest (function : Nat) (s : State) : Host.Outcome State Fault Refusal :=
  .next (if 64 < function then s else s.reply (if s.phase = .open then .config function else .retryStatus function))

/-! ### Polfel's watchdog and fatal events (R356, R370) -/

/-- What firmware does with one queue after a restart: a block whose GEN is odd is restored from its shadow and DONESEQ
rebuilt; launches after the restored ACCSEQ are dropped. -/
def State.restoreQcb (id : Nat) (s : State) (q : Nat) : State :=
  let k := (s.tenant id).queue q
  if k.gen.getLsbD 0 then
    let acc := k.shadow.2.1.toNat
    let unseen := fun (l : Launch) => l.tenant == id && lidQueue l.lid == q && k.before.all fun a => seqAfter (lidSeq l.lid) a
    let lost := s.launches.filter unseen
    let s := { s with launches := s.launches.filter fun l => !unseen l }
    let s := lost.foldl (fun s _ => s.dropLaunch id 7) s
    let done := s.doneSeq id q acc
    s.modTenant id fun t => { t with queues := t.queues.set q { t.queue q with
      gen := k.shadow.1, acc := k.shadow.2.1, done := BitVec.ofNat 32 done, last := if lost.isEmpty then k.last else k.before } }
  else s

/-- A module-fatal event (R370): every tenant is stopped with KILLED, DETAIL 0x27, a dump is written, and the module does
nothing more before a full boot. -/
def State.moduleFatal (s : State) (code : Nat) : State :=
  let s := (s.tenants.filter fun t => t.stoppable && t.id != rtWindow).foldl (fun s t =>
    s.stopTenant t.id [faultRecord (fatalWord .killed 0x27 0 false) (ownerWord false t.id 0) 0 0 0 0 0 0 0 s.clock]) s
  let base := s.regs.dumpbase.toNat
  let n := Config.dumpBytes s.fresh % (2 ^ 26 - 63)
  let s := if base = 0 then s
    else
      let s := s.agentWrite (base + 64) ((List.range n).map fun i => Config.freeByte (s.fresh * 2 ^ 26 + i))
      let s := s.agentWrite (base + 4) (bytesLE 4 code ++ bytesLE 8 s.clock ++ bytesLE 8 n)
      s.agentWrite base (bytesLE 4 0x44554D50)
  { s with phase := .dead, fresh := s.fresh + 1 }

/-- The cause code that a dump names; the manual gives none, so it is free. -/
def fatalCode (e : FatalEvent) : Nat :=
  (Config.freeWord (match e with | .softError => 0 | .dieLost => 1 | .polfelTwice => 2)).toNat

/-- A die that DIERESET has taken down and that does not return. -/
def State.dieGone (s : State) : Bool := s.dies.any fun d => d.warm && d.lost && d.state == .down

/-- Whether Polfel's watchdog struck less than a second ago. -/
def State.struck (s : State) : Bool := s.polfel.lastReset.any fun t => s.clock < t + 1500000000

/-- Meaning of MODULE_FATAL: an uncorrectable soft error outside tenant-owned state, a die that fails to return from DIERESET, or a
second watchdog reset within a second. -/
def execModuleFatal (e : FatalEvent) (s : State) : Host.Outcome State Fault Refusal :=
  let happens : Bool := match e with | .softError => true | .dieLost => s.dieGone | .polfelTwice => s.struck
  .next (if s.phase = .open && happens then s.moduleFatal (fatalCode e) else s)

/-- Meaning of POLFEL_WATCHDOG_RESET: a second one within a second is module-fatal. -/
def execPolfelWatchdogReset (s : State) : Host.Outcome State Fault Refusal :=
  .next (if s.phase ≠ .open then s
    else if s.struck then s.moduleFatal (fatalCode .polfelTwice)
    else
      let s := s.tenants.foldl (fun s t => (List.range 16).foldl (State.restoreQcb t.id) s) s
      { s with polfel := { s.polfel with lastReset := some s.clock } })

/-! ### Attestation and management (R365, R366, R371, R372) -/

/-- Whether SPDM is served: PCIe is open. -/
def State.answer (s : State) (r : Reply) : State := if s.phase = .open then s.reply r else s

/-- Meaning of GET_VERSION: SPDM 1.3. -/
def execGetVersion (s : State) : Host.Outcome State Fault Refusal := .next (s.answer (.version 0x13))

/-- Meaning of GET_CAPABILITIES. -/
def execGetCapabilities (s : State) : Host.Outcome State Fault Refusal := .next (s.answer .capabilities)

/-- Meaning of NEGOTIATE_ALGORITHMS. -/
def execNegotiateAlgorithms (s : State) : Host.Outcome State Fault Refusal :=
  .next (s.answer (.algorithms "RSASSA-3072" "SHA-256"))

/-- Meaning of GET_DIGESTS: of the one certificate slot. -/
def execGetDigests (s : State) : Host.Outcome State Fault Refusal := .next (s.answer (.digests [sha256 Config.certificate]))

/-- Meaning of GET_CERTIFICATE. -/
def execGetCertificate (s : State) : Host.Outcome State Fault Refusal := .next (s.answer (.certificate Config.certificate))

/-- Meaning of CHALLENGE: signed with the device identity key. -/
def execChallenge (nonce : List Byte) (s : State) : Host.Outcome State Fault Refusal :=
  .next (s.answer (.challengeAuth nonce (Config.sign nonce).toList))

/-- The five measurements of R365: the active slot is the one that booted, with the SEQ that named it, a free value where no marker
copy did. -/
def Polfel.measure (p : Polfel) : List (List Byte) :=
  let n := p.booted.getD 0
  [ Config.romMeasure,
    sha256 (((p.slots[n]?).map (·.bytes)).getD []) ++ bytesLE 4 (p.bootSeq.getD (Config.freeWord 3).toNat),
    p.marker0 ++ p.marker1,
    bytesLE 1 (match p.life with | .manufacture => 0 | .secure => 1 | .retired => 2),
    sha256 p.runtime ]

/-- Meaning of GET_MEASUREMENTS. -/
def execGetMeasurements (s : State) : Host.Outcome State Fault Refusal := .next (s.answer (.measurements s.polfel.measure))

/-- What a Redfish resource answers (R366). -/
def State.redfish (s : State) (r : Redfish) : Reply :=
  match r with
  | .chassis => .chassis s.regs.power s.regs.pcap
  | .processors => .processors ((List.range 8).map fun d => (s.die d).eol)
  | .memory => .memory 32
  | .logServices => .log (if s.regs.devlog = 0 then [] else s.homeRead s.regs.devlog.toNat 4096)
  | .updateService => .update
  | .componentIntegrity => .integrity

/-- Meaning of REDFISH_REQUEST: served at the management port; in recovery only firmware update is. -/
def execRedfishRequest (r : Redfish) (s : State) : Host.Outcome State Fault Refusal :=
  .next (if s.phase = .open ∨ (s.phase = .recovery ∧ r = .updateService) then s.reply (s.redfish r) else s)

/-- Meaning of EOL_UPDATE: hours of predicted life by die, saturating; where one falls below 1,000 an event is raised (log 105). -/
def execEolUpdate (hours : List Nat) (s : State) : Host.Outcome State Fault Refusal :=
  .next (hours.zipIdx.foldl (fun s x =>
    if x.2 < 8 then
      let old := (s.die x.2).eol.toNat
      let s := s.modDie x.2 fun d => { d with eol := BitVec.ofNat 32 (min x.1 0xFFFFFFFF) }
      if x.1 < 1000 ∧ 1000 ≤ old then s.reply (.event x.2) else s
    else s) s)

/-- Meaning of PCAP_THROTTLE: POWER takes the average of the last millisecond, and issue is withheld while it is not below
PCAP. -/
def execPcapThrottle (s : State) : Host.Outcome State Fault Refusal :=
  let p := BitVec.ofNat 32 (Config.powerWatts s.polfel.windows)
  .next { s with
    regs := { s.regs with power := p }
    polfel := { s.polfel with windows := s.polfel.windows + 1, withhold := decide (s.regs.pcap.toNat ≤ p.toNat) } }

end Sys2Proof.Machine
end

