-- ==== Sys2Proof/Machine/Dispatch.lean ====
section
/-!
DEFINITION. What each row of the opcode table does: one arm per constructor, each one direct call of its meaning.
-/

namespace Sys2Proof.Machine

def exec (i : Instr) (s : State) : Host.Outcome State Fault Refusal :=
  match i with
  | .nop => Sys2Proof.Machine.execNop s
  | .mov d b t m => Sys2Proof.Machine.execMov d b t m s
  | .movDl d t lit m => Sys2Proof.Machine.execMovDl d t lit m s
  | .movi d imm m => Sys2Proof.Machine.execMovi d imm m s
  | .kset d a t m => Sys2Proof.Machine.execKset d a t m s
  | .iadd d a b t m => Sys2Proof.Machine.execIadd d a b t m s
  | .iaddDl d a t lit m => Sys2Proof.Machine.execIaddDl d a t lit m s
  | .iaddi d a imm m => Sys2Proof.Machine.execIaddi d a imm m s
  | .isub d a b t m => Sys2Proof.Machine.execIsub d a b t m s
  | .iaddc d a b p m => Sys2Proof.Machine.execIaddc d a b p m s
  | .imul d a b t m => Sys2Proof.Machine.execImul d a b t m s
  | .imulDl d a t lit m => Sys2Proof.Machine.execImulDl d a t lit m s
  | .imulh d a b t m => Sys2Proof.Machine.execImulh d a b t m s
  | .imad d a b t m => Sys2Proof.Machine.execImad d a b t m s
  | .idiv d a b t m => Sys2Proof.Machine.execIdiv d a b t m s
  | .irem d a b t m => Sys2Proof.Machine.execIrem d a b t m s
  | .imin d a b t m => Sys2Proof.Machine.execImin d a b t m s
  | .imax d a b t m => Sys2Proof.Machine.execImax d a b t m s
  | .iabs d a t m => Sys2Proof.Machine.execIabs d a t m s
  | .and d a b t m => Sys2Proof.Machine.execAnd d a b t m s
  | .andDl d a t lit m => Sys2Proof.Machine.execAndDl d a t lit m s
  | .or d a b t m => Sys2Proof.Machine.execOr d a b t m s
  | .orDl d a t lit m => Sys2Proof.Machine.execOrDl d a t lit m s
  | .xor d a b t m => Sys2Proof.Machine.execXor d a b t m s
  | .xorDl d a t lit m => Sys2Proof.Machine.execXorDl d a t lit m s
  | .andn d a b t m => Sys2Proof.Machine.execAndn d a b t m s
  | .shl d a b t m => Sys2Proof.Machine.execShl d a b t m s
  | .shr d a b t m => Sys2Proof.Machine.execShr d a b t m s
  | .sar d a b t m => Sys2Proof.Machine.execSar d a b t m s
  | .rotl d a b t m => Sys2Proof.Machine.execRotl d a b t m s
  | .shli d a w cnt m => Sys2Proof.Machine.execShli d a w cnt m s
  | .shri d a w cnt m => Sys2Proof.Machine.execShri d a w cnt m s
  | .sari d a w cnt m => Sys2Proof.Machine.execSari d a w cnt m s
  | .popc d a t m => Sys2Proof.Machine.execPopc d a t m s
  | .clz d a t m => Sys2Proof.Machine.execClz d a t m s
  | .ctz d a t m => Sys2Proof.Machine.execCtz d a t m s
  | .brev d a t m => Sys2Proof.Machine.execBrev d a t m s
  | .bfx d a b t m => Sys2Proof.Machine.execBfx d a b t m s
  | .bfi d a b t m => Sys2Proof.Machine.execBfi d a b t m s
  | .icmp rel u pd a b t m => Sys2Proof.Machine.execIcmp rel u pd a b t m s
  | .icmpDl rel u pd a t lit m => Sys2Proof.Machine.execIcmpDl rel u pd a t lit m s
  | .icmpi rel u pd a imm m => Sys2Proof.Machine.execIcmpi rel u pd a imm m s
  | .sel d a b p m => Sys2Proof.Machine.execSel d a b p m s
  | .lea d a b src m => Sys2Proof.Machine.execLea d a b src m s
  | .fadd d a b t m => Sys2Proof.Machine.execFadd d a b t m s
  | .faddDl d a t lit m => Sys2Proof.Machine.execFaddDl d a t lit m s
  | .fsub d a b t m => Sys2Proof.Machine.execFsub d a b t m s
  | .fmul d a b t m => Sys2Proof.Machine.execFmul d a b t m s
  | .fmulDl d a t lit m => Sys2Proof.Machine.execFmulDl d a t lit m s
  | .ffma d a b t m => Sys2Proof.Machine.execFfma d a b t m s
  | .fmin d a b t m => Sys2Proof.Machine.execFmin d a b t m s
  | .fminDl d a t lit m => Sys2Proof.Machine.execFminDl d a t lit m s
  | .fmax d a b t m => Sys2Proof.Machine.execFmax d a b t m s
  | .fmaxDl d a t lit m => Sys2Proof.Machine.execFmaxDl d a t lit m s
  | .fcmp rel any pd a b t m => Sys2Proof.Machine.execFcmp rel any pd a b t m s
  | .fcmpDl rel any pd a t lit m => Sys2Proof.Machine.execFcmpDl rel any pd a t lit m s
  | .fclass d a t m => Sys2Proof.Machine.execFclass d a t m s
  | .frcp d a t m => Sys2Proof.Machine.execFrcp d a t m s
  | .frsq d a t m => Sys2Proof.Machine.execFrsq d a t m s
  | .fsqrt d a t m => Sys2Proof.Machine.execFsqrt d a t m s
  | .fdiv d a b t m => Sys2Proof.Machine.execFdiv d a b t m s
  | .fexp2 d a t m => Sys2Proof.Machine.execFexp2 d a t m s
  | .flog2 d a t m => Sys2Proof.Machine.execFlog2 d a t m s
  | .ftanh d a t m => Sys2Proof.Machine.execFtanh d a t m s
  | .frnd d a mode t m => Sys2Proof.Machine.execFrnd d a mode t m s
  | .fcvt d a dst src lane m => Sys2Proof.Machine.execFcvt d a dst src lane m s
  | .icvt d a flt int toInt lane m => Sys2Proof.Machine.execIcvt d a flt int toInt lane m s
  | .gshf d a b mode m => Sys2Proof.Machine.execGshf d a b mode m s
  | .gbcst d a u m => Sys2Proof.Machine.execGbcst d a u m s
  | .gvote d a op => Sys2Proof.Machine.execGvote d a op s
  | .gscan d a excl op t => Sys2Proof.Machine.execGscan d a excl op t s
  | .gred d a op t => Sys2Proof.Machine.execGred d a op t s
  | .sread d n m => Sys2Proof.Machine.execSread d n m s
  | .swrite n a m => Sys2Proof.Machine.execSwrite n a m s
  | .fmode reg a rm => Sys2Proof.Machine.execFmode reg a rm s
  | .carve a b => Sys2Proof.Machine.execCarve a b s
  | .ld d base size off m => Sys2Proof.Machine.execLd d base size off m s
  | .st d base size off m => Sys2Proof.Machine.execSt d base size off m s
  | .ldc d base size off m => Sys2Proof.Machine.execLdc d base size off m s
  | .stsb d base size off m => Sys2Proof.Machine.execStsb d base size off m s
  | .pref base l2 off m => Sys2Proof.Machine.execPref base l2 off m s
  | .atom d a t op m => Sys2Proof.Machine.execAtom d a t op m s
  | .acas d a t m => Sys2Proof.Machine.execAcas d a t m s
  | .ared d a t op m => Sys2Proof.Machine.execAred d a t op m s
  | .fence m => Sys2Proof.Machine.execFence m s
  | .guard d a b clr e m => Sys2Proof.Machine.execGuard d a b clr e m s
  | .binit n m => Sys2Proof.Machine.execBinit n m s
  | .bsync d a n op m => Sys2Proof.Machine.execBsync d a n op m s
  | .barv d a n op m => Sys2Proof.Machine.execBarv d a n op m s
  | .bwait d a n m => Sys2Proof.Machine.execBwait d a n m s
  | .btest pd a n m => Sys2Proof.Machine.execBtest pd a n m s
  | .lopen n a m => Sys2Proof.Machine.execLopen n a m s
  | .lpush pd n a m => Sys2Proof.Machine.execLpush pd n a m s
  | .lpushBlockedServe team tid => Sys2Proof.Machine.execLpushBlockedServe team tid s
  | .lpop pd n a m => Sys2Proof.Machine.execLpop pd n a m s
  | .lpopBlockedServe team tid => Sys2Proof.Machine.execLpopBlockedServe team tid s
  | .ltrypop pd n a m => Sys2Proof.Machine.execLtrypop pd n a m s
  | .lseal n m => Sys2Proof.Machine.execLseal n m s
  | .lstat n a m => Sys2Proof.Machine.execLstat n a m s
  | .tspawn a m => Sys2Proof.Machine.execTspawn a m s
  | .tdone a m => Sys2Proof.Machine.execTdone a m s
  | .lcfg n a m => Sys2Proof.Machine.execLcfg n a m s
  | .lfire pd n m => Sys2Proof.Machine.execLfire pd n m s
  | .hbind d a m => Sys2Proof.Machine.execHbind d a m s
  | .hdone m => Sys2Proof.Machine.execHdone m s
  | .landingAgeTick cluster => Sys2Proof.Machine.execLandingAgeTick cluster s
  | .crsv d a trap pd n m => Sys2Proof.Machine.execCrsv d a trap pd n m s
  | .cwkv d a b m => Sys2Proof.Machine.execCwkv d a b m s
  | .cpub d a n m => Sys2Proof.Machine.execCpub d a n m s
  | .cacq a m => Sys2Proof.Machine.execCacq a m s
  | .csig d a b => Sys2Proof.Machine.execCsig d a b s
  | .catt d a b pd => Sys2Proof.Machine.execCatt d a b pd s
  | .cattBlockWrite job => Sys2Proof.Machine.execCattBlockWrite job s
  | .cmrg d a f m => Sys2Proof.Machine.execCmrg d a f m s
  | .crel d a n m => Sys2Proof.Machine.execCrel d a n m s
  | .talloc t a b f m => Sys2Proof.Machine.execTalloc t a b f m s
  | .tready t m => Sys2Proof.Machine.execTready t m s
  | .tdrain t m => Sys2Proof.Machine.execTdrain t m s
  | .tfree t m => Sys2Proof.Machine.execTfree t m s
  | .tstat d t m => Sys2Proof.Machine.execTstat d t m s
  | .mload d a src g m => Sys2Proof.Machine.execMload d a src g m s
  | .macroLoadComplete cluster mac => Sys2Proof.Machine.execMacroLoadComplete cluster mac s
  | .mfire d t bank cnt m => Sys2Proof.Machine.execMfire d t bank cnt m s
  | .mhad d src p m => Sys2Proof.Machine.execMhad d src p m s
  | .mqnt d src r q4 m => Sys2Proof.Machine.execMqnt d src r q4 m s
  | .mdrain d bank f m => Sys2Proof.Machine.execMdrain d bank f m s
  | .mclr bank e m => Sys2Proof.Machine.execMclr bank e m s
  | .mres d a pd m => Sys2Proof.Machine.execMres d a pd m s
  | .rsring a ty m => Sys2Proof.Machine.execRsring a ty m s
  | .ringTablesComplete team slot => Sys2Proof.Machine.execRingTablesComplete team slot s
  | .rsadd d a b ty m => Sys2Proof.Machine.execRsadd d a b ty m s
  | .rssub d a b ty m => Sys2Proof.Machine.execRssub d a b ty m s
  | .rsmul d a b ty m => Sys2Proof.Machine.execRsmul d a b ty m s
  | .rsdiv d a b ty m => Sys2Proof.Machine.execRsdiv d a b ty m s
  | .rsneg d a ty m => Sys2Proof.Machine.execRsneg d a ty m s
  | .rsrec d a ty m => Sys2Proof.Machine.execRsrec d a ty m s
  | .rsmax d a b ty m => Sys2Proof.Machine.execRsmax d a b ty m s
  | .rsmin d a b ty m => Sys2Proof.Machine.execRsmin d a b ty m s
  | .rsuni d a b ty m => Sys2Proof.Machine.execRsuni d a b ty m s
  | .rsint d a b ty m => Sys2Proof.Machine.execRsint d a b ty m s
  | .rsfrom d a b ty m => Sys2Proof.Machine.execRsfrom d a b ty m s
  | .rslo d a ty m => Sys2Proof.Machine.execRslo d a ty m s
  | .rshi d a ty m => Sys2Proof.Machine.execRshi d a ty m s
  | .rstest rel poss pd a b ty m => Sys2Proof.Machine.execRstest rel poss pd a b ty m s
  | .rspack d a ty m => Sys2Proof.Machine.execRspack d a ty m s
  | .rsunpk d a ty m => Sys2Proof.Machine.execRsunpk d a ty m s
  | .xcopy d a b scope m => Sys2Proof.Machine.execXcopy d a b scope m s
  | .xgath d a b pd m => Sys2Proof.Machine.execXgath d a b pd m s
  | .xputs d a add m => Sys2Proof.Machine.execXputs d a add m s
  | .xshad d a b => Sys2Proof.Machine.execXshad d a b s
  | .shadowUnbind binding => Sys2Proof.Machine.execShadowUnbind binding s
  | .xpubb a => Sys2Proof.Machine.execXpubb a s
  | .shadowSwap binding => Sys2Proof.Machine.execShadowSwap binding s
  | .engineCommandComplete core cmd badLines => Sys2Proof.Machine.execEngineCommandComplete core cmd badLines s
  | .bra g off => Sys2Proof.Machine.execBra g off s
  | .brc sense p off => Sys2Proof.Machine.execBrc sense p off s
  | .brx a => Sys2Proof.Machine.execBrx a s
  | .call g off => Sys2Proof.Machine.execCall g off s
  | .callx a => Sys2Proof.Machine.execCallx a s
  | .ret => Sys2Proof.Machine.execRet s
  | .reform => Sys2Proof.Machine.execReform s
  | .yield => Sys2Proof.Machine.execYield s
  | .exit => Sys2Proof.Machine.execExit s
  | .trap imm => Sys2Proof.Machine.execTrap imm s
  | .eret => Sys2Proof.Machine.execEret s
  | .tlbi a b op m => Sys2Proof.Machine.execTlbi a b op m s
  | .issueGroupDraw ctl unit pipe => Sys2Proof.Machine.execIssueGroupDraw ctl unit pipe s
  | .resultReturn team tid idx => Sys2Proof.Machine.execResultReturn team tid idx s
  | .trapDeliver team tid => Sys2Proof.Machine.execTrapDeliver team tid s
  | .faultRecordPost team => Sys2Proof.Machine.execFaultRecordPost team s
  | .verdictRetry team => Sys2Proof.Machine.execVerdictRetry team s
  | .verdictUser team => Sys2Proof.Machine.execVerdictUser team s
  | .verdictKill team => Sys2Proof.Machine.execVerdictKill team s
  | .tenantStop tenant => Sys2Proof.Machine.execTenantStop tenant s
  | .deviceRuntimeReset => Sys2Proof.Machine.execDeviceRuntimeReset s
  | .wdogExpire team tid => Sys2Proof.Machine.execWdogExpire team tid s
  | .softError team kind => Sys2Proof.Machine.execSoftError team kind s
  | .launchWindowWrite window off data => Sys2Proof.Machine.execLaunchWindowWrite window off data s
  | .launchActivate => Sys2Proof.Machine.execLaunchActivate s
  | .launchLate launch => Sys2Proof.Machine.execLaunchLate launch s
  | .gridTaskGenerate launch => Sys2Proof.Machine.execGridTaskGenerate launch s
  | .taskPlace core => Sys2Proof.Machine.execTaskPlace core s
  | .taskComplete team => Sys2Proof.Machine.execTaskComplete team s
  | .clusterSteal thief => Sys2Proof.Machine.execClusterSteal thief s
  | .dequeSpillReturn cluster => Sys2Proof.Machine.execDequeSpillReturn cluster s
  | .pressureSample => Sys2Proof.Machine.execPressureSample s
  | .preemptForLaunch launch => Sys2Proof.Machine.execPreemptForLaunch launch s
  | .teamDrainComplete team => Sys2Proof.Machine.execTeamDrainComplete team s
  | .teamSave team => Sys2Proof.Machine.execTeamSave team s
  | .teamRestore team core => Sys2Proof.Machine.execTeamRestore team core s
  | .ctimeTick => Sys2Proof.Machine.execCtimeTick s
  | .l1Writeback core line => Sys2Proof.Machine.execL1Writeback core line s
  | .epochChange die => Sys2Proof.Machine.execEpochChange die s
  | .coreSleep core => Sys2Proof.Machine.execCoreSleep core s
  | .coreWake core => Sys2Proof.Machine.execCoreWake core s
  | .pageWalk core asid va => Sys2Proof.Machine.execPageWalk core asid va s
  | .diereset die => Sys2Proof.Machine.execDiereset die s
  | .dieDrainTimeout die => Sys2Proof.Machine.execDieDrainTimeout die s
  | .dieReadmit die => Sys2Proof.Machine.execDieReadmit die s
  | .dieLinkFail die => Sys2Proof.Machine.execDieLinkFail die s
  | .rtfailClear => Sys2Proof.Machine.execRtfailClear s
  | .tenantEnable tenant => Sys2Proof.Machine.execTenantEnable tenant s
  | .tenantPreempt tenant => Sys2Proof.Machine.execTenantPreempt tenant s
  | .tenantResume tenant => Sys2Proof.Machine.execTenantResume tenant s
  | .tenantReset tenant => Sys2Proof.Machine.execTenantReset tenant s
  | .registerWrite off data => Sys2Proof.Machine.execRegisterWrite off data s
  | .polfelWatchdogReset => Sys2Proof.Machine.execPolfelWatchdogReset s
  | .flitReceive port flit => Sys2Proof.Machine.execFlitReceive port flit s
  | .portDown port => Sys2Proof.Machine.execPortDown port s
  | .portRetrain port => Sys2Proof.Machine.execPortRetrain port s
  | .powerOnBoot => Sys2Proof.Machine.execPowerOnBoot s
  | .firmwareUpdate image header => Sys2Proof.Machine.execFirmwareUpdate image header s
  | .lifecycleChange => Sys2Proof.Machine.execLifecycleChange s
  | .getVersion => Sys2Proof.Machine.execGetVersion s
  | .getCapabilities => Sys2Proof.Machine.execGetCapabilities s
  | .negotiateAlgorithms => Sys2Proof.Machine.execNegotiateAlgorithms s
  | .getDigests => Sys2Proof.Machine.execGetDigests s
  | .getCertificate => Sys2Proof.Machine.execGetCertificate s
  | .challenge nonce => Sys2Proof.Machine.execChallenge nonce s
  | .getMeasurements => Sys2Proof.Machine.execGetMeasurements s
  | .redfishRequest r => Sys2Proof.Machine.execRedfishRequest r s
  | .eolUpdate hours => Sys2Proof.Machine.execEolUpdate hours s
  | .moduleFatal e => Sys2Proof.Machine.execModuleFatal e s
  | .powerLoss cut => Sys2Proof.Machine.execPowerLoss cut s
  | .pcieConfigRequest function => Sys2Proof.Machine.execPcieConfigRequest function s
  | .pcapThrottle => Sys2Proof.Machine.execPcapThrottle s

end Sys2Proof.Machine
end

