-- ==== Sys2Proof/Machine/Policy.lean ====
section
/-!
DEFINITION. What moves next when the agenda is empty and no group is in the middle of a clause, what a move of the outside
world does, and the state in which a given word is the next to issue (log 2).
-/

namespace Sys2Proof.Machine

/-! ### Events that are due -/

/-- Every thread with its team. -/
def State.everyone (s : State) : List (Team × Thread) := s.teams.flatMap fun t => t.threads.map fun h => (t, h)

/-- Traps, results and fatal causes. -/
def State.trapEvent (s : State) : Option Instr :=
  if s.fatals.any (·.sup) then some .deviceRuntimeReset
  else
    match s.fatals with
    | f :: _ => some (.tenantStop f.tenant)
    | [] =>
        let ready := fun (x : Team × Thread) => match x.2.status with
          | .trapped t => x.2.pend.isEmpty && (x.1.sup || x.2.ctl || !t.toSupervisor || !x.1.beforeIt x.2.tid t)
          | _ => false
        match s.everyone.find? ready with
        | some x => some (.trapDeliver x.1.id x.2.tid)
        | none =>
            s.everyone.findSome? fun x =>
              (x.2.pend.findIdx? (·.mayReturn x.1)).map fun i => .resultReturn x.1.id x.2.tid i

/-- Commands, loads, tables and blocks that can complete. -/
def State.unitEvent (s : State) : Option Instr :=
  match s.cmds, s.catts with
  | c :: _, _ => some (.engineCommandComplete c.core c.id [])
  | [], j :: _ => some (.cattBlockWrite j.id)
  | [], [] =>
      let loads := s.clusters.findSome? fun c => (c.squares.find? (·.load.isSome)).map fun q => Instr.macroLoadComplete c.id q.id
      let tables := s.teams.findSome? fun t => (t.rings.findIdx? fun r => match r.state with | .loading _ => true | _ => false).map fun n =>
        Instr.ringTablesComplete t.id n
      let up := fun (x : Binding) => s.homeUp x.home
      let swaps := s.bindings.findSome? fun x =>
        if up x && x.swaps.any (fun y => y.2.all fun c => s.cmds.all (·.id ≠ c)) then some (Instr.shadowSwap x.id) else none
      let unbinds := s.bindings.findSome? fun x =>
        if up x && !x.unbinds.isEmpty && (s.shadowCmds x.id none).isEmpty && x.swaps.isEmpty then some (Instr.shadowUnbind x.id) else none
      loads.or (tables.or (swaps.or unbinds))

/-- Whether a suspended team's record can be posted or has no landing to go to. -/
def State.canPost (s : State) (t : Team) : Bool :=
  t.toPost && match s.faultLanding with
    | none => true
    | some l => !s.landDown l && match l.ask with
        | .refused => true
        | .room => (firstOf (s.waiters l.id true)).map (·.2) == some (t.id, tidRecord)
        | _ => false

/-- Fault records and verdicts. -/
def State.faultEvent (s : State) : Option Instr :=
  s.teams.findSome? fun t =>
    if s.canPost t then some (.faultRecordPost t.id)
    else if t.susp && t.record.isSome && (t.state == .victim || t.state == .saved) then
      (match t.verdict.toNat with
       | 1 => some (.verdictRetry t.id)
       | 2 => some (.verdictUser t.id)
       | 3 => some (.verdictKill t.id)
       | _ => none)
    else none

/-- A line with a byte that is dirty for as long as it may be and can be written back (R195). -/
def State.dirtyLine (s : State) : Option Instr :=
  s.cores.findSome? fun c =>
    (c.lines.find? fun x => (x.dirty.any fun d => d.since + writeBackCycles ≤ s.clock) && s.homeUp x.pa).map fun x => .l1Writeback c.id x.pa

/-- What time brings, before anything else happens in a cycle: write-backs, an epoch change before a tick of logical time that needs
one, the tick, the pressure sample, and age ticks (R258). -/
def State.timeEvent (s : State) : Option Instr :=
  if s.phase ≠ .open then none
  else match s.dirtyLine with
    | some i => some i
    | none =>
        if s.tickCtime < s.clock / 256 then some ((((List.range 8).find? s.epochDue).map Instr.epochChange).getD .ctimeTick)
        else if s.tickPressure < s.clock / 1024 then some .pressureSample
        else (s.landings.find? s.ageDue).map fun l => .landingAgeTick l.home

/-- How many cycles may pass at once, up to a number: up to the next multiple of 16, and one at a time while something falls due at a
cycle of its own. -/
def State.stride (s : State) (n : Nat) : Nat :=
  let busy := (s.cores.any fun c => c.lines.any fun x => !x.dirty.isEmpty) || (s.stamps.any fun x => x.stale.isSome)
    || s.landings.any fun l => l.readySince.isSome
  min n (if busy then 1 else 16 - s.clock % 16)

/-- A blocked push or pop that its landing can serve, which goes before whatever comes to the landing later (R148, R149). -/
def State.serveEvent (s : State) : Option Instr :=
  s.everyone.findSome? fun x =>
    match x.2.status with
    | .blocked b =>
        let serve : Bool := match b.wait with
          | .lpush id .. => (match s.landing? id with
              | none => x.1.state == .run
              | some l => x.1.state == .run && !s.landDown l && (l.state != .opened ||
                  ((firstOf (s.waiters id true)).map (·.2) == some (x.1.id, x.2.tid) && l.ask == .room)))
          | .lpop id .. => (match s.landing? id with
              | none => x.1.state == .run
              | some l => x.1.state == .run && !s.landDown l && (l.expert.isSome || if l.waiting.isEmpty then l.state == .ended
                  else (firstOf (s.waiters id false)).map (·.2) == some (x.1.id, x.2.tid)))
          | _ => false
        if serve then (match b.wait with | .lpush .. => some (.lpushBlockedServe x.1.id x.2.tid) | _ => some (.lpopBlockedServe x.1.id x.2.tid))
        else none
    | _ => none

/-- Blocked words that a home can serve, and watchdogs that expire. -/
def State.blockEvent (s : State) : Option Instr :=
  s.serveEvent.or (s.everyone.findSome? fun x =>
    match x.2.status with
    | .blocked b =>
        let wdog := (s.tenant (ownerId x.1.task.owner)).wdog.toNat
        if x.1.state == .run && wdog != 0 && b.wait.watched && b.since + 65536 * wdog < s.clock then some (.wdogExpire x.1.id x.2.tid)
        else none
    | _ => none)

/-- Teams that have drained, completed, or are to be saved; dies whose drain has ended. -/
def State.teamEvent (s : State) : Option Instr :=
  let done := (s.teams.find? s.finished).map fun t => Instr.taskComplete t.id
  let drained := (s.teams.find? s.drainedTeam).map fun t => Instr.teamDrainComplete t.id
  let leaving := fun (t : Team) => s.claimable t && !t.sup &&
    ((s.tenant (ownerId t.task.owner)).state == .preempted || (s.die (dieOfCore t.core)).state != .up)
  let saves := (s.teams.find? leaving).map fun t => Instr.teamSave t.id
  let dies := (s.dies.find? fun d => match d.state with
    | .draining t => (s.stillOn d.id).isEmpty || (t + drainCycles ≤ s.clock && (s.stillOn d.id).any (!·.stopped))
    | _ => false).map fun d => Instr.dieDrainTimeout d.id
  done.or (drained.or (saves.or dies))

/-- Resets that wait for nothing any more, ports that fail, and a die that does not return. -/
def State.systemEvent (s : State) : Option Instr :=
  if s.dieGone then some (.moduleFatal .dieLost)
  else
    ((s.tenants.find? fun t => t.state == .resetting && (s.teamsOf t.id).isEmpty).map fun t => Instr.tenantReset t.id).or
      ((s.ports.find? s.portDue).map fun p => Instr.portDown p.id)

/-- A core on which a stopped team can be restored with its set: its own first. -/
def State.restorePlace (s : State) (t : Team) : Option Nat :=
  if t.state = .run ∨ t.state = .halt ∨ t.susp then none
  else (t.core :: List.range 512).find? fun c => s.canRestore t (memberCore c t) && s.restoreSet t.id c != s

/-- What the dispatcher does next: restores, late launches, activation, placement, generation, stealing, spill returns,
pre-emption. -/
def State.dispatchEvent (s : State) : Option Instr :=
  let restore := s.teams.findSome? fun t => (s.restorePlace t).map fun c => Instr.teamRestore t.id c
  let late := (s.launches.find? fun l => !l.late && l.deadline != 0 && untilDue l.deadline s.unit == 0).map fun l => Instr.launchLate l.id
  let act := s.toActivate.map fun _ => Instr.launchActivate
  let busy := (s.clusters.filter fun c => !c.deque.isEmpty).map (·.id) ++ s.activeLaunches.filterMap fun l => l.offer.map (·.1)
  let cores := busy.dedup.flatMap fun cl => [0, 1, 2, 3].map (4 * cl + ·)
  let floor := (s.floors.find? fun f => (s.floorTask f).isSome).map fun f => Instr.taskPlace f.core
  let place := (cores.find? fun c => (s.deadTask (clusOf c)).isSome || !(s.candidates c).isEmpty).map Instr.taskPlace
  let bad := (s.activeLaunches.find? fun l => s.places l.tenant && (s.badTask (l.task 0)).isSome).map fun l => Instr.gridTaskGenerate l.id
  let gen := (s.lowest (s.activeLaunches.filter s.canOffer)).map fun l => Instr.gridTaskGenerate l.id
  let steal := if s.clusters.all (·.deque.isEmpty) then none
    else ((List.range 128).find? fun t => (s.loot t).isSome && s.idle t).map Instr.clusterSteal
  let back := ((s.tenants.flatMap fun (x : Tenant) => x.spilled).find? fun x => s.takesSpilled x.cluster).map fun x => Instr.dequeSpillReturn x.cluster
  let pre := (s.launches.find? fun l => s.mayPreempt l && (s.preemptPlan l).any (!·.isEmpty)).map fun l => Instr.preemptForLaunch l.id
  late.or (act.or (restore.or (floor.or (place.or (bad.or (gen.or (steal.or (back.or pre))))))))

/-- A unit that can draw a group, with the age of the source it would take; the oldest goes first. -/
def State.drawEvent (s : State) : Option Instr :=
  let parked := s.everyone.find? fun x => x.2.status == .parked && x.2.pend.isEmpty
  match parked with
  | some x => some (.issueGroupDraw false x.1.core 0)
  | none =>
      let running := s.teams.filter (·.state = .run)
      let cores := (running.map (·.core)).dedup.filterMap fun c => (s.pickSource c).map fun x => (x.age, Instr.issueGroupDraw false c 0)
      let streams := running.filterMap fun t => (t.threads.find? (s.streamReady t)).map fun h =>
        (h.age, Instr.issueGroupDraw true (clusOf t.core) 0)
      ((cores ++ streams).foldl (fun m x => match m with
        | none => some x
        | some y => if x.1 < y.1 then some x else some y) (none : Option (Nat × Instr))).map (·.2)

/-- The event that the machine takes by itself, if any is due. -/
def State.nextEvent (s : State) : Option Instr :=
  match s.phase with
  | .off => some .powerOnBoot
  | .recovery | .dead => none
  | .open =>
      s.systemEvent.or (s.trapEvent.or (s.unitEvent.or (s.faultEvent.or (s.blockEvent.or (s.teamEvent.or (s.dispatchEvent.or
        (s.drawEvent.or ((s.dies.find? (·.returns)).map fun d => .dieReadmit d.id))))))))

/-- A cycle passes. -/
def State.tick (s : State) : State := s.passTo (s.clock + 1)

/-! ### The outside world -/

/-- A move of the outside world that no row of the table names. -/
def State.input (s : State) : Move → State
  | .event _ => s
  | .focus k => { s with groups := (s.groups.drop k).take 1 ++ s.groups.take k ++ s.groups.drop (k + 1) }
  | .hostWrite pa data => s.agentWrite pa data
  | .barRead function off => s.barRead function off
  | .strike window off data => s.windowCut window off data
  | .send port dest tenant payload => s.sendFlit port dest tenant payload
  | .replay port seq => s.replayFlits port seq
  | .runtimeImage image => { s with polfel := { s.polfel with runtime := image } }
  | .fabric dev routes => { s.takeDev (dev % 64) with routes := routes }.dropLost
  | .spoil pa => { s with mem := cellSet pa (~~~ cellGet pa s.mem) s.mem }
  | .elapse n =>
      let k := s.stride n
      let s := s.passTo (s.clock + k)
      if k < n then { s with agenda := .elapse (n - k) :: s.agenda } else s

/-! ### A word placed to issue next -/

/-- A 64-bit entry at an address of memory. -/
def placeEntry (pa x : Nat) (m : List Host.Cell) : List Host.Cell := cellsSet m pa (bytesLE 8 x)

/-- The address space of a placed word: ASID 1 maps the first GiB of virtual addresses onto the same physical ones. -/
def placeSpace (sup : Bool) (m : List Host.Cell) : List Host.Cell :=
  placeEntry 0x103000 0x6A1 (placeEntry 0x102000 0x103001
    (cellsSet (placeEntry 0x100010 0x102000 m) 0x100018 [0, BitVec.ofNat 8 (1 + 2 * sup.toNat)]))

/-- The kernel of a placed word: one thread with every register, barrier and handle; a control stream where the word is a
stream's. -/
def placeKernel (sup stream : Bool) : Kernel :=
  { threads := 1, vregs := 96, kregs := 31, scratch := 4096, bars := 16, lands := 8, sup := sup, control := if stream then 64 else 0
    handler := 0 }

/-- What the checks of a clause look at for a placed word. -/
def placeLimits (sup stream handler : Bool) : Limits :=
  { stream := stream, vregs := 96, kregs := 31, bars := 16, lands := 8, sup := sup, handler := handler }

/-- The team that issues a placed word: it has just been placed on core 0, and its thread, or its stream, is in the pipe. -/
def placeTeam (s : State) (sup stream handler : Bool) (fall : Nat) : Team :=
  let t : Task := { kernel := 0x200000, arg := 0, x := 0, y := 0, z := 0, flags := 0, join := 0, haul := 0, owner := ownerWord sup 0 1
                    deadline := 0, addr := 0, order := 0, launch := none, landing := none, ldesc := 0, set := none, clus := 0 }
  let tm := Team.start s.ids 0 0 t (placeKernel sup stream) s.clock 0 0 false
  { tm with threads := tm.threads.map fun h =>
      if h.ctl == stream then { h with status := .issuing, pc := fall, handler := handler } else h }

/-- The state with an instruction's bits, and zeros behind them, in a clause that a pipe is issuing, at its first word:
the module has booted, tenant 0 runs one team, and the clause stands in memory. -/
def State.place1 (s : State) (nbits w : Nat) : State :=
  let v := w % 2 ^ nbits
  let ws := [tableWord v 0, tableWord v 1, tableWord v 2]
  let i := match decode ws with | .ok (i, _) => i | .error _ => .nop
  let plain := i.legalIn (placeLimits false false false)
  let stream := !plain && i.legalIn (placeLimits false true false)
  let sup := !plain && !stream
  let hdr : Word := BitVec.ofNat 32 (3 * 2 ^ 28 + ((clsNum i.cls).getD 0) * 2 ^ 25)
  let base := 0x200040
  let g : Group := { ctl := stream, unit := 0, pipe := 0, team := s.ids, handler := sup, header := base, idx := 1, words := hdr :: ws
                     slots := [if stream then tidCtl else 0] }
  let m := cellsSet (placeSpace sup s.mem) base ((hdr :: ws).flatMap fun x => bytesLE 4 x.toNat)
  { s.modTenant 0 (fun t => { t with state := .active, teamq := 1 }) with
    phase := .open, agenda := [], groups := [g], tickCtime := s.clock / 256, tickPressure := s.clock / 1024, mem := m, teams := [placeTeam s sup stream sup (base + 16)], ids := s.ids + 1
    regs := { s.regs with asidtab := 0x100000 }, polfel := { s.polfel with booted := some 0 } }

end Sys2Proof.Machine
end

