-- ==== Sys2Proof/Machine/Step.lean ====
section
/-!
DEFINITION. One step: what time brings, or the move that the agenda names, or the next word of the issuing group, or the event
that the machine takes by itself (log 2).
-/

namespace Sys2Proof.Machine

/-- Carries a next state on through `f`. -/
def andThen (f : State → State) : Host.Outcome State Fault Refusal → Host.Outcome State Fault Refusal
  | .next s => .next (f s)
  | .fault e => .fault e
  | .refused r => .refused r

/-- A move of the agenda: a row that is an event, or an input. -/
def runMove (m : Move) (s : State) : Host.Outcome State Fault Refusal :=
  match m with
  | .event i => if i.isEvent then exec i s else .next s
  | m => .next (s.input m)

/-- The event that the machine takes by itself; with none due, a cycle passes. -/
def stepEvent (s : State) : Host.Outcome State Fault Refusal :=
  match s.nextEvent with
  | some i => exec i s
  | none => .next s.tick

/-- The next word of the issuing group, which then moves past it; a word that is held waits for the machine's other events, and
every word for the pushes and pops that a landing can serve, which came before it (R148, R258). -/
def stepWord (g : Group) (s : State) : Host.Outcome State Fault Refusal :=
  match g.next with
  | .ok (i, n) =>
      if s.heldUp g i then stepEvent s
      else match s.serveEvent with
        | some j => exec j s
        | none => andThen (·.advance n) (exec i s)
  | .error _ => .next ((s.badWord g).advance 1)

/-- A step in a cycle in which time brings nothing more. -/
def stepOn (s : State) : Host.Outcome State Fault Refusal :=
  match s.agenda with
  | m :: rest => runMove m { s with agenda := rest }
  | [] =>
      if s.phase = .dead then .fault .moduleFatal
      else
        match s.groups with
        | g :: _ => stepWord g s
        | [] => stepEvent s

/-- One step: what time brings comes first in its cycle (R258). -/
def step (s : State) : Host.Outcome State Fault Refusal :=
  match s.timeEvent with
  | some i => exec i s
  | none => stepOn s

/-- The state in which an instruction with given bits is the next to run (log 2). -/
def State.withFetchWord (s : State) (nbits w : Nat) : State := s.place1 nbits w

end Sys2Proof.Machine
end

