-- ==== Sys2Proof/Safety.lean ====
section
/-!
DEFINITION. The terms in which claims speak: which threads a word runs in, what a word that each thread computes by
itself does to the whole machine, one thread after another, and what must stay as it is.
-/

namespace Sys2Proof.Machine

/-! ### Words that each thread computes by itself -/

/-- Whether a word with modifier `m`, issued by group `g`, runs in the thread `h` of the team `tm` (R40, R67). -/
def runsIn (s : State) (g : Group) (m : Mods) (tm : Team) (h : Thread) : Bool :=
  tm.id == g.team && g.holds h && (s.env tm).guardTrue h m

/-- What a word that each thread computes by itself makes of the machine: `F` of every thread it runs in, every
other thread as it was, and no change of anything else but the model's own counter (log 8). -/
structure Lanes (s t : State) (g : Group) (m : Mods) (F : Env → Thread → Thread) : Prop where
  thread : ∀ id tid tm h, s.team? id = some tm → tm.thread? tid = some h →
    t.thread? id tid = some (if runsIn s g m tm h then F (s.env tm) h else h)
  absent : ∀ id tid, s.thread? id tid = none → t.thread? id tid = none
  team : ∀ id tm, s.team? id = some tm → ∃ l, t.team? id = some { tm with threads := l }
  rest : ∃ l, t = { s with teams := l, fresh := s.fresh + 1 }

/-- The instruction completes in a next state that is `Lanes`. -/
def RunsAs (i : Instr) (s : State) (g : Group) (F : Env → Thread → Thread) : Prop :=
  ∃ t, exec i s = .next t ∧ Lanes s t g i.mods F

/-- A fixed-latency word: its results are in the thread before the next word issues (R56). -/
def RunsNow (i : Instr) (s : State) (g : Group) (f : Env → Thread → Out) : Prop :=
  RunsAs i s g fun e h => (f e h).now h

/-- A variable-latency word: its results are in flight on a counter (R54). -/
def RunsLater (i : Instr) (s : State) (g : Group) (c : Ctr) (f : Env → Thread → Out) : Prop :=
  RunsAs i s g fun e h => h.launch ((f e h).later c none)

/-! ### What a word that only computes may write -/

/-- The results of a word that only computes: its destination, with whether that is 64 bits wide, its predicate, and whether they
are in flight on WA. -/
structure Results where
  dst : Option (Code × Bool)
  pred : Option P3
  late : Bool
  deriving DecidableEq, Repr

/-- The registers among the results, by number: a 64-bit result of a team thread is a pair (R58, R69). -/
def Results.regs (r : Results) (ctl : Bool) : List Nat :=
  match r.dst with
  | some (d, wide) => if wide && !ctl then [d.toNat, d.toNat + 1] else [d.toNat]
  | none => []

/-- The words that only compute, with what the description of each gives it to write (R77 to R107). -/
def computes : Instr → Option Results
  | .mov d _ t _ | .movDl d t _ _ | .iadd d _ _ t _ | .iaddDl d _ t _ _ | .isub d _ _ t _ | .imul d _ _ t _
  | .imulDl d _ t _ _ | .imulh d _ _ t _ | .imad d _ _ t _ | .imin d _ _ t _ | .imax d _ _ t _ | .iabs d _ t _
  | .and d _ _ t _ | .andDl d _ t _ _ | .or d _ _ t _ | .orDl d _ t _ _ | .xor d _ _ t _ | .xorDl d _ t _ _
  | .andn d _ _ t _ | .shl d _ _ t _ | .shr d _ _ t _ | .sar d _ _ t _ | .rotl d _ _ t _ | .popc d _ t _ | .clz d _ t _
  | .ctz d _ t _ | .brev d _ t _ | .bfx d _ _ t _ | .bfi d _ _ t _ | .fadd d _ _ t _ | .faddDl d _ t _ _
  | .fsub d _ _ t _ | .fmul d _ _ t _ | .fmulDl d _ t _ _ | .ffma d _ _ t _ | .fmin d _ _ t _ | .fminDl d _ t _ _
  | .fmax d _ _ t _ | .fmaxDl d _ t _ _ | .frnd d _ _ t _ => some ⟨some (d, t.isPair), none, false⟩
  | .movi d _ _ | .iaddi d _ _ _ | .sel d _ _ _ _ | .fclass d _ _ _ => some ⟨some (d, false), none, false⟩
  | .shli d _ w _ _ | .shri d _ w _ _ | .sari d _ w _ _ => some ⟨some (d, w), none, false⟩
  | .lea d _ _ _ _ => some ⟨some (d, true), none, false⟩
  | .sread d n _ => some ⟨some (d, n.isWide), none, false⟩
  | .fcvt d _ dst _ _ _ => some ⟨some (d, dst == .f64), none, false⟩
  | .icvt d _ flt int toInt _ _ => some ⟨some (d, if toInt then int == .i64 || int == .n64 else flt == .f64), none, false⟩
  | .iaddc d _ _ p _ => some ⟨some (d, false), some p, false⟩
  | .icmp _ _ pd _ _ _ _ | .icmpDl _ _ pd _ _ _ _ | .icmpi _ _ pd _ _ _ | .fcmp _ _ pd _ _ _ _
  | .fcmpDl _ _ pd _ _ _ _ => some ⟨none, some pd, false⟩
  | .idiv d _ _ t _ | .irem d _ _ t _ | .frcp d _ t _ | .frsq d _ t _ | .fsqrt d _ t _ | .fdiv d _ _ t _ | .fexp2 d _ t _
  | .flog2 d _ t _ | .ftanh d _ t _ => some ⟨some (d, t.isPair), none, true⟩
  | .gshf d _ _ _ _ | .gbcst d _ _ _ | .gvote d _ _ => some ⟨some (d, false), none, true⟩
  | .gscan d _ _ _ t | .gred d _ _ t => some ⟨some (d, t.isPair), none, true⟩
  | _ => none

/-- A thread after a word with results `r` has run in it, and no other thing of it than those may change. -/
def Results.frame (r : Results) (h h' : Thread) : Prop :=
  h' = { h with v := h'.v, c := h'.c, p := h'.p, flags := h'.flags, pend := h'.pend }
  ∧ (∀ j, j ∉ r.regs h.ctl → h'.raw j = h.raw j)
  ∧ (∀ j, (∀ p, r.pred = some p → p.toNat ≠ j) → h'.rawPred j = h.rawPred j)
  ∧ h'.flags ||| h.flags = h'.flags
  ∧ if r.late then
      h'.v = h.v ∧ h'.c = h.c ∧ h'.p = h.p ∧ h'.flags = h.flags
      ∧ ∃ q, h'.pend = h.pend ++ [q] ∧ q.ctr = .wa ∧ (∀ w ∈ q.regs, w.idx ∈ r.regs h.ctl) ∧ q.preds = []
    else h'.pend.map (·.ctr) = h.pend.map (·.ctr)

/-! ### Results in bit vectors -/

/-- An operation on two elements, for each width. -/
abbrev Op2 := (w : Nat) → BitVec w → BitVec w → BitVec w

/-- The bits of an operand or result of type `t` that hold elements of `w` bits, as numbers. -/
def onElems (t : ElemTy) (f : (w : Nat) → (Nat → BitVec w) → BitVec w) : Nat :=
  if ElemTy.packed t then (f 16 fun x => BitVec.ofNat 16 (x / 65536)).toNat * 65536 + (f 16 (BitVec.ofNat 16)).toNat
  else if t.isPair then (f 64 (BitVec.ofNat 64)).toNat
  else (f 32 (BitVec.ofNat 32)).toNat

/-- Two operands of type `t` combined element by element (R74, R82). -/
def elems2 (t : ElemTy) (f : Op2) (x y : Nat) : Nat := onElems t fun w el => f w (el x) (el y)

/-- One operand of type `t` mapped element by element. -/
def elems1 (t : ElemTy) (f : (w : Nat) → BitVec w → BitVec w) (x : Nat) : Nat := onElems t fun w el => f w (el x)

/-- The exact value of an element as its type reads it: unsigned for n32, signed otherwise (R74). -/
def exactT (t : ElemTy) {w : Nat} (x : BitVec w) : Int := if t = .n32 then (x.toNat : Int) else x.toInt

/-- Whether an element is less than another as its type reads them. -/
def lessT (t : ElemTy) {w : Nat} (x y : BitVec w) : Bool := if t = .n32 then x.ult y else x.slt y

/-- The least and the greatest number of an integer type of `w` bits. -/
def boundsT (t : ElemTy) (w : Nat) : Int × Int :=
  if t = .n32 then (0, 2 ^ w - 1) else (-(2 ^ (w - 1)), 2 ^ (w - 1) - 1)

/-- An exact result clamped to its type, element by element; SAT (bit 5) if any element lay outside (R76, R82). -/
def satElems (t : ElemTy) (ops : List Nat) (f : List Int → Int) : Nat × BitVec 6 :=
  let one := fun (w : Nat) (el : Nat → BitVec w) => f (ops.map fun x => exactT t (el x))
  let out := fun (w : Nat) (x : Int) => decide (x < (boundsT t w).1 ∨ (boundsT t w).2 < x)
  (onElems t fun w el => BitVec.ofInt w (max (boundsT t w).1 (min (boundsT t w).2 (one w el))),
    if ElemTy.packed t then
      (if out 16 (one 16 fun x => BitVec.ofNat 16 (x / 65536)) || out 16 (one 16 (BitVec.ofNat 16)) then 32 else 0)
    else if t.isPair then (if out 64 (one 64 (BitVec.ofNat 64)) then 32 else 0)
    else if out 32 (one 32 (BitVec.ofNat 32)) then 32 else 0)

/-- A relation between two elements in bit-vector comparisons. -/
def relBits (t : ElemTy) (u : Bool) (rel : Rel) (x y : Nat) : Bool :=
  let less := fun (w : Nat) (x y : Nat) =>
    if u || t == .n32 then (BitVec.ofNat w x).ult (BitVec.ofNat w y) else (BitVec.ofNat w x).slt (BitVec.ofNat w y)
  let lt := fun x y => if t.isPair then less 64 x y else less 32 x y
  match rel with
  | .eq => x == y | .ne => x != y | .lt => lt x y | .le => !lt y x | .gt => lt y x | .ge => !lt x y

/-- The position of a bit field (R89). -/
def fieldPos (y : Word) : Nat := (y.extractLsb' 0 8).toNat
/-- The length of the part of a bit field that lies within 32 bits (R89). -/
def fieldLen (y : Word) : Nat := min (y.extractLsb' 8 8).toNat (32 - fieldPos y)
/-- As many ones as the field has bits. -/
def fieldMask (y : Word) : Word := BitVec.ofNat 32 (2 ^ fieldLen y - 1)

/-- A result of type `t` without flags. -/
def valT (h : Thread) (t : ElemTy) (d : Code) (v : Nat) : Out := outT h t d (v, 0)

/-! ### Values of floats -/

/-- The value of a finite number, in the reals. -/
noncomputable def Num.toReal : Num → ℝ
  | .fin n m e => (if n then -1 else 1) * m * (2 : ℝ) ^ e
  | _ => 0

/-- The value of a number that is no NaN, in the extended reals. -/
noncomputable def Num.toEReal : Num → EReal
  | .inf n => if n then ⊥ else ⊤
  | x => (x.toReal : EReal)

/-- Whether a number is finite. -/
def Num.isFin : Num → Bool
  | .fin .. => true
  | _ => false

/-- What m · 2^e, as the operand of one rounding to `p` bits, stands for: a positive real number itself, or, m being odd
and long enough, a number strictly between its two neighbours on that grid. -/
def standsFor (p m : Nat) (e : Int) (x : ℝ) : Prop :=
  (m : ℝ) * 2 ^ e = x ∨
    (m % 2 = 1 ∧ 2 ^ (p + 2) ≤ m ∧ ((m : ℝ) - 1) * 2 ^ e < x ∧ x < ((m : ℝ) + 1) * 2 ^ e)

/-- A result is one rounding of a real number by a mode and SAT (R76, R92). -/
def Fmt.roundsTo (f : Fmt) (rm : Rm) (sat : Bool) (x : ℝ) (r : Nat × BitVec 6) : Prop :=
  ∃ m e, standsFor (f.man + 1) m e |x| ∧ r = f.round rm sat (decide (x < 0)) m e

/-- Whether a real number lies in finite region `i` of a ring with the values `vs` (R268): an even region is the value
itself, an odd one the open interval beside it. -/
def inRegion (vs : List Word) (i : Nat) (x : ℝ) : Prop :=
  let v := fun (k : Nat) => (fmtF32.unpack (vs.getD (k - 1) 0).toNat).toReal
  1 ≤ i ∧ i ≤ 2 * vs.length + 1 ∧
    if i % 2 = 0 then x = v (i / 2)
    else (i = 1 ∨ v (i / 2) < x) ∧ (i / 2 = vs.length ∨ x < v (i / 2 + 1))

/-- The value of a PP8 byte (R216): the sum of two signed powers of two. -/
noncomputable def pp8Real (b : Nat) : ℝ :=
  (if b / 128 % 2 = 1 then -1 else 1) * (2 : ℝ) ^ (-(b / 16 % 8 : Int)) + (if b / 8 % 2 = 1 then -1 else 1) * (2 : ℝ) ^ (-(b % 8 : Int))

/-- The fields a and b of a PP8 byte as one number, a above b. -/
def pp8Rank (b : Nat) : Nat := b / 16 % 8 * 8 + b % 8

/-- Whether a PP8 byte is the canonical encoding of its value: the smallest a, then the smallest b, then the smaller byte. -/
def pp8Canon (b : Nat) : Prop :=
  b < 256 ∧ ∀ c, c < 256 → pp8Real c = pp8Real b → pp8Rank b < pp8Rank c ∨ (pp8Rank b = pp8Rank c ∧ b ≤ c)

/-- Whether a byte is what R100 rounds a number between -2 and 2 to in PP8. -/
def pp8Picks (rm : Rm) (q : ℝ) (b : Nat) : Prop :=
  pp8Canon b ∧ match rm with
    | .rne => ∀ c, pp8Canon c → c ≠ b → |pp8Real b - q| < |pp8Real c - q| ∨ (|pp8Real b - q| = |pp8Real c - q| ∧
        (pp8Rank c < pp8Rank b ∨ (pp8Rank c = pp8Rank b ∧ |pp8Real b| < |pp8Real c|)))
    | .rtz => 0 ≤ pp8Real b * q ∧ |pp8Real b| ≤ |q| ∧
        ∀ c, pp8Canon c → 0 ≤ pp8Real c * q → |pp8Real c| ≤ |q| → |pp8Real c| ≤ |pp8Real b|
    | .rup => q ≤ pp8Real b ∧ ∀ c, pp8Canon c → q ≤ pp8Real c → pp8Real b ≤ pp8Real c
    | .rdn => pp8Real b ≤ q ∧ ∀ c, pp8Canon c → pp8Real c ≤ q → pp8Real c ≤ pp8Real b

/-- The four formats that arithmetic words compute in. -/
def arithFmts : List Fmt := [fmtF16, fmtBf16, fmtF32, fmtF64]

/-- A float word's result: `f` on each element after the sign fields, CLAMP after it (R92). -/
def floatOut (h : Thread) (t : ElemTy) (d : Code) (m : Mods) (f : List Nat → Nat × BitVec 6) (xs : List Nat) : Out :=
  let one := fun l =>
    let l := match l with
      | x :: y :: l => (fmtOf t).sign (modArith m).absa (modArith m).nega x
          :: (fmtOf t).sign (modArith m).absb (modArith m).negb y :: l
      | l => l.map ((fmtOf t).sign (modArith m).absa (modArith m).nega)
    let r := f l
    (if (modArith m).clamp then (fmtOf t).clamp r.1 else r.1, r.2)
  outT h t d (lift t one xs)

/-! ### Words that the threads of a group perform in turn -/

/-- The threads of a list act one after another: each by `R`, from the state the one before it left (R76). -/
inductive OneByOne (R : State → Nat → State → Prop) : State → List Nat → State → Prop
  | nil (s : State) : OneByOne R s [] s
  | cons {s s' t : State} {tid : Nat} {l : List Nat} : R s tid s' → OneByOne R s' l t → OneByOne R s (tid :: l) t

/-- A thread of the issuing group's team acts by `R`, which sees its team and the thread as they then stand. -/
def ByThread (g : Group) (R : State → Team → Thread → State → Prop) (s : State) (tid : Nat) (s' : State) : Prop :=
  ∀ tm h, s.team? g.team = some tm → tm.thread? tid = some h → R s tm h s'

/-- The instruction completes in a next state that the active threads of the group reach in ascending slot order, each
by `R` (R76); the model's counter (log 8) moves on. -/
def RunsEach (i : Instr) (s : State) (g : Group) (R : State → Team → Thread → State → Prop) : Prop :=
  ∃ t, exec i s = .next { t with fresh := t.fresh + 1 } ∧ OneByOne (ByThread g R) s (s.active g i.mods) t

/-- The instruction completes, performed once by the lowest active slot; with none active nothing changes. -/
def RunsOnce (i : Instr) (s : State) (g : Group) (R : State → Team → Thread → State → Prop) : Prop :=
  (s.active g i.mods = [] → exec i s = .next s) ∧
  ∀ tid l, s.active g i.mods = tid :: l → ∃ t, exec i s = .next { t with fresh := t.fresh + 1 } ∧ ByThread g R s tid t

/-- The threads of a list add their parts to an engine command one after another (R308): one whose part fails its checks
traps, and may still bring the record that `late` reads (R315); every other is acknowledged on WX. -/
inductive Adds (f : State → Nat → State × Except Bad Part) (late : State → Nat → State × Except Bad (Option (List Byte × DWord)))
    (g : Group) : State → List Nat → State → Part → Prop
  | nil (s : State) : Adds f late g s [] s Part.empty
  | failed {s s' s'' t : State} {tid : Nat} {l : List Nat} {b : Bad} {r : Except Bad (Option (List Byte × DWord))} {p : Part} :
      f s tid = (s', .error b) → late s' tid = (s'', r) → Adds f late g (s''.trap g tid b) l t p →
      Adds f late g s (tid :: l) t ({ Part.empty with task := r.toOption.getD none }.add p)
  | added {s s' t : State} {tid : Nat} {l : List Nat} {q p : Part} :
      f s tid = (s', .ok q) → Adds f late g (s'.results g tid .wx { regs := [], preds := q.pred.toList, flags := 0 } none) l t p →
      Adds f late g s (tid :: l) t (q.add p)

/-! ### Fault logs (R335, R336) -/

/-- Some records are posted in the log at an address, in their order, and no other byte of memory changes: the n-th of a log, counted by
its POSTED, stands at 64 + 64 * (n mod 63); without a log nothing is written. -/
def logsPosted (s t : State) (base : Nat) (l : List (List Byte)) : Prop :=
  let n := leNat ((List.range 4).map fun i => cellGet (base + i) s.mem)
  (base = 0 → ∀ a, cellGet a t.mem = cellGet a s.mem)
  ∧ (base ≠ 0 → n + l.length < 2 ^ 32 → l.length ≤ 63 → (∀ r ∈ l, r.length = 64) →
      (∀ i r, l[i]? = some r → ∀ k, k < 64 → cellGet (base + 64 + 64 * ((n + i) % 63) + k) t.mem = r.getD k 0)
      ∧ (∀ k, k < 4 → cellGet (base + k) t.mem = (bytesLE 4 (n + l.length)).getD k 0)
      ∧ ∀ a, ¬ (base ≤ a ∧ a < base + 4) →
          (∀ i, i < l.length → ¬ (base + 64 + 64 * ((n + i) % 63) ≤ a ∧ a < base + 128 + 64 * ((n + i) % 63))) →
          cellGet a t.mem = cellGet a s.mem)

/-- Stopping an owner number writes no memory by itself: no command of a team of it is in an engine, and its teams have halted
already, or have no slot to note the halt in (R339). -/
def quietOwner (s : State) (id : Nat) : Prop :=
  (∀ c ∈ s.cmds, ∀ x, s.team? c.team = some x → ownerId x.task.owner ≠ id) ∧
    ∀ x ∈ s.teams, ownerId x.task.owner = id → x.state = .halt ∨
      (x.state = .run ∧ (x.sup = true ∨ s.slotPa x (s.slotAddr x + 8) true = none))

/-- The vector 0 of a function has fired `n` times more. -/
def vectorsFired (s t : State) (n unit : Nat) : Prop :=
  (t.polfel.replies.filter (· = .vector unit 0)).length = (s.polfel.replies.filter (· = .vector unit 0)).length + n

/-! ### What every step keeps -/

/-- The invariant of the machine's memories: memory, every scratchpad and every saved one keep the canonical form, and the
dirty bytes of a line of an L1 lie in the line, none of them named twice. -/
structure State.Inv (s : State) : Prop where
  mem : Memory.wf s.mem = true
  scratch : ∀ tm ∈ s.teams, Memory.wf tm.mem = true
  images : ∀ tm ∈ s.teams, ∀ x ∈ tm.images, Memory.wf x.mem = true
  lines : ∀ c ∈ s.cores, ∀ x ∈ c.lines, (x.dirty.map (·.off)).Nodup
  offs : ∀ c ∈ s.cores, ∀ x ∈ c.lines, ∀ d ∈ x.dirty, d.off < 64

/-! ### What agents see of memory -/

/-- The dirty byte that core `c` holds for a physical address, if it holds one (R195). -/
def State.dirtyByte (s : State) (c pa : Nat) : Option Byte :=
  ((s.core c).lines.find? (·.pa = lineOf pa)).bind fun x => (x.dirty.find? (·.off = pa % 64)).map (·.val)

/-- The byte that core `c` reads through its L1 under a tagged virtual address: its own dirty byte, else a byte it holds under
a live lease on a line that it has fetched under such an address, else the byte that a fetch of the line would bring (R192,
R195, R204). -/
def State.coreByte (s : State) (c va pa : Nat) : Byte :=
  match s.dirtyByte c pa with
  | some b => b
  | none =>
      match (s.core c).lines.find? (·.pa = lineOf pa) with
      | some x =>
          if x.valid (s.core c).ctime (s.die (dieOfCore c)).epoch && x.knows va then x.data.getD (pa % 64) 0
          else (s.fetched c (lineOf pa)).getD (pa % 64) 0
      | none => (s.fetched c (lineOf pa)).getD (pa % 64) 0

/-- The byte of memory that an access of an agent at the home meets: its core's own dirty byte is written back first
(R183); a control stream has no L1 (R223). -/
def State.homeMem (s : State) (ag : Agent) (pa : Nat) : Byte :=
  if ag.stream then cellGet pa s.mem else (s.dirtyByte ag.core pa).getD (cellGet pa s.mem)

/-- The byte that an access of an agent at a location's home meets there: of the scratchpad's array, or of memory. -/
def State.homeByte (s : State) (ag : Agent) (l : Loc) (i : Nat) : Byte :=
  match l with
  | .scr t o => ((s.team? t).map fun tm => cellGet (o + i) tm.mem).getD 0
  | l => s.homeMem ag (s.paOf l + i)

/-- The byte that an agent's access at an address and its location meets: through its L1 where the access may use it, at the
home otherwise. -/
def State.seenByte (s : State) (ag : Agent) (va : Nat) (l : Loc) (hint : Hint) (i : Nat) : Byte :=
  if s.cacheable ag l hint then s.coreByte ag.core (tagVa ag.asid va) (s.paOf l + i) else s.homeByte ag l i

/-- Whether the home of a location's line is in service; a scratchpad always is. -/
def State.answers (s : State) (l : Loc) : Prop :=
  match l with
  | .scr _ _ => True
  | l => s.homeUp (lineOf (s.paOf l)) = true

/-- Two ranges of bytes share none. -/
def apart (a n b m : Nat) : Prop := a + n ≤ b ∨ b + m ≤ a

/-- A run copies `n` bytes of memory from one address to another unconverted (R313). -/
def copies (r : CopyRun) (src dst n : Nat) : Prop :=
  r.conv = 0 ∧ (∃ q, r.src = [{ loc := .mem src, len := n, pin := q }]) ∧ ∃ q, r.dst = [{ loc := .mem dst, len := n, pin := q }]

/-- Whether the byte at an address is a dirty byte of an agent's core that its acquire has had written back: a control
stream's acquire does (R187). -/
def wroteBack (s t : State) (ag : Agent) (acq : Bool) (a : Nat) : Prop :=
  ag.stream = true ∧ acq = true ∧ ∃ x ∈ (s.core ag.core).lines, ∃ d ∈ x.dirty, lineOf x.pa + d.off = a ∧ cellGet a t.mem = d.val

/-- Bytes stored at a location's home: in the scratchpad or in memory exactly those bytes become `new`. Every other byte
of that array or of memory is as in `s`, but that dirty bytes of the agent's core in the same aligned 8 bytes are written
back with them (R184), and all of them if the word is a control stream's acquire. -/
def storedAtHome (s t : State) (ag : Agent) (acq : Bool) (l : Loc) (n : Nat) (new : Nat → Byte) : Prop :=
  match l with
  | .scr id o => (∀ a, cellGet a t.mem = cellGet a s.mem ∨ wroteBack s t ag acq a) ∧
      ∀ tm, s.team? id = some tm → ∃ tm', t.team? id = some tm' ∧
        ∀ a, cellGet a tm'.mem = if o ≤ a ∧ a < o + n then new (a - o) else cellGet a tm.mem
  | l =>
      let pa := s.paOf l
      ∀ a, (cellGet a t.mem = if pa ≤ a ∧ a < pa + n then new (a - pa)
          else if pa / 8 * 8 ≤ a ∧ a < (pa + n + 7) / 8 * 8 then s.homeMem ag a else cellGet a s.mem)
        ∨ wroteBack s t ag acq a

/-- A thread gets a word in flight on counter `c` that writes `regs` and raises `fl` when it returns, and is otherwise
as it was. -/
def inFlight (t : State) (g : Group) (h : Thread) (c : Ctr) (regs : List (Nat × DWord)) (fl : BitVec 6) : Prop :=
  t.thread? g.team h.tid = some (h.launch
    { ctr := c, regs := regs.map fun r => { idx := r.1, val := r.2, clash := false }, preds := [], flags := fl, hold := none })

/-- A thread gets a memory word in flight on WS that writes `regs` and raises `fl` when it returns, a release no sooner than
the thread's earlier accesses (R133), and is otherwise as it was. -/
def inOrder (t : State) (g : Group) (h : Thread) (m : Mods) (regs : List (Nat × DWord)) (fl : BitVec 6) : Prop :=
  t.thread? g.team h.tid = some (h.launch
    { ctr := .ws, regs := regs.map fun r => { idx := r.1, val := r.2, clash := false }, preds := [], flags := fl, hold := none
      tie := if (syncOf m).order.releases then .release else .free })

/-- A thread gets the results of a word in flight on counter `c`, and is otherwise as it was. -/
def gets (t : State) (g : Group) (h : Thread) (c : Ctr) (o : Out) : Prop :=
  t.thread? g.team h.tid = some (h.launch (o.later c none))

/-- A thread gets a MAT word in flight on WT that reads and writes tiles (R224), that makes others READY when it is complete
(R225), that acts on a bank (R235), and that raises flags, and is otherwise as it was. -/
def onTiles (t : State) (g : Group) (h : Thread) (fl : BitVec 6) (reads writes drains : List Nat) (bank : Option Nat) : Prop :=
  t.thread? g.team h.tid = some (h.launch
    { ack .wt with flags := fl, reads := reads, writes := writes, drains := drains, bank := bank })

/-- A thread has left a blocked word: it is ready, filed or spilled, at the PC it had, or parks there, where its clause says so
(`park`) and words of it are in flight (R55). -/
def resumed (t : State) (team tid : Nat) (h : Thread) (park : Bool) : Prop :=
  ∃ h', t.thread? team tid = some h' ∧ (h'.status = .ready ∨ h'.status = .spill ∨ (∃ n, h'.status = .bin n) ∨
      (h'.status = .parked ∧ h'.pend ≠ [] ∧ park = true)) ∧
    h'.pc = h.pc ∧ h'.word = h.word ∧ h'.handler = h.handler ∧ h'.rm = h.rm

/-- Bit P of the clause of a contributor's word: of the group that issues it, or of the clause in which it has blocked. -/
def joinPark (g : Group) (tid : Nat) (h : Thread) : Bool :=
  match h.status with
  | .blocked y => y.park
  | _ => h.tid == tid && g.park

/-- A thread has been filed anew at a place of the code: ready, in a bin or spilled, and otherwise as it was but for its
age and the marks of a yield. -/
def filedAt (t : State) (team tid : Nat) (h : Thread) (pc word : Nat) : Prop :=
  ∃ h', t.thread? team tid = some h' ∧ (h'.status = .ready ∨ h'.status = .spill ∨ ∃ n, h'.status = .bin n) ∧
    { h' with age := h.age, yielded := h.yielded, refile := h.refile, status := h.status } = { h with pc := pc, word := word }

/-- What a fault record says (R333, R336): FAULT with a cause and a DETAIL, the owner, FADDR, FPC, TID, the place and the
kernel of the team. -/
def recordSays (r : List Byte) (tm : Team) (tid code detail : Nat) (u : Trap) : Prop :=
  r.length = 64 ∧ leNat (r.take 4) = detail * 4096 + u.write.toNat * 2048 + u.cls.toNat * 256 + code
    ∧ leNat ((r.drop 4).take 4) = tm.task.owner.toNat ∧ leNat ((r.drop 8).take 8) = u.addr.toNat % 2 ^ 48
    ∧ leNat ((r.drop 16).take 8) = u.word % 16 * 2 ^ 48 + u.header % 2 ^ 48 ∧ leNat ((r.drop 24).take 4) = tid % 2 ^ 32
    ∧ leNat ((r.drop 28).take 4) = (tm.core * 65536 + tm.slot) % 2 ^ 32 ∧ leNat ((r.drop 32).take 8) = tm.task.kernel.toNat

/-- One more fatal cause has been raised, for the owner of a team (R335). -/
def raised (s t : State) (tm : Team) (tid code detail : Nat) (u : Trap) : Prop :=
  ∃ f, t.fatals = s.fatals ++ [f] ∧ f.tenant = tm.tenant ∧ f.sup = tm.sup ∧ recordSays f.record tm tid code detail u

/-- The effective address of a load or store (R60): the byte address, and for 4 bits the nibble. -/
def accessAt (size : MemSize) (base : DWord) (off : BitVec 7) : Nat × Nat :=
  if size = .b4 then ((base + (off.signExtend 64).sshiftRight 1).toNat, (off.getLsbD 0).toNat)
  else ((base + off.signExtend 64 * BitVec.ofNat 64 (sizeBytes size)).toNat, 0)

end Sys2Proof.Machine
end

