-- ==== Sys2Proof/Certificates/Slice0/Obligations.lean ====
section
/-!
DEFINITION. What is claimed of the machine: for each family of words and events what it does and what it leaves as it
was, the encodings, and what every step keeps.
-/

open Sys2Proof Sys2Proof.Machine

/-! ### Integer words (R77 to R91) -/

/-- R82, R76: without SAT, IADD, IADDI, ISUB, IMUL and IMAD leave in each element of the destination the sum,
difference, product, or product plus addend, modulo the element's width, and raise no flag. The next state is given
whole: no other register, predicate, flag, thread, special register or byte of memory changes.

R82, R76: with SAT, the same words and IABS clamp the exact result of each element to the range of its type
(unsigned for n32, signed otherwise), and raise SAT exactly when an element's exact result lies outside it. -/
def Obligations.IntArithmetic : Prop :=
  (∀ (s : State) (g : Group) (rest : List Group) (d a b : Code) (t : ElemTy) (m : Mods) (lit : Word) (imm : BitVec 10),
      s.groups = g :: rest → modSat m = false → t.isInt4 = true →
      RunsNow (.iadd d a b t m) s g (fun e h => valT h t d (elems2 t (fun _ x y => x + y) (e.rdT h t a 0) (e.rdT h t b 2)))
      ∧ RunsNow (.iaddDl d a t lit m) s g (fun e h => valT h t d (elems2 t (fun _ x y => x + y) (e.rdT h t a 0) (litVal t lit)))
      ∧ RunsNow (.iaddi d a imm m) s g (fun e h => Out.reg (h.dst32 d (e.rd32 h a 0 + imm.signExtend 32) true))
      ∧ RunsNow (.isub d a b t m) s g (fun e h => valT h t d (elems2 t (fun _ x y => x - y) (e.rdT h t a 0) (e.rdT h t b 2)))
      ∧ RunsNow (.imul d a b t m) s g (fun e h => valT h t d (elems2 t (fun _ x y => x * y) (e.rdT h t a 0) (e.rdT h t b 2)))
      ∧ RunsNow (.imulDl d a t lit m) s g (fun e h => valT h t d (elems2 t (fun _ x y => x * y) (e.rdT h t a 0) (litVal t lit)))
      ∧ (t.isInt3 = true → RunsNow (.imad d a b t m) s g (fun e h =>
          valT h t d (onElems t fun _ el => el (e.rdT h t a 0) * el (e.rdT h t b 2) + el (e.rdT h t d 4)))))
  ∧ (∀ (s : State) (g : Group) (rest : List Group) (d a b : Code) (t : ElemTy) (m : Mods) (lit : Word) (imm : BitVec 10),
      s.groups = g :: rest → modSat m = true → t.isInt4 = true →
      RunsNow (.iaddi d a imm m) s g (fun e h => outT h .i32 d (satElems .i32
        [(e.rd32 h a 0).toNat, (imm.signExtend 32).toNat] fun | [x, y] => x + y | _ => 0))
      ∧ RunsNow (.iadd d a b t m) s g (fun e h => outT h t d (satElems t [e.rdT h t a 0, e.rdT h t b 2] fun
        | [x, y] => x + y | _ => 0))
      ∧ RunsNow (.iaddDl d a t lit m) s g (fun e h => outT h t d (satElems t [e.rdT h t a 0, litVal t lit] fun
        | [x, y] => x + y | _ => 0))
      ∧ RunsNow (.isub d a b t m) s g (fun e h => outT h t d (satElems t [e.rdT h t a 0, e.rdT h t b 2] fun
        | [x, y] => x - y | _ => 0))
      ∧ RunsNow (.imul d a b t m) s g (fun e h => outT h t d (satElems t [e.rdT h t a 0, e.rdT h t b 2] fun
        | [x, y] => x * y | _ => 0))
      ∧ RunsNow (.imulDl d a t lit m) s g (fun e h => outT h t d (satElems t [e.rdT h t a 0, litVal t lit] fun
        | [x, y] => x * y | _ => 0))
      ∧ RunsNow (.imad d a b t m) s g (fun e h => outT h t d (satElems t [e.rdT h t a 0, e.rdT h t b 2, e.rdT h t d 4] fun
        | [x, y, z] => x * y + z | _ => 0))
      ∧ RunsNow (.iabs d a t m) s g (fun e h => outT h t d (satElems t [e.rdT h t a 0] fun
        | [x] => |x| | _ => 0)))

/-- R82, R84: IMIN and IMAX give the lesser and the greater of two elements, unsigned for n32 and signed otherwise;
IABS without SAT gives x or its wrapping negation; IMULH gives bits 63:32 of the exact product; IADDC gives the sum
with carry modulo 2^32 and leaves the carry in its predicate.

R83, R82: IDIV gives the quotient truncated toward zero, clamped with SAT, and IREM the remainder with the dividend's
sign, both in flight on WA; a zero divisor gives the all-ones pattern and the dividend, and raises DZ alone.
That IADDC's sum is zero-extended in a stream's c register is the model's reading (log 19). -/
def Obligations.MinMaxAbsHighCarryDivision : Prop :=
  (∀ (s : State) (g : Group) (rest : List Group) (d a b : Code) (t : ElemTy) (p : P3) (m : Mods),
      s.groups = g :: rest → modSat m = false → t.isInt4 = true →
      RunsNow (.imin d a b t m) s g (fun e h => valT h t d
        (elems2 t (fun _ x y => if lessT t x y then x else y) (e.rdT h t a 0) (e.rdT h t b 2)))
      ∧ RunsNow (.imax d a b t m) s g (fun e h => valT h t d
        (elems2 t (fun _ x y => if lessT t x y then y else x) (e.rdT h t a 0) (e.rdT h t b 2)))
      ∧ (t ≠ .n32 → RunsNow (.iabs d a t m) s g (fun e h => valT h t d
          (elems1 t (fun _ x => if x.msb then -x else x) (e.rdT h t a 0))))
      ∧ RunsNow (.imulh d a b .i32 m) s g (fun e h => Out.reg (h.dst32 d
          (((e.rd32 h a 0).signExtend 64 * (e.rd32 h b 2).signExtend 64).extractLsb' 32 32) true))
      ∧ RunsNow (.imulh d a b .n32 m) s g (fun e h => Out.reg (h.dst32 d
          (((e.rd32 h a 0).setWidth 64 * (e.rd32 h b 2).setWidth 64).extractLsb' 32 32) false))
      ∧ RunsNow (.iaddc d a b p m) s g (fun e h =>
          let c : BitVec 33 := (e.rd32 h a 0).setWidth 33 + (e.rd32 h b 2).setWidth 33 + BitVec.ofNat 33 (e.pred h p 4).toNat
          { regs := h.dst32 d (c.setWidth 32) false, preds := [(p.toNat, c.getLsbD 32)], flags := 0 }))
  ∧ (∀ (s : State) (g : Group) (rest : List Group) (d a b : Code) (t : ElemTy) (m : Mods),
      s.groups = g :: rest → t.isInt3 = true →
      (modSat m = false →
        RunsLater (.idiv d a b t m) s g .wa (fun e h =>
          if e.rdT h t b 2 = 0 then outT h t d (elems1 t (fun w _ => BitVec.allOnes w) 0, 8#6)
          else valT h t d (elems2 t (fun _ x y => if t = .n32 then x.udiv y else x.sdiv y) (e.rdT h t a 0) (e.rdT h t b 2)))
        ∧ RunsLater (.irem d a b t m) s g .wa (fun e h =>
          if e.rdT h t b 2 = 0 then outT h t d (e.rdT h t a 0, 8#6)
          else valT h t d (elems2 t (fun _ x y => if t = .n32 then x.umod y else x.srem y) (e.rdT h t a 0) (e.rdT h t b 2))))
      ∧ (modSat m = true → RunsLater (.idiv d a b t m) s g .wa (fun e h =>
          if e.rdT h t b 2 = 0 then outT h t d (elems1 t (fun w _ => BitVec.allOnes w) 0, 8#6)
          else outT h t d (satElems t [e.rdT h t a 0, e.rdT h t b 2] fun | [x, y] => x.tdiv y | _ => 0))))

/-- R86: AND, OR, XOR and ANDN are bitwise on the whole operand, register or literal, and raise no flag.

R87: the shifts take their count modulo the element's width; SHR brings zeros in, SAR copies of the top bit; ROTL
rotates. An immediate shift is on 32 bits, or on 64 with its W bit. -/
def Obligations.BitwiseWordsAndShifts : Prop :=
  (∀ (s : State) (g : Group) (rest : List Group) (d a b : Code) (t : ElemTy) (m : Mods) (lit : Word),
      s.groups = g :: rest → t.isInt3 = true →
      RunsNow (.and d a b t m) s g (fun e h => valT h t d (elems2 t (fun _ x y => x &&& y) (e.rdT h t a 0) (e.rdT h t b 2)))
      ∧ RunsNow (.andDl d a t lit m) s g (fun e h => valT h t d (elems2 t (fun _ x y => x &&& y) (e.rdT h t a 0) (litVal t lit)))
      ∧ RunsNow (.or d a b t m) s g (fun e h => valT h t d (elems2 t (fun _ x y => x ||| y) (e.rdT h t a 0) (e.rdT h t b 2)))
      ∧ RunsNow (.orDl d a t lit m) s g (fun e h => valT h t d (elems2 t (fun _ x y => x ||| y) (e.rdT h t a 0) (litVal t lit)))
      ∧ RunsNow (.xor d a b t m) s g (fun e h => valT h t d (elems2 t (fun _ x y => x ^^^ y) (e.rdT h t a 0) (e.rdT h t b 2)))
      ∧ RunsNow (.xorDl d a t lit m) s g (fun e h => valT h t d (elems2 t (fun _ x y => x ^^^ y) (e.rdT h t a 0) (litVal t lit)))
      ∧ RunsNow (.andn d a b t m) s g (fun e h => valT h t d (elems2 t (fun _ x y => x &&& ~~~y) (e.rdT h t a 0) (e.rdT h t b 2))))
  ∧ (∀ (s : State) (g : Group) (rest : List Group) (d a b : Code) (t : ElemTy) (w : Bool) (cnt : BitVec 6) (m : Mods),
      s.groups = g :: rest → t.isInt4 = true → (w = true ∨ cnt.toNat < 32) →
      let ti : ElemTy := if w then .i64 else .i32
      RunsNow (.shl d a b t m) s g (fun e h => valT h t d
        (elems2 t (fun n x y => x <<< (y.toNat % n)) (e.rdT h t a 0) (e.rdT h t b 2)))
      ∧ RunsNow (.shr d a b t m) s g (fun e h => valT h t d
        (elems2 t (fun n x y => x >>> (y.toNat % n)) (e.rdT h t a 0) (e.rdT h t b 2)))
      ∧ RunsNow (.sar d a b t m) s g (fun e h => valT h t d
        (elems2 t (fun n x y => x.sshiftRight (y.toNat % n)) (e.rdT h t a 0) (e.rdT h t b 2)))
      ∧ RunsNow (.rotl d a b t m) s g (fun e h => valT h t d
        (elems2 t (fun n x y => x.rotateLeft (y.toNat % n)) (e.rdT h t a 0) (e.rdT h t b 2)))
      ∧ RunsNow (.shli d a w cnt m) s g (fun e h => valT h ti d (elems1 ti (fun _ x => x <<< cnt.toNat) (e.rdT h ti a 0)))
      ∧ RunsNow (.shri d a w cnt m) s g (fun e h => valT h ti d (elems1 ti (fun _ x => x >>> cnt.toNat) (e.rdT h ti a 0)))
      ∧ RunsNow (.sari d a w cnt m) s g (fun e h =>
          valT h ti d (elems1 ti (fun _ x => x.sshiftRight cnt.toNat) (e.rdT h ti a 0))))

/-- R88, R89: POPC counts the ones, CLZ and CTZ the zeros above the highest and below the lowest one, BREV reverses
the bits; BFX extracts the field at bits 7:0 of length bits 15:8 of reg(b), sign-extended for i32, and BFI inserts it;
of a field that would run past bit 31 only the part inside counts. -/
def Obligations.BitCountsAndFields : Prop :=
  ∀ (s : State) (g : Group) (rest : List Group) (d a b : Code) (t : ElemTy) (m : Mods),
    s.groups = g :: rest → t.isInt3 = true →
    RunsNow (.popc d a t m) s g (fun e h => valT h t d (elems1 t (fun _ x => x.cpop) (e.rdT h t a 0)))
    ∧ RunsNow (.clz d a t m) s g (fun e h => valT h t d (elems1 t (fun _ x => x.clz) (e.rdT h t a 0)))
    ∧ RunsNow (.ctz d a t m) s g (fun e h => valT h t d (elems1 t (fun _ x => x.ctz) (e.rdT h t a 0)))
    ∧ RunsNow (.brev d a t m) s g (fun e h => valT h t d (elems1 t (fun _ x => x.reverse) (e.rdT h t a 0)))
    ∧ RunsNow (.bfx d a b .n32 m) s g (fun e h => Out.reg (h.dst32 d
        ((e.rd32 h a 0 >>> fieldPos (e.rd32 h b 2)) &&& fieldMask (e.rd32 h b 2)) false))
    ∧ RunsNow (.bfx d a b .i32 m) s g (fun e h => Out.reg (h.dst32 d
        (let f := (e.rd32 h a 0 >>> fieldPos (e.rd32 h b 2)) &&& fieldMask (e.rd32 h b 2)
         let n := 32 - fieldLen (e.rd32 h b 2)
         (f <<< n).sshiftRight n) true))
    ∧ RunsNow (.bfi d a b .i32 m) s g (fun e h => Out.reg (h.dst32 d
        (let k := fieldMask (e.rd32 h b 2) <<< fieldPos (e.rd32 h b 2)
         (e.rd32 h d 4 &&& ~~~k) ||| ((e.rd32 h a 0 <<< fieldPos (e.rd32 h b 2)) &&& k)) true))

/-- R90: ICMP leaves in its predicate whether the relation holds between the two operands, unsigned for n32 and under
U, signed otherwise; it writes nothing else.

R53, R78, R81, R85, R91: MOV copies an operand of its type or its literal, which is sign-extended for i64 and widened to binary64 for f64;
MOVI
sign-extends its 10 bits; LEA gives base plus the sign-extended index shifted left; SEL takes reg(a) where its
predicate is true and reg(b) elsewhere; NOP changes nothing at all. In a stream the upper half of SEL's c register is
the model's free value (log 22). -/
def Obligations.CompareMoveSelect : Prop :=
  (∀ (s : State) (g : Group) (rest : List Group) (rel : Rel) (u : Bool) (pd : P3) (a b : Code) (t : ElemTy) (lit : Word)
      (imm : BitVec 10) (m : Mods),
      s.groups = g :: rest → t.isInt3 = true →
      RunsNow (.icmp rel u pd a b t m) s g (fun e h =>
        Out.pred pd (relBits t u rel (e.rdT h t a 0) (e.rdT h t b 2)))
      ∧ RunsNow (.icmpDl rel u pd a t lit m) s g (fun e h =>
        Out.pred pd (relBits t u rel (e.rdT h t a 0) (litVal t lit)))
      ∧ RunsNow (.icmpi rel u pd a imm m) s g (fun e h =>
        Out.pred pd (relBits .i32 u rel (e.rd32 h a 0).toNat
          (if u then imm.setWidth 32 else imm.signExtend 32).toNat)))
  ∧ (∀ (s : State) (g : Group) (rest : List Group) (d a b : Code) (t : ElemTy) (lit : Word) (imm : BitVec 10) (p : P3)
      (sh : BitVec 3) (m : Mods),
      s.groups = g :: rest →
      exec .nop s = .next s
      ∧ RunsNow (.mov d b t m) s g (fun e h => valT h t d (e.rdT h t b 0))
      ∧ RunsNow (.movDl d t lit m) s g (fun _ h =>
          valT h t d (if t = .i64 then (lit.signExtend 64).toNat else if t = .f64 then widen lit.toNat else lit.toNat))
      ∧ RunsNow (.movi d imm m) s g (fun _ h => Out.reg (h.dst32 d (imm.signExtend 32) true))
      ∧ RunsNow (.lea d a b sh m) s g (fun e h =>
          Out.reg (h.dst64 d (e.rd64 h a 0 + (e.rd32 h b 2).signExtend 64 * 2 ^ sh.toNat)))
      ∧ RunsNow (.sel d a b p m) s g (fun e h =>
          Out.reg (h.dstFree (choiceAt e.step h.tid 8) d (if e.pred h p 4 then e.rd32 h a 0 else e.rd32 h b 2))))

/-! ### Registers, special registers, the rounding mode, carve-outs (R58, R68 to R71, R107 to R110) -/

/-- R68, R69: a write is read back; a v register holds the low 32 bits; c0 reads zero and keeps no write; p7 reads 1
and keeps no write; and no other register or predicate changes. -/
def Obligations.RegistersHoldWrites : Prop :=
  (∀ (h : Thread) (i j : Nat) (x : DWord), h.ctl = false → i < h.v.length →
    (h.write i x).raw i = (x.setWidth 32).setWidth 64 ∧ (j ≠ i → (h.write i x).raw j = h.raw j)
      ∧ (h.write i x).p = h.p ∧ (h.write i x).flags = h.flags)
  ∧ (∀ (h : Thread) (i j : Nat) (x : DWord), h.ctl = true → i < h.c.length →
    (h.write i x).raw i = (if i = 0 then 0 else x) ∧ (j ≠ i → (h.write i x).raw j = h.raw j) ∧ (h.write 0 x).c = h.c)
  ∧ (∀ (h : Thread) (i j : Nat) (x : Bool), i < 8 → j < 8 →
    (h.writePred i x).rawPred i = (if i = 7 then true else x) ∧ (j ≠ i → (h.writePred i x).rawPred j = h.rawPred j)
      ∧ (h.writePred 7 x).p = h.p ∧ (h.writePred i x).v = h.v ∧ (h.writePred i x).c = h.c)

/-- R70, R107: SREAD leaves in its destination, a pair for the four 64-bit registers and a zero-extended 32-bit value
otherwise, what the table of special registers says of the thread, its team, its place and its task.

R71, R108, R109: SWRITE writes FLAGS, FAULT, FADDR (bits 47:0) and FPC (a word index above a clause address), and
FMODE the rounding mode, at once, in each active thread; registers, predicates, memory and every other field stay.
What SREAD gives of TEAM, CORE, CLUS, SGRP, DIE and CTIME in a control stream is the model's reading (log 20). -/
def Obligations.SpecialRegisters : Prop :=
  (∀ (s : State) (g : Group) (rest : List Group) (d : Code) (n : SReg) (m : Mods), s.groups = g :: rest →
      RunsNow (.sread d n m) s g (fun e h =>
        let pair := fun (x : DWord) => Out.reg (h.dst64 d x)
        let word := fun (x : Word) => Out.reg (h.dst32 d x false)
        match n with
        | .tid => word (BitVec.ofNat 32 h.tid)
        | .ntid => word (BitVec.ofNat 32 e.tm.kern.threads)
        | .team => word (BitVec.ofNat 32 e.tm.slot)
        | .core => word (BitVec.ofNat 32 e.tm.core)
        | .clus => word (BitVec.ofNat 32 (e.tm.core / 4))
        | .sgrp => word (BitVec.ofNat 32 (e.tm.core / 16))
        | .die => word (BitVec.ofNat 32 (e.tm.core / 64))
        | .dev => word (BitVec.ofNat 32 e.dev)
        | .taskarg => pair e.tm.task.arg
        | .tilex => word e.tm.task.x
        | .tiley => word e.tm.task.y
        | .tilez => word e.tm.task.z
        | .clock => pair (BitVec.ofNat 64 e.clock)
        | .ctime => word (BitVec.ofNat 32 e.ctime)
        | .fmode => word (match h.rm with | .rne => 0 | .rtz => 1 | .rup => 2 | .rdn => 3)
        | .flags => word (h.flags.setWidth 32)
        | .asid => word ((e.tm.task.owner.extractLsb' 0 12).setWidth 32)
        | .tenant => word ((e.tm.task.owner.extractLsb' 12 6).setWidth 32)
        | .fault => word h.fault
        | .faddr => pair h.faddr
        | .fpc => pair h.fpc))
  ∧ (∀ (s : State) (g : Group) (rest : List Group) (a : Code) (rm : Rm) (m : Mods), s.groups = g :: rest →
      RunsAs (.swrite .flags a m) s g (fun e h => { h with flags := (e.rd32 h a 0).extractLsb' 0 6 })
      ∧ RunsAs (.swrite .fault a m) s g (fun e h => { h with fault := e.rd32 h a 0 })
      ∧ RunsAs (.swrite .faddr a m) s g (fun e h => { h with faddr := e.rd64 h a 0 &&& 0xFFFFFFFFFFFF#64 })
      ∧ RunsAs (.swrite .fpc a m) s g (fun e h => { h with fpc := e.rd64 h a 0 &&& 0xFFFFFFFFFFFFC#64 })
      ∧ RunsAs (.fmode false 0 rm) s g (fun _ h => { h with rm := rm })
      ∧ RunsAs (.fmode true a .rne) s g (fun e h => { h with rm := match (e.rd32 h a 0).extractLsb' 0 2 with
          | 0#2 => Rm.rne | 1#2 => .rtz | 2#2 => .rup | _ => .rdn }))

/-- R81: KSET writes a k register, or a pair for i64, with the value of the lowest active slot, for the whole team; no other k
register and nothing else changes. Where every thread of the group knows the values that it replaces, the register holds the new
value and the group reads it; any other thread reads the new one or one that it could read before. Where another group's KSET is not
ordered before it, the register holds one of the two values. A thread that goes on after a phase of a barrier reads nothing that
a thread which arrived in it could read no more. What a thread may read until then, and which of two values remains, are the
model's free choices (log 7).

R43, R110: a CARVE in a team with a control stream traps BARRIER 3; without one the thread blocks in it; once the
thread is the last of its team's live threads, all of them asking for one register count and scratchpad size within
range, no access to the team's scratchpad is outstanding, and its save slot has room, every live thread goes on, the kept registers keep their values and
added ones read zero.
The cause for a slot that is too small is the model's reading (log 35). -/
def Obligations.TeamRegistersAndCarve : Prop :=
  (∀ (s : State) (g : Group) (rest : List Group) (d a : Code) (m : Mods), s.groups = g :: rest → 96 ≤ d.toNat →
      RunsOnce (.kset d a .i32 m) s g (fun s tm h t =>
        ∃ n, t = s.modTeam g.team (Team.writeK n (d.toNat - 96) (s.present g) ((s.env tm).rd32 h a 0)))
      ∧ RunsOnce (.kset d a .i64 m) s g (fun s tm h t =>
        ∃ n n', t = s.modTeam g.team fun x =>
          (x.writeK n (d.toNat - 96) (s.present g) (((s.env tm).rd64 h a 0).extractLsb' 0 32)).writeK n' (d.toNat - 95) (s.present g)
            (((s.env tm).rd64 h a 0).extractLsb' 32 32))
      ∧ ∀ (tm : Team) (n i : Nat) (who : List Nat) (x : Word), i < tm.k.length →
        let t := tm.writeK n i who x
        let live := fun (u : Nat) => ∃ h ∈ tm.threads, h.tid = u ∧ h.ctl = false ∧ h.status ≠ .exited
        let known := ∀ y ∈ tm.kold, y.idx = i → ∀ u ∈ who, u ∈ y.know
        t = { tm with k := t.k, kold := t.kold }
        ∧ (∀ j, j ≠ i → t.k[j]? = tm.k[j]? ∧ ∀ u, live u → t.staleK u j = tm.staleK u j)
        ∧ (∀ c j u, t.readK c u j = t.k.getD j 0 ∨ t.readK c u j ∈ t.staleK u j)
        ∧ (known → t.k[i]? = some x ∧ (∀ u ∈ who, t.staleK u i = []) ∧ ∀ u y, y ∈ t.staleK u i → y = tm.k.getD i 0 ∨ y ∈ tm.staleK u i)
        ∧ (¬ known → t.k[i]? = some x ∨ t.k[i]? = tm.k[i]?)
        ∧ ∀ b u v j ph y, y ∈ ((tm.arrives u b ph (tm.bar b)).learns v b ph).staleK v j → y ∈ tm.staleK u j)
  ∧ (∀ (s : State) (g : Group) (rest : List Group) (a b : Code), s.groups = g :: rest →
      RunsEach (.carve a b) s g (fun s tm h t =>
        let v := ((s.env tm).rd32 h a 0).toNat
        let n := ((s.env tm).rd32 h b 2).toNat
        if tm.hasStream then t = s.trap g h.tid (bad .barrier 3)
        else
          let s1 := s.block g h.tid (.carve v n)
          (∀ x, s1.team? tm.id = some x → x.liveThreads.any (·.carving.isNone) = true → t = s1)
          ∧ (∀ x, s1.team? tm.id = some x → x.liveThreads ≠ [] → (∀ y ∈ x.liveThreads, y.carving = some (v, n)) →
              1 ≤ v → v ≤ 96 → n ≤ 1441792 → s1.scrBusy x = false →
              slotBytes x.kern.threads (loadOf x.kern.threads v n x.kern.bars x.kern.lands).granules ≤ x.slotLen →
              ∃ y, t.team? tm.id = some y ∧ y.vregs = v ∧ y.scratch = n ∧
                (∀ tid k, x.thread? tid = some k → ∃ k', y.thread? tid = some k' ∧ k'.carving = none ∧
                  (k.ctl = false → ∀ i, i < v → k'.v.getD i 0 = if i < min x.vregs v then k.v.getD i 0 else 0)))))

/-! ### Float words and conversions (R92 to R101) -/

/-- R92, R94, R98, R99: the float words complete with the operation of their format on each element, after the sign
fields of a and b and before CLAMP; FADD to FFMA, FMIN, FMAX and FRND at once, the others on counter WA. -/
def Obligations.FloatWordsComplete : Prop :=
  ∀ (s : State) (g : Group) (rest : List Group) (d a b : Code) (t : ElemTy) (m : Mods) (lit : Word) (mode : RndMode),
    s.groups = g :: rest → t.isFloat = true →
    let two := fun (op : Fmt → FOp → Nat → Nat → Nat × BitVec 6) (e : Env) (h : Thread) =>
      floatOut h t d m (fun l => op (fmtOf t) (fop h m) (l.getD 0 0) (l.getD 1 0)) [e.rdT h t a 0, e.rdT h t b 2]
    let dl := fun (op : Fmt → FOp → Nat → Nat → Nat × BitVec 6) (e : Env) (h : Thread) =>
      floatOut h t d m (fun l => op (fmtOf t) (fop h m) (l.getD 0 0) (l.getD 1 0)) [e.rdT h t a 0, litVal t lit]
    let one := fun (op : Fmt → FOp → Nat → Nat × BitVec 6) (e : Env) (h : Thread) =>
      floatOut h t d m (fun l => op (fmtOf t) (fop h m) (l.getD 0 0)) [e.rdT h t a 0]
    RunsNow (.fadd d a b t m) s g (two Fmt.add) ∧ RunsNow (.faddDl d a t lit m) s g (dl Fmt.add)
    ∧ RunsNow (.fsub d a b t m) s g (two Fmt.sub)
    ∧ RunsNow (.fmul d a b t m) s g (two Fmt.mul) ∧ RunsNow (.fmulDl d a t lit m) s g (dl Fmt.mul)
    ∧ RunsNow (.ffma d a b t m) s g (fun e h =>
        floatOut h t d m (fun l => (fmtOf t).fma (fop h m) (l.getD 0 0) (l.getD 1 0) (l.getD 2 0))
          [e.rdT h t a 0, e.rdT h t b 2, e.rdT h t d 4])
    ∧ RunsNow (.fmin d a b t m) s g (two fun f _ => f.pick false) ∧ RunsNow (.fmax d a b t m) s g (two fun f _ => f.pick true)
    ∧ RunsNow (.fminDl d a t lit m) s g (dl fun f _ => f.pick false)
    ∧ RunsNow (.fmaxDl d a t lit m) s g (dl fun f _ => f.pick true)
    ∧ RunsNow (.frnd d a mode t m) s g (one fun f o => f.rnd
        (match mode with | .fmode => o.rm | .rne => .rne | .rtz => .rtz | .rup => .rup | .rdn => .rdn))
    ∧ RunsLater (.frcp d a t m) s g .wa (one Fmt.rcp) ∧ RunsLater (.fsqrt d a t m) s g .wa (one Fmt.sqrt)
    ∧ RunsLater (.fdiv d a b t m) s g .wa (two Fmt.div)
    ∧ (t ≠ .f64 → RunsLater (.frsq d a t m) s g .wa (one Fmt.rsq) ∧ RunsLater (.fexp2 d a t m) s g .wa (one Fmt.exp2)
        ∧ RunsLater (.flog2 d a t m) s g .wa (one Fmt.log2) ∧ RunsLater (.ftanh d a t m) s g .wa (one Fmt.tanh))

/-- R92, R94, R98: on finite operands the arithmetic of each format is one rounding of the exact result times 2^SCALE:
the sum, the difference, the product, the product plus addend, the quotient, the reciprocal, the square root by the
mode in FMODE, the reciprocal square root to nearest; an exact zero sum is +0, or −0 under RDN.
Nothing is said here of FEXP2, FLOG2 and FTANH (log 15). -/
def Obligations.FloatResultsRoundOnce : Prop :=
  ∀ (f : Fmt) (o : FOp) (x y z : Nat), f ∈ arithFmts → (f.unpack x).isFin = true → (f.unpack y).isFin = true →
    (f.unpack z).isFin = true →
    let X := (f.unpack x).toReal
    let Y := (f.unpack y).toReal
    let Z := (f.unpack z).toReal
    let S : ℝ := 2 ^ o.scale
    (X + Y ≠ 0 → f.roundsTo o.rm o.sat ((X + Y) * S) (f.add o x y))
    ∧ (X + Y = 0 → X ≠ 0 → f.add o x y = (f.signed (o.rm == .rdn) 0, 0))
    ∧ (X - Y ≠ 0 → f.roundsTo o.rm o.sat ((X - Y) * S) (f.sub o x y))
    ∧ (X * Y ≠ 0 → f.roundsTo o.rm o.sat (X * Y * S) (f.mul o x y))
    ∧ (X * Y + Z ≠ 0 → f.roundsTo o.rm o.sat ((X * Y + Z) * S) (f.fma o x y z))
    ∧ (X ≠ 0 → Y ≠ 0 → f.roundsTo o.rm o.sat (X / Y * S) (f.div o x y))
    ∧ (X ≠ 0 → f.roundsTo o.rm o.sat (1 / X * S) (f.rcp o x))
    ∧ (0 < X → f.roundsTo o.rm o.sat (Real.sqrt X * S) (f.sqrt o x))
    ∧ (0 < X → f.roundsTo .rne o.sat (1 / Real.sqrt X) (f.rsq o x))

/-- R76, R92, R100: the rounding of ± m · 2^e to a format: the multiple of the unit in the last place that the mode
chooses, NX exactly when it differs; beyond the largest finite magnitude, the infinity or the largest by the mode with
OF and NX, and with SAT in place of an infinity the largest with SAT and NX; e4m3 always its largest with SAT and NX.
Nothing is said here of UF: which inexact results raise it is log 31. -/
def Obligations.RoundingFollowsItsMode : Prop :=
  ∀ (f : Fmt) (rm : Rm) (sat neg : Bool) (m : Nat) (e : Int), f ∈ fmtE4m3 :: fmtE5m2 :: arithFmts → m ≠ 0 →
    let x : ℝ := m * 2 ^ e
    let q : Int := max (e + Nat.log2 m) f.emin - f.man
    let u : ℝ := 2 ^ q
    let r := f.round rm sat neg m e
    let upward := rm = .rup ∧ neg = false ∨ rm = .rdn ∧ neg = true
    ∃ k : Nat,
      (rm = .rne → |k * u - x| ≤ u / 2 ∧ (|k * u - x| = u / 2 → k % 2 = 0))
      ∧ (upward → x ≤ k * u ∧ k * u < x + u)
      ∧ (rm ≠ .rne → ¬upward → k * u ≤ x ∧ x < k * u + u)
      ∧ (k * u ≤ (f.unpack f.largest).toReal →
          (f.unpack r.1).isFin = true ∧ |(f.unpack r.1).toReal| = k * u ∧ (f.unpack r.1).neg = neg
            ∧ (r.2.getLsbD 0 = true ↔ k * u ≠ x) ∧ (r.2.getLsbD 1 = true → k * u ≠ x) ∧ r.2.extractLsb' 2 4 = 0)
      ∧ ((f.unpack f.largest).toReal < k * u →
          (f = fmtE4m3 → r = (f.signed neg 0x7E, 33))
          ∧ (f ≠ fmtE4m3 → sat = false → r = (f.signed neg (if rm = .rne ∨ upward then f.top else f.largest), 5))
          ∧ (f ≠ fmtE4m3 → sat = true → (rm = .rne ∨ upward) → r = (f.signed neg f.largest, 33)))

/-- R92 to R95, R98, R99: the operands that are not rounded as ordinary numbers. A NaN operand gives the first NaN, quieted, NV exactly if some operand
is signalling, and under FFMA, whose operands are three, also if the product is 0 · ∞; the invalid operations, FFMA's product
0 · ∞ and its ∞ − ∞ among them, give the canonical NaN with NV, and a finite number divided by zero the infinity with DZ.
FMIN and FMAX prefer a number to a NaN. A sum with one infinity, or two of one sign, a product or quotient with an infinity that is
valid, and a product or quotient that is zero come out exact, with the sign of their operands' signs. FRND leaves an infinity as it
is, and of a finite number gives the nearest integral value by the mode, the sign of a zero kept, and no flag.
That SAT leaves the exact infinity of a division by zero is the model's reading (log 32). -/
def Obligations.FloatSpecialOperands : Prop :=
  ∀ (f : Fmt) (o : FOp) (x y z : Nat), f ∈ arithFmts →
    let X := f.unpack x
    let Y := f.unpack y
    let nv := fun (c : Bool) => (if c then 16#6 else 0#6)
    let both := nv (X.isSnan || Y.isSnan)
    (X.isNan = true → f.add o x y = (x ||| f.quiet, both) ∧ f.sub o x y = (x ||| f.quiet, both)
      ∧ f.mul o x y = (x ||| f.quiet, both) ∧ f.div o x y = (x ||| f.quiet, both)
      ∧ f.rcp o x = (x ||| f.quiet, nv X.isSnan) ∧ f.sqrt o x = (x ||| f.quiet, nv X.isSnan)
      ∧ f.rsq o x = (x ||| f.quiet, nv X.isSnan) ∧ f.exp2 o x = (x ||| f.quiet, nv X.isSnan)
      ∧ f.log2 o x = (x ||| f.quiet, nv X.isSnan) ∧ f.tanh o x = (x ||| f.quiet, nv X.isSnan)
      ∧ f.rnd o.rm x = (x ||| f.quiet, nv X.isSnan)
      ∧ f.pick false x y = (if Y.isNan then f.canon else y, both) ∧ f.pick true x y = f.pick false x y)
    ∧ (X.isNan = false → Y.isNan = true → f.add o x y = (y ||| f.quiet, both) ∧ f.sub o x y = (y ||| f.quiet, both)
      ∧ f.mul o x y = (y ||| f.quiet, both) ∧ f.div o x y = (y ||| f.quiet, both)
      ∧ f.pick false x y = (x, both) ∧ f.pick true x y = (x, both))
    ∧ (X.isNan = true → f.fma o x y z = (x ||| f.quiet, nv (X.isSnan || Y.isSnan || (f.unpack z).isSnan)))
    ∧ (X.isNan = false → Y.isNan = true → f.fma o x y z = (y ||| f.quiet, nv (Y.isSnan || (f.unpack z).isSnan)))
    ∧ (X.isNan = false → Y.isNan = false → (f.unpack z).isNan = true →
        f.fma o x y z = (z ||| f.quiet, nv ((f.unpack z).isSnan || zeroInf X Y)))
    ∧ ((f.unpack z).isNan = false → ∀ n, (X = .inf n ∧ Y.isZero = true) ∨ (X.isZero = true ∧ Y = .inf n) →
        f.fma o x y z = (f.canon, 16))
    ∧ (∀ a, (X = .inf a ∧ Y.isNan = false ∧ Y.isZero = false ∧ f.unpack z = .inf (a == Y.neg))
          ∨ (Y = .inf a ∧ X.isNan = false ∧ X.isZero = false ∧ f.unpack z = .inf (a == X.neg)) →
        f.fma o x y z = (f.canon, 16))
    ∧ (∀ n, X = .inf n → Y = .inf (!n) → f.add o x y = (f.canon, 16))
    ∧ (∀ n, X = .inf n → Y = .inf n → f.sub o x y = (f.canon, 16) ∧ f.div o x y = (f.canon, 16))
    ∧ (∀ n, X = .inf n → Y.isZero = true → f.mul o x y = (f.canon, 16) ∧ f.mul o y x = (f.canon, 16))
    ∧ (X.isZero = true → Y.isZero = true → f.div o x y = (f.canon, 16))
    ∧ (X.isFin = true → X.isZero = false → Y.isZero = true → f.div o x y = (f.signed (X.neg != Y.neg) f.top, 8))
    ∧ (X.isZero = true → f.rcp o x = (f.signed X.neg f.top, 8) ∧ f.rsq o x = (f.signed X.neg f.top, 8)
      ∧ f.sqrt o x = (f.signed X.neg 0, 0) ∧ f.log2 o x = (f.signed true f.top, 8) ∧ f.tanh o x = (f.signed X.neg 0, 0)
      ∧ f.exp2 o x = (f.bias * 2 ^ f.man, 0))
    ∧ (X.isNan = false → X.isZero = false → X.neg = true →
        f.sqrt o x = (f.canon, 16) ∧ f.rsq o x = (f.canon, 16) ∧ f.log2 o x = (f.canon, 16))
    ∧ (∀ a, X = .inf a → Y.isFin = true → f.add o x y = (f.signed a f.top, 0) ∧ f.add o y x = (f.signed a f.top, 0)
      ∧ f.sub o x y = (f.signed a f.top, 0) ∧ f.sub o y x = (f.signed (!a) f.top, 0)
      ∧ f.div o x y = (f.signed (a != Y.neg) f.top, 0) ∧ f.div o y x = (f.signed (Y.neg != a) 0, 0)
      ∧ ((f.unpack z).isFin = true → f.fma o y z x = (f.signed a f.top, 0)))
    ∧ (∀ a, X = .inf a → (Y = .inf a → f.add o x y = (f.signed a f.top, 0)) ∧ (Y = .inf (!a) → f.sub o x y = (f.signed a f.top, 0)))
    ∧ (∀ a, X = .inf a → Y.isNan = false → Y.isZero = false → f.mul o x y = (f.signed (a != Y.neg) f.top, 0)
      ∧ f.mul o y x = (f.signed (a != Y.neg) f.top, 0)
      ∧ ((f.unpack z).isFin = true ∨ f.unpack z = .inf (a != Y.neg) → f.fma o x y z = (f.signed (a != Y.neg) f.top, 0)
        ∧ f.fma o y x z = (f.signed (a != Y.neg) f.top, 0)))
    ∧ (X.isZero = true → Y.isFin = true → f.mul o x y = (f.signed (X.neg != Y.neg) 0, 0) ∧ f.mul o y x = (f.signed (X.neg != Y.neg) 0, 0)
      ∧ (Y.isZero = false → f.div o x y = (f.signed (X.neg != Y.neg) 0, 0)))
    ∧ (∀ n, X = .inf n → f.rnd o.rm x = (x, 0))
    ∧ (X.isFin = true → x < 2 * f.signBit → ∃ k : Int,
        (match o.rm with
          | .rtz => k = (if X.toReal < 0 then ⌈X.toReal⌉ else ⌊X.toReal⌋)
          | .rup => k = ⌈X.toReal⌉
          | .rdn => k = ⌊X.toReal⌋
          | .rne => |(k : ℝ) - X.toReal| ≤ 1 / 2 ∧ (|(k : ℝ) - X.toReal| = 1 / 2 → k % 2 = 0))
        ∧ (f.unpack (f.rnd o.rm x).1).isFin = true ∧ (f.unpack (f.rnd o.rm x).1).toReal = k
        ∧ (f.unpack (f.rnd o.rm x).1).neg = X.neg ∧ (f.rnd o.rm x).2 = 0)
    ∧ (∀ n, X = .inf n → f.rcp o x = (f.signed n 0, 0) ∧ f.exp2 o x = (if n then 0 else f.top, 0)
      ∧ f.tanh o x = (f.signed n (f.bias * 2 ^ f.man), 0)
      ∧ (n = false → f.sqrt o x = (f.top, 0) ∧ f.rsq o x = (0, 0) ∧ f.log2 o x = (f.top, 0)))

/-- R95, R96, R97: on numbers, FCMP relates the two values (with −0 and +0 equal, infinities at the ends), FMIN and FMAX
give the lesser and the greater with −0 below +0, and no flag; FCLASS writes exactly one bit, that of the class.

R96, R97: FCMP leaves its relation in its predicate (of both halves, or of either under ANY) and raises its flag;
FCLASS writes the mask of each element; nothing else changes. -/
def Obligations.FloatOrderAndTests : Prop :=
  (∀ (f : Fmt) (x y : Nat), f ∈ arithFmts → x < 2 * f.signBit → y < 2 * f.signBit →
      let X := f.unpack x
      let Y := f.unpack y
      (X.isNan = false → Y.isNan = false →
        ((f.cmp .lt x y).1 = true ↔ X.toEReal < Y.toEReal) ∧ ((f.cmp .le x y).1 = true ↔ X.toEReal ≤ Y.toEReal)
        ∧ ((f.cmp .eq x y).1 = true ↔ X.toEReal = Y.toEReal) ∧ ((f.cmp .ne x y).1 = true ↔ X.toEReal ≠ Y.toEReal)
        ∧ ((f.cmp .gt x y).1 = true ↔ Y.toEReal < X.toEReal) ∧ ((f.cmp .ge x y).1 = true ↔ Y.toEReal ≤ X.toEReal)
        ∧ f.cmp .un x y = (false, 0) ∧ f.cmp .ord x y = (true, 0) ∧ (∀ rel, (f.cmp rel x y).2 = 0)
        ∧ (X.toEReal < Y.toEReal → f.pick false x y = (x, 0) ∧ f.pick true x y = (y, 0)
            ∧ f.pick false y x = (x, 0) ∧ f.pick true y x = (y, 0))
        ∧ (X.toEReal = Y.toEReal → f.pick false x y = (if X.neg then x else y, 0) ∧ f.pick true x y = (if X.neg then y else x, 0)))
      ∧ ((X.isNan || Y.isNan) = true → ∀ rel, f.cmp rel x y = (rel == .ne || rel == .un,
          if X.isSnan || Y.isSnan || rel == .lt || rel == .le || rel == .gt || rel == .ge then 16 else 0))
      ∧ (∃ k, k < 10 ∧ f.cls x = 2 ^ k ∧ (k = 9 ↔ X.isNan = true ∧ X.isSnan = false) ∧ (k = 8 ↔ X.isSnan = true)
          ∧ (k = 0 ↔ X = .inf true) ∧ (k = 7 ↔ X = .inf false)
          ∧ (k = 3 ↔ X.isZero = true ∧ X.neg = true) ∧ (k = 4 ↔ X.isZero = true ∧ X.neg = false)
          ∧ (k = 1 ∨ k = 6 ↔ X.isFin = true ∧ (2 : ℝ) ^ f.emin ≤ |X.toReal|)
          ∧ (k = 1 ∨ k = 2 → X.neg = true) ∧ (k = 5 ∨ k = 6 → X.neg = false)))
  ∧ (∀ (s : State) (g : Group) (rest : List Group) (rel : FRel) (any : Bool) (pd : P3) (d a b : Code) (t : ElemTy) (lit : Word)
      (m : Mods), s.groups = g :: rest → t.isFloat = true →
      let f := fmtOf t
      let el := fun (x y : Nat) => f.cmp rel (f.sign (modArith m).absa (modArith m).nega x)
        (f.sign (modArith m).absb (modArith m).negb y)
      let test := fun (x y : Nat) =>
        let lo := el (x % 65536) (y % 65536)
        let hi := el (x / 65536) (y / 65536)
        let r := if t = .f16x2 ∨ t = .bf16x2 then
            ((if any then lo.1 || hi.1 else lo.1 && hi.1), lo.2 ||| hi.2) else el x y
        ({ regs := [], preds := [(pd.toNat, r.1)], flags := r.2 } : Out)
      RunsNow (.fcmp rel any pd a b t m) s g (fun e h => test (e.rdT h t a 0) (e.rdT h t b 2))
      ∧ RunsNow (.fcmpDl rel any pd a t lit m) s g (fun e h => test (e.rdT h t a 0) (litVal t lit))
      ∧ RunsNow (.fclass d a t m) s g (fun e h => Out.reg (h.dst32 d (BitVec.ofNat 32
          (let x := e.rdT h t a 0
           if t = .f16x2 ∨ t = .bf16x2 then f.cls (x % 65536) + 65536 * f.cls (x / 65536) else f.cls x)) false)))

/-- R100, R101, R92, R214, R215, R216: FCVT and ICVT convert the element that LANE names and put it where LANE names, the rest of
a narrow destination staying. ICVT to an integer rounds by FMODE, a NaN gives 0 and a value out of range the nearer limit, both
with NV (with SAT too, log 93); ICVT from an integer takes the magnitude and the negation of the integer itself. FCVT of a finite
source is one rounding of the exact value after its sign fields and SCALE, in e4m3 and e5m2 too; an infinity goes to the infinity, or to 448 or
2 with SAT and NX; a NaN to a quieted NaN whose payload is cut or widened, to 0x7F or 0x7E with its sign, or to 0x08 with NV. PP8 takes the
neighbour that the mode names, in its canonical encoding, and beyond ±2 the limit with SAT and NX.
ICVT from an integer is one rounding of the integer times 2^SCALE by FMODE, and gives +0 for 0.
That a NaN source of a byte format raises no NV is the model's choice, and how a payload is widened (log 32). -/
def Obligations.Conversions : Prop :=
  ∀ (s : State) (g : Group) (rest : List Group) (d a : Code) (dst src : FFmt) (flt : CvtFlt) (int : CvtInt) (ln : BitVec 2)
    (m : Mods), s.groups = g :: rest →
    let am := modArith m
    let pair := int = .i64 ∨ int = .n64
    let sgn := int = .i32 ∨ int = .i64
    let half := flt = .f16 ∨ flt = .bf16
    (dst.isPacked = true → RunsNow (.fcvt d a dst src ln m) s g (fun e h =>
      let x := (e.rd32 h a 0).toNat
      let c := fun x => convert dst src (fop h m) am.absa am.nega x
      { regs := h.dst32 d (BitVec.ofNat 32 ((c (x % 65536)).1 + (c (x / 65536)).1 * 65536)) false, preds := []
        flags := (c (x % 65536)).2 ||| (c (x / 65536)).2 }))
    ∧ (dst.isPacked = false → src ≠ .f64 → RunsNow (.fcvt d a dst src ln m) s g (fun e h =>
      let r := convert dst src (fop h m) am.absa am.nega (cvtGet src.isHalf src.isByte ln.toNat (e.rd32 h a 0).toNat)
      { regs := if dst = .f64 then h.dst64 d (BitVec.ofNat 64 r.1) else
          h.dst32 d (BitVec.ofNat 32 (cvtPut dst.isHalf dst.isByte ln.toNat (e.rd32 h d 4).toNat r.1)) false
        preds := [], flags := r.2 }))
    ∧ (src = .f64 → dst.isPacked = false → dst ≠ .f64 → RunsNow (.fcvt d a dst src ln m) s g (fun e h =>
      let r := convert dst src (fop h m) am.absa am.nega (e.rd64 h a 0).toNat
      { regs := h.dst32 d (BitVec.ofNat 32 (cvtPut dst.isHalf dst.isByte ln.toNat (e.rd32 h d 4).toNat r.1)) false
        preds := [], flags := r.2 }))
    ∧ RunsNow (.icvt d a flt int true ln m) s g (fun e h =>
      let f := cvtFmt flt
      let x := if flt = .f64 then (e.rd64 h a 0).toNat else
        if half then (e.rd32 h a 0).toNat / 65536 ^ ln.toNat % 65536 else (e.rd32 h a 0).toNat
      let r := floatToInt f (fop h m) (decide sgn) (if pair then 64 else 32) (f.sign am.absa am.nega x)
      { regs := if pair then h.dst64 d (BitVec.ofNat 64 r.1) else h.dst32 d (BitVec.ofNat 32 r.1) (decide sgn)
        preds := [], flags := r.2 })
    ∧ RunsNow (.icvt d a flt int false ln m) s g (fun e h =>
      let v : Int := match int with
        | .i32 => (e.rd32 h a 0).toInt | .n32 => (e.rd32 h a 0).toNat | .i64 => (e.rd64 h a 0).toInt
        | .n64 => (e.rd64 h a 0).toNat
      let v := if am.absa then |v| else v
      let r := intToFloat (cvtFmt flt) (fop h m) (if am.nega then -v else v)
      { regs := if flt = .f64 then h.dst64 d (BitVec.ofNat 64 r.1) else
          h.dst32 d (BitVec.ofNat 32 (cvtPut (decide half) false ln.toNat (e.rd32 h d 4).toNat r.1)) false
        preds := [], flags := r.2 })
    ∧ (∀ (f : Fmt) (o : FOp) (v : Int), f ∈ arithFmts →
        (v ≠ 0 → f.roundsTo o.rm o.sat ((v : ℝ) * 2 ^ o.scale) (intToFloat f o v)) ∧ (v = 0 → intToFloat f o v = (0, 0)))
    ∧ (∀ (f : Fmt) (o : FOp) (sg : Bool) (w x : Nat), f ∈ arithFmts → 1 < w →
        let lo : Int := if sg then -(2 ^ (w - 1)) else 0
        let hi : Int := if sg then 2 ^ (w - 1) - 1 else 2 ^ w - 1
        ((f.unpack x).isNan = true → floatToInt f o sg w x = (0, 16))
        ∧ ((f.unpack x).isNan = false → ∃ v : Int, lo ≤ v ∧ v ≤ hi ∧ ((floatToInt f o sg w x).1 : Int) = v % 2 ^ w
          ∧ (∀ n, f.unpack x = .inf n → v = (if n then lo else hi) ∧ (floatToInt f o sg w x).2 = 16)
          ∧ ((f.unpack x).isFin = true →
              let q : ℝ := (f.unpack x).toReal * 2 ^ o.scale
              ∃ k : Int, (match o.rm with
                  | .rtz => k = (if q < 0 then ⌈q⌉ else ⌊q⌋)
                  | .rup => k = ⌈q⌉
                  | .rdn => k = ⌊q⌋
                  | .rne => |(k : ℝ) - q| ≤ 1 / 2 ∧ (|(k : ℝ) - q| = 1 / 2 → k % 2 = 0))
                ∧ (lo ≤ k ∧ k ≤ hi → v = k ∧ (floatToInt f o sg w x).2 = (if (v : ℝ) = q then 0 else 1))
                ∧ (k < lo → v = lo ∧ (floatToInt f o sg w x).2 = 16)
                ∧ (hi < k → v = hi ∧ (floatToInt f o sg w x).2 = 16))))
    ∧ (∀ (dst src : FFmt) (o : FOp) (abs neg : Bool) (x : Nat),
        (∀ f, ffmt src = some f → x < 2 * f.signBit) → (src = .pp8 → x < 256) →
        let X := numOf src x
        let sg := (X.neg && !abs) != neg
        let q : ℝ := (if sg then -1 else 1) * |X.toReal| * 2 ^ o.scale
        let r := convert dst src o abs neg x
        let nv : BitVec 6 := if X.isSnan && !src.isByte then 16 else 0
        (∀ f, ffmt dst = some f →
          (X.isFin = true → q ≠ 0 → f.roundsTo o.rm o.sat q r)
          ∧ (X.isFin = true → q = 0 → r = (f.signed sg 0, 0))
          ∧ (∀ n, X = .inf n → r = if dst = .e4m3 then (f.signed sg 0x7E, 33) else (f.signed sg f.top, 0))
          ∧ (∀ g, ffmt src = some g → X.isNan = true →
              r = if dst = .e4m3 then (f.signed sg 0x7F, nv) else if dst = .e5m2 then (f.signed sg 0x7E, nv) else
                (f.signed sg (f.top + ((if g.man ≤ f.man then x % 2 ^ g.man * 2 ^ (f.man - g.man)
                  else x % 2 ^ g.man / 2 ^ (g.man - f.man)) ||| f.quiet)), nv)))
        ∧ (dst = .pp8 →
          (X.isNan = true → r = (0x08, 16))
          ∧ (∀ n, X = .inf n → r = (if sg then 0x88 else 0x00, 33))
          ∧ (X.isFin = true → 2 < |q| → r = (if sg then 0x88 else 0x00, 33))
          ∧ (X.isFin = true → |q| ≤ 2 → pp8Picks o.rm q r.1 ∧ r.2 = if pp8Real r.1 = q then 0 else 1)))

/-! ### Group words (R102 to R106) -/

/-- R102, R103, R104: GSHF and GBCST leave in every thread of the group, in flight on WA, reg(a) of its source thread,
or FILL sign-extended where the source is absent: below 0, at or beyond NTID, outside the group, or of a segment order
that is not from 1 to 10. Nothing else changes.

R105: GVOTE leaves in every thread of the group, on WA, the count of the threads whose reg(a) is not zero, the count
below its own slot, the mask of their slots, whether reg(a) is the same everywhere, or the first such thread's id.

R106: GRED leaves in every thread of the group, on WA, the fold of all slots in ascending order and the flags of its
steps; GSCAN the fold of the slots up to its own, or below its own with EXCL, where the first slot gets the operation's
identity and no flag. Integer folds are the wrapping sum, the least, the greatest, and the bitwise ones. -/
def Obligations.GroupWords : Prop :=
  (∀ (s : State) (g : Group) (rest : List Group) (d a b : Code) (mode : GshfMode) (u : BitVec 10) (m : Mods),
      s.groups = g :: rest → guardOf m = Guard.off →
      let fill : Word := match m with | .f2 x => x.signExtend 32 | _ => 0
      let got := fun (e : Env) (src : Int) =>
        if src < 0 ∨ (e.tm.kern.threads : Int) ≤ src then fill
        else match (g.members e.tm).find? fun p => (p.2.tid : Int) = src with
          | some p => e.rd32 p.2 a 0
          | none => fill
      RunsLater (.gbcst d a u m) s g .wa (fun e h => Out.reg (h.dst32 d (got e u.toNat) false))
      ∧ RunsLater (.gshf d a b mode m) s g .wa (fun e h =>
          let y := e.rd32 h b 2
          let t : Int := h.tid
          let seg := fun (z : Nat) (at_ : Int → Int → Int) =>
            if 1 ≤ z ∧ z ≤ 10 then got e (t - t % 2 ^ z + at_ (t % 2 ^ z) (2 ^ z)) else fill
          Out.reg (h.dst32 d (match mode with
            | .tid => got e (y.extractLsb' 0 10).toNat
            | .off => got e (t + (y.extractLsb' 0 16).toInt)
            | .rot => seg (y.extractLsb' 16 4).toNat fun p n => (p + (y.extractLsb' 0 16).toInt) % n
            | .rev => seg (y.extractLsb' 0 4).toNat fun p n => n - 1 - p) false)))
  ∧ (∀ (s : State) (g : Group) (rest : List Group) (d a : Code), s.groups = g :: rest →
      let yes := fun (e : Env) => (g.members e.tm).filter fun p => e.rd32 p.2 a 0 != 0
      let vote := fun op (f : Env → Thread → Word) =>
        RunsLater (.gvote d a op) s g .wa (fun e h => Out.reg (h.dst32 d (f e h) false))
      vote .count (fun e _ => BitVec.ofNat 32 (yes e).length)
      ∧ vote .below (fun e h => BitVec.ofNat 32 ((yes e).countP fun p => p.1 < g.slots.idxOf h.tid))
      ∧ vote .slots (fun e _ => (List.range 32).foldl
          (fun w k => if (yes e).any (fun p => p.1 == k) then w ||| 1#32 <<< k else w) 0)
      ∧ vote .same (fun e _ => if ∀ p ∈ g.members e.tm, ∀ q ∈ g.members e.tm, e.rd32 p.2 a 0 = e.rd32 q.2 a 0 then 1 else 0)
      ∧ vote .first (fun e _ => match (yes e).head? with | some p => BitVec.ofNat 32 p.2.tid | none => 0xFFFFFFFF))
  ∧ (∀ (s : State) (g : Group) (rest : List Group) (d a : Code) (op : FoldOp) (t : ElemTy) (excl : Bool),
      s.groups = g :: rest → t.isInt3 = true ∨ t = .f32 ∧ (op = .add ∨ op = .min ∨ op = .max) →
      let step := fun (w : Nat) (x y : BitVec w) => match op with
        | .add => x + y | .and => x &&& y | .or => x ||| y | .xor => x ^^^ y
        | .min => if lessT t x y then x else y
        | .max => if lessT t x y then y else x
      let ident := fun (w : Nat) => match op with
        | .add | .or | .xor => 0#w
        | .and => BitVec.allOnes w
        | .min => if t = .n32 then BitVec.allOnes w else BitVec.intMax w
        | .max => if t = .n32 then 0#w else BitVec.intMin w
      let fold := fun (e : Env) (rm : Rm) (l : List (Nat × Thread)) =>
        if t = .f32 then
          let o : FOp := { rm := rm, sat := false, scale := 0 }
          let f := fun x y => match op with | .min => fmtF32.pick false x y | .max => fmtF32.pick true x y | _ => fmtF32.add o x y
          match l with
          | [] => (match op with | .min => 0x7F800000 | .max => 0xFF800000 | _ => 0, 0)
          | p :: l => l.foldl (fun r q => let n := f r.1 (e.rdT q.2 t a 0); (n.1, r.2 ||| n.2)) (e.rdT p.2 t a 0, (0 : BitVec 6))
        else (onElems t fun w el => match l with
          | [] => ident w
          | p :: l => l.foldl (fun r q => step w r (el (e.rdT q.2 t a 0))) (el (e.rdT p.2 t a 0)), 0)
      let low := fun (e : Env) => ((g.members e.tm).head?.map fun p => p.2.rm).getD .rne
      RunsLater (.gred d a op t) s g .wa (fun e h => outT h t d (fold e (low e) (g.members e.tm)))
      ∧ RunsLater (.gscan d a excl op t) s g .wa (fun e h =>
          outT h t d (fold e (low e) ((g.members e.tm).filter fun p =>
            p.1 < g.slots.idxOf h.tid || (p.1 == g.slots.idxOf h.tid && !excl)))))

/-! ### Frames of the words that only compute (R54, R56, R76) -/

/-- R54, R56, R58, R67, R76, R107: each of the words that only compute (the integer words, moves, comparisons, float
words, conversions, group words and SREAD, listed with what each writes in `computes`) completes from every state in which a
group issues, and leaves everything else as it was: every team, cluster, core, die, tenant, ring and byte of memory; every thread
in which it does not run; and in a thread in which it runs, the numbers, the PC, the status, the fault registers, the mode, every
register that is not its destination and every predicate but its own. It lowers no flag. One whose results are in flight changes no
register, predicate or flag yet, and puts one word in flight on WA that writes nothing but its destination. -/
def Obligations.ComputingWordsFrame : Prop :=
  ∀ (i : Instr) (r : Results) (s : State) (g : Group) (rest : List Group),
    computes i = some r → i.wf = true → s.groups = g :: rest →
    ∃ t, exec i s = .next t ∧ (∃ l, t = { s with teams := l, fresh := s.fresh + 1 })
    ∧ ∀ id tm, s.team? id = some tm → ∃ tm', t.team? id = some tm' ∧ tm' = { tm with threads := tm'.threads }
      ∧ ∀ tid h, tm.thread? tid = some h → ∃ h', tm'.thread? tid = some h'
        ∧ if runsIn s g i.mods tm h then r.frame h h' else h' = h

/-! ### Control transfers and system words (R61, R111 to R120) -/

/-- R61, R112, R113, R116: BRA sends each thread whose guard holds to header + 4 · offset modulo 2^48 and leaves the
others at the next clause; BRC sends every thread of the group there, or none, by whether its predicate has the sense
in all of them; REFORM and YIELD mark the group's threads for filing at the end of the clause; YIELD also as yielded. -/
def Obligations.BranchesSetNextPc : Prop :=
  ∀ (s : State) (g : Group) (rest : List Group) (gd : Guard) (sense : Bool) (p : P3) (off : BitVec 19),
    s.groups = g :: rest →
    let target := (BitVec.ofNat 48 g.header + 4 * off.signExtend 48).toNat
    RunsAs (.bra gd off) s g (fun e h =>
      if gd.en = false ∨ e.pred h gd.pred 63 = gd.sense then { h with pc := target } else h)
    ∧ RunsAs (.brc sense p off) s g (fun e h =>
      if ∀ x ∈ e.tm.threads, g.holds x = true → e.pred x p 63 = sense then { h with pc := target } else h)
    ∧ RunsAs .reform s g (fun _ h => { h with refile := true })
    ∧ RunsAs .yield s g (fun _ h => { h with refile := true, yielded := true })

/-- R114, R115: BRX sends a thread to reg(a), CALL and CALLX push the address of the clause that follows and go to
their target, RET pops; a target that is no multiple of 4 traps ALIGN, a call at 16 entries STACK 1 and a return at
none STACK 2; each thread by itself, and nothing but that thread changes.
That CALLX checks its target's alignment before the stack is the model's order (log 36). -/
def Obligations.IndirectCallsAndReturns : Prop :=
  ∀ (s : State) (g : Group) (rest : List Group) (a : Code) (gd : Guard) (off : BitVec 19), s.groups = g :: rest →
    let called := fun (s : State) (h : Thread) (target : Nat) (t : State) =>
      if h.stack.length < 16 then
        t = s.modThread g.team h.tid fun x =>
          { x with stack := ((g.header + 4 * g.words.length) % 2 ^ 48) :: x.stack, pc := target }
      else t = s.trap g h.tid (bad .stack 1)
    RunsEach (.brx a) s g (fun s tm h t =>
      let x := (s.env tm).rd64 h a 0
      if x.extractLsb' 0 2 = 0 then t = s.modThread g.team h.tid fun y => { y with pc := x.toNat }
      else t = s.trap g h.tid (badAt .align 0 x))
    ∧ RunsEach (.call gd off) s g (fun s tm h t =>
      if gd.en = false ∨ (s.env tm).pred h gd.pred 63 = gd.sense then
        called s h (BitVec.ofNat 48 g.header + 4 * off.signExtend 48).toNat t
      else t = s)
    ∧ RunsEach (.callx a) s g (fun s tm h t =>
      let x := (s.env tm).rd64 h a 0
      if x.extractLsb' 0 2 = 0 then called s h x.toNat t else t = s.trap g h.tid (badAt .align 0 x))
    ∧ RunsEach .ret s g (fun s _ h t =>
      match h.stack with
      | [] => t = s.trap g h.tid (bad .stack 2)
      | x :: l => t = s.modThread g.team h.tid fun y => { y with stack := l, pc := x })

/-- R117, R118, R119, R140: after EXIT a thread is exited and its results in flight are gone, though the words behind them still
end; every barrier of its team has a member less, and its arrival less if it had arrived, which completes a phase that the
remaining members have reached; in a team without barriers none of whose live threads waits in a CARVE nothing else changes. TRAP traps the thread with TRAPI, its immediate as DETAIL
and FPC at the clause that follows. ERET clears the handler bit and resumes the thread at the clause and the word that
FPC names, keeping recorded barrier arrivals only for that word.
That ERET keeps an arrival for its word alone is the model's reading (log 52). -/
def Obligations.LeavingAndTraps : Prop :=
  ∀ (s : State) (g : Group) (rest : List Group) (imm : BitVec 10), s.groups = g :: rest →
    RunsEach .exit s g (fun s tm h t =>
      let gone := fun (p : Pending) => { p with regs := [], preds := [] }
      (∃ h', t.thread? g.team h.tid = some h' ∧ h'.status = .exited ∧ h'.pend = h.pend.map gone)
      ∧ (tm.bars = [] → (∀ x ∈ tm.threads, x.carving = none) → (∃ l, t = { s with teams := l }) ∧
          t.team? g.team = some (tm.modThread h.tid fun x => { x with status := .exited, pend := x.pend.map gone }))
      ∧ (tm.bars.length ≤ 16 → (tm.threads.map (·.tid)).Nodup → ∃ tm', t.team? g.team = some tm' ∧ tm'.bars.length = tm.bars.length ∧
          ∀ k b, tm.bars[k]? = some b →
            let b' := { b with members := b.members - 1, arr := b.arr.erase h.tid
                               arrived := if h.tid ∈ b.arr then b.arrived - 1 else b.arrived }
            if b'.arrived = b'.members ∧ b'.members ≠ 0 ∧ b'.pending = 0 then
              (tm'.bar k).phase = b.phase + 1 ∧ (tm'.bar k).members = b'.members ∧ (tm'.bar k).arrived = 0 ∧ (tm'.bar k).arr = []
              ∧ (tm'.bar k).done1 = b.value ∧ (tm'.bar k).done2 = b.done1
              ∧ ∀ x ∈ tm'.threads, ∀ y, x.status = .blocked y → ∀ c w, y.wait ≠ .bsync k b.phase c w ∧ y.wait ≠ .bwait k b.phase c
            else tm'.bars[k]? = some b'))
    ∧ RunsEach (.trap imm) s g (fun s _ h t =>
      t = s.modThread g.team h.tid fun x => { x with
        status := .trapped { cause := 0x0E, detail := imm.setWidth 20, write := false, cls := 6, addr := 0
                             header := g.header + 4 * g.words.length, word := 0, cycle := s.clock } })
    ∧ RunsAs .eret s g (fun _ h => { h with
        handler := false
        pc := (h.fpc &&& 0xFFFFFFFFFFFC#64).toNat
        word := (h.fpc.extractLsb' 48 4).toNat
        refile := true
        arrivals := h.arrivals.filter fun x => x.header % 2 ^ 48 = (h.fpc &&& 0xFFFFFFFFFFFC#64).toNat
          ∧ x.word % 16 = (h.fpc.extractLsb' 48 4).toNat })

/-- R326, R76: a word that traps leaves the thread's registers, predicates and flags as they were and records the cause,
its DETAIL, WRITE, the address, the class of the clause and the place of the word; delivery (TRAP_DELIVER) writes them
into FAULT, FADDR and FPC in the layout of R71 once no word of the thread is in flight. -/
def Obligations.TrapNamesItsWord : Prop :=
  (∀ (s : State) (g : Group) (tid : Nat) (b : Bad) (h : Thread), s.thread? g.team tid = some h →
    ∃ u, (s.trap g tid b).thread? g.team tid = some { h with status := .trapped u } ∧
      u.cause.toNat = b.cause.code ∧ u.detail = BitVec.ofNat 20 b.detail ∧ u.write = b.write ∧ u.addr = b.addr ∧
      u.cls = (g.words.headD 0).extractLsb' 25 3 ∧ u.header = g.header ∧ u.word = g.idx)
  ∧ (∀ (u : Trap) (h : Thread), u.word < 16 → u.header < 2 ^ 48 →
    (h.takeTrap u).fault.extractLsb' 0 8 = u.cause ∧ (h.takeTrap u).fault.extractLsb' 8 3 = u.cls ∧
      (h.takeTrap u).fault.getLsbD 11 = u.write ∧ (h.takeTrap u).fault.extractLsb' 12 20 = u.detail ∧
      (h.takeTrap u).faddr.toNat = u.addr.toNat % 2 ^ 48 ∧
      (h.takeTrap u).fpc.toNat = u.word * 2 ^ 48 + u.header ∧
      { h.takeTrap u with fault := h.fault, faddr := h.faddr, fpc := h.fpc } = h)

/-- R120, R348: after a TLBI no TLB of the module holds a translation it covers (of its page in its address space, of
its address space, or any), no walk cache holds a non-leaf entry of its address space, or any, and its result is in flight on
WS, held back while an engine command pins a covered page. -/
def Obligations.TlbiDropsTranslations : Prop :=
  ∀ (s : State) (g : Group) (rest : List Group) (a b : Code) (op : TlbiOp) (m : Mods), s.groups = g :: rest →
    RunsEach (.tlbi a b op m) s g (fun s tm h t =>
      let va := ((s.env tm).rd64 h a 0).toNat
      let asid := ((s.env tm).rd32 h b 2).toNat % 4096
      let hit := fun (easid base log : Nat) => match op with
        | .page => easid = asid ∧ va / 2 ^ log * 2 ^ log = base
        | .asid => easid = asid
        | .all => True
      (∀ c ∈ t.cores, ∀ x ∈ c.tlb, ¬ hit x.asid x.base x.log)
      ∧ (∀ c ∈ t.clusters, ∀ x ∈ c.tlb, ¬ hit x.asid x.base x.log)
      ∧ (op ≠ .page → ∀ d ∈ t.dies, ∀ w ∈ d.walks, op = .asid ∧ w.asid ≠ asid)
      ∧ ∃ p, t.thread? g.team h.tid = some { h with pend := h.pend ++ [p] } ∧ p.ctr = .ws ∧ p.regs = [] ∧ p.preds = []
          ∧ (p.hold = none ↔ ∀ c ∈ s.cmds, ∀ x ∈ c.pins, ¬ hit x.asid x.base x.log))

/-! ### Memory words (R60, R121 to R135) -/

/-- R60, R123, R124, R128: LD reads, in each active thread, the bytes at its effective address as that thread sees them,
and puts them, zero-extended, in flight on WL for its destination; a misaligned address traps ALIGN, and any other
failed check traps as it says. (An aligned access lies within one line, since
page frames are aligned; its home answers, or HOMEDOWN was the failed check; the invariant is that of KeepsInvariant.)

R126, R128, R154: LDC delivers on WL bytes that are, in each aligned 32-bit part, those its core's constant cache holds
or those of memory, and memory's where the cache holds nothing; an address in the scratchpad window traps SCOPE 1.
An effective address is taken modulo 2^64 (log 29); the order of memory is the model's (log 10), the choice between old and new
bytes of LDC free (log 80). -/
def Obligations.Loads : Prop :=
  (∀ (s : State) (g : Group) (rest : List Group) (d base : Code) (size : MemSize) (off : BitVec 7) (m : Mods),
      s.groups = g :: rest →
      RunsEach (.ld d base size off m) s g (fun s tm h t =>
        let ag := tm.agent h.tid
        let n := sizeBytes size
        let at' := accessAt size ((s.env tm).rd64 h base 0) off
        (at'.1 % n ≠ 0 → t = s.trap g h.tid { cause := .align, detail := 0, write := false, addr := BitVec.ofNat 64 at'.1 })
        ∧ (at'.1 % n = 0 → ∀ s1 b, s.place ag at'.1 n .read = (s1, .error b) → t = s1.trap g h.tid b)
        ∧ (at'.1 % n = 0 → ∀ s1 l p, s.place ag at'.1 n .read = (s1, .ok (l, p)) →
            s1.paOf l % 64 + n ≤ 64 → s1.Inv → s1.answers l →
            let bytes := (List.range n).map (s1.seenByte ag at'.1 l (syncOf m).hint)
            inFlight t g h .wl (h.dstMem d
              (if size = .b4 then [BitVec.ofNat 8 ((bytes.headD 0).toNat / 16 ^ at'.2 % 16)] else bytes)) 0)))
  ∧ (∀ (s : State) (g : Group) (rest : List Group) (d base : Code) (size : MemSize) (off : BitVec 7) (m : Mods),
      s.groups = g :: rest → size ≠ .b4 →
      RunsEach (.ldc d base size off m) s g (fun s tm h t =>
        let ag := tm.agent h.tid
        let n := sizeBytes size
        let va := (accessAt size ((s.env tm).rd64 h base 0) off).1
        (va % n = 0 → inWindow va = true → t = s.trap g h.tid (badAt .scope 1 (BitVec.ofNat 64 va)))
        ∧ (va % n = 0 → inWindow va = false → ∀ s1 l p, s.translate ag va .read = (s1, .ok (l, p)) →
            ∃ bytes : List Byte, bytes.length = n ∧ inFlight t g h .wl (h.dstMem d bytes) 0 ∧
              t.mem = s1.mem ∧
              ∀ k, (∀ i, i < n → i / 4 = k → bytes[i]? = some (cellGet (s1.paOf l + i) s1.mem)) ∨
                ∃ x ∈ (s1.core tm.core).consts, x.pa = lineOf (s1.paOf l) ∧
                  ∀ i, i < n → i / 4 = k → bytes[i]? = some (x.data.getD (s1.paOf l % 64 + i) 0))))

/-- R60, R123, R124, R128, R182, R195: ST writes, in each active thread, the low bytes of its data registers at its
effective address: into its core's dirty bytes, with memory unchanged and no other address seen differently by the
core, or at the home where the access may not stay in the L1, with no other byte changed (but dirty bytes of the core in the same
aligned 8 bytes are written back with it, R184); the thread's acknowledgement
is in flight on WS. `s2` is the state after the word's own translation and release.
An effective address is taken modulo 2^64 (log 29), a guard word by its virtual address (log 30); that a store stays in the L1
until a write-back is the model's order (log 10). -/
def Obligations.StoresWriteTheirBytes : Prop :=
  ∀ (s : State) (g : Group) (rest : List Group) (d base : Code) (size : MemSize) (off : BitVec 7) (m : Mods),
    s.groups = g :: rest → size ≠ .b4 →
    RunsEach (.st d base size off m) s g (fun s tm h t =>
      let ag := tm.agent h.tid
      let n := sizeBytes size
      let va := (accessAt size ((s.env tm).rd64 h base 0) off).1
      let new := fun i => ((s.env tm).srcMem h d n).getD i 0
      let y := syncOf m
      (va % n ≠ 0 → t = s.trap g h.tid { cause := .align, detail := 0, write := true, addr := BitVec.ofNat 64 va })
      ∧ (va % n = 0 → ∀ s1 b, s.place ag va n .write = (s1, .error b) → t = s1.trap g h.tid b)
      ∧ (va % n = 0 → ∀ s1 l p, s.place ag va n .write = (s1, .ok (l, p)) → s1.paOf l % 64 + n ≤ 64 → s1.Inv → s1.answers l →
          let s2 := if y.order.releases then s1.release ag y.scope (s1.guardOf ag va) else s1
          inOrder t g h m [] 0 ∧
          (if s2.cacheable ag l y.hint ∧ ¬ (y.order.releases = true ∧ (ag.scope y.scope).homeWide = true) then
            t.mem = s2.mem ∧ ∀ a v, t.coreByte ag.core v a =
              if s2.paOf l ≤ a ∧ a < s2.paOf l + n then new (a - s2.paOf l) else s2.coreByte ag.core v a
          else storedAtHome s2 t ag false l n new)))

/-- R124, R127: STSB replaces, as one step at the home, the addressed byte or nibble by the low bits of its register and
leaves the other nibble and every other byte as they were.
An effective address and a nibble's are taken modulo 2^64 (log 29). -/
def Obligations.SubByteStoresAtHome : Prop :=
  ∀ (s : State) (g : Group) (rest : List Group) (d base : Code) (size : MemSize) (off : BitVec 7) (m : Mods),
    s.groups = g :: rest → size = .b8 ∨ size = .b4 →
    RunsEach (.stsb d base size off m) s g (fun s tm h t =>
      let ag := tm.agent h.tid
      let at' := accessAt size ((s.env tm).rd64 h base 0) off
      let x := (s.env tm).rd32 h d 8
      let y := syncOf m
      (∀ s1 b, s.place ag at'.1 1 .write = (s1, .error b) → t = s1.trap g h.tid b)
      ∧ (∀ s1 l p, s.place ag at'.1 1 .write = (s1, .ok (l, p)) → s1.Inv → s1.answers l →
          let s2 := if y.order.releases then s1.release ag y.scope (s1.guardOf ag at'.1) else s1
          let old := s2.homeByte ag l 0
          inOrder t g h m [] 0 ∧ storedAtHome s2 t ag y.order.acquires l 1 (fun _ =>
            if size = .b8 then x.setWidth 8
            else if at'.2 = 0 then old.extractLsb' 4 4 ++ x.extractLsb' 0 4 else x.extractLsb' 0 4 ++ old.extractLsb' 0 4)))

/-- R129 to R131: ATOM and ARED replace, as one step at the home, the old value by the operation's result and leave every
other byte as it was; ATOM brings the old value back on WS, ARED nothing; a float operation's flags come with it.

R130, R131: ACAS stores the new value, as one step at the home, only where the old value's bits equal the compare
value; d gets the old value on WS either way.
In a stream the upper half of a float atomic's old value is free (log 22). -/
def Obligations.Atomics : Prop :=
  (∀ (s : State) (g : Group) (rest : List Group) (d a : Code) (t : AtomTy) (op : AtomOp) (m : Mods) (back : Bool),
      s.groups = g :: rest →
      RunsEach (if back then .atom d a t op m else .ared d a t op m) s g (fun s tm h t' =>
        let ag := tm.agent h.tid
        let n := if t = .i64 ∨ t = .n64 then 8 else 4
        let va := ((s.env tm).rd64 h a 0).toNat
        let x := if t = .i64 ∨ t = .n64 then ((s.env tm).rd64 h d 8).toNat else ((s.env tm).rd32 h d 8).toNat
        let y := syncOf m
        (va % n = 0 → ∀ s1 b, s.place ag va n .write = (s1, .error b) → t' = s1.trap g h.tid b)
        ∧ (va % n = 0 → ∀ s1 l p, s.place ag va n .write = (s1, .ok (l, p)) → s1.paOf l % 64 + n ≤ 64 →
            s1.Inv → s1.answers l →
            let s2 := if y.order.releases then s1.release ag y.scope (s1.guardOf ag va) else s1
            let old := leNat ((List.range n).map (s2.homeByte ag l))
            let signed := fun (w k : Nat) => (BitVec.ofNat w k).toInt
            let el : Fmt → Nat → Nat → Nat × BitVec 6 := fun f => match op with
              | .min => f.pick false
              | .max => f.pick true
              | _ => f.add { rm := .rne, sat := false, scale := 0 }
            let two := fun (f : Fmt) => ((el f (old % 65536) (x % 65536)).1 + 65536 * (el f (old / 65536) (x / 65536)).1,
              (el f (old % 65536) (x % 65536)).2 ||| (el f (old / 65536) (x / 65536)).2)
            let new : Nat × BitVec 6 := match op, t with
              | .add, .i32 | .add, .n32 => ((BitVec.ofNat 32 old + BitVec.ofNat 32 x).toNat, 0)
              | .add, .i64 | .add, .n64 => ((BitVec.ofNat 64 old + BitVec.ofNat 64 x).toNat, 0)
              | .exch, _ => (x, 0)
              | .inc, _ => (if x ≤ old then 0 else old + 1, 0)
              | .and, _ => (old &&& x, 0)
              | .or, _ => (old ||| x, 0)
              | .xor, _ => (old ^^^ x, 0)
              | .min, .i32 => (if signed 32 old ≤ signed 32 x then old else x, 0)
              | .max, .i32 => (if signed 32 old ≤ signed 32 x then x else old, 0)
              | .min, .i64 => (if signed 64 old ≤ signed 64 x then old else x, 0)
              | .max, .i64 => (if signed 64 old ≤ signed 64 x then x else old, 0)
              | .min, .n32 | .min, .n64 => (min old x, 0)
              | .max, .n32 | .max, .n64 => (max old x, 0)
              | _, .f32 => el fmtF32 old x
              | _, .f16x2 => two fmtF16
              | _, .bf16x2 => two fmtBf16
            inOrder t' g h m (if back then h.dstAtom (choiceAt (s.env tm).step h.tid 9) t d old else []) new.2
            ∧ storedAtHome s2 t' ag y.order.acquires l n (fun i => (bytesLE n new.1).getD i 0))))
  ∧ (∀ (s : State) (g : Group) (rest : List Group) (d a : Code) (t : AtomTy) (m : Mods), s.groups = g :: rest →
      RunsEach (.acas d a t m) s g (fun s tm h t' =>
        let ag := tm.agent h.tid
        let n := if t = .i64 ∨ t = .n64 then 8 else 4
        let va := ((s.env tm).rd64 h a 0).toNat
        let y := syncOf m
        va % n = 0 → ∀ s1 l p, s.place ag va n .write = (s1, .ok (l, p)) → s1.paOf l % 64 + n ≤ 64 →
          s1.Inv → s1.answers l →
          let s2 := if y.order.releases then s1.release ag y.scope (s1.guardOf ag va) else s1
          let old := leNat ((List.range n).map (s2.homeByte ag l))
          inOrder t' g h m (h.dstAtom (choiceAt (s.env tm).step h.tid 9) t d old) 0
          ∧ storedAtHome s2 t' ag y.order.acquires l n (fun i => (bytesLE n
              (if old = (s.env tm).atomSrc h t d then (s.env tm).acasNew h t d else old)).getD i 0)))

/-- R133, R195, R196: once a fence's release at cluster scope or wider has been performed for a core's thread, no byte its
team wrote stays dirty in the core for a home in service; once its acquire at core scope or wider has, no line of the
core is under a live lease; its acknowledgement is in flight on WS.

R124, R134: PREF changes no byte of memory as its core sees it beyond what its translation did, and no thread; GUARD
gives the issuing team's entry e of the word its range, an empty one for a length of 0, empties the word for CLR,
leaves no empty word and every other word in the table, and traps SCOPE 2 for a ninth.
Guard words are matched by virtual address (log 30). -/
def Obligations.FencesPrefetchGuards : Prop :=
  (∀ (s : State) (g : Group) (rest : List Group) (m : Mods), s.groups = g :: rest →
      RunsEach (.fence m) s g (fun _ tm h t =>
        let ag := tm.agent h.tid
        let y := syncOf m
        inOrder t g h m [] 0
        ∧ (ag.stream = false → y.order.releases = true → (ag.scope y.scope).homeWide = true →
            ∀ pa, t.homeUp (lineOf pa) = true → ∀ b ∈ (t.line ag.core pa).dirty, ∀ w ∈ b.writers, w.1 ≠ tm.id)
        ∧ (ag.stream = false → y.order.acquires = true → ag.scope y.scope ≠ .team →
            ∀ x ∈ (t.core ag.core).lines, x.valid (t.core ag.core).ctime (t.die (dieOfCore ag.core)).epoch = false)))
  ∧ (∀ (s : State) (g : Group) (rest : List Group) (d a b : Code) (l2 clr : Bool) (off : BitVec 7) (k : BitVec 2) (m : Mods),
      s.groups = g :: rest →
      RunsEach (.pref a l2 off m) s g (fun s tm h t =>
        let ag := tm.agent h.tid
        let va := ((s.env tm).rd64 h a 0 + off.signExtend 64).toNat
        (inWindow va = true → t = s)
        ∧ (inWindow va = false → ∀ s1 x, s.translate ag va .read = (s1, .error x) → t = s1)
        ∧ (inWindow va = false → ∀ s1 l p, s.translate ag va .read = (s1, .ok (l, p)) →
            t.mem = s1.mem ∧ t.teams = s1.teams ∧ ∀ pa, t.dirtyByte ag.core pa = s1.dirtyByte ag.core pa))
      ∧ RunsEach (.guard d a b clr k m) s g (fun s tm h t =>
        let va := ((s.env tm).rd64 h a 0).toNat
        let lo := ((s.env tm).rd64 h b 2).toNat
        let len := ((s.env tm).rd32 h d 4).toNat
        va % 4 = 0 → ∀ s1 x, s.place (tm.agent h.tid) va 4 .read = (s1, .ok x) →
          (clr = false → len ≠ 0 → tm.guards.length = 8 → (∀ w ∈ tm.guards, w.addr ≠ va) →
            t = s1.trap g h.tid (badAt .scope 2 (BitVec.ofNat 64 va)))
          ∧ (clr = true ∨ len = 0 ∨ tm.guards.length ≠ 8 ∨ (∃ w ∈ tm.guards, w.addr = va) →
            ∃ tm', t.team? tm.id = some tm' ∧
              (∀ w, w.addr ≠ va → (w ∈ tm'.guards ↔ w ∈ tm.guards)) ∧
              (∀ w ∈ tm'.guards, w.addr = va → clr = false ∧ ¬ (∀ e ∈ w.entries, e.1 = e.2)) ∧
              (clr = false → len ≠ 0 → (∀ w ∈ tm.guards, w.addr = va → w.entries.length = 4) →
                ∃ w ∈ tm'.guards, w.addr = va ∧ w.entries[k.toNat]? = some (lo, lo + len)))))

/-- R341, R342, R343, R346: a walk goes through four levels of 512 entries, by bits 47:39, 38:30, 29:21 and 20:12 of the
address; where each level's entry is a valid table and the last a valid 4 KiB leaf, it answers the leaf's frame and
bits; a 2 MiB leaf at level 1 and a 1 GiB leaf at level 2 end it sooner; a level whose entry is not valid answers
XLATE's DETAIL with that level, and NOMAP as the entry has it; one whose entry is valid and breaks a must of R342 answers BAD with that
level, as an address above 48 bits does with level 3. A level-0 leaf with SZ64 answers the 64 KiB page of its own entry where the 16
entries agree but for A, D and FRAME bits 15:12, and that of some well-formed one of them otherwise (log 12). -/
def Obligations.PageWalkLevels : Prop :=
  ∀ (s : State) (tenant asid va root : Nat),
    let idx := fun (k : Nat) => va / 2 ^ (12 + 9 * k) % 512 * 8
    let next := fun (e : Nat) => e / 2 ^ 12 % 2 ^ 40 * 2 ^ 12
    let table := fun (e : Nat) => e % 2 = 1 ∧ e / 2 ^ 7 % 2 = 0 ∧ e / 2 ^ 52 = 0 ∧ e / 2 ^ 9 % 8 = 0 ∧ e / 2 ^ 8 % 2 = 0 ∧
      e / 2 ^ 5 % 4 = 0 ∧ e / 2 ^ 2 % 8 = 0
    let e3 := s.pte (root + idx 3)
    let e2 := s.pte (next e3 + idx 2)
    let e1 := s.pte (next e2 + idx 1)
    let e0 := s.pte (next e1 + idx 0)
    let isLeaf := fun (e k : Nat) => e % 2 = 1 ∧ e / 2 ^ 7 % 2 = 1 ∧ k ≠ 3 ∧ e / 2 ^ 52 % 2 ^ 7 = 0 ∧ e / 2 ^ 8 % 2 = 0 ∧
      e / 2 ^ 2 % 8 = 0 ∧ next e % 2 ^ (if k = 0 ∧ e / 2 ^ 11 % 2 = 1 then 16 else 12 + 9 * k) = 0 ∧ rangeOf (next e) ≠ .reserved
    let broken := fun (e k : Nat) => e % 2 = 1 ∧ ¬ isLeaf e k ∧ (k = 0 ∨ ¬ table e)
    let bad := fun (k : Nat) => s.walkFrom tenant asid va 3 root = .error (32 + k)
    let answers := fun (e pa log : Nat) =>
      ∃ x, s.walkFrom tenant asid va 3 root = .ok x ∧ x.frame = next e ∧ x.base = va / 2 ^ log * 2 ^ log ∧
        x.log = log ∧ x.pte = pa ∧ (x.write = true ↔ e / 2 ^ 5 % 2 = 1) ∧ (x.sup = true ↔ e / 2 ^ 6 % 2 = 1) ∧
        (x.xn = true ↔ e / 2 ^ 63 % 2 = 1) ∧ (x.psn = true ↔ e / 2 ^ 62 % 2 = 1)
    let p0 := next e1 + idx 0
    let sixteen := fun (i : Nat) => p0 / 128 * 128 + 8 * i
    let alike := fun (i : Nat) => (s.pte (sixteen i) / 2 ^ 16 = e0 / 2 ^ 16 ∧ s.pte (sixteen i) % 2 ^ 9 = e0 % 2 ^ 9
      ∧ s.pte (sixteen i) / 2 ^ 11 % 2 = e0 / 2 ^ 11 % 2)
    (broken e3 3 → bad 3)
    ∧ (table e3 → broken e2 2 → bad 2)
    ∧ (table e3 → table e2 → broken e1 1 → bad 1)
    ∧ (table e3 → table e2 → table e1 → broken e0 0 → bad 0)
    ∧ (2 ^ 48 ≤ va → ∀ r, s.rootOf tenant asid 0 = .ok r → s.walk tenant asid va = .error 35)
    ∧ (e3 % 2 = 0 → s.walkFrom tenant asid va 3 root = .error (xlateDetail false false (e3 / 2 % 2 == 1) 3))
    ∧ (table e3 → e2 % 2 = 0 → s.walkFrom tenant asid va 3 root = .error (xlateDetail false false (e2 / 2 % 2 == 1) 2))
    ∧ (table e3 → isLeaf e2 2 → answers e2 (next e3 + idx 2) 30)
    ∧ (table e3 → table e2 → e1 % 2 = 0 →
        s.walkFrom tenant asid va 3 root = .error (xlateDetail false false (e1 / 2 % 2 == 1) 1))
    ∧ (table e3 → table e2 → isLeaf e1 1 → answers e1 (next e2 + idx 1) 21)
    ∧ (table e3 → table e2 → table e1 → e0 % 2 = 0 →
        s.walkFrom tenant asid va 3 root = .error (xlateDetail false false (e0 / 2 % 2 == 1) 0))
    ∧ (table e3 → table e2 → table e1 → isLeaf e0 0 →
        (e0 / 2 ^ 11 % 2 = 0 → answers e0 p0 12)
        ∧ (e0 / 2 ^ 11 % 2 = 1 → (∀ i, i < 16 → alike i) → answers e0 p0 16)
        ∧ (e0 / 2 ^ 11 % 2 = 1 → ∃ i, i < 16 ∧ isLeaf (s.pte (sixteen i)) 0 ∧ s.pte (sixteen i) / 2 ^ 11 % 2 = 1
            ∧ answers (s.pte (sixteen i)) (sixteen i) 16))

/-- R128: once a leaf is found, the checks of an access come in the order write permission, supervisor page, execution,
poison, home: the first that fails is the trap, with the access's address and WRITE. (Outside shadow bindings, and
pages an unbinding left exchanged.) -/
def Obligations.ChecksComeInOrder : Prop :=
  ∀ (s s1 : State) (ag : Agent) (va : Nat) (kind : Kind) (e : TlbEntry),
    s.leafFor ag.core ag.direct ag.tenant ag.asid va kind = (s1, .ok e) →
    s1.bindings = [] → s1.remaps = [] →
    let fetch := if kind = .fetch then 16 else 0
    let w := kind.writes
    let pa := e.frame + va % 2 ^ e.log
    let no := fun (c : Cause) (d : Nat) =>
      s.translate ag va kind = (s1, .error { cause := c, detail := d, write := w, addr := BitVec.ofNat 64 va })
    (w = true → e.write = false → no .perm 1)
    ∧ ((w = false ∨ e.write = true) →
        (e.sup = true → ag.sup = false → no .perm (2 + fetch))
        ∧ ((e.sup = false ∨ ag.sup = true) →
            (kind = .fetch → e.xn = true → no .perm 19)
            ∧ ((kind ≠ .fetch ∨ e.xn = false) →
                (e.psn = true → no .poison 0)
                ∧ (e.psn = false → s1.homeUp pa = false → no .homedown 0)
                ∧ (e.psn = false → s1.homeUp pa = true → ∃ p, s.translate ag va kind = (s1, .ok (.mem pa, p))))))

/-! ### Barrier words (R136 to R141) -/

/-- R138, R139: the K8 counts an arrival: the first of a phase fixes the operation and the start value, each folds its
payload in, a second by one member before completion is BARRIER 5 and another operation BARRIER 7.

R137 to R140: BINIT puts a barrier with no arrival and no waiting thread in its task-start state for the live
members, and traps BARRIER 4 otherwise, as it does while a thread that was saved at a BWAIT of the barrier has not executed it again; BARV arrives, answers the phase as a token on WQ and does not wait; BTEST and
BWAIT answer for a completed phase (its result for one of the last two), and trap BARRIER 6 for a token the barrier no
longer knows; BWAIT blocks in the phase that still runs. A BARV that is the last arrival completes its phase: no thread then waits in
it at a BSYNC or a BWAIT, and each that did has the phase's result in its destination. Each of the four completes in a next state
whatever the barrier holds.

R122, R137 to R139: a BSYNC with no recorded arrival arrives and blocks, unless it is the last arrival that its phase
waits for; the last one completes the phase, and neither it nor any other thread of its team then waits in that
phase, at a BSYNC or at a BWAIT: each has the phase's result, DONE1, in its destination. A BSYNC that is executed again by a thread
whose arrival at it is recorded does not arrive: it waits for the phase of that arrival, or returns the result of that phase; the
thread's records of other words stay.
That a phase whose arrivals have all been withdrawn starts anew is the model's reading (log 85); what becomes of a withdrawn
BSYNC's arrival is log 52; in a stream the upper half of a barrier's result or token is free (log 22). -/
def Obligations.BarriersArriveAndRelease : Prop :=
  (∀ (b : Barrier) (tid : Nat) (op : RedOp) (x : Word),
      (tid ∈ b.arr → b.arrive tid op x = .error 5)
      ∧ (tid ∉ b.arr → b.arrived ≠ 0 → op ≠ b.op → b.arrive tid op x = .error 7)
      ∧ (tid ∉ b.arr → (b.arrived = 0 ∨ op = b.op) →
          ∃ b', b.arrive tid op x = .ok b' ∧ b'.arrived = b.arrived + 1 ∧ b'.arr = tid :: b.arr ∧ b'.op = op ∧
            b'.phase = b.phase ∧ b'.members = b.members ∧ b'.pending = b.pending ∧ b'.done1 = b.done1 ∧ b'.done2 = b.done2 ∧
            let v := if b.arrived = 0 then (if op = .and then BitVec.allOnes 32 else 0) else b.value
            b'.value = match op with
              | .none => v | .and => v &&& x | .or => v ||| x | .sum => v + x
              | .popc => v + (if x = 0 then 0 else 1)))
  ∧ (∀ (s : State) (g : Group) (rest : List Group) (d a : Code) (pd : P3) (n : BitVec 4) (op : RedOp) (m : Mods),
      s.groups = g :: rest →
      let woken := fun (n : Nat) (phase : BitVec 16) (v : Word) (tm : Team) (h : Thread) (tm' : Team) =>
        (∀ k ∈ tm.threads, k.tid ≠ h.tid → ∀ y c, k.status = .blocked y → (y.wait = .bwait n phase c ∨ y.wait = .bsync n phase c true) →
          c.toNat < (if k.ctl then k.c.length else k.v.length) → (k.ctl = true → c ≠ 0) →
            ∃ k', tm'.thread? k.tid = some k' ∧ (k'.raw c.toNat).setWidth 32 = v)
        ∧ ∀ k ∈ tm'.threads, ∀ y, k.status = .blocked y → ∀ c w, y.wait ≠ .bwait n phase c ∧ y.wait ≠ .bsync n phase c w
      RunsOnce (.binit n m) s g (fun s tm h t =>
        let b := tm.bar n.toNat
        let waits := ∃ x ∈ tm.threads, (∃ y p c, x.status = .blocked y ∧ y.wait = .bwait n.toNat p c) ∨
          (x.waitAt = some n.toNat ∧ x.status ≠ .exited ∧ ∀ y, x.status ≠ .blocked y)
        ((b.arrived ≠ 0 ∨ b.pending ≠ 0 ∨ waits) → t = s.trap g h.tid (bad .barrier 4))
        ∧ (b.arrived = 0 → b.pending = 0 → ¬ waits → n.toNat < tm.bars.length →
            (∃ tm', t.team? tm.id = some tm' ∧ (tm'.bar n.toNat) = Barrier.start (tm.liveThreads.length + tm.liveStream.toNat)
              ∧ ∀ k, k ≠ n.toNat → tm'.bars[k]? = tm.bars[k]?)
            ∧ inFlight t g h .wq [] 0))
      ∧ RunsEach (.barv d a n op m) s g (fun s tm h t =>
        let b := tm.bar n.toNat
        let x := if op = .none then 0 else (s.env tm).rd32 h a 0
        (∀ k, b.arrive h.tid op x = .error k → t = s.trap g h.tid (bad .barrier k))
        ∧ (∀ b', b.arrive h.tid op x = .ok b' → n.toNat < tm.bars.length →
            (∃ h', t.thread? g.team h.tid = some h' ∧ ∃ p ∈ h'.pend, p.ctr = .wq ∧ p.hold = none ∧
              p.regs = (h.dstFree (choiceAt (s.env tm).step h.tid 9) d (b.phase.setWidth 32)).map
                fun r => { idx := r.1, val := r.2, clash := false })
            ∧ (¬ (b'.arrived = b'.members ∧ b'.pending = 0) →
                ∃ tm', t.team? tm.id = some tm' ∧ tm'.bar n.toNat = b')
            ∧ (b'.arrived = b'.members → b'.members ≠ 0 → b'.pending = 0 →
                ∃ tm', t.team? tm.id = some tm' ∧ (tm'.bar n.toNat).phase = b.phase + 1 ∧ (tm'.bar n.toNat).arrived = 0 ∧
                  (tm'.bar n.toNat).done1 = b'.value ∧ (tm'.bar n.toNat).done2 = b.done1 ∧ (tm'.bar n.toNat).arr = [] ∧
                  ((tm.threads.map (·.tid)).Nodup → woken n.toNat b.phase b'.value tm h tm'))))
      ∧ RunsEach (.btest pd a n m) s g (fun s tm h t =>
        let b := tm.bar n.toNat
        let k := ((s.env tm).rd32 h a 0).setWidth 16
        let answer := fun (x : Bool) => t.thread? g.team h.tid = some (h.launch
          { ctr := .wq, regs := [], preds := [{ idx := pd.toNat, val := x, clash := false }], flags := 0, hold := none })
        if k = b.phase then answer false
        else if k = b.phase - 1 ∨ k = b.phase - 2 then answer true
        else t = s.trap g h.tid (bad .barrier 6))
      ∧ RunsEach (.bwait d a n m) s g (fun s tm h t =>
        let b := tm.bar n.toNat
        let k := ((s.env tm).rd32 h a 0).setWidth 16
        let h0 := { h with waitAt := none }
        let answer := fun (x : Word) => inFlight t g h0 .wq (h.dstFree (choiceAt (s.env tm).step h.tid 9) d x) 0
        if k = b.phase then
          ∃ y, t.thread? g.team h.tid = some { h0 with status := .blocked y } ∧ y.wait = .bwait n.toNat k d ∧
            y.header = g.header ∧ y.word = g.idx
        else if k = b.phase - 1 then answer b.done1
        else if k = b.phase - 2 then answer b.done2
        else t = (s.modThread tm.id h.tid fun y => { y with waitAt := none }).trap g h.tid (bad .barrier 6)))
  ∧ (∀ (s : State) (g : Group) (rest : List Group) (d a : Code) (n : BitVec 4) (op : RedOp) (m : Mods),
      s.groups = g :: rest →
      RunsEach (.bsync d a n op m) s g (fun s tm h t =>
        let b := tm.bar n.toNat
        let x := if op = .none then 0 else (s.env tm).rd32 h a 0
        let got := fun (v : Word) (k : Thread) (c : Code) =>
          c.toNat < (if k.ctl then k.c.length else k.v.length) → (k.ctl = true → c ≠ 0) →
            ∃ k', t.thread? tm.id k.tid = some k' ∧ (k'.raw c.toNat).setWidth 32 = v
        let its := fun (r : Arrival) => r.bar = n.toNat ∧ r.header = g.header ∧ r.word = g.idx
        (∀ r l l', h.arrivals = l ++ r :: l' → its r → (∀ x ∈ l, ¬ its x) →
          let h0 := { h with arrivals := h.arrivals.filter fun x => ¬ (x.bar = n.toNat ∧ x.header = g.header ∧ x.word = g.idx) }
          (∃ tm', t.team? tm.id = some tm' ∧ tm'.bars = tm.bars)
          ∧ (∀ v, r.value = some v → gets t g h0 .wq
              (if op = .none then Out.none else Out.reg (h.dstFree (choiceAt (s.env tm).step h.tid 9) d v)))
          ∧ (r.value = none → ∃ y, t.thread? g.team h.tid = some { h0 with status := .blocked y } ∧
              y.wait = .bsync n.toNat r.phase d (op != .none) ∧ y.header = g.header ∧ y.word = g.idx))
        ∧ ((∀ r ∈ h.arrivals, ¬ its r) →
        (∀ k, b.arrive h.tid op x = .error k → t = s.trap g h.tid (bad .barrier k))
        ∧ (∀ b', b.arrive h.tid op x = .ok b' → n.toNat < tm.bars.length →
            (¬ (b'.arrived = b'.members ∧ b'.pending = 0) →
              (∃ tm', t.team? tm.id = some tm' ∧ tm'.bar n.toNat = b') ∧
              ∃ h' y, t.thread? g.team h.tid = some h' ∧ h'.status = .blocked y ∧
                y.wait = .bsync n.toNat b.phase d (op != .none) ∧ y.header = g.header ∧ y.word = g.idx)
            ∧ (b'.arrived = b'.members → b'.members ≠ 0 → b'.pending = 0 → (tm.threads.map (·.tid)).Nodup →
              ∃ tm', t.team? tm.id = some tm' ∧ (tm'.bar n.toNat).phase = b.phase + 1 ∧ (tm'.bar n.toNat).arrived = 0 ∧
                (tm'.bar n.toNat).done1 = b'.value ∧
                (op ≠ .none → got b'.value h d) ∧ (∀ k ∈ tm.threads, k.tid ≠ h.tid → ∀ y c, k.status = .blocked y →
                  (y.wait = .bsync n.toNat b.phase c true ∨ y.wait = .bwait n.toNat b.phase c) → got b'.value k c) ∧
                ∀ k ∈ tm'.threads, ∀ y, k.status = .blocked y → ∀ c w, y.wait ≠ .bsync n.toNat b.phase c w ∧
                  y.wait ≠ .bwait n.toNat b.phase c)))))

/-! ### Landings, hauls and tasks (R142 to R155, R242 to R259) -/

/-- R142 to R144, R147: LOPEN binds its handle to the active landing whose descriptor stands at its address, and traps
SCOPE 3 for a core landing of another cluster; where none is active, a descriptor that breaks R142 is LSEALED 4, one
without room (of granules for a core landing; of landings, 4,096 in all and 32 of its home, for an L2 landing, or outside local HBM)
LSEALED 5, and any other is activated: open, empty, with its slots and overflow.

R146 to R149, R151: on a landing that its handle names and whose home is up. LPUSH appends the 64 bytes of its sixteen
registers behind the records that wait and sets its predicate, blocks in a full core landing and behind pushes, a fault record among
them, that wait there already, traps LSPILL with slots
and overflow full, and on a landing no longer open clears its predicate, or traps LSEALED 1 where that is p7. LPOP and
LTRYPOP take the oldest record into sixteen registers, behind those that wait to pop; with none, LPOP blocks on an open
landing. LSTAT reports state, overflow, class, late bit, hauls and count; LSEAL seals an open landing. A landing without
a handle is LSEALED 3.
Records are held in the landing, not in its bytes (log 16); a descriptor outside local HBM is LSEALED 5 by log 37, an overflow
base of 0 none by log 38, WRITE of LPUSH's traps log 34, the room of a handle that is bound anew log 94, a descriptor that is
written while its landing is active log 115. -/
def Obligations.LandingsOpenAndRecord : Prop :=
  (∀ (s : State) (g : Group) (rest : List Group) (n : P3) (a : Code) (m : Mods), s.groups = g :: rest →
      RunsOnce (.lopen n a m) s g (fun s tm h t =>
        let va := (s.env tm).addr h a
        let ag := tm.agent h.tid
        (∀ s1 b, s.readStruct ag va.toNat 64 64 = (s1, .error b) → t = s1.trap g h.tid b)
        ∧ (∀ s1 b s2 l p, s.readStruct ag va.toNat 64 64 = (s1, .ok b) → s1.place ag va.toNat 64 .read = (s2, .ok (l, p)) →
            (∀ k o, l ≠ .scr k o) → s2.landing? s2.ids = none →
            let bound := fun (id : Nat) => gets t g h .wq Out.none ∧ ∃ tm', t.team? tm.id = some tm' ∧
              (n.toNat < tm.handles.length → tm'.handle n = some { landing := id, addr := va })
            (∀ x, s2.landings.find? (fun y => y.desc = s2.paOf l ∧ !y.released) = some x →
              (x.l2 = false → clusOf x.home ≠ clusOf tm.core → t = s2.trap g h.tid (badAt .scope 3 va))
              ∧ ((x.l2 = true ∨ clusOf x.home = clusOf tm.core) → bound x.id))
            ∧ (s2.landings.find? (fun y => y.desc = s2.paOf l ∧ !y.released) = none →
              (landingOf b = none → t = s2.trap g h.tid (sealed 4 va false))
              ∧ (∀ slots ovf, landingOf b = some (false, slots, ovf) →
                  if (s2.usage tm.core false).granules + granules (slots * 64) ≤ 352 then
                    bound s2.ids ∧ (tm.handle n = none → ∃ x, t.landing? s2.ids = some x ∧ x.desc = s2.paOf l ∧ x.slots = slots ∧
                      x.l2 = false ∧ x.home = tm.core ∧ x.state = .opened ∧ x.waiting = [] ∧ x.hauls = [] ∧ x.expert = none)
                  else t = s2.trap g h.tid (sealed 5 va false))
              ∧ (∀ slots ovf, landingOf b = some (true, slots, ovf) → tm.handle n = none →
                  s2.isLocal (s2.paOf l) = true → (s2.landings.filter (·.l2)).length < 4096 →
                  (s2.landings.filter fun y => y.l2 && y.home == homeOf (s2.paOf l)).length < 32 →
                  bound s2.ids ∧ ∃ x, t.landing? s2.ids = some x ∧ x.desc = s2.paOf l ∧ x.slots = slots ∧ x.ovf = ovf ∧
                    x.l2 = true ∧ x.home = homeOf (s2.paOf l) ∧ x.state = .opened ∧ x.waiting = [] ∧ x.expert = none)
              ∧ (∀ slots ovf, landingOf b = some (true, slots, ovf) →
                  (s2.isLocal (s2.paOf l) = false ∨ 4096 ≤ (s2.landings.filter (·.l2)).length
                    ∨ 32 ≤ (s2.landings.filter fun y => y.l2 && y.home == homeOf (s2.paOf l)).length) →
                  t = s2.trap g h.tid (sealed 5 va false))))))
  ∧ (∀ (s : State) (g : Group) (rest : List Group) (pd n : P3) (a : Code) (m : Mods), s.groups = g :: rest →
      let on := fun (write : Bool) (r : State → Team → Thread → State → Handle → Landing → Prop)
          (s : State) (tm : Team) (h : Thread) (t : State) =>
        (tm.handle n = none → t = s.trap g h.tid (sealed 3 0 write))
        ∧ (∀ x, tm.handle n = some x → ∀ l, s.landing? x.landing = some l →
            (s.landDown l = true → t = s.trap g h.tid (homeDown x.addr write))
            ∧ (s.landDown l = false → r s tm h t x l))
      RunsEach (.lpush pd n a m) s g (on true fun s tm h t x l =>
        let rec' := (List.range 16).flatMap fun i => bytesLE 4 ((s.env tm).rdAt h a i (8 + i)).toNat
        (l.state ≠ .opened → pd = 7 → t = s.trap g h.tid (sealed 1 x.addr true))
        ∧ (l.state ≠ .opened → pd ≠ 7 → gets t g h .wq (Out.pred pd false) ∧ t.landing? l.id = some l)
        ∧ (l.state = .opened → l.slots ≤ l.inSlots → l.l2 = true → l.ovf ≠ 0 → l.ovf ≤ l.inOvf →
            t = s.trap g h.tid { cause := .lspill, detail := 0, write := true, addr := x.addr })
        ∧ (l.state = .opened → l.slots ≤ l.inSlots → (l.l2 = false ∨ l.ovf = 0) →
            (∃ y, t.thread? g.team h.tid = some { h with status := .blocked y } ∧ y.wait = .lpush l.id x.addr pd rec' ∧
              y.header = g.header ∧ y.word = g.idx) ∧ t.landing? l.id = some l)
        ∧ (l.state = .opened → (l.inSlots < l.slots ∨ l.l2 = true ∧ l.ovf ≠ 0 ∧ l.inOvf < l.ovf) → s.waiters l.id true ≠ [] →
            (∃ y, t.thread? g.team h.tid = some { h with status := .blocked y } ∧ y.wait = .lpush l.id x.addr pd rec' ∧
              y.header = g.header ∧ y.word = g.idx) ∧ t.landing? l.id = some l)
        ∧ (l.state = .opened → l.expert = none → s.waiters l.id true = [] →
            (l.inSlots < l.slots ∨ l.l2 = true ∧ l.ovf ≠ 0 ∧ l.inOvf < l.ovf) →
            gets t g h .wq (Out.pred pd true) ∧
              t.landing? l.id = some { l with waiting := l.waiting ++
                [{ data := rec', clock := s.clock, ovf := decide (l.slots ≤ l.inSlots) }] }))
      ∧ (∀ wait : Bool, RunsEach (if wait then .lpop pd n a m else .ltrypop pd n a m) s g (on false fun s _ h t x l =>
        let k := (s.waiters l.id false).length
        (l.expert.isSome = true → t = s.trap g h.tid (sealed 6 x.addr false))
        ∧ (l.expert = none →
            (∀ r, l.waiting[k]? = some r →
              gets t g h .wq { regs := (List.range 16).map fun i => (a.toNat + i, BitVec.ofNat 64 (leNat ((r.data.drop (4 * i)).take 4)))
                               preds := [(pd.toNat, true)], flags := 0 } ∧
                t.landing? l.id = some { l with waiting := l.waiting.eraseIdx k
                                                state := if l.state = .sealed ∧ l.waiting.eraseIdx k = [] then .ended else l.state })
            ∧ (l.waiting.length ≤ k → l.state = .opened → wait = true →
                ∃ y, t.thread? g.team h.tid = some { h with status := .blocked y } ∧ y.wait = .lpop l.id x.addr pd a)
            ∧ (l.waiting.length ≤ k → (l.state = .opened ∧ wait = false ∨ l.state ≠ .opened ∧ (wait = false ∨ pd ≠ 7)) →
                gets t g h .wq (Out.pred pd false))
            ∧ (l.waiting.length ≤ k → l.state ≠ .opened → wait = true → pd = 7 →
                t = s.trap g h.tid (sealed 2 x.addr false)))))
      ∧ RunsEach (.lseal n m) s g (on false fun _ _ h t _ l =>
        gets t g h .wq Out.none ∧ (l.expert = none → t.landing? l.id = some { l with state :=
          if l.state = .opened then (if l.waiting = [] then .ended else .sealed) else l.state }))
      ∧ RunsEach (.lstat n a m) s g (on false fun s _ h t _ l =>
        let st : BitVec 2 := match l.state with | .opened => 1 | .sealed => 2 | .ended => 3
        let count := BitVec.ofNat 21 l.waiting.length
        let high : BitVec 11 := match l.expert with
          | none => st ++ BitVec.ofBool (decide (0 < l.inOvf)) ++ 0#8
          | some e => st ++ BitVec.ofBool (decide (0 < l.inOvf)) ++ 1#1 ++ e.ctl.extractLsb' 8 2
              ++ BitVec.ofBool l.readySince.isSome ++ BitVec.ofNat 4 (min l.hauls.length 15)
        t = s.modThread g.team h.tid (·.launch ((Out.reg (h.dst32 a (high ++ count) false)).later .wq none))))

/-- R148, R149: the home serves a blocked LPUSH once it is first and there is room, and a blocked LPOP once it is first and
a record waits: the record goes in or out, the predicate is 1, and the thread is ready again at its next PC, or parks there; a landing
that has been sealed, or has ended, resumes it with the predicate 0, or traps it with LSEALED, with the address of the handle as FADDR, where that is p7. A blocked LPOP
whose landing has become an expert landing traps LSEALED 6, by the model's choice (log 98).
WRITE of LPUSH's traps is log 34, words blocked on a landing that is released log 112. -/
def Obligations.BlockedLandingWordsAreServed : Prop :=
  ∀ (s : State) (team tid : Nat) (tm : Team) (h : Thread) (b : Block) (id : Nat) (pd : P3) (l : Landing),
    s.team? team = some tm → tm.thread? tid = some h → h.status = .blocked b → tm.state = .run →
    s.landing? id = some l → s.landDown l = false →
    let first := fun (push : Bool) => (firstOf (s.waiters id push)).map (·.2) = some (team, tid)
    (∀ data addr, b.wait = .lpush id addr pd data →
      (l.state = .opened → first true → l.expert = none →
        (l.inSlots < l.slots ∨ l.l2 = true ∧ l.ovf ≠ 0 ∧ l.inOvf < l.ovf) →
        ∃ t, exec (.lpushBlockedServe team tid) s = .next t ∧ resumed t team tid h b.park ∧
          (∀ h', t.thread? team tid = some h' → h'.rawPred pd.toNat = true ∧ h'.v = h.v) ∧
          t.landing? id = some { l with waiting := l.waiting ++
            [{ data := data, clock := s.clock, ovf := decide (l.slots ≤ l.inSlots) }] })
      ∧ (l.state ≠ .opened → ∃ t, exec (.lpushBlockedServe team tid) s = .next t ∧ t.landing? id = some l ∧
          (pd ≠ 7 → resumed t team tid h b.park ∧ ∀ h', t.thread? team tid = some h' → h'.rawPred pd.toNat = false ∧ h'.v = h.v)
          ∧ (pd = 7 → ∃ x, t.thread? team tid = some { h with status := .trapped x } ∧ x.cause = 8 ∧ x.detail = 1 ∧
              x.addr = addr ∧ x.header = b.header ∧ x.word = b.word)))
    ∧ (∀ a addr, b.wait = .lpop id addr pd a →
      (∀ r w, l.waiting = r :: w → l.expert = none → first false → h.ctl = false →
        ∃ t, exec (.lpopBlockedServe team tid) s = .next t ∧ resumed t team tid h b.park ∧
          (∀ h', t.thread? team tid = some h' → h'.rawPred pd.toNat = true ∧
            ∀ i, i < 16 → a.toNat + i < h.v.length → h'.v[a.toNat + i]? = some (BitVec.ofNat 32 (leNat ((r.data.drop (4 * i)).take 4)))))
      ∧ (l.expert.isSome = true → ∃ t x, exec (.lpopBlockedServe team tid) s = .next t ∧
          t.thread? team tid = some { h with status := .trapped x } ∧ x.cause = 8 ∧ x.detail = 6 ∧ x.addr = addr)
      ∧ (l.waiting = [] → l.expert = none → l.state = .ended → ∃ t, exec (.lpopBlockedServe team tid) s = .next t ∧
          (pd ≠ 7 → resumed t team tid h b.park ∧ ∀ h', t.thread? team tid = some h' → h'.rawPred pd.toNat = false ∧ h'.v = h.v)
          ∧ (pd = 7 → ∃ x, t.thread? team tid = some { h with status := .trapped x } ∧ x.cause = 8 ∧ x.detail = 2 ∧ x.addr = addr)))

/-- R247 to R251, R253, R254: forming a haul takes the oldest waiting records, up to 128, under the landing's sequence
number, which rises. LFIRE forms one of a landing with waiting records and answers whether it did; HBIND stores the
haul's records one after another from its aligned address and answers their count; HDONE retires the haul. -/
def Obligations.HaulsFormBindRetire : Prop :=
  (∀ (s : State) (id cause : Nat) (l : Landing) (e : Expert), s.landing? id = some l → l.expert = some e → l.waiting ≠ [] →
    l.state = .opened →
    ∃ x, (s.formHaul id cause).landing? id = some x ∧ x.waiting = l.waiting.drop 128 ∧
      x.hauls = l.hauls ++ [{ seq := l.seq, recs := l.waiting.take 128 }] ∧ x.seq = l.seq + 1 ∧ x.state = .opened ∧
      x.expert = l.expert)
  ∧ ∀ (s : State) (g : Group) (rest : List Group) (pd n : P3) (d a : Code) (m : Mods), s.groups = g :: rest →
    RunsOnce (.lfire pd n m) s g (fun s tm h t =>
      (tm.handle n = none → t = s.trap g h.tid (sealed 3 0 false))
      ∧ ∀ x l, tm.handle n = some x → s.landing? x.landing = some l → s.landDown l = false →
        (l.expert = none → t = s.trap g h.tid (sealed 11 x.addr false))
        ∧ (l.expert.isSome = true → (l.state = .ended ∨ l.waiting = []) → gets t g h .wq (Out.pred pd false))
        ∧ (∀ e, l.expert = some e → l.state = .opened → l.waiting ≠ [] → gets t g h .wq (Out.pred pd true) ∧
            (l.waiting.length < 128 + e.fill → 0 < e.fill → ∃ y, t.landing? l.id = some y ∧ y.waiting = l.waiting.drop 128 ∧
              y.hauls = l.hauls ++ [{ seq := l.seq, recs := l.waiting.take 128 }])))
    ∧ RunsOnce (.hbind d a m) s g (fun s tm h t =>
      let va := ((s.env tm).addr h a).toNat
      let ag := tm.agent h.tid
      (s.haulOf tm = none → t = s.trap g h.tid (noHaul tm))
      ∧ ∀ l u, s.haulOf tm = some (l, u) → s.landDown l = false →
        (va % 64 ≠ 0 → t = s.trap g h.tid { cause := .align, detail := 0, write := true, addr := BitVec.ofNat 64 va })
        ∧ (va % 64 = 0 → ∀ s1 b, s.range ag va (64 * u.recs.length) .write = (s1, .error b) → t = s1.trap g h.tid b)
        ∧ (va % 64 = 0 → ∀ s1 x, s.range ag va (64 * u.recs.length) .write = (s1, .ok x) →
            gets t g h .wq (Out.reg (h.dst32 d (BitVec.ofNat 32 u.recs.length) false))
            ∧ (∀ z l', x.1 = [z] → z.loc = l' → s1.Inv → (∀ r ∈ u.recs, r.data.length = 64) →
                let new := fun i => (u.recs.flatMap (·.data)).getD i 0
                (∀ k o, l' = .scr k o → storedAtHome s1 t ag false l' (64 * u.recs.length) new)
                ∧ (∀ pa, l' = .mem pa → pa % 64 = 0 → s1.cacheable ag l' .normal = true →
                    ∀ i v, i < 64 * u.recs.length → t.coreByte ag.core v (pa + i) = new i))))
    ∧ RunsOnce (.hdone m) s g (fun s tm h t =>
      (s.haulOf tm = none → t = s.trap g h.tid (noHaul tm))
      ∧ ∀ l u, s.haulOf tm = some (l, u) → s.landDown l = false →
        gets t g h .wq Out.none ∧ (∃ tm', t.team? tm.id = some tm' ∧ tm'.retired = true)
        ∧ ∀ y, t.landing? l.id = some y → ∀ z ∈ y.hauls, z.seq ≠ u.seq)

/-- R243, R245, R246: LCFG installs in an open, empty L2 landing the block of its 32 bytes, with the issuing task's owner,
or a plain landing for all zeros; a core landing is LSEALED 7, a block outside R243 8, a landing with records or sealed 10, no
room for its stage floor 9, whatever the block is. The age tick of a home forms a haul of a landing whose oldest record is older than its
limit, and does nothing a second time in one cycle (R248).
Which core holds a floor is log 24, that a floor does not shrink log 123. -/
def Obligations.ExpertLandings : Prop :=
  (∀ (s : State) (g : Group) (rest : List Group) (n : P3) (a : Code) (m : Mods), s.groups = g :: rest →
    RunsOnce (.lcfg n a m) s g (fun s tm h t =>
      let va := ((s.env tm).addr h a).toNat
      let ag := tm.agent h.tid
      (tm.handle n = none → t = s.trap g h.tid (sealed 3 0 false))
      ∧ ∀ x, tm.handle n = some x → ∀ s1 b l, s.readStruct ag va 32 32 = (s1, .ok b) → s1.landing? x.landing = some l →
        s1.landDown l = false →
        (b.all (· == 0) = true →
          (l.l2 = false → t = s1.trap g h.tid (sealed 7 x.addr false))
          ∧ (l.l2 = true → (l.state ≠ .opened ∨ l.waiting ≠ []) → t = s1.trap g h.tid (sealed 10 x.addr false))
          ∧ (l.l2 = true → l.state = .opened → l.waiting = [] → gets t g h .wq Out.none ∧
              t.landing? l.id = some { l with expert := none, readySince := none }))
        ∧ (b.all (· == 0) = false →
            let kernel := if fieldAt b 0 8 % 64 = 0 then s1.readStruct ag (fieldAt b 0 8) 64 64 else (s1, .ok [])
            (∀ s2 e, kernel = (s2, .error e) → t = s2.trap g h.tid e)
            ∧ ∀ s2 kb, kernel = (s2, .ok kb) → s2.landDown l = false →
              let good := blockOk b l && kernelBytesOk kb && !(kernelOf kb).sup
              (l.l2 = false → t = s2.trap g h.tid (sealed 7 x.addr false))
              ∧ (l.l2 = true → good = false → t = s2.trap g h.tid (sealed 8 x.addr false))
              ∧ (l.l2 = true → good = true → (l.state ≠ .opened ∨ l.waiting ≠ []) → t = s2.trap g h.tid (sealed 10 x.addr false))
              ∧ (l.l2 = true → good = true → l.state = .opened → l.waiting = [] → ∀ s3 ok,
                  s2.reserveFloor (ownerId tm.task.owner) (fieldAt b 16 4 / 2 ^ 16 % 2 ^ 8) l.home (kernelOf kb) = (s3, ok) →
                  if ok then gets t g h .wq Out.none ∧ ∃ y e, t.landing? l.id = some y ∧ y.expert = some e ∧ e.owner = tm.task.owner ∧
                      e.kernel.toNat = fieldAt b 0 8 ∧ e.arg.toNat = fieldAt b 8 8 ∧ e.ctl.toNat = fieldAt b 16 4 ∧
                      e.age.toNat = fieldAt b 20 4 ∧ e.tag.toNat = fieldAt b 24 4
                  else t = s3.trap g h.tid (sealed 9 x.addr false)))))
  ∧ ∀ (s : State) (cl : Nat), ∃ t, exec (.landingAgeTick cl) s = .next t ∧ exec (.landingAgeTick cl) t = .next t ∧
      (s.clock / 16 ≤ (s.cluster cl).ageAt → s.clock < (s.cluster cl).ageNext → t = s)
      ∧ ((s.landings.map (·.id)).Nodup →
          ∀ l ∈ s.landings, ¬ (l.l2 = true ∧ l.home = cl ∧ l.released = false) → l ∈ t.landings)
      ∧ ∀ l e r w, s.landing? l.id = some l → l.l2 = true → l.home = cl → l.released = false → l.state = .opened →
          l.expert = some e → l.waiting = r :: w → 16 * e.limit < s.clock / 16 * 16 - r.clock → l.waiting.length < 128 + e.fill →
          0 < e.fill → (s.cluster cl).ageAt < s.clock / 16 → (s.cluster cl).ageNext ≤ s.clock → (s.die (dieOfClus cl)).serves = true →
          (∀ y ∈ s.landings, y.l2 = true → y.home = cl → y.expert.isSome = true → y.id = l.id) →
          ∃ x, t.landing? l.id = some x ∧ x.hauls = l.hauls ++ [{ seq := l.seq, recs := l.waiting.take 128 }] ∧
            x.waiting = l.waiting.drop 128

/-- R28, R30, R31, R34, R152, R153, R344: TSPAWN creates the task of the 64-byte record at its address, with the issuing task's
owner word, on its own cluster's deque, judging the record after its release (a cluster-bound one that finds no free slot of its set traps SCOPE 4); TDONE lowers the count of the join cell at its aligned address by 1 as one step,
with D set in its leaf (R344), traps BARRIER 8 where it is 0, and at 1 creates the cell's task: it stands last in the deque where its record and its kernel are
good, a cluster-bound one too (log 33), and raises TASKREC where they are not. Both are acknowledged on WQ.
A cluster-bound record of a team outside a set traps by log 33; WRITE of TDONE's BARRIER 8 is log 34; an unreadable kernel
descriptor is TASKREC by log 54. -/
def Obligations.TasksSpawnAndJoin : Prop :=
  ∀ (s : State) (g : Group) (rest : List Group) (a : Code) (m : Mods), s.groups = g :: rest →
    RunsEach (.tspawn a m) s g (fun s tm h t =>
      let va := (s.env tm).addr h a
      let ag := tm.agent h.tid
      (∀ s1 b, s.readStruct ag va.toNat 64 64 = (s1, .error b) → t = s1.trap g h.tid b)
      ∧ (∀ s1 b, s.readStruct ag va.toNat 64 64 = (s1, .ok b) →
          let x := taskOf b tm.task.owner va 0
          let s2 := (s1.release ag .dom none).seenTask b x
          (x.cbound = false ∨ taskBytesOk b = false ∨ s2.taskKernel x = none) →
            gets t g h .wq Out.none
            ∧ (taskBytesOk b = true → (s2.taskKernel x).isSome = true → (s2.cluster (clusOf tm.core)).deque.length < 1024 →
                (t.cluster (clusOf tm.core)).deque = (s2.cluster (clusOf tm.core)).deque ++ [{ x with order := s2.ids }]
                ∧ t.mem = s2.mem ∧ t.fatals = s2.fatals)
            ∧ ((taskBytesOk b = false ∨ s2.taskKernel x = none) →
                t.clusters = s2.clusters ∧ ∃ f, t.fatals = s2.fatals ++ [f] ∧ f.sup = ownerSup tm.task.owner))
      ∧ (∀ s1 b, s.readStruct ag va.toNat 64 64 = (s1, .ok b) →
          let x := taskOf b tm.task.owner va 0
          let s2 := (s1.release ag .dom none).seenTask b x
          x.cbound = true → taskBytesOk b = true → (s2.taskKernel x).isSome = true →
            (s2.freeSet tm = none → t = s2.trap g h.tid (bad .scope 4))
            ∧ (∀ z, s2.freeSet tm = some z → (s2.cluster (clusOf tm.core)).deque.length < 1024 →
                gets t g h .wq Out.none ∧ (t.cluster (clusOf tm.core)).deque =
                  (s2.cluster (clusOf tm.core)).deque ++ [{ x with set := some z, clus := clusOf tm.core, order := s2.ids }])))
    ∧ RunsEach (.tdone a m) s g (fun s tm h t =>
      let va := ((s.env tm).addr h a).toNat
      let ag := tm.agent h.tid
      (va % 128 ≠ 0 → t = s.trap g h.tid { cause := .align, detail := 0, write := true, addr := BitVec.ofNat 64 va })
      ∧ (va % 128 = 0 → ∀ s1 b, s.place ag va 128 .claim = (s1, .error b) → t = s1.trap g h.tid b)
      ∧ (va % 128 = 0 → ∀ s1 l p, s.place ag va 128 .claim = (s1, .ok (l, p)) → s1.Inv → s1.answers l → s1.paOf l % 128 = 0 →
          (∀ i, i < 128 → s1.paOf (l.add i) = s1.paOf l + i) → (∀ z, p = some z → ∀ k, k < 8 → (z.pte + k) / 128 ≠ s1.paOf l / 128) →
          let s2 := s1.release ag .dom none
          let n := leNat ((List.range 8).map (s2.homeByte ag l))
          let task := (List.range 64).map fun i => s2.homeByte ag l (64 + i)
          let x := taskOf task tm.task.owner ((s.env tm).addr h a + 64) 0
          let q := fun (s : State) => (s.cluster (clusOf tm.core)).deque
          let lowered := fun (u : State) => storedAtHome (s2.dirtied p.toList) u ag false l 128 fun i =>
            if i < 8 then (bytesLE 8 (n - 1)).getD i 0 else s2.homeByte ag l i
          (n = 0 → ∃ h', t.thread? g.team h.tid = some h' ∧ ∃ x, h'.status = .trapped x ∧ x.cause = 12 ∧ x.detail = 8)
          ∧ (0 < n → gets t g h .wq Out.none)
          ∧ (1 < n → lowered t ∧ t.clusters = s2.clusters ∧ t.fatals = s2.fatals)
          ∧ (n = 1 → ∃ s3, lowered s3 ∧
              let s4 := s3.seenTask task x
              (taskBytesOk task = false → s4 = s3) ∧
              (taskBytesOk task = true → (s4.taskKernel x).isSome = true → (q s2).length < 1024 →
                q t = q s2 ++ [{ x with order := s2.ids }] ∧ t.mem = s4.mem ∧ t.fatals = s2.fatals)
              ∧ ((taskBytesOk task = false ∨ s4.taskKernel x = none) →
                t.clusters = s2.clusters ∧ t.mem = s4.mem ∧ ∃ f, t.fatals = s2.fatals ++ [f] ∧ f.sup = ownerSup tm.task.owner))))

/-! ### The shared attention context (R155 to R175) -/

/-- R156, R162, R163, R174: on a context whose descriptor keeps its rules. CRSV answers the TAIL it found on WC and raises it
by its count; past MAXPOS, or with fewer free pages than it needs, it traps NOPAGE, or answers all ones with its
predicate 0 and changes nothing. CREL of pages below TAIL puts them on the free list, raises COUNT by their number, and
traps SCOPE 13 or 7 for a run that is not whole pages or not reserved. Each traps HOMEDOWN where a byte that it has to reach is
homed on a die that is out of service (R361). A word meets the bytes of the context at their home, where its core's dirty bytes of
them have been brought (R183).

R158, R162, R164 to R166: on a context whose descriptor keeps its rules. CWKV and CPUB trap SCOPE 6 for a layer beyond
LAYERS and 7 for a position that is not reserved, CWKV 8 for a thread beyond E/2 and 9 for a pair already written; else
CWKV marks the pair as written and stores, bit for bit, the low word of its pair register as the two key elements and the high word
as the two value elements of its thread, at their offsets in the page, and the position's count, one higher; the last pair of a
position stores the signature of each head, and sets the publish bit where a publish is requested. CPUB raises PSEQ by 1 and its
publish is served with its positions: of each that is complete the bitmap bit is set, of each that is not the request. CACQ records the
newest of at most four marks with the PSEQ it found and ends its core's leases; publish and mark keep where every resident team
stood (R181). Each is acknowledged on WC. A byte of the context that CWKV or CPUB has to reach on a die out of service traps
HOMEDOWN (R361).
The order of CWKV's checks and what CPUB does with a layer beyond LAYERS are log 36, a repeated CACQ log 43. -/
def Obligations.ContextWords : Prop :=
  (∀ (s : State) (g : Group) (rest : List Group) (d a : Code) (trap : Bool) (pd : P3) (n5 : BitVec 5) (n : BitVec 10) (m : Mods),
      s.groups = g :: rest →
      let field := fun (t : State) (c : Ctx) (o k : Nat) => leNat (cellsGet t.mem (c.pa + o) k)
      let met := fun (s : State) (tm : Team) (h : Thread) (c : Ctx) (l : List (Nat × Nat)) => s.meetSpans (tm.agent h.tid) c l
      RunsEach (.crsv d a trap pd n5 m) s g (fun s tm h t =>
        let va := ((s.env tm).addr h a).toNat
        (∀ s1 b, s.ctxAt (tm.agent h.tid) va true = (s1, .error b) → t = s1.trap g h.tid b)
        ∧ (∀ s1 c, s.ctxAt (tm.agent h.tid) va true = (s1, .ok c) →
            let grows := (c.tail + 15) / 16 * 16 < c.tail + n5.toNat
            let full := c.maxpos < c.tail + n5.toNat ∨ grows ∧ c.count < c.layers
            (full → trap = true → t = s1.trap g h.tid (badAt .nopage 0 (BitVec.ofNat 64 c.addr)))
            ∧ (full → trap = false → gets t g h .wc { regs := h.dst32 d 0xFFFFFFFF false, preds := [(pd.toNat, false)], flags := 0 } ∧
                t.mem = s1.mem ∧ t.pageMarks = s1.pageMarks)
            ∧ (¬ full → grows → ∀ x, s1.downIn c (s1.takeSpans c ((c.tail + 15) / 16)) = some x →
                t = s1.trap g h.tid (homeDown (BitVec.ofNat 64 x) false))
            ∧ (¬ full → (grows → s1.downIn c (s1.takeSpans c ((c.tail + 15) / 16)) = none ∧
                  ((met s1 tm h c (s1.takeSpans c ((c.tail + 15) / 16))).takePages c ((c.tail + 15) / 16) c.layers 0).isSome = true) →
                s1.Inv →
                gets t g h .wc { regs := h.dst32 d (BitVec.ofNat 32 c.tail) false, preds := [(pd.toNat, true)], flags := 0 } ∧
                field t c 0 4 = c.tail + n5.toNat)))
      ∧ RunsEach (.crel d a n m) s g (fun s tm h t =>
        let va := ((s.env tm).addr h a).toNat
        let w := (s.env tm).rd32 h d 6
        let p := (w.extractLsb' 0 24).toNat
        ∀ s1 c, s.ctxAt (tm.agent h.tid) va true = (s1, .ok c) →
          let which := (List.range n.toNat).flatMap fun i => (List.range c.layers).map fun l => (p / 16 + i, l)
          let pages := which.filterMap fun x => s1.ctxPage c x.2 x.1
          ((w.extractLsb' 24 8 ≠ 0 ∨ p % 16 ≠ 0) → t = s1.trap g h.tid (badAt .scope 13 (BitVec.ofNat 64 c.addr)))
          ∧ (w.extractLsb' 24 8 = 0 → p % 16 = 0 → c.tail < p + 16 * n.toNat →
              t = s1.trap g h.tid (badAt .scope 7 (BitVec.ofNat 64 c.addr)))
          ∧ (w.extractLsb' 24 8 = 0 → p % 16 = 0 → p + 16 * n.toNat ≤ c.tail →
              let spans := s1.clearSpans c which ++ pages.map (·, 8)
              (∀ x, s1.downIn c spans = some x → t = s1.trap g h.tid (homeDown (BitVec.ofNat 64 x) false))
              ∧ (s1.downIn c spans = none → pages.length < which.length →
                  t = (met s1 tm h c spans).trap g h.tid (badAt .scope 7 (BitVec.ofNat 64 c.addr))))
          ∧ (w.extractLsb' 24 8 = 0 → p % 16 = 0 → p + 16 * n.toNat ≤ c.tail → pages.length = which.length → s1.Inv →
              s1.downIn c (s1.clearSpans c which ++ pages.map (·, 8)) = none →
              (((met s1 tm h c (s1.clearSpans c which ++ pages.map (·, 8))).clearEntries c which).bind fun x =>
                x.linkPages c c.free pages).isSome = true →
              gets t g h .wc Out.none ∧ field t c 0 4 = c.tail ∧
                field t c 32 4 = (c.count + pages.length) % 2 ^ 32 ∧ field t c 24 8 = pages.headD c.free % 2 ^ 64))
      ∧ (∀ (c : Ctx) (l : List (Nat × Nat)), (∀ x ∈ l, 0 < x.2) →
          let dead := fun (va : Nat) => ∃ pa, s.homeAddr c.tenant c.asid va false = some pa ∧ s.homeUp pa = false
          (∀ va, s.downIn c l = some va → dead va ∧ ∃ x ∈ l, x.1 ≤ va ∧ va < x.1 + x.2)
          ∧ (s.downIn c l = none → ∀ x ∈ l, ¬ dead x.1)))
  ∧ (∀ (s : State) (g : Group) (rest : List Group) (d a b : Code) (n : BitVec 10) (m : Mods), s.groups = g :: rest →
      RunsEach (.cwkv d a b m) s g (fun s tm h t =>
        let w := (s.env tm).rd32 h d 6
        let l := (w.extractLsb' 24 8).toNat
        let p := (w.extractLsb' 0 24).toNat
        ∀ s1 c, s.ctxAt (tm.agent h.tid) ((s.env tm).addr h a).toNat false = (s1, .ok c) →
          let no := fun (s : State) (k : Nat) => t = s.trap g h.tid (badAt .scope k (BitVec.ofNat 64 c.addr))
          let down := fun (s : State) (x : Nat) => t = s.trap g h.tid (homeDown (BitVec.ofNat 64 x) false)
          let met := fun (s : State) (l : List (Nat × Nat)) => s.meetSpans (tm.agent h.tid) c l
          let dead := s1.downIn c (s1.entrySpans c l (p / 16))
          let s2 := met s1 (s1.entrySpans c l (p / 16))
          (c.layers ≤ l → no s1 6)
          ∧ (l < c.layers → c.heads * c.hdim / 2 ≤ h.tid → no s1 8)
          ∧ (l < c.layers → h.tid < c.heads * c.hdim / 2 →
              (c.tail ≤ p → no s1 7)
              ∧ (p < c.tail → ∀ x, dead = some x → down s1 x)
              ∧ (p < c.tail → dead = none → s2.ctxPage c l (p / 16) = none → no s2 7)
              ∧ (∀ page, p < c.tail → dead = none → s2.ctxPage c l (p / 16) = some page →
                  let mark := p % 16 * 1024 + h.tid
                  let key := s2.pageKey c page
                  let spans := s2.pairSpans c l p page h.tid
                  let lost := s2.downIn c spans
                  let s3 := met s2 spans
                  let kv := (s.env tm).rd64 h b 2
                  let E := c.heads * c.hdim
                  let pair := 2 * ((p % 16 * c.heads + 2 * h.tid / c.hdim) * c.hdim + 2 * h.tid % c.hdim)
                  let count := page + 64 * E + 128 * c.heads + 4 * (p % 16)
                  (∀ x, lost = some x → down s2 x)
                  ∧ (lost = none → mark ∈ s3.marksOf key → no s3 9)
                  ∧ (lost = none → mark ∉ s3.marksOf key → (s3.writePair c l p page h.tid kv).isSome = true →
                      gets t g h .wc Out.none ∧ (∀ x, x ∈ t.marksOf key ↔ x = mark ∨ x ∈ s3.marksOf key)
                      ∧ ∃ k v n u w, s3.cWrite c (page + pair) (bytesLE 4 (kv.extractLsb' 0 32).toNat) = some k
                        ∧ k.cWrite c (page + pair + 32 * E) (bytesLE 4 (kv.extractLsb' 32 32).toNat) = some v
                        ∧ k.cNat c count 4 = some n ∧ v.cWrite c count (bytesLE 4 (n + 1)) = some u
                        ∧ ((n + 1) % 2 ^ 16 ≠ E / 2 → w = u)
                        ∧ ((n + 1) % 2 ^ 16 = E / 2 → ∃ z, u.writeSigs c l page (p % 16) c.heads 0 = some z ∧
                            if n / 2 ^ 16 % 2 = 1 then z.ctxBit c l p true = some w else w = z)
                        ∧ t.mem = (w.touchSpans c (w.entrySpans c l (p / 16) ++ spans)).mem))))
      ∧ RunsEach (.cpub d a n m) s g (fun s tm h t =>
        let w := (s.env tm).rd32 h d 6
        let l := (w.extractLsb' 24 8).toNat
        let p := (w.extractLsb' 0 24).toNat
        let ag := tm.agent h.tid
        ∀ s1 c, s.ctxAt ag ((s.env tm).addr h a).toNat true = (s1, .ok c) →
          let no := fun (s : State) (k : Nat) => t = s.trap g h.tid (badAt .scope k (BitVec.ofNat 64 c.addr))
          let down := fun (s : State) (x : Nat) => t = s.trap g h.tid (homeDown (BitVec.ofNat 64 x) false)
          let dead := s1.downIn c (s1.runSpans c l p n.toNat)
          let s2 := s1.meetSpans ag c (s1.runSpans c l p n.toNat)
          let spans := s2.publishSpans c l p n.toNat
          let lost := s2.downIn c spans
          let s3 := s2.meetSpans ag c spans
          (c.layers ≤ l → no s1 6)
          ∧ (l < c.layers → c.tail < p + n.toNat → no s1 7)
          ∧ (l < c.layers → p + n.toNat ≤ c.tail → ∀ x, dead = some x → down s1 x)
          ∧ (l < c.layers → p + n.toNat ≤ c.tail → dead = none → s2.coveredRun c l p n.toNat = false → no s2 7)
          ∧ (l < c.layers → dead = none → s2.coveredRun c l p n.toNat = true → ∀ x, lost = some x → down s2 x)
          ∧ (l < c.layers → dead = none → lost = none → s2.coveredRun c l p n.toNat = true → s1.Inv →
              ∀ u, (s3.release ag (syncOf m).scope none).publishAll c l n.toNat p = some u →
              gets t g h .wc Out.none ∧ leNat (cellsGet t.mem (c.pa + 16) 8) = (c.pseq + 1) % 2 ^ 64 ∧
                (∃ x, t.publishes = s1.publishes ++ [x] ∧ x.ctx = c.pa ∧ x.seq = c.pseq ∧ x.layer = l ∧ x.pos = p ∧
                  x.count = n.toNat ∧ x.team = tm.id ∧ x.tid = h.tid ∧ x.scope = ag.scope (syncOf m).scope ∧ x.core = tm.core ∧
                  x.places = s1.teamPlaces)
                ∧ t.mem = ((u.touchSpans c (u.runSpans c l p n.toNat ++ spans)).ctxPut { c with pseq := (c.pseq + 1) % 2 ^ 64 }).mem))
      ∧ RunsEach (.cacq a m) s g (fun s tm h t =>
        let ag := tm.agent h.tid
        ∀ s1 c, s.ctxAt ag ((s.env tm).addr h a).toNat false = (s1, .ok c) →
          (∃ h', t.thread? g.team h.tid = some h' ∧ h'.pend = h.pend ++ [ack .wc] ∧ h'.v = h.v ∧ h'.p = h.p ∧
            h'.marks.head? = some { ctx := c.addr, scope := ag.scope (syncOf m).scope, seq := c.pseq, core := tm.core, places := s1.teamPlaces } ∧ h'.marks.length ≤ 4)
          ∧ (ag.stream = false → ag.scope (syncOf m).scope ≠ .team →
              ∀ x ∈ (t.core ag.core).lines, x.valid (t.core ag.core).ctime (t.die (dieOfCore ag.core)).epoch = false))
      ∧ (∀ (s u : State) (c : Ctx) (va : Nat) (bytes : List Byte), s.Inv → bytes ≠ [] → va % 4096 + bytes.length ≤ 4096 →
          s.cWrite c va bytes = some u → ∃ pa, s.homeAddr c.tenant c.asid va true = some pa
            ∧ (∀ i < bytes.length, cellGet (pa + i) u.mem = bytes.getD i 0)
            ∧ ∀ a, ¬ (pa ≤ a ∧ a < pa + bytes.length) →
                (∀ e, s.homeLeaf c.tenant c.asid va true = some e → ¬ (e.pte ≤ a ∧ a < e.pte + 8)) → cellGet a u.mem = cellGet a s.mem)
      ∧ (∀ (s u : State) (c : Ctx) (l page r n k : Nat), s.writeSigs c l page r (n + 1) k = some u ↔
          ∃ bytes z, s.cRead c (page + 2 * ((r * c.heads + k) * c.hdim)) (2 * c.hdim) = some bytes
            ∧ s.cWrite c (page + 64 * (c.heads * c.hdim) + 8 * (r * c.heads + k))
                (bytesLE 8 (c.signature l k (halfwords c.hdim bytes)).toNat) = some z
            ∧ z.writeSigs c l page r n (k + 1) = some u)
      ∧ (∀ (s u : State) (c : Ctx) (l p : Nat), s.ctxBit c l p true = some u ↔
          ∃ tab bits x, s.ctxLayer c l = some (tab, bits) ∧ s.cNat c (bits + p / 8) 1 = some x
            ∧ s.cWrite c (bits + p / 8) [BitVec.ofNat 8 (x ||| 2 ^ (p % 8))] = some u)
      ∧ ∀ (s u : State) (c : Ctx) (l p n : Nat), s.publishAll c l (n + 1) p = some u ↔
          ∃ page k z, s.ctxPage c l (p / 16) = some page
            ∧ s.cNat c (page + 64 * (c.heads * c.hdim) + 128 * c.heads + 4 * (p % 16)) 4 = some k
            ∧ (if k % 2 ^ 16 = c.heads * c.hdim / 2 then s.ctxBit c l p true = some z
               else s.cWrite c (page + 64 * (c.heads * c.hdim) + 128 * c.heads + 4 * (p % 16)) (bytesLE 4 (k % 2 ^ 16 + 2 ^ 16)) = some z)
            ∧ z.publishAll c l n (p + 1) = some u)

/-- R159, R168, R169: the signature of a vector has bit k set exactly if the sum of its elements, each with the sign that
the seed, layer, head, k and its index give, is above zero; it is all ones with an element that is not finite. CSIG
blocks until every contributor of its head has joined with the same context and position; the last one gives each its
signature, and all go on; a contributor that disagrees traps SCOPE 10. That each pair holds the signature in the very step in which
the last contributor issues its CSIG is the model's choice (log 114: R56 allows an early read of a result that WC counts), and so is
what makes two words of a head the same (log 116).

R162, R166 to R168, R170 to R173: CATT checks its descriptor's and its block's addresses under R128 (of a malformed descriptor the
block's header alone, log 97), then its descriptor, its slices and its operands in that order (SCOPE 5, 5, 8, 6, 11), traps SCOPE 10
where a contributor disagrees, and blocks until every contributor of its head has joined; the last one sends the head to the slices,
and each contributor goes on with its predicate and flags to come on WC with the block. The block, once written, stands at its
address, and the results are there. The head must see each publish of a contributor
itself, and each that was served before the contributor's mark where the scope of either holds the other's team (R166, R167). The
block holds, behind the header of R171, one record for each slice. Of the positions that the slice homes, in pages that are valid and
not poisoned, published, within the limit of a causal context and within the radius, it includes each once or leaves it out, and no
other; it includes those of a publish that the head must see (which others it includes is a free choice). Of the positions that
it includes, M the greatest score, S the sum of the terms and O_e their sum weighted with the values, each exact and rounded once,
with the canonical NaN for a NaN or +∞ score and −∞, 0 and 0 where no score is above −∞; a term is exact where the difference of the
scores is an integer, and a score is one rounding of the scaled product; the flags of scores, terms and sums come with it. CMRG traps SCOPE 12 for a header outside R171, and
otherwise gives on WC the merge of the block's records for its element pair: a NaN M gives NaN with NV, only −∞ gives 0, and other
records one rounding of the quotient of the exact sums, with its flags alone (log 45).
The order of checks is log 36, corners of exponents and flags log 44, CMRG's FADDR log 45, what a head may or may not see log
46, marks log 113. -/
def Obligations.HeadsQueriesMerges : Prop :=
  ((∀ (c : Ctx) (l h : Nat) (vec : List Nat),
      (c.exacts vec = none → c.signature l h vec = BitVec.allOnes 64)
      ∧ ∀ xs, c.exacts vec = some xs → ∀ k, k < 64 → ((c.signature l h vec).getLsbD k = true ↔
          0 < (xs.zipIdx.map fun y => if hyper c.seed l h k y.2 then y.1 else -y.1).sum))
    ∧ ∀ (s : State) (g : Group) (rest : List Group) (d a b : Code), s.groups = g :: rest →
      RunsEach (.csig d a b) s g (fun s tm h t =>
        let e := s.env tm
        let pos := e.rdAt h b 1 3
        ∀ s1 c, s.ctxAt (tm.agent h.tid) (e.addr h a).toNat false = (s1, .ok c) →
          let no := fun k => t = s1.trap g h.tid (badAt .scope k (BitVec.ofNat 64 c.addr))
          let who := (List.range (c.hdim / 2)).map (h.tid / (c.hdim / 2) * (c.hdim / 2) + ·)
          let joins := fun (u : Nat) (w : Wait) => ∃ th y, tm.thread? u = some th ∧ th.status = .blocked y ∧ y.wait = w
          (c.heads * c.hdim / 2 ≤ h.tid → no 8)
          ∧ (h.tid < c.heads * c.hdim / 2 → c.layers ≤ (pos.extractLsb' 24 8).toNat → no 6)
          ∧ (h.tid < c.heads * c.hdim / 2 → (pos.extractLsb' 24 8).toNat < c.layers → h.status = .issuing →
              ((∃ u ∈ who, ∃ d' a' p' x, joins u (.csig d' a' p' x) ∧ (a' ≠ c.addr ∨ p' ≠ pos)) → no 10)
              ∧ ((∀ u ∈ who, ∀ d' a' p' x, joins u (.csig d' a' p' x) → a' = c.addr ∧ p' = pos) →
                  (∃ u ∈ who, u ≠ h.tid ∧ ∀ d' a' p' x, ¬ joins u (.csig d' a' p' x)) →
                  ∃ y, t.thread? g.team h.tid = some { h with status := .blocked y } ∧ y.wait = .csig d c.addr pos (e.rd32 h b 2))
              ∧ (∀ (D : Nat → Code) (P : Nat → Word), D h.tid = d → P h.tid = e.rd32 h b 2 →
                  (∀ u ∈ who, u ≠ h.tid → joins u (.csig (D u) c.addr pos (P u))) →
                  let sig := c.signature (pos.extractLsb' 24 8).toNat (h.tid / (c.hdim / 2))
                    (who.flatMap fun u => [((P u).extractLsb' 0 16).toNat, ((P u).extractLsb' 16 16).toNat])
                  ∀ u ∈ who, ∀ th, tm.thread? u = some th → resumed t tm.id u th (joinPark g h.tid th) ∧
                    ∀ h', t.thread? tm.id u = some h' → th.ctl = false → (D u).toNat + 1 < th.v.length →
                      h'.v[(D u).toNat]? = some (sig.extractLsb' 0 32) ∧ h'.v[(D u).toNat + 1]? = some (sig.extractLsb' 32 32)))))
  ∧ ((∀ (s : State) (g : Group) (rest : List Group) (d a b : Code) (pd : P3) (f : MrgFmt) (m : Mods), s.groups = g :: rest →
      let within := fun (sc : Scope) (team core other : Nat) (place : Option Nat) => match sc with
        | .team => team = other
        | .core => place = some core
        | .clus => ∃ x, place = some x ∧ x / 4 = core / 4
        | .sgrp => ∃ x, place = some x ∧ x / 16 = core / 16
        | .dom | .sys => True
      RunsEach (.catt d a b pd) s g (fun s tm h t =>
        let e := s.env tm
        let ag := tm.agent h.tid
        let va := (e.addr h a).toNat
        let blk := e.rd64 h d 6
        let pos := e.rdAt h b 1 3
        let radius := e.rdAt h b 2 4
        let scale := e.rdAt h b 3 5
        (∀ s1 x, s.readStruct ag va 256 256 = (s1, .error x) → t = s1.trap g h.tid x)
        ∧ ∀ s1 bytes, s.readStruct ag va 256 256 = (s1, .ok bytes) →
          (blk.toNat % 16 ≠ 0 → t = s1.trap g h.tid { cause := .align, detail := 0, write := true, addr := blk })
          ∧ (blk.toNat % 16 = 0 → ∀ s2 x, s1.range ag blk.toNat (cattSpan (s1.ctxFrom ag va bytes)) .claim = (s2, .error x) →
              t = s2.trap g h.tid x)
          ∧ (blk.toNat % 16 = 0 → ∀ s2 x, s1.range ag blk.toNat (cattSpan (s1.ctxFrom ag va bytes)) .claim = (s2, .ok x) →
              (∀ y, s1.ctxFrom ag va bytes = .error y → t = s2.trap g h.tid y)
              ∧ ∀ c, s1.ctxFrom ag va bytes = .ok c →
                let no := fun k => t = s2.trap g h.tid (badAt .scope k (BitVec.ofNat 64 c.addr))
                let half := c.heads * c.hdim / 2
                let layer := (pos.extractLsb' 24 8).toNat
                let who := (List.range (c.hdim / 2)).map (h.tid / (c.hdim / 2) * (c.hdim / 2) + ·)
                let joins := fun (u : Nat) (w : Wait) => ∃ th y, tm.thread? u = some th ∧ th.status = .blocked y ∧ y.wait = w
                ((s2.ctxSlices c).length ≠ c.span → no 5)
                ∧ ((s2.ctxSlices c).length = c.span →
                  (half ≤ h.tid → no 8)
                  ∧ (h.tid < half → c.layers ≤ layer → no 6)
                  ∧ (h.tid < half → layer < c.layers → 64 < radius.toNat → no 11)
                  ∧ (h.tid < half → layer < c.layers → radius.toNat ≤ 64 → h.status = .issuing →
                      ((∃ u ∈ who, ∃ a' p' w k r z q, joins u (.catt a' p' w k r z q) ∧
                          (a' ≠ c.addr ∨ p' ≠ pos ∨ k ≠ blk ∨ r ≠ radius ∨ z ≠ scale)) → no 10)
                      ∧ ((∀ u ∈ who, ∀ a' p' w k r z q, joins u (.catt a' p' w k r z q) →
                            a' = c.addr ∧ p' = pos ∧ k = blk ∧ r = radius ∧ z = scale) →
                          (∃ u ∈ who, u ≠ h.tid ∧ ∀ a' p' w k r z q, ¬ joins u (.catt a' p' w k r z q)) →
                          ∃ y, t.thread? g.team h.tid = some { h with status := .blocked y } ∧
                            y.wait = .catt c.addr pos (e.rd32 h b 2) blk radius scale pd)
                      ∧ (∀ (D : Nat → P3) (P : Nat → Word), D h.tid = pd → P h.tid = e.rd32 h b 2 →
                          (∀ u ∈ who, u ≠ h.tid → joins u (.catt c.addr pos (P u) blk radius scale (D u))) →
                          ∃ (s3 : State) (q : Query) (job : Nat) (data : List Byte) (ok : Bool) (fl : BitVec 6),
                            s3.mem = s2.mem ∧ (data, ok, fl) = s3.cattBlock c q (s3.ctxSlices c)
                            ∧ q.layer = layer ∧ q.limit = (pos.extractLsb' 0 24).toNat ∧ q.head = h.tid / (c.hdim / 2)
                            ∧ q.vec = who.flatMap (fun u => [((P u).extractLsb' 0 16).toNat, ((P u).extractLsb' 16 16).toNat])
                            ∧ q.sig = c.signature layer q.head q.vec ∧ q.radius = radius.toNat ∧ q.scale = scale.toNat
                            ∧ (∀ u ∈ who, ∀ th, tm.thread? u = some th → ∀ y ∈ s2.publishes, y.ctx = c.pa → y.layer = layer →
                                let mark := (th.marks.find? (·.ctx = c.addr)).getD
                                  { ctx := c.addr, scope := ((th.dropped.find? (·.ctx = c.addr)).map (·.scope)).getD (ag.scope .team)
                                    seq := c.pseq, core := ag.core, places := s2.teamPlaces }
                                let stood := fun (l : List (Nat × Nat)) (n : Nat) => (l.find? (·.1 = n)).map (·.2)
                                (y.team = tm.id ∧ y.tid = u ∨ y.seq < mark.seq ∧ within y.scope y.team y.core tm.id (stood y.places tm.id)
                                  ∧ within mark.scope tm.id mark.core y.team (stood mark.places y.team)) → y ∈ q.must)
                            ∧ t.catts = s2.catts ++ [{ id := job, team := tm.id, tid := who.headD 0, block := x.1, data := data }]
                            ∧ ∀ u ∈ who, ∀ th, tm.thread? u = some th → resumed t tm.id u th (joinPark g h.tid th) ∧
                              ∀ h', t.thread? tm.id u = some h' → h'.pend = th.pend ++
                                [{ ctr := .wc, regs := [], preds := [{ idx := (D u).toNat, val := ok, clash := false }], flags := fl
                                   hold := some job }])))))
      ∧ RunsEach (.cmrg d a f m) s g (fun s tm h t =>
        let ag := tm.agent h.tid
        let va := ((s.env tm).addr h a).toNat
        (∀ s1 x, s.memRead ag va 16 Sync.plain = (s1, .error x) → t = s1.trap g h.tid x)
        ∧ ∀ s1 hd, s.memRead ag va 16 Sync.plain = (s1, .ok hd) →
          let n := fieldAt hd 0 4
          let hdim := fieldAt hd 12 2
          let rs := fieldAt hd 14 2
          let good := 1 ≤ n ∧ n ≤ 128 ∧ hdim % 2 = 0 ∧ 2 ≤ hdim ∧ hdim ≤ 256 ∧ rs = (16 + 4 * hdim + 15) / 16 * 16
          (¬ good → t = s1.trap g h.tid (badAt .scope 12 (BitVec.ofNat 64 va)))
          ∧ (good → ∀ s2 x s3 b, s1.range ag va (16 + n * rs) .read = (s2, .ok x) →
              s2.loadPieces ag (n * rs / 16) (va + 16) = (s3, .ok b) →
              let j := h.tid % (hdim / 2)
              let r := mergeRecords (mrgFmt f) h.rm ((List.range n).map fun k =>
                (fieldAt b (k * rs) 4, fieldAt b (k * rs + 4) 4, fieldAt b (k * rs + 16 + 8 * j) 4, fieldAt b (k * rs + 20 + 8 * j) 4))
              gets t g h .wc { regs := if f = .f32 then h.dst64 d (BitVec.ofNat 64 (r.2.1 * 2 ^ 32 + r.1))
                                       else h.dst32 d (BitVec.ofNat 32 (r.2.1 * 2 ^ 16 + r.1)) false
                               preds := [], flags := r.2.2 })))
    ∧ (∀ (f : Fmt) (rm : Rm) (l : List (Nat × Nat × Nat × Nat)),
        ((∃ x ∈ l, (fmtF32.unpack x.1).isNan = true) → mergeRecords f rm l = (f.canon, f.canon, 16))
        ∧ ((∀ x ∈ l, fmtF32.unpack x.1 = .inf true) → mergeRecords f rm l = (0, 0, 0))
        ∧ (∀ x ∈ l, (∀ y ∈ l, fmtF32.unpack y.1 = .inf true ∨ (fmtF32.unpack y.1).isFin = true) → (fmtF32.unpack x.1).isFin = true →
            (∀ y ∈ l, (fmtF32.unpack y.1).toEReal ≤ (fmtF32.unpack x.1).toEReal) →
            (∀ y ∈ l, ∀ k ∈ [y.2.1, y.2.2.1, y.2.2.2], (fmtF32.unpack k).isFin = true) →
            let sum := fun (k : Nat × Nat × Nat × Nat → Nat) => (l.map fun y =>
              (fmtF32.unpack (powDiff (fmtF32.unpack y.1) (fmtF32.unpack x.1)).1).toReal * (fmtF32.unpack (k y)).toReal).sum
            let s := sum (·.2.1)
            let a := sum (·.2.2.1)
            let b := sum (·.2.2.2)
            f ∈ arithFmts → s ≠ 0 → a ≠ 0 → b ≠ 0 → ∃ r q, f.roundsTo rm false (a / s) r ∧ f.roundsTo rm false (b / s) q ∧
              mergeRecords f rm l = (r.1, q.1, r.2 ||| q.2)))
    ∧ (∀ (x t : Machine.Num) (k : Nat), x.isFin = true → t.isFin = true → x.toReal = t.toReal - k → k ≤ 149 →
        (fmtF32.unpack (powDiff x t).1).toReal = 2 ^ (-(k : Int)) ∧ (powDiff x t).2 = 0)
    ∧ (∀ (c : Ctx) (q : Query) (key : List Nat), (fmtF32.unpack q.scale).isFin = true →
        (∀ x ∈ q.vec ++ key, (c.fmt.unpack x).isFin = true) →
        let y := (fmtF32.unpack q.scale).toReal * ((q.vec.zip key).map fun x => (c.fmt.unpack x.1).toReal * (c.fmt.unpack x.2).toReal).sum
        (y ≠ 0 → ∃ r, fmtF32.roundsTo .rne false y r ∧ c.score q key = r) ∧ (y = 0 → c.score q key = (0, 0)))
    ∧ (∀ (c : Ctx) (l : List Included),
        let v := fun (n : Nat) => fmtF32.unpack n
        let r := c.partialOf l
        ((∃ i ∈ l, (v i.score).isNan = true ∨ v i.score = .inf false) →
          r = (fmtF32.canon, fmtF32.canon, List.replicate c.hdim fmtF32.canon, 0))
        ∧ ((∀ i ∈ l, v i.score = .inf true) → r = (0xFF800000, 0, List.replicate c.hdim 0, 0))
        ∧ ((∀ i ∈ l, v i.score = .inf true ∨ (v i.score).isFin = true) → (∃ i ∈ l, (v i.score).isFin = true) →
          (∃ i ∈ l, r.1 = i.score) ∧ (∀ i ∈ l, (v i.score).toEReal ≤ (v r.1).toEReal)
          ∧ let w := fun (i : Included) => (v (powDiff (v i.score) (v r.1)).1).toReal
            (∃ x, fmtF32.roundsTo .rne false (l.map w).sum x ∧ r.2.1 = x.1 ∧ x.2 ||| r.2.2.2 = r.2.2.2)
            ∧ ∀ e, e < c.hdim → (∀ i ∈ l, (c.fmt.unpack (i.values.getD e 0)).isFin = true) →
                let y := (l.map fun i => w i * (c.fmt.unpack (i.values.getD e 0)).toReal).sum
                (y ≠ 0 → ∃ x, fmtF32.roundsTo .rne false y x ∧ r.2.2.1[e]? = some x.1 ∧ x.2 ||| r.2.2.2 = r.2.2.2)
                ∧ (y = 0 → r.2.2.1[e]? = some 0)))
    ∧ (∀ (s : State) (c : Ctx) (q : Query) (slices : List Nat),
        let b := (s.cattBlock c q slices).1
        let size := (16 + 4 * c.hdim + 15) / 16 * 16
        fieldAt b 0 4 = slices.length % 2 ^ 32 ∧ fieldAt b 10 1 = q.head % 256 ∧ fieldAt b 12 2 = c.hdim % 65536
        ∧ fieldAt b 14 2 = size % 65536 ∧ b.length = 16 + slices.length * size
        ∧ ((s.cattBlock c q slices).2.1 = true ↔ fieldAt b 11 1 % 4 = 0)
        ∧ ∃ incs : List (List (Nat × Included)), incs.length = slices.length
          ∧ fieldAt b 4 4 = (incs.map (·.length)).sum % 2 ^ 32
          ∧ (let read := fun (page o p : Nat) =>
                halfwords c.hdim ((s.cRead c (page + o + 2 * ((p % 16 * c.heads + q.head) * c.hdim)) (2 * c.hdim)).getD [])
            (∀ i, i < 6 → ((s.cattBlock c q slices).2.2.getLsbD i = true ↔ ∃ inc ∈ incs,
              (c.partialOf (inc.map (·.2))).2.2.2.getLsbD i = true ∨
              ∃ x ∈ inc, ∃ page, s.ctxPage c q.layer (x.1 / 16) = some page ∧ (c.score q (read page 0 x.1)).2.getLsbD i = true))
            ∧ ∀ (k slice : Nat) (inc : List (Nat × Included)), slices[k]? = some slice → incs[k]? = some inc →
              let meets := fun (page p : Nat) => p < c.maxpos ∧ s.ctxPage c q.layer (p / 16) = some page ∧ s.pageHome c page = slice
                ∧ s.pagePoisoned c page = false ∧ (c.opened = true ∨ p ≤ q.limit) ∧ s.published c q.layer p = true
                ∧ ((List.range 64).filter fun n => (BitVec.ofNat 64 ((s.cNat c (page + 64 * (c.heads * c.hdim)
                    + 8 * (p % 16 * c.heads + q.head)) 8).getD 0) ^^^ q.sig).getLsbD n).length ≤ q.radius
              let r := c.partialOf (inc.map (·.2))
              let o := 16 + k * size
              (inc.map (·.1)).Pairwise (· < ·)
              ∧ (∀ x ∈ inc, ∃ page, meets page x.1 ∧ x.2.score = (c.score q (read page 0 x.1)).1
                  ∧ x.2.values = read page (32 * (c.heads * c.hdim)) x.1)
              ∧ ((s.die (dieOfClus slice)).serves = true → ∀ page p, c.maxpos % 16 = 0 → meets page p →
                  (∃ y ∈ q.must, y.pos ≤ p ∧ p < y.pos + y.count) → ∃ x ∈ inc, x.1 = p)
              ∧ fieldAt b o 4 = r.1 % 2 ^ 32 ∧ fieldAt b (o + 4) 4 = r.2.1 % 2 ^ 32 ∧ fieldAt b (o + 8) 4 = inc.length % 2 ^ 32
              ∧ fieldAt b (o + 12) 4 = slice % 2 ^ 32
              ∧ ∀ e x, r.2.2.1[e]? = some x → fieldAt b (o + 16 + 4 * e) 4 = x % 2 ^ 32))
    ∧ ∀ (s : State) (job : Nat) (j : CattJob) (tm : Team), s.catts.find? (·.id = job) = some j → s.team? j.team = some tm →
        (∀ x ∈ tm.threads, x.carving = none) →
        ∃ t, exec (.cattBlockWrite job) s = .next t
          ∧ (∀ x ∈ t.catts, x.id ≠ job)
          ∧ (∀ pa z, j.block = [z] → z.loc = .mem pa → z.len = j.data.length → pa % 4096 + j.data.length ≤ 4096 → s.Inv →
              s.homeUp (lineOf pa) = true →
              storedAtHome (s.dirtySegs j.block) t (tm.agent j.tid) false (.mem pa) j.data.length fun i => j.data.getD i 0)
          ∧ ∀ u th q pd ok, tm.thread? u = some th → th.pend = [q] → q.hold = some job → q.regs = [] →
              q.preds = [{ idx := pd, val := ok, clash := false }] → pd < 7 →
              ∃ h', t.thread? tm.id u = some h' ∧ h'.pend = [] ∧ h'.flags = th.flags ||| q.flags ∧ h'.rawPred pd = ok)

/-! ### Tiles, macros and banks (R217 to R241) -/

/-- R224, R225, R229 to R231: TALLOC traps ALIGN, TILESTATE 1, 7 and 4 as its shape, its storage and its team's hold ask;
an EMPTY tile it makes FILLING for its team, another tile's request waits in the queue with its acknowledgement. TREADY
takes a FILLING tile to READY once no matrix word that writes it is in flight, TDRAIN a READY one through DRAINING back to FILLING
once none that reads it is, TFREE leaves it EMPTY, or FILLING for the first in the queue, once neither is; until then, and behind
words that wait there before it, the word waits at the tile with its acknowledgement. A word of a team that has queued for the tile
waits for the grant; a tile without the issuing team's hold is TILESTATE 2, a wrong state 3. TSTAT reports the tile's word; of a tile that the task has
queued for, STATE as its holder has it beside the shape of the request is the model's choice (log 118).
In a stream the upper half of TSTAT's word is free (log 22). -/
def Obligations.TileStates : Prop :=
  ∀ (s : State) (g : Group) (rest : List Group) (n d a b : Code) (f : TileFmt) (m : Mods), s.groups = g :: rest →
    let tile := fun (s : State) (tm : Team) => s.tile (clusOf tm.core) n.toNat
    let held := fun (s : State) (tm : Team) => (tile s tm).holder = some tm.id
    let stranger := fun (s : State) (tm : Team) => (tile s tm).holder ≠ some tm.id ∧ ∀ r ∈ (tile s tm).queue, r.team ≠ tm.id
    let hopes := fun (s : State) (tm : Team) => (tile s tm).holder ≠ some tm.id ∧ ∃ r ∈ (tile s tm).queue, r.team = tm.id
    let none' := fun (tm : Team) (f : Pending → List Nat) => ∀ h ∈ tm.threads, ∀ p ∈ h.pend, n.toNat ∉ f p
    let quiet := fun (tm : Team) => none' tm (·.writes) ∧ none' tm (·.drains)
    let waits := fun (s t : State) (tm : Team) (h : Thread) (next : TileThen) (st : TileState) =>
      ∃ j, t.thread? g.team h.tid = some (h.launch { ack .wt with hold := some j }) ∧
        tile t tm = { tile s tm with state := st
                                     after := (tile s tm).after ++ [{ team := tm.id, tid := h.tid, writes := [], next := next, job := j }] }
    let follows := fun (s t : State) (tm : Team) (h : Thread) (next : TileThen) =>
      ∃ j, t.thread? g.team h.tid = some (h.launch { ack .wt with hold := some j }) ∧
        tile t tm = { tile s tm with queue := (tile s tm).queue.map fun (r : TileReq) => if r.team = tm.id then
          { r with after := r.after ++ [{ team := tm.id, tid := h.tid, writes := [], next := next, job := j }] } else r }
    RunsEach (.talloc n a b f m) s g (fun s tm h t =>
      let w := (s.env tm).rd32 h b 2
      let rows := (w.extractLsb' 0 16).toNat
      let cols := if (w.extractLsb' 16 16).toNat = 0 then 128 else (w.extractLsb' 16 16).toNat
      let va := ((s.env tm).addr h a).toNat
      let size := tileBytes f rows cols
      let good := 1 ≤ rows ∧ rows ≤ 128 ∧ cols ≤ 4096
      (¬ good → t = s.trap g h.tid (tileBad 1))
      ∧ (good → va % 16 ≠ 0 → t = s.trap g h.tid { cause := .align, detail := 0, write := true, addr := BitVec.ofNat 64 va })
      ∧ (good → va % 16 = 0 → ∀ s1 x, s.range (tm.agent h.tid) va size .claim = (s1, .error x) → t = s1.trap g h.tid x)
      ∧ (good → va % 16 = 0 → ∀ s1 x, s.range (tm.agent h.tid) va size .claim = (s1, .ok x) →
          ((∃ y ∈ x.1, s1.tilePlace y = false) → t = s1.trap g h.tid (tileBad 7))
          ∧ ((∀ y ∈ x.1, s1.tilePlace y = true) →
              (¬ stranger s1 tm → t = s1.trap g h.tid (tileBad 4))
              ∧ (stranger s1 tm → (tile s1 tm).state = .empty → gets t g h .wt Out.none ∧
                  tile t tm = { tile s1 tm with state := .filling, holder := some tm.id, fmt := f, rows := rows, cols := cols
                                                store := x.1 })
              ∧ (stranger s1 tm → (tile s1 tm).state ≠ .empty →
                  ∃ j, t.thread? g.team h.tid = some (h.launch { ack .wt with hold := some j }) ∧
                    tile t tm = { tile s1 tm with queue := (tile s1 tm).queue ++
                      [{ team := tm.id, fmt := f, rows := rows, cols := cols, store := x.1, job := j, after := [] }] }))))
    ∧ RunsEach (.tready n m) s g (fun s tm h t =>
      (stranger s tm → t = s.trap g h.tid (tileBad 2))
      ∧ (held s tm → (tile s tm).state ≠ .filling → t = s.trap g h.tid (tileBad 3))
      ∧ (held s tm → (tile s tm).state = .filling →
          (quiet tm → (tile s tm).after = [] → gets t g h .wt Out.none ∧ tile t tm = { tile s tm with state := .ready })
          ∧ (¬ quiet tm ∨ (tile s tm).after ≠ [] → waits s t tm h .ready .filling))
      ∧ (hopes s tm → follows s t tm h .ready))
    ∧ RunsEach (.tdrain n m) s g (fun s tm h t =>
      (stranger s tm → t = s.trap g h.tid (tileBad 2))
      ∧ (held s tm → (tile s tm).state ≠ .ready → t = s.trap g h.tid (tileBad 3))
      ∧ (held s tm → (tile s tm).state = .ready →
          (none' tm (·.reads) → (tile s tm).after = [] → gets t g h .wt Out.none ∧ tile t tm = { tile s tm with state := .filling })
          ∧ (¬ none' tm (·.reads) ∨ (tile s tm).after ≠ [] → waits s t tm h .drain .draining))
      ∧ (hopes s tm → t = s.trap g h.tid (tileBad 3)))
    ∧ RunsEach (.tfree n m) s g (fun s tm h t =>
      (stranger s tm → t = s.trap g h.tid (tileBad 2))
      ∧ (held s tm → quiet tm → none' tm (·.reads) → (tile s tm).after = [] →
          ((tile s tm).queue = [] → gets t g h .wt Out.none ∧ tile t tm = Tile.fresh n.toNat)
          ∧ (∀ r w, (tile s tm).queue = r :: w → r.after = [] →
              tile t tm = { tile s tm with state := .filling, holder := some r.team, fmt := r.fmt, rows := r.rows, cols := r.cols
                                           store := r.store, queue := w }))
      ∧ (held s tm → ¬ (quiet tm ∧ none' tm (·.reads)) ∨ (tile s tm).after ≠ [] → waits s t tm h .free (tile s tm).state)
      ∧ (hopes s tm → follows s t tm h .free))
    ∧ RunsEach (.tstat d n m) s g (fun s tm h t =>
      let st : BitVec 2 := match (tile s tm).state with | .empty => 0 | .filling => 1 | .ready => 2 | .draining => 3
      let queued := BitVec.ofBool (!(tile s tm).queue.isEmpty)
      ∀ low : BitVec 25, (match (tile s tm).view tm.id with
          | none => low = 0
          | some v => v.rows < 256 ∧ v.cols < 8192 ∧
              low = 1#1 ++ BitVec.ofNat 3 v.fmt.code ++ BitVec.ofNat 13 v.cols ++ BitVec.ofNat 8 v.rows) →
        gets t g h .wt (Out.reg (h.dstFree (choiceAt (s.env tm).step h.tid 9) d (st ++ low ++ queued ++ 0#4))))

/-- R219, R227, R232 to R235: MRES gives the team's own macro of a tag, else a RESIDENT one of its tenant, else waits for one
that is LOADING, else takes the victim for LOADING: the lowest EMPTY unclaimed macro, or the unclaimed RESIDENT one with the oldest
last use, the lowest number of equals; a thirty-third claim is TILESTATE 11. MCLR clears a bank no other task
holds, with its exponent, and blocks otherwise, also while an earlier word of its stream on the bank is not done. MLOAD starts the load
of a macro the stream may load, and MACRO_LOAD_COMPLETE makes it RESIDENT with the image, scale and tag, and acknowledges; a stream
that waits for it claims it, whatever its tag now is, and goes on with its number and its predicate 1. Which of several macros of a
tag MRES gives is log 120, and that a load's last use is its completion log 119.

R236: MFIRE of a READY integer tile through the macros its registers name into a bank its task holds completes on WT;
each element of the bank becomes, K-block by K-block, its value plus the block's sum of products scaled by the exponent
sum of strip, macro and bank, rounded to nearest even, saturated at 40 bits. It raises NX exactly where a scaled sum is rounded and
SAT exactly where an element is saturated. Its checks come in the order TILESTATE 2, 3, 5, 9, 8, then MSCALE 1, then MSCALE 2 for a
scale byte 0xFF of the tile. It is the last use of its macros.
That MFIRE is performed at acceptance is log 48, the number that MRES answers log 47. -/
def Obligations.MacrosBanksAndFires : Prop :=
  ((∀ (s : State) (g : Group) (rest : List Group) (d a : Code) (pd bank : P3) (x : BitVec 10) (sc tg : BitVec 5) (m : Mods),
      s.groups = g :: rest →
      RunsEach (.mres d a pd m) s g (fun s tm h t =>
        let tag := (s.env tm).rd32 h a 0
        let cl := clusOf tm.core
        let l := (s.cluster cl).squares
        let own := l.filter fun q => q.claims.contains tm.id
        let like := fun (q : Square) (st : SquareState) => tag ≠ 0 ∧ q.tag = tag ∧ q.tenant = ownerId tm.task.owner ∧ q.state = st
        let answer := fun (n : Nat) (hit : Bool) =>
          gets t g h .wt { regs := [(d.toNat, BitVec.ofNat 64 n)], preds := [(pd.toNat, hit)], flags := 0 }
        (tag ≠ 0 → ∀ q, own.find? (·.tag = tag) = some q → answer q.id (decide (q.state = .resident)) ∧
            (t.cluster cl).squares = l)
        ∧ ((tag = 0 ∨ ∀ q ∈ own, q.tag ≠ tag) →
            (32 ≤ own.length → t = s.trap g h.tid (tileBad 11))
            ∧ (own.length < 32 →
                (∀ q, l.find? (fun q => q.tag == tag && q.tenant == ownerId tm.task.owner && q.state == .resident) = some q → tag ≠ 0 →
                  answer q.id true ∧ (t.square cl q.id).claims = tm.id :: q.claims)
                ∧ ((∀ q ∈ l, ¬ like q .resident) → (∃ q ∈ l, like q .loading) →
                    ∃ y, t.thread? g.team h.tid = some { h with status := .blocked y } ∧ (∃ q ∈ l, like q .loading ∧ y.wait = .mres d tag pd q.id))
                ∧ ((∀ q ∈ l, ¬ like q .resident) → (∀ q ∈ l, ¬ like q .loading) →
                    answer (s.victimSquare cl) false ∧
                    let q := t.square cl (s.victimSquare cl)
                    q.tag = tag ∧ q.tenant = ownerId tm.task.owner ∧ q.state = .loading ∧ q.loader = some tm.id ∧ q.claims = [tm.id]))))
      ∧ RunsEach (.mclr bank x m) s g (fun s tm h t =>
        let k := s.bank (clusOf tm.core) bank.toNat
        ((k.holder = none ∨ (k.holder = some tm.id ∧ ∀ p ∈ h.pend, p.bank ≠ some bank.toNat)) → gets t g h .wt Out.none ∧
            t.bank (clusOf tm.core) bank.toNat = { k with rows := [], exp := x.toInt, holder := some tm.id })
        ∧ ((k.holder ≠ none ∧ k.holder ≠ some tm.id ∨ k.holder = some tm.id ∧ ∃ p ∈ h.pend, p.bank = some bank.toNat) →
            ∃ y, t.thread? g.team h.tid = some { h with status := .blocked y } ∧ y.wait = .mclr bank.toNat x.toInt ∧
              t.bank (clusOf tm.core) bank.toNat = k))
      ∧ RunsEach (.mload d a sc tg m) s g (fun s tm h t =>
        let e := s.env tm
        let n := (e.reg h d.toNat 8).toNat
        let scale : Byte := (e.reg h sc.toNat 9).setWidth 8
        let cl := clusOf tm.core
        let q := s.square cl n
        let may := n < 512 ∧ (q.state = .loading ∧ q.loader = some tm.id ∨ q.state = .resident ∧ q.claims = [tm.id])
        (¬ may → t = s.trap g h.tid (tileBad 8))
        ∧ (may → scale = 0xFF → t = s.trap g h.tid (bad .mscale 3))
        ∧ (may → scale ≠ 0xFF → ∀ s1 b, s.readStruct (tm.agent h.tid) (e.addr h a).toNat 16384 256 = (s1, .error b) →
            t = s1.trap g h.tid b)
        ∧ (may → scale ≠ 0xFF → ∀ s1 b, s.readStruct (tm.agent h.tid) (e.addr h a).toNat 16384 256 = (s1, .ok b) → q.load = none →
            ∃ j, t.thread? g.team h.tid = some (h.launch { ack .wt with hold := some j }) ∧
              t.square cl n = { q with state := .loading, loader := some tm.id
                                       load := some { image := b, scale := scale, tag := (e.reg h tg.toNat 10).setWidth 32, job := j } })))
    ∧ (∀ (s : State) (cl n : Nat) (l : SquareLoad), (s.square cl n).load = some l →
        (∀ tm ∈ s.teams, ∀ h ∈ tm.threads, ∀ b, h.status = .blocked b → ∀ d x pd, b.wait ≠ .mres d x pd n) →
        ∃ t, exec (.macroLoadComplete cl n) s = .next t
          ∧ t.square cl n = { s.square cl n with weights := l.image, scale := l.scale, tag := l.tag, state := .resident, loader := none
                                                 lastUse := s.clock, load := none }
          ∧ ∀ id tid h, t.thread? id tid = some h → ∀ p ∈ h.pend, p.hold ≠ some l.job)
    ∧ (∀ (s : State) (cl n team tid : Nat) (l : SquareLoad) (tm : Team) (h : Thread) (b : Block) (d : Code) (tag : Word) (pd : P3),
        (s.teams.map (·.id)).Nodup → (tm.threads.map (·.tid)).Nodup →
        (s.square cl n).load = some l → (s.square cl n).state = .loading → s.team? team = some tm → tm.thread? tid = some h →
        tm.state = .run → clusOf tm.core = cl → h.status = .blocked b → b.wait = .mres d tag pd n →
        (∀ x ∈ s.teams, ∀ y ∈ x.threads, ∀ z, y.status = .blocked z → ∀ k, z.wait.square = some k →
          clusOf x.core = cl → (s.square cl k).state = .loading) →
        ∃ t, exec (.macroLoadComplete cl n) s = .next t ∧ team ∈ (t.square cl n).claims ∧ (t.square cl n).state = .resident
          ∧ resumed t team tid h b.park
          ∧ ∀ h', t.thread? team tid = some h' → (pd.toNat < 7 → h'.rawPred pd.toNat = true)
              ∧ (h.ctl = true → 0 < d.toNat → d.toNat < h.c.length → h'.raw d.toNat = BitVec.ofNat 64 n))
    ∧ (∀ (s : State) (cl n : Nat), n < 512 → (s.square cl n).state = .empty → (s.square cl n).claims = [] →
        (∀ k, k < n → (s.square cl k).state ≠ .empty ∨ (s.square cl k).claims ≠ []) → s.victimSquare cl = n)
    ∧ ∀ (s : State) (cl n : Nat), n < 512 → (∀ k, k < 512 → (s.square cl k).state ≠ .empty ∨ (s.square cl k).claims ≠ []) →
        let free := fun (k : Nat) => (s.square cl k).state = .resident ∧ (s.square cl k).claims = []
        free n → (∀ k, k < 512 → free k → (s.square cl n).lastUse < (s.square cl k).lastUse ∨
          ((s.square cl n).lastUse = (s.square cl k).lastUse ∧ n ≤ k)) → s.victimSquare cl = n)
  ∧ ((∀ (s : State) (g : Group) (rest : List Group) (d n : Code) (bank : P3) (cnt : BitVec 6) (m : Mods), s.groups = g :: rest →
      RunsEach (.mfire d n bank cnt m) s g (fun s tm h t =>
        let cl := clusOf tm.core
        let ns := (List.range cnt.toNat).map fun j => ((s.env tm).reg h (d.toNat + j) (8 + j)).toNat
        let x := s.tile cl n.toNat
        let k := s.bank cl bank.toNat
        (x.view tm.id = none → t = s.trap g h.tid (tileBad 2))
        ∧ ∀ v, x.view tm.id = some v →
          (v.state ≠ .ready → t = s.trap g h.tid (tileBad 3))
          ∧ (v.state = .ready → v.fmt ≠ .q8 → v.fmt ≠ .q4 → t = s.trap g h.tid (tileBad 5))
          ∧ (v.state = .ready → (v.fmt = .q8 ∨ v.fmt = .q4) →
              (k.holder ≠ some tm.id → t = s.trap g h.tid (tileBad 9))
              ∧ (k.holder = some tm.id →
                  ((∃ i ∈ ns, 512 ≤ i ∨ (s.square cl i).usable tm.id = false) → t = s.trap g h.tid (tileBad 8))
                  ∧ ((∀ i ∈ ns, i < 512 ∧ (s.square cl i).usable tm.id = true) →
                      (cnt.toNat ≠ (v.cols + 127) / 128 → t = s.trap g h.tid (bad .mscale 1))
                      ∧ (cnt.toNat = (v.cols + 127) / 128 →
                          let data := s.segRead v.store
                          let scales := data.drop (v.rows * ((v.cols + 127) / 128) * if v.fmt = .q4 then 64 else 128)
                          (0xFF ∈ scales → t = s.trap g h.tid (bad .mscale 2))
                          ∧ (0xFF ∉ scales → (∀ i ∈ ns, (s.square cl i).state = .resident ∧ (s.square cl i).load = none) →
                            let r := k.fire v data (ns.map (s.square cl))
                            onTiles t g h r.2 [n.toNat] [] [] (some bank.toNat) ∧ t.bank cl bank.toNat = r.1
                              ∧ ∀ i ∈ ns, t.square cl i = { s.square cl i with lastUse := s.clock })))))))
    ∧ (∀ (k : Bank) (v : TileView) (data : List Byte) (qs : List Square), (∀ q ∈ qs, q.weights.length = 16384) →
        let n := (v.cols + 127) / 128
        let size := if v.fmt = .q4 then 64 else 128
        let strip := fun (r j : Nat) => (data.drop ((r * n + j) * size)).take size
        let scale := fun (r j : Nat) => ((data.drop (v.rows * n * size)).getD (r * n + j) 0).toNat
        let sum := fun (r c j : Nat) (q : Square) => ((List.range (min 128 (v.cols - 128 * j))).map fun i =>
          (if v.fmt = .q4 then ((((strip r j).getD (i / 2) 0) >>> (4 * (i % 2))).setWidth 4).toInt else ((strip r j).getD i 0).toInt)
            * pp8Int (q.weights.getD (128 * i + c) 0).toNat).sum
        let el := fun (r c : Nat) => qs.zipIdx.foldl (fun (acc : Int × BitVec 6) y =>
          let p := scaleSum (sum r c y.2 y.1) (scale r y.2 + y.1.scale.toNat - 261 - k.exp)
          let x := acc.1 + p.1
          (max (-(2 ^ 39)) (min (2 ^ 39 - 1) x), acc.2 ||| p.2 ||| if x < -(2 ^ 39) ∨ 2 ^ 39 - 1 < x then 32 else 0)) (k.at r c, 0)
        (∀ r c, r < v.rows → c < 128 → (k.fire v data qs).1.at r c = (el r c).1)
        ∧ ∀ i, i < 6 → ((k.fire v data qs).2.getLsbD i = true ↔ ∃ r c, r < v.rows ∧ c < 128 ∧ (el r c).2.getLsbD i = true))
    ∧ ∀ p k : Int,
        let q : ℝ := (p : ℝ) * 2 ^ k
        let r := scaleSum p k
        |(r.1 : ℝ) - q| ≤ 1 / 2 ∧ (|(r.1 : ℝ) - q| = 1 / 2 → r.1 % 2 = 0) ∧ r.2 = if (r.1 : ℝ) = q then 0 else 1)

/-- R225, R237 to R239: MDRAIN writes a bank's rounded elements to a FILLING float tile of 128 columns, which is READY once the word
returns; MHAD writes the rows of a READY tile, rotated in blocks, to a FILLING one, and MQNT one row of strips and their scales,
each with its checks in the manual's order (TILESTATE 2, 3, 5, 6, 9 or 10), the flags of its elements on WT, and every byte it writes
to a storage in a scratchpad stated: an element of MHAD through the stages y r 0 to y r stages of its row, in each of which two elements
2^k apart become their rounded sum and their rounded difference. The scale MQNT gives a block is the least under which its finite elements lie within the limit,
and each element is its quotient rounded to the nearest integer, ties to even, or the limit with SAT; a NaN gives 0 with NV, an infinity the limit.
That these words are performed at acceptance is log 48. -/
def Obligations.DrainRotateQuantise : Prop :=
  (∀ (s : State) (g : Group) (rest : List Group) (d n b : Code) (bank : P3) (f : DrainFmt) (p : HadSize) (q4 : Bool) (m : Mods),
    s.groups = g :: rest →
    let view := fun (s : State) (tm : Team) (x : Code) => (s.tile (clusOf tm.core) x.toNat).view tm.id
    let float := fun (v : TileView) => v.fmt ≠ .q8 ∧ v.fmt ≠ .q4
    let cvt := fun (dst src : FFmt) (b : Nat) => if dst = src then (b, (0 : BitVec 6)) else convert dst src FOp.rne false false b
    RunsEach (.mdrain d bank f m) s g (fun s tm h t =>
      let k := s.bank (clusOf tm.core) bank.toNat
      let no := fun x => t = s.trap g h.tid (tileBad x)
      let df : TileFmt := match f with | .f32 => .f32 | .f16 => .f16 | .bf16 => .bf16
      (view s tm d = none → no 2)
      ∧ ∀ v, view s tm d = some v →
        (v.state ≠ .filling → no 3) ∧ (v.state = .filling → v.fmt ≠ df → no 5)
        ∧ (v.state = .filling → v.fmt = df → v.cols ≠ 128 → no 6)
        ∧ (v.state = .filling → v.fmt = df → v.cols = 128 → k.holder ≠ some tm.id → no 9)
        ∧ (v.state = .filling → v.fmt = df → v.cols = 128 → k.holder = some tm.id → v.queued = false →
            let el := fun r c => (tileFmt df).round .rne false (decide (k.at r c < 0)) (k.at r c).natAbs k.exp
            (∃ fl, onTiles t g h fl [] [] [d.toNat] (some bank.toNat) ∧
              ∀ i, i < 6 → (fl.getLsbD i = true ↔ ∃ r c, r < v.rows ∧ c < 128 ∧ (el r c).2.getLsbD i = true))
            ∧ t.tile (clusOf tm.core) d.toNat = s.tile (clusOf tm.core) d.toNat
            ∧ (∀ id o tm' w, v.store = [{ loc := .scr id o, len := v.rows * 128 * w }] → w = elemBytes df →
                s.team? id = some tm' → Memory.wf tm'.mem = true → ∃ tm'', t.team? id = some tm'' ∧
                  ∀ r c i, r < v.rows → c < 128 → i < w →
                    cellGet (o + (r * 128 + c) * w + i) tm''.mem = (bytesLE w (el r c).1).getD i 0)))
    ∧ RunsEach (.mhad d n p m) s g (fun s tm h t =>
      let no := fun x => t = s.trap g h.tid (tileBad x)
      let size := match p with | .h16 => 16 | .h32 => 32 | .h64 => 64
      ((view s tm d = none ∨ view s tm n = none) → no 2)
      ∧ ∀ vd vs, view s tm d = some vd → view s tm n = some vs →
        ((vs.state ≠ .ready ∨ vd.state ≠ .filling) → no 3)
        ∧ (vs.state = .ready → vd.state = .filling →
            (¬ (float vs ∧ float vd) → no 5)
            ∧ (float vs → float vd → (vs.rows ≠ vd.rows ∨ vs.cols ≠ vd.cols ∨ vs.cols % size ≠ 0) → no 6)
            ∧ (float vs → float vd → vs.rows = vd.rows → vs.cols = vd.cols → vs.cols % size = 0 → vd.queued = false →
                let stages := match p with | .h16 => 4 | .h32 => 5 | .h64 => 6
                let x := fun (r c : Nat) => cvt .f32 (tileCvt vs.fmt) ((s.tileRow vs r).getD c 0)
                let pass := fun (y : Nat → Nat) (k c : Nat) =>
                  if c.testBit k then fmtF32.sub FOp.rne (y (c - 2 ^ k)) (y c) else fmtF32.add FOp.rne (y c) (y (c + 2 ^ k))
                ∃ (fl : BitVec 6) (y : Nat → Nat → Nat → Nat), onTiles t g h fl [n.toNat] [d.toNat] [] none ∧
                (∀ r c, y r 0 c = (x r c).1) ∧ (∀ r k c, y r (k + 1) c = (pass (y r k) k c).1) ∧
                (∀ i, i < 6 → (fl.getLsbD i = true ↔ ∃ r c, r < vd.rows ∧ c < vd.cols ∧ ((x r c).2.getLsbD i = true
                  ∨ (∃ k, k < stages ∧ (pass (y r k) k c).2.getLsbD i = true)
                  ∨ (cvt (tileCvt vd.fmt) .f32 (y r stages c)).2.getLsbD i = true))) ∧
                t.tile (clusOf tm.core) d.toNat = s.tile (clusOf tm.core) d.toNat ∧
                ∀ id o tm' w, vd.store = [{ loc := .scr id o, len := tileBytes vd.fmt vd.rows vd.cols }] → w = elemBytes vd.fmt →
                  s.team? id = some tm' → Memory.wf tm'.mem = true → ∃ tm'', t.team? id = some tm'' ∧
                    ∀ r c i, r < vd.rows → c < vd.cols → i < w →
                      cellGet (o + r * ((vd.cols * w + 15) / 16 * 16) + c * w + i) tm''.mem
                        = (bytesLE w (cvt (tileCvt vd.fmt) .f32 (y r stages c)).1).getD i 0)))
    ∧ RunsEach (.mqnt d n b q4 m) s g (fun s tm h t =>
      let no := fun x => t = s.trap g h.tid (tileBad x)
      let r := ((s.env tm).rd32 h b 2).toNat
      let r' := ((s.env tm).rdAt h b 1 3).toNat
      ((view s tm d = none ∨ view s tm n = none) → no 2)
      ∧ ∀ vd vs, view s tm d = some vd → view s tm n = some vs →
        ((vs.state ≠ .ready ∨ vd.state ≠ .filling) → no 3)
        ∧ (vs.state = .ready → vd.state = .filling →
            let ok := float vs ∧ vd.fmt = (if q4 then .q4 else .q8)
            (¬ ok → no 5) ∧ (ok → vs.cols ≠ vd.cols → no 6)
            ∧ (ok → vs.cols = vd.cols → (vd.rows ≤ r ∨ vs.rows ≤ r') → no 10)
            ∧ (ok → vs.cols = vd.cols → r < vd.rows → r' < vs.rows → vd.queued = false →
                let x := fun c => (tileFmt vs.fmt).unpack ((s.tileRow vs r').getD c 0)
                let lim := if q4 then 7 else 127
                let blocks := (vd.cols + 127) / 128
                let scale := fun j => quantScale lim ((List.range (min 128 (vd.cols - 128 * j))).map fun k => x (128 * j + k))
                (∃ fl, onTiles t g h fl [n.toNat] [d.toNat] [] none ∧ ∀ i, i < 6 → (fl.getLsbD i = true ↔
                  ∃ c, c < vd.cols ∧ (quantOne lim (scale (c / 128)) (x c)).2.getLsbD i = true)) ∧
                t.tile (clusOf tm.core) d.toNat = s.tile (clusOf tm.core) d.toNat ∧
                ∀ id o tm', vd.store = [{ loc := .scr id o, len := tileBytes vd.fmt vd.rows vd.cols }] →
                  s.team? id = some tm' → Memory.wf tm'.mem = true → ∃ tm'', t.team? id = some tm'' ∧
                    let strip := if q4 then 64 else 128
                    ∀ j, j < blocks →
                      let q := fun k => if 128 * j + k < vd.cols then (quantOne lim (scale j) (x (128 * j + k))).1 else 0
                      cellGet (o + vd.rows * blocks * strip + r * blocks + j) tm''.mem = BitVec.ofNat 8 (scale j) ∧
                      ∀ k, k < strip → cellGet (o + (r * blocks + j) * strip + k) tm''.mem =
                        if q4 then BitVec.ofInt 4 (q (2 * k + 1)) ++ BitVec.ofInt 4 (q (2 * k)) else BitVec.ofInt 8 (q k)))))
  ∧ (∀ (s : State) (tm : Team) (tid i n : Nat) (h : Thread) (p : Pending), s.team? tm.id = some tm → tm.thread? tid = some h →
      h.pend[i]? = some p → p.hold = none → p.drains = [n] →
      (∀ x ∈ tm.threads, x.carving = none ∧ ∀ q ∈ x.pend, n ∉ q.writes) → (s.tile (clusOf tm.core) n).after = [] →
      ∃ t, exec (.resultReturn tm.id tid i) s = .next t
        ∧ t.tile (clusOf tm.core) n = { s.tile (clusOf tm.core) n with state := .ready })
  ∧ (∀ (n : Nat) (xs : List Machine.Num), 0 < n →
      let fits := fun (k : Nat) => ∀ x ∈ xs, x.isFin = true → |x.toReal| ≤ n * (2 : ℝ) ^ ((k : Int) - 127)
      (∀ k, k < quantScale n xs → ¬ fits k) ∧ ((∃ k, k < 255 ∧ fits k) → fits (quantScale n xs)))
  ∧ (∀ (n k : Nat) (neg quiet : Bool) (pay : Nat), quantOne n k (.inf neg) = (if neg then -(n : Int) else n, 32)
      ∧ quantOne n k (.nan neg quiet pay) = (0, 16))
  ∧ ∀ (n k : Nat) (x : Machine.Num), x.isFin = true →
      let q : ℝ := x.toReal * 2 ^ (127 - (k : Int))
      (|((quantOne n k x).1 : ℝ) - q| ≤ 1 / 2 ∧ (|((quantOne n k x).1 : ℝ) - q| = 1 / 2 → (quantOne n k x).1 % 2 = 0) ∧ (quantOne n k x).2 = (if ((quantOne n k x).1 : ℝ) = q then 0 else 1))
      ∨ ((n : ℝ) ≤ |q| ∧ (quantOne n k x).1 = (if x.neg then -(n : Int) else n) ∧ (quantOne n k x).2 = 33)

/-! ### Ring sets (R266 to R284) -/

/-- R269, R270, R275 to R283: a ring word reads its slot in each active thread and completes on WA: it traps RINGLOAD 1
where the slot's tables are not loaded and 2 where they have the other width. RSRING reads the values of its ring, traps
RINGLOAD 3 unless they are finite and strictly increasing, and puts the slot in LOADING, acknowledged in every active
thread when the tables are complete.
An RSRING that replaces another one is log 49. -/
def Obligations.RingWords : Prop :=
  (∀ (s : State) (g : Group) (rest : List Group) (d a b : Code) (ty : RsTy) (rel : Rel) (poss : Bool) (pd : P3) (m : Mods),
    s.groups = g :: rest →
    let on := fun (f : List Word → Env → Thread → Out) (s : State) (tm : Team) (h : Thread) (t : State) =>
      let r := tm.ring ty.slot.toNat
      (∀ w, r.state = .loaded w → w = ty.wide → t = s.modThread g.team h.tid (·.launch { (f r.values (s.env tm) h).later .wa none with tie := .ring }))
      ∧ (∀ w, r.state = .loaded w → w ≠ ty.wide → t = s.trap g h.tid (bad .ringload 2))
      ∧ ((∀ w, r.state ≠ .loaded w) → t = s.trap g h.tid (bad .ringload 1))
    let set := fun (vs : List Word) (e : Env) (h : Thread) (c : Code) (k : Nat) => (e.rd32 h c k).toNat % 2 ^ (2 * vs.length + 2)
    let two := fun (f : List Word → Nat → Nat → Nat) => on fun vs e h =>
      Out.reg (h.dst32 d (BitVec.ofNat 32 (f vs (set vs e h a 0) (set vs e h b 2))) false)
    let one := fun (f : List Word → Nat → Nat) => on fun vs e h =>
      Out.reg (h.dst32 d (BitVec.ofNat 32 (f vs (set vs e h a 0))) false)
    RunsEach (.rsadd d a b ty m) s g (two fun vs => ringPairs vs tabAdd) ∧ RunsEach (.rssub d a b ty m) s g (two ringSub)
    ∧ RunsEach (.rsmul d a b ty m) s g (two fun vs => ringPairs vs tabMul) ∧ RunsEach (.rsdiv d a b ty m) s g (two ringDiv)
    ∧ RunsEach (.rsmax d a b ty m) s g (two fun vs => ringPairs vs tabMax)
    ∧ RunsEach (.rsmin d a b ty m) s g (two fun vs => ringPairs vs tabMin)
    ∧ RunsEach (.rsuni d a b ty m) s g (two fun _ x y => x ||| y) ∧ RunsEach (.rsint d a b ty m) s g (two fun _ x y => x &&& y)
    ∧ RunsEach (.rsneg d a ty m) s g (one fun vs => ringEach vs tabNeg) ∧ RunsEach (.rsrec d a ty m) s g (one fun vs => ringEach vs tabRec)
    ∧ RunsEach (.rslo d a ty m) s g (one fun vs x => (ringLo vs x).toNat)
    ∧ RunsEach (.rshi d a ty m) s g (one fun vs x => (ringHi vs x).toNat)
    ∧ RunsEach (.rsfrom d a b ty m) s g (on fun vs e h =>
        Out.reg (h.dst32 d (BitVec.ofNat 32 (ringFrom vs (e.rd32 h a 0) (e.rd32 h b 2))) false))
    ∧ RunsEach (.rstest rel poss pd a b ty m) s g (on fun vs e h =>
        Out.pred pd (ringTest vs rel poss (set vs e h a 0) (set vs e h b 2)))
    ∧ RunsEach (.rspack d a ty m) s g (on fun vs e h =>
        { regs := h.dst32 d (BitVec.ofNat 32 (ringPack (2 * vs.length + 2) (set vs e h a 0)).1) false, preds := []
          flags := (ringPack (2 * vs.length + 2) (set vs e h a 0)).2 })
    ∧ RunsEach (.rsunpk d a ty m) s g (on fun vs e h =>
        Out.reg (h.dst32 d (BitVec.ofNat 32 (ringUnpack (2 * vs.length + 2) (e.rd32 h a 0).toNat)) false))
    ∧ RunsOnce (.rsring a ty m) s g (fun s tm h t =>
        let va := ((s.env tm).addr h a).toNat
        let n := if ty.wide then 7 else 3
        (∀ s1 x, s.ringImage (tm.agent h.tid) n va = (s1, .error x) → t = s1.trap g h.tid x)
        ∧ ∀ s1 l, s.ringImage (tm.agent h.tid) n va = (s1, .ok l) →
          let vs := l.map fun x => if x = 0x80000000 then 0 else x
          let ok := (∀ x ∈ vs, (fmtF32.unpack x.toNat).isFin = true) ∧ (vs.map fun x => (fmtF32.unpack x.toNat).toReal).Pairwise (· < ·)
          (¬ ok → t = s1.trap g h.tid (badAt .ringload 3 (BitVec.ofNat 64 va)))
          ∧ (ok → ty.slot.toNat < tm.rings.length → (s.active g m).Nodup →
              ∃ j, (∃ tm', t.team? tm.id = some tm' ∧ tm'.ring ty.slot.toNat = { state := .loading ty.wide, values := vs, job := j })
                ∧ ∀ u ∈ s.active g m, ∀ k, tm.thread? u = some k →
                    t.thread? g.team u = some (k.launch { ack .wa with hold := some j }))))
  ∧ ∀ (s : State) (team n : Nat) (tm : Team) (w : Bool), s.team? team = some tm → (tm.ring n).state = .loading w →
      n < tm.rings.length →
      ∃ t, exec (.ringTablesComplete team n) s = .next t
        ∧ (∃ tm', t.team? team = some tm' ∧ tm'.ring n = { tm.ring n with state := .loaded w })
        ∧ ∀ id tid h, t.thread? id tid = some h → ∀ p ∈ h.pend, p.hold ≠ some (tm.ring n).job

/-- R268, R272: over the finite regions of a ring, each table entry is exact: a finite region is in the entry for regions i
and j exactly if it holds the sum, product, maximum or minimum of a number of i and one of j, or the negative or
reciprocal of one of i; the point at infinity is in no such entry but a reciprocal's of a region that holds zero. With the point
at infinity as an operand, a sum is that point and of two such points the whole line, a product is that point but the whole line with
a region that holds zero, a maximum and a minimum are the whole line, the negative is that point, and the reciprocal is the region
that holds zero.

R274, R276, R277, R279 to R283: a table word of two sets gives the union of the entries of their pairs; RSSUB adds the negatives'
set; RSDIV gives nothing for an empty set, the whole line for a divisor that holds zero, and otherwise multiplies by the
reciprocals' set. RSFROM gives exactly the regions that the closed interval of its ends meets, infinite ends among them with the point
at infinity, and the whole line for a NaN. RSLO and RSHI give the ring values that bound a set, or the infinities. RSTEST of
two finite regions says whether all pairs, or some pair, stand in the relation; with the point at infinity eq holds of that point
with itself alone, ne of every other pair, and no order of any. Packing gives the shortest arc that holds the set,
with SAT exactly where it holds more, unpacking the arc's set; one after the other gives a set that holds the first, and the set itself
where SAT is not raised. -/
def Obligations.RingTablesConversionsTests : Prop :=
  ((∀ (vs : List Word) (j : Nat), (∀ x ∈ vs, (fmtF32.unpack x.toNat).isFin = true) →
      (vs.map fun x => (fmtF32.unpack x.toNat).toReal).Pairwise (· < ·) → 1 ≤ j → j ≤ 2 * vs.length + 1 →
      let all := 2 ^ (2 * vs.length + 2) - 1
      tabAdd vs 0 0 = all ∧ tabAdd vs 0 j = 1 ∧ tabAdd vs j 0 = 1
      ∧ tabMul vs 0 0 = 1 ∧ (inRegion vs j 0 → tabMul vs 0 j = all ∧ tabMul vs j 0 = all)
      ∧ (¬ inRegion vs j 0 → tabMul vs 0 j = 1 ∧ tabMul vs j 0 = 1)
      ∧ tabMax vs 0 0 = all ∧ tabMax vs 0 j = all ∧ tabMax vs j 0 = all
      ∧ tabMin vs 0 0 = all ∧ tabMin vs 0 j = all ∧ tabMin vs j 0 = all
      ∧ tabNeg vs 0 = 1 ∧ hasBit (tabRec vs 0) 0 = false ∧ (hasBit (tabRec vs 0) j = true ↔ inRegion vs j 0))
    ∧ ∀ (vs : List Word) (i j k : Nat), (∀ x ∈ vs, (fmtF32.unpack x.toNat).isFin = true) →
      (vs.map fun x => (fmtF32.unpack x.toNat).toReal).Pairwise (· < ·) →
      1 ≤ i → i ≤ 2 * vs.length + 1 → 1 ≤ j → j ≤ 2 * vs.length + 1 → 1 ≤ k → k ≤ 2 * vs.length + 1 →
      let is2 := fun (t : List Word → Nat → Nat → Nat) (f : ℝ → ℝ → ℝ) =>
        (hasBit (t vs i j) k = true ↔ ∃ x y, inRegion vs i x ∧ inRegion vs j y ∧ inRegion vs k (f x y)) ∧ hasBit (t vs i j) 0 = false
      is2 tabAdd (· + ·) ∧ is2 tabMul (· * ·) ∧ is2 tabMax max ∧ is2 tabMin min
      ∧ (hasBit (tabNeg vs i) k = true ↔ ∃ x, inRegion vs i x ∧ inRegion vs k (-x)) ∧ hasBit (tabNeg vs i) 0 = false
      ∧ (hasBit (tabRec vs i) k = true ↔ ∃ x, x ≠ 0 ∧ inRegion vs i x ∧ inRegion vs k (1 / x))
      ∧ (hasBit (tabRec vs i) 0 = true ↔ inRegion vs i 0))
  ∧ ((∀ (vs : List Word) (lo hi : Word) (k : Nat), (∀ x ∈ vs, (fmtF32.unpack x.toNat).isFin = true) →
      (vs.map fun x => (fmtF32.unpack x.toNat).toReal).Pairwise (· < ·) → 1 ≤ k → k ≤ 2 * vs.length + 1 →
      let a := fmtF32.unpack lo.toNat
      let b := fmtF32.unpack hi.toNat
      ((a.isNan = true ∨ b.isNan = true) → ringFrom vs lo hi = 2 ^ (2 * vs.length + 2) - 1)
      ∧ (a.isNan = false → b.isNan = false →
          (hasBit (ringFrom vs lo hi) k = true ↔ ∃ x : ℝ, a.toEReal ≤ x ∧ x ≤ b.toEReal ∧ inRegion vs k x)
          ∧ (hasBit (ringFrom vs lo hi) 0 = true ↔ a.toEReal ≤ b.toEReal ∧ (a.isFin = false ∨ b.isFin = false))
          ∧ ringFrom vs lo hi < 2 ^ (2 * vs.length + 2)))
    ∧ (∀ (vs : List Word) (t : List Word → Nat → Nat → Nat) (u : List Word → Nat → Nat) (x y k : Nat),
        let w := 2 * vs.length + 2
        let on := fun (x i : Nat) => i < w ∧ hasBit x i = true
        (hasBit (ringPairs vs t x y) k = true ↔ ∃ i j, on x i ∧ on y j ∧ hasBit (t vs i j) k = true)
        ∧ (hasBit (ringEach vs u x) k = true ↔ ∃ i, on x i ∧ hasBit (u vs i) k = true)
        ∧ (hasBit (ringSub vs x y) k = true ↔
            ∃ i j l, on x i ∧ on y j ∧ on (tabNeg vs j) l ∧ hasBit (tabAdd vs i l) k = true)
        ∧ (((∀ i, ¬ on x i) ∨ ∀ j, ¬ on y j) → ringDiv vs x y = 0)
        ∧ ((∃ i, on x i) → (∃ j, on y j) → (∀ v ∈ vs, (fmtF32.unpack v.toNat).isFin = true) →
            (vs.map fun v => (fmtF32.unpack v.toNat).toReal).Pairwise (· < ·) →
            ((∃ j, on y j ∧ inRegion vs j 0) → ringDiv vs x y = 2 ^ w - 1)
            ∧ ((∀ j, on y j → ¬ inRegion vs j 0) → (hasBit (ringDiv vs x y) k = true ↔
                ∃ i j l, on x i ∧ on y j ∧ on (tabRec vs j) l ∧ hasBit (tabMul vs i l) k = true))))
    ∧ (∀ (vs : List Word) (x i : Nat), i < 2 * vs.length + 2 → hasBit x i = true →
        ((hasBit x 0 = true ∨ hasBit x 1 = true) → ringLo vs x = 0xFF800000)
        ∧ (2 ≤ i → (∀ k, k < i → hasBit x k = false) → ringLo vs x = vs.getD (i / 2 - 1) 0)
        ∧ ((hasBit x 0 = true ∨ hasBit x (2 * vs.length + 1) = true) → ringHi vs x = 0x7F800000)
        ∧ (hasBit x 0 = false → (∀ k, i < k → k < 2 * vs.length + 2 → hasBit x k = false) → i ≤ 2 * vs.length →
            ringHi vs x = vs.getD ((i + 1) / 2 - 1) 0))
    ∧ (∀ vs : List Word, ringLo vs 0 = 0x7F800000 ∧ ringHi vs 0 = 0xFF800000)
    ∧ (∀ (vs : List Word) (rel : Rel) (i j : Nat), (∀ x ∈ vs, (fmtF32.unpack x.toNat).isFin = true) →
        (vs.map fun x => (fmtF32.unpack x.toNat).toReal).Pairwise (· < ·) →
        1 ≤ i → i ≤ 2 * vs.length + 1 → 1 ≤ j → j ≤ 2 * vs.length + 1 →
        let r : ℝ → ℝ → Prop := fun x y => match rel with
          | .eq => x = y | .ne => x ≠ y | .lt => x < y | .le => x ≤ y | .gt => y < x | .ge => y ≤ x
        (ringTest vs rel false (2 ^ i) (2 ^ j) = true ↔ ∀ x y, inRegion vs i x → inRegion vs j y → r x y)
        ∧ (ringTest vs rel true (2 ^ i) (2 ^ j) = true ↔ ∃ x y, inRegion vs i x ∧ inRegion vs j y ∧ r x y))
    ∧ (∀ (vs : List Word) (rel : Rel) (poss : Bool) (j : Nat), j < 2 * vs.length + 2 →
        let r := match rel with | .eq => j = 0 | .ne => j ≠ 0 | _ => False
        (ringTest vs rel poss (2 ^ 0) (2 ^ j) = true ↔ r) ∧ (ringTest vs rel poss (2 ^ j) (2 ^ 0) = true ↔ r))
    ∧ (∀ (vs : List Word) (rel : Rel) (poss : Bool) (X Y : Nat),
        ringTest vs rel poss X Y = true ↔
          if poss then ∃ i j, i < 2 * vs.length + 2 ∧ j < 2 * vs.length + 2 ∧ hasBit X i = true ∧ hasBit Y j = true ∧
            ringTest vs rel true (2 ^ i) (2 ^ j) = true
          else ∀ i j, i < 2 * vs.length + 2 → j < 2 * vs.length + 2 → hasBit X i = true → hasBit Y j = true →
            ringTest vs rel false (2 ^ i) (2 ^ j) = true)
    ∧ (∀ (w x b : Nat), w = 8 ∨ w = 16 → x < 2 ^ w → b < 256 →
        (ringPack w 0 = (16 + (w - 1), 0))
        ∧ (x ≠ 0 → ∃ s l, s < w ∧ l < w ∧ (ringPack w x).1 = 16 * s + l
            ∧ (∀ i, i < w → hasBit x i = true → (i + w - s) % w ≤ l)
            ∧ (∀ s' l', s' < w → (∀ i, i < w → hasBit x i = true → (i + w - s') % w ≤ l') → l < l' ∨ (l = l' ∧ s ≤ s'))
            ∧ ((ringPack w x).2 = 0 ↔ ∀ i, i < w → (i + w - s) % w ≤ l → hasBit x i = true))
        ∧ (b / 16 < w → b % 16 < w - 1 → ∀ i, hasBit (ringUnpack w b) i = true ↔ i < w ∧ (i + w - b / 16) % w ≤ b % 16)
        ∧ (b = 16 + (w - 1) → ringUnpack w b = 0)
        ∧ (b ≠ 16 + (w - 1) → (w ≤ b / 16 ∨ w - 1 ≤ b % 16) → ringUnpack w b = 2 ^ w - 1))
    ∧ ∀ (w x : Nat), w = 8 ∨ w = 16 → x < 2 ^ w →
        ringUnpack w (ringPack w x).1 &&& x = x ∧ ((ringPack w x).2 = 0 → ringUnpack w (ringPack w x).1 = x)
          ∧ ((ringPack w x).2 = 0 ∨ (ringPack w x).2 = 32) ∧ (ringPack w x).1 < 256)

/-! ### Engines and shadowed buffers (R205 to R207, R308 to R322) -/

/-- R308, R311, R312, R315, R317, R319: XCOPY, XGATH and XPUTS are accepted as one command for the group: in ascending slot order
each thread traps on what its checks find or is acknowledged on WX and adds its runs and signals; the command keeps them
until it completes, and with BAR its arrival is pending on the barrier's phase (of the lowest slot, log 95). With TASK it carries the
record that the lowest slot's pair names, also where that slot's own part traps. A word that moves and signals nothing leaves no
command in the engine, but pushes the task that it carries. XCOPY's own checks
come in the order SCOPE 15, SCOPE 14, ALIGN of source, destination and record, SCOPE 18, then the source's range, the
destination's and the record's (log 36); with the shadow modifier it writes the shadow side of its binding. XGATH reads its
descriptor, SCOPE 16 where it breaks R317, SCOPE 17 for a slot that is not there or lies outside the team's own scratchpad, and
brings row i, chunk c at place (c + s) mod C of its slot, with pD 1, or zeros with pD 0. XPUTS reads its descriptor, ALIGN of
source, destination and signal, SCOPE 16, SCOPE 14, then the three ranges, and brings its payload and its signal.

R203, R313 to R316, R319, R323: a completed command is gone from its engine, and a TLBI that waits for no other command ends; a
run without conversion leaves in each byte of its destination the byte of its source as it stood before; a converted one
leaves each element rounded to nearest even in the other format, its flags in its thread; every other byte of memory is as it was. A
signal sets its word, or adds to it modulo 2^32. Runs and signals that keep apart from one another all take effect, and change
nothing else. A gathered row stands in its slot's chunks in the team's scratchpad, or zeros do. The command's arrival is then counted on its barrier, if the phase is still the
one, and its task record is pushed to the cluster that issued it, or neither where the tenant has stopped.
WRITE of SCOPE 18 is log 34, a full engine log 51, the order in which racing runs land log 96. -/
def Obligations.EngineCommands : Prop :=
  ((∀ (s : State) (g : Group) (rest : List Group) (d a b : Code) (sc : Scope) (pd : P3) (add : Bool) (m : Mods) (tm : Team)
        (lead : Nat) (l : List Nat), s.groups = g :: rest → s.team? g.team = some tm → s.present g = lead :: l →
      let accepted := fun (i : Instr) (sc : Scope) (f : State → Nat → State × Except Bad Part)
          (late : State → Nat → State × Except Bad (Option (List Byte × DWord))) =>
        ∃ t, exec i s = .next t ∧ ∀ s1 p, Adds f late g (s.engReady tm sc) (lead :: l) s1 p →
          ((p.runs ≠ [] ∨ p.signals ≠ []) →
            ∃ c, t.cmds = s1.cmds ++ [c] ∧ c.core = tm.core ∧ c.cluster = clusOf tm.core ∧ c.team = tm.id ∧ c.runs = p.runs ∧
              c.signals = p.signals ∧ c.pins = p.pins ∧ c.task = p.task ∧
              ((modEng m).bar = none → c.bar = none ∧ ∀ tid, t.thread? tm.id tid = s1.thread? tm.id tid)
              ∧ (∀ n tm', (modEng m).bar = some n → s1.team? tm.id = some tm' → n.toNat < tm'.bars.length →
                  (lead ∉ (tm'.bar n.toNat).arr → c.bar = some (n.toNat, (tm'.bar n.toNat).phase) ∧ ∃ x, t.team? tm.id = some x ∧
                    x.bar n.toNat = { tm'.bar n.toNat with pending := (tm'.bar n.toNat).pending + 1 })
                  ∧ (lead ∈ (tm'.bar n.toNat).arr → c.bar = some (n.toNat, (tm'.bar n.toNat).phase + 1))))
          ∧ (p.runs = [] → p.signals = [] → (∀ tm', s1.team? tm.id = some tm' → ∀ h ∈ tm'.threads, h.carving = none) →
              (∀ c ∈ t.cmds, c ∈ s1.cmds)
              ∧ ∀ r va tm', p.task = some (r, va) → (modEng m).bar = none → s1.team? tm.id = some tm' →
                  s1.counts (ownerId tm'.task.owner) = true → ∃ u : State, u.mem = s1.mem ∧ u.clusters = s1.clusters ∧ u.regs = s1.regs ∧
                    let x := taskOf r tm'.task.owner va 0
                    let cl := clusOf tm.core
                    (taskBytesOk r = true → ((u.seenTask r x).taskKernel x).isSome = true → (u.cluster cl).deque.length < 1024 →
                      ∃ k, (t.cluster cl).deque = (u.cluster cl).deque ++ [{ x with order := k }]))
      let none' := fun (s : State) (_ : Nat) => (s, (.ok none : Except Bad (Option (List Byte × DWord))))
      let brings := if (modEng m).task then some lead else none
      accepted (.xcopy d a b sc m) sc (State.xcopyPart d a b (modEng m).shadow brings g) (State.xcopyTask b brings g)
      ∧ accepted (.xgath d a b pd m) .team (State.xgathPart d a b pd g) none'
      ∧ accepted (.xputs d a add m) .dom (State.xputsPart d a add g) none')
    ∧ (∀ (s : State) (g : Group) (d a b : Code) (shadow : Bool) (lead : Option Nat) (tid : Nat) (tm : Team) (h : Thread),
        s.team? g.team = some tm → tm.thread? tid = some h →
        let e := s.env tm
        let ag := tm.engine tid
        let w := e.rd32 h b 4
        let conv := (w.extractLsb' 28 4).toNat
        let n := (w.extractLsb' 0 17).toNat
        let src := (e.rd64 h a 0).toNat
        let dst := (e.rd64 h d 2).toNat
        let va : DWord := e.rdAt h b 3 7 ++ e.rdAt h b 2 6
        let brings := lead = some tid
        let out := if conv = 1 ∨ conv = 2 then n / 2 else if conv = 0 then n else 2 * n
        let part := State.xcopyPart d a b shadow lead g s tid
        (¬ brings → State.xcopyTask b lead g s tid = (s, .ok none))
        ∧ (brings → ∀ s1 r, s.readStruct ag va.toNat 64 64 = (s1, .ok r) → State.xcopyTask b lead g s tid = (s1, .ok (some (r, va))))
        ∧ ((4 < conv ∨ w.extractLsb' 17 11 ≠ 0) → part = (s, .error (bad .scope 15)))
        ∧ (conv ≤ 4 → w.extractLsb' 17 11 = 0 →
            ((65536 < n ∨ n % (if conv = 1 ∨ conv = 2 then 8 else 4) ≠ 0) → part = (s, .error (bad .scope 14)))
            ∧ (n = 0 →
                (¬ brings → part = (s, .ok Part.empty))
                ∧ (brings → (∀ s1 x, s.readStruct ag va.toNat 64 64 = (s1, .error x) → part = (s1, .error x))
                    ∧ (∀ s1 r, s.readStruct ag va.toNat 64 64 = (s1, .ok r) → part = (s1, .ok { Part.empty with task := some (r, va) }))))
            ∧ (0 < n → n ≤ 65536 → n % (if conv = 1 ∨ conv = 2 then 8 else 4) = 0 →
                (src % 4 ≠ 0 → part = (s, .error { cause := .align, detail := 0, write := false, addr := BitVec.ofNat 64 src }))
                ∧ (src % 4 = 0 → dst % 4 ≠ 0 → part = (s, .error { cause := .align, detail := 0, write := true, addr := BitVec.ofNat 64 dst }))
                ∧ (src % 4 = 0 → dst % 4 = 0 → brings → va.toNat % 64 ≠ 0 →
                    part = (s, .error { cause := .align, detail := 0, write := false, addr := va }))
                ∧ (src % 4 = 0 → dst % 4 = 0 → (brings → va.toNat % 64 = 0) →
                    (shadow = true →
                      (∀ x ∈ s.bindings, ¬ (x.tenant = ag.tenant ∧ x.asid = ag.asid ∧ x.b ≤ dst ∧ dst + out ≤ x.b + x.len)) →
                      part = (s, .error { cause := .scope, detail := 18, write := true, addr := BitVec.ofNat 64 dst }))
                    ∧ (shadow = true → ¬ brings → ∀ z, s.bindings = [z] → z.tenant = ag.tenant → z.asid = ag.asid → z.b ≤ dst →
                      dst + out ≤ z.b + z.len → ∀ s1 x s2 (y : Seg) o o', s.range ag src n .read = (s1, .ok x) →
                      s1.range ag dst out .claim = (s2, .ok ([{ y with loc := .vis z.id o }], o')) →
                      s2.homeUp (s2.paOf (.shd z.id o)) = true →
                      ∃ p, part = (s2.dirtied o', .ok p) ∧ p.shadows = [z.id] ∧ p.runs =
                        [{ tid := tid, src := x.1, dst := [{ y with loc := .shd z.id o }], dstPins := o', conv := conv }])
                    ∧ (shadow = false →
                      (∀ s1 x, s.range ag src n .read = (s1, .error x) → part = (s1, .error x))
                      ∧ (∀ s1 x s2 y, s.range ag src n .read = (s1, .ok x) → s1.range ag dst out .claim = (s2, .error y) →
                          part = (s2, .error y))
                      ∧ (∀ s1 x s2 y, s.range ag src n .read = (s1, .ok x) → s1.range ag dst out .claim = (s2, .ok y) →
                          let whole := fun (p : Part) => p.signals = [] ∧ p.pins = x.2 ++ y.2 ∧ p.runs =
                            [{ tid := tid, src := x.1, dst := y.1, dstPins := y.2, conv := conv }]
                          (¬ brings → ∃ p, part = (s2.dirtied y.2, .ok p) ∧ whole p ∧ p.task = none)
                          ∧ (brings → (∀ s3 z, s2.readStruct ag va.toNat 64 64 = (s3, .error z) → part = (s3, .error z))
                              ∧ (∀ s3 r, s2.readStruct ag va.toNat 64 64 = (s3, .ok r) →
                                  ∃ p, part = (s3.dirtied y.2, .ok p) ∧ whole p ∧ p.task = some (r, va)))))))))
    ∧ (∀ (s s1 : State) (g : Group) (d a b : Code) (pd : P3) (tid : Nat) (tm : Team) (h : Thread),
        s.team? g.team = some tm → tm.thread? tid = some h → s1.team? g.team = some tm →
        let e := s.env tm
        let ag := tm.engine tid
        let da := e.rd64 h d 0
        let i := (e.rd32 h a 2).toNat
        let n := (e.rd32 h b 4).toNat
        let part := State.xgathPart d a b pd g s tid
        (∀ x, s.readStruct ag da.toNat 32 32 = (s1, .error x) → part = (s1, .error x))
        ∧ ∀ r, s.readStruct ag da.toNat 32 32 = (s1, .ok r) →
            let base := fieldAt r 0 8
            let rowb := fieldAt r 8 4
            let dest := fieldAt r 16 8
            let slots := fieldAt r 24 4
            let fits := base % 16 = 0 ∧ rowb % 16 = 0 ∧ 16 ≤ rowb ∧ rowb ≤ 4096 ∧ dest % 16 = 0 ∧ 1 ≤ slots ∧ slots ≤ 1024 ∧
              fieldAt r 28 4 = 0
            let slot := dest + n * rowb
            (¬ fits → part = (s1, .error { cause := .scope, detail := 16, write := false, addr := BitVec.ofNat 64 da.toNat }))
            ∧ (fits → slots ≤ n → part = (s1, .error { cause := .scope, detail := 17, write := false, addr := 0 }))
            ∧ (fits → n < slots → (slot < scrBase ∨ 2 ^ 48 ≤ slot ∨ (slot < scrClus ∧ scrBase + tm.scratch < slot + rowb) ∨
                  (scrClus ≤ slot ∧ ∀ o, s1.scratchAt ag slot rowb ≠ some (tm.id, o))) →
                part = (s1, .error { cause := .scope, detail := 17, write := true, addr := 0 }))
            ∧ (fits → n < slots → ∀ o, ((scrBase ≤ slot ∧ slot < scrClus ∧ slot + rowb ≤ scrBase + tm.scratch ∧ o = slot - scrBase) ∨
                  (scrClus ≤ slot ∧ slot < 2 ^ 48 ∧ s1.scratchAt ag slot rowb = some (tm.id, o))) →
                let c := rowb / 16
                let run := fun (src : List Seg) => ({ tid := tid, src := src, dstPins := [], conv := 0
                                                      dst := (List.range c).map fun k => { loc := .scr tm.id (o + (k + n) % c * 16), len := 16 } } :
                                                    CopyRun)
                (fieldAt r 12 4 ≤ i → part = (s1, .ok { Part.empty with runs := [run []], pred := some (pd.toNat, false) }))
                ∧ (i < fieldAt r 12 4 →
                    (∀ s2 x, s1.range ag (base + i * rowb) rowb .read = (s2, .error x) → part = (s2, .error x))
                    ∧ (∀ s2 x, s1.range ag (base + i * rowb) rowb .read = (s2, .ok x) →
                        part = (s2, .ok { Part.empty with runs := [run x.1], pins := x.2, pred := some (pd.toNat, true) })))))
    ∧ ∀ (s : State) (g : Group) (d a : Code) (add : Bool) (tid : Nat) (tm : Team) (h : Thread),
        s.team? g.team = some tm → tm.thread? tid = some h →
        let e := s.env tm
        let ag := tm.engine tid
        let da := e.rd64 h a 0
        let part := State.xputsPart d a add g s tid
        (∀ s1 x, s.readStruct ag da.toNat 32 32 = (s1, .error x) → part = (s1, .error x))
        ∧ ∀ s1 r, s.readStruct ag da.toNat 32 32 = (s1, .ok r) →
            let src := fieldAt r 0 8
            let dst := fieldAt r 8 8
            let sig := fieldAt r 16 8
            let n := fieldAt r 24 4
            let no := fun (c : Cause) (k : Nat) (w : Bool) (at' : DWord) =>
              part = (s1, .error { cause := c, detail := k, write := w, addr := at' })
            (src % 4 ≠ 0 → no .align 0 false (BitVec.ofNat 64 src))
            ∧ (src % 4 = 0 → dst % 4 ≠ 0 → no .align 0 true (BitVec.ofNat 64 dst))
            ∧ (src % 4 = 0 → dst % 4 = 0 → sig % 4 ≠ 0 → no .align 0 true (BitVec.ofNat 64 sig))
            ∧ (src % 4 = 0 → dst % 4 = 0 → sig % 4 = 0 →
                (fieldAt r 28 4 ≠ 0 → no .scope 16 false da)
                ∧ (fieldAt r 28 4 = 0 → (1048576 < n ∨ n % 4 ≠ 0) → no .scope 14 false 0)
                ∧ (fieldAt r 28 4 = 0 → n ≤ 1048576 → n % 4 = 0 →
                    (∀ s2 x, s1.range ag src n .read = (s2, .error x) → part = (s2, .error x))
                    ∧ (∀ s2 x s3 y, s1.range ag src n .read = (s2, .ok x) → s2.range ag dst n .claim = (s3, .error y) →
                        part = (s3, .error y))
                    ∧ (∀ s2 x s3 y s4 z, s1.range ag src n .read = (s2, .ok x) → s2.range ag dst n .claim = (s3, .ok y) →
                        s3.range ag sig 4 .write = (s4, .error z) → part = (s4, .error z))
                    ∧ (∀ s2 x s3 y s4 z, s1.range ag src n .read = (s2, .ok x) → s2.range ag dst n .claim = (s3, .ok y) →
                        s3.range ag sig 4 .write = (s4, .ok z) →
                        part = (s4.dirtied y.2, .ok { Part.empty with
                          runs := if n = 0 then [] else [{ tid := tid, src := x.1, dst := y.1, dstPins := y.2, conv := 0 }]
                          signals := [{ tid := tid, dst := z.1, add := add, val := e.rd32 h d 4 }]
                          pins := x.2 ++ y.2 ++ z.2 })))))
  ∧ (∀ (s : State) (core id : Nat) (c : EngCmd) (tm : Team), s.cmds.find? (fun x => x.core = core ∧ x.id = id) = some c → s.Inv →
      s.team? c.team = some tm → tm.sup = false → (∀ h ∈ tm.threads, h.carving = none) →
      let up := fun pb n => ∀ x, pb ≤ x → x < pb + n → s.homeUp (lineOf x) = true
      let plain := c.bar = none ∧ c.task = none ∧ c.raced = []
      let counts := s.counts (ownerId tm.task.owner) = true
      ∃ t, exec (.engineCommandComplete core id []) s = .next t
        ∧ (∀ x ∈ t.cmds, ¬ (x.core = core ∧ x.id = id))
        ∧ (∀ j ∈ c.waiters, (∀ x ∈ s.cmds, ¬ (x.core = core ∧ x.id = id) → j ∉ x.waiters) →
            ∀ k tid h, t.thread? k tid = some h → ∀ p ∈ h.pend, p.hold ≠ some j)
        ∧ (∀ tid pa pb n p q pins, plain → c.runs = [{ tid := tid, src := [{ loc := .mem pa, len := n, pin := p }],
                                                       dst := [{ loc := .mem pb, len := n, pin := q }], dstPins := pins, conv := 0 }] → c.signals = [] → (pa + n ≤ pb ∨ pb + n ≤ pa) → up pb n →
            storedAtHome s t (tm.engine tid) false (.mem pb) n fun i => cellGet (pa + i) s.mem)
        ∧ (∀ tid pb n q pins conv, plain → c.runs = [{ tid := tid, src := [], dst := [{ loc := .mem pb, len := n, pin := q }], dstPins := pins,
                                                         conv := conv }] → c.signals = [] → up pb n →
            storedAtHome s t (tm.engine tid) false (.mem pb) n fun _ => 0)
        ∧ (∀ tid pa pb n p q pins conv src dst k o, plain →
            (conv, src, dst, k, o) ∈ [(1, FFmt.f32, FFmt.bf16, 4, 2), (2, .f32, .f16, 4, 2), (3, .bf16, .f32, 2, 4), (4, .f16, .f32, 2, 4)] →
            c.runs = [{ tid := tid, src := [{ loc := .mem pa, len := n * k, pin := p }], dst := [{ loc := .mem pb, len := n * o, pin := q }]
                        dstPins := pins, conv := conv }] → c.signals = [] → (pa + n * k ≤ pb ∨ pb + n * o ≤ pa) → up pb (n * o) →
            let el := fun i => convert dst src FOp.rne false false (leNat (cellsGet s.mem (pa + i * k) k))
            storedAtHome s t (tm.engine tid) false (.mem pb) (n * o) (fun i => (bytesLE o (el (i / o)).1).getD (i % o) 0)
            ∧ ∀ h, tm.thread? tid = some h → h.live = true → ∃ h', t.thread? c.team tid = some h' ∧
                ∀ f, f < 6 → (h'.flags.getLsbD f = true ↔ h.flags.getLsbD f = true ∨ ∃ i, i < n ∧ (el i).2.getLsbD f = true))
        ∧ (∀ tid pc q add v, plain → c.runs = [] →
            c.signals = [{ tid := tid, dst := [{ loc := .mem pc, len := 4, pin := q }], add := add, val := v }] → up pc 4 →
            let ag := tm.engine 0
            let new : Word := if add then BitVec.ofNat 32 (leNat ((List.range 4).map fun i => s.homeMem ag (pc + i))) + v else v
            storedAtHome s t ag false (.mem pc) 4 fun i => (bytesLE 4 new.toNat).getD i 0)
        ∧ (∀ (run : CopyRun → Nat × Nat × Nat) (word : Signal → Nat), plain →
            let from' := fun r => (run r).1
            let to' := fun r => (run r).2.1
            let len := fun r => (run r).2.2
            let lo := fun r => to' r / 8 * 8
            let hi := fun r => (to' r + len r + 7) / 8 * 8
            let blk := fun x => word x / 2 * 8
            (∀ r ∈ c.runs, copies r (from' r) (to' r) (len r) ∧ up (to' r) (len r)) →
            (∀ x ∈ c.signals, (∃ q, x.dst = [{ loc := .mem (4 * word x), len := 4, pin := q }]) ∧ up (4 * word x) 4) →
            c.runs.Pairwise (fun x y => apart (to' x) (len x) (to' y) (len y)) →
            (∀ x ∈ c.runs, ∀ y ∈ c.runs, apart (from' x) (len x) (lo y) (hi y - lo y)) →
            (∀ x ∈ c.signals, ∀ y ∈ c.runs, apart (blk x) 8 (from' y) (len y) ∧ apart (blk x) 8 (to' y) (len y)) →
            c.signals.Pairwise (fun x y => blk x ≠ blk y) →
            (∀ r ∈ c.runs, ∀ i, i < len r → cellGet (to' r + i) t.mem = cellGet (from' r + i) s.mem)
            ∧ (∀ x ∈ c.signals,
                let ag := tm.engine ((c.runs.map (·.tid)).headD 0)
                let old := BitVec.ofNat 32 (leNat ((List.range 4).map fun i => s.homeMem ag (4 * word x + i)))
                ∀ i, i < 4 → cellGet (4 * word x + i) t.mem = (bytesLE 4 (if x.add then old + x.val else x.val).toNat).getD i 0)
            ∧ ∀ a, (∀ r ∈ c.runs, ¬ (lo r ≤ a ∧ a < hi r)) → (∀ x ∈ c.signals, a / 8 * 8 ≠ blk x) → cellGet a t.mem = cellGet a s.mem)
        ∧ (∀ tid src n off k, plain → c.signals = [] → 0 < n →
            c.runs = [{ tid := tid, src := src, dstPins := [], conv := 0
                        dst := (List.range n).map fun i => { loc := .scr tm.id (off + (i + k) % n * 16), len := 16 } }] →
            (src = [] ∨ ∃ pa q, src = [{ loc := .mem pa, len := 16 * n, pin := q }]) →
            (∀ a, cellGet a t.mem = cellGet a s.mem) ∧ ∃ tm', t.team? tm.id = some tm' ∧
              (∀ a, (a < off ∨ off + 16 * n ≤ a) → cellGet a tm'.mem = cellGet a tm.mem)
              ∧ (src = [] → ∀ a, off ≤ a → a < off + 16 * n → cellGet a tm'.mem = 0)
              ∧ ∀ pa q, src = [{ loc := .mem pa, len := 16 * n, pin := q }] → ∀ i j, i < n → j < 16 →
                  cellGet (off + (i + k) % n * 16 + j) tm'.mem = cellGet (pa + 16 * i + j) s.mem)
        ∧ (∀ n ph, c.bar = some (n, ph) → c.task = none → n < tm.bars.length →
            let b := tm.bar n
            let after := fun x => ∃ tm', t.team? c.team = some tm' ∧ tm'.bar n = x
            (¬ counts → after b)
            ∧ (counts → b.phase = ph →
                (¬ (b.arrived = b.members ∧ b.pending - 1 = 0) → after { b with pending := b.pending - 1 })
                ∧ (b.arrived = b.members → b.members ≠ 0 → b.pending - 1 = 0 → ∃ tm', t.team? c.team = some tm' ∧
                    (tm'.bar n).phase = ph + 1 ∧ (tm'.bar n).arrived = 0 ∧ (tm'.bar n).done1 = b.value ∧ (tm'.bar n).done2 = b.done1)))
        ∧ (∀ r addr, c.task = some (r, addr) → c.bar = none →
            let u := (s.moveCmd c []).dropCmd c
            let x := taskOf r tm.task.owner addr 0
            (¬ counts → t.clusters = u.clusters)
            ∧ (counts → taskBytesOk r = true → ((u.seenTask r x).taskKernel x).isSome = true → (u.cluster c.cluster).deque.length < 1024 →
                ∃ k, (t.cluster c.cluster).deque = (u.cluster c.cluster).deque ++ [{ x with order := k }])))

/-- R320 to R322: XSHAD binds the two ranges its rules allow, as a binding whose B and S it names, or traps: SCOPE 19 where B or S
is no multiple of 4 KiB or meets a bound range, the length is no multiple of 4 KiB or above 64 MiB, or they overlap; what the
checks of its pages find; SCOPE 20 where the home has 16. While it is bound, an access to B reaches the visible storage at its home
and one to S traps PERM 4. With a length of
0 it ends the binding at B, at once where no command writes its shadow and no swap waits, and traps SCOPE 21 where there
is none. XPUBB exchanges what the two ranges show, at once where its team has no command on the shadow and no swap
waits; otherwise both words wait for their event, which performs them.
What the tables show after an unbind is log 18, FADDR of a refused XSHAD log 50, that bindings are found by virtual address log
81. -/
def Obligations.ShadowBuffers : Prop :=
  (∀ (s : State) (g : Group) (rest : List Group) (d a b : Code), s.groups = g :: rest → (s.present g).Nodup →
    let acked := fun (s t : State) (tm : Team) (hold : Option Nat) => ∀ u ∈ s.present g, ∀ k, tm.thread? u = some k →
      t.thread? g.team u = some (k.launch { ack .wx with hold := hold })
    RunsOnce (.xshad d a b) s g (fun s tm h t =>
      let ag := tm.agent h.tid
      let va := ((s.env tm).rd64 h d 0).toNat
      let sh := ((s.env tm).rd64 h a 2).toNat
      let len := ((s.env tm).rd32 h b 4).toNat
      (len = 0 → s.bindingOf ag va = none → t = s.trap g h.tid (bad .scope 21))
      ∧ (len = 0 → ∀ x, s.bindingOf ag va = some x → s.homeUp x.home = false → t = s.trap g h.tid (homeDown (BitVec.ofNat 64 va) true))
      ∧ (len = 0 → ∀ x, s.bindingOf ag va = some x → s.homeUp x.home = true →
          (s.shadowCmds x.id none = [] → x.swaps = [] → t.bindings = s.bindings.filter (·.id ≠ x.id) ∧ acked s t tm none)
          ∧ ((s.shadowCmds x.id none ≠ [] ∨ x.swaps ≠ []) → ∃ j, acked s t tm (some j) ∧
              t.bindings = s.bindings.map fun y => if y.id = x.id then { y with unbinds := y.unbinds ++ [j] } else y))
      ∧ (len ≠ 0 →
          let no := fun (va : Nat) => ({ cause := .scope, detail := 19, write := true, addr := BitVec.ofNat 64 va } : Bad)
          let meets := fun (a n b m : Nat) => a < b + m ∧ b < a + n
          let wrong := fun (a : Nat) => a % 4096 ≠ 0 ∨ ∃ x ∈ s.bindings, x.tenant = ag.tenant ∧ x.asid = ag.asid ∧
            (meets a len x.b x.len ∨ meets a len x.s x.len)
          (wrong va → t = s.trap g h.tid (no va))
          ∧ (¬ wrong va → wrong sh → t = s.trap g h.tid (no sh))
          ∧ (¬ wrong va → ¬ wrong sh → (len % 4096 ≠ 0 ∨ 2 ^ 26 < len ∨ meets va len sh len) → t = s.trap g h.tid (no va))
          ∧ (¬ wrong va → ¬ wrong sh → len % 4096 = 0 → len ≤ 2 ^ 26 → ¬ meets va len sh len →
              (∀ s1 x, s.range ag va len .claim = (s1, .error x) → t = s1.trap g h.tid x)
              ∧ (∀ s1 v s2 x, s.range ag va len .claim = (s1, .ok v) → s1.range ag sh len .claim = (s2, .error x) →
                  t = s2.trap g h.tid x)
              ∧ (∀ s1 v s2 w y l, s.range ag va len .claim = (s1, .ok v) → s1.range ag sh len .claim = (s2, .ok w) → v.1 = y :: l →
                  (∀ z ∈ v.1 ++ w.1, ∃ pa, z.loc = .mem pa) →
                  let there := s2.bindings.filter fun x => sameHome x.home (s2.paOf y.loc)
                  (16 ≤ there.length → t = s2.trap g h.tid (bad .scope 20))
                  ∧ (there.length < 16 → ∃ z, t.bindings = s2.bindings ++ [z] ∧ z.home = s2.paOf y.loc ∧
                      z.visible = v.1.map (fun x => s2.paOf x.loc) ∧ z.shadow = w.1.map (fun x => s2.paOf x.loc))))
          ∧ (∀ s1 x, s.bind ag va sh len = (s1, .error x) → t = s1.trap g h.tid x)
          ∧ (∀ s1 x, s.bind ag va sh len = (s1, .ok x) → (∀ u k, tm.thread? u = some k → s1.thread? g.team u = some k) →
              s1.present g = s.present g → acked s t tm none ∧
              ∃ y, t.bindings = s.bindings ++ [y] ∧ y.b = va ∧ y.s = sh ∧ y.len = len ∧ y.tenant = ag.tenant ∧ y.asid = ag.asid ∧
                y.swaps = [] ∧ y.unbinds = [])))
    ∧ RunsOnce (.xpubb a) s g (fun s tm h t =>
      let ag := tm.agent h.tid
      let va := (s.env tm).rd64 h a 0
      (s.bindingOf ag va.toNat = none → t = s.trap g h.tid (bad .scope 21))
      ∧ (∀ x, s.bindingOf ag va.toNat = some x → s.homeUp x.home = false → t = s.trap g h.tid (homeDown va true))
      ∧ ∀ x, s.bindingOf ag va.toNat = some x → s.homeUp x.home = true →
          let wait := s.shadowCmds x.id (some tm.id)
          (wait = [] → x.swaps = [] → acked s t tm none ∧
            t.bindings = s.bindings.map fun y => if y.id = x.id then { y with visible := y.shadow, shadow := y.visible } else y)
          ∧ ((wait ≠ [] ∨ x.swaps ≠ []) → ∃ j, acked s t tm (some j) ∧
              t.bindings = s.bindings.map fun y => if y.id = x.id then { y with swaps := y.swaps ++ [(j, wait)] } else y)))
  ∧ (∀ (s : State) (id : Nat) (x : Binding), s.bindings.find? (·.id = id) = some x → s.homeUp x.home = true →
      ∃ t, exec (.shadowUnbind id) s = .next t ∧
        (x.unbinds ≠ [] → s.shadowCmds id none = [] → x.swaps = [] → (∀ y ∈ t.bindings, y.id ≠ id) ∧
          ∀ k tid h, t.thread? k tid = some h → ∀ p ∈ h.pend, ∀ j ∈ x.unbinds, p.hold ≠ some j)
        ∧ ((x.unbinds = [] ∨ s.shadowCmds id none ≠ [] ∨ x.swaps ≠ []) → t = s))
  ∧ (∀ (s s1 : State) (ag : Agent) (va n : Nat) (kind : Kind) (e : TlbEntry) (x : Binding), inWindow va = false →
      s.leafFor ag.core ag.direct ag.tenant ag.asid va kind = (s1, .ok e) →
      (kind.writes = true → e.write = true) → (e.sup = true → ag.sup = true) → (kind = .fetch → e.xn = false) →
      x ∈ s1.bindings → x.tenant = ag.tenant → x.asid = ag.asid →
      (∀ y ∈ s1.bindings, y.tenant = ag.tenant → y.asid = ag.asid →
        ((y.b ≤ va ∧ va < y.b + y.len) ∨ (y.s ≤ va ∧ va < y.s + y.len)) → y = x) →
      let off := va - x.b
      let frame := x.visible.getD (off / 4096) 0
      let no := fun (c : Cause) (k : Nat) =>
        s.place ag va n kind = (s1, .error { cause := c, detail := k, write := kind.writes, addr := BitVec.ofNat 64 va })
      (x.s ≤ va → va < x.s + x.len → ¬ (x.b ≤ va ∧ va < x.b + x.len) → no .perm (if kind = .fetch then 20 else 4))
      ∧ (x.b ≤ va → va < x.b + x.len →
          (e.psn = true → no .poison 0)
          ∧ (e.psn = false → s1.homeUp frame = false → no .homedown 0)
          ∧ (e.psn = false → s1.homeUp frame = true → (∃ p, s.place ag va n kind = (s1, .ok (.vis x.id off, some p))) ∧
              ((∀ y ∈ s1.bindings, y.id = x.id → y = x) → ∀ hint i,
                s1.seenByte ag va (.vis x.id off) hint i = s1.homeMem ag (frame + off % 4096 + i)))))
  ∧ ∀ (s : State) (id : Nat) (x : Binding) (y : Nat × List Nat) (l : List (Nat × List Nat)),
      s.bindings.find? (·.id = id) = some x → s.homeUp x.home = true → x.swaps = y :: l →
      (∀ c ∈ y.2, ∀ k ∈ s.cmds, k.id ≠ c) → y ∉ l →
      ∃ t z, exec (.shadowSwap id) s = .next t ∧ t.bindings.find? (·.id = id) = some z ∧
        z = { x with visible := x.shadow, shadow := x.visible, swaps := l } ∧
        ∀ k tid h, t.thread? k tid = some h → ∀ p ∈ h.pend, p.hold ≠ some y.1

/-! ### Issue, results in flight and traps (R40, R54, R326 to R336) -/

/-- R40, R41, R55: a free pipe of a core draws nothing where no source is full, held or 64 cycles old; otherwise it takes the
oldest aged source, failing that the oldest quick one, and of its ready threads the up to 32 oldest, in ascending
order; they issue the clause at their PC from their word on, and their next PC is the clause that follows, or each takes
the trap that fetch and check found. As a clause that is no ALU clause starts, what ring-set words of the thread have
on its way returns (log 100). The control core takes a ready stream of its cluster, but a yielded one only after 64 cycles
(log 100).

R54 to R56: a word in flight that nothing holds returns: its registers and predicates take its results, its flags are
raised, its counter goes down by one, the thread's other registers, predicates and counters stay; a parked thread is
filed once nothing of it is in flight. A release has the thread's memory words before it return first (R133, log 100). (An MDRAIN waits for its tile's writers, R225; what the return lets go on, at a tile or in a
CARVE, is said with those words.)
Yielded threads in a full bin are log 88, early reads and races of writes log 7. -/
def Obligations.IssueAndReturn : Prop :=
  ((∀ (s : State) (c pipe : Nat), s.phase = .open → pipe < 2 → (∀ g ∈ s.groups, ¬ (g.ctl = false ∧ g.unit = c ∧ g.pipe = pipe)) →
        (∀ tm ∈ s.teams, ∀ h ∈ tm.threads, h.status ≠ .parked) →
      ∃ t, exec (.issueGroupDraw false c pipe) s = .next t
        ∧ ((∀ x ∈ s.sources c, s.clock < x.age + 64 ∧ x.quick = false) → t = s)
        ∧ ((∃ x ∈ s.sources c, x.age + 64 ≤ s.clock ∨ x.quick = true) → ∃ x ∈ s.sources c,
            (x.age + 64 ≤ s.clock ∨ x.quick = true)
            ∧ (∀ y ∈ s.sources c, y.age + 64 ≤ s.clock → x.age + 64 ≤ s.clock ∧ x.before y = true)
            ∧ (s.clock < x.age + 64 → ∀ y ∈ s.sources c, y.quick = true → x.before y = true)
            ∧ (s.team? x.team.id = some x.team → (∀ h ∈ x.threads, x.team.thread? h.tid = some h) →
                ∃ (l : List Thread) (tids : List Nat) (teams : List Team),
                  l.length = min 32 x.threads.length
                  ∧ (∀ h ∈ l, h ∈ x.threads ∧ ∀ k ∈ x.threads, k ∉ l → h.age ≤ k.age)
                  ∧ tids.Pairwise (· ≤ ·) ∧ tids.Perm (l.map (·.tid))
                  ∧ ∀ h ∈ l, ∀ s1,
                    (∀ u, ({ s with teams := teams } : State).fetchClause x.team false h.handler (tids.headD 0) h.pc h.word =
                        (s1, .error u) →
                      t.groups = s.groups ∧ ∀ k ∈ l, t.thread? x.team.id k.tid = some { k with status := .trapped u })
                    ∧ (∀ ws, ({ s with teams := teams } : State).fetchClause x.team false h.handler (tids.headD 0) h.pc h.word =
                        (s1, .ok ws) →
                      ∃ g, t.groups = g :: s.groups ∧ g.ctl = false ∧ g.unit = c ∧ g.pipe = pipe ∧ g.team = x.team.id
                        ∧ g.handler = h.handler ∧ g.header = h.pc ∧ g.idx = max h.word 1 ∧ g.words = ws ∧ g.slots = tids
                        ∧ ∀ k ∈ l, ∃ k', t.thread? x.team.id k.tid = some { k' with
                            status := .issuing, pc := h.pc + 4 * ws.length, word := 0, refile := false, yielded := false, exempt := false }
                          ∧ ((g.cls = 0 ∨ ∀ p ∈ k.pend, ¬ (p.tie = .ring ∧ p.hold = none)) → k' = k)
                          ∧ (g.cls ≠ 0 → (∀ p ∈ k'.pend, ¬ (p.tie = .ring ∧ p.hold = none)) ∧
                              (∀ i, (∀ p ∈ k.pend, ∀ r ∈ p.regs, r.idx ≠ i) → k'.raw i = k.raw i) ∧
                              ∀ p, k.pend = [p] → p.tie = .ring → p.hold = none → (p.regs.map (·.idx)).Nodup → k.ctl = false →
                                ∀ r ∈ p.regs, r.clash = false → r.idx < k.v.length → k'.raw r.idx = (r.val.setWidth 32).setWidth 64)))))
    ∧ ∀ (s : State) (cl : Nat) (tm : Team) (h : Thread), s.phase = .open →
        (∀ g ∈ s.groups, ¬ (g.ctl = true ∧ g.unit = cl ∧ g.pipe = 0)) →
        (∀ tm ∈ s.teams, ∀ h ∈ tm.threads, h.status ≠ .parked) → s.team? tm.id = some tm → tm.thread? tidCtl = some h →
        h.ctl = true → h.status = .ready → (h.yielded = false ∨ h.age + 64 ≤ s.clock) → s.readyOf tm [h] ≠ [] → clusOf tm.core = cl → tm.state = .run →
        (∀ x ∈ s.teams, clusOf x.core = cl → x.state = .run → (∃ k ∈ x.threads, k.ctl = true ∧ k.status = .ready) → x = tm) →
      ∃ t, exec (.issueGroupDraw true cl 0) s = .next t ∧ (t.cluster cl).lastStream = tm.id
        ∧ ∀ s1 ws, (s.modCluster cl fun x => { x with lastStream := tm.id }).fetchClause tm true false tidCtl h.pc h.word =
            (s1, .ok ws) →
          ∃ g, t.groups = g :: s.groups ∧ g.ctl = true ∧ g.unit = cl ∧ g.pipe = 0 ∧ g.team = tm.id ∧ g.header = h.pc
            ∧ g.idx = max h.word 1 ∧ g.words = ws ∧ g.slots = [tidCtl])
  ∧ (∀ (s : State) (team tid idx : Nat) (tm : Team) (h : Thread) (p : Pending), s.team? team = some tm → tm.thread? tid = some h →
      h.pend[idx]? = some p → p.hold = none → (∀ r ∈ p.regs, r.clash = false) → (∀ r ∈ p.preds, r.clash = false) →
      (p.regs.map (·.idx)).Nodup → (p.preds.map (·.idx)).Nodup →
      (∀ x ∈ tm.threads, x.carving = none ∧ ∀ q ∈ x.pend, ∀ n ∈ p.drains, n ∉ q.writes) →
      (∀ x ∈ (s.cluster (clusOf tm.core)).tiles, x.after = []) →
      (p.bank ≠ none → ∀ x ∈ s.teams, ∀ k ∈ x.threads, ∀ b, k.status = .blocked b → b.wait.ctr ≠ some .wt) →
      let with' := if p.tie = .release then (h.pend.take idx).filter Pending.memory else []
      let lands := fun (h' : Thread) (r : RegWrite) => r.idx < (if h.ctl then h.c.length else h.v.length) →
        h'.raw r.idx = if h.ctl then (if r.idx = 0 then 0 else r.val) else (r.val.setWidth 32).setWidth 64
      ∃ t h', exec (.resultReturn team tid idx) s = .next t ∧ t.thread? team tid = some h'
        ∧ (with' = [] → (∀ r ∈ p.regs, lands h' r) ∧ (∀ r ∈ p.preds, r.idx < 7 → h'.rawPred r.idx = r.val)
            ∧ h'.flags = h.flags ||| p.flags)
        ∧ (∀ q ∈ p :: with', (q.regs.map (·.idx)).Nodup → (∀ q' ∈ h.pend, q' ≠ q → ∀ r ∈ q.regs, ∀ r' ∈ q'.regs, r'.idx ≠ r.idx) →
            ∀ r ∈ q.regs, r.clash = false → lands h' r)
        ∧ (∀ k, (∀ q ∈ p :: with', ∀ r ∈ q.regs, r.idx ≠ k) → h'.raw k = h.raw k)
        ∧ (∀ k, (∀ q ∈ p :: with', ∀ r ∈ q.preds, r.idx ≠ k) → h'.rawPred k = h.rawPred k)
        ∧ (∀ f, f < 6 → (h'.flags.getLsbD f = true ↔ h.flags.getLsbD f = true ∨ ∃ q ∈ p :: with', q.flags.getLsbD f = true))
        ∧ (∀ c, h'.count c + ((p :: with').filter (·.ctr = c)).length = h.count c)
        ∧ (h.status ≠ .parked → h'.status = h.status)
        ∧ (h.status = .parked → h.pend.length = 1 → h'.status = .ready ∨ h'.status = .spill ∨ ∃ n, h'.status = .bin n))

/-- R326 to R332: a trap waits until nothing of its thread is in flight; then FAULT, FADDR and FPC are written and it takes
its road: a control stream's is CTLTRAP; a supervisor task's, and a user task's other than XLATE and PERM, enters the
handler, at the handler's first clause with the handler bit set, and without a handler or inside it is fatal as NOHANDLER with the
original cause in DETAIL; XLATE and PERM of a user task halt and suspend the team with the first thread's record, leave a later
thread at its word, and are SAVEFAIL 1 where FLAND is 0. A team whose owner was stopped has no road left.
That later threads write FAULT too is log 55, the road of a supervisor's XLATE and PERM log 56. -/
def Obligations.TrapsTakeTheirRoad : Prop :=
  ∀ (s : State) (team tid : Nat) (tm : Team) (h : Thread) (u : Trap), s.team? team = some tm → tm.thread? tid = some h →
    h.status = .trapped u →
    (h.pend ≠ [] → exec (.trapDeliver team tid) s = .next s)
    ∧ (h.pend = [] → (tm.sup = false → h.ctl = false → u.toSupervisor = true → tm.beforeIt tid u = false) →
      ∃ t, exec (.trapDeliver team tid) s = .next t ∧
        let h1 := h.takeTrap u
        let handler := tm.kern.handler ≠ 0 ∧ h.handler = false
        let mine := fun (st : Thread → Prop) => ∃ k, t.thread? team tid = some k ∧ st k
        let entered := mine fun k => (k.status = .spill ∨ ∃ n, k.status = .bin n) ∧
          { k with status := h.status } = { h1 with
            handler := true, pc := (tm.task.kernel.toNat + tm.kern.handler) % 2 ^ 48, word := 0, yielded := false, age := s.clock
            refile := false, waitAt := none }
        let fatal := fun (code detail : Nat) =>
          t.thread? team tid = some { h1 with status := .faulted u } ∧ raised s t tm tid code detail u
        (tm.stopped = true → t.thread? team tid = some { h1 with status := .faulted u } ∧ t.fatals = s.fatals)
        ∧ (tm.stopped = false → h.ctl = true → fatal 0x24 u.cause.toNat)
        ∧ (tm.stopped = false → h.ctl = false → (tm.sup = true ∨ (u.cause ≠ 3 ∧ u.cause ≠ 4)) →
            (handler → entered) ∧ (¬ handler → fatal 0x23 u.cause.toNat))
        ∧ (tm.stopped = false → h.ctl = false → tm.sup = false → (u.cause = 3 ∨ u.cause = 4) →
            (s.regs.fland = 0 → fatal 0x25 1)
            ∧ (s.regs.fland ≠ 0 → ∃ x, t.team? team = some x ∧ t.fatals = s.fatals
                ∧ (x.state = if tm.state = .run then .halt else tm.state)
                ∧ (tm.record = none → x.susp = true ∧ x.record = some u ∧ x.recordTid = tid ∧ x.posted = false ∧ x.faultAt = s.clock
                    ∧ t.thread? team tid = some { h1 with status := .faulted u })
                ∧ (tm.record ≠ none → x.record = tm.record ∧ filedAt t team tid h1 (u.header % 2 ^ 48) (u.word % 16)))))

/-- R332 to R334, R361: a suspended team's record is pushed once into the open supervisor fault landing, or SAVEFAIL 1 is raised
where that landing is missing or takes no push; it waits while the landing's home is out of service and, as any push, behind the
pushes that arrived there before it (R148), its own arrival being the suspension (log 124); with the team a victim or saved, a verdict ends the suspension: RETRY
files the thread at its failing word, USER enters the handler with SUPRET set or raises NOHANDLER, KILL raises KILLED.
Where FLAND points is log 39. -/
def Obligations.FaultRecordsAndVerdicts : Prop :=
  (∀ (s : State) (team : Nat) (tm : Team) (u : Trap), s.team? team = some tm → tm.susp = true → tm.record = some u →
      tm.stopped = false →
      let s0 := s.touched rtWindow (s.regs.rtasid.toNat % 4096) s.regs.fland.toNat false
      (tm.posted = true → exec (.faultRecordPost team) s = .next s)
      ∧ (tm.posted = false → (∀ l, s0.faultLanding = some l → l.state ≠ .opened ∧ s0.landDown l = false) →
          ∃ t, exec (.faultRecordPost team) s = .next t ∧ raised s t tm tm.recordTid 0x25 1 u
            ∧ t.team? team = some { tm with posted := true })
      ∧ (∀ l, tm.posted = false → s0.faultLanding = some l → s0.landDown l = true → exec (.faultRecordPost team) s = .next s0)
      ∧ (∀ l, tm.posted = false → s0.faultLanding = some l → s0.landDown l = false → l.state = .opened → l.inSlots < l.slots →
          (∀ w ∈ s0.waiters l.id true, w ≠ (tm.postAt, team, tidRecord) → tm.postAt < w.1) → s0.landing? l.id = some l →
          l.expert = none →
          ∃ t r l', exec (.faultRecordPost team) s = .next t ∧ t.team? team = some { tm with posted := true }
            ∧ t.landing? l.id = some l' ∧ l' = { l with waiting := l.waiting ++ [r] }
            ∧ recordSays r.data tm tm.recordTid u.cause.toNat u.detail.toNat u ∧ r.ovf = false
            ∧ leNat ((r.data.drop 40).take 8) = (s.slotAddr tm) % 2 ^ 64)
      ∧ (∀ l, tm.posted = false → s0.faultLanding = some l → s0.landDown l = false → l.state = .opened → l.inSlots < l.slots →
          (∃ w ∈ s0.waiters l.id true, w.1 < tm.postAt) → exec (.faultRecordPost team) s = .next s0))
  ∧ ∀ (s : State) (team : Nat) (tm : Team) (u : Trap) (h : Thread), s.team? team = some tm → tm.susp = true →
      tm.record = some u → (tm.state = .victim ∨ tm.state = .saved) → tm.thread? tm.recordTid = some h → h.ctl = false →
      let ends := fun (t : State) => ∃ x, t.team? team = some x ∧ x.susp = false ∧ x.record = none ∧ x.state = tm.state
      (tm.verdict = 1 → ∃ t, exec (.verdictRetry team) s = .next t ∧ ends t
        ∧ filedAt t team tm.recordTid h (u.header % 2 ^ 48) (u.word % 16) ∧ t.fatals = s.fatals)
      ∧ (tm.verdict = 2 → ∃ t, exec (.verdictUser team) s = .next t ∧ ends t
          ∧ (tm.kern.handler ≠ 0 → h.handler = false → t.fatals = s.fatals ∧
              filedAt t team tm.recordTid { h with fault := h.fault ||| 0x8000#32, handler := true, waitAt := none }
                ((tm.task.kernel.toNat + tm.kern.handler) % 2 ^ 48) 0)
          ∧ ((tm.kern.handler = 0 ∨ h.handler = true) → raised s t tm tm.recordTid 0x23 u.cause.toNat u))
      ∧ (tm.verdict = 3 → ∃ t, exec (.verdictKill team) s = .next t ∧ ends t ∧ raised s t tm tm.recordTid 0x26 u.cause.toNat u)

/-- R122, R139, R327: the watchdog withdraws a blocked word of a running team after more than 65,536 · WDOG cycles, and the
thread traps WDOG at the word, its opcode as DETAIL, a BSYNC with its arrival kept beside those that are kept already; not before,
and not with WDOG 0. A soft error that is corrected has no effect, any other raises MACHINE for the owner of the state (its FAULT
with CLASS and WRITE 0: log 73).

R335, R337, R354: fatal causes stop an active or pre-empted tenant: nothing of it runs, waits in a deque or is launched any
more, what runs only drains and is discarded when it has, and the credits of its launches stay held; for any other tenant they are
without effect. Each cause's record is posted, in the order of the causes: the n-th of a log, counted by its POSTED, at 64 + 64 * (n
mod 63), POSTED one more, and a vector; the log is the tenant's, the device's where the tenant has none, and without either nothing
is written (R336). A supervisor's cause posts to the device log and resets the device runtime: its tasks are gone or drain, and
RTFAIL is set until a write clears it.
Credits of stopped launches are log 57, the kept arrival log 52, WRITE of LPUSH's WDOG log 34; that a vector fires without a log
is log 75, several causes at once log 77. -/
def Obligations.WatchdogStopsAndResets : Prop :=
  ((∀ (s : State) (team tid : Nat) (tm : Team) (h : Thread) (b : Block), s.team? team = some tm → tm.thread? tid = some h →
        h.status = .blocked b → tm.state = .run → b.wait.watched = true →
        let wdog := (s.tenant (ownerId tm.task.owner)).wdog.toNat
        ((wdog = 0 ∨ s.clock ≤ b.since + 65536 * wdog) → exec (.wdogExpire team tid) s = .next s)
        ∧ (wdog ≠ 0 → b.since + 65536 * wdog < s.clock → ∃ t u, exec (.wdogExpire team tid) s = .next t
            ∧ u.cause = 0x0D ∧ u.detail = BitVec.ofNat 20 b.opcode ∧ u.header = b.header ∧ u.word = b.word
            ∧ t.thread? team tid = some { h with
                status := .trapped u
                arrivals := (match b.wait with
                  | .bsync n ph _ _ => [{ bar := n, phase := ph, header := b.header, word := b.word, value := none }]
                  | _ => []) ++ h.arrivals }))
    ∧ ∀ (s : State) (team : Nat) (kind : BitVec 2) (tm : Team), s.team? team = some tm →
        (kind = 0 → exec (.softError team kind) s = .next s)
        ∧ (kind ≠ 0 → ∃ f, exec (.softError team kind) s = .next { s with fatals := s.fatals ++ [f] } ∧ f.tenant = tm.tenant
            ∧ f.sup = tm.sup ∧ leNat (f.record.take 4) = kind.toNat * 4096 + 0x27
            ∧ leNat ((f.record.drop 4).take 4) = tm.task.owner.toNat))
  ∧ ((∀ (s : State) (tenant : Nat), tenant < 64 →
        let mine := s.fatals.filter fun f => !f.sup && f.tenant == tenant
        (mine = [] → exec (.tenantStop tenant) s = .next s)
        ∧ (mine ≠ [] → (s.tenant tenant).state ≠ .active → (s.tenant tenant).state ≠ .preempted →
            exec (.tenantStop tenant) s = .next { s with fatals := s.fatals.filter fun f => !(!f.sup && f.tenant == tenant) })
        ∧ (mine ≠ [] → ((s.tenant tenant).state = .active ∨ (s.tenant tenant).state = .preempted) →
            ∃ t, exec (.tenantStop tenant) s = .next t ∧ (t.tenant tenant).state = .stopped
              ∧ (∀ x ∈ t.teams, ownerId x.task.owner = tenant → x.state = .halt ∧ x.stopped = true) ∧ (∀ x ∈ t.launches, x.tenant ≠ tenant)
              ∧ (∀ c ∈ t.clusters, ∀ x ∈ c.deque, ownerId x.owner ≠ tenant) ∧ (t.tenant tenant).spilled = []
              ∧ t.creditsUsed tenant = s.creditsUsed tenant
              ∧ (let flog := (s.tenant tenant).flog.toNat
                 let base := if flog = 0 then s.regs.devlog.toNat else flog
                 (quietOwner s tenant → logsPosted s t base (mine.map (·.record)))
                 ∧ vectorsFired s t mine.length (if flog = 0 then 0 else tenant + 1))))
    ∧ (∀ s : State,
        ((∀ f ∈ s.fatals, f.sup = false) → exec .deviceRuntimeReset s = .next s)
        ∧ ((∃ f ∈ s.fatals, f.sup = true) → ∃ t, exec .deviceRuntimeReset s = .next t ∧ t.regs.rtfail = true
            ∧ (∀ x ∈ t.teams, x.sup = true → x.state = .halt ∧ x.stopped = true) ∧ (∀ c ∈ t.clusters, ∀ x ∈ c.deque, ownerSup x.owner = false)
            ∧ (let mine := s.fatals.filter (·.sup)
               (quietOwner s rtWindow → logsPosted s t s.regs.devlog.toNat (mine.map (·.record))) ∧ vectorsFired s t mine.length 0)))
    ∧ (∀ (s : State) (team : Nat) (tm : Team), s.team? team = some tm → tm.stopped = true →
        (s.drainedTeam tm = false → exec (.teamDrainComplete team) s = .next s)
        ∧ (s.drainedTeam tm = true → ∃ t, exec (.teamDrainComplete team) s = .next t ∧ t.team? team = none))
    ∧ ∀ s : State, exec .rtfailClear s = .next { s with regs := { s.regs with rtfail := false } })

/-! ### Launches, placement and stopped teams (R30 to R33, R285 to R301, R337 to R340) -/

/-- R285 to R289, R353: a write to a tenant's window drops with the code of the first check it fails, and with no other
effect than DROPS and LASTDROP: 6 for a tenant that is neither active nor pre-empted, 1 unless it is one slot, 2 with no
credit free, 3 for a zero dimension or a nonzero reserved bit, 4 unless its sequence comes after its queue's last one, 5
for a dependence on itself or later; else it is accepted with its fields, takes a credit, becomes its queue's last
sequence, and is ready at once where it names no dependence. Beyond the slots a write is discarded.

R32, R292 to R294, R298: the rank of a launch is that of R292; with fewer than 8 active, a ready launch of lowest rank
becomes active, with every constant cache empty (R126); a launch that is late is counted once; an active launch that no better one precedes offers its next task,
with the next coordinate of its grid, to the first cluster after the one used last on which a core that may take it has room: one to
which no stopped team of a launch that ranks before it can come back (R301) and that is not kept for a launch that has starved (R293);
of such cores the task takes the one with the fewest resident threads, the lowest number between equals (R294). A launch whose
kernel is unmapped or breaks R29 posts TASKREC (log 54), its FAULT with CLASS and WRITE 0 (log 73). FILL is sampled by stage once in
every 1,024 cycles.
How a core is kept is log 60, a write beyond the slots log 70, launches of a pre-empted tenant log 58, the clock's advance log
3. -/
def Obligations.LaunchesQueueAndAdvance : Prop :=
  (∀ (s : State) (w off : Nat) (b : List Byte), s.phase = .open → w ≤ 64 →
      let fld := fun o n => leNat ((b.drop o).take n)
      let t0 := s.tenant w
      let q := fld 40 4 / 2 ^ 24 % 16
      let seq := fld 40 4 % 2 ^ 24
      let after := fun (a b : Nat) => 1 ≤ (a + 2 ^ 24 - b) % 2 ^ 24 ∧ (a + 2 ^ 24 - b) % 2 ^ 24 ≤ 8388607
      let own := fun (d : Nat) => d / 2 ^ 31 = 1 ∧ d / 2 ^ 24 % 16 = q ∧ (d % 2 ^ 24 = seq ∨ after (d % 2 ^ 24) seq)
      let c6 := t0.state ≠ .active ∧ t0.state ≠ .preempted
      let c1 := off % 64 ≠ 0 ∨ b.length ≠ 64
      let c2 := t0.ctrl.toNat / 8 % 512 ≤ (s.launches.filter fun l => l.tenant = w).length + t0.lost
      let c3 := fld 16 4 = 0 ∨ fld 20 4 = 0 ∨ fld 24 4 = 0 ∨ fld 56 8 ≠ 0 ∨ fld 40 4 / 2 ^ 28 ≠ 0 ∨ fld 44 4 / 2 ^ 28 % 8 ≠ 0
        ∨ fld 48 4 / 2 ^ 28 % 8 ≠ 0
      let c4 := ∃ a, (t0.queue q).last = some a ∧ ¬ after seq a
      let c5 := own (fld 44 4) ∨ own (fld 48 4)
      let drops := fun (code : Nat) => ∃ t, exec (.launchWindowWrite w off b) s = .next t ∧ t.launches = s.launches
        ∧ t.tenant w = { t0 with drops := min 4095 (t0.drops + 1), lastdrop := code } ∧ ∀ x, x ≠ w → t.tenant x = s.tenant x
      (0x800 ≤ off → exec (.launchWindowWrite w off b) s = .next s)
      ∧ (off < 0x800 → t0.queues.length = 16 →
          (c6 → drops 6) ∧ (¬ c6 → c1 → drops 1) ∧ (¬ c6 → ¬ c1 → c2 → drops 2) ∧ (¬ c6 → ¬ c1 → ¬ c2 → c3 → drops 3)
          ∧ (¬ c6 → ¬ c1 → ¬ c2 → ¬ c3 → c4 → drops 4) ∧ (¬ c6 → ¬ c1 → ¬ c2 → ¬ c3 → ¬ c4 → c5 → drops 5)
          ∧ (¬ c6 → ¬ c1 → ¬ c2 → ¬ c3 → ¬ c4 → ¬ c5 →
              ∃ t l, exec (.launchWindowWrite w off b) s = .next t ∧ l ∈ t.launches ∧ t.launches.length = s.launches.length + 1
                ∧ l.tenant = w ∧ l.kernel.toNat = fld 0 8 ∧ l.arg.toNat = fld 8 8 ∧ l.x = fld 16 4 ∧ l.y = fld 20 4 ∧ l.z = fld 24 4
                ∧ l.flags.toNat = fld 28 4 ∧ l.join.toNat = fld 32 8 ∧ l.lid.toNat = fld 40 4 ∧ l.dep0.toNat = fld 44 4
                ∧ l.dep1.toNat = fld 48 4 ∧ l.deadline.toNat = fld 52 4 ∧ l.active = false ∧ l.next = 0 ∧ l.live = 0
                ∧ (t.tenant w).drops = t0.drops ∧ ((t.tenant w).queue q).last = some seq
                ∧ ((t.tenant w).queue q).acc.toNat = seq ∧ t.creditsUsed w = s.creditsUsed w + 1
                ∧ (fld 44 4 / 2 ^ 31 = 0 → fld 48 4 / 2 ^ 31 = 0 → l.readyAt = some s.clock))))
  ∧ ((∀ (s : State) (l : Launch) (r : Nat), l.readyAt = some r →
        let t := s.tenant l.tenant
        let e := t.rank.getD (l.flags.toNat % 4) rankReset
        let u := l.deadline - BitVec.ofNat 32 (s.clock / 1024)
        let slack : Nat := if e.getLsbD 19 = false ∨ l.deadline = 0 then 0xFFFFF
          else min ((if u.slt 0 then 0 else u.toNat) / 2 ^ (e.toNat / 2 ^ 20 % 16)) 0xFFFFF
        let step := if e.toNat / 2 ^ 24 = 0 then 1 else e.toNat / 2 ^ 24
        (s.rankOf l : Int) = max 0 ((t.ctrl.toNat % 8 * 2 ^ 29 + e.toNat % 512 * 2 ^ 20 + slack : Nat) -
          ((step * 2 ^ 20 * ((s.clock - r) / 65536) : Nat) : Int)))
    ∧ (∀ s : State,
        let ready := s.launches.filter fun l => !l.active && l.readyAt.isSome && (s.tenant l.tenant).state == .active
        let generating := s.launches.filter fun l => l.active && decide (l.next < l.x * l.y * l.z)
        ((8 ≤ generating.length ∨ ready = []) → exec .launchActivate s = .next s)
        ∧ (generating.length < 8 → ready ≠ [] → ∃ l ∈ ready, (∀ y ∈ ready, s.rankOf l ≤ s.rankOf y) ∧
            ∃ t, exec .launchActivate s = .next t ∧ (∀ c ∈ t.cores, c.consts = [])
              ∧ t.launches = s.launches.map fun x => if x.id = l.id then { x with active := true, placedAt := s.clock } else x))
    ∧ (∀ (s : State) (id : Nat) (l : Launch), s.launches.find? (·.id = id) = some l →
        let late := l.deadline ≠ 0 ∧ (l.deadline - BitVec.ofNat 32 (s.clock / 1024)).sle 0 = true
        ((l.late = true ∨ ¬ late) → exec (.launchLate id) s = .next s)
        ∧ (l.late = false → late → ∃ t, exec (.launchLate id) s = .next t
            ∧ t.launches.find? (·.id = id) = some { l with late := true }
            ∧ (t.tenant l.tenant).late = (s.tenant l.tenant).late + 1
            ∧ (l.tenant ≠ 64 → .vector (l.tenant + 1) 1 ∈ t.polfel.replies)))
    ∧ (∀ (s : State) (id : Nat) (l : Launch), s.launches.find? (·.id = id) = some l → l.active = true →
        l.next < l.x * l.y * l.z → (s.tenant l.tenant).state = .active →
        (s.taskKernel (l.task 0) = none → ∃ f, exec (.gridTaskGenerate id) s = .next { s with fatals := s.fatals ++ [f] }
          ∧ leNat (f.record.take 4) = 0x20 ∧ leNat ((f.record.drop 4).take 4) = l.owner.toNat)
        ∧ (s.badTask (l.task 0) = none → s.canOffer l = true → (l.flags.getLsbD 16 = false) →
            (∀ x ∈ s.activeLaunches, s.canOffer x = true → s.rankOf l < s.rankOf x ∨ (s.rankOf l = s.rankOf x ∧ l.id ≤ x.id)) →
            ∃ t c u i, exec (.gridTaskGenerate id) s = .next t ∧ i < 128 ∧ c = (s.lastCluster + 1 + i) % 128 ∧ t.lastCluster = c
              ∧ t.launches.find? (·.id = id) = some { l with offer := some (c, u) }
              ∧ (let ok := fun k => !(s.victimFirst k l) && !(s.kept k (some l.id))
                 (s.coreBy ok c u).isSome = true ∧ ∀ j < i, s.coreBy ok ((s.lastCluster + 1 + j) % 128) u = none)
              ∧ u.kernel = l.kernel ∧ u.arg = l.arg ∧ u.flags = l.flags ∧ u.join = l.join ∧ u.owner = l.owner
              ∧ u.deadline = l.deadline ∧ u.haul = 0
              ∧ u.x.toNat = l.next % l.x % 2 ^ 32 ∧ u.y.toNat = l.next / l.x % l.y % 2 ^ 32
              ∧ u.z.toNat = l.next / l.x / l.y % 2 ^ 32))
    ∧ (∀ (s : State) (ok : Nat → Bool) (cl : Nat) (u : Task),
        let may := fun (k : Nat) => clusOf k = cl ∧ ok k = true ∧ (s.fitOn k u).isSome = true
        (s.coreBy ok cl u = none ↔ ∀ k, ¬ may k)
        ∧ ∀ c, s.coreBy ok cl u = some c → may c ∧ ∀ k, may k → s.threadsOn c < s.threadsOn k ∨ (s.threadsOn c = s.threadsOn k ∧ c ≤ k))
    ∧ (∀ (s : State) (c : Nat) (l : Launch), s.victimFirst c l = true ↔ ∃ x ∈ s.teams, (x.state = .victim ∨ x.state = .saved) ∧
        s.canStand x c = true ∧ ∃ y ∈ s.launches, x.task.launch = some y.id ∧
          (s.rankOf y < s.rankOf l ∨ (s.rankOf y = s.rankOf l ∧ y.id < l.id)))
    ∧ (∀ (s : State) (c id : Nat), s.kept c (some id) = true → ∃ x ∈ s.launches, x.id ≠ id ∧ x.active = true ∧
        (s.tenant x.tenant).state = .active ∧ max x.placedAt s.fullAt + 65536 ≤ s.clock ∧
        (∀ y ∈ s.activeLaunches, (s.tenant y.tenant).state = .active → s.rankOf x ≤ s.rankOf y) ∧ x.mayUse c = true)
    ∧ (∀ s : State, s.clock / 1024 ≤ s.tickPressure → exec .pressureSample s = .next s)
    ∧ ∀ s : State, s.tickPressure < s.clock / 1024 → ∃ t, exec .pressureSample s = .next t ∧ t.tickPressure = s.clock / 1024
        ∧ ∀ (id : Nat) (tn : Tenant), s.tenants.find? (·.id = id) = some tn → ∃ p, t.tenant id = { tn with pressure := p } ∧
          ∀ stage, ((p.filter fun x => x.1 = stage).map (·.2)).sum =
            ((s.landings.filter fun l => !l.released && l.expert.any fun e => ownerId e.owner == id && e.stage == stage).map
              (·.waiting.length)).sum)

/-- R31, R33, R38, R294 to R297, R299, R300: a core takes the task that a free floor reservation of it waits for, failing
that the best of its candidates by priority, pressure, deadline and age; a cluster that steals takes a suitable task of
another cluster's deque, that of the first victim with one, ring by ring and in each upwards from its own number, and of that deque
the oldest (R299; on which of its cores is log 126); the task leaves its queue, or its launch moves on, and a team of its kernel starts, if the victims that are
saved for it have made room: its threads stand at the entry, their registers, predicates and flags zero. A spilled task returns to
its deque, of a die that is in service, as its record in the spill area has it (where it stands there is log 40), but for its owner
word, which no program may forge (R27), and what the model keeps beside the bytes: its haul, its place in the order and its landing
(log 40). A task that has finished is gone with its team; its haul is retired (R254), its tiles, banks and macro claims are free (R240),
a landing that only it named is released where R145 says so; the count of its join cell is one less, and with the last one the cell's
task is pushed (R33, R34); a cell that is misaligned, that R128 refuses or whose count is 0 raises JOINZERO (log 25; CLASS and WRITE
0: log 73); its launch ends with its last task.
Which victim is saved first is log 90.
Which haul a reservation takes is logs 121 and 122, JOINZERO for a misaligned cell is log 25, a supervisor's missing pool log
23, an unreadable kernel descriptor log 54. -/
def Obligations.TasksArePlacedAndComplete : Prop :=
  let starts := fun (s t : State) (c : Nat) (u : Task) (k : Kernel) (floor : Bool) =>
    ∃ tm, t.team? s.ids = some tm ∧ tm.core = c ∧ tm.state = .run ∧ tm.floor = floor ∧ tm.kern = k
      ∧ { tm.task with set := u.set, clus := u.clus } = u ∧ tm.k = List.replicate 31 0 ∧ tm.mem = []
      ∧ (∀ i < k.threads, ∃ h, tm.thread? i = some h ∧ h.ctl = false ∧ h.pc = (u.kernel.toNat + 64) % 2 ^ 48 ∧ h.word = 0
          ∧ h.v = List.replicate k.vregs 0 ∧ h.p = 0 ∧ h.flags = 0 ∧ h.rm = .rne ∧ h.pend = [] ∧ h.stack = [] ∧ h.handler = false
          ∧ (h.status = .spill ∨ ∃ n, h.status = .bin n))
      ∧ (u.launch = none → ∀ x ∈ t.clusters, ∀ y ∈ x.deque, y.order ≠ u.order)
      ∧ (∀ lid l, u.launch = some lid → s.launches.find? (·.id = lid) = some l → floor = false →
          ∃ l', t.launches.find? (·.id = lid) = some l' ∧ l'.next = l.next + 1 ∧ l'.live = l.live + 1 ∧ l'.offer = none)
  let room := fun (s : State) (c : Nat) (u : Task) (k : Kernel) =>
    (State.claim c s.ids (fun s => s.fits c u k false) 17 s).fits c u k false = true
  (∀ (s : State) (c : Nat), s.phase = .open → s.deadTask (clusOf c) = none → (∀ x ∈ s.teams, x.id < s.ids) →
      (∀ f u k o, s.floors.filter (·.core = c) = [f] → s.floorTask f = some (u, k, o) → u.launch = none →
        ∃ t, exec (.taskPlace c) s = .next t ∧ starts s t c u k true)
      ∧ ((∀ f ∈ s.floors, f.core = c → s.floorTask f = none) → s.candidates c = [] → exec (.taskPlace c) s = .next s)
      ∧ (∀ u k o, (∀ f ∈ s.floors, f.core = c → s.floorTask f = none) → u ∈ s.candidates c → s.fitOn c u = some (k, o) →
          (∀ y ∈ s.candidates c, y ≠ u →
            y.prio < u.prio ∨ (y.prio = u.prio ∧ (s.pressureOf u < s.pressureOf y ∨ (s.pressureOf u = s.pressureOf y ∧
              (s.dueKey u < s.dueKey y ∨ (s.dueKey u = s.dueKey y ∧ y.order < u.order)))))) →
          ∃ t, exec (.taskPlace c) s = .next t ∧ (room s c u k → starts s t c u k false)
            ∧ (¬ room s c u k → t.teams.map (·.id) = s.teams.map (·.id))))
  ∧ (∀ (s : State) (thief : Nat), s.phase = .open → thief < 128 → s.idle thief = true → (∀ x ∈ s.teams, x.id < s.ids) →
      ∃ t, exec (.clusterSteal thief) s = .next t ∧ (t.cluster thief).stealAt = s.clock + 256
        ∧ (s.loot thief = none → t = s.modCluster thief fun c => { c with stealAt := s.clock + 256 })
        ∧ (let suits := fun (v : Nat) (u : Task) (c : Nat) => u ∈ (s.cluster v).deque ∧ (s.die (dieOfClus v)).state = .up ∧
             (s.tenant (ownerId u.owner)).state = .active ∧ s.belowQuota (ownerId u.owner) = true ∧ s.coreFor thief u = some c
           let ring := fun (v : Nat) => if v / 4 = thief / 4 then 0 else if v / 16 = thief / 16 then 1 else 2
           let turn := fun (v : Nat) => ring v * 128 + (v + 127 - thief) % 128
           (s.loot thief = none → ∀ v u c, v < 128 → v ≠ thief → ¬ suits v u c)
           ∧ ∀ u c, s.loot thief = some (u, c) → ∃ v, v < 128 ∧ v ≠ thief ∧ suits v u c ∧
               (∀ y d, suits v y d → u.order ≤ y.order)
               ∧ ∀ w y d, w < 128 → w ≠ thief → suits w y d → turn v ≤ turn w)
        ∧ ∀ u c, s.loot thief = some (u, c) → u.launch = none → clusOf c = thief ∧ (∃ v, v ≠ thief ∧ u ∈ (s.cluster v).deque)
            ∧ ∃ k, room (s.modCluster thief fun c => { c with stealAt := s.clock + 256 }) c u k → starts s t c u k false)
  ∧ (∀ (s : State) (cl : Nat) (u : Spilled), s.oldestSpilled cl = some u →
      ((1024 ≤ (s.cluster cl).deque.length ∨ (s.die (dieOfClus cl)).state ≠ .up) → exec (.dequeSpillReturn cl) s = .next s)
      ∧ ((s.cluster cl).deque.length < 1024 → (s.die (dieOfClus cl)).state = .up → ∃ t y, exec (.dequeSpillReturn cl) s = .next t
          ∧ (t.cluster cl).deque = ((s.cluster cl).deque.filter (·.order ≠ u.task.order)) ++ [y]
          ∧ (∀ x ∈ t.tenants, ∀ y ∈ x.spilled, y.task.order ≠ u.task.order)
          ∧ (let r := cellsGet s.mem ((s.tenant (ownerId u.task.owner)).spill.toNat + 64 * u.place) 64
             y.kernel.toNat = leNat (r.take 8) ∧ y.arg.toNat = leNat ((r.drop 8).take 8) ∧ y.x.toNat = leNat ((r.drop 16).take 4)
             ∧ y.y.toNat = leNat ((r.drop 20).take 4) ∧ y.z.toNat = leNat ((r.drop 24).take 4) ∧ y.flags.toNat = leNat ((r.drop 28).take 4)
             ∧ y.join.toNat = leNat ((r.drop 32).take 8)
             ∧ y.deadline.toNat = leNat ((r.drop 52).take 4))
          ∧ y.owner = u.task.owner ∧ y.haul = u.task.haul ∧ y.order = u.task.order ∧ y.landing = u.task.landing))
  ∧ ∀ (s : State) (team : Nat) (tm : Team), s.team? team = some tm → s.finished tm = true →
      ∃ t, exec (.taskComplete team) s = .next t ∧ (∀ x ∈ t.teams, x.id ≠ team)
        ∧ (∀ lid l, tm.task.launch = some lid → s.launches.find? (·.id = lid) = some l →
            ((l.next < l.x * l.y * l.z ∨ 2 ≤ l.live) → t.launches.find? (·.id = lid) = some { l with live := l.live - 1 })
            ∧ (l.x * l.y * l.z ≤ l.next → l.live ≤ 1 → ∀ x ∈ t.launches, x.id ≠ lid))
        ∧ (let no := ∃ f ∈ t.fatals, leNat (f.record.take 4) = 0x21 ∧ leNat ((f.record.drop 8).take 8) = tm.task.join.toNat
           let va := tm.task.join
           let ag := tm.agent 0
           let cl := clusOf tm.core
           let s1 := (s.retire tm).releaseTeam tm.core team
           let q := fun (s : State) => (s.cluster cl).deque
           let calm := tm.task.launch = none ∧ (∀ h ∈ tm.handles, h = none) ∧ (∀ x ∈ (s.cluster cl).tiles, x.holder ≠ some team) ∧
             ∀ x ∈ s.teams, ∀ h ∈ x.threads, h.carving = none
           (va.toNat % 128 ≠ 0 → no)
           ∧ (va.toNat % 128 = 0 → va ≠ 0 → ∀ s2 b, s1.place ag va.toNat 128 .claim = (s2, .error b) → no)
           ∧ (va = 0 → t.fatals = s.fatals ∧ q t = q s)
           ∧ (va.toNat % 128 = 0 → va ≠ 0 → ∀ s2 l p, s1.place ag va.toNat 128 .claim = (s2, .ok (l, p)) → s2.Inv → s2.answers l →
               s2.paOf l % 128 = 0 → (∀ i, i < 128 → s2.paOf (l.add i) = s2.paOf l + i) →
               (∀ z, p = some z → ∀ k, k < 8 → (z.pte + k) / 128 ≠ s2.paOf l / 128) →
               let n := leNat ((List.range 8).map (s2.homeByte ag l))
               let task := (List.range 64).map fun i => s2.homeByte ag l (64 + i)
               let x := taskOf task tm.task.owner (va + 64) 0
               let lowered := fun (u : State) => storedAtHome (s2.dirtied p.toList) u ag false l 128 fun i =>
                 if i < 8 then (bytesLE 8 (n - 1)).getD i 0 else s2.homeByte ag l i
               (n = 0 → no)
               ∧ (1 < n → t.fatals = s2.fatals ∧ q t = q s2 ∧ ∃ u, lowered u ∧ (calm → t.mem = u.mem))
               ∧ (n = 1 → ∃ u, lowered u ∧
                   let v := u.seenTask task x
                   (taskBytesOk task = true → (v.taskKernel x).isSome = true → (q s2).length < 1024 →
                     q t = q s2 ++ [{ x with order := s2.ids }] ∧ t.fatals = s2.fatals ∧ (calm → t.mem = v.mem))
                   ∧ ((taskBytesOk task = false ∨ v.taskKernel x = none) →
                       q t = q s2 ∧ ∃ f, t.fatals = s2.fatals ++ [f] ∧ leNat (f.record.take 4) = 0x20))))
        ∧ (∀ x ∈ (t.cluster (clusOf tm.core)).tiles, x.holder ≠ some team ∧ ∀ r ∈ x.queue, r.team ≠ team)
        ∧ (∀ x ∈ (t.cluster (clusOf tm.core)).banks, x.holder ≠ some team)
        ∧ (∀ x ∈ (t.cluster (clusOf tm.core)).squares, team ∉ x.claims)
        ∧ (∀ l h, s.haulOf tm = some (l, h) → ∀ x ∈ t.landings, x.id = l.id → ∀ y ∈ x.hauls, y.seq ≠ h.seq)
        ∧ ((s.landings.map (·.id)).Nodup → ∀ h, some h ∈ tm.handles → ∀ l ∈ t.landings, l.id = h.landing →
            l.released = true ∨ t.named l.id = true ∨ (l.l2 = true ∧ l.state ≠ .ended))

/-- R45 to R48, R301, R337, R338, R340, R369: pre-emption for a launch halts just enough teams of one core to fit its next task, the
highest rank first, each with its set, on the core that needs the fewest, the lowest number between equals; none of them is the
launch's tenant's, a haul or a floor's, holds a tile or a core landing, or ranks before it. A halted team that has drained is a victim,
its waiting words withdrawn to where they stand; a victim is saved, its contexts in its images, and holds its core no more, or
SAVEFAIL is raised (CLASS and WRITE 0: log 73), after which it is not saved again; a stopped team does not come back to a core that a
launch ranking before its own wants for its next task (log 129), or that is kept for one that has starved; one that can be restored and
has room runs again, on its core with
its threads filed, or on another core with its memory, registers and places in the code, as the images that its slot holds have
them; a slot that cannot be read raises SAVEFAIL.
The bytes of images are log 17; a set's victims core after core log 102.
A supervisor's missing pool is log 23. -/
def Obligations.TeamsStopAndReturn : Prop :=
  (∀ (s : State) (id : Nat) (l : Launch), s.launches.find? (·.id = id) = some l →
      (s.mayPreempt l = false → exec (.preemptForLaunch id) s = .next s)
      ∧ ∀ v, s.mayPreempt l = true → s.preemptPlan l = some v → ∃ t, exec (.preemptForLaunch id) s = .next t
          ∧ (v = [] → t = s)
          ∧ (∀ x ∈ v, ownerId x.task.owner ≠ l.tenant ∧ x.task.landing = none ∧ x.floor = false ∧ s.holdsTile x = false
            ∧ s.holdsCoreLanding x = false ∧ (∃ y ∈ s.launches, x.task.launch = some y.id ∧ s.rankOf l < s.rankOf y)
            ∧ (s.team? x.id = some x → ∃ y, t.team? x.id = some y ∧ y.state = .halt))
          ∧ (l.member = none → (l.task 0).cbound = false → ∃ c, c < 512 ∧ s.victimsOn l (l.task 0) c = some v
            ∧ (∀ x ∈ v, x.task.set = none → x.core = c)
            ∧ ∀ c' w, c' < 512 → s.victimsOn l (l.task 0) c' = some w →
                v.length ≤ w.length ∧ (c' < c → v.length < w.length)))
  ∧ (∀ (s : State) (l : Launch) (u : Task) (c : Nat),
      let may := (s.teamsOn c).filter fun x => (s.mates x).all (s.preemptible l) && s.preemptible l x
      let fits := fun (w : List Team) => ((s.ifVictims (w.flatMap s.mates).dedup).fitOn c u).isSome = true
      (s.victimsOn l u c = none → ¬ fits may)
      ∧ ∀ v, s.victimsOn l u c = some v → ∃ (order : List Team) (n : Nat), order.Perm may ∧ order.Pairwise (fun x y => s.teamRank y ≤ s.teamRank x)
          ∧ v = ((order.take n).flatMap s.mates).dedup ∧ fits (order.take n) ∧ ∀ m, m < n → ¬ fits (order.take m))
  ∧ (∀ (s : State) (team : Nat) (tm : Team), s.team? team = some tm →
      (s.drainedTeam tm = false → exec (.teamDrainComplete team) s = .next s)
      ∧ (s.drainedTeam tm = true → tm.stopped = false →
          ∃ t x, exec (.teamDrainComplete team) s = .next t ∧ t.team? team = some x ∧ x.state = .victim
          ∧ ∀ tid h b, tm.thread? tid = some h → h.status = .blocked b → filedAt t team tid
              { h with
                exempt := true
                waitAt := match b.wait with | .bwait n _ _ => some n | _ => none
                arrivals := (match b.wait with
                  | .bsync n ph _ _ => [{ bar := n, phase := ph, header := b.header, word := b.word, value := none }]
                  | _ => []) ++ h.arrivals } b.header b.word))
  ∧ (∀ (s : State) (team : Nat) (tm : Team), s.team? team = some tm →
      let doomed := ∃ f ∈ s.fatals, f.sup = tm.sup ∧ (f.sup = true ∨ f.tenant = tm.tenant)
      ((tm.state ≠ .victim ∨ doomed) → exec (.teamSave team) s = .next s)
      ∧ (tm.state = .victim → ¬ doomed → ∃ t x, exec (.teamSave team) s = .next t ∧ t.team? team = some x
          ∧ (tm.sup = true → x.state = .saved)
          ∧ (x.state = .saved → tm.sup = false → ∃ im, x.images = im :: tm.images ∧ im.threads = tm.threads ∧ im.k = tm.k
              ∧ im.bars = tm.bars ∧ im.handles = tm.handles ∧ im.guards = tm.guards ∧ im.rings = tm.rings ∧ im.mem = tm.mem
              ∧ im.vregs = tm.vregs ∧ im.scratch = tm.scratch)
          ∧ (x.state = .saved ∧ (∀ c, ∀ y ∈ t.teamsOn c, y.id = team → False) ∨
              (x.state = .victim ∧ ∃ f ∈ t.fatals, leNat (f.record.take 4) = 0x25))))
  ∧ (∀ (s : State) (team core : Nat) (tm : Team), s.team? team = some tm → tm.task.set = none → tm.state ≠ .run →
      ((∃ l ∈ s.launches, tm.task.launch = some l.id ∧ ∃ x ∈ s.activeLaunches, x.id ≠ l.id ∧ s.ranksBefore x l = true ∧
          (s.tenant x.tenant).state = .active ∧ s.belowQuota x.tenant = true ∧ s.wantsCore x core = true) ∨
        s.kept core tm.task.launch = true) → exec (.teamRestore team core) s = .next s)
  ∧ ∀ (s : State) (team core : Nat) (tm : Team), s.team? team = some tm → tm.task.set = none → s.canRestore tm core = true →
      s.takesBack tm core false = true → (∀ h ∈ tm.threads, ∀ b, h.status ≠ .blocked b) →
      let runs := fun (t : State) (k : List Word) (mem : List Host.Cell) (vregs : Nat) (l : List Thread) =>
        ∃ x, t.team? team = some x ∧ x.state = .run ∧ x.core = core ∧ x.task = tm.task ∧ x.k = k ∧ x.mem = mem ∧ x.vregs = vregs
          ∧ ∀ tid h, l.find? (·.tid = tid) = some h → ∃ h', x.thread? tid = some h' ∧ h'.pc = h.pc ∧ h'.word = h.word
              ∧ h'.handler = h.handler ∧ h'.stack = h.stack ∧ h'.v = h.v ∧ h'.c = h.c ∧ h'.p = h.p ∧ h'.flags = h.flags
      (tm.state = .victim → tm.core = core → ∃ t, exec (.teamRestore team core) s = .next t ∧ runs t tm.k tm.mem tm.vregs tm.threads)
      ∧ (tm.state = .saved → tm.sup = true → ∃ t, exec (.teamRestore team core) s = .next t ∧ runs t tm.k tm.mem tm.vregs tm.threads)
      ∧ (tm.state = .saved → tm.sup = false → ∃ t, exec (.teamRestore team core) s = .next t
          ∧ ∀ s1, (∀ va, s.slotLoad tm (tm.slotLen / 4096 + 2) (s.slotAddr tm + 104) (tm.slotLen - 104) = (s1, .error va) →
              (∃ x, t.team? team = some x ∧ x.state = .saved) ∧ ∃ f ∈ t.fatals, leNat (f.record.take 4) = 0x25)
            ∧ ∀ b, s.slotLoad tm (tm.slotLen / 4096 + 2) (s.slotAddr tm + 104) (tm.slotLen - 104) = (s1, .ok b) →
              let holds := fun (im : Image) => b = imageBytes im.number (tm.slotLen - 104)
              (tm.images = [] → runs t tm.k tm.mem tm.vregs tm.threads)
              ∧ ∀ im l, tm.images = im :: l → (holds im → runs t tm.k tm.mem tm.vregs tm.threads)
                ∧ (¬ holds im → ∀ l1 old l2, l = l1 ++ old :: l2 → (∀ y ∈ l1, ¬ holds y) → holds old →
                    (∀ h ∈ old.threads, ∀ b, h.status ≠ .blocked b) → runs t old.k old.mem old.vregs old.threads))

/-! ### Time, tenants, dies, fabric and boot (R191 to R198, R346, R349 to R372) -/

/-- R191, R195, R197, R198, R346: every 256 cycles an awake core's logical time advances by 1; a write-back brings a line's
dirty bytes to memory while its home is in service; an epoch change moves the epoch on modulo 4, sets the logical time of
the die's awake cores to 1, ends their leases and drops the die's stamps; a core without teams sleeps once it holds no
dirty byte, and wakes with its L1, or with a cleared one and a logical time of 1 if the epoch has changed; a page walk that
succeeds installs its leaf in both TLBs and sets A, one that fails changes nothing.
CLOCK advances as log 3 has it; sleep across an epoch change is log 65. -/
def Obligations.TimeAndEpochs : Prop :=
  (∀ s : State,
      (s.clock / 256 ≤ s.tickCtime → exec .ctimeTick s = .next s)
      ∧ (s.tickCtime < s.clock / 256 → ∃ t, exec .ctimeTick s = .next t ∧ t.tickCtime = s.tickCtime + 1 ∧ t.mem = s.mem
          ∧ ∀ c < 512, (t.core c).ctime = (s.core c).ctime + (if (s.core c).asleep = none then 1 else 0)
            ∧ (t.core c).lines = (s.core c).lines))
  ∧ (∀ (s : State) (c pa : Nat), s.Inv →
      (s.homeUp (lineOf pa) = false → exec (.l1Writeback c pa) s = .next s)
      ∧ (s.homeUp (lineOf pa) = true → ∃ t, exec (.l1Writeback c pa) s = .next t
          ∧ (∀ a, cellGet a t.mem = if lineOf a = lineOf pa then (s.dirtyByte c a).getD (cellGet a s.mem) else cellGet a s.mem)
          ∧ ∀ a, lineOf a = lineOf pa → t.dirtyByte c a = none))
  ∧ (∀ (s : State) (d : Nat),
      (s.epochDue d = false → exec (.epochChange d) s = .next s)
      ∧ (s.epochDue d = true → ∃ t, exec (.epochChange d) s = .next t ∧ (t.die d).epoch = ((s.die d).epoch + 1) % 4
          ∧ (∀ x ∈ t.stamps, x.die.getD (dieOfClus (homeOf x.pa)) ≠ d)
          ∧ ∀ c, dieOfCore c = d → (s.core c).asleep = none → (t.core c).ctime = 1 ∧ ∀ x ∈ (t.core c).lines, x.lease = none))
  ∧ (∀ (s : State) (c : Nat),
      ((s.teamsOn c ≠ [] ∨ (s.core c).asleep ≠ none) → exec (.coreSleep c) s = .next s)
      ∧ (s.teamsOn c = [] → (s.core c).asleep = none → ((s.core c).lines.map (·.pa)).Nodup →
          (∀ x ∈ (s.core c).lines, x.pa % 64 = 0 ∧ s.homeUp x.pa = true) →
          ∃ t, exec (.coreSleep c) s = .next t ∧ (t.core c).asleep = some (t.die (dieOfCore c)).epoch
            ∧ ∀ x ∈ (t.core c).lines, x.dirty = [])
      ∧ ((s.core c).asleep = none → exec (.coreWake c) s = .next s)
      ∧ (∀ e, (s.core c).asleep = some e → ∃ t, exec (.coreWake c) s = .next t ∧
          t.core c = if e = (s.die (dieOfCore c)).epoch then { s.core c with asleep := none }
            else { s.core c with asleep := none, lines := (s.core c).cleared, ctime := 1 }))
  ∧ ∀ (s : State) (c asid va : Nat) (tm : Team), s.Inv → (s.teamsOn c).find? (fun x => x.asid = asid) = some tm →
      (∀ d, s.walkBy (dieOfCore c) (ownerId tm.task.owner) asid va = .error d → exec (.pageWalk c asid va) s = .next s)
      ∧ ∀ e, s.walkBy (dieOfCore c) (ownerId tm.task.owner) asid va = .ok e → ∃ t, exec (.pageWalk c asid va) s = .next t
          ∧ e ∈ (t.core c).tlb ∧ e ∈ (t.cluster (clusOf c)).tlb
          ∧ leNat (cellsGet t.mem e.pte 8) = leNat (cellsGet s.mem e.pte 8) ||| 2 ^ 9

/-- R287, R290, R351 to R354: a PF write sets the register or the field of the tenant block that it covers; FLOGBASE, SAVEPOOL and
SAVEBYTES only of an absent or stopped tenant. ENABLE makes an absent tenant active, but not in life cycle RETIRED;
PREEMPT halts an active tenant's teams; RESUME ends a pre-emption once every team is saved; RESET stops the tenant, with its raised
causes posted (R335), is RESETTING while a team of it drains, then leaves nothing of it, clears its counts and queues and makes it
absent; it waits for a pre-emption to finish. CMD, RTSTAT and TCTRL carry out what is written to them, and a BUSY TCTRL ignores it.
A launch window reads its status at 0x800 and 0 above. When a reset ends is log 72's; that the low bits of ASIDTAB, DUMPBASE, SPILL
and SAVEPOOL, which the manual aligns, read as 0 is log 127's.
A PCAP out of range is log 27; that a vector fires without a log is log 75, several causes at once log 77. -/
def Obligations.RegistersAndTenantCommands : Prop :=
  (∀ (s : State) (x : Nat), s.phase = .open →
      let wr := fun (off n : Nat) (p : State → Prop) => ∃ t, exec (.registerWrite off (bytesLE n x)) s = .next t ∧ p t
      wr 0x00 8 (fun t => t.regs.asidtab = BitVec.ofNat 64 x &&& ~~~ 0xFFFF#64)
      ∧ wr 0x08 8 (fun t => t.regs.fland = BitVec.ofNat 64 x)
      ∧ wr 0x10 8 (fun t => t.regs.devlog = BitVec.ofNat 64 x)
      ∧ wr 0x18 8 (fun t => t.regs.dumpbase = BitVec.ofNat 64 x &&& ~~~ 0xFFF#64)
      ∧ (6000 ≤ x → x ≤ 10000 → wr 0x30 4 (fun t => t.regs.pcap = BitVec.ofNat 32 x))
      ∧ wr 0x38 4 (fun t => t.regs.rtasid = BitVec.ofNat 32 x &&& 0xFFF#32)
      ∧ wr 0x2C 4 (fun t => t.regs.rtfail = true ↔ s.regs.rtfail = true ∧ x % 2 = 0)
      ∧ (x % 16 ≠ 1 → wr 0x20 4 (fun t => t.regs.cmd = BitVec.ofNat 32 (x % 128) ∧ t.dies = s.dies))
      ∧ (∀ d < 8, x = 16 * d + 1 →
          ((∀ y ∈ s.dies, y.id ≠ d → y.state = .up) → wr 0x20 4 (fun t => t.regs.cmd = BitVec.ofNat 32 x ∧ t.regs.cmdBusy = true
              ∧ (t.die d).state = if (s.die d).state = .up then .draining s.clock else (s.die d).state))
          ∧ ((∃ y ∈ s.dies, y.id ≠ d ∧ y.state ≠ .up) → wr 0x20 4 (fun t => t.regs.cmd = BitVec.ofNat 32 x ∧ t.regs.cmdResult = 1
              ∧ t.dies = s.dies)))
      ∧ (∀ id < 64, ∀ t0, t0 = s.tenant id →
          let wt := fun (off n : Nat) (p : Tenant → Prop) => wr (0x8000 + 512 * id + off) n fun t =>
            p (t.tenant id) ∧ (t.tenant id).state = t0.state ∧ (t.tenant id).late = t0.late ∧ t.regs = s.regs
              ∧ ∀ k, k ≠ id → t.tenant k = s.tenant k
          wt 0 4 (fun y => y.ctrl = BitVec.ofNat 32 x &&& 0xFFF#32)
          ∧ wt 4 4 (fun y => y.teamq = BitVec.ofNat 32 x &&& 0x3FFF#32)
          ∧ wt 8 8 (fun y => y.spill = BitVec.ofNat 64 x &&& ~~~ 0xFFF#64)
          ∧ wt 16 4 (fun y => y.spilln = BitVec.ofNat 32 x &&& 0x1FFFFFF#32)
          ∧ (∀ p < t0.rank.length, p < 4 → wt (32 + 4 * p) 4 (fun y => y.rank.getD p 0 = BitVec.ofNat 32 x &&& 0xFFF801FF#32))
          ∧ wt 64 8 (fun y => y.flog = if t0.state = .absent ∨ t0.state = .stopped then BitVec.ofNat 64 x else t0.flog)
          ∧ wt 72 8 (fun y => y.savepool =
              if t0.state = .absent ∨ t0.state = .stopped then BitVec.ofNat 64 x &&& ~~~ 0xFFF#64 else t0.savepool)
          ∧ wt 80 8 (fun y => y.savebytes = if t0.state = .absent ∨ t0.state = .stopped then BitVec.ofNat 64 x else t0.savebytes)
          ∧ wt 88 4 (fun y => y.wdog = BitVec.ofNat 32 x)
          ∧ (let busy := t0.state = .resetting ∨
                (t0.state = .preempted ∧ ∃ y ∈ s.teams, ownerId y.task.owner = id ∧ y.state ≠ .saved)
             let wc := fun (p : Tenant → Prop) => wr (0x8000 + 512 * id + 96) 4 fun t => p (t.tenant id)
             (busy → wc fun y => y.state = t0.state ∧ y.tcmd = t0.tcmd)
             ∧ (¬ busy → x % 8 ≠ 4 → wc fun y => y.tcmd = BitVec.ofNat 3 x ∧ y.state =
                  if x % 8 = 1 ∧ t0.state = .absent ∧ s.polfel.life ≠ .retired then .active
                  else if x % 8 = 2 ∧ t0.state = .active then .preempted
                  else if x % 8 = 3 ∧ t0.state = .preempted then .active else t0.state)
             ∧ (¬ busy → x % 8 = 4 → (∀ y ∈ s.teams, ownerId y.task.owner ≠ id) → wc fun y => y.state = .absent))))
  ∧ (∀ (s : State) (id : Nat), id < 64 →
      let t0 := s.tenant id
      let busy := t0.state = .preempted ∧ ∃ x ∈ s.teams, ownerId x.task.owner = id ∧ x.state ≠ .saved
      let mine := s.fatals.filter fun f => !f.sup && f.tenant == id
      let base := if t0.flog = 0 then s.regs.devlog.toNat else t0.flog.toNat
      let posts := fun (s t : State) => t.fatals = (s.fatals.filter fun f => !(!f.sup && f.tenant == id)) ∧
        (t0.state = .active ∨ t0.state = .preempted → vectorsFired s t mine.length (if t0.flog = 0 then 0 else id + 1))
      ((t0.state ≠ .absent ∨ s.polfel.life = .retired) → exec (.tenantEnable id) s = .next s)
      ∧ (s.phase = .open → s.polfel.life ≠ .retired → t0.state = .absent → ∃ t, exec (.tenantEnable id) s = .next t
          ∧ t.tenant id = { t0 with state := .active } ∧ t = { s with tenants := t.tenants } ∧ ∀ k, k ≠ id → t.tenant k = s.tenant k)
      ∧ (t0.state ≠ .active → exec (.tenantPreempt id) s = .next s)
      ∧ (t0.state = .active → ∃ t, exec (.tenantPreempt id) s = .next t ∧ t.tenant id = { t0 with state := .preempted }
          ∧ ∀ x ∈ s.teams, ownerId x.task.owner = id → s.team? x.id = some x → x.state = .run →
              ∃ y, t.team? x.id = some y ∧ y.state = .halt)
      ∧ ((t0.state ≠ .preempted ∨ busy) → exec (.tenantResume id) s = .next s)
      ∧ (t0.state = .preempted → ¬ busy → ∃ t l, exec (.tenantResume id) s = .next t ∧ t.tenant id = { t0 with state := .active }
          ∧ t = { s with tenants := t.tenants, teams := s.teams ++ l, ids := t.ids }
          ∧ (∀ x ∈ l, ownerId x.task.owner = id ∧ x.state = .saved)
          ∧ ((∀ x ∈ s.archive, ownerId x.task.owner = id → s.slotHolds x = false) → l = []))
      ∧ ((t0.state = .absent ∨ busy) → exec (.tenantReset id) s = .next s)
      ∧ (t0.state ≠ .absent → ¬ busy → (s.teams.map (·.id)).Nodup →
          (∃ x ∈ s.teams, ownerId x.task.owner = id ∧ (x.state = .run ∨ x.state = .halt)) →
          ∃ t, exec (.tenantReset id) s = .next t ∧ (t.tenant id).state = .resetting
            ∧ posts s t ∧ (t0.state = .active ∨ t0.state = .preempted → quietOwner s id → logsPosted s t base (mine.map (·.record)))
            ∧ ∀ x ∈ t.teams, ownerId x.task.owner = id → x.state ≠ .run ∨ t0.state = .stopped ∨ t0.state = .resetting)
      ∧ (t0.state ≠ .absent → ¬ busy →
          (∀ x ∈ s.teams, ownerId x.task.owner = id → t0.state ≠ .stopped ∧ t0.state ≠ .resetting ∧ x.state ≠ .run ∧ x.state ≠ .halt) →
          ∃ t, exec (.tenantReset id) s = .next t ∧ posts s t
          ∧ (t.tenant id).state = .absent ∧ (t.tenant id).drops = 0 ∧ (t.tenant id).lastdrop = 0 ∧ (t.tenant id).late = 0
          ∧ (t.tenant id).lost = 0 ∧ (t.tenant id).queues = List.replicate 16 Queue.fresh ∧ (t.tenant id).ctrl = t0.ctrl
          ∧ (∀ x ∈ t.teams, ownerId x.task.owner ≠ id)
          ∧ (t0.state = .active ∨ t0.state = .preempted → ∀ x ∈ t.launches, x.tenant ≠ id)
          ∧ (∀ x ∈ t.landings, x.tenant ≠ id) ∧ (∀ x ∈ t.bindings, x.tenant ≠ id)
          ∧ (∀ c ∈ t.cores, ∀ e ∈ c.tlb, e.tenant ≠ id)
          ∧ ∀ c ∈ t.clusters, (∀ e ∈ c.tlb, e.tenant ≠ id) ∧ ∀ q ∈ c.squares, q.tenant ≠ id))
  ∧ (∀ (s : State) (rest : List Move) (id : Nat), s.timeEvent = none → s.phase = .open → id < 64 →
      s.agenda = .barRead 0 (0x8000 + 512 * id + 96) :: rest → ∃ t x, step s = .next t
        ∧ t.polfel.replies = s.polfel.replies ++ [.word 0 (0x8000 + 512 * id + 96) x]
        ∧ x.toNat % 8 = (s.tenant id).tcmd.toNat
        ∧ (let saving := ∃ y ∈ s.teams, ownerId y.task.owner = id ∧ y.state ≠ .saved
           let word := fun (st : Nat) (busy : Prop) => x.toNat / 2 ^ 8 % 8 = st ∧ (x.toNat / 2 ^ 31 = 1 ↔ busy)
           match (s.tenant id).state with
           | .absent => word 0 False
           | .active => word 1 False
           | .preempted => (saving → word 1 True) ∧ (¬ saving → word 2 False)
           | .stopped => word 3 False
           | .resetting => word 4 True))
  ∧ ∀ (s : State) (rest : List Move) (id off : Nat), s.timeEvent = none → s.phase = .open → id < 64 → 0x800 ≤ off → off < 0x1000 →
      s.agenda = .barRead (id + 1) off :: rest → ∃ t x, step s = .next t
        ∧ t.polfel.replies = s.polfel.replies ++ [.word (id + 1) off x]
        ∧ (0x804 ≤ off → x = 0)
        ∧ (off = 0x800 → x.toNat % 2 ^ 12 = (s.tenant id).drops % 2 ^ 12 ∧ x.toNat / 2 ^ 12 % 16 = (s.tenant id).lastdrop % 16
            ∧ x.toNat / 2 ^ 23 = (((s.tenant id).ctrl.extractLsb' 3 9).toNat
                - ((s.launches.filter (·.tenant = id)).length + (s.tenant id).lost)) % 512)

/-- R359 to R361: DIERESET is refused while another die is out of service; else the die drains: its teams that may leave it
halt; a die that is out of service itself, since a link of it failed, goes on from where it stands, its failure forgotten. Once none runs there, or, after 10 ms, once their tenants are stopped, it goes down with its stamps, caches, tiles,
macros, banks, deques and walk cache empty and its epoch 0; it comes back into service, with what waited dirty for its homes, unless a link of it failed, which
takes an admitted die out of service with CMDSTAT 2.

R349, R350, R357, R358, R372: a flit that fails its CRC or comes out of sequence is not taken and a replay is asked for; one that
comes next is taken and releases what it acknowledges; one taken before is dropped. A port sends a payload in a flit of 256
bytes under its next sequence and keeps it, of at most 1,024, until it is acknowledged; a replay sends the kept flits from
a sequence on again. A port one of whose flits has been replayed 8 times goes down and hands what is not acknowledged to a
live port on a route to each one's module, or their tenants are stopped with KILLED, DETAIL 6 (CLASS and WRITE 0: log 73); a command whose writes no route can carry
is gone; a port that was down and is retrained is up with both sequences 0 and sends what it still keeps. At bring-up the module
takes its DEV number, its memory with it. The PF and the 64 VFs answer configuration requests.
Where the acknowledgement stands in a flit, and which sequence a demand for a replay names, is log 28.
The model's readings: a failed link (log 64), 15,000,000 cycles for 10 ms (log 74), what a die loses (log 63), power (log 71). -/
def Obligations.DiesAndFabric : Prop :=
  (∀ (s : State) (d : Nat), d < 8 →
      (s.phase = .open → (∃ x ∈ s.dies, x.id ≠ d ∧ x.state ≠ .up) → exec (.diereset d) s =
        .next { s with regs := { s.regs with cmd := BitVec.ofNat 32 (16 * d + 1), cmdResult := 1 } })
      ∧ (s.phase = .open → (∀ x ∈ s.dies, x.id ≠ d → x.state = .up) → ∃ t, exec (.diereset d) s = .next t
          ∧ ((s.die d).state ≠ .up → (t.die d).state = (s.die d).state ∧ t.teams = s.teams)
          ∧ ((s.die d).state = .up → (t.die d).state = .draining s.clock)
          ∧ (t.die d).lost = false ∧ (t.die d).warm = true ∧ t.regs.cmdBusy = true ∧ t.regs.cmd = BitVec.ofNat 32 (16 * d + 1)
          ∧ ((s.die d).state = .up → ∀ x ∈ s.teams, s.team? x.id = some x → dieOfCore x.core = d → x.state = .run → s.bound' x = false → x.task.set = none →
              ∃ y, t.team? x.id = some y ∧ y.state = .halt))
      ∧ (∀ since, (s.die d).state = .draining since →
          let on := s.teams.filter fun x => decide (dieOfCore x.core = d ∧ (x.state = .run ∨ x.state = .halt))
          (on ≠ [] → s.clock < since + 15000000 → exec (.dieDrainTimeout d) s = .next s)
          ∧ (on ≠ [] → since + 15000000 ≤ s.clock → ∃ t, exec (.dieDrainTimeout d) s = .next t
              ∧ ∀ x ∈ on, x.sup = false → x.stopped = false → (t.tenant x.tenant).state = .stopped)
          ∧ (on = [] → ∃ t, exec (.dieDrainTimeout d) s = .next t ∧ (t.die d).state = .down ∧ (t.die d).epoch = 0
              ∧ (t.die d).walks = [] ∧ (t.die d).regions = []
              ∧ (∀ x ∈ t.stamps, x.die.getD (dieOfClus (homeOf x.pa)) ≠ d) ∧ (∀ c ∈ t.cores, dieOfCore c.id ≠ d)
              ∧ ∀ c ∈ t.clusters, dieOfClus c.id = d →
                  c.tiles = [] ∧ c.squares = [] ∧ c.banks = [] ∧ c.tlb = [] ∧ c.deque = [] ∧ c.fused = false))
      ∧ (((s.die d).state ≠ .down ∨ (s.die d).lost = true) → exec (.dieReadmit d) s = .next s)
      ∧ ((s.die d).state = .down → (s.die d).lost = false → ∃ t, exec (.dieReadmit d) s = .next t
          ∧ (t.die d).state = .up ∧ (t.die d).warm = false ∧ t.regs = { s.regs with cmdBusy := false, cmdResult := 0 }
          ∧ ∀ c pa, ((s.core c).lines.map (·.pa)).Nodup → (∀ x ∈ (s.core c).lines, x.pa % 64 = 0) → s.isLocal pa = true →
              homeDie pa = d → t.dirtyByte c pa = none)
      ∧ ∃ t, exec (.dieLinkFail d) s = .next t ∧ t.regs.cmdResult = 2 ∧ t.regs.cmdBusy = false
          ∧ (t.die d).lost = true ∧ (t.die d).state = if (s.die d).state = .up then .draining s.clock else (s.die d).state)
  ∧ ((∀ (s : State) (port : Nat) (flit : List Byte), port < 36 →
        let p := s.port port
        let seq := leNat ((flit.drop 2).take 2)
        let ack := leNat ((flit.drop 4).take 4) % 4096
        let good := flit.length = 256 ∧ bytesLE 8 (Config.crc64 (flit.take 248)).toNat = flit.drop 248 ∧ seq < 4096
        (p.up = false → exec (.flitReceive port flit) s = .next s)
        ∧ (p.up = true → ¬ good → exec (.flitReceive port flit) s = .next (s.reply (.replayFrom port (seq % 4096))))
        ∧ (p.up = true → good → ∃ t, exec (.flitReceive port flit) s = .next t
            ∧ (t.port port).unacked = p.unacked.filter (fun f => decide (2048 ≤ (ack + 4096 - leNat ((f.bytes.drop 2).take 2) % 4096) % 4096))
            ∧ (seq = p.rx → (t.port port).rx = (p.rx + 1) % 4096 ∧ (t.port port).taken = p.taken ++ [(flit.drop 8).take 240]
                ∧ t.polfel = s.polfel)
            ∧ (seq ≠ p.rx → (t.port port).rx = p.rx ∧ (t.port port).taken = p.taken
                ∧ t.polfel.replies = s.polfel.replies ++
                    (if (p.rx + 4096 - seq) % 4096 < 2048 then [] else [.replayFrom port p.rx]))))
    ∧ (∀ (s : State) (port : Nat), port < 36 →
        let p := s.port port
        let fails := p.up = true ∧ ∃ f ∈ p.unacked, 8 ≤ f.replays
        let load : List Flit → List (Nat × Nat × List Byte) := fun l => l.map fun f => (f.dest, f.tenant, (f.bytes.drop 8).take 240)
        let live := fun (q m : Nat) => q ≠ port ∧ (s.port q).up = true ∧ ∃ r ∈ s.routes, r.1 = m ∧ q ∈ r.2
        (p.up = true → ¬ fails → exec (.portDown port) s = .next s)
        ∧ (fails → ∃ t, exec (.portDown port) s = .next t
            ∧ (t.port port).up = false ∧ (∀ f ∈ (t.port port).unacked, f ∈ p.unacked ∧ ∃ q, live q f.dest)
            ∧ (∀ p2 < 36, (∀ f ∈ p.unacked, ∀ q < 36, live q f.dest ↔ q = p2) → (s.port p2).tx < 4096 →
                (s.port p2).unacked.length + p.unacked.length ≤ 1024 → (∀ f ∈ p.unacked, f.bytes.length = 256) →
                (t.port port).unacked = [] ∧ load (t.port p2).unacked = load (s.port p2).unacked ++ load p.unacked
                  ∧ (t.port p2).tx = ((s.port p2).tx + p.unacked.length) % 4096
                  ∧ ∃ l : List (List Byte), t.polfel.replies = s.polfel.replies ++ l.map (.flit p2) ∧ l.map (fun b => (b.drop 8).take 240) = (load p.unacked).map (·.2.2))
            ∧ (∀ f ∈ p.unacked, (∀ q, ¬ live q f.dest) → f.tenant < 64 →
                ∃ x ∈ t.fatals, x.tenant = f.tenant ∧ x.sup = false ∧ leNat (x.record.take 4) = 6 * 4096 + 0x26)
            ∧ ∀ c ∈ t.cmds, ∀ r ∈ c.runs, ∀ x ∈ r.dst, ∀ pa, x.loc = .mem pa → rangeOf pa = .hbm → t.isLocal pa = false →
                t.reachable (moduleOf pa) = true)
        ∧ (p.up = true → exec (.portRetrain port) s = .next s)
        ∧ (p.up = false → ∃ t, exec (.portRetrain port) s = .next t ∧ (t.port port).up = true ∧ (t.port port).rx = 0
            ∧ (t.port port).tx = p.unacked.length % 4096
            ∧ ((∀ f ∈ p.unacked, f.bytes.length = 256) → load (t.port port).unacked = load p.unacked)))
    ∧ (∀ (s : State) (rest : List Move) (port dest tenant : Nat) (payload : List Byte), s.timeEvent = none → port < 36 →
        s.agenda = .send port dest tenant payload :: rest →
        let p := s.port port
        let route := ∃ r ∈ s.routes, r.1 = dest ∧ port ∈ r.2
        ((p.up = false ∨ 1024 ≤ p.unacked.length ∨ ¬ route) → step s = .next { s with agenda := rest })
        ∧ (p.up = true → p.unacked.length < 1024 → route → payload.length = 240 → p.tx < 4096 → ∃ t b, step s = .next t
            ∧ b.length = 256 ∧ (b.drop 8).take 240 = payload ∧ leNat ((b.drop 2).take 2) = p.tx
            ∧ b.drop 248 = bytesLE 8 (Config.crc64 (b.take 248)).toNat
            ∧ t.port port = { p with tx := (p.tx + 1) % 4096, unacked := p.unacked ++ [{ dest := dest, tenant := tenant, replays := 0, bytes := b }] }
            ∧ t.polfel.replies = s.polfel.replies ++ [.flit port b]))
    ∧ (∀ (s : State) (rest : List Move) (port seq : Nat), s.timeEvent = none → port < 36 → s.agenda = .replay port seq :: rest →
        let p := s.port port
        let again := fun (f : Flit) => decide ((leNat ((f.bytes.drop 2).take 2) % 4096 + 4096 - seq) % 4096 < 2048)
        (p.up = false → step s = .next { s with agenda := rest })
        ∧ (p.up = true → ∃ t, step s = .next t
            ∧ t.port port = { p with unacked := p.unacked.map fun f => if again f then { f with replays := f.replays + 1 } else f }
            ∧ t.polfel.replies = s.polfel.replies ++ (p.unacked.filter again).map fun f => .flit port f.bytes))
    ∧ (∀ (s : State) (rest : List Move) (dev : Nat) (routes : List (Nat × List Nat)), s.timeEvent = none → s.Inv →
        s.agenda = .fabric dev routes :: rest → ∃ t, step s = .next t ∧ t.regs.devnum = dev % 64 ∧ t.routes = routes
          ∧ ∀ pa, s.isLocal pa = true → cellGet (pa % 2 ^ 41 + dev % 64 * 2 ^ 41) t.mem = cellGet pa s.mem)
    ∧ (∀ (s : State) (f : Nat), (64 < f → exec (.pcieConfigRequest f) s = .next s)
        ∧ (f ≤ 64 → exec (.pcieConfigRequest f) s = .next (s.reply (if s.phase = .open then .config f else .retryStatus f))))
    ∧ ∀ s : State, ∃ t, exec .pcapThrottle s = .next t
        ∧ t.regs = { s.regs with power := BitVec.ofNat 32 (Config.powerWatts s.polfel.windows) }
        ∧ (t.polfel.withhold = true ↔ s.regs.pcap.toNat ≤ t.regs.power.toNat))

/-- R356, R362 to R364, R370, R372: boot takes the slot of the newest intact marker that verifies, else slot 0, else slot 1,
and opens with HBM zero and every tenant absent, or enters recovery. A firmware update writes the slot that is not
active, and both markers once it verifies. The life cycle advances once per change, HBM being zeroed and each die in or out of service
as it was; boot trains every die into service; power loss keeps
the flash, host memory and storage, an update it cuts short leaving what the flash held then. A fatal event stops every
tenant, writes the dump and ends work; a second watchdog reset of Polfel within a second is one, the first restores
torn queue blocks from their shadow and drops with code 7 the launches accepted since. A slot verifies if its header gives
the image's length and the key's signature over its digest.
The model's readings: 1,500,000,000 cycles for 1 s (log 74), what a life-cycle change keeps (log 68), that
memory outside the module's HBM stays (log 4), and a signature is one function of the digest (log 103).
What a dump holds behind its header is free (log 69), which launches a torn block loses is log 67, and what a life-cycle change
leaves logs 64 and 68. -/
def Obligations.BootUpdateAndFatal : Prop :=
  let good := fun (x : Slot) => x.header.length = x.image.length ∧ x.header.signature = Config.imageSign (sha256 x.image)
  let keeps := fun (s t : State) => s.Inv → ∀ a, cellGet a t.mem = if s.isLocal a then 0 else cellGet a s.mem
  (∀ s : State,
      (s.phase ≠ .off → exec .powerOnBoot s = .next s)
      ∧ (s.phase = .off → ∃ t, exec .powerOnBoot s = .next t ∧
          let ok := fun (n : Nat) => ∃ x, s.polfel.slots[n]? = some x ∧ good x
          let mark := fun (b : List Byte) (q n : Nat) => b.length = 16 ∧ leNat (b.take 4) = 0x4B384D4B ∧
            leNat ((b.drop 12).take 4) = (crc32c (b.take 12)).toNat ∧ q = leNat ((b.drop 4).take 4) ∧ n = leNat ((b.drop 8).take 4)
          let boots := fun (n : Nat) => t.phase = .open ∧ t.polfel.booted = some n ∧ t.teams = [] ∧ t.launches = []
            ∧ keeps s t ∧ (∀ d, (t.die d).state = .up ∧ (t.die d).lost = false) ∧ ∀ id < 64, (t.tenant id).state = .absent
          (∀ q0 n0 q1 n1, mark s.polfel.marker0 q0 n0 → mark s.polfel.marker1 q1 n1 →
              let later := 1 ≤ (q1 + 2 ^ 32 - q0) % 2 ^ 32 ∧ (q1 + 2 ^ 32 - q0) % 2 ^ 32 ≤ 0x7FFFFFFF
              (later → ok n1 → boots n1) ∧ (¬ later → ok n0 → boots n0) ∧ (later → ¬ ok n1 → ok n0 → boots n0)
              ∧ (¬ later → ¬ ok n0 → ok n1 → boots n1))
          ∧ (∀ q n, mark s.polfel.marker0 q n → (∀ q n, ¬ mark s.polfel.marker1 q n) → ok n → boots n)
          ∧ (∀ q n, mark s.polfel.marker1 q n → (∀ q n, ¬ mark s.polfel.marker0 q n) → ok n → boots n)
          ∧ ((∀ q n, ¬ mark s.polfel.marker0 q n) → (∀ q n, ¬ mark s.polfel.marker1 q n) →
              (ok 0 → boots 0) ∧ (¬ ok 0 → ok 1 → boots 1))
          ∧ ((∀ n, ¬ ok n) → t.phase = .recovery ∧ t.polfel.booted = none)))
  ∧ (∀ (s : State) (image : List Byte) (h : FwHeader) (q n : Nat) (other : Slot), (s.phase = .open ∨ s.phase = .recovery) →
      s.polfel.markers = [(q, n), (q, n)] → n < 2 → s.polfel.slots.length = 2 → s.polfel.slots[n]? = some other →
      ∃ t, exec (.firmwareUpdate image h) s = .next t
        ∧ t.polfel.slots[1 - n]? = some { header := h, image := image } ∧ t.polfel.slots[n]? = some other
        ∧ (¬ good { header := h, image := image } → t.polfel.marker0 = s.polfel.marker0 ∧ t.polfel.marker1 = s.polfel.marker1)
        ∧ (good { header := h, image := image } → t.polfel.marker0 = markerBytes ((q + 1) % 2 ^ 32) (1 - n) ∧ t.polfel.marker1 = t.polfel.marker0))
  ∧ (∀ s : State,
      ((s.phase ≠ .open ∨ s.polfel.life = .retired) → exec .lifecycleChange s = .next s)
      ∧ (s.phase = .open → s.polfel.life ≠ .retired → ∃ t, exec .lifecycleChange s = .next t ∧ keeps s t
          ∧ (∀ d, (t.die d).state = (s.die d).state ∧ (t.die d).lost = (s.die d).lost ∧ (t.die d).warm = (s.die d).warm)
          ∧ t.polfel.life = if s.polfel.life = .manufacture then .secure else .retired))
  ∧ (∀ (s : State) (image torn : List Byte) (h : FwHeader) (n : Nat), s.phase = .open →
      let new := markerBytes ((s.polfel.steady.1 + 1) % 2 ^ 32) (1 - s.polfel.steady.2)
      let lost := fun (cut : Option (List Byte × FwHeader × FwCut)) (m0 m1 : List Byte) (p : State → Prop) =>
        ∃ t, exec (.powerLoss cut) s = .next t
        ∧ t.phase = .off ∧ t.teams = [] ∧ t.launches = [] ∧ t.tenants = [] ∧ t.regs = ModRegs.reset ∧ keeps s t
        ∧ t.polfel.life = s.polfel.life ∧ t.polfel.marker0 = m0 ∧ t.polfel.marker1 = m1 ∧ p t
      let cut := fun (c : FwCut) => some (image, h, c)
      let writes := fun (l : List Byte) (t : State) => t.polfel.slots = s.polfel.slots.set (1 - s.polfel.steady.2) { header := h, image := l }
      lost none s.polfel.marker0 s.polfel.marker1 (fun t => t.polfel.slots = s.polfel.slots)
      ∧ lost (cut (.image n)) s.polfel.marker0 s.polfel.marker1 (writes (image.take n))
      ∧ (¬ good { header := h, image := image } → lost (cut (.copy0 torn)) s.polfel.marker0 s.polfel.marker1 (writes image))
      ∧ (good { header := h, image := image } →
          lost (cut (.copy0 torn)) torn s.polfel.marker1 (writes image)
          ∧ lost (cut .between) new s.polfel.marker1 (writes image)
          ∧ lost (cut (.copy1 torn)) new torn (writes image)))
  ∧ (∀ (s : State) (e : FatalEvent),
      let happens := match e with
        | .softError => True
        | .dieLost => ∃ x ∈ s.dies, x.warm = true ∧ x.lost = true ∧ x.state = .down
        | .polfelTwice => ∃ r, s.polfel.lastReset = some r ∧ s.clock < r + 1500000000
      ((s.phase ≠ .open ∨ ¬ happens) → exec (.moduleFatal e) s = .next s)
      ∧ (s.phase = .open → happens → s.Inv → ∃ t, exec (.moduleFatal e) s = .next t ∧ t.phase = .dead
        ∧ (∀ id < 64, ((s.tenant id).state = .active ∨ (s.tenant id).state = .preempted) → (t.tenant id).state = .stopped)
        ∧ (s.regs.dumpbase ≠ 0 → leNat (cellsGet t.mem s.regs.dumpbase.toNat 4) = 0x44554D50
            ∧ leNat (cellsGet t.mem (s.regs.dumpbase.toNat + 8) 8) = s.clock % 2 ^ 64)))
  ∧ ∀ s : State, s.phase = .open →
      ((∃ r, s.polfel.lastReset = some r ∧ s.clock < r + 1500000000) →
        ∃ t, exec .polfelWatchdogReset s = .next t ∧ t.phase = .dead)
      ∧ ((∀ r, s.polfel.lastReset = some r → r + 1500000000 ≤ s.clock) →
          ∃ t, exec .polfelWatchdogReset s = .next t ∧ t.phase = .open ∧ t.polfel.lastReset = some s.clock
            ∧ ((∀ x ∈ s.tenants, ∀ q < 16, (x.queue q).gen.getLsbD 0 = false) →
                t = { s with polfel := { s.polfel with lastReset := some s.clock } })
            ∧ ∀ id x q, s.tenants = [x] → x.id = id → q < 16 → x.queues.length = 16 → (x.queue q).gen.getLsbD 0 = true →
                ((t.tenant id).queue q).gen = (x.queue q).shadow.1 ∧ ((t.tenant id).queue q).acc = (x.queue q).shadow.2.1
                ∧ (∀ l ∈ t.launches, l.tenant = id → lidQueue l.lid = q →
                  ∃ a, (x.queue q).before = some a ∧ seqAfter (lidSeq l.lid) a = false)
                ∧ ∀ l ∈ s.launches, l.tenant = id → lidQueue l.lid = q →
                  (∀ a, (x.queue q).before = some a → seqAfter (lidSeq l.lid) a = true) →
                  l ∉ t.launches ∧ (t.tenant id).lastdrop = 7)

/-- R365, R366, R371: with PCIe open each SPDM request is answered: version 1.3, the capabilities, RSASSA 3072 with SHA-256,
the digest and the chain of the one certificate slot, a signature over the nonce, and the measurements, of which the second
are the digest of the slot that booted with the SEQ that named it, the third the marker copies and the fourth the life cycle; before that none is. A Redfish resource answers likewise, in
recovery only the update service. A die's predicted life is stored, saturating, and where it falls below 1,000 hours
an event is raised (log 105).
The encodings of answers are the model's records (log 82). -/
def Obligations.AttestationAndManagement : Prop :=
  (∀ s : State,
      let answers := fun (i : Instr) (p : Reply → Prop) =>
        (s.phase ≠ .open → exec i s = .next s) ∧ (s.phase = .open → ∃ r, exec i s = .next (s.reply r) ∧ p r)
      answers .getVersion (· = .version 0x13)
      ∧ answers .getCapabilities (· = .capabilities)
      ∧ answers .negotiateAlgorithms (· = .algorithms "RSASSA-3072" "SHA-256")
      ∧ answers .getDigests (· = .digests [sha256 Config.certificate])
      ∧ answers .getCertificate (· = .certificate Config.certificate)
      ∧ (∀ nonce, answers (.challenge nonce) (· = .challengeAuth nonce (Config.sign nonce).toList))
      ∧ answers .getMeasurements (fun r => ∃ a b e, r = .measurements [a, b, s.polfel.marker0 ++ s.polfel.marker1,
            [match s.polfel.life with | .manufacture => 0 | .secure => 1 | .retired => 2], e]
          ∧ ∀ n x q, s.polfel.booted = some n → s.polfel.slots[n]? = some x → s.polfel.bootSeq = some q →
            b = sha256 (bytesLE 4 x.header.length ++ x.header.signature.toList ++ x.image) ++ bytesLE 4 q)
      ∧ (s.phase = .open →
          exec (.redfishRequest .chassis) s = .next (s.reply (.chassis s.regs.power s.regs.pcap))
          ∧ exec (.redfishRequest .processors) s = .next (s.reply (.processors ((List.range 8).map fun d => (s.die d).eol)))
          ∧ exec (.redfishRequest .memory) s = .next (s.reply (.memory 32))
          ∧ exec (.redfishRequest .componentIntegrity) s = .next (s.reply .integrity))
      ∧ (s.phase = .recovery → exec (.redfishRequest .chassis) s = .next s
          ∧ exec (.redfishRequest .updateService) s = .next (s.reply .update)))
  ∧ ∀ (s : State) (hours : List Nat), ∃ t, exec (.eolUpdate hours) s = .next t
      ∧ (∀ d h, d < 8 → hours[d]? = some h → (t.die d).eol = BitVec.ofNat 32 (min h 0xFFFFFFFF)
          ∧ (t.die d).epoch = (s.die d).epoch ∧ (t.die d).state = (s.die d).state ∧ (h < 1000 → 1000 ≤ (s.die d).eol.toNat → .event d ∈ t.polfel.replies))
      ∧ (∀ d, .event d ∈ t.polfel.replies → .event d ∈ s.polfel.replies ∨
          ∃ h, hours[d]? = some h ∧ h < 1000 ∧ 1000 ≤ (s.die d).eol.toNat)
      ∧ ∀ d, hours.length ≤ d → t.die d = s.die d

/-! ### Steps, encodings, reset and what every step keeps -/

/-- R40, R54, R148, R195, R248, R258, log 2: what time brings in a cycle is the step. Then, with nothing to come from outside, a step
runs the instruction that the next words of the issuing group's clause decode to, and the group moves past its words, a
cycle passing: to the next word while some thread is left in the group and some word in the clause, out of the pipe
otherwise; a word that must wait for its counter or for its home lets the machine's other events go first, and every word a blocked
push or pop that its landing can serve now. With no group in
a clause the step is the event that is due, or a cycle passes, which changes no memory and no team; what comes from outside
goes first. A module that is dead stops.
The order of moves, events and words is the model's (log 2). -/
def Obligations.StepRunsTheDecodedInstruction : Prop :=
  (∀ (s : State) (e : Instr), s.timeEvent = some e → step s = exec e s)
  ∧ (∀ (s : State) (g : Group) (rest : List Group) (i : Instr) (n : Nat), s.timeEvent = none → s.agenda = [] → s.phase ≠ .dead →
      s.groups = g :: rest → decode (g.words.drop g.idx) = .ok (i, n) →
      (s.heldUp g i = false → s.serveEvent = none → ∀ t, exec i s = .next t → step s = .next (t.advance n))
      ∧ (∀ e, s.heldUp g i = false → s.serveEvent = some e → step s = exec e s)
      ∧ (s.heldUp g i = true → step s = match s.nextEvent with | some e => exec e s | none => .next s.tick))
  ∧ (∀ (t : State) (g : Group) (rest : List Group) (n : Nat), t.groups = g :: rest →
      (t.advance n).clock = t.clock + 1 ∧ (t.advance n).agenda = t.agenda
      ∧ ((t.present g = [] ∨ g.words.length ≤ g.idx + n) → (t.advance n).groups = rest)
      ∧ (t.present g ≠ [] → g.idx + n < g.words.length → (t.advance n).groups = { g with idx := g.idx + n } :: rest
          ∧ ((∀ c ∈ t.clusters, ∀ x ∈ c.tiles, x.after = []) →
              ∀ team tid, (t.advance n).thread? team tid = t.thread? team tid)))
  ∧ (∀ (s : State) (e : Instr), s.serveEvent = some e → ∃ team tid, e = .lpushBlockedServe team tid ∨ e = .lpopBlockedServe team tid)
  ∧ (∀ s : State, s.timeEvent = none → s.agenda = [] → s.phase ≠ .dead → s.groups = [] →
      step s = match s.nextEvent with | some e => exec e s | none => .next s.tick)
  ∧ (∀ s : State, s.tick.clock = s.clock + 1 ∧ s.tick.mem = s.mem ∧ s.tick.teams = s.teams ∧ s.tick.groups = s.groups)
  ∧ (∀ (s : State) (i : Instr) (rest : List Move), s.timeEvent = none → s.agenda = .event i :: rest → i.isEvent = true →
      step s = exec i { s with agenda := rest })
  ∧ ∀ s : State, s.timeEvent = none → s.agenda = [] → s.phase = .dead → step s = .fault .moduleFatal

/-- R57 to R66, R72 to R74 and the encodings of the words: one word of each family, written out from its description,
decodes to the instruction it stands for; a zero field that is not zero, a reserved code and a stray modifier do not. -/
def Obligations.EncodedWordsDecode : Prop :=
  decode [0b00000100_0001000_0000011_0000101_000#32] = .ok (.iadd 8 3 5 .i32 .none, 1)
  ∧ decode [0b00000001_0001001_0000000_0000000_010#32, 0x3F800000#32] = .ok (.movDl 9 .f32 0x3F800000#32 .none, 2)
  ∧ decode [0b00100001_011_1_010_0000100_0000110_101#32] = .ok (.icmp .le true 2 4 6 .i64 .none, 1)
  ∧ decode [0b01000011_0001000_0000011_0000101_011#32, 0b11111111_000_1_1_1_0_0_0_00000_1_0_101_00000#32] =
      .ok (.ffma 8 3 5 .f16x2 (.f0 { sat := true, clamp := true, nega := true, absa := false, negb := false, absb := false, scale := 0
                                     guard := { en := true, sense := false, pred := 5 } }), 2)
  ∧ decode [0b01110010_0001000_0000011_0000000_001#32] = .ok (.gvote 8 3 .below, 1)
  ∧ decode [0b10000000_0001000_0000100_010_1111111#32, 0b11111111_001_01_100_00_0000_0_0_000_00000#32] =
      .ok (.ld 8 4 .b32 0b1111111#7 (.f1 { order := .acq, scope := .dom, hint := .normal, guard := Guard.off }), 2)
  ∧ decode [0b10010001_0001000_0000011_0000010_011#32] = .ok (.bsync 8 3 2 .sum .none, 1)
  ∧ decode [0b10011001_0_010_011_0000100_0000000_000#32] = .ok (.lpush 2 3 4 .none, 1)
  ∧ decode [0b10110000_0001000_0000110_1_011_0_10000#32] = .ok (.crsv 8 6 true 3 16 .none, 1)
  ∧ decode [0b11001001_0000010_0000101_011_000011_0#32] = .ok (.mfire 2 5 3 3 .none, 1)
  ∧ decode [0b11010001_0001000_0000011_0000101_110#32] = .ok (.rsadd 8 3 5 { wide := true, slot := 2 } .none, 1)
  ∧ decode [0b11100100_0000000_0000110_0000000_000#32] = .ok (.xpubb 6, 1)
  ∧ decode [0b11110000_1_0_001_1111111111111111110#32] = .ok (.bra { en := true, sense := false, pred := 1 } (-2), 1)
  ∧ decode [0b11111011_0000000_0000110_0001000_000#32] = .ok (.tlbi 6 8 .page .none, 1)
  ∧ decode [0b00001111_0001000_0000011_0000001_000#32] = .error .badWord
  ∧ decode [0b00100001_110_0_010_0000100_0000110_000#32] = .error .badWord
  ∧ decode [0b11111111_000_0_0_0_0_0_0_00000_0_0_000_00000#32] = .error .strayModifier

/-- R287, R290, R291, R351, R353, R362: before boot nothing runs: no team, launch, landing, binding or command exists, every
byte of memory reads 0, no tenant exists, CREDITS is 256 and WCLASS 7, AGESTEP 1 and LEVEL 511, TEAMQ 0, PCAP is 10,000 and
the other module registers are 0; and the machine's invariant holds.
That a byte which nothing has written reads 0 is the model's choice for memory other than HBM (log 4). -/
def Obligations.ResetState : Prop :=
  State.reset.phase = .off ∧ State.reset.teams = [] ∧ State.reset.launches = [] ∧ State.reset.landings = []
  ∧ State.reset.bindings = [] ∧ State.reset.cmds = [] ∧ State.reset.groups = [] ∧ State.reset.agenda = []
  ∧ (∀ a, cellGet a State.reset.mem = 0)
  ∧ (∀ id < 64, (State.reset.tenant id).state = .absent ∧ (State.reset.tenant id).ctrl = BitVec.ofNat 32 (256 * 8 + 7)
      ∧ (State.reset.tenant id).rank = List.replicate 4 (BitVec.ofNat 32 (1 * 2 ^ 24 + 511)) ∧ (State.reset.tenant id).teamq = 0
      ∧ (State.reset.tenant id).drops = 0 ∧ (State.reset.tenant id).lastdrop = 0)
  ∧ State.reset.regs.pcap = 10000 ∧ State.reset.regs.asidtab = 0 ∧ State.reset.regs.fland = 0 ∧ State.reset.regs.devlog = 0
  ∧ State.reset.regs.dumpbase = 0 ∧ State.reset.regs.rtasid = 0 ∧ State.reset.regs.cmdBusy = false
  ∧ State.reset.regs.rtfail = false
  ∧ State.reset.Inv

/-- R57 to R67: every well-formed instruction of the code, with every value of its fields, its literal and its modifier
word, decodes from its words to itself, whatever words follow that are no modifier word of it. -/
def Obligations.DecodeInvertsEncode : Prop :=
  ∀ (i : Instr) (rest : List Word), i.isEvent = false → i.wf = true →
    (i.mods = .none → ∀ w l, rest = w :: l → w.extractLsb' 24 8 ≠ 0xFF#8) →
    decode (encode i ++ rest) = .ok (i, (encode i).length)

/-- R44, R195, R349: every step keeps memory and every scratchpad in canonical form, so that an address has one byte, and leaves
the dirty bytes of an L1 line within the line, none of them dirty twice. -/
def Obligations.StepKeepsInvariant : Prop :=
  ∀ s t : State, s.Inv → step s = .next t → t.Inv
end

