-- ==== Sys2Proof/Laws/Lane.lean ====
section
/-!
SUPPORT. What the lane operations do, said once: a word that each thread computes by itself, and one that each
thread performs on itself.
-/

namespace Sys2Proof.Machine

theorem Thread.setRaw_tid (h : Thread) (i : Nat) (x : DWord) : (h.setRaw i x).tid = h.tid := by
  unfold Thread.setRaw; split <;> [split; skip] <;> rfl

theorem Thread.setRawPred_tid (h : Thread) (i : Nat) (x : Bool) : (h.setRawPred i x).tid = h.tid := by
  unfold Thread.setRawPred; split <;> rfl

theorem Thread.write_tid (h : Thread) (i : Nat) (x : DWord) : (h.write i x).tid = h.tid := Thread.setRaw_tid h i x

theorem Thread.writePred_tid (h : Thread) (i : Nat) (x : Bool) : (h.writePred i x).tid = h.tid :=
  Thread.setRawPred_tid h i x

theorem foldl_tid {β : Type} (f : Thread → β → Thread) (hf : ∀ h x, (f h x).tid = h.tid) (l : List β) (h : Thread) :
    (l.foldl f h).tid = h.tid := by
  induction l generalizing h with
  | nil => rfl
  | cons x l ih => rw [List.foldl_cons, ih, hf]

theorem Out.now_tid (o : Out) (h : Thread) : (o.now h).tid = h.tid := by
  show ((o.preds.foldl (fun t r => t.writePred r.1 r.2) (o.regs.foldl (fun t r => t.write r.1 r.2) h)).tid) = h.tid
  rw [foldl_tid (fun t (r : Nat × Bool) => t.writePred r.1 r.2) (fun h x => Thread.writePred_tid h x.1 x.2),
    foldl_tid (fun t (r : Nat × DWord) => t.write r.1 r.2) (fun h x => Thread.write_tid h x.1 x.2)]

theorem Out.apply_tid (o : Out) (c : Option Ctr) (h : Thread) : (o.apply c h).tid = h.tid := by
  cases c with
  | none => exact Out.now_tid o h
  | some c => rfl

/-- Looking a team up after every team with one id was changed. -/
theorem find_team_map (l : List Team) (p : Team → Prop) [DecidablePred p] (F : Team → Team)
    (hid : ∀ tm, (F tm).id = tm.id) (id : Nat) :
    (l.map fun tm => if p tm then F tm else tm).find? (fun t => t.id = id) =
      (l.find? (fun t => t.id = id)).map fun tm => if p tm then F tm else tm := by
  induction l with
  | nil => rfl
  | cons x l ih =>
      have hx : (if p x then F x else x).id = x.id := by split <;> simp [hid]
      by_cases h : x.id = id
      · simp [h, hx]
      · simp only [List.map_cons, List.find?_cons, hx, h, decide_false]
        exact ih

/-- Looking a thread up after a map that keeps numbers. -/
theorem find_thread_map (l : List Thread) (F : Thread → Thread) (hid : ∀ h, (F h).tid = h.tid) (tid : Nat) :
    (l.map F).find? (fun t => t.tid = tid) = (l.find? (fun t => t.tid = tid)).map F := by
  induction l with
  | nil => rfl
  | cons x l ih =>
      by_cases h : x.tid = tid
      · simp [h, hid]
      · simp only [List.map_cons, List.find?_cons, hid, h, decide_false]
        exact ih

/-- A map over the threads of one team that keeps numbers is `Lanes`. -/
theorem lanes_of_map (s : State) (g : Group) (m : Mods) (F G : Env → Thread → Thread)
    (hG : ∀ e h, (G e h).tid = h.tid)
    (hF : ∀ tm h, tm.id = g.team → G (s.env tm) h = if g.holds h && (s.env tm).guardTrue h m then F (s.env tm) h else h) :
    Lanes s
      { s with
        teams := s.teams.map fun tm =>
          if tm.id = g.team then { tm with threads := tm.threads.map (G (s.env tm)) } else tm
        fresh := s.fresh + 1 } g m F := by
  have key : ∀ id, State.team? { s with
        teams := s.teams.map fun tm =>
          if tm.id = g.team then { tm with threads := tm.threads.map (G (s.env tm)) } else tm
        fresh := s.fresh + 1 } id =
      (s.team? id).map fun tm =>
        if tm.id = g.team then { tm with threads := tm.threads.map (G (s.env tm)) } else tm := by
    intro id
    exact find_team_map s.teams (fun tm => tm.id = g.team)
      (fun tm => { tm with threads := tm.threads.map (G (s.env tm)) }) (fun _ => rfl) id
  refine ⟨?_, ?_, ?_, ⟨_, rfl⟩⟩
  · intro id tid tm h ht hh
    unfold State.thread?
    rw [key, ht]
    by_cases hg : tm.id = g.team
    · simp only [Option.map_some, hg, if_true, Option.bind_some, runsIn, beq_self_eq_true, Bool.true_and]
      unfold Team.thread?
      rw [find_thread_map _ _ (hG _)]
      unfold Team.thread? at hh
      rw [hh, Option.map_some, hF tm h hg]
    · simp [hg, hh, runsIn]
  · intro id tid hn
    unfold State.thread? at hn ⊢
    rw [key]
    cases ht : s.team? id with
    | none => rfl
    | some tm =>
        rw [ht] at hn
        simp only [Option.bind_some, Option.map_some] at hn ⊢
        split
        · unfold Team.thread? at hn ⊢
          rw [find_thread_map _ _ (hG _), hn]; rfl
        · exact hn
  · intro id tm ht
    rw [key, ht]
    by_cases hg : tm.id = g.team
    · exact ⟨_, by simp [hg]; rfl⟩
    · exact ⟨tm.threads, by simp [hg]⟩

/-- A lane word with a group at the head. -/
theorem lane_eq (s : State) (g : Group) (rest : List Group) (m : Mods) (c : Option Ctr) (f : Env → Thread → Out)
    (hg : s.groups = g :: rest) : lane m c f s =
      { s with
        teams := s.teams.map fun tm =>
          if tm.id = g.team then { tm with threads := tm.threads.map (laneThread g (s.env tm) m c f) } else tm
        fresh := s.fresh + 1 } := by
  unfold lane
  split
  · simp_all
  · rename_i g' r' h'
    rw [hg] at h'
    cases h'
    rfl

/-- A word that threads perform on themselves, with a group at the head. -/
theorem own_eq (s : State) (g : Group) (rest : List Group) (m : Mods) (f : Env → Thread → Thread)
    (hg : s.groups = g :: rest) : own m f s =
      { s with
        teams := s.teams.map fun tm =>
          if tm.id = g.team then { tm with threads := tm.threads.map (ownThread g (s.env tm) m f) } else tm
        fresh := s.fresh + 1 } := by
  unfold own
  split
  · simp_all
  · rename_i g' r' h'
    rw [hg] at h'
    cases h'
    rfl

/-- What a word that each thread computes by itself does. -/
theorem lane_lanes (s : State) (g : Group) (rest : List Group) (m : Mods) (c : Option Ctr) (f : Env → Thread → Out)
    (hg : s.groups = g :: rest) : Lanes s (lane m c f s) g m (fun e h => (f e h).apply c h) := by
  rw [lane_eq s g rest _ _ _ hg]
  refine lanes_of_map s g m _ (fun e => laneThread g e m c f) ?_ ?_
  · intro e h
    unfold laneThread
    split
    · exact Out.apply_tid _ _ _
    · rfl
  · intro tm h _
    rfl

/-- What a word that each thread performs on itself does, when it keeps thread numbers. -/
theorem own_lanes (s : State) (g : Group) (rest : List Group) (m : Mods) (f : Env → Thread → Thread)
    (hf : ∀ e h, (f e h).tid = h.tid) (hg : s.groups = g :: rest) : Lanes s (own m f s) g m f := by
  rw [own_eq s g rest _ _ hg]
  refine lanes_of_map s g m _ (fun e => ownThread g e m f) ?_ ?_
  · intro e h
    unfold ownThread
    split
    · exact hf _ _
    · rfl
  · intro tm h _
    rfl

/-- `Lanes` sees a function only where the word runs. -/
theorem Lanes.congr {s t : State} {g : Group} {m : Mods} {F G : Env → Thread → Thread} (l : Lanes s t g m F)
    (h : ∀ tm th, runsIn s g m tm th = true → F (s.env tm) th = G (s.env tm) th) : Lanes s t g m G := by
  refine ⟨?_, l.absent, l.team, l.rest⟩
  intro id tid tm th ht hh
  rw [l.thread id tid tm th ht hh]
  split
  · rw [h tm th ‹_›]
  · rfl

/-- A fixed-latency lane word runs as what it computes. -/
theorem runsNow_of_lane {i : Instr} {s : State} {g : Group} {rest : List Group} {m : Mods} {f k : Env → Thread → Out}
    (he : exec i s = .next (lane m none f s)) (hm : i.mods = m) (hg : s.groups = g :: rest)
    (hf : ∀ e h, f e h = k e h) : RunsNow i s g k := by
  subst hm
  have : f = k := funext fun e => funext fun h => hf e h
  subst this
  exact ⟨_, he, lane_lanes s g rest i.mods none f hg⟩

/-- A variable-latency lane word runs as what it computes. -/
theorem runsLater_of_lane {i : Instr} {s : State} {g : Group} {rest : List Group} {m : Mods} {c : Ctr}
    {f k : Env → Thread → Out}
    (he : exec i s = .next (lane m (some c) f s)) (hm : i.mods = m) (hg : s.groups = g :: rest)
    (hf : ∀ e h, f e h = k e h) : RunsLater i s g c k := by
  subst hm
  have : f = k := funext fun e => funext fun h => hf e h
  subst this
  exact ⟨_, he, lane_lanes s g rest i.mods (some c) f hg⟩

/-- A word that threads perform on themselves runs as what it does. -/
theorem runsAs_of_own {i : Instr} {s : State} {g : Group} {rest : List Group} {m : Mods} {f k : Env → Thread → Thread}
    (he : exec i s = .next (own m f s)) (hm : i.mods = m) (hg : s.groups = g :: rest)
    (hf : ∀ e h, f e h = k e h) (ht : ∀ e h, (f e h).tid = h.tid) : RunsAs i s g k := by
  subst hm
  have : f = k := funext fun e => funext fun h => hf e h
  subst this
  exact ⟨_, he, own_lanes s g rest i.mods f ht hg⟩

/-- A fold over threads is one act after another. -/
theorem oneByOne_foldl (R : State → Nat → State → Prop) (f : State → Nat → State) (h : ∀ s tid, R s tid (f s tid))
    (l : List Nat) (s : State) : OneByOne R s l (l.foldl f s) := by
  induction l generalizing s with
  | nil => exact .nil s
  | cons x l ih => exact .cons (h s x) (ih _)

/-- A word performed thread by thread runs by what one thread does. -/
theorem runsEach_of_eachLane {i : Instr} {s : State} {g : Group} {rest : List Group} {m : Mods}
    {f : State → Group → Nat → State} {R : State → Team → Thread → State → Prop}
    (he : exec i s = .next (eachLane m f s)) (hm : i.mods = m) (hg : s.groups = g :: rest)
    (hf : ∀ s tid tm h, s.team? g.team = some tm → tm.thread? tid = some h → R s tm h (f s g tid)) :
    RunsEach i s g R := by
  subst hm
  refine ⟨(s.active g i.mods).foldl (fun s tid => f s g tid) s, ?_, ?_⟩
  · rw [he]
    unfold eachLane
    split
    · simp_all
    · rename_i g' r' h'
      rw [hg] at h'
      cases h'
      rfl
  · exact oneByOne_foldl _ _ (fun s tid tm h => hf s tid tm h) _ _

/-- A word performed once runs by what the lowest active slot does. -/
theorem runsOnce_of_onceLane {i : Instr} {s : State} {g : Group} {rest : List Group} {m : Mods}
    {f : State → Group → Nat → State} {R : State → Team → Thread → State → Prop}
    (he : exec i s = .next (onceLane m f s)) (hm : i.mods = m) (hg : s.groups = g :: rest)
    (hf : ∀ tid tm h, s.team? g.team = some tm → tm.thread? tid = some h → R s tm h (f s g tid)) :
    RunsOnce i s g R := by
  subst hm
  have key : onceLane i.mods f s = match s.active g i.mods with
      | [] => s
      | tid :: _ => { f s g tid with fresh := (f s g tid).fresh + 1 } := by
    unfold onceLane
    split
    · simp_all
    · rename_i g' r' h'
      rw [hg] at h'
      cases h'
      rfl
  refine ⟨fun h => by rw [he, key, h], fun tid l h => ⟨f s g tid, by rw [he, key, h], hf tid⟩⟩

/-- The number of a thread that was looked up. -/
theorem thread?_tid {tm : Team} {tid : Nat} {h : Thread} (hh : tm.thread? tid = some h) : h.tid = tid := by
  have := List.find?_some hh
  simpa using this

/-- The number of a team that was looked up. -/
theorem team?_id {s : State} {id : Nat} {tm : Team} (ht : s.team? id = some tm) : tm.id = id := by
  have := List.find?_some ht
  simpa using this

/-- `withThread` in a team and a thread that exist. -/
theorem withThread_eq {s : State} {g : Group} {tid : Nat} {tm : Team} {h : Thread} (f : Team → Thread → Env → State)
    (ht : s.team? g.team = some tm) (hh : tm.thread? tid = some h) : s.withThread g tid f = f tm h (s.env tm) := by
  simp [State.withThread, ht, hh]

end Sys2Proof.Machine
end

