-- ==== Sys2Proof/Laws/Alu.lean ====
section
/-!
SUPPORT. The integer operations as bit-vector arithmetic.
-/

namespace Sys2Proof.Machine

theorem wrap_eq (w : Nat) (x : Int) : wrap w x = (BitVec.ofInt w x).toNat := by
  simp [wrap, BitVec.toNat_ofInt]

theorem sext_eq (w x : Nat) (hw : 0 < w) : sext w x = (BitVec.ofNat w x).toInt := by
  unfold sext
  rw [BitVec.toInt_eq_toNat_cond, BitVec.toNat_ofNat]
  have h2 : 2 ^ w = 2 * 2 ^ (w - 1) := by
    rw [← Nat.pow_succ']; congr 1; omega
  by_cases h : x % 2 ^ w < 2 ^ (w - 1)
  · rw [if_pos h, if_pos (by omega)]
  · rw [if_neg h, if_neg (by omega)]

/-- An element's value is what its type reads in its bits. -/
theorem value_eq (t : ElemTy) (x : Nat) (h : t = .n32 → x < 2 ^ 32) :
    ElemTy.value t x = exactT t (BitVec.ofNat (ElemTy.width t) x) := by
  unfold ElemTy.value exactT
  by_cases ht : t = .n32
  · subst ht
    have := h rfl
    simp only [ElemTy.width, if_true, BitVec.toNat_ofNat, Nat.mod_eq_of_lt this]
  · rw [if_neg ht, if_neg ht, sext_eq _ _ (by cases t <;> decide)]

theorem ofNat_mod16 (x : Nat) : BitVec.ofNat 16 (x % 65536) = BitVec.ofNat 16 x := by
  apply BitVec.eq_of_toNat_eq; simp

/-- SAT clamps to the type's bounds and raises its flag outside them. -/
theorem sat_eq (t : ElemTy) (w : Nat) (x : Int) :
    (if t = .n32 then satu w x else sat w x) =
      (max (boundsT t w).1 (min (boundsT t w).2 x),
        if decide (x < (boundsT t w).1 ∨ (boundsT t w).2 < x) then 32 else 0) := by
  have h1 : (1 : Int) ≤ 2 ^ w := by exact_mod_cast Nat.one_le_two_pow
  have h2 : (1 : Int) ≤ 2 ^ (w - 1) := by exact_mod_cast Nat.one_le_two_pow
  unfold boundsT
  by_cases ht : t = .n32
  · simp only [ht, if_true, satu, Nat.cast_pow, Nat.cast_ofNat]
    rcases lt_or_ge x 0 with h | h
    · rw [if_pos h]; simp only [decide_eq_true_eq]; rw [if_pos (Or.inl h)]
      exact Prod.ext (by simp only; omega) rfl
    · rw [if_neg (by omega)]
      rcases lt_or_ge x (2 ^ w) with h' | h'
      · rw [if_neg (by omega)]; simp only [decide_eq_true_eq]; rw [if_neg (by omega)]
        exact Prod.ext (by simp only; omega) rfl
      · rw [if_pos h']; simp only [decide_eq_true_eq]; rw [if_pos (by omega)]
        exact Prod.ext (by simp only; omega) rfl
  · simp only [ht, if_false, sat, Nat.cast_pow, Nat.cast_ofNat]
    rcases lt_or_ge x (-2 ^ (w - 1)) with h | h
    · rw [if_pos h]; simp only [decide_eq_true_eq]; rw [if_pos (Or.inl h)]
      exact Prod.ext (by simp only; omega) rfl
    · rw [if_neg (by omega)]
      rcases lt_or_ge x (2 ^ (w - 1)) with h' | h'
      · rw [if_neg (by omega)]; simp only [decide_eq_true_eq]; rw [if_neg (by omega)]
        exact Prod.ext (by simp only; omega) rfl
      · rw [if_pos h']; simp only [decide_eq_true_eq]; rw [if_pos (by omega)]
        exact Prod.ext (by simp only; omega) rfl

/-- An integer word without SAT gives the exact results modulo the width. -/
theorem lift_intOp_wraps (t : ElemTy) (m : Mods) (f : List Int → Int) (xs : List Nat) (hm : modSat m = false)
    (ht : t.isInt4 = true) (hx : t = .n32 → ∀ x ∈ xs, x < 2 ^ 32) :
    lift t (intOp t m f) xs = (onElems t fun w el => BitVec.ofInt w (f (xs.map fun x => exactT t (el x))), 0) := by
  cases t <;> simp only [ElemTy.isInt4, Bool.false_eq_true] at ht
  case n32 =>
    have hv : (xs.map (ElemTy.value .n32)) = xs.map fun x => exactT .n32 (BitVec.ofNat 32 x) :=
      List.map_congr_left fun x h => value_eq .n32 x fun _ => hx rfl x h
    simp [lift, intOp, onElems, ElemTy.packed, ElemTy.isPair, hm, wrap_eq, ElemTy.width, hv]
  case i32 =>
    have hv : (xs.map (ElemTy.value .i32)) = xs.map fun x => exactT .i32 (BitVec.ofNat 32 x) :=
      List.map_congr_left fun x h => value_eq .i32 x (by simp)
    simp [lift, intOp, onElems, ElemTy.packed, ElemTy.isPair, hm, wrap_eq, ElemTy.width, hv]
  case i64 =>
    have hv : (xs.map (ElemTy.value .i64)) = xs.map fun x => exactT .i64 (BitVec.ofNat 64 x) :=
      List.map_congr_left fun x h => value_eq .i64 x (by simp)
    simp [lift, intOp, onElems, ElemTy.packed, ElemTy.isPair, hm, wrap_eq, ElemTy.width, hv]
  case i16x2 =>
    have hl : (xs.map (· % 65536)).map (ElemTy.value .i16x2) = xs.map fun x => exactT .i16x2 (BitVec.ofNat 16 x) := by
      rw [List.map_map]
      refine List.map_congr_left fun x h => ?_
      rw [Function.comp, value_eq .i16x2 _ (by simp)]
      rw [show ElemTy.width .i16x2 = 16 from rfl, ofNat_mod16]
    have hh : (xs.map (· / 65536)).map (ElemTy.value .i16x2) =
        xs.map fun x => exactT .i16x2 (BitVec.ofNat 16 (x / 65536)) := by
      rw [List.map_map]
      exact List.map_congr_left fun x h => value_eq .i16x2 _ (by simp)
    have b : ∀ x : BitVec 16, x.toNat % 65536 = x.toNat := fun x => Nat.mod_eq_of_lt x.isLt
    simp only [lift, intOp, onElems, ElemTy.packed, hm, wrap_eq, ElemTy.width, if_true, hl, hh, b]
    simp [Nat.add_comm]

/-- An integer word with SAT gives the exact results clamped, and raises SAT if one was. -/
theorem lift_intOp_clamps (t : ElemTy) (m : Mods) (f : List Int → Int) (xs : List Nat) (hm : modSat m = true)
    (ht : t.isInt4 = true) (hx : t = .n32 → ∀ x ∈ xs, x < 2 ^ 32) :
    lift t (intOp t m f) xs = satElems t xs f := by
  have plain : ∀ (t : ElemTy), ElemTy.packed t = false → (t = .n32 → ∀ x ∈ xs, x < 2 ^ 32) →
      intOp t m f xs = ((BitVec.ofInt (ElemTy.width t) (max (boundsT t (ElemTy.width t)).1
        (min (boundsT t (ElemTy.width t)).2 (f (xs.map fun x => exactT t (BitVec.ofNat (ElemTy.width t) x)))))).toNat,
        if decide ((f (xs.map fun x => exactT t (BitVec.ofNat (ElemTy.width t) x))) < (boundsT t (ElemTy.width t)).1 ∨
          (boundsT t (ElemTy.width t)).2 < f (xs.map fun x => exactT t (BitVec.ofNat (ElemTy.width t) x))) then 32 else 0) := by
    intro t _ hx
    have hv : (xs.map (ElemTy.value t)) = xs.map fun x => exactT t (BitVec.ofNat (ElemTy.width t) x) :=
      List.map_congr_left fun x h => value_eq t x fun e => hx e x h
    have hs := sat_eq t (ElemTy.width t)
      (f (xs.map fun x => exactT t (BitVec.ofNat (ElemTy.width t) x)))
    have hw : (if t = .n32 then satu 32 else sat (ElemTy.width t)) = fun x =>
        if t = .n32 then satu (ElemTy.width t) x else sat (ElemTy.width t) x := by
      funext x; by_cases h : t = .n32 <;> simp [h, ElemTy.width]
    unfold intOp
    simp only [hm, if_true, hv, wrap_eq]
    by_cases h : t = .n32
    · subst h
      simp only [if_true] at hs ⊢
      rw [show (32 : Nat) = ElemTy.width .n32 from rfl, hs]
    · simp only [h, if_false] at hs ⊢
      rw [hs]
  cases t <;> simp only [ElemTy.isInt4, Bool.false_eq_true] at ht
  case n32 =>
    simp only [lift, ElemTy.packed, Bool.false_eq_true, if_false]
    rw [plain .n32 rfl hx]; rfl
  case i32 =>
    simp only [lift, ElemTy.packed, Bool.false_eq_true, if_false]
    rw [plain .i32 rfl (by simp)]; rfl
  case i64 =>
    simp only [lift, ElemTy.packed, Bool.false_eq_true, if_false]
    rw [plain .i64 rfl (by simp)]; rfl
  case i16x2 =>
    have hl : (xs.map (· % 65536)).map (ElemTy.value .i16x2) = xs.map fun x => exactT .i16x2 (BitVec.ofNat 16 x) := by
      rw [List.map_map]
      refine List.map_congr_left fun x h => ?_
      rw [Function.comp, value_eq .i16x2 _ (by simp), show ElemTy.width .i16x2 = 16 from rfl, ofNat_mod16]
    have hh : (xs.map (· / 65536)).map (ElemTy.value .i16x2) =
        xs.map fun x => exactT .i16x2 (BitVec.ofNat 16 (x / 65536)) := by
      rw [List.map_map]
      exact List.map_congr_left fun x h => value_eq .i16x2 _ (by simp)
    have b : ∀ x : BitVec 16, x.toNat % 65536 = x.toNat := fun x => Nat.mod_eq_of_lt x.isLt
    have hs := fun x => sat_eq .i16x2 16 x
    simp only [reduceCtorEq, if_false] at hs
    simp only [lift, intOp, ElemTy.packed, hm, if_true, reduceCtorEq, if_false, hl, hh, show ElemTy.width .i16x2 = 16 from rfl,
      hs, wrap_eq, b, satElems, onElems]
    ext1
    · simp only []; omega
    · simp only [Bool.or_eq_true]
      split <;> split <;> simp_all

/-- A source of 32 bits is below 2^32, a pair below 2^64. -/
theorem Env.rdT_lt (e : Env) (h : Thread) (t : ElemTy) (c : Code) (k : Nat) : e.rdT h t c k < 2 ^ (if t.isPair then 64 else 32) := by
  unfold Env.rdT
  split
  · exact (e.rd64 h c k).isLt
  · exact (e.rd32 h c k).isLt

/-- A literal is below 2^32 for a type of 32 bits. -/
theorem litVal_lt (t : ElemTy) (l : Word) (ht : t.isPair = false) : litVal t l < 2 ^ 32 := by
  cases t <;> simp_all [ElemTy.isPair, litVal] <;> exact l.isLt

theorem sources2_lt {e : Env} {h : Thread} {t : ElemTy} {a b : Code} {i j : Nat} : t = .n32 → ∀ x ∈ [e.rdT h t a i, e.rdT h t b j], x < 2 ^ 32 := by
  rintro rfl x hx
  have h1 := Env.rdT_lt e h .n32 a i
  have h2 := Env.rdT_lt e h .n32 b j
  simp [ElemTy.isPair] at h1 h2 hx ⊢
  rcases hx with rfl | rfl <;> assumption
theorem sources3_lt {e : Env} {h : Thread} {t : ElemTy} {a b c : Code} {i j k : Nat} : t = .n32 → ∀ x ∈ [e.rdT h t a i, e.rdT h t b j, e.rdT h t c k], x < 2 ^ 32 := by
  rintro rfl x hx
  have h1 := Env.rdT_lt e h .n32 a i
  have h2 := Env.rdT_lt e h .n32 b j
  have h3 := Env.rdT_lt e h .n32 c k
  simp [ElemTy.isPair] at h1 h2 h3 hx ⊢
  rcases hx with rfl | rfl | rfl <;> assumption
theorem sources1_lt {e : Env} {h : Thread} {t : ElemTy} {a : Code} {i : Nat} : t = .n32 → ∀ x ∈ [e.rdT h t a i], x < 2 ^ 32 := by
  rintro rfl x hx
  have h1 := Env.rdT_lt e h .n32 a i
  simp [ElemTy.isPair] at h1 hx ⊢
  subst hx; assumption
theorem sourceLit_lt {e : Env} {h : Thread} {t : ElemTy} {a : Code} {i : Nat} {l : Word} : t = .n32 → ∀ x ∈ [e.rdT h t a i, litVal t l], x < 2 ^ 32 := by
  rintro rfl x hx
  have h1 := Env.rdT_lt e h .n32 a i
  have h2 := litVal_lt .n32 l rfl
  simp [ElemTy.isPair] at h1 h2 hx ⊢
  rcases hx with rfl | rfl <;> assumption

theorem onElems_congr (t : ElemTy) (f g : (w : Nat) → (Nat → BitVec w) → BitVec w) (h : ∀ w el, f w el = g w el) : onElems t f = onElems t g := by
  have : f = g := funext fun w => funext fun el => h w el
  rw [this]

theorem ofInt_exact (t : ElemTy) {w : Nat} (x : BitVec w) : BitVec.ofInt w (exactT t x) = x := by
  unfold exactT; split <;> simp

theorem satElems_congr (t : ElemTy) (xs : List Nat) (f g : List Int → Int) (h : ∀ ys, ys.length = xs.length → f ys = g ys) : satElems t xs f = satElems t xs g := by
  unfold satElems
  simp only [h _ (List.length_map _)]

theorem ofInt_sub {w : Nat} (x y : Int) : BitVec.ofInt w (x - y) = BitVec.ofInt w x - BitVec.ofInt w y := by
  rw [Int.sub_eq_add_neg, BitVec.ofInt_add, BitVec.ofInt_neg, BitVec.sub_eq_add_neg]

/-! ### Uniform registers that groups race for (R81) -/

/-- A k register reads as its value, or as an older one that the thread may still read. -/
theorem Team.readK_mem (tm : Team) (n tid i : Nat) : tm.readK n tid i = tm.k.getD i 0 ∨ tm.readK n tid i ∈ tm.staleK tid i := by
  unfold Team.readK
  cases h : tm.staleK tid i with
  | nil => exact .inl rfl
  | cons x l =>
    have hn : Config.choice n % (l.length + 2) < (tm.k.getD i 0 :: x :: l).length := Nat.mod_lt _ (by omega)
    have e : choose n (tm.k.getD i 0) (tm.k.getD i 0 :: x :: l) = (tm.k.getD i 0 :: x :: l)[Config.choice n % (l.length + 2)] := by
      simp only [choose, List.getD_eq_getElem _ _ hn]
    rw [e]
    exact List.mem_cons.mp (List.getElem_mem hn)

/-- With nothing older to read it has one value. -/
theorem Team.readK_known {tm : Team} {tid i : Nat} (h : tm.staleK tid i = []) (n : Nat) : tm.readK n tid i = tm.k.getD i 0 := by
  simp only [Team.readK, h, choose]

/-- A KSET changes nothing of the team but its k registers and what may still be read of them. -/
theorem Team.writeK_frame (n i : Nat) (who : List Nat) (x : Word) (tm : Team) :
    tm.writeK n i who x = { tm with k := (tm.writeK n i who x).k, kold := (tm.writeK n i who x).kold } := by
  unfold Team.writeK
  dsimp only
  split <;> rfl

end Sys2Proof.Machine
end

