-- ==== Sys2Proof/Laws/Memory.lean ====
section
/-!
SUPPORT. Memory as a list of cells: a read after a write, the canonical form, and the bytes of a number.
-/

namespace Sys2Proof.Machine

/-! ### The canonical form -/

theorem cellsFrom_mono {lo hi : Nat} (h : lo ≤ hi) {l : List Host.Cell} (hl : cellsFrom hi l = true) : cellsFrom lo l = true := by
  cases l with
  | nil => rfl
  | cons c l =>
    obtain ⟨x, b⟩ := c
    simp only [cellsFrom, Bool.and_eq_true, decide_eq_true_eq] at hl ⊢
    exact ⟨⟨by omega, hl.1.2⟩, hl.2⟩

theorem cellsFrom_cellSet (a : Nat) (v : Byte) (l : List Host.Cell) :
    ∀ lo, lo ≤ a → cellsFrom lo l = true → cellsFrom lo (cellSet a v l) = true := by
  induction l with
  | nil =>
    intro lo h _
    unfold cellSet
    split <;> simp_all [cellsFrom]
  | cons c l ih =>
    obtain ⟨x, b⟩ := c
    intro lo h hl
    simp only [cellsFrom, Bool.and_eq_true, decide_eq_true_eq] at hl
    unfold cellSet
    split
    · next hax =>
      split
      · simp [cellsFrom, hl]
      · next hv =>
        simp only [cellsFrom, Bool.and_eq_true, decide_eq_true_eq]
        exact ⟨⟨h, by simpa using hv⟩, ⟨by omega, hl.1.2⟩, hl.2⟩
    · split
      · next hxa =>
        split
        · exact cellsFrom_mono (by omega) hl.2
        · next hv =>
          simp only [cellsFrom, Bool.and_eq_true, decide_eq_true_eq]
          exact ⟨⟨hl.1.1, by simpa using hv⟩, hl.2⟩
      · simp only [cellsFrom, Bool.and_eq_true, decide_eq_true_eq]
        exact ⟨hl.1, ih _ (by omega) hl.2⟩

/-- A write of one byte keeps the canonical form. -/
theorem wf_cellSet {a : Nat} {v : Byte} {m : List Host.Cell} (h : Memory.wf m = true) : Memory.wf (cellSet a v m) = true :=
  cellsFrom_cellSet a v m 0 (Nat.zero_le a) h

/-- A write of some bytes keeps the canonical form. -/
theorem wf_cellsSet {m : List Host.Cell} (h : Memory.wf m = true) (a : Nat) (l : List Byte) :
    Memory.wf (cellsSet m a l) = true := by
  induction l generalizing m a with
  | nil => exact h
  | cons b l ih => exact ih (wf_cellSet h) (a + 1)

theorem cellsFrom_filter (p : Host.Cell → Bool) (l : List Host.Cell) :
    ∀ lo, cellsFrom lo l = true → cellsFrom lo (l.filter p) = true := by
  induction l with
  | nil => intro lo h; exact h
  | cons c l ih =>
    obtain ⟨x, b⟩ := c
    intro lo h
    simp only [cellsFrom, Bool.and_eq_true, decide_eq_true_eq] at h
    rw [List.filter_cons]
    split
    · simp only [cellsFrom, Bool.and_eq_true, decide_eq_true_eq]
      exact ⟨h.1, ih _ h.2⟩
    · exact cellsFrom_mono (by omega) (ih _ h.2)

/-- Dropping some entries keeps the canonical form. -/
theorem wf_filter (p : Host.Cell → Bool) {m : List Host.Cell} (h : Memory.wf m = true) : Memory.wf (m.filter p) = true :=
  cellsFrom_filter p m 0 h

/-! ### Reading after writing -/

theorem cellGet_below {a lo : Nat} {l : List Host.Cell} (hl : cellsFrom lo l = true) (h : a < lo) : cellGet a l = memDefault := by
  cases l with
  | nil => rfl
  | cons c l =>
    obtain ⟨x, b⟩ := c
    simp only [cellsFrom, Bool.and_eq_true, decide_eq_true_eq] at hl
    unfold cellGet
    rw [if_neg (by omega), if_pos (by omega)]

theorem cellGet_cellSet_from (a c : Nat) (v : Byte) (l : List Host.Cell) :
    ∀ lo, cellsFrom lo l = true → cellGet c (cellSet a v l) = if c = a then v else cellGet c l := by
  induction l with
  | nil =>
    intro lo _
    unfold cellSet
    split
    · next hv => split <;> simp [cellGet, hv]
    · by_cases h : a = c
      · simp [cellGet, h]
      · rw [if_neg (fun h' => h h'.symm)]; simp [cellGet, h]
  | cons e l ih =>
    obtain ⟨x, b⟩ := e
    intro lo hl
    simp only [cellsFrom, Bool.and_eq_true, decide_eq_true_eq] at hl
    unfold cellSet
    split
    · next hax =>
      split
      · next hv =>
        by_cases h : c = a
        · subst h
          rw [if_pos rfl, hv]
          unfold cellGet
          rw [if_neg (by omega), if_pos hax]
        · rw [if_neg h]
      · by_cases h : c = a
        · subst h; simp [cellGet]
        · rw [if_neg h]
          conv_lhs => unfold cellGet
          rw [if_neg (fun h' => h h'.symm)]
          split
          · next hca => unfold cellGet; rw [if_neg (by omega), if_pos (by omega)]
          · rfl
    · split
      · next hxa =>
        subst hxa
        split
        · next hv =>
          by_cases h : c = a
          · subst h; rw [if_pos rfl, hv]; exact cellGet_below hl.2 (by omega)
          · rw [if_neg h]
            conv_rhs => unfold cellGet
            rw [if_neg (fun h' => h h'.symm)]
            split
            · exact cellGet_below hl.2 (by omega)
            · rfl
        · by_cases h : c = a
          · subst h; simp [cellGet]
          · have h' : ¬ a = c := fun h' => h h'.symm
            simp [cellGet, h, h']
      · conv_lhs => unfold cellGet
        by_cases h : c = a
        · subst h
          rw [if_neg (by omega), if_neg (by omega), ih _ hl.2, if_pos rfl, if_pos rfl]
        · rw [if_neg h]
          conv_rhs => unfold cellGet
          rw [ih _ hl.2, if_neg h]

/-- A byte written is read back, every other one is as it was. -/
theorem cellGet_cellSet {m : List Host.Cell} (h : Memory.wf m = true) (a c : Nat) (v : Byte) :
    cellGet c (cellSet a v m) = if c = a then v else cellGet c m :=
  cellGet_cellSet_from a c v m 0 h

/-- Bytes written are read back, every other one is as it was. -/
theorem cellGet_cellsSet {m : List Host.Cell} (h : Memory.wf m = true) (a : Nat) (l : List Byte) (c : Nat) :
    cellGet c (cellsSet m a l) = if a ≤ c ∧ c < a + l.length then l.getD (c - a) 0 else cellGet c m := by
  induction l generalizing m a with
  | nil => rw [if_neg (by simp)]; rfl
  | cons b l ih =>
    rw [show cellsSet m a (b :: l) = cellsSet (cellSet a b m) (a + 1) l from rfl, ih (wf_cellSet h), cellGet_cellSet h]
    by_cases hc : c = a
    · subst hc
      rw [if_neg (by omega), if_pos rfl, if_pos (by simp)]
      simp
    · by_cases h2 : a + 1 ≤ c ∧ c < a + 1 + l.length
      · rw [if_pos h2, if_pos (by simp only [List.length_cons]; omega)]
        obtain ⟨k, rfl⟩ : ∃ k, c = a + 1 + k := ⟨c - (a + 1), by omega⟩
        rw [show a + 1 + k - (a + 1) = k by omega, show a + 1 + k - a = k + 1 by omega, List.getD_cons_succ]
      · rw [if_neg h2, if_neg hc, if_neg (by simp only [List.length_cons]; omega)]

/-- What stays of a memory from which whole addresses are dropped. -/
theorem cellGet_filter_from (p : Nat → Bool) (c : Nat) (l : List Host.Cell) :
    ∀ lo, cellsFrom lo l = true → cellGet c (l.filter fun e => p e.1) = if p c then cellGet c l else memDefault := by
  induction l with
  | nil => intro lo _; simp [cellGet]
  | cons e l ih =>
    obtain ⟨x, b⟩ := e
    intro lo hl
    simp only [cellsFrom, Bool.and_eq_true, decide_eq_true_eq] at hl
    rw [List.filter_cons]
    by_cases hx : x = c
    · subst hx
      by_cases hp : p x = true
      · simp [hp, cellGet]
      · rw [if_neg (by simpa using hp), if_neg hp]
        exact cellGet_below (cellsFrom_filter _ _ _ hl.2) (by omega)
    · split
      · conv_lhs => unfold cellGet
        conv_rhs => unfold cellGet
        rw [if_neg hx, if_neg hx]
        split
        · simp
        · exact ih _ hl.2
      · rw [ih _ hl.2]
        conv_rhs => unfold cellGet
        rw [if_neg hx]
        split
        · split
          · exact cellGet_below hl.2 (by omega)
          · rfl
        · rfl

/-- What stays of a memory from which whole addresses are dropped. -/
theorem cellGet_filter (p : Nat → Bool) (c : Nat) {m : List Host.Cell} (h : Memory.wf m = true) :
    cellGet c (m.filter fun e => p e.1) = if p c then cellGet c m else memDefault :=
  cellGet_filter_from p c m 0 h

theorem eq_of_cellGet_from : ∀ (l m : List Host.Cell) (lo : Nat), cellsFrom lo l = true → cellsFrom lo m = true →
    (∀ a, cellGet a l = cellGet a m) → l = m
  | [], [], _, _, _, _ => rfl
  | [], (x, b) :: m, lo, _, hm, h => by
    simp only [cellsFrom, Bool.and_eq_true, decide_eq_true_eq] at hm
    have := h x
    simp only [cellGet, if_true] at this
    simp [← this] at hm
  | (x, b) :: l, [], lo, hl, _, h => by
    simp only [cellsFrom, Bool.and_eq_true, decide_eq_true_eq] at hl
    have := h x
    simp only [cellGet, if_true] at this
    simp [this] at hl
  | (x, b) :: l, (y, d) :: m, lo, hl, hm, h => by
    simp only [cellsFrom, Bool.and_eq_true, decide_eq_true_eq] at hl hm
    have hxy : x = y := by
      rcases Nat.lt_trichotomy x y with hlt | heq | hgt
      · have := h x
        simp only [cellGet, if_true, if_neg (Nat.ne_of_gt hlt), if_pos hlt] at this
        simp [this] at hl
      · exact heq
      · have := h y
        simp only [cellGet, if_true, if_neg (Nat.ne_of_gt hgt), if_pos hgt] at this
        simp [← this] at hm
    subst hxy
    have hbd : b = d := by simpa [cellGet] using h x
    subst hbd
    rw [eq_of_cellGet_from l m (x + 1) hl.2 hm.2 fun a => ?_]
    have ha := h a
    simp only [cellGet] at ha
    by_cases h1 : x = a
    · subst h1
      rw [cellGet_below hl.2 (by omega), cellGet_below hm.2 (by omega)]
    · by_cases h2 : a < x
      · rw [cellGet_below hl.2 (by omega), cellGet_below hm.2 (by omega)]
      · simpa [h1, h2] using ha

/-- Two canonical memories that read alike are equal data. -/
theorem eq_of_cellGet {l m : List Host.Cell} (hl : Memory.wf l = true) (hm : Memory.wf m = true)
    (h : ∀ a, cellGet a l = cellGet a m) : l = m :=
  eq_of_cellGet_from l m 0 hl hm h

@[simp] theorem cellsGet_length (m : List Host.Cell) (a n : Nat) : (cellsGet m a n).length = n := by
  induction n generalizing a with
  | zero => rfl
  | succ n ih => simp [cellsGet, ih]

theorem cellsGet_getD (m : List Host.Cell) (a n i : Nat) (h : i < n) : (cellsGet m a n).getD i 0 = cellGet (a + i) m := by
  induction n generalizing a i with
  | zero => omega
  | succ n ih =>
    cases i with
    | zero => simp [cellsGet]
    | succ i =>
      rw [cellsGet, List.getD_cons_succ, ih (a + 1) i (by omega)]
      rw [show a + 1 + i = a + (i + 1) by omega]

/-- Bytes that read alike are read alike together. -/
theorem cellsGet_congr {m k : List Host.Cell} {a b n : Nat} (h : ∀ i < n, cellGet (a + i) m = cellGet (b + i) k) :
    cellsGet m a n = cellsGet k b n := by
  induction n generalizing a b with
  | zero => rfl
  | succ n ih =>
    rw [cellsGet, cellsGet, show cellGet a m = cellGet b k by simpa using h 0 (by omega),
      ih (a := a + 1) (b := b + 1) fun i hi => by
        have := h (i + 1) (by omega)
        rw [show a + 1 + i = a + (i + 1) by omega, show b + 1 + i = b + (i + 1) by omega]; exact this]

/-! ### The bytes of a number -/

@[simp] theorem bytesLE_length (n x : Nat) : (bytesLE n x).length = n := by
  induction n generalizing x with
  | zero => rfl
  | succ n ih => simp [bytesLE, ih]

/-- The bytes of a number spell it. -/
@[simp] theorem leNat_bytesLE (n x : Nat) : leNat (bytesLE n x) = x % 256 ^ n := by
  induction n generalizing x with
  | zero => simp [bytesLE, leNat, Nat.mod_one]
  | succ n ih =>
    rw [bytesLE, leNat, ih, BitVec.toNat_ofNat, show 256 ^ (n + 1) = 256 * 256 ^ n from Nat.pow_succ', Nat.mod_mul]

theorem leNat_lt (l : List Byte) : leNat l < 256 ^ l.length := by
  induction l with
  | nil => simp [leNat]
  | cons b l ih =>
    have := b.isLt
    rw [leNat, List.length_cons, Nat.pow_succ]
    omega

/-- The number that the bytes just written spell is the one they were made of. -/
theorem leNat_cellsGet_cellsSet {m : List Host.Cell} (h : Memory.wf m = true) (a : Nat) (l : List Byte) :
    cellsGet (cellsSet m a l) a l.length = l := by
  apply List.ext_getElem (by simp)
  intro i h1 h2
  have := cellsGet_getD (cellsSet m a l) a l.length i h2
  rw [cellGet_cellsSet h, if_pos (by omega), show a + i - a = i by omega] at this
  rw [List.getD_eq_getElem _ _ h1, List.getD_eq_getElem _ _ h2] at this
  exact this

end Sys2Proof.Machine
end

