-- ==== Sys2Proof/Laws/State.lean ====
section
/-!
SUPPORT. For each update of the state, each field that it leaves as it was.
-/

namespace Sys2Proof.Machine

/-! ### modDie -/

@[simp] theorem State.modDie_phase (s : State) (d : Nat) (f : Die → Die) : (s.modDie d f).phase = s.phase := rfl
@[simp] theorem State.modDie_clock (s : State) (d : Nat) (f : Die → Die) : (s.modDie d f).clock = s.clock := rfl
@[simp] theorem State.modDie_fresh (s : State) (d : Nat) (f : Die → Die) : (s.modDie d f).fresh = s.fresh := rfl
@[simp] theorem State.modDie_ids (s : State) (d : Nat) (f : Die → Die) : (s.modDie d f).ids = s.ids := rfl
@[simp] theorem State.modDie_agenda (s : State) (d : Nat) (f : Die → Die) : (s.modDie d f).agenda = s.agenda := rfl
@[simp] theorem State.modDie_groups (s : State) (d : Nat) (f : Die → Die) : (s.modDie d f).groups = s.groups := rfl
@[simp] theorem State.modDie_mem (s : State) (d : Nat) (f : Die → Die) : (s.modDie d f).mem = s.mem := rfl
@[simp] theorem State.modDie_tags (s : State) (d : Nat) (f : Die → Die) : (s.modDie d f).tags = s.tags := rfl
@[simp] theorem State.modDie_stamps (s : State) (d : Nat) (f : Die → Die) : (s.modDie d f).stamps = s.stamps := rfl
@[simp] theorem State.modDie_teams (s : State) (d : Nat) (f : Die → Die) : (s.modDie d f).teams = s.teams := rfl
@[simp] theorem State.modDie_cores (s : State) (d : Nat) (f : Die → Die) : (s.modDie d f).cores = s.cores := rfl
@[simp] theorem State.modDie_clusters (s : State) (d : Nat) (f : Die → Die) : (s.modDie d f).clusters = s.clusters := rfl
@[simp] theorem State.modDie_landings (s : State) (d : Nat) (f : Die → Die) : (s.modDie d f).landings = s.landings := rfl
@[simp] theorem State.modDie_pageMarks (s : State) (d : Nat) (f : Die → Die) : (s.modDie d f).pageMarks = s.pageMarks := rfl
@[simp] theorem State.modDie_publishes (s : State) (d : Nat) (f : Die → Die) : (s.modDie d f).publishes = s.publishes := rfl
@[simp] theorem State.modDie_catts (s : State) (d : Nat) (f : Die → Die) : (s.modDie d f).catts = s.catts := rfl
@[simp] theorem State.modDie_cmds (s : State) (d : Nat) (f : Die → Die) : (s.modDie d f).cmds = s.cmds := rfl
@[simp] theorem State.modDie_bindings (s : State) (d : Nat) (f : Die → Die) : (s.modDie d f).bindings = s.bindings := rfl
@[simp] theorem State.modDie_remaps (s : State) (d : Nat) (f : Die → Die) : (s.modDie d f).remaps = s.remaps := rfl
@[simp] theorem State.modDie_launches (s : State) (d : Nat) (f : Die → Die) : (s.modDie d f).launches = s.launches := rfl
@[simp] theorem State.modDie_tenants (s : State) (d : Nat) (f : Die → Die) : (s.modDie d f).tenants = s.tenants := rfl
@[simp] theorem State.modDie_floors (s : State) (d : Nat) (f : Die → Die) : (s.modDie d f).floors = s.floors := rfl
@[simp] theorem State.modDie_fatals (s : State) (d : Nat) (f : Die → Die) : (s.modDie d f).fatals = s.fatals := rfl
@[simp] theorem State.modDie_lastCluster (s : State) (d : Nat) (f : Die → Die) : (s.modDie d f).lastCluster = s.lastCluster := rfl
@[simp] theorem State.modDie_ports (s : State) (d : Nat) (f : Die → Die) : (s.modDie d f).ports = s.ports := rfl
@[simp] theorem State.modDie_routes (s : State) (d : Nat) (f : Die → Die) : (s.modDie d f).routes = s.routes := rfl
@[simp] theorem State.modDie_fullAt (s : State) (d : Nat) (f : Die → Die) : (s.modDie d f).fullAt = s.fullAt := rfl
@[simp] theorem State.modDie_tickCtime (s : State) (d : Nat) (f : Die → Die) : (s.modDie d f).tickCtime = s.tickCtime := rfl
@[simp] theorem State.modDie_tickPressure (s : State) (d : Nat) (f : Die → Die) : (s.modDie d f).tickPressure = s.tickPressure := rfl
@[simp] theorem State.modDie_regs (s : State) (d : Nat) (f : Die → Die) : (s.modDie d f).regs = s.regs := rfl
@[simp] theorem State.modDie_polfel (s : State) (d : Nat) (f : Die → Die) : (s.modDie d f).polfel = s.polfel := rfl
@[simp] theorem State.modDie_archive (s : State) (d : Nat) (f : Die → Die) : (s.modDie d f).archive = s.archive := rfl

/-! ### setCore -/

@[simp] theorem State.setCore_phase (s : State) (c : Core) : (s.setCore c).phase = s.phase := rfl
@[simp] theorem State.setCore_clock (s : State) (c : Core) : (s.setCore c).clock = s.clock := rfl
@[simp] theorem State.setCore_fresh (s : State) (c : Core) : (s.setCore c).fresh = s.fresh := rfl
@[simp] theorem State.setCore_ids (s : State) (c : Core) : (s.setCore c).ids = s.ids := rfl
@[simp] theorem State.setCore_agenda (s : State) (c : Core) : (s.setCore c).agenda = s.agenda := rfl
@[simp] theorem State.setCore_groups (s : State) (c : Core) : (s.setCore c).groups = s.groups := rfl
@[simp] theorem State.setCore_mem (s : State) (c : Core) : (s.setCore c).mem = s.mem := rfl
@[simp] theorem State.setCore_tags (s : State) (c : Core) : (s.setCore c).tags = s.tags := rfl
@[simp] theorem State.setCore_stamps (s : State) (c : Core) : (s.setCore c).stamps = s.stamps := rfl
@[simp] theorem State.setCore_teams (s : State) (c : Core) : (s.setCore c).teams = s.teams := rfl
@[simp] theorem State.setCore_clusters (s : State) (c : Core) : (s.setCore c).clusters = s.clusters := rfl
@[simp] theorem State.setCore_dies (s : State) (c : Core) : (s.setCore c).dies = s.dies := rfl
@[simp] theorem State.setCore_landings (s : State) (c : Core) : (s.setCore c).landings = s.landings := rfl
@[simp] theorem State.setCore_pageMarks (s : State) (c : Core) : (s.setCore c).pageMarks = s.pageMarks := rfl
@[simp] theorem State.setCore_publishes (s : State) (c : Core) : (s.setCore c).publishes = s.publishes := rfl
@[simp] theorem State.setCore_catts (s : State) (c : Core) : (s.setCore c).catts = s.catts := rfl
@[simp] theorem State.setCore_cmds (s : State) (c : Core) : (s.setCore c).cmds = s.cmds := rfl
@[simp] theorem State.setCore_bindings (s : State) (c : Core) : (s.setCore c).bindings = s.bindings := rfl
@[simp] theorem State.setCore_remaps (s : State) (c : Core) : (s.setCore c).remaps = s.remaps := rfl
@[simp] theorem State.setCore_launches (s : State) (c : Core) : (s.setCore c).launches = s.launches := rfl
@[simp] theorem State.setCore_tenants (s : State) (c : Core) : (s.setCore c).tenants = s.tenants := rfl
@[simp] theorem State.setCore_floors (s : State) (c : Core) : (s.setCore c).floors = s.floors := rfl
@[simp] theorem State.setCore_fatals (s : State) (c : Core) : (s.setCore c).fatals = s.fatals := rfl
@[simp] theorem State.setCore_lastCluster (s : State) (c : Core) : (s.setCore c).lastCluster = s.lastCluster := rfl
@[simp] theorem State.setCore_ports (s : State) (c : Core) : (s.setCore c).ports = s.ports := rfl
@[simp] theorem State.setCore_routes (s : State) (c : Core) : (s.setCore c).routes = s.routes := rfl
@[simp] theorem State.setCore_fullAt (s : State) (c : Core) : (s.setCore c).fullAt = s.fullAt := rfl
@[simp] theorem State.setCore_tickCtime (s : State) (c : Core) : (s.setCore c).tickCtime = s.tickCtime := rfl
@[simp] theorem State.setCore_tickPressure (s : State) (c : Core) : (s.setCore c).tickPressure = s.tickPressure := rfl
@[simp] theorem State.setCore_regs (s : State) (c : Core) : (s.setCore c).regs = s.regs := rfl
@[simp] theorem State.setCore_polfel (s : State) (c : Core) : (s.setCore c).polfel = s.polfel := rfl
@[simp] theorem State.setCore_archive (s : State) (c : Core) : (s.setCore c).archive = s.archive := rfl

/-! ### modCore -/

@[simp] theorem State.modCore_phase (s : State) (c : Nat) (f : Core → Core) : (s.modCore c f).phase = s.phase := rfl
@[simp] theorem State.modCore_clock (s : State) (c : Nat) (f : Core → Core) : (s.modCore c f).clock = s.clock := rfl
@[simp] theorem State.modCore_fresh (s : State) (c : Nat) (f : Core → Core) : (s.modCore c f).fresh = s.fresh := rfl
@[simp] theorem State.modCore_ids (s : State) (c : Nat) (f : Core → Core) : (s.modCore c f).ids = s.ids := rfl
@[simp] theorem State.modCore_agenda (s : State) (c : Nat) (f : Core → Core) : (s.modCore c f).agenda = s.agenda := rfl
@[simp] theorem State.modCore_groups (s : State) (c : Nat) (f : Core → Core) : (s.modCore c f).groups = s.groups := rfl
@[simp] theorem State.modCore_mem (s : State) (c : Nat) (f : Core → Core) : (s.modCore c f).mem = s.mem := rfl
@[simp] theorem State.modCore_tags (s : State) (c : Nat) (f : Core → Core) : (s.modCore c f).tags = s.tags := rfl
@[simp] theorem State.modCore_stamps (s : State) (c : Nat) (f : Core → Core) : (s.modCore c f).stamps = s.stamps := rfl
@[simp] theorem State.modCore_teams (s : State) (c : Nat) (f : Core → Core) : (s.modCore c f).teams = s.teams := rfl
@[simp] theorem State.modCore_clusters (s : State) (c : Nat) (f : Core → Core) : (s.modCore c f).clusters = s.clusters := rfl
@[simp] theorem State.modCore_dies (s : State) (c : Nat) (f : Core → Core) : (s.modCore c f).dies = s.dies := rfl
@[simp] theorem State.modCore_landings (s : State) (c : Nat) (f : Core → Core) : (s.modCore c f).landings = s.landings := rfl
@[simp] theorem State.modCore_pageMarks (s : State) (c : Nat) (f : Core → Core) : (s.modCore c f).pageMarks = s.pageMarks := rfl
@[simp] theorem State.modCore_publishes (s : State) (c : Nat) (f : Core → Core) : (s.modCore c f).publishes = s.publishes := rfl
@[simp] theorem State.modCore_catts (s : State) (c : Nat) (f : Core → Core) : (s.modCore c f).catts = s.catts := rfl
@[simp] theorem State.modCore_cmds (s : State) (c : Nat) (f : Core → Core) : (s.modCore c f).cmds = s.cmds := rfl
@[simp] theorem State.modCore_bindings (s : State) (c : Nat) (f : Core → Core) : (s.modCore c f).bindings = s.bindings := rfl
@[simp] theorem State.modCore_remaps (s : State) (c : Nat) (f : Core → Core) : (s.modCore c f).remaps = s.remaps := rfl
@[simp] theorem State.modCore_launches (s : State) (c : Nat) (f : Core → Core) : (s.modCore c f).launches = s.launches := rfl
@[simp] theorem State.modCore_tenants (s : State) (c : Nat) (f : Core → Core) : (s.modCore c f).tenants = s.tenants := rfl
@[simp] theorem State.modCore_floors (s : State) (c : Nat) (f : Core → Core) : (s.modCore c f).floors = s.floors := rfl
@[simp] theorem State.modCore_fatals (s : State) (c : Nat) (f : Core → Core) : (s.modCore c f).fatals = s.fatals := rfl
@[simp] theorem State.modCore_lastCluster (s : State) (c : Nat) (f : Core → Core) : (s.modCore c f).lastCluster = s.lastCluster := rfl
@[simp] theorem State.modCore_ports (s : State) (c : Nat) (f : Core → Core) : (s.modCore c f).ports = s.ports := rfl
@[simp] theorem State.modCore_routes (s : State) (c : Nat) (f : Core → Core) : (s.modCore c f).routes = s.routes := rfl
@[simp] theorem State.modCore_fullAt (s : State) (c : Nat) (f : Core → Core) : (s.modCore c f).fullAt = s.fullAt := rfl
@[simp] theorem State.modCore_tickCtime (s : State) (c : Nat) (f : Core → Core) : (s.modCore c f).tickCtime = s.tickCtime := rfl
@[simp] theorem State.modCore_tickPressure (s : State) (c : Nat) (f : Core → Core) : (s.modCore c f).tickPressure = s.tickPressure := rfl
@[simp] theorem State.modCore_regs (s : State) (c : Nat) (f : Core → Core) : (s.modCore c f).regs = s.regs := rfl
@[simp] theorem State.modCore_polfel (s : State) (c : Nat) (f : Core → Core) : (s.modCore c f).polfel = s.polfel := rfl
@[simp] theorem State.modCore_archive (s : State) (c : Nat) (f : Core → Core) : (s.modCore c f).archive = s.archive := rfl

/-! ### setCluster -/

@[simp] theorem State.setCluster_phase (s : State) (c : Cluster) : (s.setCluster c).phase = s.phase := rfl
@[simp] theorem State.setCluster_clock (s : State) (c : Cluster) : (s.setCluster c).clock = s.clock := rfl
@[simp] theorem State.setCluster_fresh (s : State) (c : Cluster) : (s.setCluster c).fresh = s.fresh := rfl
@[simp] theorem State.setCluster_ids (s : State) (c : Cluster) : (s.setCluster c).ids = s.ids := rfl
@[simp] theorem State.setCluster_agenda (s : State) (c : Cluster) : (s.setCluster c).agenda = s.agenda := rfl
@[simp] theorem State.setCluster_groups (s : State) (c : Cluster) : (s.setCluster c).groups = s.groups := rfl
@[simp] theorem State.setCluster_mem (s : State) (c : Cluster) : (s.setCluster c).mem = s.mem := rfl
@[simp] theorem State.setCluster_tags (s : State) (c : Cluster) : (s.setCluster c).tags = s.tags := rfl
@[simp] theorem State.setCluster_stamps (s : State) (c : Cluster) : (s.setCluster c).stamps = s.stamps := rfl
@[simp] theorem State.setCluster_teams (s : State) (c : Cluster) : (s.setCluster c).teams = s.teams := rfl
@[simp] theorem State.setCluster_cores (s : State) (c : Cluster) : (s.setCluster c).cores = s.cores := rfl
@[simp] theorem State.setCluster_dies (s : State) (c : Cluster) : (s.setCluster c).dies = s.dies := rfl
@[simp] theorem State.setCluster_landings (s : State) (c : Cluster) : (s.setCluster c).landings = s.landings := rfl
@[simp] theorem State.setCluster_pageMarks (s : State) (c : Cluster) : (s.setCluster c).pageMarks = s.pageMarks := rfl
@[simp] theorem State.setCluster_publishes (s : State) (c : Cluster) : (s.setCluster c).publishes = s.publishes := rfl
@[simp] theorem State.setCluster_catts (s : State) (c : Cluster) : (s.setCluster c).catts = s.catts := rfl
@[simp] theorem State.setCluster_cmds (s : State) (c : Cluster) : (s.setCluster c).cmds = s.cmds := rfl
@[simp] theorem State.setCluster_bindings (s : State) (c : Cluster) : (s.setCluster c).bindings = s.bindings := rfl
@[simp] theorem State.setCluster_remaps (s : State) (c : Cluster) : (s.setCluster c).remaps = s.remaps := rfl
@[simp] theorem State.setCluster_launches (s : State) (c : Cluster) : (s.setCluster c).launches = s.launches := rfl
@[simp] theorem State.setCluster_tenants (s : State) (c : Cluster) : (s.setCluster c).tenants = s.tenants := rfl
@[simp] theorem State.setCluster_floors (s : State) (c : Cluster) : (s.setCluster c).floors = s.floors := rfl
@[simp] theorem State.setCluster_fatals (s : State) (c : Cluster) : (s.setCluster c).fatals = s.fatals := rfl
@[simp] theorem State.setCluster_lastCluster (s : State) (c : Cluster) : (s.setCluster c).lastCluster = s.lastCluster := rfl
@[simp] theorem State.setCluster_ports (s : State) (c : Cluster) : (s.setCluster c).ports = s.ports := rfl
@[simp] theorem State.setCluster_routes (s : State) (c : Cluster) : (s.setCluster c).routes = s.routes := rfl
@[simp] theorem State.setCluster_fullAt (s : State) (c : Cluster) : (s.setCluster c).fullAt = s.fullAt := rfl
@[simp] theorem State.setCluster_tickCtime (s : State) (c : Cluster) : (s.setCluster c).tickCtime = s.tickCtime := rfl
@[simp] theorem State.setCluster_tickPressure (s : State) (c : Cluster) : (s.setCluster c).tickPressure = s.tickPressure := rfl
@[simp] theorem State.setCluster_regs (s : State) (c : Cluster) : (s.setCluster c).regs = s.regs := rfl
@[simp] theorem State.setCluster_polfel (s : State) (c : Cluster) : (s.setCluster c).polfel = s.polfel := rfl
@[simp] theorem State.setCluster_archive (s : State) (c : Cluster) : (s.setCluster c).archive = s.archive := rfl

/-! ### modCluster -/

@[simp] theorem State.modCluster_phase (s : State) (c : Nat) (f : Cluster → Cluster) : (s.modCluster c f).phase = s.phase := rfl
@[simp] theorem State.modCluster_clock (s : State) (c : Nat) (f : Cluster → Cluster) : (s.modCluster c f).clock = s.clock := rfl
@[simp] theorem State.modCluster_fresh (s : State) (c : Nat) (f : Cluster → Cluster) : (s.modCluster c f).fresh = s.fresh := rfl
@[simp] theorem State.modCluster_ids (s : State) (c : Nat) (f : Cluster → Cluster) : (s.modCluster c f).ids = s.ids := rfl
@[simp] theorem State.modCluster_agenda (s : State) (c : Nat) (f : Cluster → Cluster) : (s.modCluster c f).agenda = s.agenda := rfl
@[simp] theorem State.modCluster_groups (s : State) (c : Nat) (f : Cluster → Cluster) : (s.modCluster c f).groups = s.groups := rfl
@[simp] theorem State.modCluster_mem (s : State) (c : Nat) (f : Cluster → Cluster) : (s.modCluster c f).mem = s.mem := rfl
@[simp] theorem State.modCluster_tags (s : State) (c : Nat) (f : Cluster → Cluster) : (s.modCluster c f).tags = s.tags := rfl
@[simp] theorem State.modCluster_stamps (s : State) (c : Nat) (f : Cluster → Cluster) : (s.modCluster c f).stamps = s.stamps := rfl
@[simp] theorem State.modCluster_teams (s : State) (c : Nat) (f : Cluster → Cluster) : (s.modCluster c f).teams = s.teams := rfl
@[simp] theorem State.modCluster_cores (s : State) (c : Nat) (f : Cluster → Cluster) : (s.modCluster c f).cores = s.cores := rfl
@[simp] theorem State.modCluster_dies (s : State) (c : Nat) (f : Cluster → Cluster) : (s.modCluster c f).dies = s.dies := rfl
@[simp] theorem State.modCluster_landings (s : State) (c : Nat) (f : Cluster → Cluster) : (s.modCluster c f).landings = s.landings := rfl
@[simp] theorem State.modCluster_pageMarks (s : State) (c : Nat) (f : Cluster → Cluster) : (s.modCluster c f).pageMarks = s.pageMarks := rfl
@[simp] theorem State.modCluster_publishes (s : State) (c : Nat) (f : Cluster → Cluster) : (s.modCluster c f).publishes = s.publishes := rfl
@[simp] theorem State.modCluster_catts (s : State) (c : Nat) (f : Cluster → Cluster) : (s.modCluster c f).catts = s.catts := rfl
@[simp] theorem State.modCluster_cmds (s : State) (c : Nat) (f : Cluster → Cluster) : (s.modCluster c f).cmds = s.cmds := rfl
@[simp] theorem State.modCluster_bindings (s : State) (c : Nat) (f : Cluster → Cluster) : (s.modCluster c f).bindings = s.bindings := rfl
@[simp] theorem State.modCluster_remaps (s : State) (c : Nat) (f : Cluster → Cluster) : (s.modCluster c f).remaps = s.remaps := rfl
@[simp] theorem State.modCluster_launches (s : State) (c : Nat) (f : Cluster → Cluster) : (s.modCluster c f).launches = s.launches := rfl
@[simp] theorem State.modCluster_tenants (s : State) (c : Nat) (f : Cluster → Cluster) : (s.modCluster c f).tenants = s.tenants := rfl
@[simp] theorem State.modCluster_floors (s : State) (c : Nat) (f : Cluster → Cluster) : (s.modCluster c f).floors = s.floors := rfl
@[simp] theorem State.modCluster_fatals (s : State) (c : Nat) (f : Cluster → Cluster) : (s.modCluster c f).fatals = s.fatals := rfl
@[simp] theorem State.modCluster_lastCluster (s : State) (c : Nat) (f : Cluster → Cluster) : (s.modCluster c f).lastCluster = s.lastCluster := rfl
@[simp] theorem State.modCluster_ports (s : State) (c : Nat) (f : Cluster → Cluster) : (s.modCluster c f).ports = s.ports := rfl
@[simp] theorem State.modCluster_routes (s : State) (c : Nat) (f : Cluster → Cluster) : (s.modCluster c f).routes = s.routes := rfl
@[simp] theorem State.modCluster_fullAt (s : State) (c : Nat) (f : Cluster → Cluster) : (s.modCluster c f).fullAt = s.fullAt := rfl
@[simp] theorem State.modCluster_tickCtime (s : State) (c : Nat) (f : Cluster → Cluster) : (s.modCluster c f).tickCtime = s.tickCtime := rfl
@[simp] theorem State.modCluster_tickPressure (s : State) (c : Nat) (f : Cluster → Cluster) : (s.modCluster c f).tickPressure = s.tickPressure := rfl
@[simp] theorem State.modCluster_regs (s : State) (c : Nat) (f : Cluster → Cluster) : (s.modCluster c f).regs = s.regs := rfl
@[simp] theorem State.modCluster_polfel (s : State) (c : Nat) (f : Cluster → Cluster) : (s.modCluster c f).polfel = s.polfel := rfl
@[simp] theorem State.modCluster_archive (s : State) (c : Nat) (f : Cluster → Cluster) : (s.modCluster c f).archive = s.archive := rfl

/-! ### setTenant -/

@[simp] theorem State.setTenant_phase (s : State) (t : Tenant) : (s.setTenant t).phase = s.phase := rfl
@[simp] theorem State.setTenant_clock (s : State) (t : Tenant) : (s.setTenant t).clock = s.clock := rfl
@[simp] theorem State.setTenant_fresh (s : State) (t : Tenant) : (s.setTenant t).fresh = s.fresh := rfl
@[simp] theorem State.setTenant_ids (s : State) (t : Tenant) : (s.setTenant t).ids = s.ids := rfl
@[simp] theorem State.setTenant_agenda (s : State) (t : Tenant) : (s.setTenant t).agenda = s.agenda := rfl
@[simp] theorem State.setTenant_groups (s : State) (t : Tenant) : (s.setTenant t).groups = s.groups := rfl
@[simp] theorem State.setTenant_mem (s : State) (t : Tenant) : (s.setTenant t).mem = s.mem := rfl
@[simp] theorem State.setTenant_tags (s : State) (t : Tenant) : (s.setTenant t).tags = s.tags := rfl
@[simp] theorem State.setTenant_stamps (s : State) (t : Tenant) : (s.setTenant t).stamps = s.stamps := rfl
@[simp] theorem State.setTenant_teams (s : State) (t : Tenant) : (s.setTenant t).teams = s.teams := rfl
@[simp] theorem State.setTenant_cores (s : State) (t : Tenant) : (s.setTenant t).cores = s.cores := rfl
@[simp] theorem State.setTenant_clusters (s : State) (t : Tenant) : (s.setTenant t).clusters = s.clusters := rfl
@[simp] theorem State.setTenant_dies (s : State) (t : Tenant) : (s.setTenant t).dies = s.dies := rfl
@[simp] theorem State.setTenant_landings (s : State) (t : Tenant) : (s.setTenant t).landings = s.landings := rfl
@[simp] theorem State.setTenant_pageMarks (s : State) (t : Tenant) : (s.setTenant t).pageMarks = s.pageMarks := rfl
@[simp] theorem State.setTenant_publishes (s : State) (t : Tenant) : (s.setTenant t).publishes = s.publishes := rfl
@[simp] theorem State.setTenant_catts (s : State) (t : Tenant) : (s.setTenant t).catts = s.catts := rfl
@[simp] theorem State.setTenant_cmds (s : State) (t : Tenant) : (s.setTenant t).cmds = s.cmds := rfl
@[simp] theorem State.setTenant_bindings (s : State) (t : Tenant) : (s.setTenant t).bindings = s.bindings := rfl
@[simp] theorem State.setTenant_remaps (s : State) (t : Tenant) : (s.setTenant t).remaps = s.remaps := rfl
@[simp] theorem State.setTenant_launches (s : State) (t : Tenant) : (s.setTenant t).launches = s.launches := rfl
@[simp] theorem State.setTenant_floors (s : State) (t : Tenant) : (s.setTenant t).floors = s.floors := rfl
@[simp] theorem State.setTenant_fatals (s : State) (t : Tenant) : (s.setTenant t).fatals = s.fatals := rfl
@[simp] theorem State.setTenant_lastCluster (s : State) (t : Tenant) : (s.setTenant t).lastCluster = s.lastCluster := rfl
@[simp] theorem State.setTenant_ports (s : State) (t : Tenant) : (s.setTenant t).ports = s.ports := rfl
@[simp] theorem State.setTenant_routes (s : State) (t : Tenant) : (s.setTenant t).routes = s.routes := rfl
@[simp] theorem State.setTenant_fullAt (s : State) (t : Tenant) : (s.setTenant t).fullAt = s.fullAt := rfl
@[simp] theorem State.setTenant_tickCtime (s : State) (t : Tenant) : (s.setTenant t).tickCtime = s.tickCtime := rfl
@[simp] theorem State.setTenant_tickPressure (s : State) (t : Tenant) : (s.setTenant t).tickPressure = s.tickPressure := rfl
@[simp] theorem State.setTenant_regs (s : State) (t : Tenant) : (s.setTenant t).regs = s.regs := rfl
@[simp] theorem State.setTenant_polfel (s : State) (t : Tenant) : (s.setTenant t).polfel = s.polfel := rfl
@[simp] theorem State.setTenant_archive (s : State) (t : Tenant) : (s.setTenant t).archive = s.archive := rfl

/-! ### modTenant -/

@[simp] theorem State.modTenant_phase (s : State) (t : Nat) (f : Tenant → Tenant) : (s.modTenant t f).phase = s.phase := rfl
@[simp] theorem State.modTenant_clock (s : State) (t : Nat) (f : Tenant → Tenant) : (s.modTenant t f).clock = s.clock := rfl
@[simp] theorem State.modTenant_fresh (s : State) (t : Nat) (f : Tenant → Tenant) : (s.modTenant t f).fresh = s.fresh := rfl
@[simp] theorem State.modTenant_ids (s : State) (t : Nat) (f : Tenant → Tenant) : (s.modTenant t f).ids = s.ids := rfl
@[simp] theorem State.modTenant_agenda (s : State) (t : Nat) (f : Tenant → Tenant) : (s.modTenant t f).agenda = s.agenda := rfl
@[simp] theorem State.modTenant_groups (s : State) (t : Nat) (f : Tenant → Tenant) : (s.modTenant t f).groups = s.groups := rfl
@[simp] theorem State.modTenant_mem (s : State) (t : Nat) (f : Tenant → Tenant) : (s.modTenant t f).mem = s.mem := rfl
@[simp] theorem State.modTenant_tags (s : State) (t : Nat) (f : Tenant → Tenant) : (s.modTenant t f).tags = s.tags := rfl
@[simp] theorem State.modTenant_stamps (s : State) (t : Nat) (f : Tenant → Tenant) : (s.modTenant t f).stamps = s.stamps := rfl
@[simp] theorem State.modTenant_teams (s : State) (t : Nat) (f : Tenant → Tenant) : (s.modTenant t f).teams = s.teams := rfl
@[simp] theorem State.modTenant_cores (s : State) (t : Nat) (f : Tenant → Tenant) : (s.modTenant t f).cores = s.cores := rfl
@[simp] theorem State.modTenant_clusters (s : State) (t : Nat) (f : Tenant → Tenant) : (s.modTenant t f).clusters = s.clusters := rfl
@[simp] theorem State.modTenant_dies (s : State) (t : Nat) (f : Tenant → Tenant) : (s.modTenant t f).dies = s.dies := rfl
@[simp] theorem State.modTenant_landings (s : State) (t : Nat) (f : Tenant → Tenant) : (s.modTenant t f).landings = s.landings := rfl
@[simp] theorem State.modTenant_pageMarks (s : State) (t : Nat) (f : Tenant → Tenant) : (s.modTenant t f).pageMarks = s.pageMarks := rfl
@[simp] theorem State.modTenant_publishes (s : State) (t : Nat) (f : Tenant → Tenant) : (s.modTenant t f).publishes = s.publishes := rfl
@[simp] theorem State.modTenant_catts (s : State) (t : Nat) (f : Tenant → Tenant) : (s.modTenant t f).catts = s.catts := rfl
@[simp] theorem State.modTenant_cmds (s : State) (t : Nat) (f : Tenant → Tenant) : (s.modTenant t f).cmds = s.cmds := rfl
@[simp] theorem State.modTenant_bindings (s : State) (t : Nat) (f : Tenant → Tenant) : (s.modTenant t f).bindings = s.bindings := rfl
@[simp] theorem State.modTenant_remaps (s : State) (t : Nat) (f : Tenant → Tenant) : (s.modTenant t f).remaps = s.remaps := rfl
@[simp] theorem State.modTenant_launches (s : State) (t : Nat) (f : Tenant → Tenant) : (s.modTenant t f).launches = s.launches := rfl
@[simp] theorem State.modTenant_floors (s : State) (t : Nat) (f : Tenant → Tenant) : (s.modTenant t f).floors = s.floors := rfl
@[simp] theorem State.modTenant_fatals (s : State) (t : Nat) (f : Tenant → Tenant) : (s.modTenant t f).fatals = s.fatals := rfl
@[simp] theorem State.modTenant_lastCluster (s : State) (t : Nat) (f : Tenant → Tenant) : (s.modTenant t f).lastCluster = s.lastCluster := rfl
@[simp] theorem State.modTenant_ports (s : State) (t : Nat) (f : Tenant → Tenant) : (s.modTenant t f).ports = s.ports := rfl
@[simp] theorem State.modTenant_routes (s : State) (t : Nat) (f : Tenant → Tenant) : (s.modTenant t f).routes = s.routes := rfl
@[simp] theorem State.modTenant_fullAt (s : State) (t : Nat) (f : Tenant → Tenant) : (s.modTenant t f).fullAt = s.fullAt := rfl
@[simp] theorem State.modTenant_tickCtime (s : State) (t : Nat) (f : Tenant → Tenant) : (s.modTenant t f).tickCtime = s.tickCtime := rfl
@[simp] theorem State.modTenant_tickPressure (s : State) (t : Nat) (f : Tenant → Tenant) : (s.modTenant t f).tickPressure = s.tickPressure := rfl
@[simp] theorem State.modTenant_regs (s : State) (t : Nat) (f : Tenant → Tenant) : (s.modTenant t f).regs = s.regs := rfl
@[simp] theorem State.modTenant_polfel (s : State) (t : Nat) (f : Tenant → Tenant) : (s.modTenant t f).polfel = s.polfel := rfl
@[simp] theorem State.modTenant_archive (s : State) (t : Nat) (f : Tenant → Tenant) : (s.modTenant t f).archive = s.archive := rfl

/-! ### newId_snd -/

@[simp] theorem State.newId_snd_phase (s : State) : (s.newId.2).phase = s.phase := rfl
@[simp] theorem State.newId_snd_clock (s : State) : (s.newId.2).clock = s.clock := rfl
@[simp] theorem State.newId_snd_fresh (s : State) : (s.newId.2).fresh = s.fresh := rfl
@[simp] theorem State.newId_snd_agenda (s : State) : (s.newId.2).agenda = s.agenda := rfl
@[simp] theorem State.newId_snd_groups (s : State) : (s.newId.2).groups = s.groups := rfl
@[simp] theorem State.newId_snd_mem (s : State) : (s.newId.2).mem = s.mem := rfl
@[simp] theorem State.newId_snd_tags (s : State) : (s.newId.2).tags = s.tags := rfl
@[simp] theorem State.newId_snd_stamps (s : State) : (s.newId.2).stamps = s.stamps := rfl
@[simp] theorem State.newId_snd_teams (s : State) : (s.newId.2).teams = s.teams := rfl
@[simp] theorem State.newId_snd_cores (s : State) : (s.newId.2).cores = s.cores := rfl
@[simp] theorem State.newId_snd_clusters (s : State) : (s.newId.2).clusters = s.clusters := rfl
@[simp] theorem State.newId_snd_dies (s : State) : (s.newId.2).dies = s.dies := rfl
@[simp] theorem State.newId_snd_landings (s : State) : (s.newId.2).landings = s.landings := rfl
@[simp] theorem State.newId_snd_pageMarks (s : State) : (s.newId.2).pageMarks = s.pageMarks := rfl
@[simp] theorem State.newId_snd_publishes (s : State) : (s.newId.2).publishes = s.publishes := rfl
@[simp] theorem State.newId_snd_catts (s : State) : (s.newId.2).catts = s.catts := rfl
@[simp] theorem State.newId_snd_cmds (s : State) : (s.newId.2).cmds = s.cmds := rfl
@[simp] theorem State.newId_snd_bindings (s : State) : (s.newId.2).bindings = s.bindings := rfl
@[simp] theorem State.newId_snd_remaps (s : State) : (s.newId.2).remaps = s.remaps := rfl
@[simp] theorem State.newId_snd_launches (s : State) : (s.newId.2).launches = s.launches := rfl
@[simp] theorem State.newId_snd_tenants (s : State) : (s.newId.2).tenants = s.tenants := rfl
@[simp] theorem State.newId_snd_floors (s : State) : (s.newId.2).floors = s.floors := rfl
@[simp] theorem State.newId_snd_fatals (s : State) : (s.newId.2).fatals = s.fatals := rfl
@[simp] theorem State.newId_snd_lastCluster (s : State) : (s.newId.2).lastCluster = s.lastCluster := rfl
@[simp] theorem State.newId_snd_ports (s : State) : (s.newId.2).ports = s.ports := rfl
@[simp] theorem State.newId_snd_routes (s : State) : (s.newId.2).routes = s.routes := rfl
@[simp] theorem State.newId_snd_fullAt (s : State) : (s.newId.2).fullAt = s.fullAt := rfl
@[simp] theorem State.newId_snd_tickCtime (s : State) : (s.newId.2).tickCtime = s.tickCtime := rfl
@[simp] theorem State.newId_snd_tickPressure (s : State) : (s.newId.2).tickPressure = s.tickPressure := rfl
@[simp] theorem State.newId_snd_regs (s : State) : (s.newId.2).regs = s.regs := rfl
@[simp] theorem State.newId_snd_polfel (s : State) : (s.newId.2).polfel = s.polfel := rfl
@[simp] theorem State.newId_snd_archive (s : State) : (s.newId.2).archive = s.archive := rfl

/-! ### reply -/

@[simp] theorem State.reply_phase (s : State) (r : Reply) : (s.reply r).phase = s.phase := rfl
@[simp] theorem State.reply_clock (s : State) (r : Reply) : (s.reply r).clock = s.clock := rfl
@[simp] theorem State.reply_fresh (s : State) (r : Reply) : (s.reply r).fresh = s.fresh := rfl
@[simp] theorem State.reply_ids (s : State) (r : Reply) : (s.reply r).ids = s.ids := rfl
@[simp] theorem State.reply_agenda (s : State) (r : Reply) : (s.reply r).agenda = s.agenda := rfl
@[simp] theorem State.reply_groups (s : State) (r : Reply) : (s.reply r).groups = s.groups := rfl
@[simp] theorem State.reply_mem (s : State) (r : Reply) : (s.reply r).mem = s.mem := rfl
@[simp] theorem State.reply_tags (s : State) (r : Reply) : (s.reply r).tags = s.tags := rfl
@[simp] theorem State.reply_stamps (s : State) (r : Reply) : (s.reply r).stamps = s.stamps := rfl
@[simp] theorem State.reply_teams (s : State) (r : Reply) : (s.reply r).teams = s.teams := rfl
@[simp] theorem State.reply_cores (s : State) (r : Reply) : (s.reply r).cores = s.cores := rfl
@[simp] theorem State.reply_clusters (s : State) (r : Reply) : (s.reply r).clusters = s.clusters := rfl
@[simp] theorem State.reply_dies (s : State) (r : Reply) : (s.reply r).dies = s.dies := rfl
@[simp] theorem State.reply_landings (s : State) (r : Reply) : (s.reply r).landings = s.landings := rfl
@[simp] theorem State.reply_pageMarks (s : State) (r : Reply) : (s.reply r).pageMarks = s.pageMarks := rfl
@[simp] theorem State.reply_publishes (s : State) (r : Reply) : (s.reply r).publishes = s.publishes := rfl
@[simp] theorem State.reply_catts (s : State) (r : Reply) : (s.reply r).catts = s.catts := rfl
@[simp] theorem State.reply_cmds (s : State) (r : Reply) : (s.reply r).cmds = s.cmds := rfl
@[simp] theorem State.reply_bindings (s : State) (r : Reply) : (s.reply r).bindings = s.bindings := rfl
@[simp] theorem State.reply_remaps (s : State) (r : Reply) : (s.reply r).remaps = s.remaps := rfl
@[simp] theorem State.reply_launches (s : State) (r : Reply) : (s.reply r).launches = s.launches := rfl
@[simp] theorem State.reply_tenants (s : State) (r : Reply) : (s.reply r).tenants = s.tenants := rfl
@[simp] theorem State.reply_floors (s : State) (r : Reply) : (s.reply r).floors = s.floors := rfl
@[simp] theorem State.reply_fatals (s : State) (r : Reply) : (s.reply r).fatals = s.fatals := rfl
@[simp] theorem State.reply_lastCluster (s : State) (r : Reply) : (s.reply r).lastCluster = s.lastCluster := rfl
@[simp] theorem State.reply_ports (s : State) (r : Reply) : (s.reply r).ports = s.ports := rfl
@[simp] theorem State.reply_routes (s : State) (r : Reply) : (s.reply r).routes = s.routes := rfl
@[simp] theorem State.reply_fullAt (s : State) (r : Reply) : (s.reply r).fullAt = s.fullAt := rfl
@[simp] theorem State.reply_tickCtime (s : State) (r : Reply) : (s.reply r).tickCtime = s.tickCtime := rfl
@[simp] theorem State.reply_tickPressure (s : State) (r : Reply) : (s.reply r).tickPressure = s.tickPressure := rfl
@[simp] theorem State.reply_regs (s : State) (r : Reply) : (s.reply r).regs = s.regs := rfl
@[simp] theorem State.reply_archive (s : State) (r : Reply) : (s.reply r).archive = s.archive := rfl

/-! ### modTeam -/

@[simp] theorem State.modTeam_phase (s : State) (id : Nat) (f : Team → Team) : (s.modTeam id f).phase = s.phase := rfl
@[simp] theorem State.modTeam_clock (s : State) (id : Nat) (f : Team → Team) : (s.modTeam id f).clock = s.clock := rfl
@[simp] theorem State.modTeam_fresh (s : State) (id : Nat) (f : Team → Team) : (s.modTeam id f).fresh = s.fresh := rfl
@[simp] theorem State.modTeam_ids (s : State) (id : Nat) (f : Team → Team) : (s.modTeam id f).ids = s.ids := rfl
@[simp] theorem State.modTeam_agenda (s : State) (id : Nat) (f : Team → Team) : (s.modTeam id f).agenda = s.agenda := rfl
@[simp] theorem State.modTeam_groups (s : State) (id : Nat) (f : Team → Team) : (s.modTeam id f).groups = s.groups := rfl
@[simp] theorem State.modTeam_mem (s : State) (id : Nat) (f : Team → Team) : (s.modTeam id f).mem = s.mem := rfl
@[simp] theorem State.modTeam_tags (s : State) (id : Nat) (f : Team → Team) : (s.modTeam id f).tags = s.tags := rfl
@[simp] theorem State.modTeam_stamps (s : State) (id : Nat) (f : Team → Team) : (s.modTeam id f).stamps = s.stamps := rfl
@[simp] theorem State.modTeam_cores (s : State) (id : Nat) (f : Team → Team) : (s.modTeam id f).cores = s.cores := rfl
@[simp] theorem State.modTeam_clusters (s : State) (id : Nat) (f : Team → Team) : (s.modTeam id f).clusters = s.clusters := rfl
@[simp] theorem State.modTeam_dies (s : State) (id : Nat) (f : Team → Team) : (s.modTeam id f).dies = s.dies := rfl
@[simp] theorem State.modTeam_landings (s : State) (id : Nat) (f : Team → Team) : (s.modTeam id f).landings = s.landings := rfl
@[simp] theorem State.modTeam_pageMarks (s : State) (id : Nat) (f : Team → Team) : (s.modTeam id f).pageMarks = s.pageMarks := rfl
@[simp] theorem State.modTeam_publishes (s : State) (id : Nat) (f : Team → Team) : (s.modTeam id f).publishes = s.publishes := rfl
@[simp] theorem State.modTeam_catts (s : State) (id : Nat) (f : Team → Team) : (s.modTeam id f).catts = s.catts := rfl
@[simp] theorem State.modTeam_cmds (s : State) (id : Nat) (f : Team → Team) : (s.modTeam id f).cmds = s.cmds := rfl
@[simp] theorem State.modTeam_bindings (s : State) (id : Nat) (f : Team → Team) : (s.modTeam id f).bindings = s.bindings := rfl
@[simp] theorem State.modTeam_remaps (s : State) (id : Nat) (f : Team → Team) : (s.modTeam id f).remaps = s.remaps := rfl
@[simp] theorem State.modTeam_launches (s : State) (id : Nat) (f : Team → Team) : (s.modTeam id f).launches = s.launches := rfl
@[simp] theorem State.modTeam_tenants (s : State) (id : Nat) (f : Team → Team) : (s.modTeam id f).tenants = s.tenants := rfl
@[simp] theorem State.modTeam_floors (s : State) (id : Nat) (f : Team → Team) : (s.modTeam id f).floors = s.floors := rfl
@[simp] theorem State.modTeam_fatals (s : State) (id : Nat) (f : Team → Team) : (s.modTeam id f).fatals = s.fatals := rfl
@[simp] theorem State.modTeam_lastCluster (s : State) (id : Nat) (f : Team → Team) : (s.modTeam id f).lastCluster = s.lastCluster := rfl
@[simp] theorem State.modTeam_ports (s : State) (id : Nat) (f : Team → Team) : (s.modTeam id f).ports = s.ports := rfl
@[simp] theorem State.modTeam_routes (s : State) (id : Nat) (f : Team → Team) : (s.modTeam id f).routes = s.routes := rfl
@[simp] theorem State.modTeam_fullAt (s : State) (id : Nat) (f : Team → Team) : (s.modTeam id f).fullAt = s.fullAt := rfl
@[simp] theorem State.modTeam_tickCtime (s : State) (id : Nat) (f : Team → Team) : (s.modTeam id f).tickCtime = s.tickCtime := rfl
@[simp] theorem State.modTeam_tickPressure (s : State) (id : Nat) (f : Team → Team) : (s.modTeam id f).tickPressure = s.tickPressure := rfl
@[simp] theorem State.modTeam_regs (s : State) (id : Nat) (f : Team → Team) : (s.modTeam id f).regs = s.regs := rfl
@[simp] theorem State.modTeam_polfel (s : State) (id : Nat) (f : Team → Team) : (s.modTeam id f).polfel = s.polfel := rfl
@[simp] theorem State.modTeam_archive (s : State) (id : Nat) (f : Team → Team) : (s.modTeam id f).archive = s.archive := rfl

/-! ### modThread -/

@[simp] theorem State.modThread_phase (s : State) (id tid : Nat) (f : Thread → Thread) : (s.modThread id tid f).phase = s.phase := rfl
@[simp] theorem State.modThread_clock (s : State) (id tid : Nat) (f : Thread → Thread) : (s.modThread id tid f).clock = s.clock := rfl
@[simp] theorem State.modThread_fresh (s : State) (id tid : Nat) (f : Thread → Thread) : (s.modThread id tid f).fresh = s.fresh := rfl
@[simp] theorem State.modThread_ids (s : State) (id tid : Nat) (f : Thread → Thread) : (s.modThread id tid f).ids = s.ids := rfl
@[simp] theorem State.modThread_agenda (s : State) (id tid : Nat) (f : Thread → Thread) : (s.modThread id tid f).agenda = s.agenda := rfl
@[simp] theorem State.modThread_groups (s : State) (id tid : Nat) (f : Thread → Thread) : (s.modThread id tid f).groups = s.groups := rfl
@[simp] theorem State.modThread_mem (s : State) (id tid : Nat) (f : Thread → Thread) : (s.modThread id tid f).mem = s.mem := rfl
@[simp] theorem State.modThread_tags (s : State) (id tid : Nat) (f : Thread → Thread) : (s.modThread id tid f).tags = s.tags := rfl
@[simp] theorem State.modThread_stamps (s : State) (id tid : Nat) (f : Thread → Thread) : (s.modThread id tid f).stamps = s.stamps := rfl
@[simp] theorem State.modThread_cores (s : State) (id tid : Nat) (f : Thread → Thread) : (s.modThread id tid f).cores = s.cores := rfl
@[simp] theorem State.modThread_clusters (s : State) (id tid : Nat) (f : Thread → Thread) : (s.modThread id tid f).clusters = s.clusters := rfl
@[simp] theorem State.modThread_dies (s : State) (id tid : Nat) (f : Thread → Thread) : (s.modThread id tid f).dies = s.dies := rfl
@[simp] theorem State.modThread_landings (s : State) (id tid : Nat) (f : Thread → Thread) : (s.modThread id tid f).landings = s.landings := rfl
@[simp] theorem State.modThread_pageMarks (s : State) (id tid : Nat) (f : Thread → Thread) : (s.modThread id tid f).pageMarks = s.pageMarks := rfl
@[simp] theorem State.modThread_publishes (s : State) (id tid : Nat) (f : Thread → Thread) : (s.modThread id tid f).publishes = s.publishes := rfl
@[simp] theorem State.modThread_catts (s : State) (id tid : Nat) (f : Thread → Thread) : (s.modThread id tid f).catts = s.catts := rfl
@[simp] theorem State.modThread_cmds (s : State) (id tid : Nat) (f : Thread → Thread) : (s.modThread id tid f).cmds = s.cmds := rfl
@[simp] theorem State.modThread_bindings (s : State) (id tid : Nat) (f : Thread → Thread) : (s.modThread id tid f).bindings = s.bindings := rfl
@[simp] theorem State.modThread_remaps (s : State) (id tid : Nat) (f : Thread → Thread) : (s.modThread id tid f).remaps = s.remaps := rfl
@[simp] theorem State.modThread_launches (s : State) (id tid : Nat) (f : Thread → Thread) : (s.modThread id tid f).launches = s.launches := rfl
@[simp] theorem State.modThread_tenants (s : State) (id tid : Nat) (f : Thread → Thread) : (s.modThread id tid f).tenants = s.tenants := rfl
@[simp] theorem State.modThread_floors (s : State) (id tid : Nat) (f : Thread → Thread) : (s.modThread id tid f).floors = s.floors := rfl
@[simp] theorem State.modThread_fatals (s : State) (id tid : Nat) (f : Thread → Thread) : (s.modThread id tid f).fatals = s.fatals := rfl
@[simp] theorem State.modThread_lastCluster (s : State) (id tid : Nat) (f : Thread → Thread) : (s.modThread id tid f).lastCluster = s.lastCluster := rfl
@[simp] theorem State.modThread_ports (s : State) (id tid : Nat) (f : Thread → Thread) : (s.modThread id tid f).ports = s.ports := rfl
@[simp] theorem State.modThread_routes (s : State) (id tid : Nat) (f : Thread → Thread) : (s.modThread id tid f).routes = s.routes := rfl
@[simp] theorem State.modThread_fullAt (s : State) (id tid : Nat) (f : Thread → Thread) : (s.modThread id tid f).fullAt = s.fullAt := rfl
@[simp] theorem State.modThread_tickCtime (s : State) (id tid : Nat) (f : Thread → Thread) : (s.modThread id tid f).tickCtime = s.tickCtime := rfl
@[simp] theorem State.modThread_tickPressure (s : State) (id tid : Nat) (f : Thread → Thread) : (s.modThread id tid f).tickPressure = s.tickPressure := rfl
@[simp] theorem State.modThread_regs (s : State) (id tid : Nat) (f : Thread → Thread) : (s.modThread id tid f).regs = s.regs := rfl
@[simp] theorem State.modThread_polfel (s : State) (id tid : Nat) (f : Thread → Thread) : (s.modThread id tid f).polfel = s.polfel := rfl
@[simp] theorem State.modThread_archive (s : State) (id tid : Nat) (f : Thread → Thread) : (s.modThread id tid f).archive = s.archive := rfl

/-! ### trap -/

@[simp] theorem State.trap_phase (s : State) (g : Group) (tid : Nat) (b : Bad) : (s.trap g tid b).phase = s.phase := rfl
@[simp] theorem State.trap_clock (s : State) (g : Group) (tid : Nat) (b : Bad) : (s.trap g tid b).clock = s.clock := rfl
@[simp] theorem State.trap_fresh (s : State) (g : Group) (tid : Nat) (b : Bad) : (s.trap g tid b).fresh = s.fresh := rfl
@[simp] theorem State.trap_ids (s : State) (g : Group) (tid : Nat) (b : Bad) : (s.trap g tid b).ids = s.ids := rfl
@[simp] theorem State.trap_agenda (s : State) (g : Group) (tid : Nat) (b : Bad) : (s.trap g tid b).agenda = s.agenda := rfl
@[simp] theorem State.trap_groups (s : State) (g : Group) (tid : Nat) (b : Bad) : (s.trap g tid b).groups = s.groups := rfl
@[simp] theorem State.trap_mem (s : State) (g : Group) (tid : Nat) (b : Bad) : (s.trap g tid b).mem = s.mem := rfl
@[simp] theorem State.trap_tags (s : State) (g : Group) (tid : Nat) (b : Bad) : (s.trap g tid b).tags = s.tags := rfl
@[simp] theorem State.trap_stamps (s : State) (g : Group) (tid : Nat) (b : Bad) : (s.trap g tid b).stamps = s.stamps := rfl
@[simp] theorem State.trap_cores (s : State) (g : Group) (tid : Nat) (b : Bad) : (s.trap g tid b).cores = s.cores := rfl
@[simp] theorem State.trap_clusters (s : State) (g : Group) (tid : Nat) (b : Bad) : (s.trap g tid b).clusters = s.clusters := rfl
@[simp] theorem State.trap_dies (s : State) (g : Group) (tid : Nat) (b : Bad) : (s.trap g tid b).dies = s.dies := rfl
@[simp] theorem State.trap_landings (s : State) (g : Group) (tid : Nat) (b : Bad) : (s.trap g tid b).landings = s.landings := rfl
@[simp] theorem State.trap_pageMarks (s : State) (g : Group) (tid : Nat) (b : Bad) : (s.trap g tid b).pageMarks = s.pageMarks := rfl
@[simp] theorem State.trap_publishes (s : State) (g : Group) (tid : Nat) (b : Bad) : (s.trap g tid b).publishes = s.publishes := rfl
@[simp] theorem State.trap_catts (s : State) (g : Group) (tid : Nat) (b : Bad) : (s.trap g tid b).catts = s.catts := rfl
@[simp] theorem State.trap_cmds (s : State) (g : Group) (tid : Nat) (b : Bad) : (s.trap g tid b).cmds = s.cmds := rfl
@[simp] theorem State.trap_bindings (s : State) (g : Group) (tid : Nat) (b : Bad) : (s.trap g tid b).bindings = s.bindings := rfl
@[simp] theorem State.trap_remaps (s : State) (g : Group) (tid : Nat) (b : Bad) : (s.trap g tid b).remaps = s.remaps := rfl
@[simp] theorem State.trap_launches (s : State) (g : Group) (tid : Nat) (b : Bad) : (s.trap g tid b).launches = s.launches := rfl
@[simp] theorem State.trap_tenants (s : State) (g : Group) (tid : Nat) (b : Bad) : (s.trap g tid b).tenants = s.tenants := rfl
@[simp] theorem State.trap_floors (s : State) (g : Group) (tid : Nat) (b : Bad) : (s.trap g tid b).floors = s.floors := rfl
@[simp] theorem State.trap_fatals (s : State) (g : Group) (tid : Nat) (b : Bad) : (s.trap g tid b).fatals = s.fatals := rfl
@[simp] theorem State.trap_lastCluster (s : State) (g : Group) (tid : Nat) (b : Bad) : (s.trap g tid b).lastCluster = s.lastCluster := rfl
@[simp] theorem State.trap_ports (s : State) (g : Group) (tid : Nat) (b : Bad) : (s.trap g tid b).ports = s.ports := rfl
@[simp] theorem State.trap_routes (s : State) (g : Group) (tid : Nat) (b : Bad) : (s.trap g tid b).routes = s.routes := rfl
@[simp] theorem State.trap_fullAt (s : State) (g : Group) (tid : Nat) (b : Bad) : (s.trap g tid b).fullAt = s.fullAt := rfl
@[simp] theorem State.trap_tickCtime (s : State) (g : Group) (tid : Nat) (b : Bad) : (s.trap g tid b).tickCtime = s.tickCtime := rfl
@[simp] theorem State.trap_tickPressure (s : State) (g : Group) (tid : Nat) (b : Bad) : (s.trap g tid b).tickPressure = s.tickPressure := rfl
@[simp] theorem State.trap_regs (s : State) (g : Group) (tid : Nat) (b : Bad) : (s.trap g tid b).regs = s.regs := rfl
@[simp] theorem State.trap_polfel (s : State) (g : Group) (tid : Nat) (b : Bad) : (s.trap g tid b).polfel = s.polfel := rfl
@[simp] theorem State.trap_archive (s : State) (g : Group) (tid : Nat) (b : Bad) : (s.trap g tid b).archive = s.archive := rfl

/-! ### raise -/

@[simp] theorem State.raise_phase (s : State) (o : Word) (r : List Byte) : (s.raise o r).phase = s.phase := rfl
@[simp] theorem State.raise_clock (s : State) (o : Word) (r : List Byte) : (s.raise o r).clock = s.clock := rfl
@[simp] theorem State.raise_fresh (s : State) (o : Word) (r : List Byte) : (s.raise o r).fresh = s.fresh := rfl
@[simp] theorem State.raise_ids (s : State) (o : Word) (r : List Byte) : (s.raise o r).ids = s.ids := rfl
@[simp] theorem State.raise_agenda (s : State) (o : Word) (r : List Byte) : (s.raise o r).agenda = s.agenda := rfl
@[simp] theorem State.raise_groups (s : State) (o : Word) (r : List Byte) : (s.raise o r).groups = s.groups := rfl
@[simp] theorem State.raise_mem (s : State) (o : Word) (r : List Byte) : (s.raise o r).mem = s.mem := rfl
@[simp] theorem State.raise_tags (s : State) (o : Word) (r : List Byte) : (s.raise o r).tags = s.tags := rfl
@[simp] theorem State.raise_stamps (s : State) (o : Word) (r : List Byte) : (s.raise o r).stamps = s.stamps := rfl
@[simp] theorem State.raise_teams (s : State) (o : Word) (r : List Byte) : (s.raise o r).teams = s.teams := rfl
@[simp] theorem State.raise_cores (s : State) (o : Word) (r : List Byte) : (s.raise o r).cores = s.cores := rfl
@[simp] theorem State.raise_clusters (s : State) (o : Word) (r : List Byte) : (s.raise o r).clusters = s.clusters := rfl
@[simp] theorem State.raise_dies (s : State) (o : Word) (r : List Byte) : (s.raise o r).dies = s.dies := rfl
@[simp] theorem State.raise_landings (s : State) (o : Word) (r : List Byte) : (s.raise o r).landings = s.landings := rfl
@[simp] theorem State.raise_pageMarks (s : State) (o : Word) (r : List Byte) : (s.raise o r).pageMarks = s.pageMarks := rfl
@[simp] theorem State.raise_publishes (s : State) (o : Word) (r : List Byte) : (s.raise o r).publishes = s.publishes := rfl
@[simp] theorem State.raise_catts (s : State) (o : Word) (r : List Byte) : (s.raise o r).catts = s.catts := rfl
@[simp] theorem State.raise_cmds (s : State) (o : Word) (r : List Byte) : (s.raise o r).cmds = s.cmds := rfl
@[simp] theorem State.raise_bindings (s : State) (o : Word) (r : List Byte) : (s.raise o r).bindings = s.bindings := rfl
@[simp] theorem State.raise_remaps (s : State) (o : Word) (r : List Byte) : (s.raise o r).remaps = s.remaps := rfl
@[simp] theorem State.raise_launches (s : State) (o : Word) (r : List Byte) : (s.raise o r).launches = s.launches := rfl
@[simp] theorem State.raise_tenants (s : State) (o : Word) (r : List Byte) : (s.raise o r).tenants = s.tenants := rfl
@[simp] theorem State.raise_floors (s : State) (o : Word) (r : List Byte) : (s.raise o r).floors = s.floors := rfl
@[simp] theorem State.raise_lastCluster (s : State) (o : Word) (r : List Byte) : (s.raise o r).lastCluster = s.lastCluster := rfl
@[simp] theorem State.raise_ports (s : State) (o : Word) (r : List Byte) : (s.raise o r).ports = s.ports := rfl
@[simp] theorem State.raise_routes (s : State) (o : Word) (r : List Byte) : (s.raise o r).routes = s.routes := rfl
@[simp] theorem State.raise_fullAt (s : State) (o : Word) (r : List Byte) : (s.raise o r).fullAt = s.fullAt := rfl
@[simp] theorem State.raise_tickCtime (s : State) (o : Word) (r : List Byte) : (s.raise o r).tickCtime = s.tickCtime := rfl
@[simp] theorem State.raise_tickPressure (s : State) (o : Word) (r : List Byte) : (s.raise o r).tickPressure = s.tickPressure := rfl
@[simp] theorem State.raise_regs (s : State) (o : Word) (r : List Byte) : (s.raise o r).regs = s.regs := rfl
@[simp] theorem State.raise_polfel (s : State) (o : Word) (r : List Byte) : (s.raise o r).polfel = s.polfel := rfl
@[simp] theorem State.raise_archive (s : State) (o : Word) (r : List Byte) : (s.raise o r).archive = s.archive := rfl

/-! ### endJob -/

@[simp] theorem State.endJob_phase (s : State) (j : Nat) : (s.endJob j).phase = s.phase := rfl
@[simp] theorem State.endJob_clock (s : State) (j : Nat) : (s.endJob j).clock = s.clock := rfl
@[simp] theorem State.endJob_ids (s : State) (j : Nat) : (s.endJob j).ids = s.ids := rfl
@[simp] theorem State.endJob_agenda (s : State) (j : Nat) : (s.endJob j).agenda = s.agenda := rfl
@[simp] theorem State.endJob_groups (s : State) (j : Nat) : (s.endJob j).groups = s.groups := rfl
@[simp] theorem State.endJob_mem (s : State) (j : Nat) : (s.endJob j).mem = s.mem := rfl
@[simp] theorem State.endJob_tags (s : State) (j : Nat) : (s.endJob j).tags = s.tags := rfl
@[simp] theorem State.endJob_stamps (s : State) (j : Nat) : (s.endJob j).stamps = s.stamps := rfl
@[simp] theorem State.endJob_cores (s : State) (j : Nat) : (s.endJob j).cores = s.cores := rfl
@[simp] theorem State.endJob_clusters (s : State) (j : Nat) : (s.endJob j).clusters = s.clusters := rfl
@[simp] theorem State.endJob_dies (s : State) (j : Nat) : (s.endJob j).dies = s.dies := rfl
@[simp] theorem State.endJob_landings (s : State) (j : Nat) : (s.endJob j).landings = s.landings := rfl
@[simp] theorem State.endJob_pageMarks (s : State) (j : Nat) : (s.endJob j).pageMarks = s.pageMarks := rfl
@[simp] theorem State.endJob_publishes (s : State) (j : Nat) : (s.endJob j).publishes = s.publishes := rfl
@[simp] theorem State.endJob_catts (s : State) (j : Nat) : (s.endJob j).catts = s.catts := rfl
@[simp] theorem State.endJob_cmds (s : State) (j : Nat) : (s.endJob j).cmds = s.cmds := rfl
@[simp] theorem State.endJob_bindings (s : State) (j : Nat) : (s.endJob j).bindings = s.bindings := rfl
@[simp] theorem State.endJob_remaps (s : State) (j : Nat) : (s.endJob j).remaps = s.remaps := rfl
@[simp] theorem State.endJob_launches (s : State) (j : Nat) : (s.endJob j).launches = s.launches := rfl
@[simp] theorem State.endJob_tenants (s : State) (j : Nat) : (s.endJob j).tenants = s.tenants := rfl
@[simp] theorem State.endJob_floors (s : State) (j : Nat) : (s.endJob j).floors = s.floors := rfl
@[simp] theorem State.endJob_fatals (s : State) (j : Nat) : (s.endJob j).fatals = s.fatals := rfl
@[simp] theorem State.endJob_lastCluster (s : State) (j : Nat) : (s.endJob j).lastCluster = s.lastCluster := rfl
@[simp] theorem State.endJob_ports (s : State) (j : Nat) : (s.endJob j).ports = s.ports := rfl
@[simp] theorem State.endJob_routes (s : State) (j : Nat) : (s.endJob j).routes = s.routes := rfl
@[simp] theorem State.endJob_fullAt (s : State) (j : Nat) : (s.endJob j).fullAt = s.fullAt := rfl
@[simp] theorem State.endJob_tickCtime (s : State) (j : Nat) : (s.endJob j).tickCtime = s.tickCtime := rfl
@[simp] theorem State.endJob_tickPressure (s : State) (j : Nat) : (s.endJob j).tickPressure = s.tickPressure := rfl
@[simp] theorem State.endJob_regs (s : State) (j : Nat) : (s.endJob j).regs = s.regs := rfl
@[simp] theorem State.endJob_polfel (s : State) (j : Nat) : (s.endJob j).polfel = s.polfel := rfl
@[simp] theorem State.endJob_archive (s : State) (j : Nat) : (s.endJob j).archive = s.archive := rfl

/-! ### setStamp -/

@[simp] theorem State.setStamp_phase (s : State) (x : Stamp) : (s.setStamp x).phase = s.phase := rfl
@[simp] theorem State.setStamp_clock (s : State) (x : Stamp) : (s.setStamp x).clock = s.clock := rfl
@[simp] theorem State.setStamp_fresh (s : State) (x : Stamp) : (s.setStamp x).fresh = s.fresh := rfl
@[simp] theorem State.setStamp_ids (s : State) (x : Stamp) : (s.setStamp x).ids = s.ids := rfl
@[simp] theorem State.setStamp_agenda (s : State) (x : Stamp) : (s.setStamp x).agenda = s.agenda := rfl
@[simp] theorem State.setStamp_groups (s : State) (x : Stamp) : (s.setStamp x).groups = s.groups := rfl
@[simp] theorem State.setStamp_mem (s : State) (x : Stamp) : (s.setStamp x).mem = s.mem := rfl
@[simp] theorem State.setStamp_tags (s : State) (x : Stamp) : (s.setStamp x).tags = s.tags := rfl
@[simp] theorem State.setStamp_teams (s : State) (x : Stamp) : (s.setStamp x).teams = s.teams := rfl
@[simp] theorem State.setStamp_cores (s : State) (x : Stamp) : (s.setStamp x).cores = s.cores := rfl
@[simp] theorem State.setStamp_clusters (s : State) (x : Stamp) : (s.setStamp x).clusters = s.clusters := rfl
@[simp] theorem State.setStamp_dies (s : State) (x : Stamp) : (s.setStamp x).dies = s.dies := rfl
@[simp] theorem State.setStamp_landings (s : State) (x : Stamp) : (s.setStamp x).landings = s.landings := rfl
@[simp] theorem State.setStamp_pageMarks (s : State) (x : Stamp) : (s.setStamp x).pageMarks = s.pageMarks := rfl
@[simp] theorem State.setStamp_publishes (s : State) (x : Stamp) : (s.setStamp x).publishes = s.publishes := rfl
@[simp] theorem State.setStamp_catts (s : State) (x : Stamp) : (s.setStamp x).catts = s.catts := rfl
@[simp] theorem State.setStamp_cmds (s : State) (x : Stamp) : (s.setStamp x).cmds = s.cmds := rfl
@[simp] theorem State.setStamp_bindings (s : State) (x : Stamp) : (s.setStamp x).bindings = s.bindings := rfl
@[simp] theorem State.setStamp_remaps (s : State) (x : Stamp) : (s.setStamp x).remaps = s.remaps := rfl
@[simp] theorem State.setStamp_launches (s : State) (x : Stamp) : (s.setStamp x).launches = s.launches := rfl
@[simp] theorem State.setStamp_tenants (s : State) (x : Stamp) : (s.setStamp x).tenants = s.tenants := rfl
@[simp] theorem State.setStamp_floors (s : State) (x : Stamp) : (s.setStamp x).floors = s.floors := rfl
@[simp] theorem State.setStamp_fatals (s : State) (x : Stamp) : (s.setStamp x).fatals = s.fatals := rfl
@[simp] theorem State.setStamp_lastCluster (s : State) (x : Stamp) : (s.setStamp x).lastCluster = s.lastCluster := rfl
@[simp] theorem State.setStamp_ports (s : State) (x : Stamp) : (s.setStamp x).ports = s.ports := rfl
@[simp] theorem State.setStamp_routes (s : State) (x : Stamp) : (s.setStamp x).routes = s.routes := rfl
@[simp] theorem State.setStamp_fullAt (s : State) (x : Stamp) : (s.setStamp x).fullAt = s.fullAt := rfl
@[simp] theorem State.setStamp_tickCtime (s : State) (x : Stamp) : (s.setStamp x).tickCtime = s.tickCtime := rfl
@[simp] theorem State.setStamp_tickPressure (s : State) (x : Stamp) : (s.setStamp x).tickPressure = s.tickPressure := rfl
@[simp] theorem State.setStamp_regs (s : State) (x : Stamp) : (s.setStamp x).regs = s.regs := rfl
@[simp] theorem State.setStamp_polfel (s : State) (x : Stamp) : (s.setStamp x).polfel = s.polfel := rfl
@[simp] theorem State.setStamp_archive (s : State) (x : Stamp) : (s.setStamp x).archive = s.archive := rfl

/-! ### homeWrite -/

@[simp] theorem State.homeWrite_phase (s : State) (pa : Nat) (b : List Byte) : (s.homeWrite pa b).phase = s.phase := rfl
@[simp] theorem State.homeWrite_clock (s : State) (pa : Nat) (b : List Byte) : (s.homeWrite pa b).clock = s.clock := rfl
@[simp] theorem State.homeWrite_fresh (s : State) (pa : Nat) (b : List Byte) : (s.homeWrite pa b).fresh = s.fresh := rfl
@[simp] theorem State.homeWrite_ids (s : State) (pa : Nat) (b : List Byte) : (s.homeWrite pa b).ids = s.ids := rfl
@[simp] theorem State.homeWrite_agenda (s : State) (pa : Nat) (b : List Byte) : (s.homeWrite pa b).agenda = s.agenda := rfl
@[simp] theorem State.homeWrite_groups (s : State) (pa : Nat) (b : List Byte) : (s.homeWrite pa b).groups = s.groups := rfl
@[simp] theorem State.homeWrite_tags (s : State) (pa : Nat) (b : List Byte) : (s.homeWrite pa b).tags = s.tags := rfl
@[simp] theorem State.homeWrite_stamps (s : State) (pa : Nat) (b : List Byte) : (s.homeWrite pa b).stamps = s.stamps := rfl
@[simp] theorem State.homeWrite_cores (s : State) (pa : Nat) (b : List Byte) : (s.homeWrite pa b).cores = s.cores := rfl
@[simp] theorem State.homeWrite_clusters (s : State) (pa : Nat) (b : List Byte) : (s.homeWrite pa b).clusters = s.clusters := rfl
@[simp] theorem State.homeWrite_dies (s : State) (pa : Nat) (b : List Byte) : (s.homeWrite pa b).dies = s.dies := rfl
@[simp] theorem State.homeWrite_landings (s : State) (pa : Nat) (b : List Byte) : (s.homeWrite pa b).landings = s.landings := rfl
@[simp] theorem State.homeWrite_pageMarks (s : State) (pa : Nat) (b : List Byte) : (s.homeWrite pa b).pageMarks = s.pageMarks := rfl
@[simp] theorem State.homeWrite_publishes (s : State) (pa : Nat) (b : List Byte) : (s.homeWrite pa b).publishes = s.publishes := rfl
@[simp] theorem State.homeWrite_catts (s : State) (pa : Nat) (b : List Byte) : (s.homeWrite pa b).catts = s.catts := rfl
@[simp] theorem State.homeWrite_cmds (s : State) (pa : Nat) (b : List Byte) : (s.homeWrite pa b).cmds = s.cmds := rfl
@[simp] theorem State.homeWrite_bindings (s : State) (pa : Nat) (b : List Byte) : (s.homeWrite pa b).bindings = s.bindings := rfl
@[simp] theorem State.homeWrite_remaps (s : State) (pa : Nat) (b : List Byte) : (s.homeWrite pa b).remaps = s.remaps := rfl
@[simp] theorem State.homeWrite_launches (s : State) (pa : Nat) (b : List Byte) : (s.homeWrite pa b).launches = s.launches := rfl
@[simp] theorem State.homeWrite_tenants (s : State) (pa : Nat) (b : List Byte) : (s.homeWrite pa b).tenants = s.tenants := rfl
@[simp] theorem State.homeWrite_floors (s : State) (pa : Nat) (b : List Byte) : (s.homeWrite pa b).floors = s.floors := rfl
@[simp] theorem State.homeWrite_fatals (s : State) (pa : Nat) (b : List Byte) : (s.homeWrite pa b).fatals = s.fatals := rfl
@[simp] theorem State.homeWrite_lastCluster (s : State) (pa : Nat) (b : List Byte) : (s.homeWrite pa b).lastCluster = s.lastCluster := rfl
@[simp] theorem State.homeWrite_ports (s : State) (pa : Nat) (b : List Byte) : (s.homeWrite pa b).ports = s.ports := rfl
@[simp] theorem State.homeWrite_routes (s : State) (pa : Nat) (b : List Byte) : (s.homeWrite pa b).routes = s.routes := rfl
@[simp] theorem State.homeWrite_fullAt (s : State) (pa : Nat) (b : List Byte) : (s.homeWrite pa b).fullAt = s.fullAt := rfl
@[simp] theorem State.homeWrite_tickCtime (s : State) (pa : Nat) (b : List Byte) : (s.homeWrite pa b).tickCtime = s.tickCtime := rfl
@[simp] theorem State.homeWrite_tickPressure (s : State) (pa : Nat) (b : List Byte) : (s.homeWrite pa b).tickPressure = s.tickPressure := rfl
@[simp] theorem State.homeWrite_regs (s : State) (pa : Nat) (b : List Byte) : (s.homeWrite pa b).regs = s.regs := rfl
@[simp] theorem State.homeWrite_polfel (s : State) (pa : Nat) (b : List Byte) : (s.homeWrite pa b).polfel = s.polfel := rfl
@[simp] theorem State.homeWrite_archive (s : State) (pa : Nat) (b : List Byte) : (s.homeWrite pa b).archive = s.archive := rfl

/-! ### scrWrite -/

@[simp] theorem State.scrWrite_phase (s : State) (t o : Nat) (b : List Byte) : (s.scrWrite t o b).phase = s.phase := rfl
@[simp] theorem State.scrWrite_clock (s : State) (t o : Nat) (b : List Byte) : (s.scrWrite t o b).clock = s.clock := rfl
@[simp] theorem State.scrWrite_fresh (s : State) (t o : Nat) (b : List Byte) : (s.scrWrite t o b).fresh = s.fresh := rfl
@[simp] theorem State.scrWrite_ids (s : State) (t o : Nat) (b : List Byte) : (s.scrWrite t o b).ids = s.ids := rfl
@[simp] theorem State.scrWrite_agenda (s : State) (t o : Nat) (b : List Byte) : (s.scrWrite t o b).agenda = s.agenda := rfl
@[simp] theorem State.scrWrite_groups (s : State) (t o : Nat) (b : List Byte) : (s.scrWrite t o b).groups = s.groups := rfl
@[simp] theorem State.scrWrite_mem (s : State) (t o : Nat) (b : List Byte) : (s.scrWrite t o b).mem = s.mem := rfl
@[simp] theorem State.scrWrite_tags (s : State) (t o : Nat) (b : List Byte) : (s.scrWrite t o b).tags = s.tags := rfl
@[simp] theorem State.scrWrite_stamps (s : State) (t o : Nat) (b : List Byte) : (s.scrWrite t o b).stamps = s.stamps := rfl
@[simp] theorem State.scrWrite_cores (s : State) (t o : Nat) (b : List Byte) : (s.scrWrite t o b).cores = s.cores := rfl
@[simp] theorem State.scrWrite_clusters (s : State) (t o : Nat) (b : List Byte) : (s.scrWrite t o b).clusters = s.clusters := rfl
@[simp] theorem State.scrWrite_dies (s : State) (t o : Nat) (b : List Byte) : (s.scrWrite t o b).dies = s.dies := rfl
@[simp] theorem State.scrWrite_landings (s : State) (t o : Nat) (b : List Byte) : (s.scrWrite t o b).landings = s.landings := rfl
@[simp] theorem State.scrWrite_pageMarks (s : State) (t o : Nat) (b : List Byte) : (s.scrWrite t o b).pageMarks = s.pageMarks := rfl
@[simp] theorem State.scrWrite_publishes (s : State) (t o : Nat) (b : List Byte) : (s.scrWrite t o b).publishes = s.publishes := rfl
@[simp] theorem State.scrWrite_catts (s : State) (t o : Nat) (b : List Byte) : (s.scrWrite t o b).catts = s.catts := rfl
@[simp] theorem State.scrWrite_cmds (s : State) (t o : Nat) (b : List Byte) : (s.scrWrite t o b).cmds = s.cmds := rfl
@[simp] theorem State.scrWrite_bindings (s : State) (t o : Nat) (b : List Byte) : (s.scrWrite t o b).bindings = s.bindings := rfl
@[simp] theorem State.scrWrite_remaps (s : State) (t o : Nat) (b : List Byte) : (s.scrWrite t o b).remaps = s.remaps := rfl
@[simp] theorem State.scrWrite_launches (s : State) (t o : Nat) (b : List Byte) : (s.scrWrite t o b).launches = s.launches := rfl
@[simp] theorem State.scrWrite_tenants (s : State) (t o : Nat) (b : List Byte) : (s.scrWrite t o b).tenants = s.tenants := rfl
@[simp] theorem State.scrWrite_floors (s : State) (t o : Nat) (b : List Byte) : (s.scrWrite t o b).floors = s.floors := rfl
@[simp] theorem State.scrWrite_fatals (s : State) (t o : Nat) (b : List Byte) : (s.scrWrite t o b).fatals = s.fatals := rfl
@[simp] theorem State.scrWrite_lastCluster (s : State) (t o : Nat) (b : List Byte) : (s.scrWrite t o b).lastCluster = s.lastCluster := rfl
@[simp] theorem State.scrWrite_ports (s : State) (t o : Nat) (b : List Byte) : (s.scrWrite t o b).ports = s.ports := rfl
@[simp] theorem State.scrWrite_routes (s : State) (t o : Nat) (b : List Byte) : (s.scrWrite t o b).routes = s.routes := rfl
@[simp] theorem State.scrWrite_fullAt (s : State) (t o : Nat) (b : List Byte) : (s.scrWrite t o b).fullAt = s.fullAt := rfl
@[simp] theorem State.scrWrite_tickCtime (s : State) (t o : Nat) (b : List Byte) : (s.scrWrite t o b).tickCtime = s.tickCtime := rfl
@[simp] theorem State.scrWrite_tickPressure (s : State) (t o : Nat) (b : List Byte) : (s.scrWrite t o b).tickPressure = s.tickPressure := rfl
@[simp] theorem State.scrWrite_regs (s : State) (t o : Nat) (b : List Byte) : (s.scrWrite t o b).regs = s.regs := rfl
@[simp] theorem State.scrWrite_polfel (s : State) (t o : Nat) (b : List Byte) : (s.scrWrite t o b).polfel = s.polfel := rfl
@[simp] theorem State.scrWrite_archive (s : State) (t o : Nat) (b : List Byte) : (s.scrWrite t o b).archive = s.archive := rfl

/-! ### modLanding -/

@[simp] theorem State.modLanding_phase (s : State) (id : Nat) (f : Landing → Landing) : (s.modLanding id f).phase = s.phase := rfl
@[simp] theorem State.modLanding_clock (s : State) (id : Nat) (f : Landing → Landing) : (s.modLanding id f).clock = s.clock := rfl
@[simp] theorem State.modLanding_fresh (s : State) (id : Nat) (f : Landing → Landing) : (s.modLanding id f).fresh = s.fresh := rfl
@[simp] theorem State.modLanding_ids (s : State) (id : Nat) (f : Landing → Landing) : (s.modLanding id f).ids = s.ids := rfl
@[simp] theorem State.modLanding_agenda (s : State) (id : Nat) (f : Landing → Landing) : (s.modLanding id f).agenda = s.agenda := rfl
@[simp] theorem State.modLanding_groups (s : State) (id : Nat) (f : Landing → Landing) : (s.modLanding id f).groups = s.groups := rfl
@[simp] theorem State.modLanding_mem (s : State) (id : Nat) (f : Landing → Landing) : (s.modLanding id f).mem = s.mem := rfl
@[simp] theorem State.modLanding_tags (s : State) (id : Nat) (f : Landing → Landing) : (s.modLanding id f).tags = s.tags := rfl
@[simp] theorem State.modLanding_stamps (s : State) (id : Nat) (f : Landing → Landing) : (s.modLanding id f).stamps = s.stamps := rfl
@[simp] theorem State.modLanding_teams (s : State) (id : Nat) (f : Landing → Landing) : (s.modLanding id f).teams = s.teams := rfl
@[simp] theorem State.modLanding_cores (s : State) (id : Nat) (f : Landing → Landing) : (s.modLanding id f).cores = s.cores := rfl
@[simp] theorem State.modLanding_clusters (s : State) (id : Nat) (f : Landing → Landing) : (s.modLanding id f).clusters = s.clusters := rfl
@[simp] theorem State.modLanding_dies (s : State) (id : Nat) (f : Landing → Landing) : (s.modLanding id f).dies = s.dies := rfl
@[simp] theorem State.modLanding_pageMarks (s : State) (id : Nat) (f : Landing → Landing) : (s.modLanding id f).pageMarks = s.pageMarks := rfl
@[simp] theorem State.modLanding_publishes (s : State) (id : Nat) (f : Landing → Landing) : (s.modLanding id f).publishes = s.publishes := rfl
@[simp] theorem State.modLanding_catts (s : State) (id : Nat) (f : Landing → Landing) : (s.modLanding id f).catts = s.catts := rfl
@[simp] theorem State.modLanding_cmds (s : State) (id : Nat) (f : Landing → Landing) : (s.modLanding id f).cmds = s.cmds := rfl
@[simp] theorem State.modLanding_bindings (s : State) (id : Nat) (f : Landing → Landing) : (s.modLanding id f).bindings = s.bindings := rfl
@[simp] theorem State.modLanding_remaps (s : State) (id : Nat) (f : Landing → Landing) : (s.modLanding id f).remaps = s.remaps := rfl
@[simp] theorem State.modLanding_launches (s : State) (id : Nat) (f : Landing → Landing) : (s.modLanding id f).launches = s.launches := rfl
@[simp] theorem State.modLanding_tenants (s : State) (id : Nat) (f : Landing → Landing) : (s.modLanding id f).tenants = s.tenants := rfl
@[simp] theorem State.modLanding_floors (s : State) (id : Nat) (f : Landing → Landing) : (s.modLanding id f).floors = s.floors := rfl
@[simp] theorem State.modLanding_fatals (s : State) (id : Nat) (f : Landing → Landing) : (s.modLanding id f).fatals = s.fatals := rfl
@[simp] theorem State.modLanding_lastCluster (s : State) (id : Nat) (f : Landing → Landing) : (s.modLanding id f).lastCluster = s.lastCluster := rfl
@[simp] theorem State.modLanding_ports (s : State) (id : Nat) (f : Landing → Landing) : (s.modLanding id f).ports = s.ports := rfl
@[simp] theorem State.modLanding_routes (s : State) (id : Nat) (f : Landing → Landing) : (s.modLanding id f).routes = s.routes := rfl
@[simp] theorem State.modLanding_fullAt (s : State) (id : Nat) (f : Landing → Landing) : (s.modLanding id f).fullAt = s.fullAt := rfl
@[simp] theorem State.modLanding_tickCtime (s : State) (id : Nat) (f : Landing → Landing) : (s.modLanding id f).tickCtime = s.tickCtime := rfl
@[simp] theorem State.modLanding_tickPressure (s : State) (id : Nat) (f : Landing → Landing) : (s.modLanding id f).tickPressure = s.tickPressure := rfl
@[simp] theorem State.modLanding_regs (s : State) (id : Nat) (f : Landing → Landing) : (s.modLanding id f).regs = s.regs := rfl
@[simp] theorem State.modLanding_polfel (s : State) (id : Nat) (f : Landing → Landing) : (s.modLanding id f).polfel = s.polfel := rfl
@[simp] theorem State.modLanding_archive (s : State) (id : Nat) (f : Landing → Landing) : (s.modLanding id f).archive = s.archive := rfl

/-! ### modLaunch -/

@[simp] theorem State.modLaunch_phase (s : State) (id : Nat) (f : Launch → Launch) : (s.modLaunch id f).phase = s.phase := rfl
@[simp] theorem State.modLaunch_clock (s : State) (id : Nat) (f : Launch → Launch) : (s.modLaunch id f).clock = s.clock := rfl
@[simp] theorem State.modLaunch_fresh (s : State) (id : Nat) (f : Launch → Launch) : (s.modLaunch id f).fresh = s.fresh := rfl
@[simp] theorem State.modLaunch_ids (s : State) (id : Nat) (f : Launch → Launch) : (s.modLaunch id f).ids = s.ids := rfl
@[simp] theorem State.modLaunch_agenda (s : State) (id : Nat) (f : Launch → Launch) : (s.modLaunch id f).agenda = s.agenda := rfl
@[simp] theorem State.modLaunch_groups (s : State) (id : Nat) (f : Launch → Launch) : (s.modLaunch id f).groups = s.groups := rfl
@[simp] theorem State.modLaunch_mem (s : State) (id : Nat) (f : Launch → Launch) : (s.modLaunch id f).mem = s.mem := rfl
@[simp] theorem State.modLaunch_tags (s : State) (id : Nat) (f : Launch → Launch) : (s.modLaunch id f).tags = s.tags := rfl
@[simp] theorem State.modLaunch_stamps (s : State) (id : Nat) (f : Launch → Launch) : (s.modLaunch id f).stamps = s.stamps := rfl
@[simp] theorem State.modLaunch_teams (s : State) (id : Nat) (f : Launch → Launch) : (s.modLaunch id f).teams = s.teams := rfl
@[simp] theorem State.modLaunch_cores (s : State) (id : Nat) (f : Launch → Launch) : (s.modLaunch id f).cores = s.cores := rfl
@[simp] theorem State.modLaunch_clusters (s : State) (id : Nat) (f : Launch → Launch) : (s.modLaunch id f).clusters = s.clusters := rfl
@[simp] theorem State.modLaunch_dies (s : State) (id : Nat) (f : Launch → Launch) : (s.modLaunch id f).dies = s.dies := rfl
@[simp] theorem State.modLaunch_landings (s : State) (id : Nat) (f : Launch → Launch) : (s.modLaunch id f).landings = s.landings := rfl
@[simp] theorem State.modLaunch_pageMarks (s : State) (id : Nat) (f : Launch → Launch) : (s.modLaunch id f).pageMarks = s.pageMarks := rfl
@[simp] theorem State.modLaunch_publishes (s : State) (id : Nat) (f : Launch → Launch) : (s.modLaunch id f).publishes = s.publishes := rfl
@[simp] theorem State.modLaunch_catts (s : State) (id : Nat) (f : Launch → Launch) : (s.modLaunch id f).catts = s.catts := rfl
@[simp] theorem State.modLaunch_cmds (s : State) (id : Nat) (f : Launch → Launch) : (s.modLaunch id f).cmds = s.cmds := rfl
@[simp] theorem State.modLaunch_bindings (s : State) (id : Nat) (f : Launch → Launch) : (s.modLaunch id f).bindings = s.bindings := rfl
@[simp] theorem State.modLaunch_remaps (s : State) (id : Nat) (f : Launch → Launch) : (s.modLaunch id f).remaps = s.remaps := rfl
@[simp] theorem State.modLaunch_tenants (s : State) (id : Nat) (f : Launch → Launch) : (s.modLaunch id f).tenants = s.tenants := rfl
@[simp] theorem State.modLaunch_floors (s : State) (id : Nat) (f : Launch → Launch) : (s.modLaunch id f).floors = s.floors := rfl
@[simp] theorem State.modLaunch_fatals (s : State) (id : Nat) (f : Launch → Launch) : (s.modLaunch id f).fatals = s.fatals := rfl
@[simp] theorem State.modLaunch_lastCluster (s : State) (id : Nat) (f : Launch → Launch) : (s.modLaunch id f).lastCluster = s.lastCluster := rfl
@[simp] theorem State.modLaunch_ports (s : State) (id : Nat) (f : Launch → Launch) : (s.modLaunch id f).ports = s.ports := rfl
@[simp] theorem State.modLaunch_routes (s : State) (id : Nat) (f : Launch → Launch) : (s.modLaunch id f).routes = s.routes := rfl
@[simp] theorem State.modLaunch_fullAt (s : State) (id : Nat) (f : Launch → Launch) : (s.modLaunch id f).fullAt = s.fullAt := rfl
@[simp] theorem State.modLaunch_tickCtime (s : State) (id : Nat) (f : Launch → Launch) : (s.modLaunch id f).tickCtime = s.tickCtime := rfl
@[simp] theorem State.modLaunch_tickPressure (s : State) (id : Nat) (f : Launch → Launch) : (s.modLaunch id f).tickPressure = s.tickPressure := rfl
@[simp] theorem State.modLaunch_regs (s : State) (id : Nat) (f : Launch → Launch) : (s.modLaunch id f).regs = s.regs := rfl
@[simp] theorem State.modLaunch_polfel (s : State) (id : Nat) (f : Launch → Launch) : (s.modLaunch id f).polfel = s.polfel := rfl
@[simp] theorem State.modLaunch_archive (s : State) (id : Nat) (f : Launch → Launch) : (s.modLaunch id f).archive = s.archive := rfl

/-! ### setLine -/

@[simp] theorem State.setLine_phase (s : State) (c : Nat) (x : L1Line) : (s.setLine c x).phase = s.phase := rfl
@[simp] theorem State.setLine_clock (s : State) (c : Nat) (x : L1Line) : (s.setLine c x).clock = s.clock := rfl
@[simp] theorem State.setLine_fresh (s : State) (c : Nat) (x : L1Line) : (s.setLine c x).fresh = s.fresh := rfl
@[simp] theorem State.setLine_ids (s : State) (c : Nat) (x : L1Line) : (s.setLine c x).ids = s.ids := rfl
@[simp] theorem State.setLine_agenda (s : State) (c : Nat) (x : L1Line) : (s.setLine c x).agenda = s.agenda := rfl
@[simp] theorem State.setLine_groups (s : State) (c : Nat) (x : L1Line) : (s.setLine c x).groups = s.groups := rfl
@[simp] theorem State.setLine_mem (s : State) (c : Nat) (x : L1Line) : (s.setLine c x).mem = s.mem := rfl
@[simp] theorem State.setLine_tags (s : State) (c : Nat) (x : L1Line) : (s.setLine c x).tags = s.tags := rfl
@[simp] theorem State.setLine_stamps (s : State) (c : Nat) (x : L1Line) : (s.setLine c x).stamps = s.stamps := rfl
@[simp] theorem State.setLine_teams (s : State) (c : Nat) (x : L1Line) : (s.setLine c x).teams = s.teams := rfl
@[simp] theorem State.setLine_clusters (s : State) (c : Nat) (x : L1Line) : (s.setLine c x).clusters = s.clusters := rfl
@[simp] theorem State.setLine_dies (s : State) (c : Nat) (x : L1Line) : (s.setLine c x).dies = s.dies := rfl
@[simp] theorem State.setLine_landings (s : State) (c : Nat) (x : L1Line) : (s.setLine c x).landings = s.landings := rfl
@[simp] theorem State.setLine_pageMarks (s : State) (c : Nat) (x : L1Line) : (s.setLine c x).pageMarks = s.pageMarks := rfl
@[simp] theorem State.setLine_publishes (s : State) (c : Nat) (x : L1Line) : (s.setLine c x).publishes = s.publishes := rfl
@[simp] theorem State.setLine_catts (s : State) (c : Nat) (x : L1Line) : (s.setLine c x).catts = s.catts := rfl
@[simp] theorem State.setLine_cmds (s : State) (c : Nat) (x : L1Line) : (s.setLine c x).cmds = s.cmds := rfl
@[simp] theorem State.setLine_bindings (s : State) (c : Nat) (x : L1Line) : (s.setLine c x).bindings = s.bindings := rfl
@[simp] theorem State.setLine_remaps (s : State) (c : Nat) (x : L1Line) : (s.setLine c x).remaps = s.remaps := rfl
@[simp] theorem State.setLine_launches (s : State) (c : Nat) (x : L1Line) : (s.setLine c x).launches = s.launches := rfl
@[simp] theorem State.setLine_tenants (s : State) (c : Nat) (x : L1Line) : (s.setLine c x).tenants = s.tenants := rfl
@[simp] theorem State.setLine_floors (s : State) (c : Nat) (x : L1Line) : (s.setLine c x).floors = s.floors := rfl
@[simp] theorem State.setLine_fatals (s : State) (c : Nat) (x : L1Line) : (s.setLine c x).fatals = s.fatals := rfl
@[simp] theorem State.setLine_lastCluster (s : State) (c : Nat) (x : L1Line) : (s.setLine c x).lastCluster = s.lastCluster := rfl
@[simp] theorem State.setLine_ports (s : State) (c : Nat) (x : L1Line) : (s.setLine c x).ports = s.ports := rfl
@[simp] theorem State.setLine_routes (s : State) (c : Nat) (x : L1Line) : (s.setLine c x).routes = s.routes := rfl
@[simp] theorem State.setLine_fullAt (s : State) (c : Nat) (x : L1Line) : (s.setLine c x).fullAt = s.fullAt := rfl
@[simp] theorem State.setLine_tickCtime (s : State) (c : Nat) (x : L1Line) : (s.setLine c x).tickCtime = s.tickCtime := rfl
@[simp] theorem State.setLine_tickPressure (s : State) (c : Nat) (x : L1Line) : (s.setLine c x).tickPressure = s.tickPressure := rfl
@[simp] theorem State.setLine_regs (s : State) (c : Nat) (x : L1Line) : (s.setLine c x).regs = s.regs := rfl
@[simp] theorem State.setLine_polfel (s : State) (c : Nat) (x : L1Line) : (s.setLine c x).polfel = s.polfel := rfl
@[simp] theorem State.setLine_archive (s : State) (c : Nat) (x : L1Line) : (s.setLine c x).archive = s.archive := rfl

/-! ### dropLeases -/

@[simp] theorem State.dropLeases_phase (s : State) (c pa n : Nat) : (s.dropLeases c pa n).phase = s.phase := rfl
@[simp] theorem State.dropLeases_clock (s : State) (c pa n : Nat) : (s.dropLeases c pa n).clock = s.clock := rfl
@[simp] theorem State.dropLeases_fresh (s : State) (c pa n : Nat) : (s.dropLeases c pa n).fresh = s.fresh := rfl
@[simp] theorem State.dropLeases_ids (s : State) (c pa n : Nat) : (s.dropLeases c pa n).ids = s.ids := rfl
@[simp] theorem State.dropLeases_agenda (s : State) (c pa n : Nat) : (s.dropLeases c pa n).agenda = s.agenda := rfl
@[simp] theorem State.dropLeases_groups (s : State) (c pa n : Nat) : (s.dropLeases c pa n).groups = s.groups := rfl
@[simp] theorem State.dropLeases_mem (s : State) (c pa n : Nat) : (s.dropLeases c pa n).mem = s.mem := rfl
@[simp] theorem State.dropLeases_tags (s : State) (c pa n : Nat) : (s.dropLeases c pa n).tags = s.tags := rfl
@[simp] theorem State.dropLeases_stamps (s : State) (c pa n : Nat) : (s.dropLeases c pa n).stamps = s.stamps := rfl
@[simp] theorem State.dropLeases_teams (s : State) (c pa n : Nat) : (s.dropLeases c pa n).teams = s.teams := rfl
@[simp] theorem State.dropLeases_clusters (s : State) (c pa n : Nat) : (s.dropLeases c pa n).clusters = s.clusters := rfl
@[simp] theorem State.dropLeases_dies (s : State) (c pa n : Nat) : (s.dropLeases c pa n).dies = s.dies := rfl
@[simp] theorem State.dropLeases_landings (s : State) (c pa n : Nat) : (s.dropLeases c pa n).landings = s.landings := rfl
@[simp] theorem State.dropLeases_pageMarks (s : State) (c pa n : Nat) : (s.dropLeases c pa n).pageMarks = s.pageMarks := rfl
@[simp] theorem State.dropLeases_publishes (s : State) (c pa n : Nat) : (s.dropLeases c pa n).publishes = s.publishes := rfl
@[simp] theorem State.dropLeases_catts (s : State) (c pa n : Nat) : (s.dropLeases c pa n).catts = s.catts := rfl
@[simp] theorem State.dropLeases_cmds (s : State) (c pa n : Nat) : (s.dropLeases c pa n).cmds = s.cmds := rfl
@[simp] theorem State.dropLeases_bindings (s : State) (c pa n : Nat) : (s.dropLeases c pa n).bindings = s.bindings := rfl
@[simp] theorem State.dropLeases_remaps (s : State) (c pa n : Nat) : (s.dropLeases c pa n).remaps = s.remaps := rfl
@[simp] theorem State.dropLeases_launches (s : State) (c pa n : Nat) : (s.dropLeases c pa n).launches = s.launches := rfl
@[simp] theorem State.dropLeases_tenants (s : State) (c pa n : Nat) : (s.dropLeases c pa n).tenants = s.tenants := rfl
@[simp] theorem State.dropLeases_floors (s : State) (c pa n : Nat) : (s.dropLeases c pa n).floors = s.floors := rfl
@[simp] theorem State.dropLeases_fatals (s : State) (c pa n : Nat) : (s.dropLeases c pa n).fatals = s.fatals := rfl
@[simp] theorem State.dropLeases_lastCluster (s : State) (c pa n : Nat) : (s.dropLeases c pa n).lastCluster = s.lastCluster := rfl
@[simp] theorem State.dropLeases_ports (s : State) (c pa n : Nat) : (s.dropLeases c pa n).ports = s.ports := rfl
@[simp] theorem State.dropLeases_routes (s : State) (c pa n : Nat) : (s.dropLeases c pa n).routes = s.routes := rfl
@[simp] theorem State.dropLeases_fullAt (s : State) (c pa n : Nat) : (s.dropLeases c pa n).fullAt = s.fullAt := rfl
@[simp] theorem State.dropLeases_tickCtime (s : State) (c pa n : Nat) : (s.dropLeases c pa n).tickCtime = s.tickCtime := rfl
@[simp] theorem State.dropLeases_tickPressure (s : State) (c pa n : Nat) : (s.dropLeases c pa n).tickPressure = s.tickPressure := rfl
@[simp] theorem State.dropLeases_regs (s : State) (c pa n : Nat) : (s.dropLeases c pa n).regs = s.regs := rfl
@[simp] theorem State.dropLeases_polfel (s : State) (c pa n : Nat) : (s.dropLeases c pa n).polfel = s.polfel := rfl
@[simp] theorem State.dropLeases_archive (s : State) (c pa n : Nat) : (s.dropLeases c pa n).archive = s.archive := rfl

/-! ### carry -/

@[simp] theorem State.carry_phase (s : State) (c team : Nat) : (s.carry c team).phase = s.phase := rfl
@[simp] theorem State.carry_clock (s : State) (c team : Nat) : (s.carry c team).clock = s.clock := rfl
@[simp] theorem State.carry_fresh (s : State) (c team : Nat) : (s.carry c team).fresh = s.fresh := rfl
@[simp] theorem State.carry_ids (s : State) (c team : Nat) : (s.carry c team).ids = s.ids := rfl
@[simp] theorem State.carry_agenda (s : State) (c team : Nat) : (s.carry c team).agenda = s.agenda := rfl
@[simp] theorem State.carry_groups (s : State) (c team : Nat) : (s.carry c team).groups = s.groups := rfl
@[simp] theorem State.carry_mem (s : State) (c team : Nat) : (s.carry c team).mem = s.mem := rfl
@[simp] theorem State.carry_tags (s : State) (c team : Nat) : (s.carry c team).tags = s.tags := rfl
@[simp] theorem State.carry_stamps (s : State) (c team : Nat) : (s.carry c team).stamps = s.stamps := rfl
@[simp] theorem State.carry_teams (s : State) (c team : Nat) : (s.carry c team).teams = s.teams := rfl
@[simp] theorem State.carry_clusters (s : State) (c team : Nat) : (s.carry c team).clusters = s.clusters := rfl
@[simp] theorem State.carry_dies (s : State) (c team : Nat) : (s.carry c team).dies = s.dies := rfl
@[simp] theorem State.carry_landings (s : State) (c team : Nat) : (s.carry c team).landings = s.landings := rfl
@[simp] theorem State.carry_pageMarks (s : State) (c team : Nat) : (s.carry c team).pageMarks = s.pageMarks := rfl
@[simp] theorem State.carry_publishes (s : State) (c team : Nat) : (s.carry c team).publishes = s.publishes := rfl
@[simp] theorem State.carry_catts (s : State) (c team : Nat) : (s.carry c team).catts = s.catts := rfl
@[simp] theorem State.carry_cmds (s : State) (c team : Nat) : (s.carry c team).cmds = s.cmds := rfl
@[simp] theorem State.carry_bindings (s : State) (c team : Nat) : (s.carry c team).bindings = s.bindings := rfl
@[simp] theorem State.carry_remaps (s : State) (c team : Nat) : (s.carry c team).remaps = s.remaps := rfl
@[simp] theorem State.carry_launches (s : State) (c team : Nat) : (s.carry c team).launches = s.launches := rfl
@[simp] theorem State.carry_tenants (s : State) (c team : Nat) : (s.carry c team).tenants = s.tenants := rfl
@[simp] theorem State.carry_floors (s : State) (c team : Nat) : (s.carry c team).floors = s.floors := rfl
@[simp] theorem State.carry_fatals (s : State) (c team : Nat) : (s.carry c team).fatals = s.fatals := rfl
@[simp] theorem State.carry_lastCluster (s : State) (c team : Nat) : (s.carry c team).lastCluster = s.lastCluster := rfl
@[simp] theorem State.carry_ports (s : State) (c team : Nat) : (s.carry c team).ports = s.ports := rfl
@[simp] theorem State.carry_routes (s : State) (c team : Nat) : (s.carry c team).routes = s.routes := rfl
@[simp] theorem State.carry_fullAt (s : State) (c team : Nat) : (s.carry c team).fullAt = s.fullAt := rfl
@[simp] theorem State.carry_tickCtime (s : State) (c team : Nat) : (s.carry c team).tickCtime = s.tickCtime := rfl
@[simp] theorem State.carry_tickPressure (s : State) (c team : Nat) : (s.carry c team).tickPressure = s.tickPressure := rfl
@[simp] theorem State.carry_regs (s : State) (c team : Nat) : (s.carry c team).regs = s.regs := rfl
@[simp] theorem State.carry_polfel (s : State) (c team : Nat) : (s.carry c team).polfel = s.polfel := rfl
@[simp] theorem State.carry_archive (s : State) (c team : Nat) : (s.carry c team).archive = s.archive := rfl

@[simp] theorem State.sees_cores (s : State) (team : Nat) : (s.sees team).cores = s.cores := rfl
@[simp] theorem State.sees_phase (s : State) (team : Nat) : (s.sees team).phase = s.phase := rfl
@[simp] theorem State.sees_clock (s : State) (team : Nat) : (s.sees team).clock = s.clock := rfl
@[simp] theorem State.sees_fresh (s : State) (team : Nat) : (s.sees team).fresh = s.fresh := rfl
@[simp] theorem State.sees_ids (s : State) (team : Nat) : (s.sees team).ids = s.ids := rfl
@[simp] theorem State.sees_agenda (s : State) (team : Nat) : (s.sees team).agenda = s.agenda := rfl
@[simp] theorem State.sees_groups (s : State) (team : Nat) : (s.sees team).groups = s.groups := rfl
@[simp] theorem State.sees_mem (s : State) (team : Nat) : (s.sees team).mem = s.mem := rfl
@[simp] theorem State.sees_tags (s : State) (team : Nat) : (s.sees team).tags = s.tags := rfl
@[simp] theorem State.sees_teams (s : State) (team : Nat) : (s.sees team).teams = s.teams := rfl
@[simp] theorem State.sees_clusters (s : State) (team : Nat) : (s.sees team).clusters = s.clusters := rfl
@[simp] theorem State.sees_dies (s : State) (team : Nat) : (s.sees team).dies = s.dies := rfl
@[simp] theorem State.sees_landings (s : State) (team : Nat) : (s.sees team).landings = s.landings := rfl
@[simp] theorem State.sees_pageMarks (s : State) (team : Nat) : (s.sees team).pageMarks = s.pageMarks := rfl
@[simp] theorem State.sees_publishes (s : State) (team : Nat) : (s.sees team).publishes = s.publishes := rfl
@[simp] theorem State.sees_catts (s : State) (team : Nat) : (s.sees team).catts = s.catts := rfl
@[simp] theorem State.sees_cmds (s : State) (team : Nat) : (s.sees team).cmds = s.cmds := rfl
@[simp] theorem State.sees_bindings (s : State) (team : Nat) : (s.sees team).bindings = s.bindings := rfl
@[simp] theorem State.sees_remaps (s : State) (team : Nat) : (s.sees team).remaps = s.remaps := rfl
@[simp] theorem State.sees_launches (s : State) (team : Nat) : (s.sees team).launches = s.launches := rfl
@[simp] theorem State.sees_tenants (s : State) (team : Nat) : (s.sees team).tenants = s.tenants := rfl
@[simp] theorem State.sees_floors (s : State) (team : Nat) : (s.sees team).floors = s.floors := rfl
@[simp] theorem State.sees_fatals (s : State) (team : Nat) : (s.sees team).fatals = s.fatals := rfl
@[simp] theorem State.sees_lastCluster (s : State) (team : Nat) : (s.sees team).lastCluster = s.lastCluster := rfl
@[simp] theorem State.sees_ports (s : State) (team : Nat) : (s.sees team).ports = s.ports := rfl
@[simp] theorem State.sees_routes (s : State) (team : Nat) : (s.sees team).routes = s.routes := rfl
@[simp] theorem State.sees_fullAt (s : State) (team : Nat) : (s.sees team).fullAt = s.fullAt := rfl
@[simp] theorem State.sees_tickCtime (s : State) (team : Nat) : (s.sees team).tickCtime = s.tickCtime := rfl
@[simp] theorem State.sees_tickPressure (s : State) (team : Nat) : (s.sees team).tickPressure = s.tickPressure := rfl
@[simp] theorem State.sees_regs (s : State) (team : Nat) : (s.sees team).regs = s.regs := rfl
@[simp] theorem State.sees_polfel (s : State) (team : Nat) : (s.sees team).polfel = s.polfel := rfl
@[simp] theorem State.sees_archive (s : State) (team : Nat) : (s.sees team).archive = s.archive := rfl

/-! ### setTile -/

@[simp] theorem State.setTile_phase (s : State) (cl : Nat) (x : Tile) : (s.setTile cl x).phase = s.phase := rfl
@[simp] theorem State.setTile_clock (s : State) (cl : Nat) (x : Tile) : (s.setTile cl x).clock = s.clock := rfl
@[simp] theorem State.setTile_fresh (s : State) (cl : Nat) (x : Tile) : (s.setTile cl x).fresh = s.fresh := rfl
@[simp] theorem State.setTile_ids (s : State) (cl : Nat) (x : Tile) : (s.setTile cl x).ids = s.ids := rfl
@[simp] theorem State.setTile_agenda (s : State) (cl : Nat) (x : Tile) : (s.setTile cl x).agenda = s.agenda := rfl
@[simp] theorem State.setTile_groups (s : State) (cl : Nat) (x : Tile) : (s.setTile cl x).groups = s.groups := rfl
@[simp] theorem State.setTile_mem (s : State) (cl : Nat) (x : Tile) : (s.setTile cl x).mem = s.mem := rfl
@[simp] theorem State.setTile_tags (s : State) (cl : Nat) (x : Tile) : (s.setTile cl x).tags = s.tags := rfl
@[simp] theorem State.setTile_stamps (s : State) (cl : Nat) (x : Tile) : (s.setTile cl x).stamps = s.stamps := rfl
@[simp] theorem State.setTile_teams (s : State) (cl : Nat) (x : Tile) : (s.setTile cl x).teams = s.teams := rfl
@[simp] theorem State.setTile_cores (s : State) (cl : Nat) (x : Tile) : (s.setTile cl x).cores = s.cores := rfl
@[simp] theorem State.setTile_dies (s : State) (cl : Nat) (x : Tile) : (s.setTile cl x).dies = s.dies := rfl
@[simp] theorem State.setTile_landings (s : State) (cl : Nat) (x : Tile) : (s.setTile cl x).landings = s.landings := rfl
@[simp] theorem State.setTile_pageMarks (s : State) (cl : Nat) (x : Tile) : (s.setTile cl x).pageMarks = s.pageMarks := rfl
@[simp] theorem State.setTile_publishes (s : State) (cl : Nat) (x : Tile) : (s.setTile cl x).publishes = s.publishes := rfl
@[simp] theorem State.setTile_catts (s : State) (cl : Nat) (x : Tile) : (s.setTile cl x).catts = s.catts := rfl
@[simp] theorem State.setTile_cmds (s : State) (cl : Nat) (x : Tile) : (s.setTile cl x).cmds = s.cmds := rfl
@[simp] theorem State.setTile_bindings (s : State) (cl : Nat) (x : Tile) : (s.setTile cl x).bindings = s.bindings := rfl
@[simp] theorem State.setTile_remaps (s : State) (cl : Nat) (x : Tile) : (s.setTile cl x).remaps = s.remaps := rfl
@[simp] theorem State.setTile_launches (s : State) (cl : Nat) (x : Tile) : (s.setTile cl x).launches = s.launches := rfl
@[simp] theorem State.setTile_tenants (s : State) (cl : Nat) (x : Tile) : (s.setTile cl x).tenants = s.tenants := rfl
@[simp] theorem State.setTile_floors (s : State) (cl : Nat) (x : Tile) : (s.setTile cl x).floors = s.floors := rfl
@[simp] theorem State.setTile_fatals (s : State) (cl : Nat) (x : Tile) : (s.setTile cl x).fatals = s.fatals := rfl
@[simp] theorem State.setTile_lastCluster (s : State) (cl : Nat) (x : Tile) : (s.setTile cl x).lastCluster = s.lastCluster := rfl
@[simp] theorem State.setTile_ports (s : State) (cl : Nat) (x : Tile) : (s.setTile cl x).ports = s.ports := rfl
@[simp] theorem State.setTile_routes (s : State) (cl : Nat) (x : Tile) : (s.setTile cl x).routes = s.routes := rfl
@[simp] theorem State.setTile_fullAt (s : State) (cl : Nat) (x : Tile) : (s.setTile cl x).fullAt = s.fullAt := rfl
@[simp] theorem State.setTile_tickCtime (s : State) (cl : Nat) (x : Tile) : (s.setTile cl x).tickCtime = s.tickCtime := rfl
@[simp] theorem State.setTile_tickPressure (s : State) (cl : Nat) (x : Tile) : (s.setTile cl x).tickPressure = s.tickPressure := rfl
@[simp] theorem State.setTile_regs (s : State) (cl : Nat) (x : Tile) : (s.setTile cl x).regs = s.regs := rfl
@[simp] theorem State.setTile_polfel (s : State) (cl : Nat) (x : Tile) : (s.setTile cl x).polfel = s.polfel := rfl
@[simp] theorem State.setTile_archive (s : State) (cl : Nat) (x : Tile) : (s.setTile cl x).archive = s.archive := rfl

/-! ### modPort -/

@[simp] theorem State.modPort_phase (s : State) (p : Nat) (f : Port → Port) : (s.modPort p f).phase = s.phase := rfl
@[simp] theorem State.modPort_clock (s : State) (p : Nat) (f : Port → Port) : (s.modPort p f).clock = s.clock := rfl
@[simp] theorem State.modPort_fresh (s : State) (p : Nat) (f : Port → Port) : (s.modPort p f).fresh = s.fresh := rfl
@[simp] theorem State.modPort_ids (s : State) (p : Nat) (f : Port → Port) : (s.modPort p f).ids = s.ids := rfl
@[simp] theorem State.modPort_agenda (s : State) (p : Nat) (f : Port → Port) : (s.modPort p f).agenda = s.agenda := rfl
@[simp] theorem State.modPort_groups (s : State) (p : Nat) (f : Port → Port) : (s.modPort p f).groups = s.groups := rfl
@[simp] theorem State.modPort_mem (s : State) (p : Nat) (f : Port → Port) : (s.modPort p f).mem = s.mem := rfl
@[simp] theorem State.modPort_tags (s : State) (p : Nat) (f : Port → Port) : (s.modPort p f).tags = s.tags := rfl
@[simp] theorem State.modPort_stamps (s : State) (p : Nat) (f : Port → Port) : (s.modPort p f).stamps = s.stamps := rfl
@[simp] theorem State.modPort_teams (s : State) (p : Nat) (f : Port → Port) : (s.modPort p f).teams = s.teams := rfl
@[simp] theorem State.modPort_cores (s : State) (p : Nat) (f : Port → Port) : (s.modPort p f).cores = s.cores := rfl
@[simp] theorem State.modPort_clusters (s : State) (p : Nat) (f : Port → Port) : (s.modPort p f).clusters = s.clusters := rfl
@[simp] theorem State.modPort_dies (s : State) (p : Nat) (f : Port → Port) : (s.modPort p f).dies = s.dies := rfl
@[simp] theorem State.modPort_landings (s : State) (p : Nat) (f : Port → Port) : (s.modPort p f).landings = s.landings := rfl
@[simp] theorem State.modPort_pageMarks (s : State) (p : Nat) (f : Port → Port) : (s.modPort p f).pageMarks = s.pageMarks := rfl
@[simp] theorem State.modPort_publishes (s : State) (p : Nat) (f : Port → Port) : (s.modPort p f).publishes = s.publishes := rfl
@[simp] theorem State.modPort_catts (s : State) (p : Nat) (f : Port → Port) : (s.modPort p f).catts = s.catts := rfl
@[simp] theorem State.modPort_cmds (s : State) (p : Nat) (f : Port → Port) : (s.modPort p f).cmds = s.cmds := rfl
@[simp] theorem State.modPort_bindings (s : State) (p : Nat) (f : Port → Port) : (s.modPort p f).bindings = s.bindings := rfl
@[simp] theorem State.modPort_remaps (s : State) (p : Nat) (f : Port → Port) : (s.modPort p f).remaps = s.remaps := rfl
@[simp] theorem State.modPort_launches (s : State) (p : Nat) (f : Port → Port) : (s.modPort p f).launches = s.launches := rfl
@[simp] theorem State.modPort_tenants (s : State) (p : Nat) (f : Port → Port) : (s.modPort p f).tenants = s.tenants := rfl
@[simp] theorem State.modPort_floors (s : State) (p : Nat) (f : Port → Port) : (s.modPort p f).floors = s.floors := rfl
@[simp] theorem State.modPort_fatals (s : State) (p : Nat) (f : Port → Port) : (s.modPort p f).fatals = s.fatals := rfl
@[simp] theorem State.modPort_lastCluster (s : State) (p : Nat) (f : Port → Port) : (s.modPort p f).lastCluster = s.lastCluster := rfl
@[simp] theorem State.modPort_routes (s : State) (p : Nat) (f : Port → Port) : (s.modPort p f).routes = s.routes := rfl
@[simp] theorem State.modPort_fullAt (s : State) (p : Nat) (f : Port → Port) : (s.modPort p f).fullAt = s.fullAt := rfl
@[simp] theorem State.modPort_tickCtime (s : State) (p : Nat) (f : Port → Port) : (s.modPort p f).tickCtime = s.tickCtime := rfl
@[simp] theorem State.modPort_tickPressure (s : State) (p : Nat) (f : Port → Port) : (s.modPort p f).tickPressure = s.tickPressure := rfl
@[simp] theorem State.modPort_regs (s : State) (p : Nat) (f : Port → Port) : (s.modPort p f).regs = s.regs := rfl
@[simp] theorem State.modPort_polfel (s : State) (p : Nat) (f : Port → Port) : (s.modPort p f).polfel = s.polfel := rfl
@[simp] theorem State.modPort_archive (s : State) (p : Nat) (f : Port → Port) : (s.modPort p f).archive = s.archive := rfl

end Sys2Proof.Machine
end

