-- ==== Sys2Proof/Laws/Inv.lean ====
section
/-!
SUPPORT. The operations over memory, caches and threads keep the machine's invariant.
-/

namespace Sys2Proof.Machine

/-! ### States that differ elsewhere -/

/-- What the invariant says of one team: its scratchpad and those that its saves have written keep the canonical form. -/
structure Team.Tidy (x : Team) : Prop where
  mem : Memory.wf x.mem = true
  images : ∀ y ∈ x.images, Memory.wf y.mem = true

/-- What the invariant says of one line of an L1: its dirty bytes lie in it, none of them twice. -/
structure L1Line.Tidy (x : L1Line) : Prop where
  nodup : (x.dirty.map (·.off)).Nodup
  offs : ∀ d ∈ x.dirty, d.off < 64

/-- The invariant, team by team and line by line. -/
theorem State.Inv.of {s : State} (hm : Memory.wf s.mem = true) (ht : ∀ x ∈ s.teams, x.Tidy)
    (hc : ∀ c ∈ s.cores, ∀ x ∈ c.lines, x.Tidy) : s.Inv where
  mem := hm
  scratch := fun x hx => (ht x hx).mem
  images := fun x hx => (ht x hx).images
  lines := fun c hc' x hx => (hc c hc' x hx).nodup
  offs := fun c hc' x hx => (hc c hc' x hx).offs

theorem State.Inv.team {s : State} (h : s.Inv) : ∀ x ∈ s.teams, x.Tidy := fun x hx => ⟨h.scratch x hx, h.images x hx⟩

theorem State.Inv.line {s : State} (h : s.Inv) : ∀ c ∈ s.cores, ∀ x ∈ c.lines, x.Tidy :=
  fun c hc x hx => ⟨h.lines c hc x hx, h.offs c hc x hx⟩

/-- The invariant looks at memory, the scratchpads, the images and the lines of the L1s only. -/
theorem State.Inv.congr {s t : State} (h : s.Inv) (hm : t.mem = s.mem)
    (ht : ∀ x ∈ t.teams, ∃ y ∈ s.teams, x.mem = y.mem ∧ x.images = y.images)
    (hc : ∀ x ∈ t.cores, ∃ y ∈ s.cores, x.lines = y.lines) : t.Inv :=
  .of (by rw [hm]; exact h.mem)
    (fun x hx => by obtain ⟨y, hy, e, e'⟩ := ht x hx; exact ⟨e ▸ h.scratch y hy, e' ▸ h.images y hy⟩)
    fun x hx => by obtain ⟨y, hy, e⟩ := hc x hx; rw [e]; exact h.line y hy

/-- The invariant of a state with the same memory, teams and cores. -/
theorem State.Inv.same {s t : State} (h : s.Inv) (hm : t.mem = s.mem) (ht : t.teams = s.teams) (hc : t.cores = s.cores) : t.Inv :=
  h.congr hm (fun x hx => ⟨x, ht ▸ hx, rfl, rfl⟩) (fun x hx => ⟨x, hc ▸ hx, rfl⟩)

/-- Steps one after another. -/
theorem foldl_inv {β : Type} {f : State → β → State} (hf : ∀ s b, s.Inv → (f s b).Inv) (l : List β) {s : State} (h : s.Inv) :
    (l.foldl f s).Inv := by
  induction l generalizing s with
  | nil => exact h
  | cons b l ih => exact ih (hf s b h)

theorem mem_put {α : Type} {key : α → Nat} {a x : α} {l : List α} (h : x ∈ put key a l) : x = a ∨ x ∈ l := by
  induction l with
  | nil => simpa [put] using h
  | cons y l ih =>
    rw [put] at h
    split at h
    · rcases List.mem_cons.1 h with h | h
      · exact .inl h
      · exact .inr (List.mem_cons_of_mem _ h)
    · rcases List.mem_cons.1 h with h | h
      · exact .inr (h ▸ List.mem_cons_self)
      · exact (ih h).imp id (List.mem_cons_of_mem _)

/-! ### Teams and threads -/

theorem modTeam_inv {s : State} (h : s.Inv) (id : Nat) {f : Team → Team} (hf : ∀ x, x.Tidy → (f x).Tidy) : (s.modTeam id f).Inv :=
  .of h.mem (fun x hx => by
    simp only [State.modTeam, List.mem_map] at hx
    obtain ⟨y, hy, e⟩ := hx
    split at e
    · exact e ▸ hf y (h.team y hy)
    · exact e ▸ h.team y hy) h.line

/-- A change of a team that leaves its scratchpad and its images as they are. -/
theorem modTeam_inv' {s : State} (h : s.Inv) (id : Nat) {f : Team → Team} (hf : ∀ x, (f x).mem = x.mem ∧ (f x).images = x.images) :
    (s.modTeam id f).Inv :=
  modTeam_inv h id fun x hx => ⟨(hf x).1 ▸ hx.mem, (hf x).2 ▸ hx.images⟩

theorem modThread_inv {s : State} (h : s.Inv) (id tid : Nat) (f : Thread → Thread) : (s.modThread id tid f).Inv :=
  modTeam_inv' h id fun _ => ⟨rfl, rfl⟩

theorem trap_inv {s : State} (h : s.Inv) (g : Group) (tid : Nat) (b : Bad) : (s.trap g tid b).Inv := modThread_inv h _ _ _

theorem file_inv {s : State} (h : s.Inv) (id tid : Nat) : (s.file id tid).Inv := by
  unfold State.file
  split
  · exact modThread_inv h _ _ _
  · exact h

theorem fileReady_inv {s : State} (h : s.Inv) (id tid : Nat) : (s.fileReady id tid).Inv := file_inv (modThread_inv h _ _ _) _ _

theorem fileYield_inv {s : State} (h : s.Inv) (id tid : Nat) : (s.fileYield id tid).Inv := file_inv (modThread_inv h _ _ _) _ _

theorem endJob_inv {s : State} (h : s.Inv) (j : Nat) : (s.endJob j).Inv :=
  h.congr rfl (fun x hx => by
    simp only [State.endJob, List.mem_map] at hx
    obtain ⟨y, hy, e⟩ := hx
    exact ⟨y, hy, by rw [← e], by rw [← e]⟩) fun x hx => ⟨x, hx, rfl⟩

theorem raise_inv {s : State} (h : s.Inv) (o : Word) (r : List Byte) : (s.raise o r).Inv := h.same rfl rfl rfl

theorem modCluster_inv {s : State} (h : s.Inv) (c : Nat) (f : Cluster → Cluster) : (s.modCluster c f).Inv := h.same rfl rfl rfl

theorem modTenant_inv {s : State} (h : s.Inv) (t : Nat) (f : Tenant → Tenant) : (s.modTenant t f).Inv := h.same rfl rfl rfl

theorem modDie_inv {s : State} (h : s.Inv) (d : Nat) (f : Die → Die) : (s.modDie d f).Inv := h.same rfl rfl rfl

theorem setStamp_inv {s : State} (h : s.Inv) (x : Stamp) : (s.setStamp x).Inv := h.same rfl rfl rfl

theorem modLanding_inv {s : State} (h : s.Inv) (id : Nat) (f : Landing → Landing) : (s.modLanding id f).Inv := h.same rfl rfl rfl

theorem reply_inv {s : State} (h : s.Inv) (r : Reply) : (s.reply r).Inv := h.same rfl rfl rfl

/-! ### Cores and lines -/

theorem core_tidy {s : State} (h : s.Inv) (c : Nat) : ∀ x ∈ (s.core c).lines, x.Tidy := by
  unfold State.core
  cases hf : s.cores.find? (·.id = c) with
  | none => intro x hx; simp [Core.fresh] at hx
  | some y => exact h.line y (List.mem_of_find?_eq_some hf)

theorem setCore_inv {s : State} (h : s.Inv) {c : Core} (hc : ∀ x ∈ c.lines, x.Tidy) : (s.setCore c).Inv :=
  .of h.mem h.team fun x hx => by
    rcases mem_put hx with e | hx
    · exact e ▸ hc
    · exact h.line x hx

theorem modCore_inv {s : State} (h : s.Inv) (c : Nat) {f : Core → Core}
    (hf : ∀ y : Core, (∀ x ∈ y.lines, x.Tidy) → ∀ x ∈ (f y).lines, x.Tidy) : (s.modCore c f).Inv :=
  setCore_inv h (hf _ (core_tidy h c))

/-- A change of a core that leaves its lines as they are. -/
theorem modCore_inv' {s : State} (h : s.Inv) (c : Nat) {f : Core → Core} (hf : ∀ y, (f y).lines = y.lines) : (s.modCore c f).Inv :=
  modCore_inv h c fun y hy => by rw [hf]; exact hy

/-- A change of a core that changes its lines one by one, and no dirty byte of them. -/
theorem modLines_inv {s : State} (h : s.Inv) (c : Nat) {f : Core → Core} {g : Core → L1Line → L1Line}
    (hf : ∀ y, (f y).lines = y.lines.map (g y)) (hg : ∀ y x, (g y x).dirty = x.dirty) : (s.modCore c f).Inv :=
  modCore_inv h c fun y hy x hx => by
    rw [hf, List.mem_map] at hx
    obtain ⟨z, hz, e⟩ := hx
    exact e ▸ ⟨(hg y z).symm ▸ (hy z hz).nodup, (hg y z).symm ▸ (hy z hz).offs⟩

theorem line_tidy {s : State} (h : s.Inv) (c pa : Nat) : (s.line c pa).Tidy := by
  unfold State.line
  cases hf : (s.core c).lines.find? (·.pa = lineOf pa) with
  | none => exact ⟨List.nodup_nil, fun _ h => by cases h⟩
  | some x => exact core_tidy h c x (List.mem_of_find?_eq_some hf)

theorem setLine_inv {s : State} (h : s.Inv) (c : Nat) {x : L1Line} (hx : x.Tidy) : (s.setLine c x).Inv :=
  modCore_inv h c fun y hy z hz => by
    rcases mem_put hz with e | hz
    · exact e ▸ hx
    · exact hy z hz

/-- A line some of whose dirty bytes are gone. -/
theorem L1Line.Tidy.sub {x y : L1Line} (h : x.Tidy) (hs : y.dirty.Sublist x.dirty) : y.Tidy :=
  ⟨(hs.map _).nodup h.nodup, fun d hd => h.offs d (hs.subset hd)⟩

theorem store_tidy {x : L1Line} (h : x.Tidy) {off : Nat} (ho : off < 64) (v : Byte) (w : Nat × Nat) (now : Nat) :
    (x.store off v w now).Tidy where
  nodup := by
    simp only [L1Line.store, List.map_cons, List.nodup_cons]
    refine ⟨?_, (List.filter_sublist.map _).nodup h.nodup⟩
    simp only [List.mem_map, List.mem_filter]
    rintro ⟨d, ⟨_, hd⟩, e⟩
    simp [e] at hd
  offs := fun d hd => by
    rcases List.mem_cons.1 hd with e | hd
    · exact e ▸ ho
    · exact h.offs d (List.mem_filter.1 hd).1

/-! ### Epochs, stamps and the directory -/

theorem newEpoch_tidy {e : Nat} {c : Core} (h : ∀ x ∈ c.lines, x.Tidy) : ∀ x ∈ (c.newEpoch e).lines, x.Tidy := by
  have he : ∀ x ∈ c.expired, x.Tidy := fun x hx => by
    obtain ⟨y, hy, rfl⟩ := List.mem_map.1 hx
    exact ⟨(h y hy).nodup, (h y hy).offs⟩
  unfold Core.newEpoch
  split
  · exact he
  · split
    · exact he
    · exact fun x hx => he x (List.mem_filter.1 hx).1

theorem changeEpoch_inv {s : State} (h : s.Inv) (die : Nat) : (s.changeEpoch die).Inv := by
  refine State.Inv.of h.mem h.team ?_
  intro c hc
  obtain ⟨y, hy, e⟩ := List.mem_map.1 hc
  split at e
  · exact e ▸ newEpoch_tidy (h.line y hy)
  · exact e ▸ h.line y hy

theorem roomFor_inv {s : State} (h : s.Inv) (die x : Nat) : (s.roomFor die x).Inv := by
  unfold State.roomFor
  split
  · exact changeEpoch_inv h _
  · exact h

theorem dropCopies_inv {s : State} (h : s.Inv) (sel : Stamp → Bool) : (s.dropCopies sel).Inv := by
  unfold State.dropCopies
  exact State.Inv.same (foldl_inv (fun s x hs => by split <;> [exact modDie_inv hs _ _; exact hs]) _ h) rfl rfl rfl

theorem settle_inv {s : State} (h : s.Inv) : s.settle.Inv := dropCopies_inv h _

theorem settleFor_inv {s : State} (h : s.Inv) (team : Nat) : (s.settleFor team).Inv := dropCopies_inv h _

theorem settleDie_inv {s : State} (h : s.Inv) (die : Nat) : (s.settleDie die).Inv := dropCopies_inv h _

theorem sees_inv {s : State} (h : s.Inv) (team : Nat) : (s.sees team).Inv := State.Inv.same h rfl rfl rfl

theorem settleAt_inv {s : State} (h : s.Inv) (die pa n : Nat) : (s.settleAt die pa n).Inv := dropCopies_inv h _

theorem dropGuests_inv {s : State} (h : s.Inv) (line : Nat) : (s.dropGuests line).Inv := dropCopies_inv h _

theorem directory_inv {s : State} (h : s.Inv) (line : Nat) (w : Option Nat) (due : Nat) (teams : List Nat) :
    (s.directory line w due teams).Inv := by
  unfold State.directory
  refine State.Inv.same (dropCopies_inv (s := ite _ _ _) ?_ _) rfl rfl rfl
  split
  · exact modDie_inv h _ _
  · exact h

theorem stampWrite_inv {s : State} (h : s.Inv) (line : Nat) (core : Option Nat) (due : Nat) (teams : List Nat) :
    (s.stampWrite line core due teams).2.Inv := by
  unfold State.stampWrite
  split
  · exact directory_inv (setStamp_inv (roomFor_inv h _ _) _) _ _ _ _
  · exact h

/-! ### Memory and its homes -/

theorem seeVerdict_tidy {t : Team} (h : t.Tidy) (pa : Nat) (b : List Byte) : (t.seeVerdict pa b).Tidy := by
  unfold Team.seeVerdict
  split
  · split
    · exact ⟨h.mem, h.images⟩
    · exact h
  · exact h

theorem homeWrite_inv {s : State} (h : s.Inv) (pa : Nat) (b : List Byte) : (s.homeWrite pa b).Inv :=
  .of (wf_cellsSet h.mem pa b) (fun x hx => by
    obtain ⟨y, hy, e⟩ := List.mem_map.1 hx
    exact e ▸ seeVerdict_tidy (h.team y hy) _ _) h.line

theorem coreHomeWrite_inv {s : State} (h : s.Inv) (c pa due : Nat) (teams : List Nat) (b : List Byte) :
    (s.coreHomeWrite c pa due teams b).Inv := by
  unfold State.coreHomeWrite
  exact modCore_inv' (homeWrite_inv (stampWrite_inv h _ _ _ _) _ _) _ fun _ => rfl

theorem agentWrite_inv {s : State} (h : s.Inv) (pa : Nat) (b : List Byte) : (s.agentWrite pa b).Inv := by
  induction b generalizing s pa with
  | nil => exact h
  | cons x b ih => exact ih (homeWrite_inv (stampWrite_inv h _ _ _ _) _ _) _

theorem scrWrite_inv {s : State} (h : s.Inv) (t o : Nat) (b : List Byte) : (s.scrWrite t o b).Inv :=
  modTeam_inv h t fun _ hx => ⟨wf_cellsSet hx.mem o b, hx.images⟩

theorem leaseRoom_inv {s : State} (h : s.Inv) (c line : Nat) : (s.leaseRoom c line).Inv := by
  unfold State.leaseRoom
  refine roomFor_inv ?_ _ _
  split
  · exact h
  · exact settleAt_inv h _ _ _

theorem grant_inv {s : State} (h : s.Inv) (c line : Nat) : (s.grant c line).2.Inv := by
  unfold State.grant
  dsimp only
  split
  · exact setStamp_inv h _
  · exact setStamp_inv h _

theorem fetchLine_inv {s : State} (h : s.Inv) (c pa va : Nat) : (s.fetchLine c pa va).Inv :=
  have h := grant_inv (leaseRoom_inv h c (lineOf pa)) c (lineOf pa)
  setLine_inv h c ⟨(line_tidy h c pa).nodup, (line_tidy h c pa).offs⟩

theorem l1Load_inv {s : State} (h : s.Inv) (c pa va n : Nat) : (s.l1Load c pa va n).1.Inv := by
  unfold State.l1Load
  dsimp only
  split
  · exact h
  · exact fetchLine_inv h _ _ _

theorem l1Store_inv {s : State} (h : s.Inv) (c team pa va : Nat) (b : List Byte) : (s.l1Store c team pa va b).Inv := by
  unfold State.l1Store
  refine setLine_inv h c ?_
  suffices ∀ (l : List Nat) (x : L1Line), x.Tidy →
      (l.foldl (fun (x : L1Line) i => x.store ((pa + i) % 64) (b.getD i 0) (team, va + i) s.clock) x).Tidy from
    this _ _ (line_tidy h c pa)
  intro l
  induction l with
  | nil => intro x hx; exact hx
  | cons i l ih => intro x hx; exact ih _ (store_tidy hx (Nat.mod_lt _ (by decide)) _ _ _)

theorem writeBackLine_inv {s : State} (h : s.Inv) (c pa : Nat) (sel : DirtyByte → Bool) : (s.writeBackLine c pa sel).Inv := by
  unfold State.writeBackLine
  dsimp only
  split
  · exact h
  · refine setLine_inv (foldl_inv (fun s d hs => coreHomeWrite_inv hs _ _ _ _ _) _ h) c ((line_tidy h c pa).sub ?_)
    rw [List.partition_eq_filter_filter]
    exact List.filter_sublist

theorem writeBack_inv {s : State} (h : s.Inv) (c : Nat) (sel : DirtyByte → Bool) : (s.writeBack c sel).Inv :=
  foldl_inv (fun _ _ hs => writeBackLine_inv hs _ _ _) _ h

theorem flushTeam_inv {s : State} (h : s.Inv) (c team : Nat) : (s.flushTeam c team).Inv := writeBack_inv h _ _

theorem releaseTeam_inv {s : State} (h : s.Inv) (c team : Nat) : (s.releaseTeam c team).Inv :=
  settleFor_inv (flushTeam_inv h _ _) _

theorem flushCore_inv {s : State} (h : s.Inv) (c : Nat) : (s.flushCore c).Inv := writeBack_inv h _ _

theorem flushBytes_inv {s : State} (h : s.Inv) (c pa n : Nat) : (s.flushBytes c pa n).Inv :=
  foldl_inv (fun _ _ hs => writeBackLine_inv hs _ _ _) _ h

theorem dropLeases_inv {s : State} (h : s.Inv) (c pa n : Nat) : (s.dropLeases c pa n).Inv :=
  modLines_inv h c (fun _ => rfl) fun _ x => by split <;> rfl

theorem acquireCore_inv {s : State} (h : s.Inv) (c : Nat) : (s.acquireCore c).Inv := by
  unfold State.acquireCore
  dsimp only
  split
  · exact changeEpoch_inv h _
  · exact modCore_inv' h c fun _ => rfl

theorem coverLease_inv {s : State} (h : s.Inv) (die line last : Nat) : (s.coverLease die line last).Inv := by
  unfold State.coverLease
  dsimp only
  repeat' split
  all_goals first | exact setStamp_inv h _ | exact modDie_inv h _ _

theorem coverLeases_inv {s : State} (h : s.Inv) (c : Nat) : (s.coverLeases c).Inv := by
  refine foldl_inv (fun s l hs => ?_) _ h
  split
  · split
    · exact coverLease_inv hs _ _ _
    · exact hs
  · exact hs

theorem acquireLines_inv {s : State} (h : s.Inv) (c : Nat) (sel : L1Line → Bool) : (s.acquireLines c sel).Inv := by
  unfold State.acquireLines
  dsimp only
  split
  · exact changeEpoch_inv h _
  · refine coverLeases_inv (modLines_inv h c
      (g := fun (y : Core) (l : L1Line) => if sel l then l else l.keepLease y.ctime _ _) (fun _ => rfl) fun _ x => ?_) _
    unfold L1Line.keepLease
    repeat' split
    all_goals rfl

theorem carry_inv {s : State} (h : s.Inv) (c team : Nat) : (s.carry c team).Inv :=
  modCore_inv h c fun y hy x hx => by
    obtain ⟨z, hz, rfl⟩ := List.mem_map.1 hx
    refine ⟨by simpa [List.map_map, Function.comp_def] using (hy z hz).nodup, fun d hd => ?_⟩
    obtain ⟨d', hd', rfl⟩ := List.mem_map.1 hd
    exact (hy z hz).offs d' hd'

/-! ### Translation -/

theorem install_inv {s : State} (h : s.Inv) (core : Nat) (st w : Bool) (e : TlbEntry) : (s.install core st w e).1.Inv := by
  unfold State.install State.setPte
  dsimp only
  split
  · exact modCluster_inv (agentWrite_inv h _ _) _ _
  · exact modCore_inv' (modCluster_inv (agentWrite_inv h _ _) _ _) _ fun _ => rfl

theorem walked_inv {s : State} (h : s.Inv) (die tn asid va : Nat) : (s.walked die tn asid va).Inv := by
  unfold State.walked
  split
  · exact h
  · dsimp only
    split
    · exact h
    · exact modDie_inv h _ _

theorem pageWalk_inv {s : State} (h : s.Inv) (core : Nat) (st : Bool) (tn asid va : Nat) (w : Bool) :
    (s.pageWalk core st tn asid va w).1.Inv := by
  unfold State.pageWalk
  split
  · exact install_inv (walked_inv h _ _ _ _) _ _ _ _
  · exact h

theorem leafFor_inv {s : State} (h : s.Inv) (core : Nat) (st : Bool) (tn asid va : Nat) (k : Kind) :
    (s.leafFor core st tn asid va k).1.Inv := by
  unfold State.leafFor
  split
  · split
    · dsimp only; split
      · exact h
      · exact modCore_inv' h _ fun _ => rfl
    · exact pageWalk_inv h _ _ _ _ _ _
  · exact pageWalk_inv h _ _ _ _ _ _

theorem translate_inv {s : State} (h : s.Inv) (ag : Agent) (va : Nat) (k : Kind) : (s.translate ag va k).1.Inv := by
  have hl := leafFor_inv h ag.core ag.direct ag.tenant ag.asid va k
  unfold State.translate
  dsimp only
  split
  · next e => rw [e] at hl; exact hl
  · next e =>
    rw [e] at hl
    repeat' split
    all_goals exact hl

theorem place_inv {s : State} (h : s.Inv) (ag : Agent) (va n : Nat) (k : Kind) : (s.place ag va n k).1.Inv := by
  have ht := translate_inv h ag va k
  unfold State.place
  split
  · split <;> exact h
  · split <;> (next e => rw [e] at ht; exact ht)

theorem rangeFrom_inv (ag : Agent) (k : Kind) (fuel : Nat) : ∀ (s : State) (va n : Nat), s.Inv → (s.rangeFrom ag k fuel va n).1.Inv := by
  induction fuel with
  | zero => intro s va n h; exact h
  | succ f ih =>
    intro s va n h
    unfold State.rangeFrom
    split
    · exact h
    · dsimp only
      generalize (if inWindow va = true then n else min n (4096 - va % 4096)) = j
      have hp := place_inv h ag va j k
      split
      · next e => rw [e] at hp; exact hp
      · next e =>
        rw [e] at hp
        have hr := ih _ (va + j) (n - j) hp
        split <;> (next e => rw [e] at hr; exact hr)

theorem dirtied_inv {s : State} (h : s.Inv) (l : List Pin) : (s.dirtied l).Inv := by
  refine foldl_inv (fun s p hs => ?_) _ h
  split
  · exact hs
  · exact agentWrite_inv hs _ _

theorem range_inv {s : State} (h : s.Inv) (ag : Agent) (va n : Nat) (k : Kind) : (s.range ag va n k).1.Inv := by
  unfold State.range
  generalize (if k = .write then Kind.claim else k) = k'
  have hr := rangeFrom_inv ag k' (n / 4096 + 2) s va n h
  split
  · next e => rw [e] at hr; exact hr
  · next e =>
    rw [e] at hr
    dsimp only
    split
    · exact dirtied_inv hr _
    · exact hr

/-! ### Accesses -/

theorem locWrite_inv {s : State} (h : s.Inv) (l : Loc) (b : List Byte) : (s.locWrite l b).Inv := by
  unfold State.locWrite
  split
  · exact scrWrite_inv h _ _ _
  · exact agentWrite_inv h _ _

theorem segWrite_inv {s : State} (h : s.Inv) (l : List Seg) (b : List Byte) : (s.segWrite l b).Inv := by
  induction l generalizing s b with
  | nil => exact h
  | cons x l ih => exact ih (locWrite_inv h _ _) _

theorem release_inv {s : State} (h : s.Inv) (ag : Agent) (sc : Scope) (g : Option GuardWord) : (s.release ag sc g).Inv := by
  unfold State.release
  split
  · exact h
  · refine settleFor_inv (s := ite _ _ _) ?_ _
    split
    · exact h
    · split
      · exact flushTeam_inv h _ _
      · exact writeBack_inv h _ _

theorem acquire_inv {s : State} (h : s.Inv) (ag : Agent) (sc : Scope) (g : Option GuardWord) : (s.acquire ag sc g).Inv := by
  unfold State.acquire
  split
  · exact h
  · refine sees_inv (carry_inv (s := ite _ _ _) ?_ _ _) _
    split
    · exact flushCore_inv h _
    · split
      · exact acquireCore_inv h _
      · exact acquireLines_inv h _ _

theorem toHome_inv {s : State} (h : s.Inv) (ag : Agent) (l : Loc) (n : Nat) : (s.toHome ag l n).Inv := by
  unfold State.toHome
  split
  · exact h
  · refine settleAt_inv (s := ite _ _ _) ?_ _ _ _
    split
    · exact h
    · exact flushBytes_inv h _ _ _

theorem fromHome_inv {s : State} (h : s.Inv) (ag : Agent) (l : Loc) (n : Nat) : (s.fromHome ag l n).Inv := by
  unfold State.fromHome
  split
  · exact h
  · split
    · exact h
    · exact dropLeases_inv h _ _ _

theorem loadAt_inv {s : State} (h : s.Inv) (ag : Agent) (va : Nat) (l : Loc) (n : Nat) (hint : Hint) :
    (s.loadAt ag va l n hint).1.Inv := by
  unfold State.loadAt
  split
  · exact l1Load_inv h _ _ _ _
  · exact fromHome_inv (toHome_inv h _ _ _) _ _ _

theorem putAt_inv {s : State} (h : s.Inv) (ag : Agent) (l : Loc) (b : List Byte) : (s.putAt ag l b).Inv := by
  unfold State.putAt
  split
  · exact scrWrite_inv h _ _ _
  · split
    · exact agentWrite_inv h _ _
    · exact coreHomeWrite_inv h _ _ _ _ _

theorem storeHome_inv {s : State} (h : s.Inv) (ag : Agent) (l : Loc) (b : List Byte) : (s.storeHome ag l b).Inv :=
  fromHome_inv (putAt_inv (toHome_inv h _ _ _) _ _ _) _ _ _

theorem storeAt_inv {s : State} (h : s.Inv) (ag : Agent) (va : Nat) (l : Loc) (b : List Byte) (y : Sync) :
    (s.storeAt ag va l b y).Inv := by
  unfold State.storeAt
  split
  · exact l1Store_inv h _ _ _ _ _
  · exact storeHome_inv h _ _ _

theorem memRead_inv {s : State} (h : s.Inv) (ag : Agent) (va n : Nat) (y : Sync) : (s.memRead ag va n y).1.Inv := by
  unfold State.memRead
  split
  · exact h
  · have hp := place_inv h ag va n .read
    split
    · next e => rw [e] at hp; exact hp
    · next l _ e =>
      rw [e] at hp
      dsimp only
      have hl := loadAt_inv hp ag va l n y.hint
      split
      · exact acquire_inv hl _ _ _
      · exact hl

theorem memWrite_inv {s : State} (h : s.Inv) (ag : Agent) (va : Nat) (b : List Byte) (y : Sync) : (s.memWrite ag va b y).1.Inv := by
  unfold State.memWrite
  split
  · exact h
  · have hp := place_inv h ag va b.length .write
    split
    · next e => rw [e] at hp; exact hp
    · next e =>
      rw [e] at hp
      dsimp only
      split
      · exact storeAt_inv (release_inv hp _ _ _) _ _ _ _ _
      · exact storeAt_inv hp _ _ _ _ _

theorem memRmw_inv {s : State} (h : s.Inv) (ag : Agent) (va n : Nat) (y : Sync) (w : Bool) (f : List Byte → Option (List Byte)) :
    (s.memRmw ag va n y w f).1.Inv := by
  have hrel : ∀ {s : State} (g : Option GuardWord), s.Inv → (if y.order.releases = true then s.release ag y.scope g else s).Inv := by
    intro s g hs; split
    · exact release_inv hs _ _ _
    · exact hs
  have hstore : ∀ {s : State} (l : Loc) (o : Option (List Byte)), s.Inv → (match o with
      | some new => s.storeHome ag l new | none => s.fromHome ag l n).Inv := by
    intro s l o hs; split
    · exact storeHome_inv hs _ _ _
    · exact fromHome_inv hs _ _ _
  unfold State.memRmw
  split
  · exact h
  · have hp := place_inv h ag va n .write
    split
    · next e => rw [e] at hp; exact hp
    · next e =>
      rw [e] at hp
      dsimp only
      split
      · exact acquire_inv (hstore _ _ (toHome_inv (hrel _ hp) _ _ _)) _ _ _
      · exact hstore _ _ (toHome_inv (hrel _ hp) _ _ _)

theorem toHomes_inv {s : State} (h : s.Inv) (ag : Agent) (segs : List Seg) : (s.toHomes ag segs).Inv :=
  foldl_inv (fun _ _ hs => toHome_inv hs _ _ _) _ h

theorem fromHomes_inv {s : State} (h : s.Inv) (ag : Agent) (segs : List Seg) : (s.fromHomes ag segs).Inv :=
  foldl_inv (fun _ _ hs => fromHome_inv hs _ _ _) _ h

theorem readStruct_inv {s : State} (h : s.Inv) (ag : Agent) (va n al : Nat) : (s.readStruct ag va n al).1.Inv := by
  unfold State.readStruct
  split
  · exact h
  · have hp := range_inv h ag va n .read
    split
    · next e => rw [e] at hp; exact hp
    · next e => rw [e] at hp; exact fromHomes_inv (toHomes_inv hp _ _) _ _

theorem segStore_inv {s : State} (h : s.Inv) (ag : Agent) (segs : List Seg) (b : List Byte) : (s.segStore ag segs b).Inv :=
  fromHomes_inv (segWrite_inv (toHomes_inv h _ _) _ _) _ _

theorem dirtySegs_inv {s : State} (h : s.Inv) (l : List Seg) : (s.dirtySegs l).Inv := dirtied_inv h _

/-! ### Accesses that homes and units make by themselves -/

theorem markLeaf_inv {s : State} (h : s.Inv) (e : TlbEntry) (w : Bool) : (s.markLeaf e w).Inv := by
  unfold State.markLeaf
  dsimp only
  split
  · exact h
  · exact agentWrite_inv h _ _

theorem touched_inv {s : State} (h : s.Inv) (tn asid va : Nat) (w : Bool) : (s.touched tn asid va w).Inv := by
  unfold State.touched
  split
  · exact markLeaf_inv h _ _
  · exact h

theorem touchedAll_inv {s : State} (h : s.Inv) (tn asid va n : Nat) (w : Bool) : (s.touchedAll tn asid va n w).Inv :=
  foldl_inv (fun _ _ hs => touched_inv hs _ _ _ _) _ h

theorem touchSpans_inv {s : State} (h : s.Inv) (c : Ctx) (l : List (Nat × Nat)) : (s.touchSpans c l).Inv :=
  foldl_inv (fun _ _ hs => touchedAll_inv hs _ _ _ _ _) _ h

theorem meetSpans_inv {s : State} (h : s.Inv) (ag : Agent) (c : Ctx) (l : List (Nat × Nat)) : (s.meetSpans ag c l).Inv :=
  foldl_inv (fun s x hs => by
    show (match s.homeAddr c.tenant c.asid x.1 false with | some pa => _ | none => s : State).Inv
    split
    · exact fromHome_inv (toHome_inv hs _ _ _) _ _ _
    · exact hs) _ h

theorem descWrite_inv {s : State} (h : s.Inv) (tn asid : Nat) (l : Landing) (addr : DWord) (off : Nat) (b : List Byte) :
    (s.descWrite tn asid l addr off b).Inv := by
  unfold State.descWrite
  dsimp only
  split
  · exact agentWrite_inv (markLeaf_inv h _ _) _ _
  · exact agentWrite_inv h _ _

end Sys2Proof.Machine
end

