-- ==== Sys2Proof/Laws/PerInstr.lean ====
section
/-!
SUPPORT. What is said of every instruction: that the first word the encoder gives it is read back as the instruction,
but for its literal and its modifier word (R57 to R61, R72 to R74).
-/

namespace Sys2Proof.Laws.Parse

/-- The instruction that a first word stands for with a literal and a modifier word behind it. -/
def rebuild (p : Parsed) (l : List Word) (m : Mods) : Option Instr :=
  match p, l, m with
  | .plain i, [], .none => some i
  | .modded f, [], m => some (f m)
  | .literal f, [x], m => some (f x m)
  | _, _, _ => none

/-- The first word of an instruction of the code is a 32-bit word, no modifier word, and is read as the instruction. -/
def Statement (i : Instr) : Prop :=
  i.isEvent = false → i.fieldsOk = true →
    i.word < 2 ^ 32 ∧ isModWord i.word = false ∧ ∃ p, parseWord i.word = some p ∧ rebuild p i.lit i.mods = some i

/-! ### Codes -/

@[simp] theorem ElemTy.ofCode_code (x : ElemTy) : ElemTy.ofCode x.code = some x := by cases x <;> rfl
theorem ElemTy.code_lt (x : ElemTy) : x.code < 8 := by cases x <;> decide
@[simp] theorem Rel.ofCode_code (x : Rel) : Rel.ofCode x.code = some x := by cases x <;> rfl
theorem Rel.code_lt (x : Rel) : x.code < 6 := by cases x <;> decide
@[simp] theorem FRel.ofCode_code (x : FRel) : FRel.ofCode x.code = some x := by cases x <;> rfl
theorem FRel.code_lt (x : FRel) : x.code < 8 := by cases x <;> decide
@[simp] theorem Rm.ofCode_code (x : Rm) : Rm.ofCode x.code = some x := by cases x <;> rfl
theorem Rm.code_lt (x : Rm) : x.code < 4 := by cases x <;> decide
@[simp] theorem RndMode.ofCode_code (x : RndMode) : RndMode.ofCode x.code = some x := by cases x <;> rfl
theorem RndMode.code_lt (x : RndMode) : x.code < 8 := by cases x <;> decide
@[simp] theorem FFmt.ofCode_code (x : FFmt) : FFmt.ofCode x.code = some x := by cases x <;> rfl
theorem FFmt.code_lt (x : FFmt) : x.code < 16 := by cases x <;> decide
@[simp] theorem CvtFlt.ofCode_code (x : CvtFlt) : CvtFlt.ofCode x.code = some x := by cases x <;> rfl
theorem CvtFlt.code_lt (x : CvtFlt) : x.code < 8 := by cases x <;> decide
@[simp] theorem CvtInt.ofCode_code (x : CvtInt) : CvtInt.ofCode x.code = some x := by cases x <;> rfl
theorem CvtInt.code_lt (x : CvtInt) : x.code < 8 := by cases x <;> decide
@[simp] theorem GshfMode.ofCode_code (x : GshfMode) : GshfMode.ofCode x.code = some x := by cases x <;> rfl
theorem GshfMode.code_lt (x : GshfMode) : x.code < 8 := by cases x <;> decide
@[simp] theorem VoteOp.ofCode_code (x : VoteOp) : VoteOp.ofCode x.code = some x := by cases x <;> rfl
theorem VoteOp.code_lt (x : VoteOp) : x.code < 8 := by cases x <;> decide
@[simp] theorem FoldOp.ofCode_code (x : FoldOp) : FoldOp.ofCode x.code = some x := by cases x <;> rfl
theorem FoldOp.code_lt (x : FoldOp) : x.code < 8 := by cases x <;> decide
@[simp] theorem SReg.ofCode_code (x : SReg) : SReg.ofCode x.code = some x := by cases x <;> rfl
theorem SReg.code_lt (x : SReg) : x.code < 32 := by cases x <;> decide
@[simp] theorem MemSize.ofCode_code (x : MemSize) : MemSize.ofCode x.code = some x := by cases x <;> rfl
theorem MemSize.code_lt (x : MemSize) : x.code < 8 := by cases x <;> decide
@[simp] theorem AtomTy.ofCode_code (x : AtomTy) : AtomTy.ofCode x.code = some x := by cases x <;> rfl
theorem AtomTy.code_lt (x : AtomTy) : x.code < 8 := by cases x <;> decide
@[simp] theorem AtomOp.ofCode_code (x : AtomOp) : AtomOp.ofCode x.code = some x := by cases x <;> rfl
theorem AtomOp.code_lt (x : AtomOp) : x.code < 8 := by cases x <;> decide
@[simp] theorem RedOp.ofCode_code (x : RedOp) : RedOp.ofCode x.code = some x := by cases x <;> rfl
theorem RedOp.code_lt (x : RedOp) : x.code < 8 := by cases x <;> decide
@[simp] theorem Scope.ofCode_code (x : Scope) : Scope.ofCode x.code = some x := by cases x <;> rfl
theorem Scope.code_lt (x : Scope) : x.code < 8 := by cases x <;> decide
@[simp] theorem Order.ofCode_code (x : Order) : Order.ofCode x.code = some x := by cases x <;> rfl
theorem Order.code_lt (x : Order) : x.code < 4 := by cases x <;> decide
@[simp] theorem Hint.ofCode_code (x : Hint) : Hint.ofCode x.code = some x := by cases x <;> rfl
theorem Hint.code_lt (x : Hint) : x.code < 4 := by cases x <;> decide
@[simp] theorem MrgFmt.ofCode_code (x : MrgFmt) : MrgFmt.ofCode x.code = some x := by cases x <;> rfl
theorem MrgFmt.code_lt (x : MrgFmt) : x.code < 8 := by cases x <;> decide
@[simp] theorem TileFmt.ofCode_code (x : TileFmt) : TileFmt.ofCode x.code = some x := by cases x <;> rfl
theorem TileFmt.code_lt (x : TileFmt) : x.code < 8 := by cases x <;> decide
@[simp] theorem DrainFmt.ofCode_code (x : DrainFmt) : DrainFmt.ofCode x.code = some x := by cases x <;> rfl
theorem DrainFmt.code_lt (x : DrainFmt) : x.code < 8 := by cases x <;> decide
@[simp] theorem HadSize.ofCode_code (x : HadSize) : HadSize.ofCode x.code = some x := by cases x <;> rfl
theorem HadSize.code_lt (x : HadSize) : x.code < 8 := by cases x <;> decide
@[simp] theorem TlbiOp.ofCode_code (x : TlbiOp) : TlbiOp.ofCode x.code = some x := by cases x <;> rfl
theorem TlbiOp.code_lt (x : TlbiOp) : x.code < 8 := by cases x <;> decide

@[simp] theorem RsTy.ofCode_code (x : RsTy) : RsTy.ofCode x.code = x := by
  obtain ⟨w, s⟩ := x
  have := s.isLt
  unfold RsTy.ofCode RsTy.code
  congr 1
  · cases w <;> simp <;> omega
  · apply BitVec.eq_of_toNat_eq
    rw [BitVec.toNat_ofNat]
    cases w <;> simp <;> omega

theorem RsTy.code_lt (x : RsTy) : x.code < 8 := by
  obtain ⟨w, s⟩ := x
  have := s.isLt
  unfold RsTy.code
  cases w <;> simp <;> omega

@[simp] theorem codeOf_toNat (c : Code) : codeOf c.toNat = c := by simp [codeOf]

/-! ### The fields of a word -/

theorem parse_w3 {op d a b t : Nat} (hd : d < 128) (ha : a < 128) (hb : b < 128) (ht : t < 8) :
    parseWord (w3 op d a b t) = parseFields op d a b t := by
  unfold parseWord w3
  congr 1 <;> omega

theorem parse_wi {op d a imm : Nat} (hd : d < 128) (ha : a < 128) (hi : imm < 1024) :
    parseWord (wi op d a imm) = parseFields op d a (imm / 8) (imm % 8) := by
  unfold parseWord wi
  congr 1 <;> omega

theorem parse_wb {op : Nat} (g : Guard) (off : BitVec 19) :
    parseWord (wb op g off) = parseFields op (g.en.toNat * 64 + g.sense.toNat * 32 + g.pred.toNat * 4 + off.toNat / 2 ^ 17)
      (off.toNat / 2 ^ 10 % 128) (off.toNat / 8 % 128) (off.toNat % 8) := by
  have h1 := g.en.toNat_le
  have h2 := g.sense.toNat_le
  have h3 := g.pred.isLt
  have h4 := off.isLt
  unfold parseWord wb
  congr 1 <;> omega

theorem w3_lt {op d a b t : Nat} (ho : op < 255) (hd : d < 128) (ha : a < 128) (hb : b < 128) (ht : t < 8) :
    w3 op d a b t < 2 ^ 32 ∧ isModWord (w3 op d a b t) = false := by
  unfold w3 isModWord
  refine ⟨by omega, ?_⟩
  rw [beq_eq_false_iff_ne]
  omega

theorem wi_lt {op d a imm : Nat} (ho : op < 255) (hd : d < 128) (ha : a < 128) (hi : imm < 1024) :
    wi op d a imm < 2 ^ 32 ∧ isModWord (wi op d a imm) = false := by
  unfold wi isModWord
  refine ⟨by omega, ?_⟩
  rw [beq_eq_false_iff_ne]
  omega

theorem wb_lt {op : Nat} (ho : op < 255) (g : Guard) (off : BitVec 19) :
    wb op g off < 2 ^ 32 ∧ isModWord (wb op g off) = false := by
  have h1 := g.en.toNat_le
  have h2 := g.sense.toNat_le
  have h3 := g.pred.isLt
  have h4 := off.isLt
  unfold wb isModWord
  refine ⟨by omega, ?_⟩
  rw [beq_eq_false_iff_ne]
  omega

/-- An instruction whose first word has the format D3 is read as its fields say. -/
theorem of_w3 {i : Instr} (op d a b t : Nat) (p : Parsed) (hw : i.word = w3 op d a b t) (ho : op < 255) (hd : d < 128)
    (ha : a < 128) (hb : b < 128) (ht : t < 8) (hp : parseFields op d a b t = some p) (hr : rebuild p i.lit i.mods = some i) :
    i.word < 2 ^ 32 ∧ isModWord i.word = false ∧ ∃ p, parseWord i.word = some p ∧ rebuild p i.lit i.mods = some i := by
  rw [hw, parse_w3 hd ha hb ht]
  exact ⟨(w3_lt ho hd ha hb ht).1, (w3_lt ho hd ha hb ht).2, p, hp, hr⟩

/-- An instruction whose first word has an immediate of 10 bits is read as its fields say. -/
theorem of_wi {i : Instr} (op d a imm : Nat) (p : Parsed) (hw : i.word = wi op d a imm) (ho : op < 255) (hd : d < 128)
    (ha : a < 128) (hi : imm < 1024) (hp : parseFields op d a (imm / 8) (imm % 8) = some p)
    (hr : rebuild p i.lit i.mods = some i) :
    i.word < 2 ^ 32 ∧ isModWord i.word = false ∧ ∃ p, parseWord i.word = some p ∧ rebuild p i.lit i.mods = some i := by
  rw [hw, parse_wi hd ha hi]
  exact ⟨(wi_lt ho hd ha hi).1, (wi_lt ho hd ha hi).2, p, hp, hr⟩

theorem fields_back (imm : Nat) : imm / 8 * 8 + imm % 8 = imm := by omega

theorem cmpd_lt {r : Nat} (hr : r < 8) (u : Bool) (p : P3) : cmpd r u p < 128 := by
  have := u.toNat_le
  have := p.isLt
  unfold cmpd
  omega

theorem cmpd_rel (r : Nat) (u : Bool) (p : P3) : cmpd r u p / 16 = r := by
  have := u.toNat_le
  have := p.isLt
  unfold cmpd
  omega

theorem cmpd_bit (r : Nat) (u : Bool) (p : P3) : (cmpd r u p / 8 % 2 == 1) = u := by
  have := p.isLt
  unfold cmpd
  cases u <;> simp <;> omega

theorem cmpd_pred (r : Nat) (u : Bool) (p : P3) : BitVec.ofNat 3 (cmpd r u p) = p := by
  have := p.isLt
  apply BitVec.eq_of_toNat_eq
  rw [BitVec.toNat_ofNat]
  unfold cmpd
  cases u <;> simp <;> omega

theorem dbGuard_back (g : Guard) (n : Nat) (hn : n < 4) :
    dbGuard (g.en.toNat * 64 + g.sense.toNat * 32 + g.pred.toNat * 4 + n) = g := by
  obtain ⟨en, sense, pred⟩ := g
  have := pred.isLt
  unfold dbGuard
  congr 1
  · cases en <;> cases sense <;> simp <;> omega
  · cases en <;> cases sense <;> simp <;> omega
  · apply BitVec.eq_of_toNat_eq
    rw [BitVec.toNat_ofNat]
    cases en <;> cases sense <;> simp <;> omega

theorem dbOff_back (x : Nat) (off : BitVec 19) :
    dbOff (x * 4 + off.toNat / 2 ^ 17) (off.toNat / 2 ^ 10 % 128) (off.toNat / 8 % 128) (off.toNat % 8) = off := by
  have := off.isLt
  apply BitVec.eq_of_toNat_eq
  unfold dbOff
  rw [BitVec.toNat_ofNat]
  omega

/-- A DB word is read as its guard and offset say. -/
theorem of_wb {i : Instr} (op : Nat) (g : Guard) (off : BitVec 19) (p : Parsed) (hw : i.word = wb op g off) (ho : op < 255)
    (hp : ∀ d a b t, dbGuard d = g → d / 64 = g.en.toNat → dbOff d a b t = off → parseFields op d a b t = some p)
    (hr : rebuild p i.lit i.mods = some i) :
    i.word < 2 ^ 32 ∧ isModWord i.word = false ∧ ∃ p, parseWord i.word = some p ∧ rebuild p i.lit i.mods = some i := by
  have h1 := g.en.toNat_le
  have h2 := g.sense.toNat_le
  have h3 := g.pred.isLt
  have h4 := off.isLt
  rw [hw, parse_wb]
  refine ⟨(wb_lt ho g off).1, (wb_lt ho g off).2, p, hp _ _ _ _ (dbGuard_back g _ (by omega)) (by omega) ?_, hr⟩
  rw [show g.en.toNat * 64 + g.sense.toNat * 32 + g.pred.toNat * 4 + off.toNat / 2 ^ 17 =
    (g.en.toNat * 16 + g.sense.toNat * 8 + g.pred.toNat) * 4 + off.toNat / 2 ^ 17 by omega]
  exact dbOff_back _ off

theorem code_ne_zero {b : Code} (h : b ≠ 0) : b.toNat ≠ 0 := fun e => h (BitVec.eq_of_toNat_eq (by simpa using e))

/-! ### The instructions -/

theorem nop : Statement .nop := fun _ _ =>
  of_w3 0 0 0 0 0 (.plain .nop) rfl (by decide) (by decide) (by decide) (by decide) (by decide) rfl rfl

theorem mov (d : Code) (b : Code) (t : ElemTy) (m : Mods) : Statement (.mov d b t m) := by
  intro _ hf
  have := d.isLt
  have := b.isLt
  have := ElemTy.code_lt t
  refine of_w3 0x01 d.toNat 0 b.toNat t.code (.modded (.mov d b t)) rfl (by decide) d.isLt (by decide) b.isLt (by omega) ?_ rfl
  have hb := code_ne_zero (b := b) (by simp_all [Instr.fieldsOk])
  simp [parseFields, parseInt, d3, d3u, d3l, shimm, dm, rs3, rs2, zeroed, fields_back, cmpd_rel, cmpd_bit, cmpd_pred, hb]

theorem movDl (d : Code) (t : ElemTy) (lit : Word) (m : Mods) : Statement (.movDl d t lit m) := by
  intro _ hf
  have := d.isLt
  have := ElemTy.code_lt t
  refine of_w3 0x01 d.toNat 0 0 t.code (.literal (.movDl d t)) rfl (by decide) d.isLt (by decide) (by decide) (by omega) ?_ rfl
  simp [parseFields, parseInt, d3, d3u, d3l, shimm, dm, rs3, rs2, zeroed, fields_back, cmpd_rel, cmpd_bit, cmpd_pred]

theorem movi (d : Code) (imm : BitVec 10) (m : Mods) : Statement (.movi d imm m) := by
  intro _ hf
  have := d.isLt
  have := imm.isLt
  refine of_wi 0x02 d.toNat 0 imm.toNat (.modded (.movi d imm)) rfl (by decide) d.isLt (by decide) (by omega) ?_ rfl
  simp [parseFields, parseInt, d3, d3u, d3l, shimm, dm, rs3, rs2, zeroed, fields_back, cmpd_rel, cmpd_bit, cmpd_pred]

theorem kset (d : Code) (a : Code) (t : ElemTy) (m : Mods) : Statement (.kset d a t m) := by
  intro _ hf
  have := d.isLt
  have := a.isLt
  have := ElemTy.code_lt t
  refine of_w3 0x03 d.toNat a.toNat 0 t.code (.modded (.kset d a t)) rfl (by decide) d.isLt a.isLt (by decide) (by omega) ?_ rfl
  simp [parseFields, parseInt, d3, d3u, d3l, shimm, dm, rs3, rs2, zeroed, fields_back, cmpd_rel, cmpd_bit, cmpd_pred]

theorem iadd (d : Code) (a : Code) (b : Code) (t : ElemTy) (m : Mods) : Statement (.iadd d a b t m) := by
  intro _ hf
  have := d.isLt
  have := a.isLt
  have := b.isLt
  have := ElemTy.code_lt t
  refine of_w3 0x04 d.toNat a.toNat b.toNat t.code (.modded (.iadd d a b t)) rfl (by decide) d.isLt a.isLt b.isLt (by omega) ?_ rfl
  have hb := code_ne_zero (b := b) (by simp_all [Instr.fieldsOk])
  simp [parseFields, parseInt, d3, d3u, d3l, shimm, dm, rs3, rs2, zeroed, fields_back, cmpd_rel, cmpd_bit, cmpd_pred, hb]

theorem iaddDl (d : Code) (a : Code) (t : ElemTy) (lit : Word) (m : Mods) : Statement (.iaddDl d a t lit m) := by
  intro _ hf
  have := d.isLt
  have := a.isLt
  have := ElemTy.code_lt t
  refine of_w3 0x04 d.toNat a.toNat 0 t.code (.literal (.iaddDl d a t)) rfl (by decide) d.isLt a.isLt (by decide) (by omega) ?_ rfl
  simp [parseFields, parseInt, d3, d3u, d3l, shimm, dm, rs3, rs2, zeroed, fields_back, cmpd_rel, cmpd_bit, cmpd_pred]

theorem iaddi (d : Code) (a : Code) (imm : BitVec 10) (m : Mods) : Statement (.iaddi d a imm m) := by
  intro _ hf
  have := d.isLt
  have := a.isLt
  have := imm.isLt
  refine of_wi 0x05 d.toNat a.toNat imm.toNat (.modded (.iaddi d a imm)) rfl (by decide) d.isLt a.isLt (by omega) ?_ rfl
  simp [parseFields, parseInt, d3, d3u, d3l, shimm, dm, rs3, rs2, zeroed, fields_back, cmpd_rel, cmpd_bit, cmpd_pred]

theorem isub (d : Code) (a : Code) (b : Code) (t : ElemTy) (m : Mods) : Statement (.isub d a b t m) := by
  intro _ hf
  have := d.isLt
  have := a.isLt
  have := b.isLt
  have := ElemTy.code_lt t
  refine of_w3 0x06 d.toNat a.toNat b.toNat t.code (.modded (.isub d a b t)) rfl (by decide) d.isLt a.isLt b.isLt (by omega) ?_ rfl
  simp [parseFields, parseInt, d3, d3u, d3l, shimm, dm, rs3, rs2, zeroed, fields_back, cmpd_rel, cmpd_bit, cmpd_pred]

theorem iaddc (d : Code) (a : Code) (b : Code) (p : P3) (m : Mods) : Statement (.iaddc d a b p m) := by
  intro _ hf
  have := d.isLt
  have := a.isLt
  have := b.isLt
  have := p.isLt
  refine of_w3 0x07 d.toNat a.toNat b.toNat p.toNat (.modded (.iaddc d a b p)) rfl (by decide) d.isLt a.isLt b.isLt (by omega) ?_ rfl
  simp [parseFields, parseInt, d3, d3u, d3l, shimm, dm, rs3, rs2, zeroed, fields_back, cmpd_rel, cmpd_bit, cmpd_pred]

theorem imul (d : Code) (a : Code) (b : Code) (t : ElemTy) (m : Mods) : Statement (.imul d a b t m) := by
  intro _ hf
  have := d.isLt
  have := a.isLt
  have := b.isLt
  have := ElemTy.code_lt t
  refine of_w3 0x08 d.toNat a.toNat b.toNat t.code (.modded (.imul d a b t)) rfl (by decide) d.isLt a.isLt b.isLt (by omega) ?_ rfl
  have hb := code_ne_zero (b := b) (by simp_all [Instr.fieldsOk])
  simp [parseFields, parseInt, d3, d3u, d3l, shimm, dm, rs3, rs2, zeroed, fields_back, cmpd_rel, cmpd_bit, cmpd_pred, hb]

theorem imulDl (d : Code) (a : Code) (t : ElemTy) (lit : Word) (m : Mods) : Statement (.imulDl d a t lit m) := by
  intro _ hf
  have := d.isLt
  have := a.isLt
  have := ElemTy.code_lt t
  refine of_w3 0x08 d.toNat a.toNat 0 t.code (.literal (.imulDl d a t)) rfl (by decide) d.isLt a.isLt (by decide) (by omega) ?_ rfl
  simp [parseFields, parseInt, d3, d3u, d3l, shimm, dm, rs3, rs2, zeroed, fields_back, cmpd_rel, cmpd_bit, cmpd_pred]

theorem imulh (d : Code) (a : Code) (b : Code) (t : ElemTy) (m : Mods) : Statement (.imulh d a b t m) := by
  intro _ hf
  have := d.isLt
  have := a.isLt
  have := b.isLt
  have := ElemTy.code_lt t
  refine of_w3 0x09 d.toNat a.toNat b.toNat t.code (.modded (.imulh d a b t)) rfl (by decide) d.isLt a.isLt b.isLt (by omega) ?_ rfl
  simp [parseFields, parseInt, d3, d3u, d3l, shimm, dm, rs3, rs2, zeroed, fields_back, cmpd_rel, cmpd_bit, cmpd_pred]

theorem imad (d : Code) (a : Code) (b : Code) (t : ElemTy) (m : Mods) : Statement (.imad d a b t m) := by
  intro _ hf
  have := d.isLt
  have := a.isLt
  have := b.isLt
  have := ElemTy.code_lt t
  refine of_w3 0x0A d.toNat a.toNat b.toNat t.code (.modded (.imad d a b t)) rfl (by decide) d.isLt a.isLt b.isLt (by omega) ?_ rfl
  simp [parseFields, parseInt, d3, d3u, d3l, shimm, dm, rs3, rs2, zeroed, fields_back, cmpd_rel, cmpd_bit, cmpd_pred]

theorem idiv (d : Code) (a : Code) (b : Code) (t : ElemTy) (m : Mods) : Statement (.idiv d a b t m) := by
  intro _ hf
  have := d.isLt
  have := a.isLt
  have := b.isLt
  have := ElemTy.code_lt t
  refine of_w3 0x0B d.toNat a.toNat b.toNat t.code (.modded (.idiv d a b t)) rfl (by decide) d.isLt a.isLt b.isLt (by omega) ?_ rfl
  simp [parseFields, parseInt, d3, d3u, d3l, shimm, dm, rs3, rs2, zeroed, fields_back, cmpd_rel, cmpd_bit, cmpd_pred]

theorem irem (d : Code) (a : Code) (b : Code) (t : ElemTy) (m : Mods) : Statement (.irem d a b t m) := by
  intro _ hf
  have := d.isLt
  have := a.isLt
  have := b.isLt
  have := ElemTy.code_lt t
  refine of_w3 0x0C d.toNat a.toNat b.toNat t.code (.modded (.irem d a b t)) rfl (by decide) d.isLt a.isLt b.isLt (by omega) ?_ rfl
  simp [parseFields, parseInt, d3, d3u, d3l, shimm, dm, rs3, rs2, zeroed, fields_back, cmpd_rel, cmpd_bit, cmpd_pred]

theorem imin (d : Code) (a : Code) (b : Code) (t : ElemTy) (m : Mods) : Statement (.imin d a b t m) := by
  intro _ hf
  have := d.isLt
  have := a.isLt
  have := b.isLt
  have := ElemTy.code_lt t
  refine of_w3 0x0D d.toNat a.toNat b.toNat t.code (.modded (.imin d a b t)) rfl (by decide) d.isLt a.isLt b.isLt (by omega) ?_ rfl
  simp [parseFields, parseInt, d3, d3u, d3l, shimm, dm, rs3, rs2, zeroed, fields_back, cmpd_rel, cmpd_bit, cmpd_pred]

theorem imax (d : Code) (a : Code) (b : Code) (t : ElemTy) (m : Mods) : Statement (.imax d a b t m) := by
  intro _ hf
  have := d.isLt
  have := a.isLt
  have := b.isLt
  have := ElemTy.code_lt t
  refine of_w3 0x0E d.toNat a.toNat b.toNat t.code (.modded (.imax d a b t)) rfl (by decide) d.isLt a.isLt b.isLt (by omega) ?_ rfl
  simp [parseFields, parseInt, d3, d3u, d3l, shimm, dm, rs3, rs2, zeroed, fields_back, cmpd_rel, cmpd_bit, cmpd_pred]

theorem iabs (d : Code) (a : Code) (t : ElemTy) (m : Mods) : Statement (.iabs d a t m) := by
  intro _ hf
  have := d.isLt
  have := a.isLt
  have := ElemTy.code_lt t
  refine of_w3 0x0F d.toNat a.toNat 0 t.code (.modded (.iabs d a t)) rfl (by decide) d.isLt a.isLt (by decide) (by omega) ?_ rfl
  simp [parseFields, parseInt, d3, d3u, d3l, shimm, dm, rs3, rs2, zeroed, fields_back, cmpd_rel, cmpd_bit, cmpd_pred]

theorem and (d : Code) (a : Code) (b : Code) (t : ElemTy) (m : Mods) : Statement (.and d a b t m) := by
  intro _ hf
  have := d.isLt
  have := a.isLt
  have := b.isLt
  have := ElemTy.code_lt t
  refine of_w3 0x10 d.toNat a.toNat b.toNat t.code (.modded (.and d a b t)) rfl (by decide) d.isLt a.isLt b.isLt (by omega) ?_ rfl
  have hb := code_ne_zero (b := b) (by simp_all [Instr.fieldsOk])
  simp [parseFields, parseInt, d3, d3u, d3l, shimm, dm, rs3, rs2, zeroed, fields_back, cmpd_rel, cmpd_bit, cmpd_pred, hb]

theorem andDl (d : Code) (a : Code) (t : ElemTy) (lit : Word) (m : Mods) : Statement (.andDl d a t lit m) := by
  intro _ hf
  have := d.isLt
  have := a.isLt
  have := ElemTy.code_lt t
  refine of_w3 0x10 d.toNat a.toNat 0 t.code (.literal (.andDl d a t)) rfl (by decide) d.isLt a.isLt (by decide) (by omega) ?_ rfl
  simp [parseFields, parseInt, d3, d3u, d3l, shimm, dm, rs3, rs2, zeroed, fields_back, cmpd_rel, cmpd_bit, cmpd_pred]

theorem or (d : Code) (a : Code) (b : Code) (t : ElemTy) (m : Mods) : Statement (.or d a b t m) := by
  intro _ hf
  have := d.isLt
  have := a.isLt
  have := b.isLt
  have := ElemTy.code_lt t
  refine of_w3 0x11 d.toNat a.toNat b.toNat t.code (.modded (.or d a b t)) rfl (by decide) d.isLt a.isLt b.isLt (by omega) ?_ rfl
  have hb := code_ne_zero (b := b) (by simp_all [Instr.fieldsOk])
  simp [parseFields, parseInt, d3, d3u, d3l, shimm, dm, rs3, rs2, zeroed, fields_back, cmpd_rel, cmpd_bit, cmpd_pred, hb]

theorem orDl (d : Code) (a : Code) (t : ElemTy) (lit : Word) (m : Mods) : Statement (.orDl d a t lit m) := by
  intro _ hf
  have := d.isLt
  have := a.isLt
  have := ElemTy.code_lt t
  refine of_w3 0x11 d.toNat a.toNat 0 t.code (.literal (.orDl d a t)) rfl (by decide) d.isLt a.isLt (by decide) (by omega) ?_ rfl
  simp [parseFields, parseInt, d3, d3u, d3l, shimm, dm, rs3, rs2, zeroed, fields_back, cmpd_rel, cmpd_bit, cmpd_pred]

theorem xor (d : Code) (a : Code) (b : Code) (t : ElemTy) (m : Mods) : Statement (.xor d a b t m) := by
  intro _ hf
  have := d.isLt
  have := a.isLt
  have := b.isLt
  have := ElemTy.code_lt t
  refine of_w3 0x12 d.toNat a.toNat b.toNat t.code (.modded (.xor d a b t)) rfl (by decide) d.isLt a.isLt b.isLt (by omega) ?_ rfl
  have hb := code_ne_zero (b := b) (by simp_all [Instr.fieldsOk])
  simp [parseFields, parseInt, d3, d3u, d3l, shimm, dm, rs3, rs2, zeroed, fields_back, cmpd_rel, cmpd_bit, cmpd_pred, hb]

theorem xorDl (d : Code) (a : Code) (t : ElemTy) (lit : Word) (m : Mods) : Statement (.xorDl d a t lit m) := by
  intro _ hf
  have := d.isLt
  have := a.isLt
  have := ElemTy.code_lt t
  refine of_w3 0x12 d.toNat a.toNat 0 t.code (.literal (.xorDl d a t)) rfl (by decide) d.isLt a.isLt (by decide) (by omega) ?_ rfl
  simp [parseFields, parseInt, d3, d3u, d3l, shimm, dm, rs3, rs2, zeroed, fields_back, cmpd_rel, cmpd_bit, cmpd_pred]

theorem andn (d : Code) (a : Code) (b : Code) (t : ElemTy) (m : Mods) : Statement (.andn d a b t m) := by
  intro _ hf
  have := d.isLt
  have := a.isLt
  have := b.isLt
  have := ElemTy.code_lt t
  refine of_w3 0x13 d.toNat a.toNat b.toNat t.code (.modded (.andn d a b t)) rfl (by decide) d.isLt a.isLt b.isLt (by omega) ?_ rfl
  simp [parseFields, parseInt, d3, d3u, d3l, shimm, dm, rs3, rs2, zeroed, fields_back, cmpd_rel, cmpd_bit, cmpd_pred]

theorem shl (d : Code) (a : Code) (b : Code) (t : ElemTy) (m : Mods) : Statement (.shl d a b t m) := by
  intro _ hf
  have := d.isLt
  have := a.isLt
  have := b.isLt
  have := ElemTy.code_lt t
  refine of_w3 0x14 d.toNat a.toNat b.toNat t.code (.modded (.shl d a b t)) rfl (by decide) d.isLt a.isLt b.isLt (by omega) ?_ rfl
  simp [parseFields, parseInt, d3, d3u, d3l, shimm, dm, rs3, rs2, zeroed, fields_back, cmpd_rel, cmpd_bit, cmpd_pred]

theorem shr (d : Code) (a : Code) (b : Code) (t : ElemTy) (m : Mods) : Statement (.shr d a b t m) := by
  intro _ hf
  have := d.isLt
  have := a.isLt
  have := b.isLt
  have := ElemTy.code_lt t
  refine of_w3 0x15 d.toNat a.toNat b.toNat t.code (.modded (.shr d a b t)) rfl (by decide) d.isLt a.isLt b.isLt (by omega) ?_ rfl
  simp [parseFields, parseInt, d3, d3u, d3l, shimm, dm, rs3, rs2, zeroed, fields_back, cmpd_rel, cmpd_bit, cmpd_pred]

theorem sar (d : Code) (a : Code) (b : Code) (t : ElemTy) (m : Mods) : Statement (.sar d a b t m) := by
  intro _ hf
  have := d.isLt
  have := a.isLt
  have := b.isLt
  have := ElemTy.code_lt t
  refine of_w3 0x16 d.toNat a.toNat b.toNat t.code (.modded (.sar d a b t)) rfl (by decide) d.isLt a.isLt b.isLt (by omega) ?_ rfl
  simp [parseFields, parseInt, d3, d3u, d3l, shimm, dm, rs3, rs2, zeroed, fields_back, cmpd_rel, cmpd_bit, cmpd_pred]

theorem rotl (d : Code) (a : Code) (b : Code) (t : ElemTy) (m : Mods) : Statement (.rotl d a b t m) := by
  intro _ hf
  have := d.isLt
  have := a.isLt
  have := b.isLt
  have := ElemTy.code_lt t
  refine of_w3 0x17 d.toNat a.toNat b.toNat t.code (.modded (.rotl d a b t)) rfl (by decide) d.isLt a.isLt b.isLt (by omega) ?_ rfl
  simp [parseFields, parseInt, d3, d3u, d3l, shimm, dm, rs3, rs2, zeroed, fields_back, cmpd_rel, cmpd_bit, cmpd_pred]

theorem shli (d : Code) (a : Code) (w : Bool) (cnt : BitVec 6) (m : Mods) : Statement (.shli d a w cnt m) := by
  intro _ hf
  have := d.isLt
  have := a.isLt
  have := w.toNat_le
  have := cnt.isLt
  refine of_wi 0x18 d.toNat a.toNat (w.toNat * 512 + cnt.toNat) (.modded (.shli d a w cnt)) rfl (by decide) d.isLt a.isLt (by omega) ?_ rfl
  have h1 : (w.toNat * 512 + cnt.toNat) / 64 % 8 = 0 := by omega
  have h2 : ((w.toNat * 512 + cnt.toNat) / 512 % 2 == 1) = w := (by cases w <;> simp <;> omega)
  have h3 : BitVec.ofNat 6 (w.toNat * 512 + cnt.toNat) = cnt := (BitVec.eq_of_toNat_eq (by rw [BitVec.toNat_ofNat]; omega))
  simp [parseFields, parseInt, d3, d3u, d3l, shimm, dm, rs3, rs2, zeroed, fields_back, cmpd_rel, cmpd_bit, cmpd_pred, h1, h2, h3]

theorem shri (d : Code) (a : Code) (w : Bool) (cnt : BitVec 6) (m : Mods) : Statement (.shri d a w cnt m) := by
  intro _ hf
  have := d.isLt
  have := a.isLt
  have := w.toNat_le
  have := cnt.isLt
  refine of_wi 0x19 d.toNat a.toNat (w.toNat * 512 + cnt.toNat) (.modded (.shri d a w cnt)) rfl (by decide) d.isLt a.isLt (by omega) ?_ rfl
  have h1 : (w.toNat * 512 + cnt.toNat) / 64 % 8 = 0 := by omega
  have h2 : ((w.toNat * 512 + cnt.toNat) / 512 % 2 == 1) = w := (by cases w <;> simp <;> omega)
  have h3 : BitVec.ofNat 6 (w.toNat * 512 + cnt.toNat) = cnt := (BitVec.eq_of_toNat_eq (by rw [BitVec.toNat_ofNat]; omega))
  simp [parseFields, parseInt, d3, d3u, d3l, shimm, dm, rs3, rs2, zeroed, fields_back, cmpd_rel, cmpd_bit, cmpd_pred, h1, h2, h3]

theorem sari (d : Code) (a : Code) (w : Bool) (cnt : BitVec 6) (m : Mods) : Statement (.sari d a w cnt m) := by
  intro _ hf
  have := d.isLt
  have := a.isLt
  have := w.toNat_le
  have := cnt.isLt
  refine of_wi 0x1A d.toNat a.toNat (w.toNat * 512 + cnt.toNat) (.modded (.sari d a w cnt)) rfl (by decide) d.isLt a.isLt (by omega) ?_ rfl
  have h1 : (w.toNat * 512 + cnt.toNat) / 64 % 8 = 0 := by omega
  have h2 : ((w.toNat * 512 + cnt.toNat) / 512 % 2 == 1) = w := (by cases w <;> simp <;> omega)
  have h3 : BitVec.ofNat 6 (w.toNat * 512 + cnt.toNat) = cnt := (BitVec.eq_of_toNat_eq (by rw [BitVec.toNat_ofNat]; omega))
  simp [parseFields, parseInt, d3, d3u, d3l, shimm, dm, rs3, rs2, zeroed, fields_back, cmpd_rel, cmpd_bit, cmpd_pred, h1, h2, h3]

theorem popc (d : Code) (a : Code) (t : ElemTy) (m : Mods) : Statement (.popc d a t m) := by
  intro _ hf
  have := d.isLt
  have := a.isLt
  have := ElemTy.code_lt t
  refine of_w3 0x1B d.toNat a.toNat 0 t.code (.modded (.popc d a t)) rfl (by decide) d.isLt a.isLt (by decide) (by omega) ?_ rfl
  simp [parseFields, parseInt, d3, d3u, d3l, shimm, dm, rs3, rs2, zeroed, fields_back, cmpd_rel, cmpd_bit, cmpd_pred]

theorem clz (d : Code) (a : Code) (t : ElemTy) (m : Mods) : Statement (.clz d a t m) := by
  intro _ hf
  have := d.isLt
  have := a.isLt
  have := ElemTy.code_lt t
  refine of_w3 0x1C d.toNat a.toNat 0 t.code (.modded (.clz d a t)) rfl (by decide) d.isLt a.isLt (by decide) (by omega) ?_ rfl
  simp [parseFields, parseInt, d3, d3u, d3l, shimm, dm, rs3, rs2, zeroed, fields_back, cmpd_rel, cmpd_bit, cmpd_pred]

theorem ctz (d : Code) (a : Code) (t : ElemTy) (m : Mods) : Statement (.ctz d a t m) := by
  intro _ hf
  have := d.isLt
  have := a.isLt
  have := ElemTy.code_lt t
  refine of_w3 0x1D d.toNat a.toNat 0 t.code (.modded (.ctz d a t)) rfl (by decide) d.isLt a.isLt (by decide) (by omega) ?_ rfl
  simp [parseFields, parseInt, d3, d3u, d3l, shimm, dm, rs3, rs2, zeroed, fields_back, cmpd_rel, cmpd_bit, cmpd_pred]

theorem brev (d : Code) (a : Code) (t : ElemTy) (m : Mods) : Statement (.brev d a t m) := by
  intro _ hf
  have := d.isLt
  have := a.isLt
  have := ElemTy.code_lt t
  refine of_w3 0x1E d.toNat a.toNat 0 t.code (.modded (.brev d a t)) rfl (by decide) d.isLt a.isLt (by decide) (by omega) ?_ rfl
  simp [parseFields, parseInt, d3, d3u, d3l, shimm, dm, rs3, rs2, zeroed, fields_back, cmpd_rel, cmpd_bit, cmpd_pred]

theorem bfx (d : Code) (a : Code) (b : Code) (t : ElemTy) (m : Mods) : Statement (.bfx d a b t m) := by
  intro _ hf
  have := d.isLt
  have := a.isLt
  have := b.isLt
  have := ElemTy.code_lt t
  refine of_w3 0x1F d.toNat a.toNat b.toNat t.code (.modded (.bfx d a b t)) rfl (by decide) d.isLt a.isLt b.isLt (by omega) ?_ rfl
  simp [parseFields, parseInt, d3, d3u, d3l, shimm, dm, rs3, rs2, zeroed, fields_back, cmpd_rel, cmpd_bit, cmpd_pred]

theorem bfi (d : Code) (a : Code) (b : Code) (t : ElemTy) (m : Mods) : Statement (.bfi d a b t m) := by
  intro _ hf
  have := d.isLt
  have := a.isLt
  have := b.isLt
  have := ElemTy.code_lt t
  refine of_w3 0x20 d.toNat a.toNat b.toNat t.code (.modded (.bfi d a b t)) rfl (by decide) d.isLt a.isLt b.isLt (by omega) ?_ rfl
  simp [parseFields, parseInt, d3, d3u, d3l, shimm, dm, rs3, rs2, zeroed, fields_back, cmpd_rel, cmpd_bit, cmpd_pred]

theorem icmp (rel : Rel) (u : Bool) (pd : P3) (a : Code) (b : Code) (t : ElemTy) (m : Mods) : Statement (.icmp rel u pd a b t m) := by
  intro _ hf
  have := Rel.code_lt rel
  have := u.toNat_le
  have := pd.isLt
  have := a.isLt
  have := b.isLt
  have := ElemTy.code_lt t
  refine of_w3 0x21 (cmpd rel.code u pd) a.toNat b.toNat t.code (.modded (.icmp rel u pd a b t)) rfl (by decide) (cmpd_lt (by have := Rel.code_lt rel; omega) _ _) a.isLt b.isLt (by omega) ?_ rfl
  have hb := code_ne_zero (b := b) (by simp_all [Instr.fieldsOk])
  simp [parseFields, parseInt, d3, d3u, d3l, shimm, dm, rs3, rs2, zeroed, fields_back, cmpd_rel, cmpd_bit, cmpd_pred, hb]

theorem icmpDl (rel : Rel) (u : Bool) (pd : P3) (a : Code) (t : ElemTy) (lit : Word) (m : Mods) : Statement (.icmpDl rel u pd a t lit m) := by
  intro _ hf
  have := Rel.code_lt rel
  have := u.toNat_le
  have := pd.isLt
  have := a.isLt
  have := ElemTy.code_lt t
  refine of_w3 0x21 (cmpd rel.code u pd) a.toNat 0 t.code (.literal (.icmpDl rel u pd a t)) rfl (by decide) (cmpd_lt (by have := Rel.code_lt rel; omega) _ _) a.isLt (by decide) (by omega) ?_ rfl
  simp [parseFields, parseInt, d3, d3u, d3l, shimm, dm, rs3, rs2, zeroed, fields_back, cmpd_rel, cmpd_bit, cmpd_pred]

theorem icmpi (rel : Rel) (u : Bool) (pd : P3) (a : Code) (imm : BitVec 10) (m : Mods) : Statement (.icmpi rel u pd a imm m) := by
  intro _ hf
  have := Rel.code_lt rel
  have := u.toNat_le
  have := pd.isLt
  have := a.isLt
  have := imm.isLt
  refine of_wi 0x22 (cmpd rel.code u pd) a.toNat imm.toNat (.modded (.icmpi rel u pd a imm)) rfl (by decide) (cmpd_lt (by have := Rel.code_lt rel; omega) _ _) a.isLt (by omega) ?_ rfl
  simp [parseFields, parseInt, d3, d3u, d3l, shimm, dm, rs3, rs2, zeroed, fields_back, cmpd_rel, cmpd_bit, cmpd_pred]

theorem sel (d : Code) (a : Code) (b : Code) (p : P3) (m : Mods) : Statement (.sel d a b p m) := by
  intro _ hf
  have := d.isLt
  have := a.isLt
  have := b.isLt
  have := p.isLt
  refine of_w3 0x23 d.toNat a.toNat b.toNat p.toNat (.modded (.sel d a b p)) rfl (by decide) d.isLt a.isLt b.isLt (by omega) ?_ rfl
  simp [parseFields, parseInt, d3, d3u, d3l, shimm, dm, rs3, rs2, zeroed, fields_back, cmpd_rel, cmpd_bit, cmpd_pred]

theorem lea (d : Code) (a : Code) (b : Code) (s : BitVec 3) (m : Mods) : Statement (.lea d a b s m) := by
  intro _ hf
  have := d.isLt
  have := a.isLt
  have := b.isLt
  have := s.isLt
  refine of_w3 0x24 d.toNat a.toNat b.toNat s.toNat (.modded (.lea d a b s)) rfl (by decide) d.isLt a.isLt b.isLt (by omega) ?_ rfl
  simp [parseFields, parseInt, d3, d3u, d3l, shimm, dm, rs3, rs2, zeroed, fields_back, cmpd_rel, cmpd_bit, cmpd_pred]

theorem fadd (d : Code) (a : Code) (b : Code) (t : ElemTy) (m : Mods) : Statement (.fadd d a b t m) := by
  intro _ hf
  have := d.isLt
  have := a.isLt
  have := b.isLt
  have := ElemTy.code_lt t
  refine of_w3 0x40 d.toNat a.toNat b.toNat t.code (.modded (.fadd d a b t)) rfl (by decide) d.isLt a.isLt b.isLt (by omega) ?_ rfl
  have hb := code_ne_zero (b := b) (by simp_all [Instr.fieldsOk])
  simp [parseFields, parseFlt, d3, d3u, d3l, shimm, dm, rs3, rs2, zeroed, fields_back, cmpd_rel, cmpd_bit, cmpd_pred, hb]

theorem faddDl (d : Code) (a : Code) (t : ElemTy) (lit : Word) (m : Mods) : Statement (.faddDl d a t lit m) := by
  intro _ hf
  have := d.isLt
  have := a.isLt
  have := ElemTy.code_lt t
  refine of_w3 0x40 d.toNat a.toNat 0 t.code (.literal (.faddDl d a t)) rfl (by decide) d.isLt a.isLt (by decide) (by omega) ?_ rfl
  simp [parseFields, parseFlt, d3, d3u, d3l, shimm, dm, rs3, rs2, zeroed, fields_back, cmpd_rel, cmpd_bit, cmpd_pred]

theorem fsub (d : Code) (a : Code) (b : Code) (t : ElemTy) (m : Mods) : Statement (.fsub d a b t m) := by
  intro _ hf
  have := d.isLt
  have := a.isLt
  have := b.isLt
  have := ElemTy.code_lt t
  refine of_w3 0x41 d.toNat a.toNat b.toNat t.code (.modded (.fsub d a b t)) rfl (by decide) d.isLt a.isLt b.isLt (by omega) ?_ rfl
  simp [parseFields, parseFlt, d3, d3u, d3l, shimm, dm, rs3, rs2, zeroed, fields_back, cmpd_rel, cmpd_bit, cmpd_pred]

theorem fmul (d : Code) (a : Code) (b : Code) (t : ElemTy) (m : Mods) : Statement (.fmul d a b t m) := by
  intro _ hf
  have := d.isLt
  have := a.isLt
  have := b.isLt
  have := ElemTy.code_lt t
  refine of_w3 0x42 d.toNat a.toNat b.toNat t.code (.modded (.fmul d a b t)) rfl (by decide) d.isLt a.isLt b.isLt (by omega) ?_ rfl
  have hb := code_ne_zero (b := b) (by simp_all [Instr.fieldsOk])
  simp [parseFields, parseFlt, d3, d3u, d3l, shimm, dm, rs3, rs2, zeroed, fields_back, cmpd_rel, cmpd_bit, cmpd_pred, hb]

theorem fmulDl (d : Code) (a : Code) (t : ElemTy) (lit : Word) (m : Mods) : Statement (.fmulDl d a t lit m) := by
  intro _ hf
  have := d.isLt
  have := a.isLt
  have := ElemTy.code_lt t
  refine of_w3 0x42 d.toNat a.toNat 0 t.code (.literal (.fmulDl d a t)) rfl (by decide) d.isLt a.isLt (by decide) (by omega) ?_ rfl
  simp [parseFields, parseFlt, d3, d3u, d3l, shimm, dm, rs3, rs2, zeroed, fields_back, cmpd_rel, cmpd_bit, cmpd_pred]

theorem ffma (d : Code) (a : Code) (b : Code) (t : ElemTy) (m : Mods) : Statement (.ffma d a b t m) := by
  intro _ hf
  have := d.isLt
  have := a.isLt
  have := b.isLt
  have := ElemTy.code_lt t
  refine of_w3 0x43 d.toNat a.toNat b.toNat t.code (.modded (.ffma d a b t)) rfl (by decide) d.isLt a.isLt b.isLt (by omega) ?_ rfl
  simp [parseFields, parseFlt, d3, d3u, d3l, shimm, dm, rs3, rs2, zeroed, fields_back, cmpd_rel, cmpd_bit, cmpd_pred]

theorem fmin (d : Code) (a : Code) (b : Code) (t : ElemTy) (m : Mods) : Statement (.fmin d a b t m) := by
  intro _ hf
  have := d.isLt
  have := a.isLt
  have := b.isLt
  have := ElemTy.code_lt t
  refine of_w3 0x44 d.toNat a.toNat b.toNat t.code (.modded (.fmin d a b t)) rfl (by decide) d.isLt a.isLt b.isLt (by omega) ?_ rfl
  have hb := code_ne_zero (b := b) (by simp_all [Instr.fieldsOk])
  simp [parseFields, parseFlt, d3, d3u, d3l, shimm, dm, rs3, rs2, zeroed, fields_back, cmpd_rel, cmpd_bit, cmpd_pred, hb]

theorem fminDl (d : Code) (a : Code) (t : ElemTy) (lit : Word) (m : Mods) : Statement (.fminDl d a t lit m) := by
  intro _ hf
  have := d.isLt
  have := a.isLt
  have := ElemTy.code_lt t
  refine of_w3 0x44 d.toNat a.toNat 0 t.code (.literal (.fminDl d a t)) rfl (by decide) d.isLt a.isLt (by decide) (by omega) ?_ rfl
  simp [parseFields, parseFlt, d3, d3u, d3l, shimm, dm, rs3, rs2, zeroed, fields_back, cmpd_rel, cmpd_bit, cmpd_pred]

theorem fmax (d : Code) (a : Code) (b : Code) (t : ElemTy) (m : Mods) : Statement (.fmax d a b t m) := by
  intro _ hf
  have := d.isLt
  have := a.isLt
  have := b.isLt
  have := ElemTy.code_lt t
  refine of_w3 0x45 d.toNat a.toNat b.toNat t.code (.modded (.fmax d a b t)) rfl (by decide) d.isLt a.isLt b.isLt (by omega) ?_ rfl
  have hb := code_ne_zero (b := b) (by simp_all [Instr.fieldsOk])
  simp [parseFields, parseFlt, d3, d3u, d3l, shimm, dm, rs3, rs2, zeroed, fields_back, cmpd_rel, cmpd_bit, cmpd_pred, hb]

theorem fmaxDl (d : Code) (a : Code) (t : ElemTy) (lit : Word) (m : Mods) : Statement (.fmaxDl d a t lit m) := by
  intro _ hf
  have := d.isLt
  have := a.isLt
  have := ElemTy.code_lt t
  refine of_w3 0x45 d.toNat a.toNat 0 t.code (.literal (.fmaxDl d a t)) rfl (by decide) d.isLt a.isLt (by decide) (by omega) ?_ rfl
  simp [parseFields, parseFlt, d3, d3u, d3l, shimm, dm, rs3, rs2, zeroed, fields_back, cmpd_rel, cmpd_bit, cmpd_pred]

theorem fcmp (rel : FRel) (any : Bool) (pd : P3) (a : Code) (b : Code) (t : ElemTy) (m : Mods) : Statement (.fcmp rel any pd a b t m) := by
  intro _ hf
  have := FRel.code_lt rel
  have := any.toNat_le
  have := pd.isLt
  have := a.isLt
  have := b.isLt
  have := ElemTy.code_lt t
  refine of_w3 0x46 (cmpd rel.code any pd) a.toNat b.toNat t.code (.modded (.fcmp rel any pd a b t)) rfl (by decide) (cmpd_lt (by have := FRel.code_lt rel; omega) _ _) a.isLt b.isLt (by omega) ?_ rfl
  have hb := code_ne_zero (b := b) (by simp_all [Instr.fieldsOk])
  simp [parseFields, parseFlt, d3, d3u, d3l, shimm, dm, rs3, rs2, zeroed, fields_back, cmpd_rel, cmpd_bit, cmpd_pred, hb]

theorem fcmpDl (rel : FRel) (any : Bool) (pd : P3) (a : Code) (t : ElemTy) (lit : Word) (m : Mods) : Statement (.fcmpDl rel any pd a t lit m) := by
  intro _ hf
  have := FRel.code_lt rel
  have := any.toNat_le
  have := pd.isLt
  have := a.isLt
  have := ElemTy.code_lt t
  refine of_w3 0x46 (cmpd rel.code any pd) a.toNat 0 t.code (.literal (.fcmpDl rel any pd a t)) rfl (by decide) (cmpd_lt (by have := FRel.code_lt rel; omega) _ _) a.isLt (by decide) (by omega) ?_ rfl
  simp [parseFields, parseFlt, d3, d3u, d3l, shimm, dm, rs3, rs2, zeroed, fields_back, cmpd_rel, cmpd_bit, cmpd_pred]

theorem fclass (d : Code) (a : Code) (t : ElemTy) (m : Mods) : Statement (.fclass d a t m) := by
  intro _ hf
  have := d.isLt
  have := a.isLt
  have := ElemTy.code_lt t
  refine of_w3 0x47 d.toNat a.toNat 0 t.code (.modded (.fclass d a t)) rfl (by decide) d.isLt a.isLt (by decide) (by omega) ?_ rfl
  simp [parseFields, parseFlt, d3, d3u, d3l, shimm, dm, rs3, rs2, zeroed, fields_back, cmpd_rel, cmpd_bit, cmpd_pred]

theorem frcp (d : Code) (a : Code) (t : ElemTy) (m : Mods) : Statement (.frcp d a t m) := by
  intro _ hf
  have := d.isLt
  have := a.isLt
  have := ElemTy.code_lt t
  refine of_w3 0x48 d.toNat a.toNat 0 t.code (.modded (.frcp d a t)) rfl (by decide) d.isLt a.isLt (by decide) (by omega) ?_ rfl
  simp [parseFields, parseFlt, d3, d3u, d3l, shimm, dm, rs3, rs2, zeroed, fields_back, cmpd_rel, cmpd_bit, cmpd_pred]

theorem frsq (d : Code) (a : Code) (t : ElemTy) (m : Mods) : Statement (.frsq d a t m) := by
  intro _ hf
  have := d.isLt
  have := a.isLt
  have := ElemTy.code_lt t
  refine of_w3 0x49 d.toNat a.toNat 0 t.code (.modded (.frsq d a t)) rfl (by decide) d.isLt a.isLt (by decide) (by omega) ?_ rfl
  simp [parseFields, parseFlt, d3, d3u, d3l, shimm, dm, rs3, rs2, zeroed, fields_back, cmpd_rel, cmpd_bit, cmpd_pred]

theorem fsqrt (d : Code) (a : Code) (t : ElemTy) (m : Mods) : Statement (.fsqrt d a t m) := by
  intro _ hf
  have := d.isLt
  have := a.isLt
  have := ElemTy.code_lt t
  refine of_w3 0x4A d.toNat a.toNat 0 t.code (.modded (.fsqrt d a t)) rfl (by decide) d.isLt a.isLt (by decide) (by omega) ?_ rfl
  simp [parseFields, parseFlt, d3, d3u, d3l, shimm, dm, rs3, rs2, zeroed, fields_back, cmpd_rel, cmpd_bit, cmpd_pred]

theorem fdiv (d : Code) (a : Code) (b : Code) (t : ElemTy) (m : Mods) : Statement (.fdiv d a b t m) := by
  intro _ hf
  have := d.isLt
  have := a.isLt
  have := b.isLt
  have := ElemTy.code_lt t
  refine of_w3 0x4B d.toNat a.toNat b.toNat t.code (.modded (.fdiv d a b t)) rfl (by decide) d.isLt a.isLt b.isLt (by omega) ?_ rfl
  simp [parseFields, parseFlt, d3, d3u, d3l, shimm, dm, rs3, rs2, zeroed, fields_back, cmpd_rel, cmpd_bit, cmpd_pred]

theorem fexp2 (d : Code) (a : Code) (t : ElemTy) (m : Mods) : Statement (.fexp2 d a t m) := by
  intro _ hf
  have := d.isLt
  have := a.isLt
  have := ElemTy.code_lt t
  refine of_w3 0x4C d.toNat a.toNat 0 t.code (.modded (.fexp2 d a t)) rfl (by decide) d.isLt a.isLt (by decide) (by omega) ?_ rfl
  simp [parseFields, parseFlt, d3, d3u, d3l, shimm, dm, rs3, rs2, zeroed, fields_back, cmpd_rel, cmpd_bit, cmpd_pred]

theorem flog2 (d : Code) (a : Code) (t : ElemTy) (m : Mods) : Statement (.flog2 d a t m) := by
  intro _ hf
  have := d.isLt
  have := a.isLt
  have := ElemTy.code_lt t
  refine of_w3 0x4D d.toNat a.toNat 0 t.code (.modded (.flog2 d a t)) rfl (by decide) d.isLt a.isLt (by decide) (by omega) ?_ rfl
  simp [parseFields, parseFlt, d3, d3u, d3l, shimm, dm, rs3, rs2, zeroed, fields_back, cmpd_rel, cmpd_bit, cmpd_pred]

theorem ftanh (d : Code) (a : Code) (t : ElemTy) (m : Mods) : Statement (.ftanh d a t m) := by
  intro _ hf
  have := d.isLt
  have := a.isLt
  have := ElemTy.code_lt t
  refine of_w3 0x4E d.toNat a.toNat 0 t.code (.modded (.ftanh d a t)) rfl (by decide) d.isLt a.isLt (by decide) (by omega) ?_ rfl
  simp [parseFields, parseFlt, d3, d3u, d3l, shimm, dm, rs3, rs2, zeroed, fields_back, cmpd_rel, cmpd_bit, cmpd_pred]

theorem frnd (d : Code) (a : Code) (mode : RndMode) (t : ElemTy) (m : Mods) : Statement (.frnd d a mode t m) := by
  intro _ hf
  have := d.isLt
  have := a.isLt
  have := RndMode.code_lt mode
  have := ElemTy.code_lt t
  refine of_w3 0x4F d.toNat a.toNat mode.code t.code (.modded (.frnd d a mode t)) rfl (by decide) d.isLt a.isLt (by omega) (by omega) ?_ rfl
  simp [parseFields, parseFlt, d3, d3u, d3l, shimm, dm, rs3, rs2, zeroed, fields_back, cmpd_rel, cmpd_bit, cmpd_pred]

theorem fcvt (d : Code) (a : Code) (dst : FFmt) (src : FFmt) (lane : BitVec 2) (m : Mods) : Statement (.fcvt d a dst src lane m) := by
  intro _ hf
  have := d.isLt
  have := a.isLt
  have := FFmt.code_lt dst
  have := FFmt.code_lt src
  have := lane.isLt
  refine of_wi 0x50 d.toNat a.toNat (dst.code * 64 + src.code * 4 + lane.toNat) (.modded (.fcvt d a dst src lane)) rfl (by decide) d.isLt a.isLt (by omega) ?_ rfl
  have h1 : (dst.code * 64 + src.code * 4 + lane.toNat) / 64 = dst.code := by omega
  have h2 : (dst.code * 64 + src.code * 4 + lane.toNat) / 4 % 16 = src.code := by omega
  have h3 : BitVec.ofNat 2 (dst.code * 64 + src.code * 4 + lane.toNat) = lane := (BitVec.eq_of_toNat_eq (by rw [BitVec.toNat_ofNat]; omega))
  simp [parseFields, parseFlt, d3, d3u, d3l, shimm, dm, rs3, rs2, zeroed, fields_back, cmpd_rel, cmpd_bit, cmpd_pred, h1, h2, h3]

theorem icvt (d : Code) (a : Code) (flt : CvtFlt) (int : CvtInt) (toInt : Bool) (lane : BitVec 2) (m : Mods) : Statement (.icvt d a flt int toInt lane m) := by
  intro _ hf
  have := d.isLt
  have := a.isLt
  have := CvtFlt.code_lt flt
  have := CvtInt.code_lt int
  have := toInt.toNat_le
  have := lane.isLt
  refine of_wi 0x51 d.toNat a.toNat (flt.code * 64 + int.code * 8 + toInt.toNat * 4 + lane.toNat) (.modded (.icvt d a flt int toInt lane)) rfl (by decide) d.isLt a.isLt (by omega) ?_ rfl
  have h1 : (flt.code * 64 + int.code * 8 + toInt.toNat * 4 + lane.toNat) / 64 = flt.code := by omega
  have h2 : (flt.code * 64 + int.code * 8 + toInt.toNat * 4 + lane.toNat) / 8 % 8 = int.code := by omega
  have h3 : BitVec.ofNat 2 (flt.code * 64 + int.code * 8 + toInt.toNat * 4 + lane.toNat) = lane := (BitVec.eq_of_toNat_eq (by rw [BitVec.toNat_ofNat]; omega))
  have h4 : ((flt.code * 64 + int.code * 8 + toInt.toNat * 4 + lane.toNat) / 4 % 2 == 1) = toInt := (by cases toInt <;> simp <;> omega)
  simp [parseFields, parseFlt, d3, d3u, d3l, shimm, dm, rs3, rs2, zeroed, fields_back, cmpd_rel, cmpd_bit, cmpd_pred, h1, h2, h3, h4]

theorem gshf (d : Code) (a : Code) (b : Code) (mode : GshfMode) (m : Mods) : Statement (.gshf d a b mode m) := by
  intro _ hf
  have := d.isLt
  have := a.isLt
  have := b.isLt
  have := GshfMode.code_lt mode
  refine of_w3 0x70 d.toNat a.toNat b.toNat mode.code (.modded (.gshf d a b mode)) rfl (by decide) d.isLt a.isLt b.isLt (by omega) ?_ rfl
  simp [parseFields, parseGrp, d3, d3u, d3l, shimm, dm, rs3, rs2, zeroed, fields_back, cmpd_rel, cmpd_bit, cmpd_pred]

theorem gbcst (d : Code) (a : Code) (u : BitVec 10) (m : Mods) : Statement (.gbcst d a u m) := by
  intro _ hf
  have := d.isLt
  have := a.isLt
  have := u.isLt
  refine of_wi 0x71 d.toNat a.toNat u.toNat (.modded (.gbcst d a u)) rfl (by decide) d.isLt a.isLt (by omega) ?_ rfl
  simp [parseFields, parseGrp, d3, d3u, d3l, shimm, dm, rs3, rs2, zeroed, fields_back, cmpd_rel, cmpd_bit, cmpd_pred]

theorem gvote (d : Code) (a : Code) (op : VoteOp) : Statement (.gvote d a op) := by
  intro _ hf
  have := d.isLt
  have := a.isLt
  have := VoteOp.code_lt op
  refine of_w3 0x72 d.toNat a.toNat 0 op.code (.plain (.gvote d a op)) rfl (by decide) d.isLt a.isLt (by decide) (by omega) ?_ rfl
  simp [parseFields, parseGrp, d3, d3u, d3l, shimm, dm, rs3, rs2, zeroed, fields_back, cmpd_rel, cmpd_bit, cmpd_pred]

theorem gscan (d : Code) (a : Code) (excl : Bool) (op : FoldOp) (t : ElemTy) : Statement (.gscan d a excl op t) := by
  intro _ hf
  have := d.isLt
  have := a.isLt
  have := excl.toNat_le
  have := FoldOp.code_lt op
  have := ElemTy.code_lt t
  refine of_w3 0x73 d.toNat a.toNat (excl.toNat * 8 + op.code) t.code (.plain (.gscan d a excl op t)) rfl (by decide) d.isLt a.isLt (by omega) (by omega) ?_ rfl
  have h1 : excl.toNat * 8 + op.code < 16 := by omega
  have h2 : op.code % 8 = op.code := by omega
  have h3 : ((excl.toNat * 8 + op.code) / 8 % 2 == 1) = excl := (by cases excl <;> simp <;> omega)
  simp [parseFields, parseGrp, d3, d3u, d3l, shimm, dm, rs3, rs2, zeroed, fields_back, cmpd_rel, cmpd_bit, cmpd_pred, h1, h2, h3]

theorem gred (d : Code) (a : Code) (op : FoldOp) (t : ElemTy) : Statement (.gred d a op t) := by
  intro _ hf
  have := d.isLt
  have := a.isLt
  have := FoldOp.code_lt op
  have := ElemTy.code_lt t
  refine of_w3 0x74 d.toNat a.toNat op.code t.code (.plain (.gred d a op t)) rfl (by decide) d.isLt a.isLt (by omega) (by omega) ?_ rfl
  have h1 : op.code < 8 := by omega
  have h2 : op.code % 8 = op.code := by omega
  simp [parseFields, parseGrp, d3, d3u, d3l, shimm, dm, rs3, rs2, zeroed, fields_back, cmpd_rel, cmpd_bit, cmpd_pred, h1, h2]

theorem sread (d : Code) (n : SReg) (m : Mods) : Statement (.sread d n m) := by
  intro _ hf
  have := d.isLt
  have := SReg.code_lt n
  refine of_wi 0x78 d.toNat 0 n.code (.modded (.sread d n)) rfl (by decide) d.isLt (by decide) (by omega) ?_ rfl
  simp [parseFields, parseGrp, d3, d3u, d3l, shimm, dm, rs3, rs2, zeroed, fields_back, cmpd_rel, cmpd_bit, cmpd_pred]

theorem swrite (n : SReg) (a : Code) (m : Mods) : Statement (.swrite n a m) := by
  intro _ hf
  have := SReg.code_lt n
  have := a.isLt
  refine of_wi 0x79 0 a.toNat n.code (.modded (.swrite n a)) rfl (by decide) (by decide) a.isLt (by omega) ?_ rfl
  simp [parseFields, parseGrp, d3, d3u, d3l, shimm, dm, rs3, rs2, zeroed, fields_back, cmpd_rel, cmpd_bit, cmpd_pred]

theorem fmode (reg : Bool) (a : Code) (rm : Rm) : Statement (.fmode reg a rm) := by
  intro _ hf
  have := reg.toNat_le
  have := a.isLt
  have := Rm.code_lt rm
  refine of_wi 0x7A 0 a.toNat (reg.toNat * 512 + rm.code) (.plain (.fmode reg a rm)) rfl (by decide) (by decide) a.isLt (by omega) ?_ rfl
  have h1 : (reg.toNat * 512 + rm.code) / 4 % 128 = 0 := by omega
  have h2 : (reg.toNat * 512 + rm.code) % 4 = rm.code := by omega
  have h3 : ((reg.toNat * 512 + rm.code) / 512 == 1) = reg := (by cases reg <;> simp <;> omega)
  simp [parseFields, parseGrp, d3, d3u, d3l, shimm, dm, rs3, rs2, zeroed, fields_back, cmpd_rel, cmpd_bit, cmpd_pred, h1, h2, h3]

theorem carve (a : Code) (b : Code) : Statement (.carve a b) := by
  intro _ hf
  have := a.isLt
  have := b.isLt
  refine of_w3 0x7B 0 a.toNat b.toNat 0 (.plain (.carve a b)) rfl (by decide) (by decide) a.isLt b.isLt (by decide) ?_ rfl
  simp [parseFields, parseGrp, d3, d3u, d3l, shimm, dm, rs3, rs2, zeroed, fields_back, cmpd_rel, cmpd_bit, cmpd_pred]

theorem ld (d : Code) (base : Code) (size : MemSize) (off : BitVec 7) (m : Mods) : Statement (.ld d base size off m) := by
  intro _ hf
  have := d.isLt
  have := base.isLt
  have := MemSize.code_lt size
  have := off.isLt
  refine of_wi 0x80 d.toNat base.toNat (size.code * 128 + off.toNat) (.modded (.ld d base size off)) rfl (by decide) d.isLt base.isLt (by omega) ?_ rfl
  have h1 : (size.code * 128 + off.toNat) / 128 = size.code := by omega
  have h2 : BitVec.ofNat 7 (size.code * 128 + off.toNat) = off := (BitVec.eq_of_toNat_eq (by rw [BitVec.toNat_ofNat]; omega))
  simp [parseFields, parseMem, d3, d3u, d3l, shimm, dm, rs3, rs2, zeroed, fields_back, cmpd_rel, cmpd_bit, cmpd_pred, h1, h2]

theorem st (d : Code) (base : Code) (size : MemSize) (off : BitVec 7) (m : Mods) : Statement (.st d base size off m) := by
  intro _ hf
  have := d.isLt
  have := base.isLt
  have := MemSize.code_lt size
  have := off.isLt
  refine of_wi 0x81 d.toNat base.toNat (size.code * 128 + off.toNat) (.modded (.st d base size off)) rfl (by decide) d.isLt base.isLt (by omega) ?_ rfl
  have h1 : (size.code * 128 + off.toNat) / 128 = size.code := by omega
  have h2 : BitVec.ofNat 7 (size.code * 128 + off.toNat) = off := (BitVec.eq_of_toNat_eq (by rw [BitVec.toNat_ofNat]; omega))
  simp [parseFields, parseMem, d3, d3u, d3l, shimm, dm, rs3, rs2, zeroed, fields_back, cmpd_rel, cmpd_bit, cmpd_pred, h1, h2]

theorem ldc (d : Code) (base : Code) (size : MemSize) (off : BitVec 7) (m : Mods) : Statement (.ldc d base size off m) := by
  intro _ hf
  have := d.isLt
  have := base.isLt
  have := MemSize.code_lt size
  have := off.isLt
  refine of_wi 0x82 d.toNat base.toNat (size.code * 128 + off.toNat) (.modded (.ldc d base size off)) rfl (by decide) d.isLt base.isLt (by omega) ?_ rfl
  have h1 : (size.code * 128 + off.toNat) / 128 = size.code := by omega
  have h2 : BitVec.ofNat 7 (size.code * 128 + off.toNat) = off := (BitVec.eq_of_toNat_eq (by rw [BitVec.toNat_ofNat]; omega))
  simp [parseFields, parseMem, d3, d3u, d3l, shimm, dm, rs3, rs2, zeroed, fields_back, cmpd_rel, cmpd_bit, cmpd_pred, h1, h2]

theorem stsb (d : Code) (base : Code) (size : MemSize) (off : BitVec 7) (m : Mods) : Statement (.stsb d base size off m) := by
  intro _ hf
  have := d.isLt
  have := base.isLt
  have := MemSize.code_lt size
  have := off.isLt
  refine of_wi 0x83 d.toNat base.toNat (size.code * 128 + off.toNat) (.modded (.stsb d base size off)) rfl (by decide) d.isLt base.isLt (by omega) ?_ rfl
  have h1 : (size.code * 128 + off.toNat) / 128 = size.code := by omega
  have h2 : BitVec.ofNat 7 (size.code * 128 + off.toNat) = off := (BitVec.eq_of_toNat_eq (by rw [BitVec.toNat_ofNat]; omega))
  simp [parseFields, parseMem, d3, d3u, d3l, shimm, dm, rs3, rs2, zeroed, fields_back, cmpd_rel, cmpd_bit, cmpd_pred, h1, h2]

theorem pref (base : Code) (l2 : Bool) (off : BitVec 7) (m : Mods) : Statement (.pref base l2 off m) := by
  intro _ hf
  have := base.isLt
  have := l2.toNat_le
  have := off.isLt
  refine of_wi 0x84 0 base.toNat (l2.toNat * 128 + off.toNat) (.modded (.pref base l2 off)) rfl (by decide) (by decide) base.isLt (by omega) ?_ rfl
  have h1 : l2.toNat * 128 + off.toNat < 256 := by omega
  have h2 : BitVec.ofNat 7 (l2.toNat * 128 + off.toNat) = off := (BitVec.eq_of_toNat_eq (by rw [BitVec.toNat_ofNat]; omega))
  have h3 : ((l2.toNat * 128 + off.toNat) / 128 % 2 == 1) = l2 := (by cases l2 <;> simp <;> omega)
  simp [parseFields, parseMem, d3, d3u, d3l, shimm, dm, rs3, rs2, zeroed, fields_back, cmpd_rel, cmpd_bit, cmpd_pred, h1, h2, h3]

theorem atom (d : Code) (a : Code) (t : AtomTy) (op : AtomOp) (m : Mods) : Statement (.atom d a t op m) := by
  intro _ hf
  have := d.isLt
  have := a.isLt
  have := AtomTy.code_lt t
  have := AtomOp.code_lt op
  refine of_w3 0x85 d.toNat a.toNat t.code op.code (.modded (.atom d a t op)) rfl (by decide) d.isLt a.isLt (by omega) (by omega) ?_ rfl
  have h1 : t.code < 8 := by omega
  have h2 : t.code % 8 = t.code := by omega
  simp [parseFields, parseMem, d3, d3u, d3l, shimm, dm, rs3, rs2, zeroed, fields_back, cmpd_rel, cmpd_bit, cmpd_pred, h1, h2]

theorem acas (d : Code) (a : Code) (t : AtomTy) (m : Mods) : Statement (.acas d a t m) := by
  intro _ hf
  have := d.isLt
  have := a.isLt
  have := AtomTy.code_lt t
  refine of_w3 0x86 d.toNat a.toNat t.code 0 (.modded (.acas d a t)) rfl (by decide) d.isLt a.isLt (by omega) (by decide) ?_ rfl
  have h1 : t.code < 8 := by omega
  have h2 : t.code % 8 = t.code := by omega
  simp [parseFields, parseMem, d3, d3u, d3l, shimm, dm, rs3, rs2, zeroed, fields_back, cmpd_rel, cmpd_bit, cmpd_pred, h1, h2]

theorem ared (d : Code) (a : Code) (t : AtomTy) (op : AtomOp) (m : Mods) : Statement (.ared d a t op m) := by
  intro _ hf
  have := d.isLt
  have := a.isLt
  have := AtomTy.code_lt t
  have := AtomOp.code_lt op
  refine of_w3 0x87 d.toNat a.toNat t.code op.code (.modded (.ared d a t op)) rfl (by decide) d.isLt a.isLt (by omega) (by omega) ?_ rfl
  have h1 : t.code < 8 := by omega
  have h2 : t.code % 8 = t.code := by omega
  simp [parseFields, parseMem, d3, d3u, d3l, shimm, dm, rs3, rs2, zeroed, fields_back, cmpd_rel, cmpd_bit, cmpd_pred, h1, h2]

theorem fence (m : Mods) : Statement (.fence m) := by
  intro _ hf
  
  refine of_w3 0x88 0 0 0 0 (.modded (.fence)) rfl (by decide) (by decide) (by decide) (by decide) (by decide) ?_ rfl
  simp [parseFields, parseMem, d3, d3u, d3l, shimm, dm, rs3, rs2, zeroed, fields_back, cmpd_rel, cmpd_bit, cmpd_pred]

theorem guard (d : Code) (a : Code) (b : Code) (clr : Bool) (e : BitVec 2) (m : Mods) : Statement (.guard d a b clr e m) := by
  intro _ hf
  have := d.isLt
  have := a.isLt
  have := b.isLt
  have := clr.toNat_le
  have := e.isLt
  refine of_w3 0x89 d.toNat a.toNat b.toNat (clr.toNat * 4 + e.toNat) (.modded (.guard d a b clr e)) rfl (by decide) d.isLt a.isLt b.isLt (by omega) ?_ rfl
  have h1 : ((clr.toNat * 4 + e.toNat) / 4 == 1) = clr := (by cases clr <;> simp <;> omega)
  have h2 : BitVec.ofNat 2 (clr.toNat * 4 + e.toNat) = e := (BitVec.eq_of_toNat_eq (by rw [BitVec.toNat_ofNat]; omega))
  simp [parseFields, parseMem, d3, d3u, d3l, shimm, dm, rs3, rs2, zeroed, fields_back, cmpd_rel, cmpd_bit, cmpd_pred, h1, h2]

theorem binit (n : BitVec 4) (m : Mods) : Statement (.binit n m) := by
  intro _ hf
  have := n.isLt
  refine of_w3 0x90 0 0 n.toNat 0 (.modded (.binit n)) rfl (by decide) (by decide) (by decide) (by omega) (by decide) ?_ rfl
  simp [parseFields, parseSync, d3, d3u, d3l, shimm, dm, rs3, rs2, zeroed, fields_back, cmpd_rel, cmpd_bit, cmpd_pred]
  omega

theorem bsync (d : Code) (a : Code) (n : BitVec 4) (op : RedOp) (m : Mods) : Statement (.bsync d a n op m) := by
  intro _ hf
  have := d.isLt
  have := a.isLt
  have := n.isLt
  have := RedOp.code_lt op
  refine of_w3 0x91 d.toNat a.toNat n.toNat op.code (.modded (.bsync d a n op)) rfl (by decide) d.isLt a.isLt (by omega) (by omega) ?_ rfl
  simp [parseFields, parseSync, d3, d3u, d3l, shimm, dm, rs3, rs2, zeroed, fields_back, cmpd_rel, cmpd_bit, cmpd_pred]
  omega

theorem barv (d : Code) (a : Code) (n : BitVec 4) (op : RedOp) (m : Mods) : Statement (.barv d a n op m) := by
  intro _ hf
  have := d.isLt
  have := a.isLt
  have := n.isLt
  have := RedOp.code_lt op
  refine of_w3 0x92 d.toNat a.toNat n.toNat op.code (.modded (.barv d a n op)) rfl (by decide) d.isLt a.isLt (by omega) (by omega) ?_ rfl
  simp [parseFields, parseSync, d3, d3u, d3l, shimm, dm, rs3, rs2, zeroed, fields_back, cmpd_rel, cmpd_bit, cmpd_pred]
  omega

theorem bwait (d : Code) (a : Code) (n : BitVec 4) (m : Mods) : Statement (.bwait d a n m) := by
  intro _ hf
  have := d.isLt
  have := a.isLt
  have := n.isLt
  refine of_w3 0x93 d.toNat a.toNat n.toNat 0 (.modded (.bwait d a n)) rfl (by decide) d.isLt a.isLt (by omega) (by decide) ?_ rfl
  simp [parseFields, parseSync, d3, d3u, d3l, shimm, dm, rs3, rs2, zeroed, fields_back, cmpd_rel, cmpd_bit, cmpd_pred]
  omega

theorem btest (pd : P3) (a : Code) (n : BitVec 4) (m : Mods) : Statement (.btest pd a n m) := by
  intro _ hf
  have := pd.isLt
  have := a.isLt
  have := n.isLt
  refine of_w3 0x94 pd.toNat a.toNat n.toNat 0 (.modded (.btest pd a n)) rfl (by decide) (by omega) a.isLt (by omega) (by decide) ?_ rfl
  have h1 : pd.toNat < 8 := by omega
  simp [parseFields, parseSync, d3, d3u, d3l, shimm, dm, rs3, rs2, zeroed, fields_back, cmpd_rel, cmpd_bit, cmpd_pred, h1]
  omega

theorem lopen (n : P3) (a : Code) (m : Mods) : Statement (.lopen n a m) := by
  intro _ hf
  have := n.isLt
  have := a.isLt
  refine of_w3 0x98 n.toNat a.toNat 0 0 (.modded (.lopen n a)) rfl (by decide) (by omega) a.isLt (by decide) (by decide) ?_ rfl
  simp [parseFields, parseSync, d3, d3u, d3l, shimm, dm, rs3, rs2, zeroed, fields_back, cmpd_rel, cmpd_bit, cmpd_pred]
  omega

theorem lpush (pd : P3) (n : P3) (a : Code) (m : Mods) : Statement (.lpush pd n a m) := by
  intro _ hf
  have := pd.isLt
  have := n.isLt
  have := a.isLt
  refine of_w3 0x99 (pd.toNat * 8 + n.toNat) a.toNat 0 0 (.modded (.lpush pd n a)) rfl (by decide) (by omega) a.isLt (by decide) (by decide) ?_ rfl
  have h1 : pd.toNat * 8 + n.toNat < 64 := by omega
  have h2 : BitVec.ofNat 3 ((pd.toNat * 8 + n.toNat) / 8) = pd := (BitVec.eq_of_toNat_eq (by rw [BitVec.toNat_ofNat]; omega))
  have h3 : BitVec.ofNat 3 (pd.toNat * 8 + n.toNat) = n := (BitVec.eq_of_toNat_eq (by rw [BitVec.toNat_ofNat]; omega))
  simp [parseFields, parseSync, d3, d3u, d3l, shimm, dm, rs3, rs2, zeroed, fields_back, cmpd_rel, cmpd_bit, cmpd_pred, h1, h2, h3]

theorem lpushBlockedServe (team : Nat) (tid : Nat) : Statement (.lpushBlockedServe team tid) := fun h => nomatch h
theorem lpop (pd : P3) (n : P3) (a : Code) (m : Mods) : Statement (.lpop pd n a m) := by
  intro _ hf
  have := pd.isLt
  have := n.isLt
  have := a.isLt
  refine of_w3 0x9A (pd.toNat * 8 + n.toNat) a.toNat 0 0 (.modded (.lpop pd n a)) rfl (by decide) (by omega) a.isLt (by decide) (by decide) ?_ rfl
  have h1 : pd.toNat * 8 + n.toNat < 64 := by omega
  have h2 : BitVec.ofNat 3 ((pd.toNat * 8 + n.toNat) / 8) = pd := (BitVec.eq_of_toNat_eq (by rw [BitVec.toNat_ofNat]; omega))
  have h3 : BitVec.ofNat 3 (pd.toNat * 8 + n.toNat) = n := (BitVec.eq_of_toNat_eq (by rw [BitVec.toNat_ofNat]; omega))
  simp [parseFields, parseSync, d3, d3u, d3l, shimm, dm, rs3, rs2, zeroed, fields_back, cmpd_rel, cmpd_bit, cmpd_pred, h1, h2, h3]

theorem lpopBlockedServe (team : Nat) (tid : Nat) : Statement (.lpopBlockedServe team tid) := fun h => nomatch h
theorem ltrypop (pd : P3) (n : P3) (a : Code) (m : Mods) : Statement (.ltrypop pd n a m) := by
  intro _ hf
  have := pd.isLt
  have := n.isLt
  have := a.isLt
  refine of_w3 0x9B (pd.toNat * 8 + n.toNat) a.toNat 0 0 (.modded (.ltrypop pd n a)) rfl (by decide) (by omega) a.isLt (by decide) (by decide) ?_ rfl
  have h1 : pd.toNat * 8 + n.toNat < 64 := by omega
  have h2 : BitVec.ofNat 3 ((pd.toNat * 8 + n.toNat) / 8) = pd := (BitVec.eq_of_toNat_eq (by rw [BitVec.toNat_ofNat]; omega))
  have h3 : BitVec.ofNat 3 (pd.toNat * 8 + n.toNat) = n := (BitVec.eq_of_toNat_eq (by rw [BitVec.toNat_ofNat]; omega))
  simp [parseFields, parseSync, d3, d3u, d3l, shimm, dm, rs3, rs2, zeroed, fields_back, cmpd_rel, cmpd_bit, cmpd_pred, h1, h2, h3]

theorem lseal (n : P3) (m : Mods) : Statement (.lseal n m) := by
  intro _ hf
  have := n.isLt
  refine of_w3 0x9C n.toNat 0 0 0 (.modded (.lseal n)) rfl (by decide) (by omega) (by decide) (by decide) (by decide) ?_ rfl
  simp [parseFields, parseSync, d3, d3u, d3l, shimm, dm, rs3, rs2, zeroed, fields_back, cmpd_rel, cmpd_bit, cmpd_pred]
  omega

theorem lstat (n : P3) (a : Code) (m : Mods) : Statement (.lstat n a m) := by
  intro _ hf
  have := n.isLt
  have := a.isLt
  refine of_w3 0x9D n.toNat a.toNat 0 0 (.modded (.lstat n a)) rfl (by decide) (by omega) a.isLt (by decide) (by decide) ?_ rfl
  simp [parseFields, parseSync, d3, d3u, d3l, shimm, dm, rs3, rs2, zeroed, fields_back, cmpd_rel, cmpd_bit, cmpd_pred]
  omega

theorem tspawn (a : Code) (m : Mods) : Statement (.tspawn a m) := by
  intro _ hf
  have := a.isLt
  refine of_w3 0x9E 0 a.toNat 0 0 (.modded (.tspawn a)) rfl (by decide) (by decide) a.isLt (by decide) (by decide) ?_ rfl
  simp [parseFields, parseSync, d3, d3u, d3l, shimm, dm, rs3, rs2, zeroed, fields_back, cmpd_rel, cmpd_bit, cmpd_pred]

theorem tdone (a : Code) (m : Mods) : Statement (.tdone a m) := by
  intro _ hf
  have := a.isLt
  refine of_w3 0x9F 0 a.toNat 0 0 (.modded (.tdone a)) rfl (by decide) (by decide) a.isLt (by decide) (by decide) ?_ rfl
  simp [parseFields, parseSync, d3, d3u, d3l, shimm, dm, rs3, rs2, zeroed, fields_back, cmpd_rel, cmpd_bit, cmpd_pred]

theorem lcfg (n : P3) (a : Code) (m : Mods) : Statement (.lcfg n a m) := by
  intro _ hf
  have := n.isLt
  have := a.isLt
  refine of_w3 0xA0 n.toNat a.toNat 0 0 (.modded (.lcfg n a)) rfl (by decide) (by omega) a.isLt (by decide) (by decide) ?_ rfl
  simp [parseFields, parseSync, d3, d3u, d3l, shimm, dm, rs3, rs2, zeroed, fields_back, cmpd_rel, cmpd_bit, cmpd_pred]
  omega

theorem lfire (pd : P3) (n : P3) (m : Mods) : Statement (.lfire pd n m) := by
  intro _ hf
  have := pd.isLt
  have := n.isLt
  refine of_w3 0xA1 (pd.toNat * 8 + n.toNat) 0 0 0 (.modded (.lfire pd n)) rfl (by decide) (by omega) (by decide) (by decide) (by decide) ?_ rfl
  have h1 : pd.toNat * 8 + n.toNat < 64 := by omega
  have h2 : BitVec.ofNat 3 ((pd.toNat * 8 + n.toNat) / 8) = pd := (BitVec.eq_of_toNat_eq (by rw [BitVec.toNat_ofNat]; omega))
  have h3 : BitVec.ofNat 3 (pd.toNat * 8 + n.toNat) = n := (BitVec.eq_of_toNat_eq (by rw [BitVec.toNat_ofNat]; omega))
  simp [parseFields, parseSync, d3, d3u, d3l, shimm, dm, rs3, rs2, zeroed, fields_back, cmpd_rel, cmpd_bit, cmpd_pred, h1, h2, h3]

theorem hbind (d : Code) (a : Code) (m : Mods) : Statement (.hbind d a m) := by
  intro _ hf
  have := d.isLt
  have := a.isLt
  refine of_w3 0xA2 d.toNat a.toNat 0 0 (.modded (.hbind d a)) rfl (by decide) d.isLt a.isLt (by decide) (by decide) ?_ rfl
  simp [parseFields, parseSync, d3, d3u, d3l, shimm, dm, rs3, rs2, zeroed, fields_back, cmpd_rel, cmpd_bit, cmpd_pred]

theorem hdone (m : Mods) : Statement (.hdone m) := by
  intro _ hf
  
  refine of_w3 0xA3 0 0 0 0 (.modded (.hdone)) rfl (by decide) (by decide) (by decide) (by decide) (by decide) ?_ rfl
  simp [parseFields, parseSync, d3, d3u, d3l, shimm, dm, rs3, rs2, zeroed, fields_back, cmpd_rel, cmpd_bit, cmpd_pred]

theorem landingAgeTick (cluster : Nat) : Statement (.landingAgeTick cluster) := fun h => nomatch h
theorem crsv (d : Code) (a : Code) (trap : Bool) (pd : P3) (n : BitVec 5) (m : Mods) : Statement (.crsv d a trap pd n m) := by
  intro _ hf
  have := d.isLt
  have := a.isLt
  have := trap.toNat_le
  have := pd.isLt
  have := n.isLt
  refine of_wi 0xB0 d.toNat a.toNat (trap.toNat * 512 + pd.toNat * 64 + n.toNat) (.modded (.crsv d a trap pd n)) rfl (by decide) d.isLt a.isLt (by omega) ?_ rfl
  have h1 : (trap.toNat * 512 + pd.toNat * 64 + n.toNat) / 32 % 2 = 0 := by omega
  have h2 : ((trap.toNat * 512 + pd.toNat * 64 + n.toNat) / 512 == 1) = trap := (by cases trap <;> simp <;> omega)
  have h3 : BitVec.ofNat 3 ((trap.toNat * 512 + pd.toNat * 64 + n.toNat) / 64) = pd := (BitVec.eq_of_toNat_eq (by rw [BitVec.toNat_ofNat]; omega))
  have h4 : BitVec.ofNat 5 (trap.toNat * 512 + pd.toNat * 64 + n.toNat) = n := (BitVec.eq_of_toNat_eq (by rw [BitVec.toNat_ofNat]; omega))
  simp [parseFields, parseCtx, d3, d3u, d3l, shimm, dm, rs3, rs2, zeroed, fields_back, cmpd_rel, cmpd_bit, cmpd_pred, h1, h2, h3, h4]

theorem cwkv (d : Code) (a : Code) (b : Code) (m : Mods) : Statement (.cwkv d a b m) := by
  intro _ hf
  have := d.isLt
  have := a.isLt
  have := b.isLt
  refine of_w3 0xB1 d.toNat a.toNat b.toNat 0 (.modded (.cwkv d a b)) rfl (by decide) d.isLt a.isLt b.isLt (by decide) ?_ rfl
  simp [parseFields, parseCtx, d3, d3u, d3l, shimm, dm, rs3, rs2, zeroed, fields_back, cmpd_rel, cmpd_bit, cmpd_pred]

theorem cpub (d : Code) (a : Code) (n : BitVec 10) (m : Mods) : Statement (.cpub d a n m) := by
  intro _ hf
  have := d.isLt
  have := a.isLt
  have := n.isLt
  refine of_wi 0xB2 d.toNat a.toNat n.toNat (.modded (.cpub d a n)) rfl (by decide) d.isLt a.isLt (by omega) ?_ rfl
  simp [parseFields, parseCtx, d3, d3u, d3l, shimm, dm, rs3, rs2, zeroed, fields_back, cmpd_rel, cmpd_bit, cmpd_pred]

theorem cacq (a : Code) (m : Mods) : Statement (.cacq a m) := by
  intro _ hf
  have := a.isLt
  refine of_w3 0xB3 0 a.toNat 0 0 (.modded (.cacq a)) rfl (by decide) (by decide) a.isLt (by decide) (by decide) ?_ rfl
  simp [parseFields, parseCtx, d3, d3u, d3l, shimm, dm, rs3, rs2, zeroed, fields_back, cmpd_rel, cmpd_bit, cmpd_pred]

theorem csig (d : Code) (a : Code) (b : Code) : Statement (.csig d a b) := by
  intro _ hf
  have := d.isLt
  have := a.isLt
  have := b.isLt
  refine of_w3 0xB4 d.toNat a.toNat b.toNat 0 (.plain (.csig d a b)) rfl (by decide) d.isLt a.isLt b.isLt (by decide) ?_ rfl
  simp [parseFields, parseCtx, d3, d3u, d3l, shimm, dm, rs3, rs2, zeroed, fields_back, cmpd_rel, cmpd_bit, cmpd_pred]

theorem catt (d : Code) (a : Code) (b : Code) (pd : P3) : Statement (.catt d a b pd) := by
  intro _ hf
  have := d.isLt
  have := a.isLt
  have := b.isLt
  have := pd.isLt
  refine of_w3 0xB5 d.toNat a.toNat b.toNat pd.toNat (.plain (.catt d a b pd)) rfl (by decide) d.isLt a.isLt b.isLt (by omega) ?_ rfl
  simp [parseFields, parseCtx, d3, d3u, d3l, shimm, dm, rs3, rs2, zeroed, fields_back, cmpd_rel, cmpd_bit, cmpd_pred]

theorem cattBlockWrite (job : Nat) : Statement (.cattBlockWrite job) := fun h => nomatch h
theorem cmrg (d : Code) (a : Code) (f : MrgFmt) (m : Mods) : Statement (.cmrg d a f m) := by
  intro _ hf
  have := d.isLt
  have := a.isLt
  have := MrgFmt.code_lt f
  refine of_w3 0xB6 d.toNat a.toNat 0 f.code (.modded (.cmrg d a f)) rfl (by decide) d.isLt a.isLt (by decide) (by omega) ?_ rfl
  simp [parseFields, parseCtx, d3, d3u, d3l, shimm, dm, rs3, rs2, zeroed, fields_back, cmpd_rel, cmpd_bit, cmpd_pred]

theorem crel (d : Code) (a : Code) (n : BitVec 10) (m : Mods) : Statement (.crel d a n m) := by
  intro _ hf
  have := d.isLt
  have := a.isLt
  have := n.isLt
  refine of_wi 0xB7 d.toNat a.toNat n.toNat (.modded (.crel d a n)) rfl (by decide) d.isLt a.isLt (by omega) ?_ rfl
  simp [parseFields, parseCtx, d3, d3u, d3l, shimm, dm, rs3, rs2, zeroed, fields_back, cmpd_rel, cmpd_bit, cmpd_pred]

theorem talloc (t : Code) (a : Code) (b : Code) (f : TileFmt) (m : Mods) : Statement (.talloc t a b f m) := by
  intro _ hf
  have := t.isLt
  have := a.isLt
  have := b.isLt
  have := TileFmt.code_lt f
  refine of_w3 0xC0 t.toNat a.toNat b.toNat f.code (.modded (.talloc t a b f)) rfl (by decide) t.isLt a.isLt b.isLt (by omega) ?_ rfl
  simp [parseFields, parseMat, d3, d3u, d3l, shimm, dm, rs3, rs2, zeroed, fields_back, cmpd_rel, cmpd_bit, cmpd_pred]

theorem tready (t : Code) (m : Mods) : Statement (.tready t m) := by
  intro _ hf
  have := t.isLt
  refine of_w3 0xC1 t.toNat 0 0 0 (.modded (.tready t)) rfl (by decide) t.isLt (by decide) (by decide) (by decide) ?_ rfl
  simp [parseFields, parseMat, d3, d3u, d3l, shimm, dm, rs3, rs2, zeroed, fields_back, cmpd_rel, cmpd_bit, cmpd_pred]

theorem tdrain (t : Code) (m : Mods) : Statement (.tdrain t m) := by
  intro _ hf
  have := t.isLt
  refine of_w3 0xC2 t.toNat 0 0 0 (.modded (.tdrain t)) rfl (by decide) t.isLt (by decide) (by decide) (by decide) ?_ rfl
  simp [parseFields, parseMat, d3, d3u, d3l, shimm, dm, rs3, rs2, zeroed, fields_back, cmpd_rel, cmpd_bit, cmpd_pred]

theorem tfree (t : Code) (m : Mods) : Statement (.tfree t m) := by
  intro _ hf
  have := t.isLt
  refine of_w3 0xC3 t.toNat 0 0 0 (.modded (.tfree t)) rfl (by decide) t.isLt (by decide) (by decide) (by decide) ?_ rfl
  simp [parseFields, parseMat, d3, d3u, d3l, shimm, dm, rs3, rs2, zeroed, fields_back, cmpd_rel, cmpd_bit, cmpd_pred]

theorem tstat (d : Code) (t : Code) (m : Mods) : Statement (.tstat d t m) := by
  intro _ hf
  have := d.isLt
  have := t.isLt
  refine of_w3 0xC4 d.toNat t.toNat 0 0 (.modded (.tstat d t)) rfl (by decide) d.isLt t.isLt (by decide) (by decide) ?_ rfl
  simp [parseFields, parseMat, d3, d3u, d3l, shimm, dm, rs3, rs2, zeroed, fields_back, cmpd_rel, cmpd_bit, cmpd_pred]

theorem mload (d : Code) (a : Code) (s : BitVec 5) (g : BitVec 5) (m : Mods) : Statement (.mload d a s g m) := by
  intro _ hf
  have := d.isLt
  have := a.isLt
  have := s.isLt
  have := g.isLt
  refine of_wi 0xC8 d.toNat a.toNat (s.toNat * 32 + g.toNat) (.modded (.mload d a s g)) rfl (by decide) d.isLt a.isLt (by omega) ?_ rfl
  have h1 : BitVec.ofNat 5 ((s.toNat * 32 + g.toNat) / 32) = s := (BitVec.eq_of_toNat_eq (by rw [BitVec.toNat_ofNat]; omega))
  have h2 : BitVec.ofNat 5 (s.toNat * 32 + g.toNat) = g := (BitVec.eq_of_toNat_eq (by rw [BitVec.toNat_ofNat]; omega))
  simp [parseFields, parseMat, d3, d3u, d3l, shimm, dm, rs3, rs2, zeroed, fields_back, cmpd_rel, cmpd_bit, cmpd_pred, h1, h2]

theorem macroLoadComplete (cluster : Nat) (mac : Nat) : Statement (.macroLoadComplete cluster mac) := fun h => nomatch h
theorem mfire (d : Code) (t : Code) (bank : P3) (cnt : BitVec 6) (m : Mods) : Statement (.mfire d t bank cnt m) := by
  intro _ hf
  have := d.isLt
  have := t.isLt
  have := bank.isLt
  have := cnt.isLt
  refine of_wi 0xC9 d.toNat t.toNat (bank.toNat * 128 + cnt.toNat * 2) (.modded (.mfire d t bank cnt)) rfl (by decide) d.isLt t.isLt (by omega) ?_ rfl
  have h1 : (bank.toNat * 128 + cnt.toNat * 2) % 2 = 0 := by omega
  have h2 : BitVec.ofNat 3 ((bank.toNat * 128 + cnt.toNat * 2) / 128) = bank := (BitVec.eq_of_toNat_eq (by rw [BitVec.toNat_ofNat]; omega))
  have h3 : BitVec.ofNat 6 ((bank.toNat * 128 + cnt.toNat * 2) / 2) = cnt := (BitVec.eq_of_toNat_eq (by rw [BitVec.toNat_ofNat]; omega))
  simp [parseFields, parseMat, d3, d3u, d3l, shimm, dm, rs3, rs2, zeroed, fields_back, cmpd_rel, cmpd_bit, cmpd_pred, h1, h2, h3]

theorem mhad (d : Code) (s : Code) (p : HadSize) (m : Mods) : Statement (.mhad d s p m) := by
  intro _ hf
  have := d.isLt
  have := s.isLt
  have := HadSize.code_lt p
  refine of_w3 0xCA d.toNat s.toNat 0 p.code (.modded (.mhad d s p)) rfl (by decide) d.isLt s.isLt (by decide) (by omega) ?_ rfl
  simp [parseFields, parseMat, d3, d3u, d3l, shimm, dm, rs3, rs2, zeroed, fields_back, cmpd_rel, cmpd_bit, cmpd_pred]

theorem mqnt (d : Code) (s : Code) (r : Code) (q4 : Bool) (m : Mods) : Statement (.mqnt d s r q4 m) := by
  intro _ hf
  have := d.isLt
  have := s.isLt
  have := r.isLt
  have := q4.toNat_le
  refine of_w3 0xCB d.toNat s.toNat r.toNat q4.toNat (.modded (.mqnt d s r q4)) rfl (by decide) d.isLt s.isLt r.isLt (by omega) ?_ rfl
  have h1 : q4.toNat < 2 := by omega
  have h2 : (q4.toNat % 2 == 1) = q4 := by cases q4 <;> rfl
  simp [parseFields, parseMat, d3, d3u, d3l, shimm, dm, rs3, rs2, zeroed, fields_back, cmpd_rel, cmpd_bit, cmpd_pred, h2]
  omega

theorem mdrain (d : Code) (bank : P3) (f : DrainFmt) (m : Mods) : Statement (.mdrain d bank f m) := by
  intro _ hf
  have := d.isLt
  have := bank.isLt
  have := DrainFmt.code_lt f
  refine of_w3 0xCC d.toNat bank.toNat 0 f.code (.modded (.mdrain d bank f)) rfl (by decide) d.isLt (by omega) (by decide) (by omega) ?_ rfl
  simp [parseFields, parseMat, d3, d3u, d3l, shimm, dm, rs3, rs2, zeroed, fields_back, cmpd_rel, cmpd_bit, cmpd_pred]
  omega

theorem mclr (bank : P3) (e : BitVec 10) (m : Mods) : Statement (.mclr bank e m) := by
  intro _ hf
  have := bank.isLt
  have := e.isLt
  refine of_wi 0xCD bank.toNat 0 e.toNat (.modded (.mclr bank e)) rfl (by decide) (by omega) (by decide) (by omega) ?_ rfl
  simp [parseFields, parseMat, d3, d3u, d3l, shimm, dm, rs3, rs2, zeroed, fields_back, cmpd_rel, cmpd_bit, cmpd_pred]
  omega

theorem mres (d : Code) (a : Code) (pd : P3) (m : Mods) : Statement (.mres d a pd m) := by
  intro _ hf
  have := d.isLt
  have := a.isLt
  have := pd.isLt
  refine of_w3 0xCE d.toNat a.toNat 0 pd.toNat (.modded (.mres d a pd)) rfl (by decide) d.isLt a.isLt (by decide) (by omega) ?_ rfl
  simp [parseFields, parseMat, d3, d3u, d3l, shimm, dm, rs3, rs2, zeroed, fields_back, cmpd_rel, cmpd_bit, cmpd_pred]

theorem rsring (a : Code) (ty : RsTy) (m : Mods) : Statement (.rsring a ty m) := by
  intro _ hf
  have := a.isLt
  have := RsTy.code_lt ty
  refine of_w3 0xD0 0 a.toNat 0 ty.code (.modded (.rsring a ty)) rfl (by decide) (by decide) a.isLt (by decide) (by omega) ?_ rfl
  simp [parseFields, parseRing, d3, d3u, d3l, shimm, dm, rs3, rs2, zeroed, fields_back, cmpd_rel, cmpd_bit, cmpd_pred]

theorem ringTablesComplete (team : Nat) (slot : Nat) : Statement (.ringTablesComplete team slot) := fun h => nomatch h
theorem rsadd (d : Code) (a : Code) (b : Code) (ty : RsTy) (m : Mods) : Statement (.rsadd d a b ty m) := by
  intro _ hf
  have := d.isLt
  have := a.isLt
  have := b.isLt
  have := RsTy.code_lt ty
  refine of_w3 0xD1 d.toNat a.toNat b.toNat ty.code (.modded (.rsadd d a b ty)) rfl (by decide) d.isLt a.isLt b.isLt (by omega) ?_ rfl
  simp [parseFields, parseRing, d3, d3u, d3l, shimm, dm, rs3, rs2, zeroed, fields_back, cmpd_rel, cmpd_bit, cmpd_pred]

theorem rssub (d : Code) (a : Code) (b : Code) (ty : RsTy) (m : Mods) : Statement (.rssub d a b ty m) := by
  intro _ hf
  have := d.isLt
  have := a.isLt
  have := b.isLt
  have := RsTy.code_lt ty
  refine of_w3 0xD2 d.toNat a.toNat b.toNat ty.code (.modded (.rssub d a b ty)) rfl (by decide) d.isLt a.isLt b.isLt (by omega) ?_ rfl
  simp [parseFields, parseRing, d3, d3u, d3l, shimm, dm, rs3, rs2, zeroed, fields_back, cmpd_rel, cmpd_bit, cmpd_pred]

theorem rsmul (d : Code) (a : Code) (b : Code) (ty : RsTy) (m : Mods) : Statement (.rsmul d a b ty m) := by
  intro _ hf
  have := d.isLt
  have := a.isLt
  have := b.isLt
  have := RsTy.code_lt ty
  refine of_w3 0xD3 d.toNat a.toNat b.toNat ty.code (.modded (.rsmul d a b ty)) rfl (by decide) d.isLt a.isLt b.isLt (by omega) ?_ rfl
  simp [parseFields, parseRing, d3, d3u, d3l, shimm, dm, rs3, rs2, zeroed, fields_back, cmpd_rel, cmpd_bit, cmpd_pred]

theorem rsdiv (d : Code) (a : Code) (b : Code) (ty : RsTy) (m : Mods) : Statement (.rsdiv d a b ty m) := by
  intro _ hf
  have := d.isLt
  have := a.isLt
  have := b.isLt
  have := RsTy.code_lt ty
  refine of_w3 0xD4 d.toNat a.toNat b.toNat ty.code (.modded (.rsdiv d a b ty)) rfl (by decide) d.isLt a.isLt b.isLt (by omega) ?_ rfl
  simp [parseFields, parseRing, d3, d3u, d3l, shimm, dm, rs3, rs2, zeroed, fields_back, cmpd_rel, cmpd_bit, cmpd_pred]

theorem rsneg (d : Code) (a : Code) (ty : RsTy) (m : Mods) : Statement (.rsneg d a ty m) := by
  intro _ hf
  have := d.isLt
  have := a.isLt
  have := RsTy.code_lt ty
  refine of_w3 0xD5 d.toNat a.toNat 0 ty.code (.modded (.rsneg d a ty)) rfl (by decide) d.isLt a.isLt (by decide) (by omega) ?_ rfl
  simp [parseFields, parseRing, d3, d3u, d3l, shimm, dm, rs3, rs2, zeroed, fields_back, cmpd_rel, cmpd_bit, cmpd_pred]

theorem rsrec (d : Code) (a : Code) (ty : RsTy) (m : Mods) : Statement (.rsrec d a ty m) := by
  intro _ hf
  have := d.isLt
  have := a.isLt
  have := RsTy.code_lt ty
  refine of_w3 0xD6 d.toNat a.toNat 0 ty.code (.modded (.rsrec d a ty)) rfl (by decide) d.isLt a.isLt (by decide) (by omega) ?_ rfl
  simp [parseFields, parseRing, d3, d3u, d3l, shimm, dm, rs3, rs2, zeroed, fields_back, cmpd_rel, cmpd_bit, cmpd_pred]

theorem rsmax (d : Code) (a : Code) (b : Code) (ty : RsTy) (m : Mods) : Statement (.rsmax d a b ty m) := by
  intro _ hf
  have := d.isLt
  have := a.isLt
  have := b.isLt
  have := RsTy.code_lt ty
  refine of_w3 0xD7 d.toNat a.toNat b.toNat ty.code (.modded (.rsmax d a b ty)) rfl (by decide) d.isLt a.isLt b.isLt (by omega) ?_ rfl
  simp [parseFields, parseRing, d3, d3u, d3l, shimm, dm, rs3, rs2, zeroed, fields_back, cmpd_rel, cmpd_bit, cmpd_pred]

theorem rsmin (d : Code) (a : Code) (b : Code) (ty : RsTy) (m : Mods) : Statement (.rsmin d a b ty m) := by
  intro _ hf
  have := d.isLt
  have := a.isLt
  have := b.isLt
  have := RsTy.code_lt ty
  refine of_w3 0xD8 d.toNat a.toNat b.toNat ty.code (.modded (.rsmin d a b ty)) rfl (by decide) d.isLt a.isLt b.isLt (by omega) ?_ rfl
  simp [parseFields, parseRing, d3, d3u, d3l, shimm, dm, rs3, rs2, zeroed, fields_back, cmpd_rel, cmpd_bit, cmpd_pred]

theorem rsuni (d : Code) (a : Code) (b : Code) (ty : RsTy) (m : Mods) : Statement (.rsuni d a b ty m) := by
  intro _ hf
  have := d.isLt
  have := a.isLt
  have := b.isLt
  have := RsTy.code_lt ty
  refine of_w3 0xD9 d.toNat a.toNat b.toNat ty.code (.modded (.rsuni d a b ty)) rfl (by decide) d.isLt a.isLt b.isLt (by omega) ?_ rfl
  simp [parseFields, parseRing, d3, d3u, d3l, shimm, dm, rs3, rs2, zeroed, fields_back, cmpd_rel, cmpd_bit, cmpd_pred]

theorem rsint (d : Code) (a : Code) (b : Code) (ty : RsTy) (m : Mods) : Statement (.rsint d a b ty m) := by
  intro _ hf
  have := d.isLt
  have := a.isLt
  have := b.isLt
  have := RsTy.code_lt ty
  refine of_w3 0xDA d.toNat a.toNat b.toNat ty.code (.modded (.rsint d a b ty)) rfl (by decide) d.isLt a.isLt b.isLt (by omega) ?_ rfl
  simp [parseFields, parseRing, d3, d3u, d3l, shimm, dm, rs3, rs2, zeroed, fields_back, cmpd_rel, cmpd_bit, cmpd_pred]

theorem rsfrom (d : Code) (a : Code) (b : Code) (ty : RsTy) (m : Mods) : Statement (.rsfrom d a b ty m) := by
  intro _ hf
  have := d.isLt
  have := a.isLt
  have := b.isLt
  have := RsTy.code_lt ty
  refine of_w3 0xDB d.toNat a.toNat b.toNat ty.code (.modded (.rsfrom d a b ty)) rfl (by decide) d.isLt a.isLt b.isLt (by omega) ?_ rfl
  simp [parseFields, parseRing, d3, d3u, d3l, shimm, dm, rs3, rs2, zeroed, fields_back, cmpd_rel, cmpd_bit, cmpd_pred]

theorem rslo (d : Code) (a : Code) (ty : RsTy) (m : Mods) : Statement (.rslo d a ty m) := by
  intro _ hf
  have := d.isLt
  have := a.isLt
  have := RsTy.code_lt ty
  refine of_w3 0xDC d.toNat a.toNat 0 ty.code (.modded (.rslo d a ty)) rfl (by decide) d.isLt a.isLt (by decide) (by omega) ?_ rfl
  simp [parseFields, parseRing, d3, d3u, d3l, shimm, dm, rs3, rs2, zeroed, fields_back, cmpd_rel, cmpd_bit, cmpd_pred]

theorem rshi (d : Code) (a : Code) (ty : RsTy) (m : Mods) : Statement (.rshi d a ty m) := by
  intro _ hf
  have := d.isLt
  have := a.isLt
  have := RsTy.code_lt ty
  refine of_w3 0xDD d.toNat a.toNat 0 ty.code (.modded (.rshi d a ty)) rfl (by decide) d.isLt a.isLt (by decide) (by omega) ?_ rfl
  simp [parseFields, parseRing, d3, d3u, d3l, shimm, dm, rs3, rs2, zeroed, fields_back, cmpd_rel, cmpd_bit, cmpd_pred]

theorem rstest (rel : Rel) (poss : Bool) (pd : P3) (a : Code) (b : Code) (ty : RsTy) (m : Mods) : Statement (.rstest rel poss pd a b ty m) := by
  intro _ hf
  have := Rel.code_lt rel
  have := poss.toNat_le
  have := pd.isLt
  have := a.isLt
  have := b.isLt
  have := RsTy.code_lt ty
  refine of_w3 0xDE (cmpd rel.code poss pd) a.toNat b.toNat ty.code (.modded (.rstest rel poss pd a b ty)) rfl (by decide) (cmpd_lt (by have := Rel.code_lt rel; omega) _ _) a.isLt b.isLt (by omega) ?_ rfl
  simp [parseFields, parseRing, d3, d3u, d3l, shimm, dm, rs3, rs2, zeroed, fields_back, cmpd_rel, cmpd_bit, cmpd_pred]

theorem rspack (d : Code) (a : Code) (ty : RsTy) (m : Mods) : Statement (.rspack d a ty m) := by
  intro _ hf
  have := d.isLt
  have := a.isLt
  have := RsTy.code_lt ty
  refine of_w3 0xDF d.toNat a.toNat 0 ty.code (.modded (.rspack d a ty)) rfl (by decide) d.isLt a.isLt (by decide) (by omega) ?_ rfl
  simp [parseFields, parseRing, d3, d3u, d3l, shimm, dm, rs3, rs2, zeroed, fields_back, cmpd_rel, cmpd_bit, cmpd_pred]

theorem rsunpk (d : Code) (a : Code) (ty : RsTy) (m : Mods) : Statement (.rsunpk d a ty m) := by
  intro _ hf
  have := d.isLt
  have := a.isLt
  have := RsTy.code_lt ty
  refine of_w3 0xDF d.toNat a.toNat 1 ty.code (.modded (.rsunpk d a ty)) rfl (by decide) d.isLt a.isLt (by omega) (by omega) ?_ rfl
  simp [parseFields, parseRing, d3, d3u, d3l, shimm, dm, rs3, rs2, zeroed, fields_back, cmpd_rel, cmpd_bit, cmpd_pred]

theorem xcopy (d : Code) (a : Code) (b : Code) (scope : Scope) (m : Mods) : Statement (.xcopy d a b scope m) := by
  intro _ hf
  have := d.isLt
  have := a.isLt
  have := b.isLt
  have := Scope.code_lt scope
  refine of_w3 0xE0 d.toNat a.toNat b.toNat scope.code (.modded (.xcopy d a b scope)) rfl (by decide) d.isLt a.isLt b.isLt (by omega) ?_ rfl
  simp [parseFields, parseEng, d3, d3u, d3l, shimm, dm, rs3, rs2, zeroed, fields_back, cmpd_rel, cmpd_bit, cmpd_pred]

theorem xgath (d : Code) (a : Code) (b : Code) (pd : P3) (m : Mods) : Statement (.xgath d a b pd m) := by
  intro _ hf
  have := d.isLt
  have := a.isLt
  have := b.isLt
  have := pd.isLt
  refine of_w3 0xE1 d.toNat a.toNat b.toNat pd.toNat (.modded (.xgath d a b pd)) rfl (by decide) d.isLt a.isLt b.isLt (by omega) ?_ rfl
  simp [parseFields, parseEng, d3, d3u, d3l, shimm, dm, rs3, rs2, zeroed, fields_back, cmpd_rel, cmpd_bit, cmpd_pred]

theorem xputs (d : Code) (a : Code) (add : Bool) (m : Mods) : Statement (.xputs d a add m) := by
  intro _ hf
  have := d.isLt
  have := a.isLt
  have := add.toNat_le
  refine of_w3 0xE2 d.toNat a.toNat 0 add.toNat (.modded (.xputs d a add)) rfl (by decide) d.isLt a.isLt (by decide) (by omega) ?_ rfl
  simp [parseFields, parseEng, d3, d3u, d3l, shimm, dm, rs3, rs2, zeroed, fields_back, cmpd_rel, cmpd_bit, cmpd_pred]
  omega

theorem xshad (d : Code) (a : Code) (b : Code) : Statement (.xshad d a b) := by
  intro _ hf
  have := d.isLt
  have := a.isLt
  have := b.isLt
  refine of_w3 0xE3 d.toNat a.toNat b.toNat 0 (.plain (.xshad d a b)) rfl (by decide) d.isLt a.isLt b.isLt (by decide) ?_ rfl
  simp [parseFields, parseEng, d3, d3u, d3l, shimm, dm, rs3, rs2, zeroed, fields_back, cmpd_rel, cmpd_bit, cmpd_pred]

theorem shadowUnbind (binding : Nat) : Statement (.shadowUnbind binding) := fun h => nomatch h
theorem xpubb (a : Code) : Statement (.xpubb a) := by
  intro _ hf
  have := a.isLt
  refine of_w3 0xE4 0 a.toNat 0 0 (.plain (.xpubb a)) rfl (by decide) (by decide) a.isLt (by decide) (by decide) ?_ rfl
  simp [parseFields, parseEng, d3, d3u, d3l, shimm, dm, rs3, rs2, zeroed, fields_back, cmpd_rel, cmpd_bit, cmpd_pred]

theorem shadowSwap (binding : Nat) : Statement (.shadowSwap binding) := fun h => nomatch h
theorem engineCommandComplete (core : Nat) (cmd : Nat) (badLines : List Nat) : Statement (.engineCommandComplete core cmd badLines) := fun h => nomatch h
theorem bra (g : Guard) (off : BitVec 19) : Statement (.bra g off) := by
  intro _ _
  exact of_wb 0xF0 g off _ rfl (by decide) (fun d a b t h1 _ h2 => by simp only [parseFields, parseFlow]; rw [h1, h2]) rfl

theorem brc (sense : Bool) (p : P3) (off : BitVec 19) : Statement (.brc sense p off) := by
  intro _ _
  refine of_wb 0xF1 { en := true, sense := sense, pred := p } off (.plain (.brc sense p off)) rfl (by decide) (fun d a b t h1 h2 h3 => ?_) rfl
  simp [parseFields, parseFlow, h1, h2, h3, zeroed]

theorem brx (a : Code) : Statement (.brx a) := by
  intro _ hf
  have := a.isLt
  refine of_w3 0xF2 0 a.toNat 0 0 (.plain (.brx a)) rfl (by decide) (by decide) a.isLt (by decide) (by decide) ?_ rfl
  simp [parseFields, parseFlow, d3, d3u, d3l, shimm, dm, rs3, rs2, zeroed, fields_back, cmpd_rel, cmpd_bit, cmpd_pred]

theorem call (g : Guard) (off : BitVec 19) : Statement (.call g off) := by
  intro _ _
  exact of_wb 0xF3 g off _ rfl (by decide) (fun d a b t h1 _ h2 => by simp only [parseFields, parseFlow]; rw [h1, h2]) rfl

theorem callx (a : Code) : Statement (.callx a) := by
  intro _ hf
  have := a.isLt
  refine of_w3 0xF4 0 a.toNat 0 0 (.plain (.callx a)) rfl (by decide) (by decide) a.isLt (by decide) (by decide) ?_ rfl
  simp [parseFields, parseFlow, d3, d3u, d3l, shimm, dm, rs3, rs2, zeroed, fields_back, cmpd_rel, cmpd_bit, cmpd_pred]

theorem ret  : Statement .ret := by
  intro _ hf
  
  refine of_w3 0xF5 0 0 0 0 (.plain .ret) rfl (by decide) (by decide) (by decide) (by decide) (by decide) ?_ rfl
  simp [parseFields, parseFlow, d3, d3u, d3l, shimm, dm, rs3, rs2, zeroed, fields_back, cmpd_rel, cmpd_bit, cmpd_pred]

theorem reform  : Statement .reform := by
  intro _ hf
  
  refine of_w3 0xF6 0 0 0 0 (.plain .reform) rfl (by decide) (by decide) (by decide) (by decide) (by decide) ?_ rfl
  simp [parseFields, parseFlow, d3, d3u, d3l, shimm, dm, rs3, rs2, zeroed, fields_back, cmpd_rel, cmpd_bit, cmpd_pred]

theorem yield  : Statement .yield := by
  intro _ hf
  
  refine of_w3 0xF7 0 0 0 0 (.plain .yield) rfl (by decide) (by decide) (by decide) (by decide) (by decide) ?_ rfl
  simp [parseFields, parseFlow, d3, d3u, d3l, shimm, dm, rs3, rs2, zeroed, fields_back, cmpd_rel, cmpd_bit, cmpd_pred]

theorem exit  : Statement .exit := by
  intro _ hf
  
  refine of_w3 0xF8 0 0 0 0 (.plain .exit) rfl (by decide) (by decide) (by decide) (by decide) (by decide) ?_ rfl
  simp [parseFields, parseFlow, d3, d3u, d3l, shimm, dm, rs3, rs2, zeroed, fields_back, cmpd_rel, cmpd_bit, cmpd_pred]

theorem trap (imm : BitVec 10) : Statement (.trap imm) := by
  intro _ hf
  have := imm.isLt
  refine of_wi 0xF9 0 0 imm.toNat (.plain (.trap imm)) rfl (by decide) (by decide) (by decide) (by omega) ?_ rfl
  simp [parseFields, parseFlow, d3, d3u, d3l, shimm, dm, rs3, rs2, zeroed, fields_back, cmpd_rel, cmpd_bit, cmpd_pred]

theorem eret  : Statement .eret := by
  intro _ hf
  
  refine of_w3 0xFA 0 0 0 0 (.plain .eret) rfl (by decide) (by decide) (by decide) (by decide) (by decide) ?_ rfl
  simp [parseFields, parseFlow, d3, d3u, d3l, shimm, dm, rs3, rs2, zeroed, fields_back, cmpd_rel, cmpd_bit, cmpd_pred]

theorem tlbi (a : Code) (b : Code) (op : TlbiOp) (m : Mods) : Statement (.tlbi a b op m) := by
  intro _ hf
  have := a.isLt
  have := b.isLt
  have := TlbiOp.code_lt op
  refine of_w3 0xFB 0 a.toNat b.toNat op.code (.modded (.tlbi a b op)) rfl (by decide) (by decide) a.isLt b.isLt (by omega) ?_ rfl
  simp [parseFields, parseFlow, d3, d3u, d3l, shimm, dm, rs3, rs2, zeroed, fields_back, cmpd_rel, cmpd_bit, cmpd_pred]

theorem issueGroupDraw (ctl : Bool) (unit : Nat) (pipe : Nat) : Statement (.issueGroupDraw ctl unit pipe) := fun h => nomatch h
theorem resultReturn (team : Nat) (tid : Nat) (idx : Nat) : Statement (.resultReturn team tid idx) := fun h => nomatch h
theorem trapDeliver (team : Nat) (tid : Nat) : Statement (.trapDeliver team tid) := fun h => nomatch h
theorem faultRecordPost (team : Nat) : Statement (.faultRecordPost team) := fun h => nomatch h
theorem verdictRetry (team : Nat) : Statement (.verdictRetry team) := fun h => nomatch h
theorem verdictUser (team : Nat) : Statement (.verdictUser team) := fun h => nomatch h
theorem verdictKill (team : Nat) : Statement (.verdictKill team) := fun h => nomatch h
theorem tenantStop (tenant : Nat) : Statement (.tenantStop tenant) := fun h => nomatch h
theorem deviceRuntimeReset : Statement .deviceRuntimeReset := fun h => nomatch h
theorem wdogExpire (team : Nat) (tid : Nat) : Statement (.wdogExpire team tid) := fun h => nomatch h
theorem softError (team : Nat) (kind : BitVec 2) : Statement (.softError team kind) := fun h => nomatch h
theorem launchWindowWrite (window : Nat) (off : Nat) (data : List Byte) : Statement (.launchWindowWrite window off data) := fun h => nomatch h
theorem launchActivate : Statement .launchActivate := fun h => nomatch h
theorem launchLate (launch : Nat) : Statement (.launchLate launch) := fun h => nomatch h
theorem gridTaskGenerate (launch : Nat) : Statement (.gridTaskGenerate launch) := fun h => nomatch h
theorem taskPlace (core : Nat) : Statement (.taskPlace core) := fun h => nomatch h
theorem taskComplete (team : Nat) : Statement (.taskComplete team) := fun h => nomatch h
theorem clusterSteal (thief : Nat) : Statement (.clusterSteal thief) := fun h => nomatch h
theorem dequeSpillReturn (cluster : Nat) : Statement (.dequeSpillReturn cluster) := fun h => nomatch h
theorem pressureSample : Statement .pressureSample := fun h => nomatch h
theorem preemptForLaunch (launch : Nat) : Statement (.preemptForLaunch launch) := fun h => nomatch h
theorem teamDrainComplete (team : Nat) : Statement (.teamDrainComplete team) := fun h => nomatch h
theorem teamSave (team : Nat) : Statement (.teamSave team) := fun h => nomatch h
theorem teamRestore (team : Nat) (core : Nat) : Statement (.teamRestore team core) := fun h => nomatch h
theorem ctimeTick : Statement .ctimeTick := fun h => nomatch h
theorem l1Writeback (core : Nat) (line : Nat) : Statement (.l1Writeback core line) := fun h => nomatch h
theorem epochChange (die : Nat) : Statement (.epochChange die) := fun h => nomatch h
theorem coreSleep (core : Nat) : Statement (.coreSleep core) := fun h => nomatch h
theorem coreWake (core : Nat) : Statement (.coreWake core) := fun h => nomatch h
theorem pageWalk (core : Nat) (asid : Nat) (va : Nat) : Statement (.pageWalk core asid va) := fun h => nomatch h
theorem diereset (die : Nat) : Statement (.diereset die) := fun h => nomatch h
theorem dieDrainTimeout (die : Nat) : Statement (.dieDrainTimeout die) := fun h => nomatch h
theorem dieReadmit (die : Nat) : Statement (.dieReadmit die) := fun h => nomatch h
theorem dieLinkFail (die : Nat) : Statement (.dieLinkFail die) := fun h => nomatch h
theorem rtfailClear : Statement .rtfailClear := fun h => nomatch h
theorem tenantEnable (tenant : Nat) : Statement (.tenantEnable tenant) := fun h => nomatch h
theorem tenantPreempt (tenant : Nat) : Statement (.tenantPreempt tenant) := fun h => nomatch h
theorem tenantResume (tenant : Nat) : Statement (.tenantResume tenant) := fun h => nomatch h
theorem tenantReset (tenant : Nat) : Statement (.tenantReset tenant) := fun h => nomatch h
theorem registerWrite (off : Nat) (data : List Byte) : Statement (.registerWrite off data) := fun h => nomatch h
theorem polfelWatchdogReset : Statement .polfelWatchdogReset := fun h => nomatch h
theorem flitReceive (port : Nat) (flit : List Byte) : Statement (.flitReceive port flit) := fun h => nomatch h
theorem portDown (port : Nat) : Statement (.portDown port) := fun h => nomatch h
theorem portRetrain (port : Nat) : Statement (.portRetrain port) := fun h => nomatch h
theorem powerOnBoot : Statement .powerOnBoot := fun h => nomatch h
theorem firmwareUpdate (image : List Byte) (header : FwHeader) : Statement (.firmwareUpdate image header) := fun h => nomatch h
theorem lifecycleChange : Statement .lifecycleChange := fun h => nomatch h
theorem getVersion : Statement .getVersion := fun h => nomatch h
theorem getCapabilities : Statement .getCapabilities := fun h => nomatch h
theorem negotiateAlgorithms : Statement .negotiateAlgorithms := fun h => nomatch h
theorem getDigests : Statement .getDigests := fun h => nomatch h
theorem getCertificate : Statement .getCertificate := fun h => nomatch h
theorem challenge (nonce : List Byte) : Statement (.challenge nonce) := fun h => nomatch h
theorem getMeasurements : Statement .getMeasurements := fun h => nomatch h
theorem redfishRequest (r : Redfish) : Statement (.redfishRequest r) := fun h => nomatch h
theorem eolUpdate (hours : List Nat) : Statement (.eolUpdate hours) := fun h => nomatch h
theorem moduleFatal (e : FatalEvent) : Statement (.moduleFatal e) := fun h => nomatch h
theorem powerLoss (cut : Option (List Byte × FwHeader × FwCut)) : Statement (.powerLoss cut) := fun h => nomatch h
theorem pcieConfigRequest (function : Nat) : Statement (.pcieConfigRequest function) := fun h => nomatch h
theorem pcapThrottle : Statement .pcapThrottle := fun h => nomatch h
end Sys2Proof.Laws.Parse
end

