-- ==== Sys2Proof/Tests/Slice0.lean ====
section
/-!
SUPPORT. Small tests of the model, each on one step or one operation, with expected values from the manual's tables and
examples or worked out from them by hand; and for each claim with hypotheses a witness that meets them.
-/

namespace Sys2Proof.Tests

open Sys2Proof Sys2Proof.Machine

set_option Elab.async false

/-! ### Well-formedness refuses an ill-formed term for each of its checks -/

theorem test_wf_accepts : Instr.wf (.iadd 8 6 4 .i32 .none) = true ∧ Instr.wf (.fence (.f1 { MemMod.zero with order := .acq })) = true
    ∧ Instr.wf (.kset 126 4 .i32 .none) = true ∧ Instr.wf (.guard 0 8 0 true 0 .none) = true := by decide +kernel

/-- Types, codes and fields that the words' own descriptions forbid (R77 to R120). -/
theorem test_wf_refuses_alu : [
    Instr.kset 127 4 .i32 .none, .kset 126 4 .i64 .none, .kset 95 4 .i32 .none, .mov 8 0 .i32 .none, .iadd 8 6 0 .i32 .none,
    .iadd 8 6 4 .f32 .none, .isub 8 6 4 .f64 .none, .iaddDl 8 6 .f32 1 .none, .imulh 8 6 4 .i64 .none, .imad 8 6 4 .i16x2 .none,
    .irem 8 6 4 .f32 .none, .iabs 8 6 .n32 .none, .and 8 6 0 .i32 .none, .andn 8 6 4 .i16x2 .none, .shl 8 6 4 .f32 .none,
    .shli 8 6 false 32 .none, .popc 8 6 .i16x2 .none, .bfx 8 6 4 .i64 .none, .bfi 8 6 4 .n32 .none, .icmp .eq true 1 6 4 .i32 .none,
    .icmpDl .eq true 1 6 .n32 0 .none, .fadd 8 6 4 .i32 .none, .faddDl 8 6 .i64 0 .none, .fsub 8 6 4 .n32 .none,
    .fcmp .eq true 1 6 4 .f32 .none, .fcmpDl .eq true 1 6 .f64 0 .none, .fclass 8 6 .i32 .none, .frsq 8 6 .f64 .none,
    .fcvt 8 6 .f32 .f32 0 .none, .fcvt 8 6 .f16x2 .f32 0 .none, .fcvt 8 6 .f64 .f32 1 .none, .fcvt 8 6 .f16 .f32 2 .none,
    .icvt 8 6 .f32 .i32 true 1 .none, .icvt 8 6 .f16 .i32 true 2 .none, .gscan 8 6 false .add .f64, .gred 8 6 .xor .f32,
    .swrite .clock 6 .none, .fmode true 6 .rtz, .fmode false 6 .rtz].all (fun i => !i.wf) = true := by decide +kernel

/-- The same for memory, synchronisation, context, matrix and engine words (R121 to R324). -/
theorem test_wf_refuses_rest : [
    Instr.st 8 6 .b4 0 .none, .ldc 8 6 .b4 0 .none, .stsb 8 6 .b32 0 .none, .atom 8 6 .f32 .and .none, .atom 8 6 .i32 .inc .none,
    .acas 8 6 .f16x2 .none, .ared 8 6 .i32 .exch .none, .guard 1 8 0 true 0 .none, .fence .none, .bsync 8 0 1 .none .none,
    .barv 8 6 1 .none .none, .lpush 1 1 81 .none, .lpop 1 1 81 .none, .ltrypop 7 1 16 .none, .crsv 8 6 false 1 0 .none,
    .crsv 8 6 false 1 17 .none, .cpub 5 6 0 (.f1 { MemMod.zero with order := .rel }), .crel 5 6 0 .none, .talloc 64 6 5 .q4 .none,
    .tstat 8 64 .none, .mfire 5 1 1 28 .none, .mhad 64 1 .h16 .none, .mqnt 1 64 8 true .none, .mdrain 64 1 .f32 .none,
    .tlbi 6 5 .asid .none, .tlbi 0 5 .all .none].all (fun i => !i.wf) = true := by decide +kernel

/-- Modifier words that a word does not accept (R62 to R67, R80, R121, R161, R244, R310). -/
theorem test_wf_refuses_modifiers : [
    Instr.and 8 6 4 .i32 (.f0 { ArithMod.zero with sat := true }), .iadd 8 6 4 .i32 (.f0 { ArithMod.zero with scale := 1 }),
    .fmin 8 6 4 .f32 (.f0 { ArithMod.zero with clamp := true }), .frnd 8 6 .rne .f32 (.f0 { ArithMod.zero with negb := true }),
    .iadd 8 6 4 .i32 (.f1 MemMod.zero), .ld 8 6 .b32 0 (.f0 ArithMod.zero), .ld 8 6 .b32 0 (.f1 { MemMod.zero with order := .rel }),
    .st 8 6 .b32 0 (.f1 { MemMod.zero with order := .acq }), .ld 8 6 .b32 0 (.f1 { MemMod.zero with scope := .dom }),
    .ldc 8 6 .b32 0 (.f1 { MemMod.zero with hint := .bypass }), .fence (.f1 MemMod.zero),
    .gbcst 8 6 0 (.f0 ArithMod.zero), .xgath 8 6 5 1 (.f3 { EngMod.zero with task := true }),
    .xputs 8 6 true (.f3 { EngMod.zero with shadow := true })].all (fun i => !i.wf) = true := by decide +kernel

/-- Registers, counts and privileges that a kernel does not give (R58, R69, R70, R119, R120). -/
theorem test_legal_refuses :
    let l : Limits := { stream := false, vregs := 10, kregs := 4, bars := 2, lands := 1, sup := false, handler := false }
    Instr.legalIn l (.iadd 9 8 7 .i32 .none) = true ∧ Instr.legalIn l (.iadd 8 126 127 .i64 .none) = false
      ∧ Instr.legalIn { l with kregs := 31 } (.iadd 8 126 127 .i64 .none) = true
      ∧ [Instr.iadd 10 8 7 .i32 .none, .iadd 9 10 7 .i32 .none, .iadd 9 100 7 .i32 .none, .iadd 100 8 7 .i32 .none,
         .iadd 8 7 6 .i64 .none, .bsync 8 6 2 .sum .none, .lseal 1 .none, .swrite .fpc 6 .none, .eret, .tlbi 0 0 .all .none,
         .mclr 1 0 .none, .trapDeliver 0 0].all (fun i => !i.legalIn l) = true
      ∧ [Instr.iadd 32 1 2 .i32 .none, .iadd 8 1 2 .f32 .none, .fadd 8 1 2 .f32 .none, .mfire 31 1 1 2 .none, .gvote 8 1 .count].all
         (fun i => !i.legalIn { l with stream := true }) = true := by decide +kernel

/-! ### Decoding: one word of each constructor, put together from the fields of its row in the opcode table -/

/-- Each list of words decodes to its instruction, all its words read. -/
def decodesTo (l : List (List Word × Instr)) : Bool := l.all fun x => decide (decode x.1 = .ok (x.2, x.1.length))

theorem test_decode_integer : decodesTo [
    ([0x04101820#32], .iadd 8 6 4 .i32 .none),
    ([0x06101821#32], .isub 8 6 4 .n32 .none),
    ([0x08101825#32], .imul 8 6 4 .i64 .none),
    ([0x09101821#32], .imulh 8 6 4 .n32 .none),
    ([0x0A101820#32], .imad 8 6 4 .i32 .none),
    ([0x0B101825#32], .idiv 8 6 4 .i64 .none),
    ([0x0C101821#32], .irem 8 6 4 .n32 .none),
    ([0x0D101827#32], .imin 8 6 4 .i16x2 .none),
    ([0x0E101821#32], .imax 8 6 4 .n32 .none),
    ([0x10101820#32], .and 8 6 4 .i32 .none),
    ([0x11101825#32], .or 8 6 4 .i64 .none),
    ([0x12101821#32], .xor 8 6 4 .n32 .none),
    ([0x13101820#32], .andn 8 6 4 .i32 .none),
    ([0x14101827#32], .shl 8 6 4 .i16x2 .none),
    ([0x15101820#32], .shr 8 6 4 .i32 .none),
    ([0x16101825#32], .sar 8 6 4 .i64 .none),
    ([0x17101821#32], .rotl 8 6 4 .n32 .none),
    ([0x1F101821#32], .bfx 8 6 4 .n32 .none),
    ([0x20101820#32], .bfi 8 6 4 .i32 .none),
    ([0x00000000#32], .nop),
    ([0x01120322#32], .mov 9 100 .f32 .none),
    ([0x021203FE#32], .movi 9 (-2) .none),
    ([0x03C41005#32], .kset 98 4 .i64 .none),
    ([0x05060C01#32], .iaddi 3 3 1 .none),
    ([0x07101825#32], .iaddc 8 6 4 5 .none),
    ([0x0F101807#32], .iabs 8 6 .i16x2 .none),
    ([0x1B101801#32], .popc 8 6 .n32 .none),
    ([0x1C101805#32], .clz 8 6 .i64 .none),
    ([0x1D101800#32], .ctz 8 6 .i32 .none),
    ([0x1E101805#32], .brev 8 6 .i64 .none),
    ([0x18101A21#32], .shli 8 6 true 33 .none),
    ([0x1910181F#32], .shri 8 6 false 31 .none),
    ([0x1A101A3F#32], .sari 8 6 true 63 .none),
    ([0x21961825#32], .icmp .gt true 3 6 4 .i64 .none),
    ([0x22A61A00#32], .icmpi .ge false 3 6 (-512) .none),
    ([0x23101822#32], .sel 8 6 4 2 .none),
    ([0x2410182F#32], .lea 8 6 5 7 .none),
    ([0x01100005#32, 0xDEADBEEF#32], .movDl 8 .i64 0xDEADBEEF .none),
    ([0x04101801#32, 0xDEADBEEF#32], .iaddDl 8 6 .n32 0xDEADBEEF .none),
    ([0x08101801#32, 0xDEADBEEF#32], .imulDl 8 6 .n32 0xDEADBEEF .none),
    ([0x10101801#32, 0xDEADBEEF#32], .andDl 8 6 .n32 0xDEADBEEF .none),
    ([0x11101801#32, 0xDEADBEEF#32], .orDl 8 6 .n32 0xDEADBEEF .none),
    ([0x12101801#32, 0xDEADBEEF#32], .xorDl 8 6 .n32 0xDEADBEEF .none),
    ([0x21241800#32, 0xDEADBEEF#32], .icmpDl .ne false 2 6 .i32 0xDEADBEEF .none)] = true := by decide +kernel

theorem test_decode_float : decodesTo [
    ([0x40101822#32], .fadd 8 6 4 .f32 .none),
    ([0x41101826#32], .fsub 8 6 4 .f64 .none),
    ([0x42101823#32], .fmul 8 6 4 .f16x2 .none),
    ([0x43101824#32], .ffma 8 6 4 .bf16x2 .none),
    ([0x44101822#32], .fmin 8 6 4 .f32 .none),
    ([0x45101826#32], .fmax 8 6 4 .f64 .none),
    ([0x4B101822#32], .fdiv 8 6 4 .f32 .none),
    ([0x47101804#32], .fclass 8 6 .bf16x2 .none),
    ([0x48101802#32], .frcp 8 6 .f32 .none),
    ([0x49101803#32], .frsq 8 6 .f16x2 .none),
    ([0x4A101806#32], .fsqrt 8 6 .f64 .none),
    ([0x4C101802#32], .fexp2 8 6 .f32 .none),
    ([0x4D101804#32], .flog2 8 6 .bf16x2 .none),
    ([0x4E101802#32], .ftanh 8 6 .f32 .none),
    ([0x40101802#32, 0xDEADBEEF#32], .faddDl 8 6 .f32 0xDEADBEEF .none),
    ([0x42101802#32, 0xDEADBEEF#32], .fmulDl 8 6 .f32 0xDEADBEEF .none),
    ([0x44101802#32, 0xDEADBEEF#32], .fminDl 8 6 .f32 0xDEADBEEF .none),
    ([0x45101802#32, 0xDEADBEEF#32], .fmaxDl 8 6 .f32 0xDEADBEEF .none),
    ([0x46F41823#32], .fcmp .ord true 2 6 4 .f16x2 .none),
    ([0x46C41806#32, 0xDEADBEEF#32], .fcmpDl .un false 2 6 .f64 0xDEADBEEF .none),
    ([0x4F101822#32], .frnd 8 6 .rdn .f32 .none),
    ([0x50100D82#32], .fcvt 8 3 .e4m3 .f32 2 .none),
    ([0x50101A1F#32], .fcvt 8 6 .pp8 .e5m2 3 .none),
    ([0x511018DD#32], .icvt 8 6 .bf16 .n64 true 1 .none),
    ([0x51101840#32], .icvt 8 6 .f64 .i32 false 0 .none)] = true := by decide +kernel

theorem test_decode_group : decodesTo [
    ([0x70100411#32, 0xFF40FFFF#32], .gshf 8 1 2 .off (.f2 (-1))),
    ([0x711807FF#32], .gbcst 12 1 1023 .none),
    ([0x72161002#32], .gvote 11 4 .slots),
    ([0x73120C42#32], .gscan 9 3 true .add .f32),
    ([0x74140C10#32], .gred 10 3 .max .i32),
    ([0x78100014#32], .sread 8 .fpc .none),
    ([0x7900180F#32], .swrite .flags 6 .none),
    ([0x7A000002#32], .fmode false 0 .rup),
    ([0x7B001820#32], .carve 6 4)] = true := by decide +kernel

theorem test_decode_memory : decodesTo [
    ([0x80101A40#32], .ld 8 6 .b128 (-64) .none),
    ([0x811018BF#32], .st 8 6 .b16 63 .none),
    ([0x82101981#32], .ldc 8 6 .b64 1 .none),
    ([0x83101A85#32], .stsb 8 6 .b4 5 .none),
    ([0x840018FF#32], .pref 6 true (-1) .none),
    ([0x85101837#32], .atom 8 6 .n64 .inc .none),
    ([0x86101810#32], .acas 8 6 .f32 .none),
    ([0x87101819#32], .ared 8 6 .f16x2 .min .none),
    ([0x890A2033#32], .guard 5 8 6 false 3 .none),
    ([0x89002004#32], .guard 0 8 0 true 0 .none),
    ([0x88000000#32, 0xFF3D0000#32], .fence (.f1 { order := .acqrel, scope := .sys, hint := .normal, guard := Guard.off }))] = true := by decide +kernel

theorem test_decode_sync : decodesTo [
    ([0x90000078#32], .binit 15 .none),
    ([0x9110181C#32], .bsync 8 6 3 .popc .none),
    ([0x92101819#32], .barv 8 6 3 .and .none),
    ([0x93101818#32], .bwait 8 6 3 .none),
    ([0x940A1818#32], .btest 5 6 3 .none),
    ([0x980A1800#32], .lopen 5 6 .none),
    ([0x997B4000#32], .lpush 7 5 80 .none),
    ([0x9A6A4000#32], .lpop 6 5 16 .none),
    ([0x9B6A4000#32], .ltrypop 6 5 16 .none),
    ([0x9C0A0000#32], .lseal 5 .none),
    ([0x9D0A1800#32], .lstat 5 6 .none),
    ([0x9E001800#32], .tspawn 6 .none),
    ([0x9F001800#32], .tdone 6 .none),
    ([0xA00A1800#32], .lcfg 5 6 .none),
    ([0xA16A0000#32], .lfire 6 5 .none),
    ([0xA2101800#32], .hbind 8 6 .none),
    ([0xA3000000#32], .hdone .none)] = true := by decide +kernel

theorem test_decode_context : decodesTo [
    ([0xB0101AD0#32], .crsv 8 6 true 3 16 .none),
    ([0xB10A1840#32], .cwkv 5 6 8 .none),
    ([0xB20A1BFF#32, 0xFF340000#32], .cpub 5 6 1023 (.f1 { order := .rel, scope := .dom, hint := .normal, guard := Guard.off })),
    ([0xB3001800#32, 0xFF2A0000#32], .cacq 6 (.f1 { order := .acq, scope := .clus, hint := .normal, guard := Guard.off })),
    ([0xB4101828#32], .csig 8 6 5),
    ([0xB5101864#32], .catt 8 6 12 4),
    ([0xB6101802#32], .cmrg 8 6 .f32 .none),
    ([0xB70A1BFF#32], .crel 5 6 1023 .none)] = true := by decide +kernel

theorem test_decode_matrix : decodesTo [
    ([0xC07E182C#32], .talloc 63 6 5 .q4 .none),
    ([0xC17E0000#32], .tready 63 .none),
    ([0xC27E0000#32], .tdrain 63 .none),
    ([0xC37E0000#32], .tfree 63 .none),
    ([0xC410FC00#32], .tstat 8 63 .none),
    ([0xC81018BF#32], .mload 8 6 5 31 .none),
    ([0xC908FFB8#32], .mfire 4 63 7 28 .none),
    ([0xCA0AFC02#32], .mhad 5 63 .h64 .none),
    ([0xCB0AFC41#32], .mqnt 5 63 8 true .none),
    ([0xCC7E1C02#32], .mdrain 63 7 .bf16 .none),
    ([0xCD0E0200#32], .mclr 7 (-512) .none),
    ([0xCE101804#32], .mres 8 6 4 .none)] = true := by decide +kernel

theorem test_decode_ring : decodesTo [
    ([0xD110182E#32], .rsadd 8 6 5 { wide := true, slot := 2 } .none),
    ([0xD210182E#32], .rssub 8 6 5 { wide := true, slot := 2 } .none),
    ([0xD310182E#32], .rsmul 8 6 5 { wide := true, slot := 2 } .none),
    ([0xD410182E#32], .rsdiv 8 6 5 { wide := true, slot := 2 } .none),
    ([0xD710182E#32], .rsmax 8 6 5 { wide := true, slot := 2 } .none),
    ([0xD810182E#32], .rsmin 8 6 5 { wide := true, slot := 2 } .none),
    ([0xD910182E#32], .rsuni 8 6 5 { wide := true, slot := 2 } .none),
    ([0xDA10182E#32], .rsint 8 6 5 { wide := true, slot := 2 } .none),
    ([0xDB10182E#32], .rsfrom 8 6 5 { wide := true, slot := 2 } .none),
    ([0xD5101803#32], .rsneg 8 6 { wide := false, slot := 3 } .none),
    ([0xD6101803#32], .rsrec 8 6 { wide := false, slot := 3 } .none),
    ([0xDC101803#32], .rslo 8 6 { wide := false, slot := 3 } .none),
    ([0xDD101803#32], .rshi 8 6 { wide := false, slot := 3 } .none),
    ([0xDF101803#32], .rspack 8 6 { wide := false, slot := 3 } .none),
    ([0xDF10180B#32], .rsunpk 8 6 { wide := false, slot := 3 } .none),
    ([0xD0001806#32], .rsring 6 { wide := true, slot := 2 } .none),
    ([0xDEB6182E#32], .rstest .ge true 3 6 5 { wide := true, slot := 2 } .none)] = true := by decide +kernel

theorem test_decode_engine : decodesTo [
    ([0xE010182C#32, 0xFF79C000#32], .xcopy 8 6 5 .dom (.f3 { bar := some 9, task := true, shadow := true })),
    ([0xE110182B#32], .xgath 8 6 5 3 .none),
    ([0xE2101801#32], .xputs 8 6 true .none),
    ([0xE3101828#32], .xshad 8 6 5),
    ([0xE4001800#32], .xpubb 6)] = true := by decide +kernel

theorem test_decode_flow : decodesTo [
    ([0xF0E40000#32], .bra { en := true, sense := true, pred := 4 } (-262144)),
    ([0xF1E3FFFF#32], .brc true 4 262143),
    ([0xF2001800#32], .brx 6),
    ([0xF3000002#32], .call Guard.off 2),
    ([0xF4001800#32], .callx 6),
    ([0xF5000000#32], .ret),
    ([0xF6000000#32], .reform),
    ([0xF7000000#32], .yield),
    ([0xF8000000#32], .exit),
    ([0xFA000000#32], .eret),
    ([0xF9000005#32], .trap 5),
    ([0xFB001828#32], .tlbi 6 5 .page .none)] = true := by decide +kernel

/-! ### What one step of one placed word does -/

/-- The bits of an instruction's words, the first lowest. -/
def bitsOf (l : List Word) : Nat := l.foldr (fun w n => w.toNat + 2 ^ 32 * n) 0

/-- The thread, or stream, that a state's first group issues for. -/
def theTid (s : State) : Nat := (s.groups.head?.bind (·.slots.head?)).getD 0

/-- A placed word, with registers and bytes of memory preset. -/
def placed (i : Instr) (rs : List (Nat × Nat)) (ms : List (Nat × List Byte)) : State :=
  let s := State.reset.withFetchWord (32 * (encode i).length) (bitsOf (encode i))
  let s := { s with mem := ms.foldl (fun m x => cellsSet m x.1 x.2) s.mem }
  rs.foldl (fun s r => s.modThread 0 (theTid s) (·.write r.1 (BitVec.ofNat 64 r.2))) s

/-- The next state of a step, or the state itself where there is none. -/
def after (s : State) : State := match step s with | .next t => t | _ => s

/-- A state's team 0. -/
def team0 (s : State) : Team := (s.team? 0).getD (placeTeam s false false false 0)

/-- A thread of team 0. -/
def thr (s : State) (tid : Nat) : Thread := ((team0 s).thread? tid).getD (Thread.start 0 false 0 0 0)

/-- What a step does to a thread: the results in flight if there are any, else the registers and predicates that changed;
and the flags. -/
def effect (s : State) (tid : Nat) : List (Nat × Nat) × List (Nat × Bool) × Nat :=
  let h := thr s tid
  let k := thr (after s) tid
  match k.pend with
  | p :: _ => (p.regs.map fun r => (r.idx, r.val.toNat), p.preds.map fun r => (r.idx, r.val), p.flags.toNat)
  | [] => ((List.range 96).filterMap fun j => if k.raw j = h.raw j then none else some (j, (k.raw j).toNat),
      (List.range 8).filterMap fun j => if k.rawPred j = h.rawPred j then none else some (j, k.rawPred j), k.flags.toNat)

/-- Each word, with its registers preset, has its effect. -/
def gives (l : List (Instr × List (Nat × Nat) × (List (Nat × Nat) × List (Nat × Bool) × Nat))) : Bool :=
  l.all fun x => let s := placed x.1 x.2.1 []; decide (effect s (theTid s) = x.2.2)

/-- A form-0 modifier with SAT. -/
def withSat : Mods := .f0 { ArithMod.zero with sat := true }

/-- What an instruction leaves passes a check. -/
def leaves (i : Instr) (s : State) (f : State → Bool) : Bool := match exec i s with | .next t => f t | _ => false

/-- R81 to R85, R91: sums wrap or saturate, the carry goes to its predicate, quotients truncate, a zero divisor raises DZ. -/
theorem test_integer_arithmetic : gives [
    (.iadd 8 6 4 .i32 .none, [(6, 0x7FFFFFFF), (4, 1)], [(8, 0x80000000)], [], 0),
    (.iadd 8 6 4 .i32 withSat, [(6, 0x7FFFFFFF), (4, 1)], [(8, 0x7FFFFFFF)], [], 32),
    (.iadd 8 6 4 .i16x2 .none, [(6, 0x7FFFFFFF), (4, 0x00010001)], [(8, 0x80000000)], [], 0),
    (.iaddDl 8 6 .i64 0xFFFFFFFF .none, [(6, 5), (7, 1)], [(8, 4), (9, 1)], [], 0),
    (.iaddi 8 6 (-2) .none, [(6, 1)], [(8, 0xFFFFFFFF)], [], 0),
    (.isub 8 6 4 .n32 withSat, [(6, 1), (4, 2)], [], [], 32),
    (.isub 8 6 4 .i64 .none, [(7, 1), (4, 1)], [(8, 0xFFFFFFFF)], [], 0),
    (.imul 8 6 4 .n32 withSat, [(6, 0x10000), (4, 0x10000)], [(8, 0xFFFFFFFF)], [], 32),
    (.imulDl 8 6 .i32 3 .none, [(6, 0xFFFFFFFF)], [(8, 0xFFFFFFFD)], [], 0),
    (.imulh 8 6 4 .n32 .none, [(6, 0xFFFFFFFF), (4, 0xFFFFFFFF)], [(8, 0xFFFFFFFE)], [], 0),
    (.imulh 8 6 4 .i32 .none, [(6, 0xFFFFFFFF), (4, 2)], [(8, 0xFFFFFFFF)], [], 0),
    (.imad 8 6 4 .i32 .none, [(6, 3), (4, 5), (8, 2)], [(8, 17)], [], 0),
    (.iaddc 8 6 4 2 .none, [(6, 0xFFFFFFFF), (4, 1)], [], [(2, true)], 0),
    (.idiv 8 6 4 .i32 .none, [(6, 0xFFFFFFF9), (4, 2)], [(8, 0xFFFFFFFD)], [], 0),
    (.idiv 8 6 4 .n32 .none, [(6, 7)], [(8, 0xFFFFFFFF)], [], 8),
    (.irem 8 6 4 .i32 .none, [(6, 0xFFFFFFF9), (4, 2)], [(8, 0xFFFFFFFF)], [], 0),
    (.irem 8 6 4 .n32 .none, [(6, 7)], [(8, 7)], [], 8),
    (.imin 8 6 4 .i32 .none, [(6, 0xFFFFFFFF), (4, 1)], [(8, 0xFFFFFFFF)], [], 0),
    (.imax 8 6 4 .n32 .none, [(6, 0xFFFFFFFF), (4, 1)], [(8, 0xFFFFFFFF)], [], 0),
    (.iabs 8 6 .i32 .none, [(6, 0x80000000)], [(8, 0x80000000)], [], 0),
    (.iabs 8 6 .i32 withSat, [(6, 0x80000000)], [(8, 0x7FFFFFFF)], [], 32),
    (.movDl 8 .i64 0xFFFFFFFE .none, [], [(8, 0xFFFFFFFE), (9, 0xFFFFFFFF)], [], 0),
    (.movDl 8 .f64 0x3F800000 .none, [], [(9, 0x3FF00000)], [], 0),
    (.movi 8 (-512) .none, [], [(8, 0xFFFFFE00)], [], 0),
    (.mov 8 6 .i64 .none, [(6, 1), (7, 2)], [(8, 1), (9, 2)], [], 0),
    (.lea 8 6 5 3 .none, [(6, 8), (5, 0xFFFFFFFF)], [], [], 0),
    (.sel 8 6 4 7 .none, [(6, 1), (4, 2)], [(8, 1)], [], 0),
    (.nop, [(6, 1)], [], [], 0)] = true := by decide +kernel

/-- R86 to R90: shift counts are taken modulo the width, a field past bit 31 counts only inside, relations follow the type. -/
theorem test_integer_bits : gives [
    (.and 8 6 4 .i32 .none, [(6, 12), (4, 10)], [(8, 8)], [], 0), (.or 8 6 4 .i32 .none, [(6, 12), (4, 10)], [(8, 14)], [], 0),
    (.xor 8 6 4 .i32 .none, [(6, 12), (4, 10)], [(8, 6)], [], 0), (.andn 8 6 4 .i32 .none, [(6, 12), (4, 10)], [(8, 4)], [], 0),
    (.andDl 8 6 .i32 0xF0 .none, [(6, 0x1FF)], [(8, 0xF0)], [], 0), (.orDl 8 6 .i32 0xF0 .none, [(6, 1)], [(8, 0xF1)], [], 0),
    (.xorDl 8 6 .i64 0xFFFFFFFF .none, [(6, 1)], [(8, 0xFFFFFFFE), (9, 0xFFFFFFFF)], [], 0),
    (.shl 8 6 4 .i32 .none, [(6, 1), (4, 33)], [(8, 2)], [], 0), (.shl 8 6 4 .i16x2 .none, [(6, 0x00018001), (4, 0x00040001)], [(8, 0x00100002)], [], 0),
    (.shr 8 6 4 .i32 .none, [(6, 0x80000000), (4, 31)], [(8, 1)], [], 0), (.sar 8 6 4 .i32 .none, [(6, 0x80000000), (4, 31)], [(8, 0xFFFFFFFF)], [], 0),
    (.rotl 8 6 4 .i32 .none, [(6, 0x80000001), (4, 4)], [(8, 0x18)], [], 0),
    (.shli 8 6 true 33 .none, [(6, 1)], [(9, 2)], [], 0), (.shri 8 6 true 33 .none, [(7, 2)], [(8, 1)], [], 0),
    (.sari 8 6 false 31 .none, [(6, 0x80000000)], [(8, 0xFFFFFFFF)], [], 0),
    (.popc 8 6 .i64 .none, [(6, 0xFF), (7, 1)], [(8, 9)], [], 0), (.clz 8 6 .i32 .none, [], [(8, 32)], [], 0),
    (.ctz 8 6 .i32 .none, [(6, 8)], [(8, 3)], [], 0), (.brev 8 6 .i32 .none, [(6, 1)], [(8, 0x80000000)], [], 0),
    (.bfx 8 6 4 .n32 .none, [(6, 0xF0000000), (4, 0x81C)], [(8, 0xF)], [], 0),
    (.bfx 8 6 4 .i32 .none, [(6, 0x80), (4, 0x404)], [(8, 0xFFFFFFF8)], [], 0),
    (.bfi 8 6 4 .i32 .none, [(8, 0xFFFFFFFF), (6, 5), (4, 0x404)], [(8, 0xFFFFFF5F)], [], 0),
    (.icmp .lt false 3 6 4 .i32 .none, [(6, 0xFFFFFFFF), (4, 1)], [], [(3, true)], 0),
    (.icmp .lt false 3 6 4 .n32 .none, [(6, 0xFFFFFFFF), (4, 1)], [], [], 0),
    (.icmpDl .ge true 3 6 .i64 0xFFFFFFFF .none, [(7, 0xFFFFFFFF), (6, 0xFFFFFFFF)], [], [(3, true)], 0),
    (.icmpi .gt false 3 6 (-1) .none, [], [], [(3, true)], 0)] = true := by decide +kernel

/-- A form-0 modifier with a scale. -/
def scaled (k : BitVec 5) : Mods := .f0 { ArithMod.zero with scale := k }

/-- R92 to R99: one rounding, with its flags; signed zeros, infinities and NaNs; CLAMP; a guard that is false does nothing. -/
theorem test_float_words : gives [
    (.fadd 8 6 4 .f32 .none, [(6, 0x3F800000), (4, 0x33800000)], [(8, 0x3F800000)], [], 1),
    (.fadd 8 6 4 .f32 (scaled 1), [(6, 0x3F800000), (4, 0x40000000)], [(8, 0x40C00000)], [], 0),
    (.faddDl 8 6 .f32 0xFF800000 .none, [(6, 0x7F800000)], [(8, 0x7FC00000)], [], 16),
    (.fsub 8 6 4 .f16x2 .none, [(6, 0x3C004000), (4, 0x3C003C00)], [(8, 0x00003C00)], [], 0),
    (.fmul 8 6 4 .f32 .none, [(6, 0x7F000000), (4, 0x7F000000)], [(8, 0x7F800000)], [], 5),
    (.fmul 8 6 4 .f32 withSat, [(6, 0x7F000000), (4, 0x7F000000)], [(8, 0x7F7FFFFF)], [], 33),
    (.fmulDl 8 6 .bf16x2 0x40004000 .none, [(6, 0x3F803F80)], [(8, 0x40004000)], [], 0),
    (.ffma 8 6 4 .f32 .none, [(6, 0x3F800001), (4, 0x3F800001), (8, 0xBF800002)], [(8, 0x28800000)], [], 0),
    (.ffma 8 6 4 .f32 (.f0 { ArithMod.zero with clamp := true }), [(6, 0x40000000), (4, 0x40000000)], [(8, 0x3F800000)], [], 0),
    (.fmin 8 6 4 .f32 .none, [(4, 0x80000000)], [(8, 0x80000000)], [], 0),
    (.fmax 8 6 4 .f32 .none, [(4, 0x80000000), (8, 5)], [(8, 0)], [], 0),
    (.fminDl 8 6 .f32 0x40000000 .none, [(6, 0x7FC00000)], [(8, 0x40000000)], [], 0),
    (.fmaxDl 8 6 .f32 0x40000000 .none, [(6, 0x3F800000)], [(8, 0x40000000)], [], 0),
    (.fcmp .lt false 3 6 4 .f32 .none, [(6, 0x7FC00000), (4, 0x3F800000)], [], [], 16),
    (.fcmp .eq true 3 6 4 .f16x2 .none, [(6, 0x3C004000), (4, 0x3C003C00)], [], [(3, true)], 0),
    (.fcmpDl .le false 3 6 .f64 0x3F800000 .none, [(7, 0x3FE00000)], [], [(3, true)], 0),
    (.fclass 8 6 .f32 .none, [(6, 0x80000000)], [(8, 8)], [], 0),
    (.frcp 8 6 .f32 .none, [], [(8, 0x7F800000)], [], 8),
    (.fsqrt 8 6 .f32 .none, [(6, 0xBF800000)], [(8, 0x7FC00000)], [], 16),
    (.fsqrt 8 6 .f64 .none, [(7, 0x40100000)], [(8, 0), (9, 0x40000000)], [], 0),
    (.frsq 8 6 .f32 .none, [(6, 0x40800000)], [(8, 0x3F000000)], [], 0),
    (.fdiv 8 6 4 .f32 .none, [(6, 0x3F800000), (4, 0x40400000)], [(8, 0x3EAAAAAB)], [], 1),
    (.fexp2 8 6 .f32 .none, [(6, 0x40400000)], [(8, 0x41000000)], [], 0),
    (.flog2 8 6 .f32 .none, [(6, 0x41000000)], [(8, 0x40400000)], [], 0),
    (.ftanh 8 6 .f32 .none, [(6, 0x7F800000)], [(8, 0x3F800000)], [], 0),
    (.frnd 8 6 .rne .f32 .none, [(6, 0x40200000)], [(8, 0x40000000)], [], 0),
    (.fadd 8 6 4 .f32 (.f0 { ArithMod.zero with guard := { en := true, sense := false, pred := 7 } }), [(6, 0x7F800000), (4, 0xFF800000)],
      [], [], 0)] = true := by decide +kernel

/-- The three rows of R100's table, to each narrow format, and R101. -/
theorem test_conversions : gives [
    (.fcvt 8 6 .e4m3 .f32 0 .none, [(6, 0x3F800000)], [(8, 0x38)], [], 0), (.fcvt 8 6 .e5m2 .f32 0 .none, [(6, 0x3F800000)], [(8, 0x3C)], [], 0),
    (.fcvt 8 6 .pp8 .f32 0 .none, [(6, 0x3F800000)], [(8, 0x11)], [], 0), (.fcvt 8 6 .e4m3 .f32 0 .none, [(6, 0x3E99999A)], [(8, 0x2A)], [], 1),
    (.fcvt 8 6 .e5m2 .f32 0 .none, [(6, 0x3E99999A)], [(8, 0x35)], [], 1), (.fcvt 8 6 .pp8 .f32 0 .none, [(6, 0x3E99999A)], [(8, 0x24)], [], 1),
    (.fcvt 8 6 .e4m3 .f32 0 .none, [(6, 0x43FA0000)], [(8, 0x7E)], [], 33), (.fcvt 8 6 .e5m2 .f32 0 .none, [(6, 0x43FA0000)], [(8, 0x60)], [], 1),
    (.fcvt 8 6 .pp8 .f32 0 .none, [(6, 0x43FA0000), (8, 1)], [(8, 0)], [], 33),
    (.fcvt 8 3 .e4m3 .f32 2 .none, [(3, 0x3F800000), (8, 0x11223344)], [(8, 0x11383344)], [], 0),
    (.fcvt 8 6 .f32 .bf16 1 .none, [(6, 0x40000000)], [(8, 0x40000000)], [], 0),
    (.icvt 8 6 .f32 .i32 true 0 .none, [(6, 0x3F800000)], [(8, 1)], [], 0), (.icvt 8 6 .f32 .i32 true 0 .none, [(6, 0x4F000000)], [(8, 0x7FFFFFFF)], [], 16),
    (.icvt 8 6 .f32 .n32 true 0 .none, [(6, 0xBF800000), (8, 3)], [(8, 0)], [], 16),
    (.icvt 8 6 .f32 .i32 false 0 (.f0 { ArithMod.zero with absa := true }), [(6, 0x80000000)], [(8, 0x4F000000)], [], 0)] = true := by decide +kernel

/-! ### Group words on the team of R106's example 1 -/

/-- Example 1 of R106: a team of 8 threads, 4 in another group and 7 gone. -/
def example1 (i : Instr) : State :=
  let s := placed i [] []
  let h := thr s 0
  let one := fun n => ([(1, 10 * n), (2, 1), (3, n + 1), (4, n % 2), (14, 0x20001)].foldl (fun h r => h.write r.1 (BitVec.ofNat 64 r.2))
    { h with tid := n, status := if n = 4 then .ready else if n = 7 then .exited else .issuing })
  { s with teams := s.teams.map fun tm => { tm with kern := { tm.kern with threads := 8 }, threads := (List.range 8).map one }
           groups := s.groups.map fun g => { g with slots := [0, 1, 2, 3, 5, 6] } }

/-- What each thread of the example's group gets in the word's destination. -/
def got (i : Instr) : List Nat := [0, 1, 2, 3, 5, 6].map fun tid => ((effect (example1 i) tid).1.head?.map (·.2)).getD 12345

/-- R103 to R106: the table of example 1. -/
theorem test_group_words :
    got (.gshf 8 1 2 .off (.f2 (-1))) = [10, 20, 30, 0xFFFFFFFF, 60, 0xFFFFFFFF] ∧ got (.gshf 13 1 14 .rot .none) = [10, 20, 30, 0, 60, 0]
    ∧ got (.gshf 17 1 2 .rev .none) = [10, 0, 30, 20, 0, 0] ∧ got (.gscan 9 3 true .add .i32) = [0, 1, 3, 6, 10, 16]
    ∧ got (.gred 10 3 .max .i32) = [7, 7, 7, 7, 7, 7] ∧ got (.gvote 15 4 .count) = [3, 3, 3, 3, 3, 3]
    ∧ got (.gvote 16 4 .below) = [0, 0, 1, 1, 2, 3] ∧ got (.gvote 11 4 .slots) = [26, 26, 26, 26, 26, 26]
    ∧ got (.gvote 18 2 .same) = [1, 1, 1, 1, 1, 1] ∧ got (.gvote 19 4 .first) = [1, 1, 1, 1, 1, 1]
    ∧ got (.gbcst 12 1 4 .none) = [0, 0, 0, 0, 0, 0] := by decide +kernel

/-! ### Special registers, the rounding mode, uniform registers, carve-outs -/

/-- R70, R71, R81, R107 to R110, R118. -/
theorem test_registers :
    gives [(.sread 8 .ntid .none, [], [(8, 1)], [], 0), (.sread 8 .asid .none, [], [(8, 1)], [], 0), (.swrite .flags 6 .none, [(6, 0xFF)], [], [], 63)] = true
    ∧ (thr (after (placed (.fmode false 0 .rup) [] [])) 0).rm = .rup ∧ (thr (after (placed (.fmode true 6 .rne) [(6, 7)] [])) 0).rm = .rdn
    ∧ (team0 (after (placed (.kset 98 4 .i64 .none) [(4, 1), (5, 2)] []))).k.take 4 = [0, 0, 1, 2]
    ∧ (let s := (placed (.carve 6 4) [(6, 8), (4, 8192)] []).modTeam 0 fun tm => { tm with slotLen := 0x100000 }
       (team0 (after s)).vregs = 8 ∧ (team0 (after s)).scratch = 8192 ∧ (thr (after s) 0).v.length = 8) := by decide +kernel


/-! ### Witnesses: for each claim with hypotheses, a state and operands that meet them -/

/-- A state in which a NOP is placed, and its group. -/
def S0 : State := placed .nop [] []
/-- The group of `S0`. -/
def G0 : Group := (S0.groups.head?).getD { ctl := false, unit := 0, pipe := 0, team := 0, handler := false, header := 0, idx := 0, words := [], slots := [] }

theorem S0_groups : S0.groups = [G0] := by rfl

/-- The team and the thread of `S0` are found, and the thread is active under every word without a guard. -/
theorem S0_thread : S0.team? G0.team = some (team0 S0) ∧ (team0 S0).thread? 0 = some (thr S0 0) ∧ S0.active G0 .none = [0] := by decide +kernel

theorem wit_IntArithmetic : S0.groups = [G0] ∧ modSat .none = false ∧ modSat withSat = true ∧ ElemTy.isInt4 .i16x2 = true
    ∧ ElemTy.isInt3 .n32 = true := ⟨S0_groups, by decide, by decide, by decide, by decide⟩

theorem wit_MinMaxAbsHighCarryDivision : S0.groups = [G0] ∧ modSat .none = false ∧ modSat withSat = true ∧ ElemTy.isInt4 .i32 = true
    ∧ ElemTy.isInt3 .i64 = true ∧ ElemTy.i16x2 ≠ .n32 := ⟨S0_groups, by decide, by decide, by decide, by decide, by decide⟩

theorem wit_BitwiseWordsAndShifts : S0.groups = [G0] ∧ ElemTy.isInt3 .n32 = true ∧ ElemTy.isInt4 .i16x2 = true
    ∧ (true = true ∨ (63#6).toNat < 32) ∧ (false = true ∨ (31#6).toNat < 32) :=
  ⟨S0_groups, by decide, by decide, by decide, by decide⟩

theorem wit_BitCountsAndFields : S0.groups = [G0] ∧ ElemTy.isInt3 .i64 = true := ⟨S0_groups, by decide⟩

theorem wit_CompareMoveSelect : S0.groups = [G0] ∧ ElemTy.isInt3 .n32 = true := ⟨S0_groups, by decide⟩

theorem wit_RegistersHoldWrites : (thr S0 0).ctl = false ∧ 0 < (thr S0 0).v.length ∧ 95 < (thr S0 0).v.length
    ∧ (let c := Thread.start tidCtl true 0 0 0; c.ctl = true ∧ 0 < c.c.length ∧ 31 < c.c.length) ∧ (0 < 8 ∧ 7 < 8) := by decide +kernel

theorem wit_SpecialRegisters : S0.groups = [G0] := S0_groups

/-- KSET at both ends of the k registers; a CARVE with a stream, one that waits for a second thread, and one that takes
effect, with the least and the greatest sizes. -/
theorem wit_TeamRegistersAndCarve : S0.groups = [G0] ∧ 96 ≤ (96 : Code).toNat ∧ 96 ≤ (126 : Code).toNat
    ∧ (team0 (placed (.mclr 1 0 .none) [] [])).hasStream = true
    ∧ (let s1 := S0.block G0 0 (.carve 1 0)
       let x := team0 s1
       x.liveThreads ≠ [] ∧ (∀ y ∈ x.liveThreads, y.carving = some (1, 0)) ∧ s1.scrBusy x = false
         ∧ slotBytes 1 (loadOf 1 1 0 16 8).granules ≤ 0x100000 ∧ slotBytes 1 (loadOf 1 96 1441792 16 8).granules ≤ 0x1000000)
    ∧ (let s1 := (S0.modTeam 0 fun tm => { tm with threads := tm.threads ++ [{ thr S0 0 with tid := 1 }] }).block G0 0 (.carve 1 0)
       (team0 s1).liveThreads.any (·.carving.isNone) = true) := ⟨S0_groups, by decide +kernel⟩

theorem wit_FloatWordsComplete : S0.groups = [G0] ∧ ElemTy.isFloat .bf16x2 = true ∧ ElemTy.f32 ≠ .f64 := ⟨S0_groups, by decide, by decide⟩

/-- Finite operands; sums and products that are not 0, and a sum of 0. -/
theorem wit_FloatResultsRoundOnce : fmtF32 ∈ arithFmts ∧ fmtF32.unpack 0x3F800000 = .fin false 0x800000 (-23)
    ∧ fmtF32.unpack 0xBF800000 = .fin true 0x800000 (-23)
    ∧ (Num.fin false 0x800000 (-23)).toReal = 1 ∧ (Num.fin true 0x800000 (-23)).toReal = -1 := by
  refine ⟨by simp [arithFmts], by decide +kernel, by decide +kernel, ?_, ?_⟩ <;> norm_num [Num.toReal]

theorem wit_RoundingFollowsItsMode : fmtE5m2 ∈ fmtE5m2 :: arithFmts ∧ fmtF64 ∈ fmtE5m2 :: arithFmts ∧ (1 : Nat) ≠ 0 :=
  ⟨by simp, by simp [arithFmts], by decide⟩

/-- A quiet and a signalling NaN, both infinities, both zeros, a number of each sign. -/
theorem wit_FloatSpecialOperands : fmtF32 ∈ arithFmts ∧ (fmtF32.unpack 0x7FC00000).isNan = true ∧ (fmtF32.unpack 0x7F800001).isSnan = true
    ∧ fmtF32.unpack 0x7F800000 = .inf false ∧ fmtF32.unpack 0xFF800000 = .inf true ∧ (fmtF32.unpack 0).isZero = true
    ∧ (fmtF32.unpack 0x80000000).isZero = true ∧ (fmtF32.unpack 0x3F800000).isNan = false ∧ (fmtF32.unpack 0x3F800000).isFin = true
    ∧ (fmtF32.unpack 0x3F800000).isZero = false ∧ (fmtF32.unpack 0xBF800000).neg = true
    ∧ fmtF32.unpack 0xFF800000 = .inf (false == (fmtF32.unpack 0x3F800000).neg) ∧ (fmtF32.unpack 0xFF800000).isNan = false := by
  refine ⟨by simp [arithFmts], ?_⟩
  decide +kernel

/-- FFMA (R92, R94): a NaN in x or y, quieted; 0 · ∞ plus a number; ∞ − ∞; and an integer rounded to a float (R101). -/
theorem test_ffma_corners : let o : FOp := { rm := .rne, sat := false, scale := 0 }
    fmtF32.fma o 0x7F800001 0 0 = (0x7FC00001, 16) ∧ fmtF32.fma o 0x3F800000 0x7FC00005 0x7F800001 = (0x7FC00005, 16)
      ∧ fmtF32.fma o 0 0x7F800000 0x3F800000 = (0x7FC00000, 16) ∧ fmtF32.fma o 0x7F800000 0x3F800000 0xFF800000 = (0x7FC00000, 16)
      ∧ intToFloat fmtF32 o 0x1000001 = (0x4B800000, 1) ∧ intToFloat fmtF32 o (-3) = (0xC0400000, 0) := by decide +kernel

theorem wit_FloatOrderAndTests : fmtF16 ∈ arithFmts ∧ 0xFFFF < 2 * fmtF16.signBit ∧ (fmtF16.unpack 0x3C00).isNan = false
    ∧ (fmtF16.unpack 0x7E00).isNan = true ∧ S0.groups = [G0] ∧ ElemTy.isFloat .f16x2 = true
    ∧ (fmtF16.unpack 0x3C00).toEReal ≠ (fmtF16.unpack 0).toEReal ∧ (fmtF16.unpack 0x8000).toEReal = (fmtF16.unpack 0).toEReal := by
  have a : fmtF16.unpack 0x3C00 = .fin false 1024 (-10) := by decide +kernel
  have b : fmtF16.unpack 0 = .fin false 0 (-24) := by decide +kernel
  have c : fmtF16.unpack 0x8000 = .fin true 0 (-24) := by decide +kernel
  refine ⟨by simp [arithFmts], by decide +kernel, by decide +kernel, by decide +kernel, S0_groups, by decide, ?_, ?_⟩
  · rw [a, b]; norm_num [Num.toEReal, Num.toReal]
  · rw [b, c]; norm_num [Num.toEReal, Num.toReal]

/-- Packed, scalar and 64-bit sources; floats within and beyond the limits of an integer, a tie, a NaN and an infinity; sources of
each byte format, signalling and quiet NaNs, and numbers at, beyond and within the limit of PP8. -/
theorem wit_Conversions : S0.groups = [G0] ∧ FFmt.isPacked .f16x2 = true ∧ FFmt.isPacked .e4m3 = false ∧ FFmt.f32 ≠ .f64
    ∧ fmtF32 ∈ arithFmts ∧ (1 : Nat) < 32 ∧ (fmtF32.unpack 0x7FC00000).isNan = true ∧ (fmtF32.unpack 0x3FC00000).isFin = true
    ∧ fmtF32.unpack 0xFF800000 = .inf true ∧ (fmtF32.unpack 0x4F000000).isFin = true ∧ (fmtF32.unpack 0xCF800000).isFin = true
    ∧ (numOf .pp8 0xFF).isFin = true ∧ 0xFF < 256 ∧ (numOf .e4m3 0x7F).isNan = true ∧ 0x7F < 2 * fmtE4m3.signBit ∧ (numOf .e5m2 0x7D).isSnan = true
    ∧ numOf .e5m2 0xFC = .inf true ∧ 0xFC < 2 * fmtE5m2.signBit ∧ ffmt .pp8 = none ∧ ffmt .e4m3 = some fmtE4m3
    ∧ numOf .f32 0x40000000 = .fin false 0x800000 (-22) ∧ numOf .f32 0x40000001 = .fin false 0x800001 (-22) ∧ (numOf .f32 0x80000000).isFin = true := by
  refine ⟨S0_groups, by decide, by decide, by decide, by simp [arithFmts], ?_⟩
  decide +kernel

theorem wit_GroupWords : S0.groups = [G0] ∧ Machine.guardOf (.f2 5) = Guard.off
    ∧ (ElemTy.isInt3 .f32 = true ∨ ElemTy.f32 = .f32 ∧ (FoldOp.max = .add ∨ FoldOp.max = .min ∨ FoldOp.max = .max))
    ∧ (ElemTy.isInt3 .i64 = true ∨ ElemTy.i64 = .f32 ∧ (FoldOp.xor = .add ∨ FoldOp.xor = .min ∨ FoldOp.xor = .max)) :=
  ⟨S0_groups, by decide, by decide, by decide⟩

/-- Words with a register, a pair, a predicate and both as their destinations, at once and in flight; a thread in which one runs. -/
theorem wit_ComputingWordsFrame : S0.groups = [G0] ∧ S0.team? 0 = some (team0 S0) ∧ (team0 S0).thread? 0 = some (thr S0 0)
    ∧ runsIn S0 G0 .none (team0 S0) (thr S0 0) = true
    ∧ computes (.movi 8 5 .none) = some ⟨some (8, false), none, false⟩ ∧ Instr.wf (.movi 8 5 .none) = true
    ∧ computes (.iadd 8 6 4 .i64 .none) = some ⟨some (8, true), none, false⟩ ∧ Instr.wf (.iadd 8 6 4 .i64 .none) = true
    ∧ computes (.icmp .eq false 1 6 4 .i32 .none) = some ⟨none, some 1, false⟩ ∧ Instr.wf (.icmp .eq false 1 6 4 .i32 .none) = true
    ∧ computes (.iaddc 8 6 4 1 .none) = some ⟨some (8, false), some 1, false⟩ ∧ Instr.wf (.iaddc 8 6 4 1 .none) = true
    ∧ computes (.gvote 8 3 .count) = some ⟨some (8, false), none, true⟩ ∧ Instr.wf (.gvote 8 3 .count) = true :=
  ⟨S0_groups, by decide +kernel⟩

/-! ### One step of the words that reach memory, transfer control or change a team's units -/

/-- What a thread's word leaves in flight, with registers and memory preset: its register results, predicates and flags. -/
def runs (i : Instr) (rs : List (Nat × Nat)) (ms : List (Nat × List Byte)) (f : List (Nat × Nat) × List (Nat × Bool) × Nat → State → Bool) : Bool :=
  let s := placed i rs ms
  f (effect s (theTid s)) (after s)

/-- The fault code and detail that a word's thread traps with. -/
def trapsWith (i : Instr) (rs : List (Nat × Nat)) (ms : List (Nat × List Byte)) : Option (Nat × Nat × Bool) :=
  let s := placed i rs ms
  match (thr (after s) (theTid s)).status with | .trapped u => some (u.cause.toNat, u.detail.toNat, u.write) | _ => none

/-- R121 to R131: loads extend and keep byte order, the offset is scaled, a misaligned address traps; stores write their bytes, an
atomic returns the old value, a compare-and-swap that fails stores nothing. -/
theorem test_memory_words :
    runs (.ld 8 4 .b32 1 .none) [(4, 0x300000)] [(0x300004, [1, 2, 3, 4])] (fun e _ => e.1 == [(8, 0x04030201)])
    ∧ runs (.ld 8 4 .b64 127 .none) [(4, 0x300008)] [(0x300000, [1, 0, 0, 0, 2])] (fun e _ => e.1 == [(8, 1), (9, 2)])
    ∧ trapsWith (.ld 8 4 .b32 0 .none) [(4, 0x300002)] [] = some (2, 0, false)
    ∧ trapsWith (.ld 8 4 .b32 0 .none) [(5, 1)] [] = some (3, 2, false)
    ∧ runs (.st 8 4 .b32 0 .none) [(4, 0x300000), (8, 0x04030201)] [] (fun _ t => (List.range 5).map (fun i => (t.dirtyByte 0 (0x300000 + i)).getD 0) == [1, 2, 3, 4, 0])
    ∧ runs (.atom 8 6 .i32 .add .none) [(4, 0), (6, 0x300000), (8, 5)] [(0x300000, [7])] (fun e t => e.1 == [(8, 7)] && cellGet 0x300000 t.mem == 12)
    ∧ runs (.acas 8 6 .i32 .none) [(6, 0x300000), (8, 5), (9, 6)] [(0x300000, [7])] (fun e t => e.1 == [(8, 7)] && cellGet 0x300000 t.mem == 7) := by decide +kernel

/-- R61, R111 to R115: offset 0 is the branch's own clause and offset 4 the one 16 bytes on; a call pushes the clause that follows; a
return pops it, and from an empty stack traps STACK with DETAIL 2; a BRX to an odd address traps ALIGN. -/
theorem test_control_transfers :
    runs (.bra { en := false, sense := false, pred := 0 } 0) [] [] (fun _ t => (thr t 0).pc == 0x200040)
    ∧ runs (.bra { en := true, sense := true, pred := 1 } 0) [] [] (fun _ t => (thr t 0).pc == 0x200050)
    ∧ runs (.call { en := false, sense := false, pred := 0 } (-4)) [] [] (fun _ t => (thr t 0).pc == 0x200030 && (thr t 0).stack == [0x200050])
    ∧ runs (.brx 6) [(6, 0x300000)] [] (fun _ t => (thr t 0).pc == 0x300000) ∧ trapsWith (.brx 6) [(6, 0x300002)] [] = some (2, 0, false)
    ∧ trapsWith .ret [] [] = some (15, 2, false) ∧ runs .exit [] [] (fun _ t => decide ((thr t 0).status = .exited)) := by decide +kernel

/-- R137, R138: the one member's arrival completes its phase at once: BARV gives the token of phase 0 and DONE1 the sum; BTEST of a phase
that is complete. -/
theorem test_barriers :
    runs (.barv 8 6 15 .sum .none) [(6, 5)] [] (fun e t => e.1 == [(8, 0)] && ((team0 t).bar 15).phase == 1 && ((team0 t).bar 15).done1 == 5)
    ∧ runs (.bsync 8 6 15 .sum .none) [(6, 5)] [] (fun e t => e.1 == [(8, 5)] && ((team0 t).bar 15).phase == 1) := by decide +kernel

/-! ### Premises that name the result of an operation, as checks that compute -/

/-- An operation answers, and the state it leaves and its answer pass a check. -/
def isOk {ε α : Type} (x : State × Except ε α) (f : State → α → Bool) : Bool := match x with | (s, .ok a) => f s a | _ => false
/-- An operation fails. -/
def isBad {ε α : Type} (x : State × Except ε α) (f : ε → Bool) : Bool := match x with | (_, .error b) => f b | _ => false
/-- The invariant as a check. -/
def invB (s : State) : Bool := Memory.wf s.mem && s.teams.all (fun tm => Memory.wf tm.mem && tm.images.all fun x => Memory.wf x.mem)
  && s.cores.all fun c => c.lines.all fun x => decide (x.dirty.map (·.off)).Nodup && x.dirty.all fun d => decide (d.off < 64)
/-- Whether a location's home answers, as a check. -/
def answersB (s : State) (l : Loc) : Bool := match l with | .scr _ _ => true | l => s.homeUp (lineOf (s.paOf l))

theorem isOk_spec {ε α : Type} {x : State × Except ε α} {f : State → α → Bool} (h : isOk x f = true) : ∃ s a, x = (s, .ok a) ∧ f s a = true := by
  obtain ⟨s, _ | a⟩ := x
  · cases h
  · exact ⟨s, a, rfl, h⟩

theorem isBad_spec {ε α : Type} {x : State × Except ε α} {f : ε → Bool} (h : isBad x f = true) : ∃ s b, x = (s, .error b) ∧ f b = true := by
  obtain ⟨s, b | _⟩ := x
  · exact ⟨s, b, rfl, h⟩
  · cases h

theorem invB_spec {s : State} (h : invB s = true) : s.Inv := by
  simp only [invB, Bool.and_eq_true, List.all_eq_true, decide_eq_true_eq] at h
  exact ⟨h.1.1, fun x hx => (h.1.2 x hx).1, fun x hx => (h.1.2 x hx).2, fun c hc x hx => (h.2 c hc x hx).1, fun c hc x hx => (h.2 c hc x hx).2⟩

theorem answersB_spec {s : State} {l : Loc} (h : answersB s l = true) : s.answers l := by
  cases l <;> simp_all [answersB, State.answers]

/-- The thread of a placed word as an agent. -/
def agentOf (s : State) : Agent := (team0 s).agent (theTid s)

/-- A placed NOP under a given leaf entry for the first GiB. -/
def underLeaf (e : Nat) : State := placed .nop [] [(0x103000, bytesLE 8 e)]

theorem wit_BranchesSetNextPc : S0.groups = [G0] := S0_groups
theorem wit_IndirectCallsAndReturns : S0.groups = [G0] := S0_groups

theorem wit_LeavingAndTraps : S0.groups = [G0] ∧ (let s := S0.modTeam 0 fun tm => { tm with bars := [] }
    (team0 s).bars = [] ∧ (∀ x ∈ (team0 s).threads, x.carving = none) ∧ s.groups = [G0]) := ⟨S0_groups, by decide +kernel⟩

theorem wit_TrapNamesItsWord : S0.thread? G0.team 0 = some (thr S0 0) ∧ 15 < 16 ∧ 2 ^ 48 - 4 < 2 ^ 48 := by decide +kernel

theorem wit_TlbiDropsTranslations : S0.groups = [G0] := S0_groups

/-- A misaligned address, one without a mapping, one outside the scratchpad; the last bytes of a line, and of the
scratchpad. -/
theorem wit_Loads : S0.groups = [G0] ∧ (accessAt .b32 0x300001 0).1 % sizeBytes .b32 ≠ 0 ∧ MemSize.b128 ≠ .b4
    ∧ isBad (S0.place (agentOf S0) 0x40000000 4 .read) (·.cause == .xlate) = true
    ∧ isBad (S0.place (agentOf S0) (scrBase + 4096) 1 .read) (·.cause == .scope) = true
    ∧ (accessAt .b128 0x30003F 0).1 % 64 + 1 ≤ 64 ∧ (accessAt .b4 0x300000 0b1111111).1 % 64 = 63
    ∧ isOk (S0.place (agentOf S0) 0x300030 16 .read) (fun s1 x => s1.paOf x.1 % 64 + 16 == 64 && invB s1 && answersB s1 x.1) = true
    ∧ isOk (S0.place (agentOf S0) (scrBase + 4080) 16 .read) (fun s1 x => s1.paOf x.1 % 64 + 16 ≤ 64 && invB s1 && answersB s1 x.1) = true
    ∧ inWindow scrBase = true ∧ inWindow (scrBase - 16) = false
    ∧ isOk (S0.translate (agentOf S0) 0x300000 .read) (fun _ _ => true) = true := ⟨S0_groups, by decide +kernel⟩

/-- The same for a store; one that may stay in the L1 and one that bypasses it. -/
theorem wit_StoresWriteTheirBytes : S0.groups = [G0] ∧ MemSize.b128 ≠ .b4 ∧ (accessAt .b16 0x300001 0).1 % sizeBytes .b16 ≠ 0
    ∧ isBad ((underLeaf 0x681).place (agentOf S0) 0x300000 4 .write) (fun b => b.cause == .perm && b.write) = true
    ∧ isOk (S0.place (agentOf S0) 0x300030 16 .write) (fun s1 x => s1.paOf x.1 % 64 + 16 == 64 && invB s1
        && s1.cacheable (agentOf S0) x.1 .normal && !s1.cacheable (agentOf S0) x.1 .bypass) = true := ⟨S0_groups, by decide +kernel⟩

theorem wit_SubByteStoresAtHome : S0.groups = [G0] ∧ (MemSize.b4 = .b8 ∨ MemSize.b4 = .b4) ∧ (MemSize.b8 = .b8 ∨ MemSize.b8 = .b4)
    ∧ isBad (S0.place (agentOf S0) (scrBase + 4096) 1 .write) (·.write) = true
    ∧ isOk (S0.place (agentOf S0) 0x30003F 1 .write) (fun s1 x => invB s1 && answersB s1 x.1) = true := ⟨S0_groups, by decide +kernel⟩

theorem wit_Atomics : S0.groups = [G0] ∧ 0x300038 % 8 = 0
    ∧ isBad ((underLeaf 0x6E1).place (agentOf S0) 0x300000 4 .write) (·.cause == .perm) = true
    ∧ isOk (S0.place (agentOf S0) 0x300038 8 .write) (fun s1 x => s1.paOf x.1 % 64 + 8 == 64 && invB s1 && answersB s1 x.1) = true :=
  ⟨S0_groups, by decide +kernel⟩

/-- A fence of a team thread that releases and acquires; a ninth guarded word, and the first. -/
theorem wit_FencesPrefetchGuards : S0.groups = [G0] ∧ (agentOf S0).stream = false ∧ Order.acqrel.releases = true ∧ Order.acqrel.acquires = true
    ∧ ((agentOf S0).scope .clus).homeWide = true ∧ (agentOf S0).scope .core ≠ .team ∧ S0.homeUp (lineOf 0x300000) = true
    ∧ inWindow scrBase = true ∧ inWindow 0x300000 = false
    ∧ isBad (S0.translate (agentOf S0) 0x40000000 .read) (fun _ => true) = true
    ∧ isOk (S0.translate (agentOf S0) 0x300000 .read) (fun _ _ => true) = true
    ∧ 0x300004 % 4 = 0 ∧ isOk (S0.place (agentOf S0) 0x300004 4 .read) (fun _ _ => true) = true
    ∧ (let gs := (List.range 8).map fun i => ({ addr := 0x300100 + 4 * i, entries := [(1, 2), (0, 0), (0, 0), (0, 0)] } : GuardWord)
       gs.length = 8 ∧ (∀ w ∈ gs, w.addr ≠ 0x300004) ∧ (∃ w ∈ gs, w.addr = 0x30011C) ∧ (∀ w ∈ gs, w.addr = 0x30011C → w.entries.length = 4))
    ∧ (team0 S0).guards.length ≠ 8 := ⟨S0_groups, by decide +kernel⟩

/-- Entries at each level: not valid, with and without NOMAP; a table; a leaf at levels 0, 1 and 2. -/
theorem wit_PageWalkLevels :
    let table := fun (e : Nat) => e % 2 = 1 ∧ e / 2 ^ 7 % 2 = 0 ∧ tableOk e = true
    let leaf := fun (e k : Nat) => e % 2 = 1 ∧ e / 2 ^ 7 % 2 = 1 ∧ leafOk e k = true
    let s := placed .nop [] [(0x110000, bytesLE 8 0x111001), (0x111000, bytesLE 8 0x112001), (0x111008, bytesLE 8 0x6A1), (0x112000, bytesLE 8 0x113001),
      (0x112008, bytesLE 8 0x6A1), (0x113000, bytesLE 8 0x6A1), (0x110010, bytesLE 8 2), (0x111010, bytesLE 8 2), (0x112010, bytesLE 8 2), (0x113010, bytesLE 8 2)]
    table (s.pte 0x110000) ∧ table (s.pte 0x111000) ∧ table (s.pte 0x112000) ∧ leaf (s.pte 0x111008) 2 ∧ leaf (s.pte 0x112008) 1 ∧ leaf (s.pte 0x113000) 0
      ∧ s.pte 0x110010 % 2 = 0 ∧ s.pte 0x111010 % 2 = 0 ∧ s.pte 0x112010 % 2 = 0 ∧ s.pte 0x113010 % 2 = 0 ∧ s.pte 0x110018 % 2 = 0 := by decide +kernel

/-- A 64 KiB page at entries 16 to 31: the sixteen alike, and one of them with W cleared. -/
theorem wit_Pages64 :
    let leaf := fun (e : Nat) => e % 2 = 1 ∧ e / 2 ^ 7 % 2 = 1 ∧ leafOk e 0 = true ∧ e / 2 ^ 11 % 2 = 1
    let page := fun (k : Nat) => placed .nop [] ((List.range 16).map fun i => (0x113080 + 8 * i, bytesLE 8 (if i = k then 0x7F0E81 else 0x7F0EA1)))
    let alike := fun (e x : Nat) => x / 2 ^ 16 = e / 2 ^ 16 ∧ x % 2 ^ 9 = e % 2 ^ 9 ∧ x / 2 ^ 11 % 2 = e / 2 ^ 11 % 2
    leaf 0x7F0EA1 ∧ leaf 0x7F0E81 ∧ (∀ i, i < 16 → alike ((page 16).pte 0x113080) ((page 16).pte (0x113080 / 128 * 128 + 8 * i)))
      ∧ (page 15).pte 0x113080 = 0x7F0EA1 ∧ ¬ alike ((page 15).pte 0x113080) ((page 15).pte (0x113080 + 8 * 15)) := by decide +kernel

/-- A leaf that fails each check of R128 and none before it, and one that fails none. -/
theorem wit_ChecksComeInOrder :
    let at' := fun (e : Nat) (f : State → TlbEntry → Bool) => isOk ((underLeaf e).leafFor 0 false 0 1 0x300000 .read)
      fun s x => f s x && s.bindings.isEmpty && s.remaps.isEmpty
    at' 0x681 (fun _ e => !e.write) = true ∧ at' 0x6E1 (fun _ e => e.write && e.sup) = true
    ∧ at' (0x6A1 + 2 ^ 63) (fun _ e => e.write && !e.sup && e.xn) = true
    ∧ at' (0x6A1 + 2 ^ 62) (fun _ e => e.write && !e.sup && !e.xn && e.psn) = true
    ∧ at' 0x6A1 (fun s e => e.write && !e.sup && !e.xn && !e.psn && s.homeUp (e.frame + 0x300000)) = true
    ∧ isOk ((((underLeaf 0x6A1).leafFor 0 false 0 1 0x300000 .read).1.modDie 0 fun d => { d with state := .down }).leafFor 0 false 0 1 0x300000 .read)
        (fun s e => !e.psn && !s.homeUp (e.frame + 0x300000)) = true ∧ (agentOf S0).sup = false := by decide +kernel

/-! Barriers -/

/-- `S0` with barrier 15 changed. -/
def withBar (f : Barrier → Barrier) : State := S0.modTeam 0 fun tm => tm.modBar 15 f

/-- An arrival by a member that has arrived, one with another operation, one that starts a phase; a barrier that is in use,
one that is not; an arrival that is the last of its phase, and one that is not. -/
theorem wit_BarriersArriveAndRelease : S0.groups = [G0]
    ∧ (let b := (team0 S0).bar 15
       0 ∉ b.arr ∧ b.arrived = 0 ∧ b.pending = 0 ∧ (15#4).toNat < (team0 S0).bars.length ∧ b.members = 1
         ∧ (∀ x ∈ (team0 S0).threads, x.waitAt = none ∧ ∀ y, x.status = .blocked y → False)
         ∧ (∃ b', b.arrive 0 .sum 5 = .ok b' ∧ b'.arrived = b'.members ∧ b'.members ≠ 0 ∧ b'.pending = 0)
         ∧ ((team0 S0).threads.map (·.tid)).Nodup ∧ (thr S0 0).arrivals = [])
    ∧ (let b := (team0 (withBar fun b => { b with members := 2 })).bar 15
       ∃ b', b.arrive 0 .none 0 = .ok b' ∧ ¬ (b'.arrived = b'.members ∧ b'.pending = 0))
    ∧ (let b := (team0 (withBar fun b => { b with arrived := 1, arr := [7], op := .and })).bar 15
       0 ∉ b.arr ∧ b.arrived ≠ 0 ∧ RedOp.or ≠ b.op ∧ b.arrive 0 .or 0 = .error 7 ∧ 7 ∈ b.arr ∧ b.arrive 7 .and 0 = .error 5)
    ∧ ((team0 (withBar fun b => { b with pending := 1 })).bar 15).pending ≠ 0
    ∧ (∃ x ∈ (team0 (S0.block G0 0 (.bwait 15 0 8))).threads, ∃ y p c, x.status = .blocked y ∧ y.wait = .bwait 15 p c)
    ∧ (∃ x ∈ (team0 (S0.modThread 0 0 fun h => { h with waitAt := some 15 })).threads,
        x.waitAt = some 15 ∧ x.status ≠ .exited ∧ ∀ y, x.status ≠ .blocked y) := by
  refine ⟨S0_groups, ⟨?_, ?_, ?_, ?_, ?_, ?_, ?_, ?_, ?_⟩, ?_, ?_, ?_, ?_, ?_⟩
  all_goals try decide +kernel
  · have h : ∀ x ∈ (team0 S0).threads, x.waitAt = none ∧ x.status = .issuing := by decide +kernel
    exact fun x hx => ⟨(h x hx).1, fun y hy => by rw [(h x hx).2] at hy; cases hy⟩
  · exact ⟨_, rfl, by decide +kernel, by decide +kernel, by decide +kernel⟩
  · exact ⟨_, rfl, by decide +kernel⟩
  · exact ⟨thr (S0.block G0 0 (.bwait 15 0 8)) 0, by decide +kernel, _, _, _, rfl, rfl⟩
  · have h : (thr (S0.modThread 0 0 fun h => { h with waitAt := some 15 }) 0).status = .issuing := by decide +kernel
    exact ⟨thr (S0.modThread 0 0 fun h => { h with waitAt := some 15 }) 0, by decide +kernel, by decide +kernel, by decide +kernel,
      fun y hy => by rw [h] at hy; cases hy⟩

/-- An arrival at barrier 15 of phase 3, recorded with the BSYNC at the program counter. -/
def arrival0 (v : Option Word) : Arrival := { bar := 15, phase := 3, header := G0.header, word := G0.idx, value := v }

/-- An arrival recorded with another word. -/
def other0 : Arrival := { arrival0 none with word := G0.idx + 1 }

/-- Barriers of a team whose last missing member exits, and of one with members left; an arrival that is recorded for this word, with and
without its result (R122, R139, R140). -/
theorem wit_ExitAndRecordedArrival : (team0 S0).bars.length ≤ 16 ∧ ((team0 S0).threads.map (·.tid)).Nodup
    ∧ (let b := (team0 (withBar fun b => { b with members := 2, arrived := 1, arr := [7] })).bar 15
       (if 0 ∈ b.arr then b.arrived - 1 else b.arrived) = b.members - 1 ∧ b.members - 1 ≠ 0 ∧ b.pending = 0)
    ∧ [none, some 9].all (fun v => match (thr (S0.modThread 0 0 fun h => { h with arrivals := [other0, arrival0 v] }) 0).arrivals with
        | [o, r] => o.word != G0.idx && r.bar == 15 && r.phase == 3 && r.value == v && r.word == G0.idx && r.header == G0.header
        | _ => false) = true := by decide +kernel

/-- EXIT completes the phase that its barrier's other member waits for (R140). -/
theorem test_exit_completes :
    leaves .exit (withBar fun b => { b with members := 2, arrived := 1, arr := [7], value := 5 }) (fun t => let b := (team0 t).bar 15
      b.members == 1 && b.arrived == 0 && b.phase == 1 && b.done1 == 5) := by decide +kernel

/-- An arrival recorded with its result returns it and does not arrive again (R139). -/
theorem test_recorded_returns : leaves (.bsync 8 4 15 .sum .none) (S0.modThread 0 0 fun h => { h with arrivals := [other0, arrival0 (some 9)] })
    (fun t => (thr t 0).arrivals == [other0] && ((team0 t).bar 15).arrived == 0
      && (thr t 0).pend.map (fun p => p.regs.map fun r => (r.idx, r.val.toNat)) == [[(8, 9)]]) := by decide +kernel

/-- A recorded arrival without a result waits for its phase, and does not arrive again (R139). -/
theorem test_recorded_waits : leaves (.bsync 8 4 15 .sum .none) (S0.modThread 0 0 fun h => { h with arrivals := [arrival0 none] })
    (fun t => ((team0 t).bar 15).arrived == 0 && match (thr t 0).status with
      | .blocked b => match b.wait with
        | .bsync bar phase d r => bar == 15 && phase == 3 && d == 8 && r
        | _ => false
      | _ => false) := by decide +kernel

/-- A phase that completes while a thread with a recorded arrival is blocked elsewhere leaves its result with the record (R139). -/
theorem test_record_keeps_result :
    let h1 : Thread := { Thread.start 1 false 96 0 0 with arrivals := [{ arrival0 none with phase := 0 }]
                                                          status := .blocked { wait := .lpop 7 0x310000 2 80, header := 0, word := 1, park := false, yield := false, more := false, since := 0, opcode := 0, order := 0 } }
    leaves (.bsync 8 4 15 .none .none) ((withBar fun b => { b with members := 2, arrived := 1, arr := [1] }).modTeam 0 fun tm =>
      { tm with threads := tm.threads ++ [h1] }) (fun t => ((team0 t).bar 15).phase == 1 && (thr t 1).arrivals.map (·.value) == [some 0]) := by decide +kernel

/-! Landings -/

/-- A core landing of two slots. -/
def base7 : Landing := { id := 7, desc := 0x310000, addr := 0x310000, tenant := 0, asid := 1, l2 := false, home := 0, lslot := 0, slots := 2, ovf := 0
                         state := .opened, waiting := [], hauls := [], seq := 0, expert := none, readySince := none, released := false }

/-- That landing, with some fields changed, and handle 1 of the team naming it. -/
def withLanding (f : Landing → Landing) : State :=
  { S0 with landings := [f base7], ids := 20 }.modTeam 0 fun tm => { tm with handles := tm.handles.set 1 (some { landing := 7, addr := 0x310000 }) }

/-- The landing of `withLanding`. -/
def land7 (s : State) : Landing := (s.landing? 7).getD base7

/-- A record. -/
def rec0 : LRec := { data := List.replicate 64 5, clock := 0, ovf := false }

/-- Expert fields: hauls at a fill of 2, an age limit of 1. -/
def expert0 : Expert := { kernel := 0x320000, arg := 0, ctl := 2, age := 1, tag := 0, owner := ownerWord false 0 1, need := placeKernel false false }

/-- Descriptors at 0x310000: of a core landing with 2 slots, of an L2 landing with 2, one with a single slot; an address
without a mapping; a landing of the same and of another cluster; a core without room. -/
theorem wit_LandingsOpenAndRecord : S0.groups = [G0]
    ∧ isBad (S0.readStruct (agentOf S0) 0x40000000 64 64) (·.cause == .xlate) = true
    ∧ (∀ cfg ∈ [2, 2 ^ 28 + 2, 1, 256, 257, 2 ^ 28 + 4096, 2 ^ 28 + 4097],
        let s := placed .nop [] [(0x310000, bytesLE 4 cfg)]
        isOk (s.readStruct (agentOf s) 0x310000 64 64) (fun s1 b => isOk (s1.place (agentOf s) 0x310000 64 .read) fun s2 x =>
          (match x.1 with | .scr _ _ => false | _ => true) && decide (s2.landing? s2.ids = none) && decide ((landingOf b).isSome = (cfg ≠ 1 ∧ cfg ≠ 257 ∧ cfg ≠ 2 ^ 28 + 4097))
            && s2.landings.isEmpty && s2.isLocal (s2.paOf x.1) && decide ((s2.usage 0 false).granules + granules (256 * 64) ≤ 352)) = true)
    ∧ (let s := placed .nop [] [(0x310000, bytesLE 4 (2 ^ 28 + 2))]
       let s := { s with landings := List.replicate 32 { base7 with l2 := true, desc := 64, home := homeOf 0x310000 }, ids := 20 }
       isOk (s.readStruct (agentOf s) 0x310000 64 64) (fun s1 b => isOk (s1.place (agentOf s) 0x310000 64 .read) fun s2 x =>
         decide (s2.landing? s2.ids = none ∧ (landingOf b).map (·.1) = some true ∧ s2.landings.find? (fun y => y.desc = s2.paOf x.1 ∧ !y.released) = none
           ∧ 32 ≤ (s2.landings.filter fun y => y.l2 && y.home == homeOf (s2.paOf x.1)).length)) = true)
    ∧ (let s := S0.modTeam 0 fun tm => { tm with scratch := 4096 * 352 }
       ¬ (s.usage 0 false).granules + granules (2 * 64) ≤ 352)
    ∧ ((withLanding id).landings.find? fun y => y.desc = 0x310000 ∧ !y.released).isSome = true
    ∧ clusOf (land7 (withLanding fun l => { l with home := 4 })).home ≠ clusOf (team0 S0).core
    ∧ (team0 S0).handle 1 = none ∧ (1#3).toNat < (team0 S0).handles.length ∧ (team0 (withLanding id)).handle 1 = some { landing := 7, addr := 0x310000 }
    ∧ (withLanding id).landing? 7 = some (land7 (withLanding id)) ∧ (withLanding id).landDown (land7 (withLanding id)) = false
    ∧ ((withLanding id).modDie 0 fun d => { d with state := .down }).landDown (land7 (withLanding id)) = true
    ∧ (land7 (withLanding id)).inSlots < (land7 (withLanding id)).slots ∧ (withLanding id).waiters 7 true = [] ∧ (land7 (withLanding id)).expert = none
    ∧ (let l := land7 (withLanding fun l => { l with l2 := true, ovf := 1, waiting := [rec0, rec0] })
       l.slots ≤ l.inSlots ∧ l.l2 = true ∧ l.ovf ≠ 0 ∧ l.inOvf < l.ovf)
    ∧ (let l := land7 (withLanding fun l => { l with l2 := true, ovf := 1, waiting := [rec0, rec0, { rec0 with ovf := true }] })
       l.slots ≤ l.inSlots ∧ l.l2 = true ∧ l.ovf ≠ 0 ∧ l.ovf ≤ l.inOvf)
    ∧ (let l := land7 (withLanding fun l => { l with waiting := [rec0, rec0] })
       l.slots ≤ l.inSlots ∧ (l.l2 = false ∨ l.ovf = 0) ∧ l.waiting[0]? = some rec0)
    ∧ (land7 (withLanding fun l => { l with state := .sealed })).state ≠ .opened ∧ (7 : P3) = 7 ∧ (2 : P3) ≠ 7
    ∧ (land7 (withLanding fun l => { l with l2 := true, expert := some expert0 })).expert.isSome = true
    ∧ (land7 (withLanding id)).waiting.length ≤ ((withLanding id).waiters 7 false).length := ⟨S0_groups, by decide +kernel⟩

/-- A blocked LPUSH and LPOP on a landing with room, with a record, sealed, ended. -/
theorem wit_BlockedLandingWordsAreServed :
    (let s := (withLanding id).block G0 0 (.lpush 7 0x310000 2 rec0.data)
     s.team? 0 = some (team0 s) ∧ (team0 s).thread? 0 = some (thr s 0) ∧ (team0 s).state = .run ∧ s.landing? 7 = some (land7 s) ∧ s.landDown (land7 s) = false
       ∧ (land7 s).state = .opened ∧ (firstOf (s.waiters 7 true)).map (·.2) = some (0, 0) ∧ (land7 s).expert = none ∧ (land7 s).inSlots < (land7 s).slots)
    ∧ (∃ b, (thr ((withLanding id).block G0 0 (.lpush 7 0x310000 2 rec0.data)) 0).status = .blocked b ∧ b.wait = .lpush 7 0x310000 2 rec0.data)
    ∧ (land7 ((withLanding fun l => { l with state := .sealed }).block G0 0 (.lpush 7 0x310000 7 rec0.data))).state ≠ .opened
    ∧ (let s := (withLanding fun l => { l with waiting := [rec0] }).block G0 0 (.lpop 7 0x310000 2 80)
       (land7 s).waiting = [rec0] ∧ (firstOf (s.waiters 7 false)).map (·.2) = some (0, 0) ∧ (thr s 0).ctl = false ∧ 80 + 15 < (thr s 0).v.length)
    ∧ (∃ b, (thr ((withLanding fun l => { l with state := .ended }).block G0 0 (.lpop 7 0x310000 2 80)) 0).status = .blocked b ∧ b.wait = .lpop 7 0x310000 2 80)
    ∧ (let s := (withLanding fun l => { l with state := .ended }).block G0 0 (.lpop 7 0x310000 2 80)
       (land7 s).waiting = [] ∧ (land7 s).state = .ended)
    ∧ (land7 ((withLanding fun l => { l with l2 := true, expert := some expert0 }).block G0 0 (.lpop 7 0x310000 2 80))).expert.isSome = true := by
  refine ⟨by decide +kernel, ⟨_, rfl, rfl⟩, by decide +kernel, by decide +kernel, ⟨_, rfl, rfl⟩, by decide +kernel, by decide +kernel⟩

/-- An expert landing with 1 and with 129 waiting records (F is 2); a team with and without a haul; an aligned address with
and without a mapping, and one that is not aligned. -/
theorem wit_HaulsFormBindRetire : S0.groups = [G0]
    ∧ (∀ n ∈ [1, 129], let s := withLanding fun l => { l with l2 := true, slots := 4096, expert := some expert0, waiting := List.replicate n rec0 }
       s.landing? 7 = some (land7 s) ∧ (land7 s).expert = some expert0 ∧ (land7 s).waiting ≠ [] ∧ (land7 s).state = .opened ∧ s.landDown (land7 s) = false
         ∧ (land7 s).waiting.length < 128 + expert0.fill ∧ 0 < expert0.fill ∧ (team0 s).handle 1 = some { landing := 7, addr := 0x310000 })
    ∧ (land7 (withLanding id)).expert = none ∧ (team0 S0).handle 1 = none ∧ (land7 (withLanding fun l => { l with state := .ended })).state = .ended
    ∧ S0.haulOf (team0 S0) = none
    ∧ (let s := (withLanding fun l => { l with l2 := true, expert := some expert0, hauls := [{ seq := 3, recs := [rec0, rec0] }] }).modTeam 0 fun tm =>
         { tm with task := { tm.task with landing := some 7, haul := 3 * 2 ^ 48 + 1 } }
       (s.haulOf (team0 s)).map (·.2) = some { seq := 3, recs := [rec0, rec0] } ∧ (∀ r ∈ [rec0, rec0], r.data.length = 64)
         ∧ s.landDown (land7 s) = false ∧ 0x300001 % 64 ≠ 0 ∧ 0x300000 % 64 = 0
         ∧ isBad (s.range (agentOf s) 0x40000000 (64 * 2) .write) (fun _ => true) = true
         ∧ isOk (s.range (agentOf s) (scrBase + 3968) (64 * 2) .write) (fun s1 x => x.1.map (·.loc) == [.scr 0 3968] && invB s1) = true
         ∧ isOk (s.range (agentOf s) 0x300000 (64 * 2) .write) (fun s1 x => x.1.map (·.loc) == [.mem 0x300000] && invB s1
             && s1.cacheable (agentOf s) (.mem 0x300000) .normal) = true) := ⟨S0_groups, by decide +kernel⟩

/-- Blocks at 0x330000: all zeros, one that keeps R243, one that does not; the landings each detail names; a landing whose
oldest record is one cycle older than its limit, and one whose record is as old as it. -/
theorem wit_ExpertLandings : S0.groups = [G0] ∧ (team0 S0).handle 1 = none
    ∧ (∀ n ∈ [1, 2, 3], ∀ l2 ∈ [false, true],
        let s := withLanding fun l => { l with l2 := l2 }
        let s := { s with mem := cellsSet (cellsSet s.mem 0x320000 [1, 0, 16]) 0x330000 (bytesLE 8 0x320000 ++ bytesLE 8 0 ++ bytesLE 4 n ++ bytesLE 4 1) }
        isOk (s.readStruct (agentOf s) 0x330000 32 32) (fun s1 b => decide (s1.landing? 7 = some (land7 s)) && !s1.landDown (land7 s) && !b.all (· == 0)
          && decide (fieldAt b 0 8 % 64 = 0) && isOk (s1.readStruct (agentOf s) (fieldAt b 0 8) 64 64) fun s2 kb => !s2.landDown (land7 s)
            && (blockOk b (land7 s) && kernelBytesOk kb && !(kernelOf kb).sup) == decide (n ≤ 2)
            && (s2.reserveFloor 0 0 (land7 s).home (kernelOf kb)).2) = true)
    ∧ (let s := withLanding id
       isOk (s.readStruct (agentOf s) 0x330000 32 32) (fun s1 b => b.all (· == 0) && decide (s1.landing? 7 = some (land7 s))) = true)
    ∧ (land7 (withLanding fun l => { l with l2 := true, waiting := [rec0] })).waiting ≠ []
    ∧ ((S0.modDie 0 fun d => { d with state := .draining 0 }).reserveFloor 0 0 0 { placeKernel false false with threads := 2049 }).2 = false
    ∧ (let s := { withLanding fun l => { l with l2 := true, expert := some expert0, waiting := [rec0] } with clock := 32 }
       16 * expert0.limit < s.clock / 16 * 16 - rec0.clock ∧ 16 * expert0.limit = 31 / 16 * 16 - rec0.clock
         ∧ (s.cluster 0).ageAt < s.clock / 16 ∧ (s.cluster 0).ageNext ≤ s.clock ∧ (s.die (dieOfClus 0)).serves = true ∧ (land7 s).waiting.length < 128 + expert0.fill
         ∧ (∀ y ∈ s.landings, y.l2 = true → y.home = 0 → y.expert.isSome = true → y.id = 7) ∧ (s.landings.map (·.id)).Nodup)
    ∧ (let s := S0.modCluster 0 fun c => { c with ageNext := 9 }
       s.clock / 16 ≤ (s.cluster 0).ageAt ∧ s.clock < (s.cluster 0).ageNext) := ⟨S0_groups, by decide +kernel⟩

/-! Tasks -/

/-- A kernel descriptor at 0x320000, a task record of it at 0x321000, and one that breaks R25 at 0x321040. -/
def withTask : State :=
  placed .nop [] [(0x320000, [1, 0, 16]), (0x321000, bytesLE 8 0x320000), (0x321040, bytesLE 8 0x320001), (0x321080, bytesLE 8 0x320000), (0x32109C, bytesLE 4 0x10000)]

/-- Records that keep R25 and do not, the third one cluster-bound, spawned by a team outside and inside a set; join cells with a count of 0, 1 and 2. -/
theorem wit_TasksSpawnAndJoin : withTask.groups = S0.groups
    ∧ isBad (withTask.readStruct (agentOf S0) 0x321004 64 64) (·.cause == .align) = true
    ∧ isOk (withTask.readStruct (agentOf S0) 0x321000 64 64) (fun s1 b =>
        let x := taskOf b (ownerWord false 0 1) 0x321000 0
        let s2 := (s1.release (agentOf S0) .dom none).seenTask b x
        !x.cbound && taskBytesOk b && (s2.taskKernel x).isSome && decide ((s2.cluster 0).deque.length < 1024)) = true
    ∧ isOk (withTask.readStruct (agentOf S0) 0x321040 64 64) (fun _ b => !taskBytesOk b && !(taskOf b (ownerWord false 0 1) 0x321040 0).cbound) = true
    ∧ (∀ z ∈ [none, some (3, 0)], let s := withTask.modTeam 0 fun tm => { tm with task := { tm.task with set := z } }
        isOk (s.readStruct (agentOf S0) 0x321080 64 64) (fun s1 b =>
          let x := taskOf b (ownerWord false 0 1) 0x321080 0
          let s2 := (s1.release (agentOf S0) .dom none).seenTask b x
          x.cbound && taskBytesOk b && (s2.taskKernel x).isSome && decide ((s2.cluster 0).deque.length < 1024)
            && s2.freeSet (team0 s) == z.map fun y => (y.1, 1)) = true)
    ∧ isBad (S0.place (agentOf S0) 0x40000000 128 .claim) (fun _ => true) = true ∧ 0x322000 % 128 = 0 ∧ 0x322040 % 128 ≠ 0
    ∧ (∀ n ∈ [0, 1, 2], let s := placed .nop [] [(0x322000, bytesLE 8 n)]
        isOk (s.place (agentOf S0) 0x322000 128 .claim) (fun s1 x => invB s1 && answersB s1 x.1 && s1.paOf x.1 % 128 == 0
          && (List.range 128).all (fun i => s1.paOf (x.1.add i) == s1.paOf x.1 + i)
          && x.2.all (fun z => (List.range 8).all fun k => (z.pte + k) / 128 != s1.paOf x.1 / 128)
          && (let s2 := s1.release (agentOf S0) .dom none
              leNat ((List.range 8).map (s2.homeByte (agentOf S0) x.1)) == n && taskBytesOk ((List.range 64).map fun i => s2.homeByte (agentOf S0) x.1 (64 + i)))) = true)
    := ⟨by decide +kernel, by decide +kernel⟩

/-- A join cell at 0x322000 with a count of 1 and the record of a kernel at `k`. -/
def joinCell (k : Nat) : State := placed (.tdone 8 .none) [(8, 0x322000)] [(0x320000, [1, 0, 16]), (0x322000, bytesLE 8 1), (0x322040, bytesLE 8 k)]

/-- The cell's task, once the count is 0, whose kernel is good, or not. -/
theorem wit_JoinCell : ∀ k ∈ [0x320000, 0x320040], isOk ((joinCell k).place (agentOf S0) 0x322000 128 .claim) (fun s1 x =>
    let s2 := s1.release (agentOf S0) .dom none
    let task := (List.range 64).map fun i => s2.homeByte (agentOf S0) x.1 (64 + i)
    let s3 := s2.homeWrite 0x322000 [0]
    let y := taskOf task (ownerWord false 0 1) 0x322040 0
    taskBytesOk task && ((s3.seenTask task y).taskKernel y).isSome == (k == 0x320000 : Bool) && decide ((s2.cluster 0).deque.length < 1024)) = true := by decide +kernel

/-- TDONE creates the task, or raises TASKREC (R28, R153). -/
theorem test_join_cell : ∀ k ∈ [0x320000, 0x320040], let t := after (joinCell k)
    (t.cluster 0).deque.map (·.kernel) = (if k = 0x320000 then [0x320000] else []) ∧ t.fatals.length = (if k = 0x320000 then 0 else 1)
      ∧ cellGet 0x322000 t.mem = 0 := by decide +kernel

/-! The shared attention context -/

/-- Memory with a context of one layer and one head of 4 elements at 0x330000: its TAIL, SPAN and free count, the page of
positions 0 to 15 at 0x334000 and one free page at 0x336000. -/
def ctxMem (tail span count : Nat) (entry : Nat) : List (Nat × List Byte) :=
  [(0x330000, bytesLE 4 tail ++ bytesLE 4 (2 ^ 24 + 4 * 2 ^ 9) ++ bytesLE 4 0 ++ bytesLE 4 span ++ bytesLE 8 0 ++ bytesLE 8 0x336000 ++ bytesLE 4 count
      ++ bytesLE 4 512 ++ bytesLE 4 32 ++ bytesLE 4 0 ++ bytesLE 8 0x331000),
   (0x331000, bytesLE 8 0x332000 ++ bytesLE 8 0x333000), (0x332000, bytesLE 8 entry)]

/-- An entry of the page table that holds the page at 0x334000. -/
def entry0 : Nat := 2 ^ 63 + 0x334000

/-- A state with that context. -/
def withCtx (tail span count entry : Nat) : State := placed .nop [] (ctxMem tail span count entry)

/-- The context of such a state, under a check, for a word that writes the descriptor and one that does not. -/
def ctxIs (s : State) (f : State → Ctx → Bool) : Bool :=
  isOk (s.ctxAt (agentOf S0) 0x330000 true) f && isOk (s.ctxAt (agentOf S0) 0x330000 false) f

/-- A state with that context, but for its page, its free page or its page table, which lie in memory that die 1 homes; die 1 is down. -/
def lostCtx (page free table : Nat) : State :=
  (placed .nop [] (ctxMem 16 1 1 (2 ^ 63 + page) ++ [(0x330018, bytesLE 8 free), (0x331000, bytesLE 8 table), (table, bytesLE 8 (2 ^ 63 + page)),
    (0x103008, bytesLE 8 (2 ^ 38 + 0x6A1))])).modDie 1 fun d => { d with state := .down }

/-- A descriptor that breaks R156; a reservation beyond MAXPOS (32), one that grows with and without a free page, one that
needs no page; runs that are not whole pages, not reserved, and a whole page; layers, pairs and positions at their limits. -/
theorem wit_ContextWords : S0.groups = [G0]
    ∧ (∀ w ∈ [true, false], isBad ((withCtx 0 0 1 entry0).ctxAt (agentOf S0) 0x330000 w) (·.cause == .scope) = true)
    ∧ ctxIs (withCtx 17 1 1 entry0) (fun _ c => decide (c.maxpos < c.tail + (16#5).toNat)) = true
    ∧ ctxIs (withCtx 16 1 0 entry0) (fun _ c => decide ((c.tail + 15) / 16 * 16 < c.tail + (1#5).toNat ∧ c.count < c.layers)) = true
    ∧ ctxIs (withCtx 16 1 1 entry0) (fun s1 c => decide (¬ (c.maxpos < c.tail + (16#5).toNat ∨ (c.tail + 15) / 16 * 16 < c.tail + 16 ∧ c.count < c.layers))
        && (s1.takePages c ((c.tail + 15) / 16) c.layers 0).isSome && invB s1 && (s1.downIn c (s1.takeSpans c ((c.tail + 15) / 16))).isNone) = true
    ∧ ctxIs (lostCtx 0x334000 0x40006000 0x332000) (fun s1 c => decide ((c.tail + 15) / 16 * 16 < c.tail + 16)
        && (s1.downIn c (s1.takeSpans c ((c.tail + 15) / 16))).isSome) = true
    ∧ ctxIs (lostCtx 0x40004000 0x336000 0x332000) (fun s1 c => (s1.downIn c (s1.entrySpans c 0 0)).isNone && decide (s1.ctxPage c 0 0 = some 0x40004000)
        && (s1.downIn c (s1.pairSpans c 0 15 0x40004000 0)).isSome && (s1.downIn c (s1.runSpans c 0 15 1)).isNone && s1.coveredRun c 0 15 1
        && (s1.downIn c (s1.publishSpans c 0 15 1)).isSome && (s1.downIn c (s1.clearSpans c [(0, 0)] ++ [(0x40004000, 8)])).isSome) = true
    ∧ ctxIs (lostCtx 0x334000 0x336000 0x40002000) (fun s1 c => (s1.downIn c (s1.entrySpans c 0 0)).isSome && (s1.downIn c (s1.runSpans c 0 15 1)).isSome) = true
    ∧ ctxIs (withCtx 15 1 1 entry0) (fun s1 c => decide (¬ (c.maxpos < c.tail + (1#5).toNat ∨ (c.tail + 15) / 16 * 16 < c.tail + 1 ∧ c.count < c.layers)) && invB s1) = true
    ∧ ctxIs (withCtx 16 1 1 entry0) (fun s1 c =>
        decide ((0x01000000#32).extractLsb' 24 8 ≠ 0 ∧ (1#24).toNat % 16 ≠ 0 ∧ c.tail < 16 + 16 * 1 ∧ 0 + 16 * 1 ≤ c.tail)
          && ((List.range 1).filterMap fun i => s1.ctxPage c 0 i).length == 1
          && ((s1.clearEntries c [(0, 0)]).bind fun x => x.linkPages c c.free [0x334000]).isSome && invB s1
          && (s1.downIn c (s1.clearSpans c [(0, 0)] ++ [(0x334000, 8)])).isNone) = true
    ∧ ctxIs (withCtx 16 1 1 0) (fun s1 c => decide (s1.ctxPage c 0 0 = none)) = true
    ∧ ctxIs (withCtx 16 1 1 entry0) (fun s1 c => decide (c.layers ≤ 1 ∧ 0 < c.layers ∧ 1 < c.heads * c.hdim / 2 ∧ c.heads * c.hdim / 2 ≤ 2 ∧ c.tail ≤ 16 ∧ 15 < c.tail)
        && decide (s1.ctxPage c 0 (15 / 16) = some 0x334000 ∧ 15 * 1024 ∉ s1.marksOf (s1.pageKey c 0x334000))
        && (s1.writePair c 0 15 0x334000 0 0).isSome && (s1.downIn c (s1.entrySpans c 0 0)).isNone && (s1.downIn c (s1.pairSpans c 0 15 0x334000 0)).isNone
        && decide (15 * 1024 ∈ ({ s1 with pageMarks := [{ page := 0x334000, marks := [15 * 1024] }] } : State).marksOf (s1.pageKey c 0x334000))) = true
    ∧ ctxIs (withCtx 16 1 1 0) (fun s1 c => (s1.downIn c (s1.runSpans c 0 15 1)).isNone && !s1.coveredRun c 0 15 1) = true
    ∧ ctxIs (withCtx 16 1 1 entry0) (fun s1 c => decide (c.tail < 15 + 2) && s1.coveredRun c 0 15 1 && invB s1
        && (s1.downIn c (s1.runSpans c 0 15 1)).isNone && (s1.downIn c (s1.publishSpans c 0 15 1)).isNone
        && ((s1.release (agentOf S0) .dom none).publishAll c 0 1 15).isSome) = true
    ∧ (agentOf S0).stream = false ∧ (agentOf S0).scope .clus ≠ .team := ⟨S0_groups, by decide +kernel⟩

/-- A context for records. -/
def ctx0 : Ctx := { addr := 0, pa := 0, tenant := 0, asid := 1, layers := 1, heads := 1, hdim := 2, bf := false, opened := false, seed := 0, span := 1, bytes := 0
                    maxpos := 32, tail := 16, pseq := 0, free := 0, count := 0, table := 0 }

/-- R170, R173: terms, a score, records and a merge, calculated by hand. Scores 2 and 1 of values (1, 2) and (3, 0) give M = 2, S = 1.5 and
O = (2.5, 2); a difference of 149 gives the least number, one of 150 or more nothing that the claim speaks of. -/
theorem wit_RecordsAndMerges :
    powDiff (fmtF32.unpack 0x3F800000) (fmtF32.unpack 0x40000000) = (0x3F000000, 0) ∧ powDiff (fmtF32.unpack 0xC3150000) (fmtF32.unpack 0) = (1, 0)
    ∧ ctx0.score { layer := 0, limit := 0, head := 0, vec := [0x3C00, 0x4000], sig := 0, radius := 0, scale := 0x3F000000, must := [] } [0x4200, 0x3C00] = (0x40200000, 0)
    ∧ ctx0.partialOf [{ score := 0x40000000, values := [0x3C00, 0x4000] }, { score := 0x3F800000, values := [0x4200, 0] }, { score := 0xFF800000, values := [0, 0] }]
        = (0x40000000, 0x3FC00000, [0x40200000, 0x40000000], 0)
    ∧ ctx0.partialOf [{ score := 0x7F800000, values := [0, 0] }] = (0x7FC00000, 0x7FC00000, [0x7FC00000, 0x7FC00000], 0)
    ∧ ctx0.partialOf [{ score := 0xFF800000, values := [0, 0] }] = (0xFF800000, 0, [0, 0], 0)
    ∧ mergeRecords fmtF32 .rne [(0x40000000, 0x3F800000, 0x3F800000, 0x40000000), (0x3F800000, 0x40000000, 0x40400000, 0x40800000)]
        = (0x3FA00000, 0x40000000, 0) := by decide +kernel

/-- A blocked thread's place. -/
def blk0 (w : Wait) : Block :=
  { wait := w, header := 0x200040, word := 1, park := false, yield := false, more := false, opcode := 0, since := 0, order := 0 }

/-- Two threads, the first issuing and the second blocked in a word. -/
def withPeer (s : State) (w : Wait) : State :=
  s.modTeam 0 fun tm => { tm with threads := [thr s 0, { thr s 0 with tid := 1, status := .blocked (blk0 w) }] }

/-- Whether a check answers. -/
def isGood {ε α : Type} (x : Except ε α) : Bool := match x with | .ok _ => true | .error _ => false

/-- Operands beyond the head's pairs and the layers; a peer that disagrees, none that has joined yet, all that have. -/
theorem wit_HeadsQueriesMerges : S0.groups = [G0]
    ∧ ctxIs (withCtx 16 1 1 entry0) (fun _ c => decide (c.heads * c.hdim / 2 ≤ 2 ∧ 1 < c.heads * c.hdim / 2 ∧ c.layers ≤ ((0x01000000#32 : Word).extractLsb' 24 8).toNat
        ∧ ((0 : Word).extractLsb' 24 8).toNat < c.layers ∧ c.exacts [0x7C00] = none ∧ (c.exacts [0x3C00, 0xBC00]).isSome
        ∧ (List.range (c.hdim / 2)).map (0 / (c.hdim / 2) * (c.hdim / 2) + ·) = [0, 1] ∧ c.addr = 0x330000)) = true
    ∧ (thr (withPeer (withCtx 16 1 1 entry0) (.csig 8 0x330000 1 0)) 0).status = .issuing ∧ (1 : Word) ≠ 0
    ∧ (∃ y, (thr (withPeer (withCtx 16 1 1 entry0) (.csig 8 0x330000 0 5)) 1).status = .blocked y ∧ y.wait = .csig 8 0x330000 0 5)
    ∧ (∀ u ∈ [1], ∀ y, (thr (withPeer S0 (.bwait 1 0 8)) u).status = .blocked y → ∀ a b c d, y.wait ≠ .csig a b c d)
    ∧ (0x334008#64).toNat % 16 ≠ 0 ∧ (0x334010#64).toNat % 16 = 0
    ∧ (let s := withCtx 16 1 1 entry0
       isOk (s.readStruct (agentOf s) 0x330000 256 256) (fun s1 x => isBad (s1.range (agentOf s) 0x40000000 (cattSpan (s1.ctxFrom (agentOf s) 0x330000 x)) .claim) (fun _ => true)
         && isOk (s1.range (agentOf s) 0x334010 (cattSpan (s1.ctxFrom (agentOf s) 0x330000 x)) .claim) fun _ _ => isGood (s1.ctxFrom (agentOf s) 0x330000 x)) = true)
    ∧ isOk (S0.readStruct (agentOf S0) 0x330000 256 256) (fun s1 x => !isGood (s1.ctxFrom (agentOf S0) 0x330000 x)) = true
    ∧ isBad (S0.readStruct (agentOf S0) 0x40000000 256 256) (fun _ => true) = true
    ∧ (∃ y, (thr (withPeer (withCtx 16 1 1 entry0) (.catt 0x330000 0 5 0x340000 4 0 2)) 1).status = .blocked y ∧ y.wait = .catt 0x330000 0 5 0x340000 4 0 2)
    ∧ (∀ span ∈ [1, 2], ctxIs (withCtx 16 span 1 entry0) (fun s1 c => isOk (s1.range (agentOf S0) 0x340000 (16 + c.span * recordSize c.hdim) .claim)
        fun s2 _ => decide ((s2.ctxSlices c).length = c.span) == decide (span = 1)) = true)
    ∧ 64 < (65#32).toNat ∧ (64#32).toNat ≤ 64
    ∧ isBad (S0.memRead (agentOf S0) 0x40000000 16 Sync.plain) (fun _ => true) = true
    ∧ isOk (S0.memRead (agentOf S0) 0x341000 16 Sync.plain) (fun _ hd => fieldAt hd 0 4 == 0) = true
    ∧ (let s := placed .nop [] [(0x341000, bytesLE 4 1 ++ bytesLE 8 0 ++ bytesLE 2 4 ++ bytesLE 2 32)]
       isOk (s.memRead (agentOf S0) 0x341000 16 Sync.plain) (fun s1 hd =>
         decide (1 ≤ fieldAt hd 0 4 ∧ fieldAt hd 0 4 ≤ 128 ∧ fieldAt hd 12 2 = 4 ∧ fieldAt hd 14 2 = (16 + 4 * 4 + 15) / 16 * 16)
           && isOk (s1.range (agentOf S0) 0x341000 (16 + 32) .read) fun s2 _ => isOk (s2.loadPieces (agentOf S0) 2 0x341010) fun _ _ => true) = true)
    ∧ (fmtF32.unpack 0x7FC00000).isNan = true ∧ fmtF32.unpack 0xFF800000 = .inf true := by
  refine ⟨S0_groups, by decide +kernel, by decide +kernel, by decide, ⟨_, rfl, rfl⟩, ?_, by decide +kernel, by decide +kernel, by decide +kernel, by decide +kernel, by decide +kernel, ⟨_, rfl, rfl⟩, by decide +kernel⟩
  intro u hu y hy
  obtain rfl : u = 1 := by simpa using hu
  have h : (thr (withPeer S0 (.bwait 1 0 8)) 1).status = .blocked (blk0 (.bwait 1 0 8)) := by decide +kernel
  rw [h] at hy
  cases hy
  intro a b c d
  exact fun h => by cases h

/-- A CATT whose block waits to be written, with a contributor that waits for its result. -/
theorem wit_CattBlockWrite :
    let p : Pending := { ctr := .wc, regs := [], preds := [{ idx := 2, val := true, clash := false }], flags := 1, hold := some 9 }
    let s := { S0.modThread 0 0 fun h => { h with pend := [p] } with
      catts := [{ id := 9, team := 0, tid := 0, block := [{ loc := .mem 0x340000, len := 2 }], data := [1, 2] }] }
    (s.catts.find? (·.id = 9)).isSome = true ∧ s.team? 0 = some (team0 s) ∧ (∀ x ∈ (team0 s).threads, x.carving = none) ∧ invB s = true
      ∧ s.homeUp (lineOf 0x340000) = true ∧ 0x340000 % 4096 + 2 ≤ 4096 ∧ (team0 s).thread? 0 = some (thr s 0) ∧ (thr s 0).pend = [p] := by
  decide +kernel

/-! Tiles, macros, banks -/

/-- `S0` with tile 5 of cluster 0 given. -/
def withTile (f : Tile → Tile) : State := S0.setTile 0 (f (Tile.fresh 5))

/-- A q8 tile of one row and 128 columns that the team holds: its storage at 0x350000. -/
def tile5 (st : TileState) (f : TileFmt) : Tile := { Tile.fresh 5 with
  state := st, holder := some 0, fmt := f, rows := 1, cols := 128, store := [{ loc := .mem 0x350000, len := tileBytes f 1 128 }] }

/-- The team's view of tile 5. -/
def view5 (s : State) : Option TileView := (s.tile 0 5).view 0

theorem wit_TileStates : S0.groups = [G0]
    ∧ (let good := fun (rows cols : Nat) => 1 ≤ rows ∧ rows ≤ 128 ∧ cols ≤ 4096
       good 1 1 ∧ good 128 4096 ∧ ¬ good 0 1 ∧ ¬ good 129 1 ∧ ¬ good 1 4097) ∧ 0x350008 % 16 ≠ 0 ∧ 0x350010 % 16 = 0
    ∧ isBad (S0.range (agentOf S0) 0x40000000 (tileBytes .q8 1 128) .claim) (fun _ => true) = true
    ∧ isOk (S0.range (agentOf S0) 0x350000 (tileBytes .q8 1 128) .claim) (fun s1 x => x.1.all s1.tilePlace) = true
    ∧ isOk ({ S0 with regs := { S0.regs with devnum := 1 } }.range (agentOf S0) (scrBase + 4096 - 128) 128 .claim) (fun s1 x => x.1.all s1.tilePlace && !s1.tilePlace { loc := .mem 0x350000, len := 1 }) = true
    ∧ (S0.tile 0 5).holder ≠ some 0 ∧ (∀ r ∈ (S0.tile 0 5).queue, r.team ≠ 0) ∧ (S0.tile 0 5).state = .empty
    ∧ (let s := withTile fun _ => tile5 .filling .q8
       (s.tile 0 5).holder = some 0 ∧ (s.tile 0 5).state = .filling ∧ (s.tile 0 5).state ≠ .ready ∧ (s.tile 0 5).queue = [])
    ∧ (let s := withTile fun _ => { tile5 .ready .q8 with holder := some 3 }
       (s.tile 0 5).holder ≠ some 0 ∧ (s.tile 0 5).state ≠ .empty)
    ∧ (let s := withTile fun _ => { tile5 .ready .q8 with queue := [{ team := 3, fmt := .q8, rows := 1, cols := 1, store := [], job := 0, after := [] }] }
       (s.tile 0 5).queue.map (·.after) = [[]] ∧ (s.tile 0 5).state ≠ .filling)
    ∧ (view5 (withTile fun _ => tile5 .ready .q8)).isSome = true ∧ view5 S0 = none := ⟨S0_groups, by decide +kernel⟩

/-- A tile whose matrix words have all returned, one that a word in flight reads, one that two write, and one at which words wait. -/
theorem wit_TileStatesInFlight :
    (∀ h ∈ (team0 (withTile fun _ => tile5 .filling .q8)).threads, ∀ p ∈ h.pend, 5 ∉ p.writes ∧ 5 ∉ p.drains ∧ 5 ∉ p.reads)
    ∧ (let s := withTile fun _ => tile5 .ready .q8
       (s.tile 0 5).after = [] ∧ (∃ h ∈ (team0 (s.modThread 0 0 fun h => { h with pend := [{ ack .wt with reads := [5] }] })).threads, ∃ p ∈ h.pend, 5 ∈ p.reads))
    ∧ (let s := withTile fun _ => tile5 .filling .f32
       (∃ h ∈ (team0 (s.modThread 0 0 fun h => { h with pend := [{ ack .wt with writes := [5] }] })).threads, ∃ p ∈ h.pend, 5 ∈ p.writes)
         ∧ ∃ h ∈ (team0 (s.modThread 0 0 fun h => { h with pend := [{ ack .wt with drains := [5] }] })).threads, ∃ p ∈ h.pend, 5 ∈ p.drains)
    ∧ ((withTile fun _ => { tile5 .ready .q8 with after := [{ team := 0, tid := 0, writes := [], next := .free, job := 9 }] }).tile 0 5).after ≠ []
    ∧ (let s := withTile fun _ => { tile5 .ready .q8 with holder := some 3, queue := [{ team := 0, fmt := .q8, rows := 1, cols := 1, store := [], job := 0, after := [] }] }
       (s.tile 0 5).holder ≠ some 0 ∧ ∃ r ∈ (s.tile 0 5).queue, r.team = 0) := by decide +kernel

/-- A macro. -/
def mac3 (st : SquareState) (loader : Option Nat) (claims : List Nat) : Square := { Square.fresh 3 with
  weights := [], tag := 9, tenant := 0, state := st, loader := loader, claims := claims }

/-- `S0` with some macros of cluster 0. -/
def withMacros (l : List Square) : State := S0.modCluster 0 fun c => { c with squares := l }

/-- Tags 0 and 9 in each state a macro can be found in; 31 and 32 claims; a bank that is free, the team's and another's;
scales 0xFF and not; a load that completes; a first macro that is free, and one that is not. -/
theorem wit_MacrosBanksAndFires : S0.groups = [G0] ∧ (9 : Word) ≠ 0
    ∧ ((withMacros [mac3 .resident none [0]]).cluster 0).squares.find? (fun q => q.claims.contains 0 && q.tag == 9) = some (mac3 .resident none [0])
    ∧ (∀ q ∈ ((withMacros [mac3 .resident none []]).cluster 0).squares.filter fun q => q.claims.contains 0, q.tag ≠ 9)
    ∧ ((withMacros [mac3 .resident none []]).cluster 0).squares.find? (fun q => q.tag == 9 && q.tenant == 0 && q.state == .resident) = some (mac3 .resident none [])
    ∧ (∃ q ∈ ((withMacros [mac3 .loading (some 3) [3]]).cluster 0).squares, q.tag = 9 ∧ q.tenant = 0 ∧ q.state = .loading)
    ∧ (∀ q ∈ (S0.cluster 0).squares, ¬ (q.tag = 9 ∧ q.state = .resident))
    ∧ (∀ n ∈ [31, 32], let l := ((withMacros ((List.range n).map fun i => { mac3 .resident none [0] with id := i, tag := 100 })).cluster 0).squares.filter fun q => q.claims.contains 0
       (32 ≤ l.length ↔ n = 32))
    ∧ (S0.bank 0 1).holder = none
    ∧ (let s := S0.setBank 0 { Bank.fresh 1 with holder := some 3 }
       (s.bank 0 1).holder ≠ none ∧ (s.bank 0 1).holder ≠ some 0)
    ∧ (let q := (withMacros [mac3 .loading (some 0) [0]]).square 0 3
       q.state = .loading ∧ q.loader = some 0 ∧ q.load = none) ∧ 511 < 512 ∧ ¬ 512 < 512
    ∧ (let q := (withMacros [mac3 .resident none [0, 3]]).square 0 3
       ¬ (q.state = .loading ∧ q.loader = some 0 ∨ q.state = .resident ∧ q.claims = [0])) ∧ (0xFE : Byte) ≠ 0xFF
    ∧ isBad (S0.readStruct (agentOf S0) 0x360010 16384 256) (·.cause == .align) = true
    ∧ ((withMacros [{ mac3 .loading (some 0) [0] with load := some { image := [], scale := 1, tag := 9, job := 4 } }]).square 0 3).load
        = some { image := [], scale := 1, tag := 9, job := 4 }
    ∧ (S0.square 0 0).state = .empty ∧ (S0.square 0 0).claims = []
    ∧ (let s := withMacros [{ mac3 .resident none [] with id := 0 }]
       (∀ k, k < 1 → (s.square 0 k).state ≠ .empty ∨ (s.square 0 k).claims ≠ []) ∧ (s.square 0 1).state = .empty ∧ (s.square 0 1).claims = []) := ⟨S0_groups, by decide +kernel⟩

/-- The structure that a MLOAD reads is there. -/
theorem wit_MloadReads : isOk (S0.readStruct (agentOf S0) 0x360000 16384 256) (fun _ _ => true) = true := by decide +kernel

/-- A fire's operands that fail each check and none before it, and one that passes them all. -/
theorem wit_MfireChecks :
    let s := (withTile fun _ => tile5 .ready .q8).setBank 0 { Bank.fresh 1 with holder := some 0 }
    let s := s.modCluster 0 fun c => { c with squares := [mac3 .resident none [0]] }
    (∀ v, view5 s = some v → v.state = .ready ∧ (v.fmt = .q8 ∨ v.fmt = .q4) ∧ (v.cols + 127) / 128 = 1 ∧ 0xFF ∉ tileScales v.fmt v.rows v.cols (s.segRead v.store))
      ∧ (view5 s).isSome = true ∧ (s.bank 0 1).holder = some 0 ∧ (s.square 0 3).usable 0 = true ∧ (s.square 0 3).state = .resident ∧ (s.square 0 3).load = none
      ∧ (s.square 0 4).usable 0 = false ∧ (1#6).toNat = 1 ∧ (2#6).toNat ≠ 1
      ∧ (∀ v, view5 (withTile fun _ => tile5 .filling .q8) = some v → v.state ≠ .ready)
      ∧ (∀ v, view5 (withTile fun _ => tile5 .ready .f32) = some v → v.fmt ≠ .q8 ∧ v.fmt ≠ .q4) ∧ (S0.bank 0 1).holder ≠ some 0 := by
  decide +kernel

/-- Tiles that fail each check of MDRAIN, MHAD and MQNT and none before it, and tiles that pass. -/
theorem wit_DrainRotateQuantise : S0.groups = [G0] ∧ (0 : Nat) < 127 ∧ Num.isFin (.fin true 0 0) = true
    ∧ (let s := ((withTile fun _ => { tile5 .filling .f32 with store := [{ loc := .scr 0 0, len := 512 }] }).setTile 0 { tile5 .ready .f16 with id := 6 }).setTile 0 { tile5 .filling .q8 with id := 7 }
       let s := s.setBank 0 { Bank.fresh 1 with holder := some 0 }
       (∀ v, view5 s = some v → v.state = .filling ∧ v.fmt = .f32 ∧ v.cols = 128 ∧ v.queued = false ∧ v.rows = 1 ∧ v.store = [{ loc := .scr 0 0, len := 1 * 128 * elemBytes .f32 }])
         ∧ (view5 s).isSome = true ∧ (s.bank 0 1).holder = some 0 ∧ Memory.wf (team0 s).mem = true ∧ s.team? 0 = some (team0 s)
         ∧ (∀ v, (s.tile 0 6).view 0 = some v → v.state = .ready ∧ v.fmt ≠ .q8 ∧ v.fmt ≠ .q4 ∧ v.cols % 64 = 0 ∧ v.rows = 1 ∧ v.cols = 128)
         ∧ (∀ v, (s.tile 0 7).view 0 = some v → v.state = .filling ∧ v.fmt = .q8 ∧ v.cols = 128 ∧ v.rows = 1 ∧ v.queued = false)
         ∧ ((s.tile 0 6).view 0).isSome = true ∧ ((s.tile 0 7).view 0).isSome = true ∧ view5 S0 = none ∧ 0 < 1 ∧ 1 ≤ 1)
    ∧ (∀ v, view5 (withTile fun _ => { tile5 .filling .f32 with cols := 127 }) = some v → v.cols ≠ 128 ∧ v.cols % 16 ≠ 0)
    ∧ (S0.bank 0 1).holder ≠ some 0 := ⟨S0_groups, by decide +kernel⟩

/-- A MDRAIN in flight whose tile nothing else writes. -/
theorem wit_DrainReturns :
    let p : Pending := { ack .wt with drains := [5] }
    let s := (withTile fun _ => tile5 .filling .f32).modThread 0 0 fun h => { h with pend := [p] }
    s.team? (team0 s).id = some (team0 s) ∧ (team0 s).thread? 0 = some (thr s 0) ∧ (thr s 0).pend[0]? = some p ∧ p.hold = none
      ∧ (∀ x ∈ (team0 s).threads, x.carving = none ∧ ∀ q ∈ x.pend, 5 ∉ q.writes) ∧ (s.tile (clusOf (team0 s).core) 5).after = [] := by decide +kernel

/-! Ring sets -/

/-- Slots that are loaded with each width, loading, not loaded; values that increase and that do not; an image without a
mapping. -/
theorem wit_RingWords : S0.groups = [G0]
    ∧ (let s := S0.modTeam 0 fun tm => { tm with rings := [{ state := .loaded true, values := [1], job := 0 }, { state := .loading false, values := [], job := 5 }] ++ tm.rings.drop 2 }
       (((team0 s).ring 0).state = .loaded true ∧ ((team0 s).ring 1).state = .loading false ∧ ((team0 s).ring 3).state = .unloaded
         ∧ 1 < (team0 s).rings.length ∧ s.team? 0 = some (team0 s)))
    ∧ true = { wide := true, slot := 0 : RsTy }.wide ∧ true ≠ { wide := false, slot := 0 : RsTy }.wide
    ∧ isBad (S0.ringImage (agentOf S0) 3 0x40000000) (fun _ => true) = true
    ∧ isOk (placed .nop [] [(0x370000, bytesLE 4 0xBF800000 ++ bytesLE 4 0 ++ bytesLE 4 0x3F800000)] |>.ringImage (agentOf S0) 3 0x370000)
        (fun _ l => l == [0xBF800000, 0, 0x3F800000]) = true
    ∧ (fmtF32.unpack 0xBF800000).isFin = true ∧ (fmtF32.unpack 0x7F800000).isFin = false
    ∧ (3#2).toNat < (team0 S0).rings.length ∧ (S0.active G0 .none).Nodup := ⟨S0_groups, by decide +kernel⟩

/-- A ring of −1, 0 and 1. -/
def ring3 : List Word := [0xBF800000, 0, 0x3F800000]

theorem ring3_values : ring3.map (fun x => fmtF32.unpack x.toNat) = [.fin true 0x800000 (-23), .fin false 0 (-149), .fin false 0x800000 (-23)] := by
  decide +kernel

/-- Its values are finite and rise; its regions run from 1 to 7; sets of 8 and of 16 regions. -/
theorem wit_RingTablesConversionsTests :
    (∀ x ∈ ring3, (fmtF32.unpack x.toNat).isFin = true) ∧ (ring3.map fun x => (fmtF32.unpack x.toNat).toReal).Pairwise (· < ·)
      ∧ inRegion ring3 4 0 ∧ ¬ inRegion ring3 5 0 ∧ 1 ≤ 1 ∧ 7 ≤ 2 * ring3.length + 1 ∧ (8 = 8 ∨ 8 = 16) ∧ (255 < 2 ^ 8) ∧ (16 = 8 ∨ 16 = 16) ∧ 65535 < 2 ^ 16 := by
  have e : ∀ x ∈ ring3, fmtF32.unpack x.toNat ∈ ring3.map fun x => fmtF32.unpack x.toNat := fun x h => List.mem_map_of_mem h
  have h : (ring3.map fun x => (fmtF32.unpack x.toNat).toReal) = (ring3.map fun x => fmtF32.unpack x.toNat).map Num.toReal := by rw [List.map_map]; rfl
  rw [ring3_values] at e h
  have v : (fmtF32.unpack ((ring3.getD 1 0).toNat)).toReal = 0 := by
    have : fmtF32.unpack ((ring3.getD 1 0).toNat) = .fin false 0 (-149) := by decide +kernel
    rw [this]; norm_num [Num.toReal]
  refine ⟨fun x hx => ?_, ?_, ?_, ?_, by decide⟩
  · have := e x hx
    revert this
    generalize fmtF32.unpack x.toNat = y
    intro this
    fin_cases this <;> rfl
  · rw [h]
    simp only [List.map, Num.toReal]
    norm_num
  · exact ⟨by decide, by decide, v.symm⟩
  · rintro ⟨_, _, h5, _⟩
    rcases h5 with h5 | h5
    · cases h5
    · exact absurd (lt_of_eq_of_lt v.symm h5) (lt_irrefl 0)

/-- Ends that are NaN, infinite and finite; sets that are empty, and with their lowest and highest regions given. -/
theorem wit_RingEnds : (fmtF32.unpack 0x7FC00000).isNan = true ∧ (fmtF32.unpack 0x7F800000).isNan = false ∧ (fmtF32.unpack 0x7F800000).isFin = false
    ∧ (∀ i, i < 8 → hasBit 0 i = false) ∧ hasBit 0x14 2 = true ∧ (∀ k, k < 2 → hasBit 0x14 k = false) ∧ hasBit 0x14 4 = true
    ∧ (∀ k, k < 8 → 4 < k → hasBit 0x14 k = false) ∧ hasBit 0x81 0 = true ∧ hasBit 0x81 7 = true ∧ hasBit 2 1 = true := by decide +kernel

/-! Engines and shadowed buffers -/

/-- A run of one word, and a command with it alone. -/
def run6 : CopyRun := ⟨0, [{ loc := .mem 0x380000, len := 4 }], [{ loc := .mem 0x390000, len := 4 }], [], 0⟩
/-- A command of core 0. -/
def cmd6 : EngCmd := { core := 0, cluster := 0, id := 6, team := 0, runs := [run6], signals := [], bar := none, task := none, shadows := []
                       pins := [], waiters := [], raced := [] }

/-- A group with its lead; control words of XCOPY that fail each check and none before it, and one that passes; a command
that has no barrier, no task and no waiters. -/
theorem wit_EngineCommands : S0.groups = [G0] ∧ S0.team? G0.team = some (team0 S0) ∧ S0.present G0 = [0] ∧ (modEng .none).task = false
    ∧ (modEng .none).bar = none ∧ (modEng (.f3 { EngMod.zero with bar := some 3 })).bar = some 3 ∧ 0 ∉ ((team0 S0).bar 3).arr
    ∧ (3#4).toNat < (team0 S0).bars.length ∧ (team0 S0).thread? 0 = some (thr S0 0)
    ∧ ([(0x50000000 : Word), 0x00020000].all fun w => decide (4 < (w.extractLsb' 28 4).toNat ∨ w.extractLsb' 17 11 ≠ 0)) = true
    ∧ ([(0x00010004 : Word), 2, 0x10000004].all fun w => decide ((w.extractLsb' 28 4).toNat ≤ 4 ∧ w.extractLsb' 17 11 = 0 ∧
        (65536 < (w.extractLsb' 0 17).toNat ∨ (w.extractLsb' 0 17).toNat % (if (w.extractLsb' 28 4).toNat = 1 then 8 else 4) ≠ 0))) = true
    ∧ ([(0x00010000 : Word), 4, 0x40000004].all fun w => decide ((w.extractLsb' 28 4).toNat ≤ 4 ∧ w.extractLsb' 17 11 = 0 ∧ 0 < (w.extractLsb' 0 17).toNat ∧
        (w.extractLsb' 0 17).toNat ≤ 65536 ∧ (w.extractLsb' 0 17).toNat % 4 = 0)) = true
    ∧ 0x380002 % 4 ≠ 0 ∧ 0x380004 % 4 = 0
    ∧ isBad (S0.range (agentOf S0) 0x40000000 4 .read) (fun _ => true) = true
    ∧ isOk (S0.range (agentOf S0) 0x380004 4 .read) (fun s1 _ => isBad (s1.range (agentOf S0) 0x40000000 4 .claim) (fun _ => true)
        && isOk (s1.range (agentOf S0) 0x390004 4 .claim) fun _ _ => true) = true
    ∧ (let s := { S0 with cmds := [cmd6] }
       (s.cmds.find? fun x => x.core = 0 ∧ x.id = 6) = some cmd6 ∧ invB s = true ∧ s.team? 0 = some (team0 s) ∧ (team0 s).sup = false
         ∧ ∀ h ∈ (team0 s).threads, h.carving = none) :=
  ⟨S0_groups, by decide +kernel⟩

/-- Words of a command's destination whose home answers; a live thread; a tenant that counts and one that has stopped; a command with an
arrival that its phase waits for and one that completes it; one with a task record, and with a waiting TLBI. -/
theorem wit_EngineCommandsComplete :
    ((List.range 16).all fun i => S0.homeUp (lineOf (0x390000 + i))) = true ∧ (0x380000 + 4 * 4 ≤ 0x390000) ∧ (thr S0 0).live = true
    ∧ S0.counts (ownerId (team0 S0).task.owner) = true
    ∧ (S0.modTenant 0 fun x => { x with state := .stopped }).counts (ownerId (team0 S0).task.owner) = false
    ∧ (let s := { withBar fun b => { b with pending := 1, arrived := 1 } with cmds := [{ cmd6 with bar := some (15, 0) }] }
       15 < (team0 s).bars.length ∧ ((team0 s).bar 15).phase = 0 ∧ ((team0 s).bar 15).arrived = ((team0 s).bar 15).members
         ∧ ((team0 s).bar 15).members ≠ 0 ∧ ((team0 s).bar 15).pending - 1 = 0)
    ∧ (let s := withBar fun b => { b with pending := 2, arrived := 1 }
       ¬ (((team0 s).bar 15).arrived = ((team0 s).bar 15).members ∧ ((team0 s).bar 15).pending - 1 = 0))
    ∧ (let c := { cmd6 with task := some (bytesLE 8 0x320000 ++ List.replicate 56 0, 0x321000), waiters := [8] }
       let s := { withTask with cmds := [c] }
       let u := (s.moveCmd c []).dropCmd c
       let x := taskOf (bytesLE 8 0x320000 ++ List.replicate 56 0) (team0 s).task.owner 0x321000 0
       taskBytesOk (bytesLE 8 0x320000 ++ List.replicate 56 0) = true ∧ (u.taskKernel x).isSome = true ∧ (u.cluster c.cluster).deque.length < 1024
         ∧ ∀ x ∈ s.cmds, ¬ (x.core = 0 ∧ x.id = 6) → 8 ∉ x.waiters) := by decide +kernel

/-- One thread whose part passes its checks adds it. -/
theorem adds_one {f : State → Nat → State × Except Bad Part} {late : State → Nat → State × Except Bad (Option (List Byte × DWord))} {g : Group}
    {s : State} {tid : Nat} (h : isOk (f s tid) (fun _ q => !q.runs.isEmpty) = true) : ∃ s1 p, Adds f late g s [tid] s1 p ∧ p.runs ≠ [] := by
  obtain ⟨s', q, e, h⟩ := isOk_spec h
  refine ⟨_, _, Adds.added e (Adds.nil _), ?_⟩
  cases hq : q.runs with
  | nil => simp [hq] at h
  | cons x l => simp [Part.add, hq]

/-- One thread whose part fails its checks brings the record that it names. -/
theorem adds_late {f : State → Nat → State × Except Bad Part} {late : State → Nat → State × Except Bad (Option (List Byte × DWord))} {g : Group}
    {s : State} {tid : Nat} {x : List Byte × DWord} (h : isBad (f s tid) (fun _ => isOk (late (f s tid).1 tid) fun _ r => r == some x) = true) :
    ∃ s1 p, Adds f late g s [tid] s1 p ∧ p.runs = [] ∧ p.signals = [] ∧ p.task = some x := by
  obtain ⟨s', b, e, h⟩ := isBad_spec h
  rw [e] at h
  obtain ⟨s'', r, e', h⟩ := isOk_spec h
  obtain rfl : r = some x := by simpa using h
  exact ⟨_, _, Adds.failed e e' (Adds.nil _), rfl, rfl, rfl⟩

/-- A placed XCOPY whose one thread adds a run, or, from an address that is not aligned, only the record at 0x321000. -/
def xcopied (src : Nat) : State :=
  (placed (.xcopy 8 6 10 .dom .none) [(8, 0x390000), (6, src), (10, 4), (12, 0x321000)]
    [(0x320000, [1, 0, 16]), (0x321000, bytesLE 8 0x320000)]).engReady (team0 S0) .dom

theorem wit_XcopyAdds : ∃ s1 p, Adds (State.xcopyPart 8 6 10 false none G0) (State.xcopyTask 10 none G0) G0 (xcopied 0x380000) [0] s1 p ∧ p.runs ≠ [] :=
  adds_one (by decide +kernel)

/-- The record, which is good, of an XCOPY whose source is not aligned. -/
theorem wit_XcopyBrings : let r := bytesLE 8 0x320000 ++ List.replicate 56 0
    (∃ s1 p, Adds (State.xcopyPart 8 6 10 false (some 0) G0) (State.xcopyTask 10 (some 0) G0) G0 (xcopied 0x380002) [0] s1 p ∧ p.runs = [] ∧ p.signals = []
      ∧ p.task = some (r, 0x321000))
    ∧ taskBytesOk r = true ∧ (((xcopied 0x380002).seenTask r (taskOf r (ownerWord false 0 1) 0x321000 0)).taskKernel
        (taskOf r (ownerWord false 0 1) 0x321000 0)).isSome = true ∧ (xcopied 0x380002).counts 0 = true :=
  ⟨adds_late (by decide +kernel), by decide +kernel⟩

/-- A binding of one page. -/
def binding2 : Binding := { id := 2, tenant := 0, asid := 1, home := 0x3A0000, b := 0x3A0000, s := 0x3B0000, len := 4096, visible := [0x3A0000], shadow := [0x3B0000], swaps := [], unbinds := [] }

/-- A command on the shadow of binding 2. -/
def onShadow : EngCmd := { core := 0, cluster := 0, id := 6, team := 0, runs := [], signals := [], bar := none, task := none, shadows := [2], pins := [], waiters := [], raced := [] }

/-- No binding; a binding without and with a command on its shadow, with a swap that waits; ranges that bind and that do not. -/
theorem wit_ShadowBuffers : S0.groups = [G0] ∧ (S0.present G0).Nodup ∧ S0.bindingOf (agentOf S0) 0x3A0000 = none
    ∧ (let s := { S0 with bindings := [binding2] }
       s.bindingOf (agentOf S0) 0x3A0000 = some binding2 ∧ s.homeUp 0x3A0000 = true ∧ (s.modDie 0 fun d => { d with state := .down }).homeUp 0x3A0000 = false ∧ s.shadowCmds 2 none = [] ∧ s.shadowCmds 2 (some 0) = []
         ∧ (s.bindings.find? (·.id = 2)) = some binding2)
    ∧ (let s := { S0 with bindings := [binding2], cmds := [onShadow] }
       s.shadowCmds 2 none ≠ [] ∧ s.shadowCmds 2 (some 0) ≠ [])
    ∧ (let x := { binding2 with swaps := [(8, [6])], unbinds := [9] }
       x.swaps ≠ [] ∧ x.unbinds ≠ [] ∧ (∀ c ∈ [6], ∀ k ∈ S0.cmds, k.id ≠ c) ∧ (8, [6]) ∉ ([] : List (Nat × List Nat)))
    ∧ (4096#32).toNat ≠ 0 ∧ 0x3A0800 % 4096 ≠ 0
    ∧ isBad (S0.bind (agentOf S0) 0x3A0000 0x40000000 4096) (fun _ => true) = true
    ∧ isOk (S0.bind (agentOf S0) 0x3A0000 0x3B0000 4096) (fun s1 _ => s1.present G0 == S0.present G0 && decide (s1.thread? 0 0 = some (thr S0 0))) = true := ⟨S0_groups, by decide +kernel⟩

/-- A TASK record at the address in v6 and v7, aligned and mapped, unmapped and misaligned, for an XCOPY of nothing; a shadow XCOPY without
a binding. -/
theorem wit_CopyTask : (modEng (.f3 { EngMod.zero with task := true })).task = true
    ∧ (let s := placed .nop [] []
       isOk (s.readStruct (agentOf s) 0x300000 64 64) (fun _ _ => true) = true ∧ isBad (s.readStruct (agentOf s) 0x40000000 64 64) (fun _ => true) = true
         ∧ (0x300004#64).toNat % 64 ≠ 0 ∧ s.bindings = []) := by
  decide +kernel

/-! Issue, results, traps -/

/-- `S0` with no group, its thread changed. -/
def idle0 (f : Thread → Thread) : State := { S0 with groups := [] }.modThread 0 0 f

/-- A thread filed at the placed clause. -/
def filed0 (st : Status) (h : Thread) : Thread := { h with status := st, pc := 0x200040, word := 0 }

/-- The control stream of a placed team, ready at the placed clause. -/
def stream0 : State :=
  let tm := placeTeam State.reset false true false 0x200050
  { S0 with groups := [], teams := [{ tm with threads := tm.threads.map fun h => if h.ctl then { h with status := .ready, pc := 0x200040 } else { h with status := .exited } }] }

/-- A result that writes v8 and p1, with a flag. -/
def res0 : Pending := { ctr := .wa, regs := [{ idx := 8, val := 5, clash := false }], preds := [{ idx := 1, val := true, clash := false }], flags := 1, hold := none }

/-- Sources that are not due, aged, and held; a clause that fetches and one that does not; a ready stream; a result of a
thread that issues and of one that is parked. -/
theorem wit_IssueAndReturn :
    (let s := idle0 (filed0 .spill)
     s.phase = .open ∧ s.groups = [] ∧ (∀ tm ∈ s.teams, ∀ h ∈ tm.threads, h.status ≠ .parked)
       ∧ (s.sources 0).length = 1 ∧ ∀ x ∈ s.sources 0, s.clock < x.age + 64 ∧ x.quick = false)
    ∧ (let s := { idle0 (filed0 .spill) with clock := 64 }
       ∃ x ∈ s.sources 0, x.age + 64 ≤ s.clock ∧ s.team? x.team.id = some x.team ∧ (∀ h ∈ x.threads, x.team.thread? h.tid = some h)
         ∧ x.threads.map (·.tid) = [0] ∧ isOk (s.fetchClause x.team false false 0 0x200040 0) (fun _ ws => ws.length == 4) = true
         ∧ isBad (s.fetchClause x.team false false 0 0x40000000 0) (fun u => u.cause == 3) = true)
    ∧ (∃ x ∈ (idle0 (filed0 (.held 0))).sources 0, (idle0 (filed0 (.held 0))).clock < x.age + 64 ∧ x.quick = true)
    ∧ (let s := stream0
       s.groups = [] ∧ (∀ tm ∈ s.teams, ∀ h ∈ tm.threads, h.status ≠ .parked) ∧ s.team? 0 = some (team0 s)
         ∧ (team0 s).thread? tidCtl = some (thr s tidCtl) ∧ (thr s tidCtl).ctl = true ∧ (thr s tidCtl).status = .ready ∧ (thr s tidCtl).yielded = false
         ∧ s.readyOf (team0 s) [thr s tidCtl] ≠ [] ∧ clusOf (team0 s).core = 0 ∧ (team0 s).state = .run ∧ s.teams.length = 1)
    ∧ (∀ st ∈ [Status.issuing, .parked], let s := idle0 fun h => { h with pend := [res0], status := st }
       s.team? 0 = some (team0 s) ∧ (team0 s).thread? 0 = some (thr s 0) ∧ (thr s 0).pend[0]? = some res0 ∧ (thr s 0).pend.length = 1
         ∧ res0.hold = none ∧ (res0.regs.map (·.idx)).Nodup ∧ (res0.preds.map (·.idx)).Nodup ∧ 8 < (thr s 0).v.length) := by decide +kernel

/-- No thread of the result's team is in a CARVE, and no word waits at a tile. -/
theorem wit_ReturnLetsNothingGo :
    let s := idle0 fun h => { h with pend := [res0], status := .parked }
    (∀ x ∈ (team0 s).threads, x.carving = none ∧ ∀ q ∈ x.pend, ∀ n ∈ res0.drains, n ∉ q.writes)
      ∧ ∀ x ∈ (s.cluster (clusOf (team0 s).core)).tiles, x.after = [] := by decide +kernel

/-- A source that is due is drawn, its thread issuing with the fall-through as next PC (R40, R41); one whose fetch fails traps; a
result returns, and its parked thread is filed (R54). -/
theorem test_draw : leaves (.issueGroupDraw false 0 0) { idle0 (filed0 .spill) with clock := 64 } (fun t => decide (t.groups.map (fun g => (g.slots, g.idx)) = [([0], 1)])
      && decide ((thr t 0).status = .issuing) && (thr t 0).pc == 0x200050)
    ∧ leaves (.issueGroupDraw false 0 0) { idle0 (fun h => { h with status := .spill, pc := 0x40000000 }) with clock := 64 }
        (fun t => t.groups.isEmpty && match (thr t 0).status with | .trapped u => u.cause == 3 && u.header == 0x40000000 | _ => false)
    ∧ leaves (.resultReturn 0 0 0) (idle0 fun h => { h with pend := [res0], status := .parked })
        (fun t => (thr t 0).raw 8 == 5 && (thr t 0).rawPred 1 && (thr t 0).pend.isEmpty && decide ((thr t 0).status ≠ .parked)) := by decide +kernel

/-- A trap of some cause at a word. -/
def trap0 (cause detail : Nat) : Trap :=
  { cause := BitVec.ofNat 8 cause, detail := BitVec.ofNat 20 detail, write := false, cls := 0, addr := 0x40000000, header := 0x200040, word := 1 }

/-- A trapped thread of a team. -/
def trapped0 (cause : Nat) (f : Team → Team) (g : Thread → Thread) : State :=
  (idle0 fun h => g { h with status := .trapped (trap0 cause 1) }).modTeam 0 f

/-- A thread whose trap is the premise. -/
def isTrapped (s : State) (u : Trap) : Bool :=
  decide (s.team? 0 = some (team0 s)) && decide ((team0 s).thread? 0 = some (thr s 0)) && decide ((thr s 0).status = .trapped u)

/-- A team with a handler. -/
def handled (tm : Team) : Team := { tm with kern := { tm.kern with handler := 128 } }

/-- One with results in flight; supervisor tasks and user tasks with a handler, without, and inside it; XLATE with and without a
fault landing, first and later; a control stream. -/
theorem wit_TrapsTakeTheirRoad :
    (isTrapped (trapped0 6 id fun h => { h with pend := [res0] }) (trap0 6 1) && (thr (trapped0 6 id fun h => { h with pend := [res0] }) 0).pend != []
    && [6, 3, 4].all fun c => isTrapped (trapped0 c id id) (trap0 c 1) && (thr (trapped0 c id id) 0).pend == [] && !(team0 (trapped0 c id id)).beforeIt 0 (trap0 c 1)
      && isTrapped (trapped0 c handled id) (trap0 c 1) && (team0 (trapped0 c handled id)).kern.handler != 0
      && isTrapped (trapped0 c handled fun h => { h with handler := true }) (trap0 c 1)
      && isTrapped (trapped0 c (fun tm => { handled tm with kern := { tm.kern with sup := true } }) id) (trap0 c 1)
      && isTrapped (trapped0 c (fun tm => { tm with kern := { tm.kern with sup := true } }) id) (trap0 c 1)
      && isTrapped (trapped0 c (fun tm => { tm with record := some (trap0 3 0) }) id) (trap0 c 1)) = true
    ∧ (trapped0 3 id id).regs.fland = 0 ∧ (let s := stream0.modThread 0 tidCtl fun h => { h with status := .trapped (trap0 6 1) }
        s.team? 0 = some (team0 s) ∧ (team0 s).thread? tidCtl = some (thr s tidCtl) ∧ (thr s tidCtl).ctl = true ∧ (thr s tidCtl).pend = []) := by decide +kernel

/-- The code of the one fatal record. -/
def codes (t : State) : List Nat := t.fatals.map fun f => leNat (f.record.take 4) % 256

/-- The roads of R327 to R332: NOHANDLER, the handler, SAVEFAIL without a fault landing, suspension with one, CTLTRAP. -/
theorem test_roads : leaves (.trapDeliver 0 0) (trapped0 6 id id) (fun t => codes t == [0x23] && (thr t 0).fault == 0x1006)
    ∧ leaves (.trapDeliver 0 0) (trapped0 6 handled id) (fun t => codes t == [] && (thr t 0).handler && (thr t 0).pc == 0x200080)
    ∧ leaves (.trapDeliver 0 0) (trapped0 3 id id) (fun t => codes t == [0x25])
    ∧ (let s := trapped0 3 id id
       leaves (.trapDeliver 0 0) { s with regs := { s.regs with fland := 64 } } (fun t => codes t == [] && (team0 t).susp && decide ((team0 t).state = .halt))
        = true)
    ∧ leaves (.trapDeliver 0 tidCtl) (stream0.modThread 0 tidCtl fun h => { h with status := .trapped (trap0 6 1) }) (fun t => codes t == [0x24]) := by decide +kernel

/-- A suspended team with its record; FLAND names a landing descriptor at 0x310000 under a supervisor's ASID 2. -/
def susp0 (land : Landing → Landing) (f : Team → Team) : State :=
  let s := ((withLanding land).modThread 0 0 fun h => { h with status := .faulted (trap0 3 1) }).modTeam 0 fun tm =>
    f { tm with susp := true, record := some (trap0 3 1), state := .victim }
  { s with groups := [], regs := { s.regs with rtasid := 2, fland := 0x310000 }, mem := cellsSet (cellsSet s.mem 0x100020 (bytesLE 8 0x102000)) 0x100028 [0, 3] }

/-- The premises about a suspended team. -/
def isSusp (s : State) : Bool := decide (s.team? 0 = some (team0 s)) && (team0 s).susp && decide ((team0 s).record = some (trap0 3 1))

/-- A state as the fault landing's address leaves it once it is read (R344). -/
def fland (s : State) : State := s.touched rtWindow (s.regs.rtasid.toNat % 4096) s.regs.fland.toNat false

/-- A posted record, one without an open landing, one with room, one whose landing's die is down; each verdict, with a handler, without, and inside it. -/
theorem wit_FaultRecordsAndVerdicts :
    (let s := susp0 id fun tm => { tm with posted := true }
     isSusp s = true ∧ (team0 s).posted = true)
    ∧ (let s := susp0 (fun l => { l with state := .sealed }) id
       isSusp s = true ∧ (team0 s).posted = false ∧ (fland s).faultLanding = some (land7 s) ∧ (land7 s).state = .sealed ∧ (fland s).landDown (land7 s) = false)
    ∧ (let s := susp0 id id
       isSusp s = true ∧ (team0 s).posted = false ∧ (fland s).faultLanding = some (land7 s) ∧ (fland s).landDown (land7 s) = false ∧ (land7 s).state = .opened
         ∧ (land7 s).inSlots < (land7 s).slots ∧ (team0 s).stopped = false
         ∧ (∀ w ∈ (fland s).waiters (land7 s).id true, w ≠ ((team0 s).postAt, 0, tidRecord) → (team0 s).postAt < w.1) ∧ (fland s).landing? (land7 s).id = some (land7 s) ∧ (land7 s).expert = none)
    ∧ (let s := (susp0 id id).modDie 0 fun d => { d with state := .down }
       isSusp s = true ∧ (team0 s).posted = false ∧ (fland s).faultLanding = some (land7 s) ∧ (fland s).landDown (land7 s) = true)
    ∧ (∀ v ∈ [1, 2, 3], ∀ st ∈ [TeamState.victim, .saved], ∀ hd ∈ [0, 128],
        let s := susp0 id fun tm => { tm with verdict := BitVec.ofNat 2 v, state := st, kern := { tm.kern with handler := hd } }
        isSusp s = true ∧ (team0 s).thread? (team0 s).recordTid = some (thr s 0) ∧ (thr s 0).ctl = false ∧ (thr s 0).handler = false
          ∧ (thr ((s.modThread 0 0 fun h => { h with handler := true })) 0).handler = true) := by decide +kernel

/-- A record is pushed to the fault landing (R332); RETRY, USER and KILL (R334). -/
theorem test_verdicts : leaves (.faultRecordPost 0) (susp0 id id) (fun t => (land7 t).waiting.length == 1 && (team0 t).posted && codes t == [])
    ∧ leaves (.verdictRetry 0) (susp0 id fun tm => { tm with verdict := 1 }) (fun t => !(team0 t).susp && (thr t 0).pc == 0x200040 && (thr t 0).word == 1 && codes t == [])
    ∧ leaves (.verdictUser 0) (susp0 id fun tm => handled { tm with verdict := 2 }) (fun t => (thr t 0).pc == 0x200080 && (thr t 0).handler && (thr t 0).fault.getLsbD 15)
    ∧ leaves (.verdictKill 0) (susp0 id fun tm => { tm with verdict := 3 }) (fun t => codes t == [0x26]) := by decide +kernel

/-- A thread blocked in a BWAIT since clock 0 under a watchdog of one unit, or of none. -/
def slow0 (clock wdog : Nat) : State := { (S0.block G0 0 (.bwait 15 0 8)).modTenant 0 (fun t => { t with wdog := BitVec.ofNat 32 wdog }) with clock := clock }

/-- A fatal cause of tenant 0, or a supervisor's. -/
def fatal0 (sup : Bool) : Fatal := { tenant := 0, record := bytesLE 64 0x27, sup := sup }

/-- A blocked word at and beyond its watchdog; each kind of soft error; a tenant with and without fatal causes, in each state;
a supervisor's cause. -/
theorem wit_WatchdogStopsAndResets :
    (∀ x ∈ [(65536, 1), (65537, 1), (65537, 0)], let s := slow0 x.1 x.2
      s.team? 0 = some (team0 s) ∧ (team0 s).thread? 0 = some (thr s 0) ∧ (team0 s).state = .run ∧ (s.tenant (ownerId (team0 s).task.owner)).wdog.toNat = x.2
        ∧ (match (thr s 0).status with | .blocked b => b.wait.watched && b.since == 0 | _ => false) = true)
    ∧ S0.team? 0 = some (team0 S0) ∧ (3 : BitVec 2) ≠ 0 ∧ S0.fatals = [] ∧ (S0.tenant 63).state = .absent ∧ (S0.tenant 0).state = .active
    ∧ (({ S0 with fatals := [fatal0 false] } : State).fatals.filter fun f => !f.sup && f.tenant == 0) ≠ []
    ∧ (∃ f ∈ ({ S0 with fatals := [fatal0 true] } : State).fatals, f.sup = true) := by decide +kernel

/-- The watchdog's limit (R122): nothing at 65,536 cycles, WDOG one later; a fatal cause stops its tenant (R335). -/
theorem test_watchdog : leaves (.wdogExpire 0 0) (slow0 65536 1) (fun t => match (thr t 0).status with | .blocked _ => true | _ => false)
    ∧ leaves (.wdogExpire 0 0) (slow0 65537 1) (fun t => match (thr t 0).status with | .trapped u => u.cause == 13 | _ => false)
    ∧ leaves (.tenantStop 0) { S0 with fatals := [fatal0 false] } (fun t => (team0 t).stopped && decide ((team0 t).state = .halt) && decide ((t.tenant 0).state = .stopped))
    ∧ leaves .deviceRuntimeReset { S0 with fatals := [fatal0 true] } (fun t => t.regs.rtfail && t.teams.length == 1) := by decide +kernel

/-! Launches, placement, stopped teams -/

/-- A launch record: its dimensions, LID and DEP0. -/
def launchBytes (x y z lid dep0 : Nat) : List Byte :=
  bytesLE 8 0x320000 ++ bytesLE 8 0 ++ bytesLE 4 x ++ bytesLE 4 y ++ bytesLE 4 z ++ bytesLE 4 0 ++ bytesLE 8 0 ++ bytesLE 4 lid ++ bytesLE 4 dep0 ++ bytesLE 16 0

/-- A booted module with tenant 0 active and a kernel at 0x320000, that runs no team. -/
def quiet : State := { placed .nop [] [(0x320000, [1, 0, 16])] with groups := [], teams := [] }.modTenant 0 fun t =>
  { t with savepool := 0x1000000, savebytes := 0x100000, teamq := 16 }

/-- That module with a launch accepted. -/
def launched (clock : Nat) (f : Launch → Launch) : State :=
  { quiet with clock := clock, launches := [f { launchOf (launchBytes 2 3 1 1 0) 9 0 (ownerWord false 0 1) with readyAt := some 0 }], ids := 20 }

/-- The launch of `launched`. -/
def launch9 (s : State) : Launch := (s.launches.head?).getD (launchOf [] 0 0 0)

/-- What a window write does to DROPS and LASTDROP, and how many launches it leaves. -/
def wrote (s : State) (w off : Nat) (b : List Byte) (f : Nat × Nat × Nat → Bool) : Bool :=
  leaves (.launchWindowWrite w off b) s fun t => f ((t.tenant w).drops, (t.tenant w).lastdrop, t.launches.length)

/-- Each drop code of R287 in its order, an accepted record, one that meets none of the checks, and a write beyond the slots. -/
theorem test_window :
    wrote quiet 63 0 (launchBytes 1 1 1 1 0) (· == (1, 6, 0)) ∧ wrote quiet 0 4 (launchBytes 0 1 1 1 0) (· == (1, 1, 0))
    ∧ wrote (quiet.modTenant 0 fun t => { t with ctrl := 7 }) 0 0 (launchBytes 0 1 1 1 0) (· == (1, 2, 0))
    ∧ wrote quiet 0 0x7C0 (launchBytes 1 0 1 1 0) (· == (1, 3, 0)) ∧ wrote quiet 0 0 (launchBytes 1 1 1 1 0x80000001) (· == (1, 5, 0))
    ∧ wrote (quiet.modTenant 0 fun t => { t with queues := t.queues.set 0 { Queue.fresh with last := some 1 } }) 0 0 (launchBytes 1 1 1 1 0) (· == (1, 4, 0))
    ∧ wrote quiet 0 0 (launchBytes 1 1 1 1 0) (· == (0, 0, 1)) ∧ wrote quiet 0 0x800 (launchBytes 1 1 1 1 0) (· == (0, 0, 0)) := by decide +kernel

/-- Tenants in each state with their 16 queues; launches that are ready, active, late or not, of a task that may run and of one
that may not; the rank with and without slack. -/
theorem wit_LaunchesQueueAndAdvance : quiet.phase = .open ∧ (quiet.tenant 0).queues.length = 16 ∧ (quiet.tenant 63).state = .absent ∧ (quiet.tenant 0).state = .active
    ∧ (quiet.tenant 64).state = .active
    ∧ (launch9 (launched 0 id)).readyAt = some 0
    ∧ (let s := launched 0 id
       (s.launches.filter fun l => !l.active && l.readyAt.isSome && (s.tenant l.tenant).state == .active) ≠ [])
    ∧ (launched 0 id).launches.find? (·.id = 9) = some (launch9 (launched 0 id)) ∧ (launch9 (launched 0 id)).late = false
    ∧ (let s := launched 2048 fun l => { l with deadline := 2 }
       (launch9 s).deadline ≠ 0 ∧ ((launch9 s).deadline - BitVec.ofNat 32 (s.clock / 1024)).sle 0 = true)
    ∧ (let s := launched 2047 fun l => { l with deadline := 2 }
       ¬ ((launch9 s).deadline - BitVec.ofNat 32 (s.clock / 1024)).sle 0 = true)
    ∧ (let s := launched 0 fun l => { l with active := true }
       let l := launch9 s
       l.active = true ∧ l.next < l.x * l.y * l.z ∧ (s.tenant l.tenant).state = .active ∧ s.badTask (l.task 0) = none ∧ s.canOffer l = true ∧ l.flags.getLsbD 16 = false
         ∧ ∀ x ∈ s.activeLaunches, s.canOffer x = true → s.rankOf l < s.rankOf x ∨ (s.rankOf l = s.rankOf x ∧ l.id ≤ x.id))
    ∧ (let s := launched 0 fun l => { l with active := true, kernel := 0x324000 }
       s.taskKernel ((launch9 s).task 0) = none)
    ∧ quiet.clock / 1024 ≤ quiet.tickPressure ∧ (launched 1024 id).tickPressure < (launched 1024 id).clock / 1024
    ∧ (quiet.tenants.find? (·.id = 0)).isSome = true := by decide +kernel

/-- The rank of R292 at WCLASS 7, LEVEL 511, no deadline: 7 · 2^29 + 511 · 2^20 + 0xFFFFF, less 2^20 for each 65,536 cycles of
waiting; the task after (1, 2, 0) of a grid of 2 by 3 (R32); the cluster after the one used last (R294). -/
theorem test_launches : (launched 0 id).rankOf (launch9 (launched 0 id)) = 7 * 2 ^ 29 + 511 * 2 ^ 20 + 0xFFFFF
    ∧ (launched 131072 id).rankOf (launch9 (launched 131072 id)) = 7 * 2 ^ 29 + 509 * 2 ^ 20 + 0xFFFFF
    ∧ leaves (.gridTaskGenerate 9) (launched 0 fun l => { l with active := true, next := 5 })
        (fun t => match (launch9 t).offer with | some (c, u) => c == 0 && u.x == 1 && u.y == 2 && u.z == 0 | none => false)
    ∧ leaves .launchActivate (launched 0 id) (fun t => (launch9 t).active)
    ∧ leaves (.launchLate 9) (launched 2048 fun l => { l with deadline := 2 }) (fun t => (launch9 t).late && (t.tenant 0).late == 1) := by decide +kernel

/-- A task of the kernel at 0x320000, with a place in the order. -/
def task0 (order : Nat) : Task := { (launch9 (launched 0 id)).task order with launch := none }

/-- A cluster whose deque holds tasks. -/
def queued (l : List Task) : State := { quiet.modCluster 0 (fun c => { c with deque := l }) with ids := 20 }

/-- A floor reservation for the tasks of stage 1, and a haul of that stage. -/
def floored : State :=
  { queued [{ task0 3 with flags := 0x100, landing := some 7, haul := 1 }] with
    floors := [{ tenant := 0, stage := 1, core := 0, need := { teams := 1, threads := 1, granules := 1, bars := 0, lands := 0 }, control := false }] }

/-- A task that has finished, of a launch with another task to come, and of one without. -/
def ended (f : Launch → Launch) (join : Nat) : State :=
  let s := { launched 0 (fun l => f { l with active := true, live := 1, next := 1 }) with teams := [placeTeam State.reset false false false 0] }
  s.modTeam 0 fun tm => { tm with threads := tm.threads.map fun h => { h with status := .exited }, task := { tm.task with launch := some 9, join := BitVec.ofNat 64 join } }

/-- Floors with and without a haul, candidates, an idle thief with and without loot, spilled tasks, finished teams. -/
theorem wit_TasksArePlacedAndComplete :
    (floored.phase = .open ∧ floored.deadTask 0 = none ∧ (floored.floors.filter (·.core = 0)).map (fun f => (floored.floorTask f).map (·.1)) = [some { task0 3 with flags := 0x100, landing := some 7, haul := 1 }]
      ∧ (task0 3).launch = none)
    ∧ quiet.candidates 0 = [] ∧ quiet.floors = [] ∧ quiet.deadTask 0 = none
    ∧ (let s := queued [task0 3, { task0 4 with flags := 1 }]
       s.deadTask 0 = none ∧ (∀ x ∈ s.teams, x.id < s.ids) ∧ task0 3 ∈ s.candidates 0 ∧ { task0 4 with flags := 1 } ∈ s.candidates 0 ∧ (s.fitOn 0 (task0 3)).isSome = true
         ∧ (s.fitOn 0 { task0 4 with flags := 1 }).isSome = true ∧ { task0 4 with flags := 1 }.prio ≠ (task0 3).prio)
    ∧ (queued [task0 3]).idle 1 = true ∧ ((queued [task0 3]).loot 1).map (·.1) = some (task0 3) ∧ quiet.idle 127 = true ∧ quiet.loot 127 = none
    ∧ (let s := (queued []).modTenant 0 fun t => { t with spilled := [{ cluster := 0, place := 0, task := task0 3 }] }
       s.oldestSpilled 0 = some { cluster := 0, place := 0, task := task0 3 } ∧ (s.cluster 0).deque.length < 1024 ∧ (s.die 0).state = .up)
    ∧ 1024 ≤ ((queued (List.replicate 1024 (task0 3))).cluster 0).deque.length
    ∧ (let s := ended id 0
       s.team? 0 = some (team0 s) ∧ s.finished (team0 s) = true ∧ (team0 s).task.launch = some 9 ∧ s.launches.find? (·.id = 9) = some (launch9 s)
         ∧ (launch9 s).next < (launch9 s).x * (launch9 s).y * (launch9 s).z)
    ∧ (let s := ended (fun l => { l with next := 6 }) 0
       (launch9 s).x * (launch9 s).y * (launch9 s).z ≤ (launch9 s).next ∧ (launch9 s).live ≤ 1)
    ∧ (let s := ended id 4
       s.finished (team0 s) = true ∧ (team0 s).task.join.toNat % 128 ≠ 0) := by decide +kernel

/-- What the kernel of a task asks of a core, if it may run there. -/
def roomFor (s : State) (u : Task) : Option Bool :=
  (s.fitOn 0 u).map fun x => (State.claim 0 s.ids (fun s => s.fits 0 u x.1 false) 17 s).fits 0 u x.1 false

/-- A task finds room on an empty core, and none where the victim that fills the core cannot be saved. -/
theorem wit_VictimsMakeRoom : roomFor (queued [task0 3]) (task0 3) = some true
    ∧ (let full := { placeTeam State.reset false false false 0 with id := 0, vregs := 96, scratch := 4096 * 351, state := .victim, slotLen := 8192 }
       let s := { (queued [task0 3]).modTenant 0 fun t => { t with savepool := 0x40000000 } with teams := [full] }
       roomFor s (task0 3) = some false ∧ task0 3 ∈ s.candidates 0) := by decide +kernel

/-- Of two candidates the one of higher priority is placed (R297), its thread at the entry of its kernel; a thief takes the queued task
(R299); a grid's last task ends it (R33). -/
theorem test_tasks : leaves (.taskPlace 0) (queued [task0 3, { task0 4 with flags := 3 }])
      (fun t => t.teams.map (fun x => (x.id, x.core, x.task.order, x.threads.map (·.pc))) == [(20, 0, 4, [0x320040])] && (t.cluster 0).deque.map (·.order) == [3])
    ∧ leaves (.clusterSteal 1) (queued [task0 3]) (fun t => t.teams.map (fun x => (x.core, x.task.order)) == [(4, 3)] && (t.cluster 0).deque.isEmpty)
    ∧ leaves (.taskComplete 0) (ended (fun l => { l with next := 6 }) 0) (fun t => t.teams.isEmpty && t.launches.isEmpty)
    ∧ leaves (.taskComplete 0) (ended id 4) (fun t => codes t == [0x21] && t.launches.length == 1) := by decide +kernel

/-- A launch of tenant 1 that has waited long at rank 0, with each core of die 0 full of one team of tenant 0 and no other die in service. -/
def crowded : State :=
  let full := { placeTeam State.reset false false false 0 with id := 0, vregs := 96, scratch := 4096 * 351 }
  let s := { launched 9000000000 (fun l => { l with active := true, tenant := 1, owner := ownerWord false 1 1, zeroAt := some 0 }) with
    teams := (List.range 64).map fun c => { full with id := c, core := c, task := { full.task with launch := some 8 } }, dies := (List.range 7).map fun d => { quiet.die (d + 1) with state := .draining 0 } }
  let s := (s.modTenant 1 fun t => { t with state := .active, teamq := 1, savepool := 0x1000000, savebytes := 0x100000 })
  { s with launches := s.launches ++ [{ launch9 s with id := 8, tenant := 0, active := false, readyAt := some 9000000000 }]
           mem := cellsSet s.mem 0x100018 [1, 1] }

/-- A state whose team 0 has some stop state, one thread blocked in a BSYNC that has arrived at phase 3. -/
def stopped0 (st : TeamState) (f : Team → Team) : State :=
  ({ S0.block G0 0 (.bsync 15 3 8 true) with groups := [] }.modTenant 0 fun t => { t with teamq := 16 }).modTeam 0 fun tm => f { tm with state := st, slotLen := 8192 }

/-- Pre-emption that may and may not happen; teams halted and drained, running, victims and saved, with their places to return to. -/
theorem wit_TeamsStopAndReturn :
    (let s := launched 0 fun l => { l with active := true }
     s.launches.find? (·.id = 9) = some (launch9 s) ∧ s.mayPreempt (launch9 s) = false)
    ∧ (let s := stopped0 .halt id
       s.team? 0 = some (team0 s) ∧ s.drainedTeam (team0 s) = true ∧ (team0 s).thread? 0 = some (thr s 0)
         ∧ (match (thr s 0).status with | .blocked _ => true | _ => false) = true)
    ∧ S0.drainedTeam (team0 S0) = false ∧ (team0 S0).state ≠ .victim ∧ (team0 (stopped0 .victim id)).state = .victim
    ∧ (let s := stopped0 .halt fun tm => { tm with stopped := true }
       s.team? 0 = some (team0 s) ∧ (team0 s).stopped = true ∧ s.drainedTeam (team0 s) = true)
    ∧ (let s := S0.modTeam 0 fun tm => { tm with stopped := true }
       (team0 s).stopped = true ∧ s.drainedTeam (team0 s) = false)
    ∧ (∃ f ∈ ({ stopped0 .victim id with fatals := [fatal0 false] } : State).fatals, f.sup = (team0 S0).sup ∧ (f.sup = true ∨ f.tenant = (team0 S0).tenant))
    ∧ (stopped0 .victim id).fatals = [] := by decide +kernel

/-- A team of one save slot that waits to run again, its thread not blocked, with some images of it in a slot that holds one byte of them. -/
def rested (st : TeamState) (l : List Nat) : State :=
  let s := { S0 with groups := [] }.modTenant 0 fun t => { t with teamq := 16 }
  (s.modThread 0 0 (filed0 .ready)).modTeam 0 fun tm => { tm with state := st, slotLen := 105, images := l.map tm.image }

/-- A victim that goes on where it is; saved teams of a user with no image, and with the one its slot holds, or another one: the slot's
byte is 0, so that which image it is turns on the free bytes of images (log 17). -/
theorem wit_TeamsReturn :
    (∀ st ∈ [TeamState.victim, .saved], ∀ c ∈ [0, 511], let s := rested st []
       s.team? 0 = some (team0 s) ∧ (team0 s).task.set = none ∧ s.canRestore (team0 s) c = true ∧ s.takesBack (team0 s) c false = true ∧ (team0 s).core = 0
         ∧ (team0 s).sup = false ∧ (team0 s).images = [] ∧ ∀ h ∈ (team0 s).threads, h.status = .ready)
    ∧ (let s := rested .saved [0]
       isOk (s.slotLoad (team0 s) 2 (s.slotAddr (team0 s) + 104) 1) (fun _ b => b == [0]) = true ∧ (team0 s).slotLen / 4096 + 2 = 2 ∧ (team0 s).images.map (·.number) = [0])
    ∧ (let s := (rested .saved []).modTenant 0 fun t => { t with savepool := 0x40000000 }
       isBad (s.slotLoad (team0 s) 2 (s.slotAddr (team0 s) + 104) 1) (fun _ => true) = true)
    ∧ (team0 (rested .saved [1, 0])).images.map (·.number) = [1, 0] := by decide +kernel

/-- With those free bytes, the newer of two images is not what the slot holds, and the older is. -/
theorem wit_OlderImage (h0 : Config.freeByte 0 = 0) (h1 : Config.freeByte (2 ^ 24) ≠ 0) : [0] = imageBytes 0 1 ∧ ¬ [0] = imageBytes 1 1 := by
  simpa [imageBytes, List.range_succ, h0] using fun h => h1 h.symm

/-- A core can make room by pre-empting its one team. -/
theorem wit_PreemptPlan : (launch9 crowded).member = none ∧ ((launch9 crowded).task 0).cbound = false ∧ crowded.launches.find? (·.id = 9) = some (launch9 crowded) ∧ crowded.mayPreempt (launch9 crowded) = true
    ∧ ((crowded.victimsOn (launch9 crowded) ((launch9 crowded).task 0) 0).map fun v => v.map (·.id)) = some [0] := by decide +kernel

/-- The choice of the shortest plan keeps one that it has. -/
theorem shortest_keeps {f : Option (List Team) → Option (List Team) → Option (List Team)} (hn : ∀ m, f m none = m)
    (hs : ∀ m v, ∃ w, f m (some v) = some w) : ∀ (l : List (Option (List Team))) (m : Option (List Team)),
      ((∃ w, m = some w) ∨ ∃ v, some v ∈ l) → ∃ w, l.foldl f m = some w
  | [], _, .inl h => h
  | [], _, .inr ⟨_, h⟩ => by cases h
  | none :: l, m, h => by
      rw [List.foldl_cons, hn m]
      exact shortest_keeps hn hs l m (h.imp_right fun ⟨v, b⟩ => ⟨v, by simpa using b⟩)
  | some v :: l, m, _ => by
      rw [List.foldl_cons]
      exact shortest_keeps hn hs l _ (.inl (hs m v))

/-- So the crowded module has a plan. -/
theorem wit_PreemptPlanned : ∃ v, crowded.preemptPlan (launch9 crowded) = some v := by
  have h := wit_PreemptPlan
  obtain ⟨v, hv, e⟩ := Option.map_eq_some_iff.mp h.2.2.2.2
  have hm : some v ∈ (List.range 512).map (crowded.victimsOn (launch9 crowded) ((launch9 crowded).task 0)) :=
    List.mem_map.mpr ⟨0, List.mem_range.mpr (by decide), hv⟩
  unfold State.preemptPlan
  rw [h.1]
  simp only [h.2.1, Bool.false_eq_true, if_false]
  refine shortest_keeps (fun _ => rfl) (fun m w => ?_) _ _ (.inr ⟨v, hm⟩)
  cases m with
  | none => exact ⟨_, rfl⟩
  | some z => dsimp only; split <;> exact ⟨_, rfl⟩

/-- A halted team that has drained is a victim, its BSYNC withdrawn with the arrival recorded (R46, R139); a victim is restored on its
core (R340); a running team is not saved. -/
theorem test_stops : leaves (.teamDrainComplete 0) (stopped0 .halt id) (fun t => decide ((team0 t).state = .victim) && (thr t 0).pc == 0x200040
      && match (thr t 0).arrivals with | [a] => a.bar == 15 && a.phase == 3 | _ => false)
    ∧ leaves (.teamRestore 0 0) (stopped0 .victim id) (fun t => decide ((team0 t).state = .run))
    ∧ leaves (.teamRestore 0 511) (stopped0 .saved id) (fun t => decide ((team0 t).state = .run) && (team0 t).core == 511)
    ∧ leaves (.teamSave 0) (stopped0 .run id) (fun t => decide ((team0 t).state = .run)) := by decide +kernel

/-! Time, tenants, dies, fabric, boot -/

/-- A core with a line of one dirty byte at 0x380005. -/
def dirty0 : State := S0.modCore 0 fun c => { c with lines := [{ pa := 0x380000, data := List.replicate 64 0, lease := none, vas := [], dirty := [{ off := 5, val := 9, writers := [], carried := [], since := 0 }] }] }

/-- A tick that is due and one that is not; a dirty line in and out of service; an epoch that is due and one that is not; cores with
and without teams, asleep in this epoch and another; walks that succeed and fail. -/
theorem wit_TimeAndEpochs : S0.clock / 256 ≤ S0.tickCtime ∧ ({ S0 with clock := 256 } : State).tickCtime < 256 / 256
    ∧ invB dirty0 = true ∧ (∀ d ∈ (dirty0.line 0 0x380000).dirty, d.off < 64) ∧ dirty0.homeUp (lineOf 0x380000) = true
    ∧ (dirty0.modDie 0 fun d => { d with state := .down }).homeUp (lineOf 0x380000) = false
    ∧ S0.epochDue 7 = false ∧ (S0.modDie 7 fun d => { d with idle := 0xF0000000 }).epochDue 7 = true ∧ (S0.core 511).asleep = none ∧ dieOfCore 511 = 7
    ∧ S0.teamsOn 0 ≠ [] ∧ (let s := { dirty0 with teams := [] }
        s.teamsOn 0 = [] ∧ (s.core 0).asleep = none ∧ ((s.core 0).lines.map (·.pa)).Nodup ∧ ∀ x ∈ (s.core 0).lines, x.pa % 64 = 0 ∧ s.homeUp x.pa = true)
    ∧ ((S0.modCore 511 fun c => { c with asleep := some 0 }).core 511).asleep = some 0
    ∧ ((S0.teamsOn 0).find? fun x => x.asid = 1) = some (team0 S0) ∧ invB S0 = true
    ∧ (match S0.walkBy (dieOfCore 0) (ownerId (team0 S0).task.owner) 1 0x300000 with | .ok _ => true | _ => false) = true
    ∧ (match S0.walkBy (dieOfCore 0) (ownerId (team0 S0).task.owner) 1 0x40000000 with | .error _ => true | _ => false) = true := by decide +kernel

/-- A dirty byte reaches memory (R195); an epoch change (R197); the walk of a page sets A, bit 9 of its leaf (R346). -/
theorem test_time : leaves (.l1Writeback 0 0x380000) dirty0 (fun t => cellGet 0x380005 t.mem == 9 && (t.dirtyByte 0 0x380005).isNone)
    ∧ leaves (.epochChange 7) (S0.modDie 7 fun d => { d with idle := 0xF0000000, epoch := 3 }) (fun t => (t.die 7).epoch == 0 && (t.core 511).ctime == 1)
    ∧ leaves (.pageWalk 0 1 0x300000) (underLeaf 0x6A1) (fun t => leNat (cellsGet t.mem 0x103000 8) == 0x6A1 ||| 512)
    ∧ leaves .ctimeTick { S0 with clock := 256 } (fun t => (t.core 3).ctime == (S0.core 3).ctime + 1) := by decide +kernel

/-- Each tenant state; a pre-emption that is still busy and one that is not; the bounds of PCAP and of the tenant numbers. -/
theorem wit_RegistersAndTenantCommands : S0.phase = .open ∧ 6000 ≤ 10000 ∧ 63 < 64 ∧ 3 < (S0.tenant 0).rank.length
    ∧ (S0.tenant 63).state = .absent ∧ S0.polfel.life ≠ .retired ∧ (S0.tenant 0).state = .active
    ∧ (let s := S0.modTenant 0 fun t => { t with state := .preempted }
       (s.tenant 0).state = .preempted ∧ (∃ x ∈ s.teams, ownerId x.task.owner = 0 ∧ x.state ≠ .saved))
    ∧ (let s := { S0 with teams := [] }.modTenant 0 fun t => { t with state := .preempted }
       (s.tenant 0).state = .preempted ∧ ∀ x ∈ s.teams, ¬ (ownerId x.task.owner = 0 ∧ x.state ≠ .saved))
    ∧ ({ S0 with polfel := { S0.polfel with life := .retired } } : State).polfel.life = .retired
    ∧ (S0.teams.map (·.id)).Nodup ∧ (∃ x ∈ S0.teams, ownerId x.task.owner = 0 ∧ (x.state = .run ∨ x.state = .halt))
    ∧ (let s := stopped0 .saved id
       (s.tenant 0).state = .active ∧ ∀ x ∈ s.teams, ownerId x.task.owner = 0 → (s.tenant 0).state ≠ .stopped ∧ (s.tenant 0).state ≠ .resetting ∧ x.state ≠ .run ∧ x.state ≠ .halt)
    ∧ ((S0.modTenant 0 fun t => { t with state := .resetting }).tenant 0).state = .resetting
    ∧ (∀ x ∈ quiet.teams, ownerId x.task.owner ≠ 0) ∧ S0.timeEvent = none
    ∧ S0.archive = [] ∧ ({ S0 with agenda := [.barRead 0 (0x8000 + 96)] } : State).timeEvent = none
    ∧ ({ S0 with agenda := [.barRead 1 0x800] } : State).timeEvent = none := by decide +kernel

/-- TCTRL reads a halted team's tenant as BUSY (R353). -/
theorem test_tctrl_busy : leaves (.tenantPreempt 0) S0 (fun t => match step { t with agenda := [.barRead 0 (0x8000 + 96)] } with
    | .next u => u.polfel.replies.any fun r => match r with
      | .word 0 _ x => x.toNat / 2 ^ 31 == 1 && x.toNat / 2 ^ 8 % 8 == 1
      | _ => false
    | _ => false) := by decide +kernel

/-- ASIDTAB keeps bits 63:16; a PCAP below 6,000 is not taken; CTRL keeps its 12 bits; ENABLE, PREEMPT and RESET (R290, R351, R353). -/
theorem test_registers_pf : leaves (.registerWrite 0 (bytesLE 8 0x123456789)) S0 (fun t => t.regs.asidtab == 0x123450000)
    ∧ leaves (.registerWrite 0x30 (bytesLE 4 5999)) S0 (fun t => t.regs.pcap == 10000) ∧ leaves (.registerWrite 0x30 (bytesLE 4 6000)) S0 (fun t => t.regs.pcap == 6000)
    ∧ leaves (.registerWrite 0x8200 (bytesLE 4 0xFFFFF)) S0 (fun t => (t.tenant 1).ctrl == 0xFFF)
    ∧ leaves (.tenantEnable 63) S0 (fun t => decide ((t.tenant 63).state = .active))
    ∧ leaves (.tenantPreempt 0) S0 (fun t => decide ((t.tenant 0).state = .preempted) && decide ((team0 t).state = .halt))
    ∧ leaves (.tenantReset 0) S0 (fun t => decide ((t.tenant 0).state = .resetting) && (team0 t).stopped)
    ∧ leaves (.tenantReset 0) (stopped0 .saved id) (fun t => decide ((t.tenant 0).state = .absent) && t.teams.isEmpty)
    ∧ leaves (.registerWrite 0x20 (bytesLE 4 0x71)) S0 (fun t => decide ((t.die 7).state = .draining 0))
    ∧ leaves (.registerWrite (0x8000 + 96) (bytesLE 4 2)) S0 (fun t => decide ((t.tenant 0).state = .preempted)) := by decide +kernel

/-- The module with die 7 in some state. -/
def withDie (st : DieState) : State := S0.modDie 7 fun d => { d with state := st }

/-- Dies in and out of service, draining with and without teams; ports up and down. -/
theorem wit_DiesAndFabric : S0.phase = .open ∧ (∀ x ∈ S0.dies, x.state = .up) ∧ (∃ x ∈ (withDie .down).dies, x.state ≠ .up)
    ∧ ((withDie (.draining 5)).die 7).state = .draining 5 ∧ ((withDie (.draining 5)).teams.filter fun x => dieOfCore x.core = 7) = []
    ∧ (let s := S0.modDie 0 fun d => { d with state := .draining 5 }
       (s.die 0).state = .draining 5 ∧ (s.teams.filter fun x => decide (dieOfCore x.core = 0 ∧ (x.state = .run ∨ x.state = .halt))) ≠ [])
    ∧ ((dirty0.core 0).lines.map (·.pa)).Nodup ∧ (∀ x ∈ (dirty0.core 0).lines, x.pa % 64 = 0) ∧ dirty0.isLocal 0x380000 = true ∧ homeDie 0x380000 < 8
    ∧ ((withDie .down).die 7).state = .down ∧ ((withDie .down).die 7).lost = false ∧ (((withDie .down).modDie 7 fun d => { d with lost := true }).die 7).lost = true
    ∧ (∃ x ∈ S0.teams, S0.team? x.id = some x ∧ dieOfCore x.core = 0 ∧ x.state = .run ∧ S0.bound' x = false ∧ x.task.set = none)
    ∧ (S0.port 35).up = true ∧ ((S0.modPort 35 fun p => { p with up := false }).port 35).up = false
    := by decide +kernel

/-- A flit of a port. -/
def flit0 (replays : Nat) : Flit := { dest := 1, tenant := 3, replays := replays, bytes := List.replicate 256 0 }

/-- The module with port 35 holding flits, and port 34 up or down beside it on the route to module 1. -/
def linked (l : List Flit) (other : Bool) : State :=
  ({ S0 with routes := [(1, [35, 34])] }.modPort 35 fun p => { p with unacked := l }).modPort 34 fun p => { p with up := other }

/-- A port that fails, with and without another on its route; ports that take a payload, that are full and that are down; payloads and
sequences of a flit. -/
theorem wit_FabricLinks :
    (let s := linked [flit0 8] true
     (s.port 35).up = true ∧ (∃ f ∈ (s.port 35).unacked, 8 ≤ f.replays) ∧ s.routes = [(1, [35, 34])] ∧ (∀ f ∈ (s.port 35).unacked, f.bytes.length = 256 ∧ f.tenant < 64)
       ∧ (∀ f ∈ (s.port 35).unacked, ∀ q < 36, (q ≠ 35 ∧ (s.port q).up = true ∧ ∃ r ∈ s.routes, r.1 = f.dest ∧ q ∈ r.2) ↔ q = 34)
       ∧ (s.port 34).tx < 4096 ∧ (s.port 34).unacked.length + (s.port 35).unacked.length ≤ 1024)
    ∧ (∀ r ∈ (linked [flit0 8] false).routes, r.1 = (flit0 8).dest → ∀ q ∈ r.2, q = 35 ∨ ((linked [flit0 8] false).port q).up = false)
    ∧ (∃ r ∈ (linked [flit0 8] true).routes, r.1 = 1 ∧ 35 ∈ r.2) ∧ (¬ ∃ r ∈ S0.routes, r.1 = 1 ∧ 35 ∈ r.2)
    ∧ ({ S0 with agenda := [.fabric 3 []] } : State).timeEvent = none ∧ S0.isLocal 0x300000 = true ∧ invB S0 = true
    ∧ (¬ ∃ f ∈ ((linked [flit0 7] true).port 35).unacked, 8 ≤ f.replays)
    ∧ ((linked (List.replicate 1024 (flit0 0)) true).port 35).unacked.length = 1024 ∧ (S0.port 35).unacked.length < 1024 ∧ (S0.port 35).tx < 4096
    ∧ (List.replicate 240 (0 : Byte)).length = 240 ∧ S0.timeEvent = none ∧ ({ S0 with agenda := [.send 35 1 3 [], .replay 35 0] } : State).timeEvent = none := by decide +kernel

/-- A port with a flit replayed eight times goes down, its flits on the other port or, without one, their tenants stopped (R357, R358). -/
theorem test_port_down : leaves (.portDown 35) (linked [flit0 8] true) (fun t => !(t.port 35).up && (t.port 34).unacked.length == 1 && (t.port 34).tx == 1 && codes t == [])
    ∧ leaves (.portDown 35) (linked [flit0 8] false) (fun t => codes t == [0x26]) ∧ leaves (.portDown 35) (linked [flit0 7] true) (fun t => (t.port 35).up)
    ∧ leaves (.portRetrain 34) ((linked [] false).modPort 34 fun p => { p with unacked := [flit0 8] }) (fun t => (t.port 34).up && (t.port 34).tx == 1 && (t.port 34).unacked.map (·.replays) == [0])
    ∧ leaves (.portRetrain 35) (linked [flit0 1] true) (fun t => (t.port 35).unacked.map (·.replays) == [1]) := by
  exact ⟨by decide +kernel, by decide +kernel, by decide +kernel, by decide +kernel, by decide +kernel⟩

/-- At bring-up the module's own memory is found under its new DEV number (R349). -/
theorem test_fabric : (match step { S0 with agenda := [.fabric 3 []], mem := [(0x300000, 7)] } with
    | .next t => t.regs.devnum == 3 && cellGet (0x300000 + 3 * 2 ^ 41) t.mem == 7 && cellGet 0x300000 t.mem == 0 | _ => false) = true := by decide +kernel

/-- Bytes before and behind a cut. -/
theorem cut_at (l k : List Byte) (n : Nat) (h : l.length = n) : (l ++ k).take n = l ∧ (l ++ k).drop n = k := by subst h; simp

theorem bytesLE_length (n x : Nat) : (bytesLE n x).length = n := by
  induction n generalizing x with
  | zero => rfl
  | succ n ih => simp [bytesLE, ih]

/-- A flit that comes next is good whatever the link's CRC is. -/
theorem wit_GoodFlit : ∃ flit : List Byte, flit.length = 256 ∧ bytesLE 8 (Config.crc64 (flit.take 248)).toNat = flit.drop 248 ∧ leNat ((flit.drop 2).take 2) < 4096 := by
  refine ⟨List.replicate 2 0 ++ (List.replicate 2 0 ++ (List.replicate 244 0 ++ bytesLE 8 (Config.crc64 (List.replicate 248 0)).toNat)), ?_, ?_, ?_⟩
  · simp only [List.length_append, List.length_replicate, bytesLE_length]
  · rw [← List.append_assoc, ← List.append_assoc]
    have h := cut_at (List.replicate 248 0) (bytesLE 8 (Config.crc64 (List.replicate 248 0)).toNat) 248 List.length_replicate
    have e : List.replicate 2 (0 : Byte) ++ List.replicate 2 0 ++ List.replicate 244 0 = List.replicate 248 0 := by
      rw [← List.replicate_add, ← List.replicate_add]
    rw [e, h.1, h.2]
  · rw [(cut_at _ _ 2 List.length_replicate).2, (cut_at _ _ 2 List.length_replicate).1]
    decide

/-- DIERESET drains a die and is refused while one is out of service (R360); a drained die goes down, and comes back (R361). -/
theorem test_dies : leaves (.diereset 7) S0 (fun t => decide ((t.die 7).state = .draining 0) && t.regs.cmdBusy)
    ∧ leaves (.diereset 6) (withDie .down) (fun t => t.regs.cmdResult == 1 && decide ((t.die 6).state = .up))
    ∧ leaves (.dieDrainTimeout 7) (withDie (.draining 5)) (fun t => decide ((t.die 7).state = .down))
    ∧ leaves (.dieReadmit 7) (withDie .down) (fun t => decide ((t.die 7).state = .up))
    ∧ leaves (.dieLinkFail 7) S0 (fun t => t.regs.cmdResult == 2 && (t.die 7).lost) ∧ leaves (.portRetrain 35) S0 (fun t => (t.port 35).up) := by decide +kernel

/-- An image with a header that verifies, or one whose length is wrong. -/
def slotOf (image : List Byte) (good : Bool) : Slot := { header := if good then signedHeader image else { length := image.length + 1, signature := Vector.replicate 384 0 }, image := image }

/-- The module off, with flash that boots slot 0, slot 1, either by its markers, or none. -/
def flash (m0 m1 : List Byte) (v0 v1 : Bool) : State :=
  { State.reset with polfel := { State.reset.polfel with marker0 := m0, marker1 := m1, slots := [slotOf [] v0, slotOf [1] v1] } }

theorem slotOf_verifies (image : List Byte) (good : Bool) : (slotOf image good).verifies = good := by
  cases good <;> simp [Slot.verifies, slotOf, signedHeader]

theorem flash_verifies (m0 m1 : List Byte) (v0 v1 : Bool) : (flash m0 m1 v0 v1).polfel.verifies 0 = v0 ∧ (flash m0 m1 v0 v1).polfel.verifies 1 = v1 := by
  simp [flash, Polfel.verifies, slotOf_verifies]

/-- The slots that a flash's intact markers name, the newest first (R362). -/
theorem test_markers : ∀ x ∈ [(markerBytes 1 0, markerBytes 2 1, [1, 0]), (markerBytes 0 0, markerBytes 0xFFFFFFFF 1, [0, 1]), ([], [], []), ([], markerBytes 2 1, [1])],
    (flash x.1 x.2.1 true true).polfel.markers.map (·.2) = x.2.2 := by decide +kernel

/-- Which slot boots (R362): the one the newest marker names, failing that the other, failing that none; with neither marker, slot 0. -/
theorem test_boot (p : Polfel) (v0 v1 : Bool) (h0 : p.verifies 0 = v0) (h1 : p.verifies 1 = v1) :
    (p.markers.map (·.2) = [1, 0] → p.choice = if v1 then some 1 else if v0 then some 0 else none)
      ∧ (p.markers.map (·.2) = [] → p.choice = if v0 then some 0 else if v1 then some 1 else none) := by
  constructor <;> intro h <;> cases v0 <;> cases v1 <;> simp [Polfel.choice, h, h0, h1, List.find?]

/-- A flash whose newest marker names a slot that verifies, and one where it does not. -/
theorem wit_boot (v1 : Bool) : (flash (markerBytes 1 0) (markerBytes 2 1) true v1).polfel.choice = some v1.toNat := by
  have m : (flash (markerBytes 1 0) (markerBytes 2 1) true v1).polfel.markers.map (·.2) = [1, 0] := by cases v1 <;> decide +kernel
  have h := flash_verifies (markerBytes 1 0) (markerBytes 2 1) true v1
  rw [(test_boot _ _ _ h.1 h.2).1 m]
  cases v1 <;> rfl

/-- Marker copies of the form that the claim about boot asks for; later sequences. -/
theorem wit_BootMarkers :
    (∀ x ∈ [(1, 0), (0xFFFFFFFF, 1)], let b := markerBytes x.1 x.2
      b.length = 16 ∧ leNat (b.take 4) = 0x4B384D4B ∧ leNat ((b.drop 12).take 4) = (crc32c (b.take 12)).toNat ∧ x.1 = leNat ((b.drop 4).take 4) ∧ x.2 = leNat ((b.drop 8).take 4))
    ∧ (1 ≤ (2 + 2 ^ 32 - 1) % 2 ^ 32 ∧ (2 + 2 ^ 32 - 1) % 2 ^ 32 ≤ 0x7FFFFFFF) ∧ ¬ ((0 + 2 ^ 32 - 1) % 2 ^ 32 ≤ 0x7FFFFFFF)
    ∧ State.reset.phase = .off ∧ S0.polfel.markers = [(0, 0), (0, 0)] ∧ S0.polfel.slots.length = 2 ∧ (S0.polfel.slots[0]?).isSome = true := by decide +kernel

/-- A slot that verifies, and one that does not, whatever the key. -/
theorem wit_SlotVerifies : (slotOf [1] true).header.length = 1 ∧ (slotOf [1] true).header.signature = Config.imageSign (sha256 (slotOf [1] true).image)
    ∧ (slotOf [1] false).header.length ≠ (slotOf [1] false).image.length := ⟨rfl, rfl, by decide⟩

/-- Each phase; a queue block that is torn with a launch accepted after its shadow, and one that is not; Polfel's watchdog
within and after a second; a die lost when it was to come back, and one that is only out of service. -/
theorem wit_UpdateAndFatal : S0.phase = .open ∧ S0.polfel.life ≠ .retired ∧ invB S0 = true
    ∧ (let s := { S0 with polfel := { S0.polfel with lastReset := some 0 } }
       s.polfel.lastReset = some 0 ∧ s.clock < 0 + 1500000000 ∧ 0 + 1500000000 ≤ ({ s with clock := 1500000000 } : State).clock)
    ∧ (∀ x ∈ S0.tenants, ∀ q < 16, (x.queue q).gen.getLsbD 0 = false)
    ∧ (let s := { launched 0 (fun l => { l with lid := 0x3000002 }) with tenants := [] }.modTenant 0 fun t => { t with queues := t.queues.set 3 { Queue.fresh with gen := 1, before := some 1 } }
       s.tenants.length = 1 ∧ (∀ x ∈ s.tenants, x.id = 0 ∧ x.queues.length = 16 ∧ (x.queue 3).gen.getLsbD 0 = true ∧ (x.queue 3).before = some 1)
         ∧ ∀ l ∈ s.launches, l.tenant = 0 ∧ lidQueue l.lid = 3 ∧ seqAfter (lidSeq l.lid) 1 = true)
    ∧ seqAfter 1 1 = false
    ∧ (∃ x ∈ ((withDie .down).modDie 7 fun d => { d with warm := true, lost := true }).dies, x.warm = true ∧ x.lost = true ∧ x.state = .down)
    ∧ (¬ ∃ x ∈ (withDie .down).dies, x.warm = true ∧ x.lost = true ∧ x.state = .down)
    ∧ ({ S0 with regs := { S0.regs with dumpbase := 0x300000 } } : State).regs.dumpbase ≠ 0 := by decide +kernel

/-- Each life-cycle state moves to the next (R364); a second watchdog reset within a second is fatal (R370, R372). -/
theorem test_life : leaves .lifecycleChange S0 (fun t => decide (t.polfel.life = .secure) && t.polfel.marker0 == S0.polfel.marker0)
    ∧ leaves .lifecycleChange { S0 with polfel := { S0.polfel with life := .secure } } (fun t => decide (t.polfel.life = .retired))
    ∧ leaves .polfelWatchdogReset { S0 with polfel := { S0.polfel with lastReset := some 0 }, clock := 1499999999 } (fun t => decide (t.phase = .dead))
    ∧ leaves .polfelWatchdogReset { S0 with polfel := { S0.polfel with lastReset := some 0 }, clock := 1500000000 } (fun t => decide (t.phase = .open)) := by decide +kernel

/-- Answers before and after PCIe opens; predicted lives below and at 1,000 hours. -/
theorem wit_AttestationAndManagement : State.reset.phase ≠ .open ∧ S0.phase = .open ∧ ({ S0 with phase := .recovery } : State).phase = .recovery
    ∧ ([999, 1000] : List Nat)[0]? = some 999 ∧ ([999, 1000] : List Nat).length ≤ 2 ∧ 1000 ≤ (S0.die 0).eol.toNat
    ∧ (let p := { S0.polfel with booted := some 0, bootSeq := some 0 }
       p.booted = some 0 ∧ (p.slots[0]?).isSome = true ∧ p.bootSeq = some 0) := by decide +kernel

/-- SHA-256 of the bytes of "abc" (FIPS 180-4). -/
theorem test_sha : leNat (sha256 [0x61, 0x62, 0x63]).reverse = 0xba7816bf8f01cfea414140de5dae2223b00361a396177a9cb410ff61f20015ad := by decide +kernel

/-- A predicted life of 999 hours raises an event, one of 1,000 does not, and none the second time (R371). -/
theorem test_eol : leaves (.eolUpdate [999, 1000, 2 ^ 32]) S0 (fun t => t.polfel.replies == [.event 0] && (t.die 0).eol == 999 && (t.die 2).eol == 0xFFFFFFFF
      && leaves (.eolUpdate [998]) t fun t => t.polfel.replies == [.event 0])
    ∧ leaves .getVersion S0 (fun t => t.polfel.replies == [.version 0x13]) := by decide

/-! Steps, encodings and the invariant -/

/-- A group in a clause; one with words and threads left; the module dead; an event on the agenda; a word whose counter is full. -/
theorem wit_StepRunsTheDecodedInstruction : S0.timeEvent = none ∧ dirty0.timeEvent = none ∧ ({ dirty0 with clock := 100000 } : State).timeEvent = some (.l1Writeback 0 0x380000)
    ∧ (∀ c ∈ S0.clusters, ∀ x ∈ c.tiles, x.after = []) ∧ quiet.timeEvent = none ∧ ({ S0 with phase := .dead, agenda := [] } : State).timeEvent = none ∧ S0.agenda = [] ∧ S0.phase ≠ .dead ∧ S0.groups = [G0] ∧ S0.heldUp G0 .nop = false ∧ S0.serveEvent = none
    ∧ ((withLanding id).block G0 0 (.lpush 7 0x310000 2 rec0.data)).serveEvent = some (.lpushBlockedServe 0 0)
    ∧ (match decode (G0.words.drop G0.idx) with | .ok (i, n) => decide (i = .nop ∧ n = 1) | _ => false) = true ∧ S0.present G0 ≠ [] ∧ G0.idx + 1 < G0.words.length
    ∧ quiet.groups = [] ∧ Instr.isEvent .ctimeTick = true ∧ (S0.modThread 0 0 fun h => { h with pend := List.replicate 63 res0 }).heldUp G0 (.idiv 8 6 4 .i32 .none) = true := by decide +kernel

/-- The word and its modifier that a claim about encodings asks for, with a word behind them that is no modifier. -/
theorem wit_DecodeInvertsEncode : Instr.isEvent (.iadd 8 6 4 .i32 .none) = false ∧ Instr.wf (.iadd 8 6 4 .i32 .none) = true
    ∧ (Instr.iadd 8 6 4 .i32 .none).mods = .none ∧ (0xFE000000 : Word).extractLsb' 24 8 ≠ 0xFF#8 ∧ Instr.wf (.iadd 8 6 4 .i32 withSat) = true := by decide

/-- A state with the invariant, and its next state. -/
theorem wit_StepKeepsInvariant : S0.Inv ∧ ∃ t, step S0 = .next t := ⟨invB_spec (by decide +kernel), _, rfl⟩

/-- The machine boots at its first step (R362), and a placed word runs: TRAP 5 traps naming the clause that follows (R118). -/
theorem test_first_steps : (∃ t, step State.reset = .next t ∧ t.phase = .open)
    ∧ (match (thr (after (placed (.trap 5) [] [])) 0).status with | .trapped u => u.cause == 14 && u.detail == 5 && u.header == 0x200050 && u.word == 0 | _ => false) = true := by
  have h : State.reset.polfel.choice = some 0 := by
    have m : State.reset.polfel.markers.map (·.2) = [0, 0] := by decide +kernel
    have v : State.reset.polfel.verifies 0 = true := by simp [State.reset, Polfel.reset, Polfel.verifies, Slot.verifies, signedHeader]
    simp [Polfel.choice, m, v]
  have e : step State.reset = execPowerOnBoot State.reset := by rfl
  refine ⟨?_, by decide +kernel⟩
  rw [e]
  simp [execPowerOnBoot, h, show State.reset.phase = .off from rfl]

/-- A record of the kernel at 0x320000 with CBOUND set, and a team in slot 0 of a set, or in none. -/
def bound0 (set : Option (Nat × Nat)) : State :=
  (placed (.tspawn 8 .none) [(8, 0x321000)] [(0x320000, [1, 0, 16]), (0x321000, bytesLE 8 0x320000), (0x32101E, [1])]).modTeam 0 fun tm =>
    { tm with task := { tm.task with set := set } }

/-- Such records keep R25; a team outside a set has no free slot, one in slot 0 has slot 1. -/
theorem wit_SpawnBound : (bound0 none).freeSet (team0 (bound0 none)) = none ∧ (bound0 (some (5, 0))).freeSet (team0 (bound0 (some (5, 0)))) = some (5, 1)
    ∧ isOk ((bound0 none).readStruct (agentOf S0) 0x321000 64 64) (fun s1 b =>
        let x := taskOf b (ownerWord false 0 1) 0x321000 0
        let s2 := (s1.release (agentOf S0) .dom none).seenTask b x
        x.cbound && taskBytesOk b && (s1.taskKernel x).isSome && (s2.taskKernel x).isSome && decide ((s2.cluster 0).deque.length < 1024)) = true := by decide +kernel

/-- The first traps SCOPE 4, the second's record is queued for slot 1 (R45). -/
theorem test_spawn_bound : (match (thr (after (bound0 none)) 0).status with | .trapped u => u.cause == 0x11 && u.detail == 4 | _ => false) = true
    ∧ ((after (bound0 (some (5, 0)))).cluster 0).deque.map (·.set) = [some (5, 1)] := by decide +kernel

/-! ### Witnesses for further clauses of the claims -/

/-- An older value 7 of k register 3 that only thread 1 knows to be gone. -/
def old3 : OldK := { idx := 3, val := 7, know := [1], arrived := [] }

/-- KSET (R81): nothing older, or an older value that thread 0 may still read; who arrives knows no less (R139). -/
theorem wit_KsetReads :
    (team0 S0).kold = [] ∧ (team0 S0).k.length = 31 ∧ (∃ h ∈ (team0 S0).threads, h.tid = 0 ∧ h.ctl = false ∧ h.status ≠ .exited)
    ∧ (let tm := { team0 S0 with kold := [old3] }
       (∃ y ∈ tm.kold, y.idx = 3 ∧ 0 ∉ y.know) ∧ (∀ y ∈ tm.kold, y.idx = 3 → ∀ u ∈ [1], u ∈ y.know) ∧ tm.staleK 0 3 = [7] ∧ tm.staleK 1 3 = []) := by decide +kernel

/-- After it thread 1 reads the new value, and thread 0 may still read 7 or 0. -/
theorem test_kset_reads : (let tm := Team.writeK 0 3 [1] 5 { team0 S0 with kold := [old3] }
    tm.k.getD 3 0 == 5 && tm.staleK 1 3 == [] && tm.staleK 0 3 == [0, 7]) = true := by decide +kernel

/-- Operands for which a special result is given without rounding: numbers, zeros and infinities of both signs. -/
theorem wit_FloatSpecialOperands_exact : fmtF32.unpack 0x7F800000 = .inf false ∧ fmtF32.unpack 0xFF800000 = .inf true
    ∧ ([0, 0x80000000, 0x3F800000, 0xC0200000].all fun x => (fmtF32.unpack x).isFin) = true ∧ (fmtF32.unpack 0x80000000).isZero = true
    ∧ (fmtF32.unpack 0xC0200000).isZero = false ∧ 0xC0200000 < 2 * fmtF32.signBit ∧ fmtF32 ∈ arithFmts := by decide +kernel

/-- FRND of −2.5 by each mode, and of −0.5 (R99). -/
theorem test_frnd : ([Rm.rne, .rtz, .rup, .rdn].map fun r => fmtF32.rnd r 0xC0200000) = [(0xC0000000, 0), (0xC0000000, 0), (0xC0000000, 0), (0xC0400000, 0)]
    ∧ fmtF32.rnd .rup 0xBF000000 = (0x80000000, 0) := by decide +kernel

/-- Entries that are valid and break R342 at each level: reserved bits of a table, a leaf at level 3, a leaf at level 1 whose frame
is not aligned, no leaf at level 0; an address above 48 bits. -/
theorem wit_PageWalkBroken :
    let s := placed .nop [] [(0x110000, bytesLE 8 0x111001), (0x111000, bytesLE 8 0x112001), (0x112000, bytesLE 8 0x113001),
      (0x110008, bytesLE 8 0x111201), (0x110010, bytesLE 8 0x6A1), (0x111010, bytesLE 8 0x113021), (0x112010, bytesLE 8 0x16A1), (0x113010, bytesLE 8 0x621)]
    let table := fun (e : Nat) => e % 2 = 1 ∧ e / 2 ^ 7 % 2 = 0 ∧ e / 2 ^ 52 = 0 ∧ e / 2 ^ 9 % 8 = 0 ∧ e / 2 ^ 8 % 2 = 0 ∧ e / 2 ^ 5 % 4 = 0 ∧ e / 2 ^ 2 % 8 = 0
    let leafBits := fun (e : Nat) => e / 2 ^ 7 % 2 = 1
    table (s.pte 0x110000) ∧ table (s.pte 0x111000) ∧ table (s.pte 0x112000)
      ∧ (¬ table (s.pte 0x110008) ∧ ¬ leafBits (s.pte 0x110008)) ∧ (leafBits (s.pte 0x110010) ∧ ¬ table (s.pte 0x110010))
      ∧ (¬ table (s.pte 0x111010) ∧ ¬ leafBits (s.pte 0x111010))
      ∧ (¬ table (s.pte 0x112010) ∧ s.pte 0x112010 / 2 ^ 12 % 2 ^ 40 * 2 ^ 12 % 2 ^ 21 ≠ 0) ∧ ¬ leafBits (s.pte 0x113010)
      ∧ (match s.rootOf 0 1 0 with | .ok _ => true | .error _ => false) = true := by decide +kernel

/-- Those walks end in XLATE with BAD and the level (R341, R342). -/
theorem test_walk_broken :
    let s := placed .nop [] [(0x110000, bytesLE 8 0x111001), (0x111000, bytesLE 8 0x112001), (0x112000, bytesLE 8 0x113001),
      (0x110008, bytesLE 8 0x111201), (0x110010, bytesLE 8 0x6A1), (0x111010, bytesLE 8 0x113021), (0x112010, bytesLE 8 0x16A1), (0x113010, bytesLE 8 0x621)]
    ([(1, 39, 35), (2, 39, 35), (2, 30, 34), (2, 21, 33), (2, 12, 32)].all fun x =>
      match s.walkFrom 0 1 (x.1 * 2 ^ x.2.1) 3 0x110000 with | .error e => e == x.2.2 | .ok _ => false) = true
    ∧ (match s.walk 0 1 (2 ^ 48) with | .error e => e == 35 | .ok _ => false) = true := by decide +kernel

/-- A thread that waits in a BWAIT for the phase that another's BARV completes, and gets its result (R138). -/
theorem wit_BwaitGoesOn :
    let s := withPeer (withBar fun b => { b with members := 1 }) (.bwait 15 0 8)
    (∃ y, (thr s 1).status = .blocked y ∧ y.wait = .bwait 15 0 8) ∧ ((team0 s).threads.map (·.tid)).Nodup ∧ 8 < (thr s 1).v.length
      ∧ leaves (.barv 10 6 15 .sum .none) (s.modThread 0 0 (·.write 6 9)) (fun t => (thr t 1).raw 8 == 9) = true := by
  refine ⟨⟨_, rfl, rfl⟩, by decide +kernel⟩

/-- A record that waits at a core landing, before a push and after one (R148). -/
theorem wit_PushWaitsItsTurn :
    (let s := (withLanding id).block G0 0 (.lpush 7 0x310000 2 rec0.data)
     s.waiters 7 true ≠ [] ∧ (land7 s).inSlots < (land7 s).slots ∧ (land7 s).state = .opened)
    ∧ (let s := susp0 id fun tm => { tm with postAt := 5 }
       let s := { s with teams := s.teams ++ [{ team0 S0 with id := 1, threads := [{ thr S0 0 with status := .blocked (blk0 (.lpush 7 0x310000 2 rec0.data)) }] }] }
       (∃ w ∈ (fland s).waiters (land7 s).id true, w.1 < (team0 s).postAt)
         ∧ leaves (.faultRecordPost 0) s (fun t => !(team0 t).posted) = true) := by decide +kernel

/-- A line of a page with a dirty byte. -/
def ctxLine : L1Line := { pa := 0x334040, data := List.replicate 64 0, lease := none, vas := [], dirty := [{ off := 5, val := 9, writers := [0], carried := [], since := 0 }] }

/-- The spans of a context whose bytes a word meets at their home (R183), with dirty bytes of them in the core's L1. -/
def metCtx (tail count entry : Nat) : State :=
  (withCtx tail 1 count entry).modCore 0 fun c => { c with lines := [ctxLine] }

/-- Reservation, release, write of a first and of a last pair, with and without a publish requested, and publish, as far as each reads and
writes the context. -/
theorem wit_ContextWordsMeet :
    ctxIs (metCtx 16 1 entry0) (fun s1 c => let x := s1.takeSpans c 1
      (s1.downIn c x).isNone && ((s1.meetSpans (agentOf S0) c x).takePages c 1 c.layers 0).isSome) = true
    ∧ ctxIs (metCtx 16 1 entry0) (fun s1 c => let x := s1.clearSpans c [(0, 0)] ++ [(0x334000, 8)]
      (s1.downIn c x).isNone && (((s1.meetSpans (agentOf S0) c x).clearEntries c [(0, 0)]).bind fun y => y.linkPages c c.free [0x334000]).isSome) = true
    ∧ ([0, 1, 0x10001].all fun n => ctxIs { metCtx 16 1 entry0 with mem := cellsSet (metCtx 16 1 entry0).mem 0x3341BC (bytesLE 4 n) } fun s1 c =>
        let s2 := s1.meetSpans (agentOf S0) c (s1.entrySpans c 0 0)
        let x := s2.pairSpans c 0 15 0x334000 0
        let s3 := s2.meetSpans (agentOf S0) c x
        s2.ctxPage c 0 0 == some 0x334000 && (s2.downIn c x).isNone && !(s3.marksOf (s2.pageKey c 0x334000)).contains (15 * 1024) && (s3.writePair c 0 15 0x334000 0 0).isSome
          && s3.cNat c 0x3341BC 4 == some n) = true
    ∧ ctxIs (metCtx 16 1 entry0) (fun s1 c => let s2 := s1.meetSpans (agentOf S0) c (s1.runSpans c 0 15 1)
      let x := s2.publishSpans c 0 15 1
      (s1.downIn c (s1.runSpans c 0 15 1)).isNone && s2.coveredRun c 0 15 1 && (s2.downIn c x).isNone
        && (((s2.meetSpans (agentOf S0) c x).release (agentOf S0) .dom none).publishAll c 0 1 15).isSome) = true
    ∧ ctxIs (metCtx 16 1 0) (fun s1 c => !(s1.meetSpans (agentOf S0) c (s1.runSpans c 0 15 1)).coveredRun c 0 15 1) = true
    ∧ ctxIs (metCtx 16 1 entry0) (fun s1 c => (s1.homeAddr c.tenant c.asid 0x334100 true).isSome && (s1.cWrite c 0x334100 [1, 2]).isSome && invB s1
        && (s1.writeSigs c 0 0x334000 15 1 0).isSome && (s1.ctxBit c 0 15 true).isSome) = true := by decide +kernel

/-- CWKV of the last pair of position 15 (R158, R164, R165): keys and values in their places, the count, the head's signature, and, where its
publish is requested, its bit. -/
theorem test_cwkv : ([1, 0x10001].all fun n =>
    let s := placed (.cwkv 2 8 6 .none) [(2, 15), (8, 0x330000), (6, 0x3C004000), (7, 0x42004400)]
      (ctxMem 16 1 1 entry0 ++ [(0x3341BC, bytesLE 4 n), (0x334188, [])])
    let t := after s
    cellsGet t.mem 0x334078 4 == [0, 0x40, 0, 0x3C] && cellsGet t.mem 0x3340F8 4 == [0, 0x44, 0, 0x42] && leNat (cellsGet t.mem 0x3341BC 4) == n + 1
      && cellsGet t.mem 0x333001 1 == [if n = 1 then 0 else 0x80] && ((thr t 0).pend.map (·.ctr)) == [.wc]) = true := by decide +kernel

/-- A publish of position 15 of layer 0 by thread 1 of a team on a core of cluster 0, of scope CLUS. -/
def pub15 (team : Nat) : Publish := { ctx := 0x330000, seq := 0, layer := 0, pos := 15, count := 1, team := team, tid := 1, core := 1, scope := .clus, places := [(0, 0), (1, 1)] }

/-- A query that must see a publish. -/
def query15 : Query := { layer := 0, limit := 15, head := 0, vec := [0x3C00, 0x3C00, 0x3C00, 0x3C00], sig := 0, radius := 64, scale := 0x3F800000, must := [pub15 1] }

/-- A position that meets what R167 asks, beyond the limit, outside the radius and not published; a publish before a mark within both scopes,
and one by the contributor itself (R166). -/
theorem wit_HeadsInclude :
    ctxIs { withCtx 16 1 1 entry0 with mem := cellsSet (withCtx 16 1 1 entry0).mem 0x333001 [0x80] } (fun s c =>
      c.maxpos % 16 == 0 && decide (15 < c.maxpos ∧ 15 ≤ query15.limit ∧ ¬ 15 ≤ 14) && s.ctxPage c 0 0 == some 0x334000 && s.pageHome c 0x334000 == 1 && !s.pagePoisoned c 0x334000
        && s.published c 0 15 && !s.published c 0 14 && (s.cNat c (0x334000 + 64 * 4 + 8 * 15) 8).isSome && (s.die (dieOfClus 1)).serves
        && decide (∃ y ∈ query15.must, y.pos ≤ 15 ∧ 15 < y.pos + y.count) && fieldAt (s.cattBlock c query15 [1]).1 4 4 == 1) = true
    ∧ (let mark : Mark := { ctx := 0x330000, scope := .clus, seq := 1, core := 0, places := [(0, 0), (1, 1)] }
       let stood := fun (l : List (Nat × Nat)) (n : Nat) => (l.find? (·.1 = n)).map (·.2)
       (pub15 1).seq < mark.seq ∧ (pub15 1).core / 4 = 0 ∧ stood (pub15 1).places 0 = some 0 ∧ stood mark.places (pub15 1).team = some 1
         ∧ (pub15 0).team = (team0 S0).id ∧ pub15 1 ∈ [pub15 1]) := by decide +kernel

/-- `S0` with a thread of team 0 blocked in a MRES for the macro 3 that loads, which its tag names no longer. -/
def mresWaits : State :=
  ({ withMacros [{ mac3 .loading (some 0) [0] with load := some { image := [], scale := 1, tag := 10, job := 4 } }] with groups := [] }).modThread 0 0 fun h =>
    { h with status := .blocked (blk0 (.mres 8 9 2 3)) }

/-- A stream's MCLR of a bank that its own earlier word is to write; a MRES that waits for a macro; a scale byte 0xFF of a tile. -/
theorem wit_MacrosWait :
    (let s := (S0.setBank 0 { Bank.fresh 1 with holder := some 0 }).modThread 0 0 fun h => { h with pend := [{ ack .wt with bank := some 1 }] }
     (s.bank 0 1).holder = some (team0 s).id ∧ ∃ p ∈ (thr s 0).pend, p.bank = some (1 : Nat))
    ∧ (let s := mresWaits
       (s.square 0 3).load = some { image := [], scale := 1, tag := 10, job := 4 } ∧ (s.square 0 3).state = .loading ∧ s.team? 0 = some (team0 s)
         ∧ (team0 s).thread? 0 = some (thr s 0) ∧ (team0 s).state = .run ∧ clusOf (team0 s).core = 0 ∧ ((team0 s).threads.map (·.tid)).Nodup ∧ (s.teams.map (·.id)).Nodup
         ∧ ∀ x ∈ s.teams, ∀ y ∈ x.threads, y.status = .blocked (blk0 (.mres 8 9 2 3)))
    ∧ (∃ b, (thr mresWaits 0).status = .blocked b ∧ b.wait = .mres 8 9 2 3 ∧ b.wait.square = some 3)
    ∧ (let s := withTile fun _ => tile5 .ready .q8
       let s := { s with mem := cellsSet s.mem 0x350080 [0xFF] }
       ∀ v, view5 s = some v → 0xFF ∈ (s.segRead v.store).drop (v.rows * ((v.cols + 127) / 128) * 128)) := by
  refine ⟨by decide +kernel, by decide +kernel, ⟨_, rfl, rfl, rfl⟩, by decide +kernel⟩

/-- It goes on with the macro once the load completes, whatever the macro's tag is now (R233). -/
theorem test_mres_waits : leaves (.macroLoadComplete 0 3) mresWaits (fun t => (t.square 0 3).tag == 10 && (t.square 0 3).claims.contains 0
    && (thr t 0).rawPred 2 && decide ((thr t 0).status ≠ .blocked (blk0 (.mres 8 9 2 3)))) = true := by decide +kernel

/-- A cluster whose macros are all in use but for 7 and 9, of which 9 was used before 7. -/
def fullMacros : State := withMacros ((List.range 512).map fun i => { Square.fresh i with
  weights := [], tag := 9, tenant := 0, state := .resident, claims := if i = 7 ∨ i = 9 then [] else [3], lastUse := if i = 9 then 4 else 5 })

/-- The one used longest ago is the victim. -/
theorem wit_OldestVictim : ((List.range 512).all fun k => decide ((fullMacros.square 0 k).state ≠ .empty)) = true
    ∧ ((List.range 512).all fun k => decide (((fullMacros.square 0 k).state = .resident ∧ (fullMacros.square 0 k).claims = []) →
        (fullMacros.square 0 9).lastUse < (fullMacros.square 0 k).lastUse ∨ ((fullMacros.square 0 9).lastUse = (fullMacros.square 0 k).lastUse ∧ 9 ≤ k))) = true
    ∧ (fullMacros.square 0 9).state = .resident ∧ (fullMacros.square 0 9).claims = [] ∧ fullMacros.victimSquare 0 = 9 := by decide +kernel

/-- A gather's descriptor (R317). -/
def gatherDesc (base rowb limit dest slots last : Nat) : List Byte :=
  bytesLE 8 base ++ bytesLE 4 rowb ++ bytesLE 4 limit ++ bytesLE 8 dest ++ bytesLE 4 slots ++ bytesLE 4 last

/-- A placed XGATH of a row into a slot. -/
def gathered (desc : List Byte) (row slot : Nat) : State := placed (.xgath 8 10 12 2 .none) [(8, 0x321000), (10, row), (12, slot)] [(0x321000, desc)]

/-- Whether its part fails with a cause, and whether it passes. -/
def gathers (desc : List Byte) (row slot : Nat) (f : Bad → Bool) : Bool := isBad (State.xgathPart 8 10 12 2 G0 (gathered desc row slot) 0) f

/-- A descriptor with each field that breaks R317; a slot that is not there, one outside the scratchpad, one inside; a row at and below
LIMIT; a row without a mapping. -/
theorem wit_XgathDescriptor : S0.team? G0.team = some (team0 S0)
    ∧ isBad ((gathered [] 0 0).readStruct (agentOf S0) 0x40000000 32 32) (fun _ => true) = true
    ∧ isOk ((gathered (gatherDesc 0x380000 32 4 scrBase 8 0) 0 7).readStruct (agentOf S0) 0x321000 32 32) (fun s1 r => r == gatherDesc 0x380000 32 4 scrBase 8 0
        && s1.team? 0 == some (team0 (gathered (gatherDesc 0x380000 32 4 scrBase 8 0) 0 7))) = true
    ∧ ([gatherDesc 0x380008 32 4 scrBase 8 0, gatherDesc 0x380000 24 4 scrBase 8 0, gatherDesc 0x380000 0 4 scrBase 8 0, gatherDesc 0x380000 4112 4 scrBase 8 0,
        gatherDesc 0x380000 32 4 (scrBase + 8) 8 0, gatherDesc 0x380000 32 4 scrBase 0 0, gatherDesc 0x380000 32 4 scrBase 1025 0, gatherDesc 0x380000 32 4 scrBase 8 1].all fun x =>
        gathers x 0 0 fun b => b.cause == .scope && b.detail == 16 && !b.write && b.addr == 0x321000) = true
    ∧ gathers (gatherDesc 0x380000 32 4 scrBase 8 0) 0 8 (fun b => b.detail == 17 && !b.write) = true
    ∧ gathers (gatherDesc 0x380000 32 4 (scrBase + 4096 - 16) 8 0) 0 0 (fun b => b.detail == 17 && b.write) = true
    ∧ gathers (gatherDesc 0x380000 32 4 0x390000 8 0) 0 0 (fun b => b.detail == 17 && b.write) = true
    ∧ gathers (gatherDesc 0x40000000 32 4 scrBase 8 0) 3 0 (fun b => b.cause == .xlate) = true
    ∧ isOk (State.xgathPart 8 10 12 2 G0 (gathered (gatherDesc 0x380000 32 4 scrBase 8 0) 3 7) 0) (fun _ p => p.pred == some (2, true)
        && p.runs.map (fun r => r.dst.map (·.loc)) == [[.scr 0 (7 * 32 + 16), .scr 0 (7 * 32)]]) = true
    ∧ isOk (State.xgathPart 8 10 12 2 G0 (gathered (gatherDesc 0x380000 32 4 scrBase 8 0) 4 6) 0) (fun _ p => p.pred == some (2, false)
        && p.runs.map (fun r => (r.src.length, r.dst.map (·.loc))) == [(0, [.scr 0 (6 * 32), .scr 0 (6 * 32 + 16)])]) = true := by
  exact ⟨by decide +kernel, by decide +kernel, by decide +kernel, by decide +kernel, by decide +kernel, by decide +kernel, by decide +kernel, by decide +kernel, by decide +kernel, by decide +kernel⟩

/-- A PUTS descriptor (R319). -/
def putsDesc (src dst sig len last : Nat) : List Byte := bytesLE 8 src ++ bytesLE 8 dst ++ bytesLE 8 sig ++ bytesLE 4 len ++ bytesLE 4 last

/-- A placed XPUTS, and the part of its one thread. -/
def putsPart (desc : List Byte) : State × Except Bad Part := State.xputsPart 8 10 true G0 (placed (.xputs 8 10 true .none) [(10, 0x321000), (8, 7)] [(0x321000, desc)]) 0

/-- Each check of XPUTS that fails with none before it, each of the three ranges without a mapping, a command without a payload, and one with
payload and signal. -/
theorem wit_XputsDescriptor :
    ([(putsDesc 0x380002 0x390002 0x3A0002 3 1, 2, 0, false), (putsDesc 0x380000 0x390002 0x3A0002 3 1, 2, 0, true), (putsDesc 0x380000 0x390000 0x3A0002 3 1, 2, 0, true),
      (putsDesc 0x380000 0x390000 0x3A0000 3 1, 17, 16, false), (putsDesc 0x380000 0x390000 0x3A0000 3 0, 17, 14, false), (putsDesc 0x380000 0x390000 0x3A0000 1048580 0, 17, 14, false),
      (putsDesc 0x40000000 0x390000 0x3A0000 4 0, 3, 2, false), (putsDesc 0x380000 0x40000000 0x3A0000 4 0, 3, 2, true), (putsDesc 0x380000 0x390000 0x40000000 4 0, 3, 2, true)].all fun x =>
      isBad (putsPart x.1) fun b => b.cause.code == x.2.1 && b.detail == x.2.2.1 && b.write == x.2.2.2) = true
    ∧ isOk (putsPart (putsDesc 0x380000 0x390000 0x3A0000 0 0)) (fun _ p => p.runs.isEmpty && p.signals.length == 1) = true
    ∧ isOk (putsPart (putsDesc 0x380000 0x390000 0x3A0000 1048576 0)) (fun _ p => p.runs.length == 1 && p.signals.map (fun x => (x.dst.map (·.loc), x.add)) == [([.mem 0x3A0000], true)]) = true := by
  exact ⟨by decide +kernel, by decide +kernel, by decide +kernel⟩

/-- Two runs, of which the second ends within its 8 bytes, a flag and a counter. -/
def cmd7 : EngCmd := { cmd6 with
  runs := [⟨0, [{ loc := .mem 0x380000, len := 8 }], [{ loc := .mem 0x390000, len := 8 }], [], 0⟩, ⟨0, [{ loc := .mem 0x380100, len := 4 }], [{ loc := .mem 0x390008, len := 4 }], [], 0⟩]
  signals := [{ tid := 0, dst := [{ loc := .mem 0x3A0000, len := 4 }], add := false, val := 5 }, { tid := 0, dst := [{ loc := .mem 0x3A0008, len := 4 }], add := true, val := 3 }] }

/-- A gathered row of two chunks, and one of zeros, in a slot rotated by one. -/
def cmd8 (src : List Seg) : EngCmd := { cmd6 with
  runs := [⟨0, src, (List.range 2).map fun i => { loc := .scr 0 (64 + (i + 1) % 2 * 16), len := 16 }, [], 0⟩] }

/-- The state of a command, with bytes where it reads. -/
def engaged (c : EngCmd) : State :=
  { S0 with cmds := [c], mem := cellsSet (cellsSet (cellsSet S0.mem 0x380000 [1, 2, 3, 4, 5, 6, 7, 8]) 0x380100 [9, 8, 7, 6]) 0x3A0008 [4] }

/-- Runs and signals of a command that keep apart. -/
theorem wit_EngineCommandsCompleteAll :
    (∀ x ∈ [(cmd7.runs.getD 0 run6, 0x380000, 0x390000, 8), (cmd7.runs.getD 1 run6, 0x380100, 0x390008, 4)], copies x.1 x.2.1 x.2.2.1 x.2.2.2)
    ∧ apart 0x390000 8 0x390008 4 ∧ (∀ x ∈ [(0x380000, 8), (0x380100, 4)], apart x.1 x.2 0x390000 8 ∧ apart x.1 x.2 0x390008 8)
    ∧ (∀ b ∈ [0x3A0000, 0x3A0008], ∀ x ∈ [(0x380000, 8), (0x380100, 4), (0x390000, 8), (0x390008, 4)], apart b 8 x.1 x.2)
    ∧ 0x3A0000 / 4 / 2 * 8 ≠ 0x3A0008 / 4 / 2 * 8 ∧ ([0x390000, 0x390008, 0x3A0000, 0x3A0008].all fun a => S0.homeUp (lineOf a)) = true
    ∧ invB (engaged cmd7) = true ∧ invB (engaged (cmd8 [])) = true := by
  simp only [List.mem_cons, List.not_mem_nil, or_false, forall_eq_or_imp, forall_eq]
  exact ⟨⟨⟨rfl, ⟨_, rfl⟩, _, rfl⟩, rfl, ⟨_, rfl⟩, _, rfl⟩, by simp only [apart]; omega, by simp only [apart]; omega, by simp only [apart]; omega, by decide, by decide +kernel, by decide +kernel, by decide +kernel⟩

/-- All of them take effect, and a row stands in its slot's chunks (R313, R318, R319). -/
theorem test_engine_runs :
    leaves (.engineCommandComplete 0 6 []) (engaged cmd7) (fun t => cellsGet t.mem 0x390000 12 == [1, 2, 3, 4, 5, 6, 7, 8, 9, 8, 7, 6] && cellsGet t.mem 0x3A0000 12 == [5, 0, 0, 0, 0, 0, 0, 0, 7, 0, 0, 0]
      && t.cmds.isEmpty) = true
    ∧ leaves (.engineCommandComplete 0 6 []) (engaged (cmd8 [{ loc := .mem 0x380000, len := 32 }])) (fun t => cellsGet (team0 t).mem 80 16 == [1, 2, 3, 4, 5, 6, 7, 8, 0, 0, 0, 0, 0, 0, 0, 0]
      && cellsGet (team0 t).mem 64 16 == List.replicate 16 0) = true
    ∧ leaves (.engineCommandComplete 0 6 []) ((engaged (cmd8 [])).modTeam 0 fun tm => { tm with mem := cellsSet tm.mem 70 [9, 9] }) (fun t => cellsGet (team0 t).mem 64 32 == List.replicate 32 0) = true := by
  exact ⟨by decide +kernel, by decide +kernel, by decide +kernel⟩

/-- An XCOPY to the shadow side of binding 2, of one word. -/
def shadowCopy : State :=
  { placed (.xcopy 8 6 10 .dom (.f3 { EngMod.zero with shadow := true })) [(8, 0x3A0010), (6, 0x380000), (10, 4)] [] with bindings := [binding2] }

/-- The part that a shadow XCOPY adds, its destination inside a binding. -/
theorem wit_ShadowCopy : shadowCopy.bindings = [binding2] ∧ binding2.tenant = (agentOf S0).tenant ∧ binding2.asid = (agentOf S0).asid ∧ binding2.b ≤ 0x3A0010
    ∧ 0x3A0010 + 4 ≤ binding2.b + binding2.len
    ∧ isOk (shadowCopy.range (agentOf S0) 0x380000 4 .read) (fun s1 _ => isOk (s1.range (agentOf S0) 0x3A0010 4 .claim) fun s2 x =>
        x.1.map (·.loc) == [.vis 2 16] && s2.homeUp (s2.paOf (.shd 2 16))) = true
    ∧ isOk (State.xcopyPart 8 6 10 true none G0 shadowCopy 0) (fun _ p => p.shadows == [2] && p.runs.map (fun r => r.dst.map (·.loc)) == [[.shd 2 16]]) = true := by
  exact ⟨rfl, by decide +kernel, by decide +kernel, by decide, by decide, by decide +kernel, by decide +kernel⟩

/-- Ranges of XSHAD that break each rule of R321 and none before it, that meet no page, and that bind; a home with 16 bindings. -/
theorem wit_XshadRules :
    let s := { S0 with bindings := [binding2] }
    let meets := fun (a n b m : Nat) => a < b + m ∧ b < a + n
    let wrong := fun (a len : Nat) => a % 4096 ≠ 0 ∨ ∃ x ∈ s.bindings, x.tenant = (agentOf S0).tenant ∧ x.asid = (agentOf S0).asid ∧ (meets a len x.b x.len ∨ meets a len x.s x.len)
    wrong 0x3C0800 4096 ∧ wrong 0x39F000 8192 ∧ wrong 0x3AF000 4097 ∧ ¬ wrong 0x39F000 4096 ∧ ¬ wrong 0x3C0000 4096 ∧ ¬ wrong 0x400000 (2 ^ 26 + 4096)
      ∧ 4100 % 4096 ≠ 0 ∧ 2 ^ 26 < 2 ^ 26 + 4096 ∧ meets 0x3C0000 8192 0x3C1000 8192 ∧ ¬ meets 0x3C0000 4096 0x3C1000 4096
      ∧ isBad (s.range (agentOf S0) 0x40000000 4096 .claim) (fun _ => true) = true
      ∧ isOk (s.range (agentOf S0) 0x3C0000 4096 .claim) (fun s1 v => isBad (s1.range (agentOf S0) 0x40000000 4096 .claim) (fun _ => true)
          && isOk (s1.range (agentOf S0) 0x3D0000 4096 .claim) fun s2 w => (v.1 ++ w.1).map (·.loc) == [.mem 0x3C0000, .mem 0x3D0000]
            && decide ((s2.bindings.filter fun x => sameHome x.home 0x3C0000).length < 16)) = true := by decide +kernel

/-- A full home. -/
def fullHome : State := { S0 with bindings := (List.range 16).map fun i => { binding2 with id := i, home := 0x3C0000, b := 0x1000000 + 8192 * i, s := 0x1001000 + 8192 * i } }

/-- It takes no other binding. -/
theorem wit_FullHome : isOk (fullHome.range (agentOf S0) 0x3C0000 4096 .claim) (fun s1 _ => isOk (s1.range (agentOf S0) 0x3D0000 4096 .claim) fun s2 _ =>
    decide (16 ≤ (s2.bindings.filter fun x => sameHome x.home 0x3C0000).length)) = true
  ∧ isBad (fullHome.bind (agentOf S0) 0x3C0000 0x3D0000 4096) (fun b => b.cause == .scope && b.detail == 20) = true := by exact ⟨by decide +kernel, by decide +kernel⟩

/-- A leaf of a bound page, poisoned or not, its visible storage reached or not; the binding alone covers it. -/
def boundLeaf (e : Nat) (up : Bool) : State :=
  let s := { placed .nop [] [(0x103000, bytesLE 8 e), (0x3A0100, [7])] with bindings := [{ binding2 with visible := [if up then 0x3A0000 else 2 ^ 38] }] }
  if up then s else s.modDie 1 fun d => { d with state := .down }

/-- Accesses of that page. -/
theorem wit_BoundAccess : inWindow 0x3A0100 = false ∧ inWindow 0x3B0100 = false
    ∧ (∀ z ∈ [(0x6A1, true), (0x6A1 + 2 ^ 62, true), (0x6A1, false)], isOk ((boundLeaf z.1 z.2).leafFor 0 false 0 1 0x3A0100 .write) (fun s1 e => e.write && !e.sup
        && s1.bindings.map (·.id) == [2] && e.psn == (z.1 ≠ 0x6A1 : Bool) && s1.homeUp ((s1.bindings.flatMap (·.visible)).getD 0 0) == z.2) = true)
    ∧ isBad ((boundLeaf 0x6A1 true).place (agentOf S0) 0x3B0100 4 .write) (fun b => b.cause == .perm && b.detail == 4 && b.write) = true
    ∧ isBad ((boundLeaf (0x6A1 + 2 ^ 62) true).place (agentOf S0) 0x3A0100 4 .read) (fun b => b.cause == .poison) = true
    ∧ isBad ((boundLeaf 0x6A1 false).place (agentOf S0) 0x3A0100 4 .read) (fun b => b.cause == .homedown) = true
    ∧ isOk ((boundLeaf 0x6A1 true).place (agentOf S0) 0x3A0100 4 .read) (fun s1 x => x.1 == .vis 2 0x100 && s1.seenByte (agentOf S0) 0x3A0100 x.1 .normal 0 == 7) = true := by
  exact ⟨by decide, by decide, by decide +kernel, by decide +kernel, by decide +kernel, by decide +kernel, by decide +kernel⟩

/-- A load's result that is in flight, a release behind it, and a ring-set word's result. -/
def load0 : Pending := { ctr := .wl, regs := [{ idx := 10, val := 6, clash := false }], preds := [], flags := 0, hold := none }
/-- A release that returns a value. -/
def rel0 : Pending := { ctr := .ws, regs := [{ idx := 12, val := 4, clash := false }], preds := [], flags := 0, hold := none, tie := .release }
/-- A result of RSMAX. -/
def ring0 : Pending := { res0 with tie := .ring }

/-- A release with an earlier memory word in flight, and none; a ring-set word's result in flight where a LSU clause, or an ALU clause, is drawn;
a result of a bank where nothing waits. -/
theorem wit_ReleasesReturnInOrder :
    (let s := idle0 fun h => { h with pend := [load0, res0, rel0] }
     s.team? 0 = some (team0 s) ∧ (team0 s).thread? 0 = some (thr s 0) ∧ (thr s 0).pend[2]? = some rel0 ∧ ((thr s 0).pend.take 2).filter Pending.memory = [load0] ∧ rel0.tie = .release
       ∧ ∀ x ∈ s.teams, ∀ k ∈ x.threads, k.status = .issuing)
    ∧ (let s := { idle0 (fun h => { filed0 .spill h with pend := [ring0] }) with clock := 64 }
       (∃ x ∈ s.sources 0, x.age + 64 ≤ s.clock) ∧ (thr s 0).pend = [ring0] ∧ ring0.tie = .ring ∧ (ring0.regs.map (·.idx)).Nodup ∧ (thr s 0).ctl = false) := by decide +kernel

/-- The load lands with the release (R133); what a ring-set word has on its way lands before a clause that is no ALU clause (log 100). -/
theorem test_release_order :
    leaves (.resultReturn 0 0 2) (idle0 fun h => { h with pend := [load0, res0, rel0] }) (fun t => (thr t 0).raw 10 == 6 && (thr t 0).raw 12 == 4 && (thr t 0).pend == [res0]) = true
    ∧ (let s := placed (.ld 8 4 .b32 0 .none) [] []
       leaves (.issueGroupDraw false 0 0) { { s with groups := [] }.modThread 0 0 (fun h => { filed0 .spill h with pend := [ring0] }) with clock := 64 } (fun t =>
         decide ((thr t 0).status = .issuing) && (thr t 0).raw 8 == 5 && (thr t 0).pend.isEmpty) = true)
    ∧ leaves (.issueGroupDraw false 0 0) { idle0 (fun h => { filed0 .spill h with pend := [ring0] }) with clock := 64 } (fun t => (thr t 0).pend == [ring0]) = true := by
  exact ⟨by decide +kernel, by decide +kernel, by decide +kernel⟩

/-- A fatal cause of a tenant with a log at 0x3E0000, with none, without either log; a supervisor's; each owner quiet. -/
def logged (flog devlog : Nat) (sup : Bool) : State :=
  let s := quiet.modTenant 0 fun t => { t with flog := BitVec.ofNat 64 flog }
  { s with fatals := [fatal0 sup, { fatal0 sup with record := List.replicate 64 7 }], regs := { s.regs with devlog := BitVec.ofNat 64 devlog } }

/-- Nothing of such an owner runs, and its records fit. -/
theorem wit_StopsPostRecords : (∀ x ∈ [(0x3E0000, 0, false), (0, 0x3F0000, false), (0, 0, false), (0, 0x3F0000, true)], let s := logged x.1 x.2.1 x.2.2
      s.cmds = [] ∧ s.teams = [] ∧ s.fatals.length = 2 ∧ (∀ f ∈ s.fatals, f.sup = x.2.2 ∧ f.tenant = 0 ∧ f.record.length = 64) ∧ (s.tenant 0).state = .active
        ∧ leNat ((List.range 4).map fun i => cellGet (0x3E0000 + i) s.mem) + 2 < 2 ^ 32) := by decide +kernel

/-- Its two records stand in its log, counted, or in the device log (R335, R336). -/
theorem test_stop_posts :
    leaves (.tenantStop 0) { logged 0x3E0000 0x3F0000 false with mem := cellsSet quiet.mem 0x3E0000 [62] } (fun t => cellsGet t.mem 0x3E0000 4 == [64, 0, 0, 0]
      && cellsGet t.mem (0x3E0000 + 64 + 64 * 62) 2 == [0x27, 0] && cellsGet t.mem (0x3E0000 + 64) 2 == [7, 7] && (t.polfel.replies.filter (· = .vector 1 0)).length == 2) = true
    ∧ leaves (.tenantStop 0) (logged 0 0x3F0000 false) (fun t => cellsGet t.mem 0x3F0000 1 == [2] && (t.polfel.replies.filter (· = .vector 0 0)).length == 2) = true
    ∧ leaves (.tenantStop 0) (logged 0 0 false) (fun t => t.mem == quiet.mem) = true
    ∧ leaves .deviceRuntimeReset (logged 0x3E0000 0x3F0000 true) (fun t => cellsGet t.mem 0x3F0000 1 == [2] && t.regs.rtfail) = true
    ∧ leaves (.tenantReset 0) (logged 0x3E0000 0 false) (fun t => cellsGet t.mem 0x3E0000 1 == [2] && t.fatals.isEmpty) = true := by
  exact ⟨by decide +kernel, by decide +kernel, by decide +kernel, by decide +kernel, by decide +kernel⟩

/-- Two active launches of one rank, of which 8 came first; a team of one of them on core 0. -/
def rivals (clock : Nat) (st : TeamState) (of : Nat) : State :=
  let s := launched clock fun l => { l with active := true }
  let tm := { placeTeam State.reset false false false 0 with state := st, slotLen := 8192 }
  { s with launches := { launch9 s with id := 8 } :: s.launches, teams := [{ tm with task := { tm.task with launch := some of } }] }

/-- The later launch. -/
def rival9 (s : State) : Launch := (s.launches.getD 1 (launch9 s))

/-- A core to which a victim of the launch before comes back; one that is kept for a launch that has starved; one whose victim is outranked,
or finds it kept. -/
theorem wit_CoresAreKept :
    (let s := rivals 0 .victim 8
     (team0 s).state = .victim ∧ s.canStand (team0 s) 0 = true ∧ (∃ y ∈ s.launches, (team0 s).task.launch = some y.id ∧ s.rankOf y = s.rankOf (rival9 s) ∧ y.id < (rival9 s).id)
       ∧ s.victimFirst 0 (rival9 s) = true)
    ∧ (rivals 65536 .run 9).kept 0 (some 9) = true ∧ (rivals 65535 .run 9).kept 0 (some 9) = false ∧ (rivals 65536 .run 9).kept 0 (some 8) = false
    ∧ (let s := rivals 0 .victim 9
       s.team? 0 = some (team0 s) ∧ (team0 s).task.set = none ∧ (team0 s).state ≠ .run ∧ (∃ l ∈ s.launches, (team0 s).task.launch = some l.id ∧ ∃ x ∈ s.activeLaunches, x.id ≠ l.id
         ∧ s.ranksBefore x l = true ∧ (s.tenant x.tenant).state = .active ∧ s.belowQuota x.tenant = true ∧ s.wantsCore x 0 = true))
    ∧ (let s := rivals 65536 .victim 9
       s.team? 0 = some (team0 s) ∧ s.kept 0 (team0 s).task.launch = true) := by decide +kernel

/-- The victim waits, and the task before it goes to its core (R301). -/
theorem test_outranked : leaves (.teamRestore 0 0) (rivals 0 .victim 9) (fun t => decide ((team0 t).state = .victim))
    ∧ leaves (.teamRestore 0 0) (rivals 0 .victim 8) (fun t => decide ((team0 t).state = .run)) := by decide +kernel

/-- A team that has finished, of no launch, with an aligned join cell of some count, with a task whose kernel is there or not. -/
def joined (join n kernel : Nat) : State :=
  let s := { ended id join with launches := [], mem := cellsSet (cellsSet quiet.mem 0x322000 (bytesLE 8 n)) 0x322040 (bytesLE 8 kernel) }
  s.modTeam 0 fun tm => { tm with task := { tm.task with launch := none } }

/-- Join cells that cannot be read, of counts 0, 1 and 2, with nothing else of the team to free; a good and a bad task of the cell. -/
theorem wit_JoinCells :
    (let s := joined 0x322000 0 0
     s.finished (team0 s) = true ∧ (team0 s).task.launch = none ∧ (∀ h ∈ (team0 s).handles, h = none) ∧ (∀ x ∈ (s.cluster 0).tiles, x.holder ≠ some 0)
       ∧ ∀ x ∈ s.teams, ∀ h ∈ x.threads, h.carving = none)
    ∧ isBad (((joined 0x40000000 0 0).retire (team0 (joined 0 0 0))).releaseTeam 0 0 |>.place (agentOf S0) 0x40000000 128 .claim) (fun _ => true) = true
    ∧ (∀ x ∈ [(0, 0), (1, 0x320000), (1, 0x320001), (1, 0x324000), (2, 0)], let s := joined 0x322000 x.1 x.2
        isOk ((s.retire (team0 s)).releaseTeam 0 0 |>.place (agentOf S0) 0x322000 128 .claim) (fun s2 y => invB s2 && answersB s2 y.1 && s2.paOf y.1 == 0x322000
          && (List.range 128).all (fun i => s2.paOf (y.1.add i) == 0x322000 + i) && y.2.all (fun z => (List.range 8).all fun k => (z.pte + k) / 128 != 0x322000 / 128)
          && leNat ((List.range 8).map (s2.homeByte (agentOf S0) y.1)) == x.1
          && taskBytesOk ((List.range 64).map fun i => s2.homeByte (agentOf S0) y.1 (64 + i)) == (x.2 % 64 == 0 : Bool) && decide ((s2.cluster 0).deque.length < 1024)) = true) := by
  exact ⟨by decide +kernel, by decide +kernel, by decide +kernel⟩

/-- JOINZERO for those that cannot be read and for a count of 0; one less for 2; with the last one the cell's task, or TASKREC (R33, R34). -/
theorem test_join_cells : ([(0x40000000, 0, 0, [0x21], 0, 0), (0x322000, 0, 0, [0x21], 0, 0), (0x322000, 2, 0, [], 1, 0), (0x322000, 1, 0x320000, [], 0, 1), (0x322000, 1, 0x320001, [0x20], 0, 0),
      (0x322000, 1, 0x324000, [0x20], 0, 0), (0, 7, 0, [], 7, 0)].all fun x =>
    leaves (.taskComplete 0) (joined x.1 x.2.1 x.2.2.1) fun t => codes t == x.2.2.2.1 && cellGet 0x322000 t.mem == BitVec.ofNat 8 x.2.2.2.2.1 && (t.cluster 0).deque.length == x.2.2.2.2.2
      && t.teams.isEmpty) = true := by decide +kernel

/-- A finished team with a haul, a handle of a landing that no other names, a tile, a bank and a macro. -/
def rich (st : LandState) : State :=
  let s := withLanding fun l => { l with l2 := true, expert := some expert0, state := st, hauls := [{ seq := 3, recs := [rec0] }] }
  let s := (s.setTile 0 (tile5 .ready .q8)).setBank 0 { Bank.fresh 1 with holder := some 0 }
  let s := { s.modCluster 0 (fun c => { c with squares := [mac3 .resident none [0]] }) with groups := [] }
  s.modTeam 0 fun tm => { tm with threads := tm.threads.map fun h => { h with status := .exited }, task := { tm.task with landing := some 7, haul := 3 * 2 ^ 48 + 1 } }

/-- It leaves none of them, and the landing that has ended is released (R145, R240, R254). -/
theorem test_frees :
    (rich .sealed).finished (team0 (rich .sealed)) = true ∧ ((rich .sealed).haulOf (team0 (rich .sealed))).isSome = true
    ∧ leaves (.taskComplete 0) (rich .ended) (fun t => decide ((t.tile 0 5).holder = none) && decide ((t.bank 0 1).holder = none) && (t.square 0 3).claims == []
        && (land7 t).hauls.isEmpty && ((land7 t).released || (t.landing? 7).isNone)) = true
    ∧ leaves (.taskComplete 0) (rich .opened) (fun t => !(land7 t).released && (land7 t).hauls.isEmpty) = true := by
  exact ⟨by decide +kernel, by decide +kernel, by decide +kernel, by decide +kernel⟩

/-- A die out of service itself, all others in it; another one out of service. -/
theorem wit_DieReset : (∀ x ∈ (withDie .down).dies, x.id ≠ 7 → x.state = .up) ∧ ((withDie .down).die 7).state ≠ .up
    ∧ (∃ x ∈ (withDie .down).dies, x.id ≠ 6 ∧ x.state ≠ .up) ∧ (∃ f ∈ (logged 0x3E0000 0 false).fatals, f.tenant = 0) := by decide +kernel

/-- DIERESET of the one die that a failed link took down runs, its failure forgotten (R360); a change of the life cycle leaves each die as it was
(R364). -/
theorem test_die_reset : leaves (.diereset 7) ((withDie .down).modDie 7 fun d => { d with lost := true }) (fun t => t.regs.cmdBusy && !(t.die 7).lost && decide ((t.die 7).state = .down))
    ∧ leaves .lifecycleChange ((withDie .down).modDie 7 fun d => { d with lost := true }) (fun t => decide ((t.die 7).state = .down) && (t.die 7).lost) := by
  exact ⟨by decide +kernel, by decide +kernel⟩

end Sys2Proof.Tests
end

section
/-!
SUPPORT and PROOFS. The encoder and the decoder: every instruction of the code is read back from its words (R57 to R67).
-/

namespace Sys2Proof
open Laws

/-! ### First words -/

/-- Every instruction of the code is read back from its first word, but for its literal and its modifier word. -/
theorem Instr.word_parses (i : Instr) : Parse.Statement i := by
  cases i with
  | nop => exact Parse.nop
  | mov d b t m => exact Parse.mov d b t m
  | movDl d t lit m => exact Parse.movDl d t lit m
  | movi d imm m => exact Parse.movi d imm m
  | kset d a t m => exact Parse.kset d a t m
  | iadd d a b t m => exact Parse.iadd d a b t m
  | iaddDl d a t lit m => exact Parse.iaddDl d a t lit m
  | iaddi d a imm m => exact Parse.iaddi d a imm m
  | isub d a b t m => exact Parse.isub d a b t m
  | iaddc d a b p m => exact Parse.iaddc d a b p m
  | imul d a b t m => exact Parse.imul d a b t m
  | imulDl d a t lit m => exact Parse.imulDl d a t lit m
  | imulh d a b t m => exact Parse.imulh d a b t m
  | imad d a b t m => exact Parse.imad d a b t m
  | idiv d a b t m => exact Parse.idiv d a b t m
  | irem d a b t m => exact Parse.irem d a b t m
  | imin d a b t m => exact Parse.imin d a b t m
  | imax d a b t m => exact Parse.imax d a b t m
  | iabs d a t m => exact Parse.iabs d a t m
  | and d a b t m => exact Parse.and d a b t m
  | andDl d a t lit m => exact Parse.andDl d a t lit m
  | or d a b t m => exact Parse.or d a b t m
  | orDl d a t lit m => exact Parse.orDl d a t lit m
  | xor d a b t m => exact Parse.xor d a b t m
  | xorDl d a t lit m => exact Parse.xorDl d a t lit m
  | andn d a b t m => exact Parse.andn d a b t m
  | shl d a b t m => exact Parse.shl d a b t m
  | shr d a b t m => exact Parse.shr d a b t m
  | sar d a b t m => exact Parse.sar d a b t m
  | rotl d a b t m => exact Parse.rotl d a b t m
  | shli d a w cnt m => exact Parse.shli d a w cnt m
  | shri d a w cnt m => exact Parse.shri d a w cnt m
  | sari d a w cnt m => exact Parse.sari d a w cnt m
  | popc d a t m => exact Parse.popc d a t m
  | clz d a t m => exact Parse.clz d a t m
  | ctz d a t m => exact Parse.ctz d a t m
  | brev d a t m => exact Parse.brev d a t m
  | bfx d a b t m => exact Parse.bfx d a b t m
  | bfi d a b t m => exact Parse.bfi d a b t m
  | icmp rel u pd a b t m => exact Parse.icmp rel u pd a b t m
  | icmpDl rel u pd a t lit m => exact Parse.icmpDl rel u pd a t lit m
  | icmpi rel u pd a imm m => exact Parse.icmpi rel u pd a imm m
  | sel d a b p m => exact Parse.sel d a b p m
  | lea d a b s m => exact Parse.lea d a b s m
  | fadd d a b t m => exact Parse.fadd d a b t m
  | faddDl d a t lit m => exact Parse.faddDl d a t lit m
  | fsub d a b t m => exact Parse.fsub d a b t m
  | fmul d a b t m => exact Parse.fmul d a b t m
  | fmulDl d a t lit m => exact Parse.fmulDl d a t lit m
  | ffma d a b t m => exact Parse.ffma d a b t m
  | fmin d a b t m => exact Parse.fmin d a b t m
  | fminDl d a t lit m => exact Parse.fminDl d a t lit m
  | fmax d a b t m => exact Parse.fmax d a b t m
  | fmaxDl d a t lit m => exact Parse.fmaxDl d a t lit m
  | fcmp rel any pd a b t m => exact Parse.fcmp rel any pd a b t m
  | fcmpDl rel any pd a t lit m => exact Parse.fcmpDl rel any pd a t lit m
  | fclass d a t m => exact Parse.fclass d a t m
  | frcp d a t m => exact Parse.frcp d a t m
  | frsq d a t m => exact Parse.frsq d a t m
  | fsqrt d a t m => exact Parse.fsqrt d a t m
  | fdiv d a b t m => exact Parse.fdiv d a b t m
  | fexp2 d a t m => exact Parse.fexp2 d a t m
  | flog2 d a t m => exact Parse.flog2 d a t m
  | ftanh d a t m => exact Parse.ftanh d a t m
  | frnd d a mode t m => exact Parse.frnd d a mode t m
  | fcvt d a dst src lane m => exact Parse.fcvt d a dst src lane m
  | icvt d a flt int toInt lane m => exact Parse.icvt d a flt int toInt lane m
  | gshf d a b mode m => exact Parse.gshf d a b mode m
  | gbcst d a u m => exact Parse.gbcst d a u m
  | gvote d a op => exact Parse.gvote d a op
  | gscan d a excl op t => exact Parse.gscan d a excl op t
  | gred d a op t => exact Parse.gred d a op t
  | sread d n m => exact Parse.sread d n m
  | swrite n a m => exact Parse.swrite n a m
  | fmode reg a rm => exact Parse.fmode reg a rm
  | carve a b => exact Parse.carve a b
  | ld d base size off m => exact Parse.ld d base size off m
  | st d base size off m => exact Parse.st d base size off m
  | ldc d base size off m => exact Parse.ldc d base size off m
  | stsb d base size off m => exact Parse.stsb d base size off m
  | pref base l2 off m => exact Parse.pref base l2 off m
  | atom d a t op m => exact Parse.atom d a t op m
  | acas d a t m => exact Parse.acas d a t m
  | ared d a t op m => exact Parse.ared d a t op m
  | fence m => exact Parse.fence m
  | guard d a b clr e m => exact Parse.guard d a b clr e m
  | binit n m => exact Parse.binit n m
  | bsync d a n op m => exact Parse.bsync d a n op m
  | barv d a n op m => exact Parse.barv d a n op m
  | bwait d a n m => exact Parse.bwait d a n m
  | btest pd a n m => exact Parse.btest pd a n m
  | lopen n a m => exact Parse.lopen n a m
  | lpush pd n a m => exact Parse.lpush pd n a m
  | lpop pd n a m => exact Parse.lpop pd n a m
  | ltrypop pd n a m => exact Parse.ltrypop pd n a m
  | lseal n m => exact Parse.lseal n m
  | lstat n a m => exact Parse.lstat n a m
  | tspawn a m => exact Parse.tspawn a m
  | tdone a m => exact Parse.tdone a m
  | lcfg n a m => exact Parse.lcfg n a m
  | lfire pd n m => exact Parse.lfire pd n m
  | hbind d a m => exact Parse.hbind d a m
  | hdone m => exact Parse.hdone m
  | crsv d a trap pd n m => exact Parse.crsv d a trap pd n m
  | cwkv d a b m => exact Parse.cwkv d a b m
  | cpub d a n m => exact Parse.cpub d a n m
  | cacq a m => exact Parse.cacq a m
  | csig d a b => exact Parse.csig d a b
  | catt d a b pd => exact Parse.catt d a b pd
  | cmrg d a f m => exact Parse.cmrg d a f m
  | crel d a n m => exact Parse.crel d a n m
  | talloc t a b f m => exact Parse.talloc t a b f m
  | tready t m => exact Parse.tready t m
  | tdrain t m => exact Parse.tdrain t m
  | tfree t m => exact Parse.tfree t m
  | tstat d t m => exact Parse.tstat d t m
  | mload d a s g m => exact Parse.mload d a s g m
  | mfire d t bank cnt m => exact Parse.mfire d t bank cnt m
  | mhad d s p m => exact Parse.mhad d s p m
  | mqnt d s r q4 m => exact Parse.mqnt d s r q4 m
  | mdrain d bank f m => exact Parse.mdrain d bank f m
  | mclr bank e m => exact Parse.mclr bank e m
  | mres d a pd m => exact Parse.mres d a pd m
  | rsring a ty m => exact Parse.rsring a ty m
  | rsadd d a b ty m => exact Parse.rsadd d a b ty m
  | rssub d a b ty m => exact Parse.rssub d a b ty m
  | rsmul d a b ty m => exact Parse.rsmul d a b ty m
  | rsdiv d a b ty m => exact Parse.rsdiv d a b ty m
  | rsneg d a ty m => exact Parse.rsneg d a ty m
  | rsrec d a ty m => exact Parse.rsrec d a ty m
  | rsmax d a b ty m => exact Parse.rsmax d a b ty m
  | rsmin d a b ty m => exact Parse.rsmin d a b ty m
  | rsuni d a b ty m => exact Parse.rsuni d a b ty m
  | rsint d a b ty m => exact Parse.rsint d a b ty m
  | rsfrom d a b ty m => exact Parse.rsfrom d a b ty m
  | rslo d a ty m => exact Parse.rslo d a ty m
  | rshi d a ty m => exact Parse.rshi d a ty m
  | rstest rel poss pd a b ty m => exact Parse.rstest rel poss pd a b ty m
  | rspack d a ty m => exact Parse.rspack d a ty m
  | rsunpk d a ty m => exact Parse.rsunpk d a ty m
  | xcopy d a b scope m => exact Parse.xcopy d a b scope m
  | xgath d a b pd m => exact Parse.xgath d a b pd m
  | xputs d a add m => exact Parse.xputs d a add m
  | xshad d a b => exact Parse.xshad d a b
  | xpubb a => exact Parse.xpubb a
  | bra g off => exact Parse.bra g off
  | brc sense p off => exact Parse.brc sense p off
  | brx a => exact Parse.brx a
  | call g off => exact Parse.call g off
  | callx a => exact Parse.callx a
  | ret => exact Parse.ret
  | reform => exact Parse.reform
  | yield => exact Parse.yield
  | exit => exact Parse.exit
  | trap imm => exact Parse.trap imm
  | eret => exact Parse.eret
  | tlbi a b op m => exact Parse.tlbi a b op m
  | _ => exact fun h => nomatch h

/-! ### Modifier words (R62 to R66) -/

theorem Guard.bits_lt (g : Guard) : g.bits < 2 ^ 10 := by
  have h1 := g.en.toNat_le
  have h2 := g.sense.toNat_le
  have h3 := g.pred.isLt
  unfold Guard.bits
  omega

theorem Guard.bits_mod (g : Guard) : g.bits % 32 = 0 := by
  unfold Guard.bits
  omega

theorem bit_beq (b : Bool) : (b.toNat == 1) = b := by cases b <;> rfl

/-- The guard is read back from the low bits of a modifier word. -/
theorem modGuard_bits (x : Nat) (g : Guard) : modGuard (x * 2 ^ 10 + g.bits) = g := by
  have h1 := g.en.toNat_le
  have h2 := g.sense.toNat_le
  have h3 := g.pred.isLt
  have hen : (x * 2 ^ 10 + g.bits) / 2 ^ 9 % 2 = g.en.toNat := by unfold Guard.bits; omega
  have hse : (x * 2 ^ 10 + g.bits) / 2 ^ 8 % 2 = g.sense.toNat := by unfold Guard.bits; omega
  have hpr : BitVec.ofNat 3 ((x * 2 ^ 10 + g.bits) / 2 ^ 5) = g.pred := by
    apply BitVec.eq_of_toNat_eq
    rw [BitVec.toNat_ofNat]
    unfold Guard.bits
    omega
  simp only [modGuard, hen, hse, hpr, bit_beq]

/-- What is said of the word `w` that encodes a modifier `m`: it is a modifier word, and is read as `m`. -/
def ReadsAs (w : Nat) (m : Mods) : Prop := w < 2 ^ 32 ∧ isModWord w = true ∧ decodeMods w = some m

theorem modBar_back (b : Option (BitVec 4)) :
    modBar (match b with | some n => 16 + n.toNat | Option.none => 0) = some b := by
  cases b with
  | none => rfl
  | some n =>
    have := n.isLt
    have hn : BitVec.ofNat 4 (16 + n.toNat) = n := by
      apply BitVec.eq_of_toNat_eq
      rw [BitVec.toNat_ofNat]
      omega
    simp [modBar, hn]

theorem ArithMod.readsAs (x : ArithMod) :
    ReadsAs (0xFF * 2 ^ 24 + x.sat.toNat * 2 ^ 20 + x.clamp.toNat * 2 ^ 19 + x.nega.toNat * 2 ^ 18
      + x.absa.toNat * 2 ^ 17 + x.negb.toNat * 2 ^ 16 + x.absb.toNat * 2 ^ 15 + x.scale.toNat * 2 ^ 10 + x.guard.bits) (.f0 x) := by
  obtain ⟨sat, clamp, nega, absa, negb, absb, scale, g⟩ := x
  have h1 := sat.toNat_le
  have h2 := clamp.toNat_le
  have h3 := nega.toNat_le
  have h4 := absa.toNat_le
  have h5 := negb.toNat_le
  have h6 := absb.toNat_le
  have h7 := scale.isLt
  have h8 := g.bits_lt
  have h9 := g.bits_mod
  dsimp only
  generalize hw : 0xFF * 2 ^ 24 + sat.toNat * 2 ^ 20 + clamp.toNat * 2 ^ 19 + nega.toNat * 2 ^ 18
      + absa.toNat * 2 ^ 17 + negb.toNat * 2 ^ 16 + absb.toNat * 2 ^ 15 + scale.toNat * 2 ^ 10 + g.bits = w
  have hg : modGuard w = g := by
    rw [← modGuard_bits (w / 2 ^ 10) g]
    congr 1
    omega
  have hs : BitVec.ofNat 5 (w / 2 ^ 10) = scale := by
    apply BitVec.eq_of_toNat_eq
    rw [BitVec.toNat_ofNat]
    omega
  refine ⟨by omega, by rw [isModWord, beq_iff_eq]; omega, ?_⟩
  rw [decodeMods, show w / 2 ^ 21 % 8 = 0 by omega]
  simp only [zeroed, show w % 32 = 0 by omega, hg, hs, show w / 2 ^ 20 % 2 = sat.toNat by omega,
    show w / 2 ^ 19 % 2 = clamp.toNat by omega, show w / 2 ^ 18 % 2 = nega.toNat by omega,
    show w / 2 ^ 17 % 2 = absa.toNat by omega, show w / 2 ^ 16 % 2 = negb.toNat by omega,
    show w / 2 ^ 15 % 2 = absb.toNat by omega, bit_beq, if_true]

theorem MemMod.readsAs (x : MemMod) :
    ReadsAs (0xFF * 2 ^ 24 + 1 * 2 ^ 21 + x.order.code * 2 ^ 19 + x.scope.code * 2 ^ 16 + x.hint.code * 2 ^ 14
      + x.guard.bits) (.f1 x) := by
  obtain ⟨order, scope, hint, g⟩ := x
  have h1 := Parse.Order.code_lt order
  have h2 := Parse.Scope.code_lt scope
  have h3 := Parse.Hint.code_lt hint
  have h4 := g.bits_lt
  have h5 := g.bits_mod
  dsimp only
  generalize hw : 0xFF * 2 ^ 24 + 1 * 2 ^ 21 + order.code * 2 ^ 19 + scope.code * 2 ^ 16 + hint.code * 2 ^ 14 + g.bits = w
  have hg : modGuard w = g := by
    rw [← modGuard_bits (w / 2 ^ 10) g]
    congr 1
    omega
  refine ⟨by omega, by rw [isModWord, beq_iff_eq]; omega, ?_⟩
  rw [decodeMods, show w / 2 ^ 21 % 8 = 1 by omega]
  simp only [zeroed, show w % 32 + w / 2 ^ 10 % 16 = 0 by omega, hg, show w / 2 ^ 19 % 4 = order.code by omega,
    show w / 2 ^ 16 % 8 = scope.code by omega, show w / 2 ^ 14 % 4 = hint.code by omega, Parse.Order.ofCode_code,
    Parse.Scope.ofCode_code, Parse.Hint.ofCode_code, Option.bind_some, Option.map_some, if_true]

theorem fill_readsAs (fill : BitVec 16) : ReadsAs (0xFF * 2 ^ 24 + 2 * 2 ^ 21 + fill.toNat) (.f2 fill) := by
  have h1 := fill.isLt
  generalize hw : 0xFF * 2 ^ 24 + 2 * 2 ^ 21 + fill.toNat = w
  have hf : BitVec.ofNat 16 w = fill := by
    apply BitVec.eq_of_toNat_eq
    rw [BitVec.toNat_ofNat]
    omega
  refine ⟨by omega, by rw [isModWord, beq_iff_eq]; omega, ?_⟩
  rw [decodeMods, show w / 2 ^ 21 % 8 = 2 by omega]
  simp only [zeroed, show w / 2 ^ 16 % 32 = 0 by omega, hf, if_true]

theorem EngMod.readsAs (x : EngMod) :
    ReadsAs (0xFF * 2 ^ 24 + 3 * 2 ^ 21 + (match x.bar with | some n => 16 + n.toNat | Option.none => 0) * 2 ^ 16
      + x.task.toNat * 2 ^ 15 + x.shadow.toNat * 2 ^ 14) (.f3 x) := by
  obtain ⟨bar, task, shadow⟩ := x
  have h1 := task.toNat_le
  have h2 := shadow.toNat_le
  have hb := modBar_back bar
  have h3 : (match bar with | some n => 16 + n.toNat | Option.none => 0) < 32 := by
    cases bar with
    | none => decide
    | some n => have := n.isLt; dsimp only; omega
  dsimp only
  generalize (match bar with | some n => 16 + n.toNat | Option.none => 0) = k at hb h3
  generalize hw : 0xFF * 2 ^ 24 + 3 * 2 ^ 21 + k * 2 ^ 16 + task.toNat * 2 ^ 15 + shadow.toNat * 2 ^ 14 = w
  refine ⟨by omega, by rw [isModWord, beq_iff_eq]; omega, ?_⟩
  rw [decodeMods, show w / 2 ^ 21 % 8 = 3 by omega]
  simp only [zeroed, show w % 2 ^ 14 = 0 by omega, show w / 2 ^ 16 % 32 = k by omega, hb,
    show w / 2 ^ 15 % 2 = task.toNat by omega, show w / 2 ^ 14 % 2 = shadow.toNat by omega, bit_beq, Option.map_some, if_true]

/-- A modifier is encoded in no word, or in one that is read as it. -/
theorem Mods.words_readsAs (m : Mods) :
    (m = .none ∧ m.words = []) ∨ ∃ w, m.words = [BitVec.ofNat 32 w] ∧ ReadsAs w m := by
  cases m with
  | none => exact .inl ⟨rfl, rfl⟩
  | f0 x => exact .inr ⟨_, rfl, x.readsAs⟩
  | f1 x => exact .inr ⟨_, rfl, x.readsAs⟩
  | f2 fill => exact .inr ⟨_, rfl, fill_readsAs fill⟩
  | f3 x => exact .inr ⟨_, rfl, x.readsAs⟩

/-! ### Decoding what was encoded -/

theorem finish_of_wf {i : Instr} (h : i.wf = true) (n : Nat) : finish i n = .ok (i, n) := by
  obtain ⟨hf, hm⟩ := (Bool.and_eq_true _ _).mp h
  simp only [finish, hf, hm, if_true]

/-- Words that the decoder takes for no modifier word of what stands before them. -/
def NoModAhead (rest : List Word) : Prop := ∀ w l, rest = w :: l → w.extractLsb' 24 8 ≠ 0xFF#8

theorem isModWord_of_top_ne {w : Word} (h : w.extractLsb' 24 8 ≠ 0xFF#8) : isModWord w.toNat = false := by
  rw [isModWord, beq_eq_false_iff_ne]
  intro he
  apply h
  apply BitVec.eq_of_toNat_eq
  have := w.isLt
  rw [BitVec.extractLsb'_toNat, Nat.shiftRight_eq_div_pow, he]
  rfl

/-- Behind an instruction's own words, its modifier word is attached to it, and nothing else is. -/
theorem attach_words (f : Mods → Instr) (m : Mods) (n : Nat) (rest : List Word) (hwf : (f m).wf = true)
    (hrest : m = .none → NoModAhead rest) : attach f n (m.words ++ rest) = .ok (f m, n + m.words.length) := by
  rcases m.words_readsAs with ⟨rfl, hw⟩ | ⟨w, hw, hlt, hmod, hdec⟩
  · rw [hw]
    cases rest with
    | nil => exact finish_of_wf hwf n
    | cons w l => simp [attach, isModWord_of_top_ne (hrest rfl w l rfl), finish_of_wf hwf]
  · have hb : (BitVec.ofNat 32 w).toNat = w := by rw [BitVec.toNat_ofNat, Nat.mod_eq_of_lt hlt]
    simp [hw, attach, hb, hmod, hdec, finish_of_wf hwf]

theorem rebuild_plain {i j : Instr} {l : List Word} {m : Mods} (h : Parse.rebuild (.plain j) l m = some i) :
    l = [] ∧ m = .none ∧ j = i := by
  unfold Parse.rebuild at h
  split at h <;> simp_all

theorem rebuild_modded {i : Instr} {f : Mods → Instr} {l : List Word} {m : Mods} (h : Parse.rebuild (.modded f) l m = some i) :
    l = [] ∧ f m = i := by
  unfold Parse.rebuild at h
  split at h <;> simp_all

theorem rebuild_literal {i : Instr} {f : Word → Mods → Instr} {l : List Word} {m : Mods}
    (h : Parse.rebuild (.literal f) l m = some i) : ∃ x, l = [x] ∧ f x m = i := by
  unfold Parse.rebuild at h
  split at h <;> simp_all

/-- Settles O59: the first word is read back (`Instr.word_parses`), the literal is taken as it stands, and the modifier word
is read back (`attach_words`). -/
theorem decodeInvertsEncode : Obligations.DecodeInvertsEncode := by
  intro i rest hcode hwf hrest
  obtain ⟨hlt, hnomod, p, hp, hr⟩ := i.word_parses hcode ((Bool.and_eq_true _ _).mp hwf).1
  have hw : (BitVec.ofNat 32 i.word).toNat = i.word := by rw [BitVec.toNat_ofNat, Nat.mod_eq_of_lt hlt]
  generalize hl : i.lit = lit at hr
  generalize hm : i.mods = m at hr hrest
  have henc : encode i = BitVec.ofNat 32 i.word :: (lit ++ m.words) := by rw [encode, hl, hm]
  rw [henc]
  cases p with
  | plain j =>
    obtain ⟨rfl, rfl, rfl⟩ := rebuild_plain hr
    simp [decode, hw, hnomod, hp, finish_of_wf hwf, Mods.words]
  | modded f =>
    obtain ⟨rfl, rfl⟩ := rebuild_modded hr
    simp [decode, hw, hnomod, hp, attach_words f m 1 rest hwf hrest, Nat.add_comm]
  | literal f =>
    obtain ⟨x, rfl, rfl⟩ := rebuild_literal hr
    simp [decode, hw, hnomod, hp, attach_words (f x) m 2 rest hwf hrest]
    omega

/-- Settles O57: the decoder, run on each of the words. -/
theorem encodedWordsDecode : Obligations.EncodedWordsDecode :=
  ⟨rfl, rfl, rfl, rfl, rfl, rfl, rfl, rfl, rfl, rfl, rfl, rfl, rfl, rfl, rfl, rfl, rfl⟩

end Sys2Proof
end

section
/-!
SUPPORT and PROOFS. Registers, predicates and special registers: what a write leaves and a read finds (R68 to R71, R107 to R109).
-/

namespace Sys2Proof.Machine

/-! ### Registers and predicates (R68, R69) -/

/-- A write in flight or behind changes no register: only `setRaw` does. -/
theorem Thread.write_raw (h : Thread) (i j : Nat) (x : DWord) : (h.write i x).raw j = (h.setRaw i x).raw j := rfl

theorem Thread.writePred_rawPred (h : Thread) (i j : Nat) (x : Bool) : (h.writePred i x).rawPred j = (h.setRawPred i x).rawPred j := rfl

/-- A write of one register leaves every other one as it was. -/
theorem Thread.setRaw_raw_ne (h : Thread) {i j : Nat} (hj : j ≠ i) (x : DWord) : (h.setRaw i x).raw j = h.raw j := by
  cases hc : h.ctl with
  | false => simp [Thread.setRaw, Thread.raw, hc, List.getElem?_set_ne hj.symm]
  | true =>
    by_cases hi : i = 0
    · simp [Thread.setRaw, hc, hi]
    · simp [Thread.setRaw, Thread.raw, hc, hi, List.getElem?_set_ne hj.symm]

theorem Thread.setRaw_raw_v {h : Thread} (hc : h.ctl = false) {i : Nat} (hi : i < h.v.length) (x : DWord) :
    (h.setRaw i x).raw i = (x.setWidth 32).setWidth 64 := by
  simp [Thread.setRaw, Thread.raw, hc, hi]

theorem Thread.setRaw_raw_c {h : Thread} (hc : h.ctl = true) {i : Nat} (hi : i < h.c.length) (x : DWord) :
    (h.setRaw i x).raw i = if i = 0 then 0 else x := by
  by_cases h0 : i = 0
  · simp [Thread.setRaw, Thread.raw, hc, h0]
  · simp [Thread.setRaw, Thread.raw, hc, h0, hi]

/-- c0 keeps no write. -/
theorem Thread.setRaw_c0 {h : Thread} (hc : h.ctl = true) (x : DWord) : h.setRaw 0 x = h := by simp [Thread.setRaw, hc]

/-- A write of a register touches nothing but the registers. -/
theorem Thread.setRaw_frame (h : Thread) (i : Nat) (x : DWord) :
    h.setRaw i x = { h with v := (h.setRaw i x).v, c := (h.setRaw i x).c } := by
  unfold Thread.setRaw
  split
  · split <;> rfl
  · rfl

/-- A write of a predicate touches nothing but the predicates. -/
theorem Thread.setRawPred_frame (h : Thread) (i : Nat) (x : Bool) :
    h.setRawPred i x = { h with p := (h.setRawPred i x).p } := by
  unfold Thread.setRawPred
  split <;> rfl

theorem Thread.setRawPred_p7 (h : Thread) (x : Bool) : h.setRawPred 7 x = h := rfl

theorem getLsbD_setBit (p : BitVec 8) {i : Nat} (hi : i < 8) (j : Nat) (x : Bool) :
    (if x then p ||| (1#8 <<< i) else p &&& ~~~(1#8 <<< i)).getLsbD j = if j = i then x else p.getLsbD j := by
  have hbit : (1#8 <<< i).getLsbD j = decide (j = i) := by
    rw [BitVec.getLsbD_shiftLeft, BitVec.getLsbD_one, Bool.eq_iff_iff]
    simp only [Bool.and_eq_true, Bool.not_eq_true', decide_eq_true_eq, decide_eq_false_iff_not]
    omega
  have hout : 8 ≤ j → p.getLsbD j = false := BitVec.getLsbD_of_ge p j
  cases x with
  | true => rw [if_pos rfl, BitVec.getLsbD_or, hbit]; by_cases h : j = i <;> simp [h]
  | false =>
    rw [if_neg (by simp), BitVec.getLsbD_and, BitVec.getLsbD_not, hbit]
    by_cases h : j = i
    · simp [h]
    · by_cases h8 : j < 8
      · simp [h, h8]
      · simp [h, h8, hout (by omega)]

theorem Thread.setRawPred_rawPred (h : Thread) {i : Nat} (hi : i < 8) (j : Nat) (x : Bool) :
    (h.setRawPred i x).rawPred j = if j = 7 then true else if j = i then x else h.rawPred j := by
  by_cases h7 : j = 7
  · simp [Thread.rawPred, h7]
  · by_cases hi7 : i = 7
    · subst hi7
      simp [Thread.setRawPred_p7, Thread.rawPred, h7]
    · simp only [Thread.setRawPred, hi7, Thread.rawPred, h7, if_false, getLsbD_setBit h.p hi j x]

/-- A write of one predicate leaves every other one as it was. -/
theorem Thread.setRawPred_rawPred_ne (h : Thread) {i : Nat} (hi : i < 8) {j : Nat} (hj : j ≠ i) (x : Bool) :
    (h.setRawPred i x).rawPred j = h.rawPred j := by
  rw [setRawPred_rawPred h hi, if_neg hj]
  split
  · next h7 => rw [h7]; rfl
  · rfl

/-- Settles O6: each part is what `setRaw` and `setRawPred` do. -/
theorem registersHoldWrites : Obligations.RegistersHoldWrites := by
  refine ⟨fun h i j x hc hi => ⟨?_, ?_, ?_, ?_⟩, fun h i j x hc hi => ⟨?_, ?_, ?_⟩, fun h i j x hi hj => ⟨?_, ?_, ?_, ?_, ?_⟩⟩
  · exact Thread.setRaw_raw_v hc hi x
  · exact fun hj => Thread.setRaw_raw_ne h hj x
  · exact congrArg (·.p) (h.setRaw_frame i x)
  · exact congrArg (·.flags) (h.setRaw_frame i x)
  · exact Thread.setRaw_raw_c hc hi x
  · exact fun hj => Thread.setRaw_raw_ne h hj x
  · exact congrArg (·.c) (Thread.setRaw_c0 hc x)
  · rw [Thread.writePred_rawPred, Thread.setRawPred_rawPred h hi, if_pos rfl]
  · exact fun hne => Thread.setRawPred_rawPred_ne h hi hne x
  · rfl
  · exact congrArg (·.v) (h.setRawPred_frame i x)
  · exact congrArg (·.c) (h.setRawPred_frame i x)

/-! ### Special registers (R70, R71, R107 to R109) -/

theorem setWidth_ofNat_64 (n : Nat) : (BitVec.ofNat 64 n).setWidth 32 = BitVec.ofNat 32 n := by
  apply BitVec.eq_of_toNat_eq
  simp only [BitVec.toNat_setWidth, BitVec.toNat_ofNat]
  omega

theorem ofNat_mod32 (n : Nat) : BitVec.ofNat 32 (n % 2 ^ 32) = BitVec.ofNat 32 n := by
  apply BitVec.eq_of_toNat_eq
  simp

theorem rmOf_low (x : Word) : rmOf x.toNat = match x.extractLsb' 0 2 with
    | 0#2 => Rm.rne | 1#2 => .rtz | 2#2 => .rup | _ => .rdn := by
  have hx : x.extractLsb' 0 2 = BitVec.ofNat 2 (x.toNat % 4) := by
    apply BitVec.eq_of_toNat_eq
    simp
  have hlt : x.toNat % 4 < 4 := Nat.mod_lt _ (by decide)
  rw [hx, rmOf]
  generalize x.toNat % 4 = k at hlt
  match k, hlt with
  | 0, _ => rfl
  | 1, _ => rfl
  | 2, _ => rfl
  | 3, _ => rfl

theorem swrite_runs (s : State) (g : Group) (rest : List Group) (n : SReg) (a : Code) (m : Mods) (hg : s.groups = g :: rest)
    (k : Env → Thread → Thread)
    (hk : ∀ e h, h.setSpecial n (if n.isWide then e.rd64 h a 0 else (e.rd32 h a 0).setWidth 64) = k e h) :
    RunsAs (.swrite n a m) s g k := by
  refine runsAs_of_own rfl rfl hg hk fun e h => ?_
  cases n <;> rfl

theorem fmode_runs (s : State) (g : Group) (rest : List Group) (reg : Bool) (a : Code) (rm : Rm) (hg : s.groups = g :: rest) :
    RunsAs (.fmode reg a rm) s g (fun e h => { h with rm := if reg then rmOf (e.rd32 h a 0).toNat else rm }) :=
  runsAs_of_own rfl rfl hg (fun _ _ => rfl) fun _ _ => rfl

theorem extract_low (n : Nat) {w : Nat} (x : BitVec w) : x.extractLsb' 0 n = x.setWidth n := by
  apply BitVec.eq_of_toNat_eq
  simp

theorem faddr_mask (x : DWord) : (x.extractLsb' 0 48).setWidth 64 = x &&& 0xFFFFFFFFFFFF#64 := by
  apply BitVec.eq_of_toNat_eq
  rw [BitVec.toNat_and, show (0xFFFFFFFFFFFF#64).toNat = 2 ^ 48 - 1 from rfl, Nat.and_two_pow_sub_one_eq_mod]
  simp
  omega

/-- FMODE reads as the code of the rounding mode (R71). -/
theorem rmCode_value (r : Rm) :
    (BitVec.ofNat 64 (rmCode r)).setWidth 32 = match r with | .rne => 0#32 | .rtz => 1#32 | .rup => 2#32 | .rdn => 3#32 := by
  cases r <;> rfl

/-- Settles O7: each special register's value is the table's, and each write is that of its field. -/
theorem specialRegisters : Obligations.SpecialRegisters := by
  refine ⟨fun s g rest d n m hg => ?_, fun s g rest a rm m hg => ⟨?_, ?_, ?_, ?_, ?_, ?_⟩⟩
  · refine runsNow_of_lane (i := .sread d n m) rfl rfl hg fun e h => ?_
    have word {x y : Word} (hxy : x = y) : Out.reg (h.dst32 d x false) = Out.reg (h.dst32 d y false) := by rw [hxy]
    cases n with
    | taskarg | clock | faddr | fpc => rfl
    | tid | ntid | team | core | clus | die | dev => exact word (setWidth_ofNat_64 _)
    | sgrp => exact word ((setWidth_ofNat_64 _).trans (by rw [sgrpOf, clusOf, Nat.div_div_eq_div_mul]))
    | tilex | tiley | tilez | flags | fault => exact word (BitVec.setWidth_setWidth_of_le _ (by decide))
    | ctime => exact word ((setWidth_ofNat_64 _).trans (ofNat_mod32 _))
    | fmode => exact word (rmCode_value h.rm)
    | asid | tenant => exact word ((setWidth_ofNat_64 _).trans (BitVec.ofNat_toNat _ _))
  · exact swrite_runs s g rest .flags a m hg _ fun e h => by simp [Thread.setSpecial, SReg.isWide, extract_low]
  · exact swrite_runs s g rest .fault a m hg _ fun e h => by simp [Thread.setSpecial, SReg.isWide]
  · exact swrite_runs s g rest .faddr a m hg _ fun e h => by simp [Thread.setSpecial, SReg.isWide, faddr_mask]
  · exact swrite_runs s g rest .fpc a m hg _ fun e h => by simp [Thread.setSpecial, SReg.isWide]
  · exact fmode_runs s g rest false 0 rm hg
  · have h := fmode_runs s g rest true a .rne hg
    simp only [if_true, rmOf_low] at h
    exact h

end Sys2Proof.Machine
end

section
/-!
SUPPORT and PROOFS. What a word that only computes leaves as it was (R54, R56, R58, R67, R76).
-/

namespace Sys2Proof.Machine

/-! ### What a thread keeps -/

/-- What a word with the results `r` writes, as far as `r` says: registers and predicates among the results, and in flight no
predicate. -/
def Out.Fits (r : Results) (ctl : Bool) (o : Out) : Prop :=
  (∀ w ∈ o.regs, w.1 ∈ r.regs ctl) ∧ (∀ w ∈ o.preds, ∃ p, r.pred = some p ∧ p.toNat = w.1) ∧ (r.late = true → o.preds = [])

/-- What a thread keeps while a word with the results `r` writes them: all but its registers, predicates, flags and words in
flight, of these the registers and predicates that are no results, and the counters of the words in flight. -/
structure Results.Keeps (r : Results) (h h' : Thread) : Prop where
  rest : h' = { h with v := h'.v, c := h'.c, p := h'.p, flags := h'.flags, pend := h'.pend }
  raw : ∀ j, j ∉ r.regs h.ctl → h'.raw j = h.raw j
  pred : ∀ j, (∀ p, r.pred = some p → p.toNat ≠ j) → h'.rawPred j = h.rawPred j
  flags : h'.flags = h.flags
  ctrs : h'.pend.map (·.ctr) = h.pend.map (·.ctr)

theorem Results.Keeps.refl (r : Results) (h : Thread) : r.Keeps h h := ⟨rfl, fun _ _ => rfl, fun _ _ => rfl, rfl, rfl⟩

theorem Results.Keeps.ctl {r : Results} {h h' : Thread} (k : r.Keeps h h') : h'.ctl = h.ctl := congrArg (·.ctl) k.rest

theorem Results.Keeps.trans {r : Results} {h h' h'' : Thread} (k : r.Keeps h h') (k' : r.Keeps h' h'') : r.Keeps h h'' where
  rest := by rw [k'.rest, k.rest]
  raw := fun j hj => (k'.raw j (by rw [k.ctl]; exact hj)).trans (k.raw j hj)
  pred := fun j hj => (k'.pred j hj).trans (k.pred j hj)
  flags := k'.flags.trans k.flags
  ctrs := k'.ctrs.trans k.ctrs

theorem Results.keeps_write (r : Results) (h : Thread) {i : Nat} (hi : i ∈ r.regs h.ctl) (x : DWord) : r.Keeps h (h.write i x) where
  rest := by rw [Thread.write, h.setRaw_frame i x]
  raw := fun j hj => Thread.setRaw_raw_ne h (fun e => hj (by rw [e]; exact hi)) x
  pred := fun j _ => congrArg (·.rawPred j) (h.setRaw_frame i x)
  flags := congrArg (·.flags) (h.setRaw_frame i x)
  ctrs := List.map_map

theorem Results.keeps_writePred (r : Results) (h : Thread) {p : P3} (hp : r.pred = some p) (x : Bool) :
    r.Keeps h (h.writePred p.toNat x) where
  rest := by rw [Thread.writePred, h.setRawPred_frame _ x]
  raw := fun j _ => congrArg (·.raw j) (h.setRawPred_frame _ x)
  pred := fun j hj => Thread.setRawPred_rawPred_ne h p.isLt (hj p hp).symm x
  flags := congrArg (·.flags) (h.setRawPred_frame _ x)
  ctrs := List.map_map

theorem keeps_foldl {β : Type} (r : Results) (f : Thread → β → Thread) (P : Bool → β → Prop)
    (hf : ∀ h x, P h.ctl x → r.Keeps h (f h x)) (l : List β) (h : Thread) (hl : ∀ x ∈ l, P h.ctl x) : r.Keeps h (l.foldl f h) := by
  induction l generalizing h with
  | nil => exact .refl r h
  | cons x l ih =>
    have k := hf h x (hl x List.mem_cons_self)
    exact k.trans (ih _ fun y hy => by rw [k.ctl]; exact hl y (List.mem_cons_of_mem _ hy))

/-- The results of a fixed-latency word are written, and nothing else. -/
theorem Out.Fits.frame_now {r : Results} {h : Thread} {o : Out} (hr : r.late = false) (ho : o.Fits r h.ctl) :
    r.frame h (o.now h) := by
  obtain ⟨hregs, hpreds, _⟩ := ho
  have kregs := keeps_foldl r (fun t (w : Nat × DWord) => t.write w.1 w.2) (fun c w => w.1 ∈ r.regs c)
    (fun h w hw => r.keeps_write h hw w.2) o.regs h hregs
  have kpreds := keeps_foldl r (fun t (w : Nat × Bool) => t.writePred w.1 w.2) (fun _ w => ∃ p, r.pred = some p ∧ p.toNat = w.1)
    (fun h w hw => by obtain ⟨p, hp, e⟩ := hw; rw [← e]; exact r.keeps_writePred h hp w.2)
    o.preds (o.regs.foldl (fun t w => t.write w.1 w.2) h) hpreds
  obtain ⟨rest, raw, pred, flags, ctrs⟩ := kregs.trans kpreds
  refine ⟨?_, raw, pred, ?_, ?_⟩
  · rw [Out.now, rest]
  · rw [Out.now, flags, BitVec.or_assoc, BitVec.or_comm o.flags, ← BitVec.or_assoc, BitVec.or_self]
  · rw [hr]
    exact ctrs

/-- The results of a variable-latency word are in flight, and nothing else has changed. -/
theorem Out.Fits.frame_later {r : Results} {h : Thread} {o : Out} (hr : r.late = true) (ho : o.Fits r h.ctl) :
    r.frame h (h.launch (o.later .wa Option.none)) := by
  obtain ⟨hregs, _, hpreds⟩ := ho
  refine ⟨rfl, fun _ _ => rfl, fun _ _ => rfl, BitVec.or_self, ?_⟩
  rw [hr]
  refine ⟨rfl, rfl, rfl, rfl, _, rfl, rfl, fun w hw => ?_, by simp [Out.later, hpreds hr]⟩
  obtain ⟨x, hx, rfl⟩ := List.mem_map.1 hw
  exact hregs x hx

/-- The results of a word on its counter. -/
def Results.ctr (r : Results) : Option Ctr := if r.late then some .wa else none

theorem Out.Fits.frame_apply {r : Results} {h : Thread} {o : Out} (ho : o.Fits r h.ctl) : r.frame h (o.apply r.ctr h) := by
  cases hr : r.late with
  | false => rw [Results.ctr, hr]; exact ho.frame_now hr
  | true => rw [Results.ctr, hr]; exact ho.frame_later hr

/-! ### What a word may write, from the shape of its results -/

theorem fits_dst32 (h : Thread) (d : Code) (late : Bool) (x : Word) (signed : Bool) (fl : BitVec 6) :
    Out.Fits ⟨some (d, false), none, late⟩ h.ctl { regs := h.dst32 d x signed, preds := [], flags := fl } := by
  simp [Out.Fits, Thread.dst32, Results.regs]

theorem fits_dst64 (h : Thread) (d : Code) (late : Bool) (x : DWord) (fl : BitVec 6) :
    Out.Fits ⟨some (d, true), none, late⟩ h.ctl { regs := h.dst64 d x, preds := [], flags := fl } := by
  cases hc : h.ctl <;> simp [Out.Fits, Thread.dst64, Results.regs, hc]

theorem fits_outT (h : Thread) (t : ElemTy) (d : Code) (late : Bool) (v : Nat × BitVec 6) :
    Out.Fits ⟨some (d, t.isPair), none, late⟩ h.ctl (outT h t d v) := by
  unfold outT Thread.dstT
  cases t.isPair with
  | false => exact fits_dst32 ..
  | true => exact fits_dst64 ..

theorem fits_dstFree (h : Thread) (d : Code) (n : Nat) (x : Word) :
    Out.Fits ⟨some (d, false), none, false⟩ h.ctl (Out.reg (h.dstFree n d x)) := by
  simp [Out.Fits, Out.reg, Thread.dstFree, Results.regs]

theorem fits_iaddc (h : Thread) (d : Code) (p : P3) (x : Word) (v : Bool) :
    Out.Fits ⟨some (d, false), some p, false⟩ h.ctl { regs := h.dst32 d x false, preds := [(p.toNat, v)], flags := 0 } := by
  simp [Out.Fits, Thread.dst32, Results.regs]

theorem fits_pred (ctl : Bool) (p : P3) (v : Bool) (fl : BitVec 6) :
    Out.Fits ⟨none, some p, false⟩ ctl { regs := [], preds := [(p.toNat, v)], flags := fl } := by
  simp [Out.Fits]

/-! ### The words that only compute -/

/-- A word that only computes gives each thread results that fit it, in flight or at once. -/
def Computes (i : Instr) (r : Results) : Prop :=
  ∀ (s : State) (g : Group) (rest : List Group), s.groups = g :: rest →
    ∃ m f, exec i s = .next (lane m r.ctr f s) ∧ (∀ e h, (f e h).Fits r h.ctl) ∧
      ∀ e h, Env.guardTrue e h m = Env.guardTrue e h i.mods

/-- A lane word whose results fit. -/
theorem computes_of_lane {i : Instr} {r : Results} {f : Env → Thread → Out}
    (he : ∀ s, exec i s = .next (lane i.mods r.ctr f s)) (hf : ∀ e h, (f e h).Fits r h.ctl) : Computes i r :=
  fun s _ _ _ => ⟨i.mods, f, he s, hf, fun _ _ => rfl⟩

/-- A group word, which takes no guard, whose results fit. -/
theorem computes_of_groupLane {i : Instr} {d : Code × Bool} {f : List (Nat × Thread) → Env → Thread → Out}
    (he : ∀ s, exec i s = .next (groupLane f s)) (hm : guardOf i.mods = Guard.off)
    (hf : ∀ l e h, (f l e h).Fits ⟨some d, none, true⟩ h.ctl) : Computes i ⟨some d, none, true⟩ := by
  intro s g rest hg
  refine ⟨.none, fun e h => f (g.members e.tm) e h, ?_, fun e h => hf _ e h, fun e h => ?_⟩
  · rw [he]
    show Host.Outcome.next (groupLane f s) = _
    unfold groupLane
    split
    · simp_all
    · next h => rw [hg] at h; cases h; rfl
  · rw [Env.guardTrue, Env.guardTrue, hm]
    rfl

/-- A fixed-latency word with a result of its type. -/
theorem computes_outT {i : Instr} {d : Code} {t : ElemTy} {f : Env → Thread → Nat × BitVec 6}
    (he : ∀ s, exec i s = .next (lane i.mods none (fun e h => outT h t d (f e h)) s)) :
    Computes i ⟨some (d, t.isPair), none, false⟩ :=
  computes_of_lane he fun e h => fits_outT h t d false (f e h)

/-- A variable-latency word with a result of its type. -/
theorem computes_outT_late {i : Instr} {d : Code} {t : ElemTy} {f : Env → Thread → Nat × BitVec 6}
    (he : ∀ s, exec i s = .next (lane i.mods (some .wa) (fun e h => outT h t d (f e h)) s)) :
    Computes i ⟨some (d, t.isPair), none, true⟩ :=
  computes_of_lane he fun e h => fits_outT h t d true (f e h)

/-- A comparison. -/
theorem computes_pred {i : Instr} {p : P3} {f : Env → Thread → Bool × BitVec 6}
    (he : ∀ s, exec i s = .next (lane i.mods none (fun e h => outPred p (f e h)) s)) : Computes i ⟨none, some p, false⟩ :=
  computes_of_lane he fun e h => fits_pred h.ctl p (f e h).1 (f e h).2

/-- A word that takes no modifier but FILL has no guard. -/
theorem guardOf_group {i : Instr} (h : i.modsOk = true) (hs : i.modSpec = .fill ∨ i.modSpec = .no) : guardOf i.mods = Guard.off := by
  cases hm : i.mods with
  | none | f2 | f3 => rfl
  | f0 x | f1 x => rcases hs with hs | hs <;> simp [Instr.modsOk, hs, hm, ModSpec.accepts] at h

/-- Each word of the list `computes` writes the results that the list gives it, and nothing else. -/
theorem computes_of_listed (i : Instr) (r : Results) (hc : computes i = some r) (hwf : i.wf = true) : Computes i r := by
  have hmods : i.modsOk = true := ((Bool.and_eq_true _ _).mp hwf).2
  cases i with
  | mov d _ t | movDl d t | iabs d _ t | popc d _ t | clz d _ t | ctz d _ t | brev d _ t =>
    cases hc; exact computes_outT fun _ => rfl
  | iadd d _ _ t | isub d _ _ t | imul d _ _ t | imulh d _ _ t | imad d _ _ t | imin d _ _ t | imax d _ _ t | and d _ _ t
  | or d _ _ t | xor d _ _ t | andn d _ _ t | shl d _ _ t | shr d _ _ t | sar d _ _ t | rotl d _ _ t | bfx d _ _ t
  | bfi d _ _ t =>
    cases hc; exact computes_outT fun _ => rfl
  | iaddDl d _ t | imulDl d _ t | andDl d _ t | orDl d _ t | xorDl d _ t => cases hc; exact computes_outT fun _ => rfl
  | fadd d _ _ t | fsub d _ _ t | fmul d _ _ t | ffma d _ _ t | fmin d _ _ t | fmax d _ _ t | frnd d _ _ t =>
    cases hc; exact computes_outT fun _ => rfl
  | faddDl d _ t | fmulDl d _ t | fminDl d _ t | fmaxDl d _ t => cases hc; exact computes_outT fun _ => rfl
  | idiv d _ _ t | irem d _ _ t | fdiv d _ _ t => cases hc; exact computes_outT_late fun _ => rfl
  | frcp d _ t | frsq d _ t | fsqrt d _ t | fexp2 d _ t | flog2 d _ t | ftanh d _ t =>
    cases hc; exact computes_outT_late fun _ => rfl
  | iaddi d => cases hc; exact computes_outT (t := .i32) fun _ => rfl
  | shli d _ w | shri d _ w | sari d _ w =>
    cases hc
    cases w with
    | true => exact computes_outT (t := .i64) fun _ => rfl
    | false => exact computes_outT (t := .i32) fun _ => rfl
  | icmp | icmpDl | icmpi => cases hc; exact computes_pred (f := fun _ _ => (_, 0)) fun _ => rfl
  | fcmp | fcmpDl => cases hc; exact computes_pred fun _ => rfl
  | movi d | fclass d => cases hc; exact computes_of_lane (fun _ => rfl) fun e h => fits_dst32 h d false ..
  | sel d => cases hc; exact computes_of_lane (fun _ => rfl) fun e h => fits_dstFree h d ..
  | lea d => cases hc; exact computes_of_lane (fun _ => rfl) fun e h => fits_dst64 h d false ..
  | iaddc d => cases hc; exact computes_of_lane (fun _ => rfl) fun e h => fits_iaddc h d ..
  | sread d n =>
    cases hc
    refine computes_of_lane (fun _ => rfl) fun e h => ?_
    cases hn : n.isWide with
    | true => exact fits_dst64 h d false ..
    | false => exact fits_dst32 h d false ..
  | fcvt d _ dst =>
    cases hc
    refine computes_of_lane (fun _ => rfl) fun e h => ?_
    cases dst with
    | f64 => exact fits_dst64 h d false ..
    | _ => exact fits_dst32 h d false ..
  | icvt d _ flt int toInt =>
    cases hc
    refine computes_of_lane (fun _ => rfl) fun e h => ?_
    cases toInt with
    | true => cases int with
      | i64 | n64 => exact fits_dst64 h d false ..
      | i32 | n32 => exact fits_dst32 h d false ..
    | false => cases flt with
      | f64 => exact fits_dst64 h d false ..
      | _ => exact fits_dst32 h d false ..
  | gshf d | gbcst d =>
    cases hc
    exact computes_of_groupLane (fun _ => rfl) (guardOf_group hmods (.inl rfl)) fun l e h => fits_dst32 h d true ..
  | gvote d =>
    cases hc
    exact computes_of_groupLane (fun _ => rfl) (guardOf_group hmods (.inr rfl)) fun l e h => fits_dst32 h d true ..
  | gscan d _ _ _ t | gred d _ _ t =>
    cases hc
    exact computes_of_groupLane (fun _ => rfl) (guardOf_group hmods (.inr rfl)) fun l e h => fits_outT h t d true _
  | _ => cases hc

/-- Settles O16: a listed word is a lane word whose results fit, and such results change a thread as `Results.frame` says. -/
theorem computingWordsFrame : Obligations.ComputingWordsFrame := by
  intro i r s g rest hc hwf hg
  obtain ⟨m, f, he, hfits, hguard⟩ := computes_of_listed i r hc hwf s g rest hg
  obtain ⟨hthread, _, hteam, hrest⟩ := lane_lanes s g rest m r.ctr f hg
  refine ⟨_, he, hrest, fun id tm ht => ?_⟩
  obtain ⟨l, hl⟩ := hteam id tm ht
  refine ⟨_, hl, rfl, fun tid h hh => ?_⟩
  have hth := hthread id tid tm h ht hh
  rw [State.thread?, hl, Option.bind_some] at hth
  refine ⟨_, hth, ?_⟩
  have hruns : runsIn s g i.mods tm h = runsIn s g m tm h := by rw [runsIn, runsIn, hguard]
  rw [hruns]
  split
  · exact (hfits (s.env tm) h).frame_apply
  · rfl

end Sys2Proof.Machine
end

section
/-!
SUPPORT and PROOFS. What loads and stores do to memory, the L1s and threads (R123 to R128, R182 to R184, R192, R195).
-/

namespace Sys2Proof.Machine

/-! ### Records in lists -/

/-- Looking a record up after another was put: the one just put under its own key, under another key what stood there. -/
theorem find?_put {α : Type} (key : α → Nat) (a : α) (k : Nat) (l : List α) :
    (put key a l).find? (fun x => key x = k) = if key a = k then some a else l.find? (fun x => key x = k) := by
  induction l with
  | nil => by_cases h : key a = k <;> simp [put, h]
  | cons x l ih =>
    by_cases hx : key x = key a
    · by_cases h : key a = k <;> simp [put, hx, h]
    · by_cases h : key x = k
      · have ha : key a ≠ k := fun e => hx (h.trans e.symm)
        rw [put, if_neg hx]
        simp [h, ha]
      · simp [put, hx, h, ih]

/-- The key of a record that was looked up, or of the record that stands in for a missing one. -/
theorem find?_getD_key {α : Type} (key : α → Nat) (k : Nat) (l : List α) {a : α} (ha : key a = k) :
    key ((l.find? fun x => key x = k).getD a) = k := by
  cases h : l.find? (fun x => key x = k) with
  | none => exact ha
  | some x => simpa using List.find?_some h

theorem die_modDie (s : State) (d k : Nat) (f : Die → Die) (hf : ∀ x, (f x).id = x.id) :
    (s.modDie d f).die k = if d = k then f (s.die k) else s.die k := by
  have hid : (f (s.die d)).id = d := (hf _).trans (find?_getD_key Die.id d s.dies rfl)
  unfold State.modDie State.die at *
  rw [find?_put Die.id, hid]
  split
  · next e => rw [e]; rfl
  · rfl

theorem core_setCore (s : State) (x : Core) (k : Nat) : (s.setCore x).core k = if x.id = k then x else s.core k := by
  unfold State.setCore State.core
  rw [find?_put Core.id]
  split <;> rfl

theorem core_id (s : State) (c : Nat) : (s.core c).id = c := find?_getD_key Core.id c s.cores rfl

theorem core_modCore (s : State) (c k : Nat) (f : Core → Core) (hf : ∀ x, (f x).id = x.id) :
    (s.modCore c f).core k = if c = k then f (s.core k) else s.core k := by
  unfold State.modCore
  rw [core_setCore, hf, core_id]
  split
  · next e => rw [e]
  · rfl

theorem line_pa (s : State) (c pa : Nat) : (s.line c pa).pa = lineOf pa := find?_getD_key L1Line.pa _ _ rfl

/-- The lines of a core after one of them was set. -/
theorem find?_line_setLine (s : State) (c : Nat) (x : L1Line) (k : Nat) :
    ((s.setLine c x).core c).lines.find? (fun y => y.pa = k) =
      if x.pa = k then some x else (s.core c).lines.find? (fun y => y.pa = k) := by
  have h := core_modCore s c c (fun y => { y with lines := put (·.pa) x y.lines }) fun _ => rfl
  rw [if_pos rfl] at h
  unfold State.setLine
  rw [h]
  exact find?_put L1Line.pa x k _

/-! ### What an access leaves as it was -/

/-- What no access to memory changes: the threads of every team, what the physical address of a location and the service of a
home depend on. -/
structure Steady (s t : State) : Prop where
  threads : ∀ id, (t.team? id).map (·.threads) = (s.team? id).map (·.threads)
  bindings : t.bindings = s.bindings
  regs : t.regs = s.regs
  ports : t.ports = s.ports
  routes : t.routes = s.routes
  serving : ∀ d, (t.die d).state = (s.die d).state

theorem Steady.refl (s : State) : Steady s s := ⟨fun _ => rfl, rfl, rfl, rfl, rfl, fun _ => rfl⟩

theorem Steady.trans {s t u : State} (h : Steady s t) (k : Steady t u) : Steady s u :=
  ⟨fun id => (k.threads id).trans (h.threads id), k.bindings.trans h.bindings, k.regs.trans h.regs, k.ports.trans h.ports,
    k.routes.trans h.routes, fun d => (k.serving d).trans (h.serving d)⟩

/-- Steps one after another. -/
theorem Steady.foldl {β : Type} {f : State → β → State} (hf : ∀ s b, Steady s (f s b)) (l : List β) (s : State) :
    Steady s (l.foldl f s) := by
  induction l generalizing s with
  | nil => exact .refl s
  | cons b l ih => exact (hf s b).trans (ih _)

/-- A step whose state differs elsewhere. -/
theorem Steady.same {s t : State} (ht : t.teams = s.teams) (hb : t.bindings = s.bindings) (hr : t.regs = s.regs)
    (hp : t.ports = s.ports) (ho : t.routes = s.routes) (hd : t.dies = s.dies) : Steady s t :=
  ⟨fun id => by unfold State.team?; rw [ht], hb, hr, hp, ho, fun d => by unfold State.die; rw [hd]⟩

/-- A state that differs elsewhere from one that a steady step has reached. -/
theorem Steady.elsewhere {s t u : State} (h : Steady s t) (ht : u.teams = t.teams) (hb : u.bindings = t.bindings)
    (hr : u.regs = t.regs) (hp : u.ports = t.ports) (ho : u.routes = t.routes) (hd : u.dies = t.dies) : Steady s u :=
  h.trans (.same ht hb hr hp ho hd)

theorem Steady.ite {c : Prop} [Decidable c] {s t u : State} (ht : Steady s t) (hu : Steady s u) :
    Steady s (if c then t else u) := by
  split
  · exact ht
  · exact hu

theorem Steady.thread? {s t : State} (h : Steady s t) (id tid : Nat) : t.thread? id tid = s.thread? id tid := by
  have key : ∀ u : State, u.thread? id tid = ((u.team? id).map (·.threads)).bind (·.find? (·.tid = tid)) := fun u => by
    unfold State.thread?
    cases u.team? id <;> rfl
  rw [key, key, h.threads]

theorem Steady.homeUp {s t : State} (h : Steady s t) (pa : Nat) : t.homeUp pa = s.homeUp pa := by
  unfold State.homeUp State.reachable State.port Die.serves
  simp only [h.regs, h.ports, h.routes, h.serving]

theorem Steady.paOf {s t : State} (h : Steady s t) (l : Loc) : t.paOf l = s.paOf l := by
  cases l <;> simp only [State.paOf, State.bound, h.bindings]

theorem steady_modDie (s : State) (d : Nat) {f : Die → Die} (hid : ∀ x, (f x).id = x.id) (hst : ∀ x, (f x).state = x.state) :
    Steady s (s.modDie d f) :=
  ⟨fun _ => rfl, rfl, rfl, rfl, rfl, fun k => by rw [die_modDie _ _ _ _ hid]; split <;> [exact hst _; rfl]⟩

theorem steady_modCore (s : State) (c : Nat) (f : Core → Core) : Steady s (s.modCore c f) := .same rfl rfl rfl rfl rfl rfl

theorem steady_setStamp (s : State) (x : Stamp) : Steady s (s.setStamp x) := .same rfl rfl rfl rfl rfl rfl

theorem steady_modCluster (s : State) (c : Nat) (f : Cluster → Cluster) : Steady s (s.modCluster c f) :=
  .same rfl rfl rfl rfl rfl rfl

theorem steady_setLine (s : State) (c : Nat) (x : L1Line) : Steady s (s.setLine c x) := steady_modCore s c _

theorem steady_changeEpoch (s : State) (die : Nat) : Steady s (s.changeEpoch die) := by
  unfold State.changeEpoch
  dsimp only
  refine Steady.trans ?_ (steady_modDie _ die (fun _ => rfl) fun _ => rfl)
  exact .same rfl rfl rfl rfl rfl rfl

theorem steady_roomFor (s : State) (die x : Nat) : Steady s (s.roomFor die x) := .ite (steady_changeEpoch s die) (.refl s)

theorem steady_dropCopies (s : State) (sel : Stamp → Bool) : Steady s (s.dropCopies sel) := by
  unfold State.dropCopies
  dsimp only
  refine (Steady.foldl (fun s x => ?_) _ s).trans (.same rfl rfl rfl rfl rfl rfl)
  split
  · exact steady_modDie s _ (fun _ => rfl) fun _ => rfl
  · exact .refl s

theorem steady_settleFor (s : State) (team : Nat) : Steady s (s.settleFor team) := steady_dropCopies s _

theorem steady_settleAt (s : State) (die pa n : Nat) : Steady s (s.settleAt die pa n) := steady_dropCopies s _

theorem steady_directory (s : State) (line : Nat) (w : Option Nat) (due : Nat) (teams : List Nat) :
    Steady s (s.directory line w due teams) := by
  unfold State.directory
  refine Steady.elsewhere (Steady.trans (t := ite _ _ _) ?_ (steady_dropCopies _ _)) rfl rfl rfl rfl rfl rfl
  split
  · exact steady_modDie s _ (fun _ => rfl) fun _ => rfl
  · exact .refl s

theorem steady_stampWrite (s : State) (line : Nat) (core : Option Nat) (due : Nat) (teams : List Nat) :
    Steady s (s.stampWrite line core due teams).2 := by
  unfold State.stampWrite
  split
  · exact ((steady_roomFor s _ _).trans (steady_setStamp _ _)).trans (steady_directory _ _ _ _ _)
  · exact .refl s

theorem steady_homeWrite (s : State) (pa : Nat) (b : List Byte) : Steady s (s.homeWrite pa b) where
  threads := fun id => by
    have hkeep : ∀ x : Team, (x.seeVerdict pa b).id = x.id ∧ (x.seeVerdict pa b).threads = x.threads := fun x => by
      unfold Team.seeVerdict
      repeat' split
      all_goals exact ⟨rfl, rfl⟩
    unfold State.team? State.homeWrite
    rw [List.find?_map, Option.map_map]
    simp only [Function.comp_def, hkeep]
  bindings := rfl
  regs := rfl
  ports := rfl
  routes := rfl
  serving := fun _ => rfl

theorem steady_coreHomeWrite (s : State) (c pa due : Nat) (teams : List Nat) (b : List Byte) :
    Steady s (s.coreHomeWrite c pa due teams b) := by
  unfold State.coreHomeWrite
  exact ((steady_stampWrite s (lineOf pa) (some c) due teams).trans (steady_homeWrite _ pa b)).trans (steady_modCore _ c _)

theorem steady_agentWrite (s : State) (pa : Nat) (b : List Byte) : Steady s (s.agentWrite pa b) := by
  induction b generalizing s pa with
  | nil => exact .refl s
  | cons x b ih => exact ((steady_stampWrite s _ _ _ _).trans (steady_homeWrite _ pa [x])).trans (ih _ _)

theorem steady_scrWrite (s : State) (id o : Nat) (b : List Byte) : Steady s (s.scrWrite id o b) where
  threads := fun k => by
    have h := find_team_map s.teams (fun tm => tm.id = id) (fun tm => { tm with mem := cellsSet tm.mem o b }) (fun _ => rfl) k
    unfold State.team? State.scrWrite State.modTeam
    rw [h, Option.map_map]
    congr 1
    funext tm
    simp only [Function.comp_apply]
    split <;> rfl
  bindings := rfl
  regs := rfl
  ports := rfl
  routes := rfl
  serving := fun _ => rfl

theorem steady_writeBackLine (s : State) (c pa : Nat) (sel : DirtyByte → Bool) : Steady s (s.writeBackLine c pa sel) := by
  unfold State.writeBackLine
  dsimp only
  exact .ite (.refl s) ((Steady.foldl (fun s d => steady_coreHomeWrite s _ _ _ _ _) _ s).trans (steady_setLine _ c _))

theorem steady_writeBack (s : State) (c : Nat) (sel : DirtyByte → Bool) : Steady s (s.writeBack c sel) :=
  .foldl (fun s pa => steady_writeBackLine s c pa sel) _ s

theorem steady_flushBytes (s : State) (c pa n : Nat) : Steady s (s.flushBytes c pa n) :=
  .foldl (fun s _ => steady_writeBackLine s c _ _) _ s

theorem steady_release (s : State) (ag : Agent) (sc : Scope) (g : Option GuardWord) : Steady s (s.release ag sc g) := by
  unfold State.release
  refine .ite (.refl s) (Steady.trans (.ite (.refl s) ?_) (steady_settleFor _ _))
  split
  · exact steady_writeBack s _ _
  · exact steady_writeBack s _ _

theorem steady_l1Store (s : State) (c team pa va : Nat) (b : List Byte) : Steady s (s.l1Store c team pa va b) :=
  steady_setLine s c _

theorem steady_toHome (s : State) (ag : Agent) (l : Loc) (n : Nat) : Steady s (s.toHome ag l n) := by
  unfold State.toHome
  split
  · exact .refl s
  · exact (Steady.ite (.refl s) (steady_flushBytes s _ _ _)).trans (steady_settleAt _ _ _ _)

theorem steady_fromHome (s : State) (ag : Agent) (l : Loc) (n : Nat) : Steady s (s.fromHome ag l n) := by
  unfold State.fromHome
  split
  · exact .refl s
  · exact .ite (.refl s) (steady_modCore s _ _)

theorem steady_putAt (s : State) (ag : Agent) (l : Loc) (b : List Byte) : Steady s (s.putAt ag l b) := by
  unfold State.putAt
  split
  · exact steady_scrWrite s _ _ _
  · exact .ite (steady_agentWrite s _ _) (steady_coreHomeWrite s _ _ _ _ _)

theorem steady_storeHome (s : State) (ag : Agent) (l : Loc) (b : List Byte) : Steady s (s.storeHome ag l b) :=
  ((steady_toHome s ag l _).trans (steady_putAt _ ag l b)).trans (steady_fromHome _ ag l _)

theorem steady_storeAt (s : State) (ag : Agent) (va : Nat) (l : Loc) (b : List Byte) (y : Sync) :
    Steady s (s.storeAt ag va l b y) := .ite (steady_l1Store s _ _ _ _ _) (steady_storeHome s _ _ _)

/-! ### Translation leaves as much as it was -/

theorem steady_install (s : State) (core : Nat) (direct w : Bool) (e : TlbEntry) : Steady s (s.install core direct w e).1 := by
  unfold State.install State.setPte
  dsimp only
  have h := fun f => (steady_agentWrite s e.pte (bytesLE 8 (s.pte e.pte ||| (2 ^ 9 + w.toNat * 2 ^ 10)))).trans
    (steady_modCluster _ (clusOf core) f)
  split
  · exact h _
  · exact (h _).trans (steady_modCore _ core _)

theorem steady_walked (s : State) (die tn asid va : Nat) : Steady s (s.walked die tn asid va) := by
  unfold State.walked
  split
  · exact .refl s
  · exact .ite (.refl s) (steady_modDie s _ (fun _ => rfl) fun _ => rfl)

theorem steady_pageWalk (s : State) (core : Nat) (direct : Bool) (tn asid va : Nat) (w : Bool) :
    Steady s (s.pageWalk core direct tn asid va w).1 := by
  unfold State.pageWalk
  split
  · exact (steady_walked s _ _ _ _).trans (steady_install _ _ _ _ _)
  · exact .refl s

theorem steady_leafFor (s : State) (core : Nat) (direct : Bool) (tn asid va : Nat) (k : Kind) :
    Steady s (s.leafFor core direct tn asid va k).1 := by
  unfold State.leafFor
  split
  · split
    · exact .ite (.refl s) (steady_modCore s _ _)
    · exact steady_pageWalk s _ _ _ _ _ _
  · exact steady_pageWalk s _ _ _ _ _ _

theorem translate_fst (s : State) (ag : Agent) (va : Nat) (k : Kind) :
    (s.translate ag va k).1 = (s.leafFor ag.core ag.direct ag.tenant ag.asid va k).1 := by
  unfold State.translate
  dsimp only
  split
  · next e => rw [e]
  · next e => rw [e]; split <;> rfl

theorem place_fst (s : State) (ag : Agent) (va n : Nat) (k : Kind) :
    (s.place ag va n k).1 = if inWindow va then s else (s.translate ag va k).1 := by
  unfold State.place
  split
  · split <;> rfl
  · split <;> (next e => rw [e])

theorem steady_place (s : State) (ag : Agent) (va n : Nat) (k : Kind) : Steady s (s.place ag va n k).1 := by
  rw [place_fst, translate_fst]
  exact .ite (.refl s) (steady_leafFor s _ _ _ _ _ _)

/-! ### Bytes of an L1 -/

/-- The dirty byte of a line at an offset. -/
def L1Line.dirtyVal (x : L1Line) (off : Nat) : Option Byte := (x.dirty.find? (·.off = off)).map (·.val)

theorem dirtyByte_eq (s : State) (c pa : Nat) : s.dirtyByte c pa = (s.line c pa).dirtyVal (pa % 64) := by
  unfold State.dirtyByte State.line
  cases (s.core c).lines.find? (·.pa = lineOf pa) <;> rfl

/-- What a core reads through its L1, by the line it holds or stands for. -/
theorem coreByte_eq (s : State) (c va pa : Nat) :
    s.coreByte c va pa = ((s.line c pa).dirtyVal (pa % 64)).getD
      (if (s.line c pa).valid (s.core c).ctime (s.die (dieOfCore c)).epoch && (s.line c pa).knows va then
        (s.line c pa).data.getD (pa % 64) 0
      else (s.fetched c (lineOf pa)).getD (pa % 64) 0) := by
  unfold State.coreByte
  rw [dirtyByte_eq]
  cases (s.line c pa).dirtyVal (pa % 64) with
  | some b => rfl
  | none =>
    unfold State.line
    cases (s.core c).lines.find? (·.pa = lineOf pa) <;> rfl

theorem line_setLine (s : State) (c : Nat) (x : L1Line) (pa : Nat) :
    (s.setLine c x).line c pa = if x.pa = lineOf pa then x else s.line c pa := by
  unfold State.line
  rw [find?_line_setLine]
  split <;> rfl

theorem ctime_setLine (s : State) (c : Nat) (x : L1Line) : ((s.setLine c x).core c).ctime = (s.core c).ctime := by
  have h := core_modCore s c c (fun y => { y with lines := put (·.pa) x y.lines }) fun _ => rfl
  rw [if_pos rfl] at h
  unfold State.setLine
  rw [h]

/-- A line is that of its address's line. -/
theorem line_congr (s : State) (c : Nat) {a b : Nat} (h : lineOf a = lineOf b) : s.line c a = s.line c b := by
  unfold State.line
  rw [h]

theorem dirtyVal_store (x : L1Line) (off o : Nat) (v : Byte) (w : Nat × Nat) (now : Nat) :
    (x.store off v w now).dirtyVal o = if o = off then some v else x.dirtyVal o := by
  unfold L1Line.dirtyVal L1Line.store
  by_cases h : o = off
  · simp [h]
  · have h' : ¬ off = o := fun e => h e.symm
    simp only [List.find?_cons, h', h, decide_false, if_false, List.find?_filter]
    congr 2
    funext d
    by_cases hd : d.off = o
    · simp [hd, h]
    · simp [hd]

/-- The first `n` bytes of a write made dirty in a line. -/
def L1Line.storeAll (x : L1Line) (team pa va now : Nat) (b : List Byte) (n : Nat) : L1Line :=
  (List.range n).foldl (fun (x : L1Line) i => x.store ((pa + i) % 64) (b.getD i 0) (team, va + i) now) x

theorem l1Store_eq (s : State) (c team pa va : Nat) (b : List Byte) :
    s.l1Store c team pa va b = s.setLine c ((s.line c pa).storeAll team pa va s.clock b b.length) := rfl

theorem storeAll_succ (x : L1Line) (team pa va now : Nat) (b : List Byte) (n : Nat) :
    x.storeAll team pa va now b (n + 1) =
      (x.storeAll team pa va now b n).store ((pa + n) % 64) (b.getD n 0) (team, va + n) now := by
  unfold L1Line.storeAll
  rw [List.range_succ, List.foldl_append]
  rfl

/-- A write changes the dirty bytes of a line only. -/
theorem storeAll_keeps (x : L1Line) (team pa va now : Nat) (b : List Byte) (n : Nat) :
    ∃ l, x.storeAll team pa va now b n = { x with dirty := l } := by
  induction n with
  | zero => exact ⟨x.dirty, rfl⟩
  | succ n ih =>
    obtain ⟨l, hl⟩ := ih
    rw [storeAll_succ, hl]
    exact ⟨_, rfl⟩

theorem dirtyVal_storeAll (x : L1Line) (team pa va now : Nat) (b : List Byte) (n o : Nat) (hn : pa % 64 + n ≤ 64) :
    (x.storeAll team pa va now b n).dirtyVal o =
      if pa % 64 ≤ o ∧ o < pa % 64 + n then some (b.getD (o - pa % 64) 0) else x.dirtyVal o := by
  induction n with
  | zero => rw [if_neg (by omega)]; rfl
  | succ n ih =>
    rw [storeAll_succ, dirtyVal_store, ih (by omega)]
    by_cases h : o = (pa + n) % 64
    · rw [if_pos h, if_pos (by omega), show o - pa % 64 = n by omega]
    · rw [if_neg h]
      by_cases h' : pa % 64 ≤ o ∧ o < pa % 64 + n
      · rw [if_pos h', if_pos (by omega)]
      · rw [if_neg h', if_neg (by omega)]

/-- A write into an L1 is what its core reads there, and no other byte that the core reads changes. -/
theorem coreByte_l1Store (s : State) (c team pa va : Nat) (b : List Byte) (hb : pa % 64 + b.length ≤ 64) (v a : Nat) :
    (s.l1Store c team pa va b).coreByte c v a =
      if pa ≤ a ∧ a < pa + b.length then b.getD (a - pa) 0 else s.coreByte c v a := by
  have hdirty := dirtyVal_storeAll (s.line c pa) team pa va s.clock b b.length (a % 64) hb
  obtain ⟨l, hl⟩ := storeAll_keeps (s.line c pa) team pa va s.clock b b.length
  rw [hl] at hdirty
  rw [l1Store_eq, hl, coreByte_eq, coreByte_eq, line_setLine, ctime_setLine]
  by_cases hline : lineOf pa = lineOf a
  · rw [if_pos ((line_pa s c pa).trans hline), hdirty]
    have hsame : a / 64 = pa / 64 := by unfold lineOf at hline; omega
    by_cases hin : pa ≤ a ∧ a < pa + b.length
    · rw [if_pos (by omega), if_pos hin, show a % 64 - pa % 64 = a - pa by omega]
      rfl
    · rw [if_neg (by omega), if_neg hin, line_congr s c hline]
      rfl
  · have hout : ¬ (pa ≤ a ∧ a < pa + b.length) := by unfold lineOf at hline; omega
    rw [if_neg fun e => hline ((line_pa s c pa).symm.trans e), if_neg hout]
    rfl

/-! ### Bytes of memory -/

theorem dropCopies_mem (s : State) (sel : Stamp → Bool) : (s.dropCopies sel).mem = s.mem := by
  unfold State.dropCopies
  dsimp only
  generalize s.stamps.filter (fun x => x.die.isSome && sel x) = l
  induction l generalizing s with
  | nil => rfl
  | cons x l ih =>
    rw [List.foldl_cons, ih]
    split <;> rfl

theorem directory_mem (s : State) (line : Nat) (w : Option Nat) (due : Nat) (teams : List Nat) :
    (s.directory line w due teams).mem = s.mem := by
  unfold State.directory
  refine (dropCopies_mem (ite _ _ _) _).trans ?_
  split <;> rfl

theorem roomFor_mem (s : State) (die x : Nat) : (s.roomFor die x).mem = s.mem := by
  unfold State.roomFor
  split <;> rfl

theorem stampWrite_mem (s : State) (line : Nat) (core : Option Nat) (due : Nat) (teams : List Nat) :
    (s.stampWrite line core due teams).2.mem = s.mem := by
  unfold State.stampWrite
  split
  · exact (directory_mem _ _ _ _ _).trans (roomFor_mem _ _ _)
  · rfl

theorem coreHomeWrite_mem (s : State) (c pa due : Nat) (teams : List Nat) (b : List Byte) :
    (s.coreHomeWrite c pa due teams b).mem = cellsSet s.mem pa b := by
  unfold State.coreHomeWrite
  exact congrArg (cellsSet · pa b) (stampWrite_mem _ _ _ _ _)

theorem agentWrite_mem (s : State) (pa : Nat) (b : List Byte) : (s.agentWrite pa b).mem = cellsSet s.mem pa b := by
  induction b generalizing s pa with
  | nil => rfl
  | cons x b ih =>
    refine (ih _ _).trans ?_
    exact congrArg (fun m => cellsSet (cellsSet m pa [x]) (pa + 1) b) (stampWrite_mem _ _ _ _ _)

/-! ### Dirty bytes going home -/

/-- A dirty byte goes with its line's home. -/
theorem writtenBack_mem (c l : Nat) (out : List DirtyByte) (hnd : (out.map (·.off)).Nodup) (a : Nat) :
    ∀ {s : State}, s.Inv →
      cellGet a (out.foldl (fun s d => s.coreHomeWrite c (l + d.off) (d.since + writeBackCycles) (d.writers.map (·.1) ++ d.carried)
        [d.val]) s).mem = ((out.find? fun d => l + d.off = a).map (·.val)).getD (cellGet a s.mem) := by
  induction out with
  | nil => exact fun _ => rfl
  | cons d out ih =>
    intro s h
    obtain ⟨hd, hout⟩ := List.nodup_cons.1 hnd
    rw [List.foldl_cons, ih hout (coreHomeWrite_inv h _ _ _ _ _), coreHomeWrite_mem, cellGet_cellsSet h.mem, List.find?_cons]
    by_cases ha : l + d.off = a
    · have hnone : out.find? (fun e => l + e.off = a) = none := by
        rw [List.find?_eq_none]
        intro e he hea
        refine hd (List.mem_map.2 ⟨e, he, ?_⟩)
        have : l + e.off = a := by simpa using hea
        show e.off = d.off
        omega
      simp [hnone, ha]
    · simp only [ha, decide_false]
      rw [if_neg (by simp; omega)]

theorem wholes_nil (x : L1Line) (n : Nat) : x.wholes n [] = [] := by
  induction n with
  | zero => rfl
  | succ n ih =>
    have hnone : (x.dirty.filter fun d => ([] : List Nat).contains d.off || x.dirty.any fun e =>
        ([] : List Nat).contains e.off && e.off / 8 == d.off / 8 && e.writers.any fun w => d.writers.any (·.1 = w.1)) = [] := by
      rw [List.filter_eq_nil_iff]
      simp
    rw [L1Line.wholes, hnone]
    exact ih

/-- The dirty bytes that leave a line with those that `R` picks are those that it picks, when it picks aligned 8-byte parts whole. -/
theorem contains_wholes {x : L1Line} {R : Nat → Bool} (hR : ∀ a b, a / 8 = b / 8 → R a = R b) (n : Nat) :
    ∀ {offs : List Nat}, (∀ o ∈ offs, R o = true) → (∀ d ∈ x.dirty, R d.off = true → d.off ∈ offs) →
      ∀ d ∈ x.dirty, (x.wholes n offs).contains d.off = R d.off := by
  induction n with
  | zero =>
    intro offs hin hall d hd
    rw [Bool.eq_iff_iff, List.contains_iff_mem]
    exact ⟨hin _, hall d hd⟩
  | succ n ih =>
    intro offs hin hall
    refine ih (fun o ho => ?_) fun d hd hRd => ?_
    · obtain ⟨d, hd, rfl⟩ := List.mem_map.1 ho
      rcases Bool.or_eq_true_iff.1 (List.mem_filter.1 hd).2 with hmem | hpart
      · exact hin _ (List.contains_iff_mem.1 hmem)
      · obtain ⟨e, -, he⟩ := List.any_eq_true.1 hpart
        simp only [Bool.and_eq_true, beq_iff_eq, List.contains_iff_mem] at he
        rw [← hR _ _ he.1.2]
        exact hin _ he.1.1
    · refine List.mem_map.2 ⟨d, List.mem_filter.2 ⟨hd, ?_⟩, rfl⟩
      simp [hall d hd hRd]

/-- With no dirty byte picked, nothing is written back. -/
theorem writeBackLine_none (s : State) (c pa : Nat) {sel : DirtyByte → Bool} (h : ∀ d, sel d = false) :
    s.writeBackLine c pa sel = s := by
  unfold State.writeBackLine
  dsimp only
  rw [show (s.line c pa).dirty.filter sel = [] by simp [h], List.map_nil, wholes_nil, if_pos]
  simp [List.partition_eq_filter_filter]

/-- What memory is after the dirty bytes of a line in some aligned 8-byte parts have gone home. -/
theorem writeBackLine_mem {s : State} (h : s.Inv) (c l : Nat) (hl : lineOf l = l) (hup : s.homeUp l = true) {R : Nat → Bool}
    (hR : ∀ a b, a / 8 = b / 8 → R a = R b) (a : Nat) :
    cellGet a (s.writeBackLine c l fun d => R d.off).mem =
      if lineOf a = l ∧ R (a % 64) = true then (s.dirtyByte c a).getD (cellGet a s.mem) else cellGet a s.mem := by
  obtain ⟨hnd, hoff⟩ := line_tidy h c l
  have hout : (s.line c l).dirty.filter (fun d => ((s.line c l).wholes 8 (((s.line c l).dirty.filter fun d => R d.off).map
      (·.off))).contains d.off) = (s.line c l).dirty.filter fun d => R d.off := by
    refine List.filter_congr fun d hd => contains_wholes hR 8 ?_ ?_ d hd
    · intro o ho
      obtain ⟨e, he, rfl⟩ := List.mem_map.1 ho
      exact (List.mem_filter.1 he).2
    · exact fun e he hRe => List.mem_map.2 ⟨e, List.mem_filter.2 ⟨he, hRe⟩, rfl⟩
  have hval : (((s.line c l).dirty.filter fun d => R d.off).find? (fun d => l + d.off = a)).map (·.val) =
      if lineOf a = l ∧ R (a % 64) = true then s.dirtyByte c a else none := by
    rw [List.find?_filter]
    split
    · next ha =>
      obtain ⟨hla, hRa⟩ := ha
      rw [dirtyByte_eq, line_congr s c (hla.trans hl.symm), L1Line.dirtyVal]
      congr 2
      funext d
      have hoffs : l + d.off = a ↔ d.off = a % 64 := by unfold lineOf at hla; omega
      by_cases hd : d.off = a % 64
      · simp [hd, hRa, hd ▸ hoffs.2 hd]
      · simp [hd, mt hoffs.1 hd]
    · next ha =>
      rw [List.find?_eq_none.2, Option.map_none]
      intro d hd hda
      obtain ⟨hRd, hda⟩ : R d.off = true ∧ l + d.off = a := by simpa using hda
      have hlt := hoff d hd
      unfold lineOf at hl ha
      exact ha ⟨by omega, (show a % 64 = d.off by omega) ▸ hRd⟩
  have hmem := writtenBack_mem c l ((s.line c l).dirty.filter fun d => R d.off) ((List.filter_sublist.map _).nodup hnd) a h
  rw [hval] at hmem
  have hgoal : cellGet a (s.writeBackLine c l fun d => R d.off).mem =
      (if lineOf a = l ∧ R (a % 64) = true then s.dirtyByte c a else none).getD (cellGet a s.mem) := by
    rw [← hmem]
    unfold State.writeBackLine
    dsimp only
    rw [List.partition_eq_filter_filter, hout, hup]
    split
    · next hempty =>
      rw [show (s.line c l).dirty.filter (fun d => R d.off) = [] by simpa using hempty]
      rfl
    · rw [State.setLine_mem, hl]
  rw [hgoal]
  split <;> rfl

/-! ### Accesses at the home -/

/-- What memory is after a core's dirty bytes of an access, and those that share an aligned 8-byte part with one of them, have gone
home. -/
theorem flushBytes_mem {s : State} (h : s.Inv) (c pa n : Nat) (hn : pa % 64 + n ≤ 64) (hn0 : n < 64)
    (hup : s.homeUp (lineOf pa) = true) (a : Nat) :
    cellGet a (s.flushBytes c pa n).mem =
      if pa / 8 * 8 ≤ a ∧ a < (pa + n + 7) / 8 * 8 then (s.dirtyByte c a).getD (cellGet a s.mem) else cellGet a s.mem := by
  have hflush : s.flushBytes c pa n = s.writeBackLine c (lineOf pa) fun d =>
      decide (pa / 8 * 8 ≤ lineOf pa + d.off) && decide (lineOf pa + d.off < (pa + n + 7) / 8 * 8) := by
    unfold State.flushBytes
    rw [Nat.div_eq_of_lt hn0]
    refine (writeBackLine_none _ c (lineOf pa + 64 * 1) fun d => ?_).trans rfl
    unfold lineOf
    simp only [Bool.and_eq_false_iff, decide_eq_false_iff_not]
    omega
  have hline : lineOf (lineOf pa) = lineOf pa := by unfold lineOf; omega
  rw [hflush, writeBackLine_mem h c (lineOf pa) hline hup (R := fun o =>
    decide (pa / 8 * 8 ≤ lineOf pa + o) && decide (lineOf pa + o < (pa + n + 7) / 8 * 8))]
  · refine if_congr ?_ rfl rfl
    simp only [Bool.and_eq_true, decide_eq_true_eq]
    unfold lineOf
    omega
  · intro x y hxy
    rw [Bool.eq_iff_iff]
    simp only [Bool.and_eq_true, decide_eq_true_eq]
    unfold lineOf
    omega

section
variable {l : Loc} (hl : ∀ id o, l ≠ .scr id o)
include hl

theorem toHome_of_mem (s : State) (ag : Agent) (n : Nat) : s.toHome ag l n =
    (if ag.stream then s else s.flushBytes ag.core (s.paOf l) n).settleAt (dieOfCore ag.core) (s.paOf l) n := by
  cases l with
  | scr id o => exact absurd rfl (hl id o)
  | mem _ | vis _ _ | shd _ _ => rfl

theorem putAt_of_mem (s : State) (ag : Agent) (b : List Byte) : s.putAt ag l b =
    if ag.stream then s.agentWrite (s.paOf l) b
    else s.coreHomeWrite ag.core (s.paOf l) (s.clock + writeBackCycles) [ag.team] b := by
  cases l with
  | scr id o => exact absurd rfl (hl id o)
  | mem _ | vis _ _ | shd _ _ => rfl

theorem fromHome_mem (s : State) (ag : Agent) (n : Nat) : (s.fromHome ag l n).mem = s.mem := by
  cases l with
  | scr id o => exact absurd rfl (hl id o)
  | mem _ | vis _ _ | shd _ _ => exact (apply_ite State.mem _ _ _).trans (ite_self _)

theorem answers_iff (s : State) : s.answers l ↔ s.homeUp (lineOf (s.paOf l)) = true := by
  cases l with
  | scr id o => exact absurd rfl (hl id o)
  | mem _ | vis _ _ | shd _ _ => exact Iff.rfl

theorem storedAtHome_of_mem {s t : State} {ag : Agent} {acq : Bool} {n : Nat} {new : Nat → Byte}
    (h : ∀ a, cellGet a t.mem = if s.paOf l ≤ a ∧ a < s.paOf l + n then new (a - s.paOf l)
      else if s.paOf l / 8 * 8 ≤ a ∧ a < (s.paOf l + n + 7) / 8 * 8 then s.homeMem ag a else cellGet a s.mem) :
    storedAtHome s t ag acq l n new := by
  cases l with
  | scr id o => exact absurd rfl (hl id o)
  | mem _ | vis _ _ | shd _ _ => exact fun a => .inl (h a)

theorem toHome_mem {s : State} (h : s.Inv) (ag : Agent) (n : Nat) (hn : s.paOf l % 64 + n ≤ 64) (hn0 : n < 64)
    (hup : s.answers l) (a : Nat) :
    cellGet a (s.toHome ag l n).mem =
      if s.paOf l / 8 * 8 ≤ a ∧ a < (s.paOf l + n + 7) / 8 * 8 then s.homeMem ag a else cellGet a s.mem := by
  rw [toHome_of_mem hl]
  refine (congrArg (cellGet a) (dropCopies_mem _ _)).trans ?_
  unfold State.homeMem
  cases ag.stream with
  | true => exact (ite_self _).symm
  | false => exact flushBytes_mem h _ _ _ hn hn0 ((answers_iff hl s).1 hup) a

theorem putAt_mem (s : State) (ag : Agent) (b : List Byte) : (s.putAt ag l b).mem = cellsSet s.mem (s.paOf l) b := by
  rw [putAt_of_mem hl]
  split
  · exact agentWrite_mem _ _ _
  · exact coreHomeWrite_mem _ _ _ _ _ _

theorem storeHome_mem {s : State} (h : s.Inv) (ag : Agent) (b : List Byte) (hn : s.paOf l % 64 + b.length ≤ 64)
    (hn0 : b.length < 64) (hup : s.answers l) (a : Nat) :
    cellGet a (s.storeHome ag l b).mem = if s.paOf l ≤ a ∧ a < s.paOf l + b.length then b.getD (a - s.paOf l) 0
      else if s.paOf l / 8 * 8 ≤ a ∧ a < (s.paOf l + b.length + 7) / 8 * 8 then s.homeMem ag a else cellGet a s.mem := by
  unfold State.storeHome
  rw [fromHome_mem hl, putAt_mem hl, (steady_toHome s ag l b.length).paOf, cellGet_cellsSet (toHome_inv h ag l b.length).mem,
    toHome_mem hl h ag b.length hn hn0 hup]

end

theorem team?_modTeam (s : State) (id k : Nat) (f : Team → Team) (hf : ∀ x, (f x).id = x.id) :
    (s.modTeam id f).team? k = (s.team? k).map fun tm => if tm.id = id then f tm else tm :=
  find_team_map s.teams (fun tm => tm.id = id) f hf k

theorem thread?_modThread {s : State} {id tid : Nat} {f : Thread → Thread} (hf : ∀ h, (f h).tid = h.tid) {h : Thread}
    (hh : s.thread? id tid = some h) : (s.modThread id tid f).thread? id tid = some (f h) := by
  unfold State.thread? at hh ⊢
  obtain ⟨tm, ht, hth⟩ := Option.bind_eq_some_iff.1 hh
  have hteam := team?_modTeam s id id (·.modThread tid f) fun _ => rfl
  rw [ht, Option.map_some, if_pos (team?_id ht)] at hteam
  unfold State.modThread
  rw [hteam, Option.bind_some]
  unfold Team.thread? at hth ⊢
  unfold Team.modThread
  rw [find_thread_map _ _ fun h => by split <;> [exact hf h; rfl], hth, Option.map_some, if_pos (thread?_tid hth)]

/-! ### The words -/

/-- The effective address of R60, as a sum of 64-bit numbers. -/
theorem effAddr_eq (base : DWord) (off : BitVec 7) (n : Nat) :
    effAddr base off n = (base + off.signExtend 64 * BitVec.ofNat 64 n).toNat := by
  have hsum : BitVec.ofInt 64 ((base.toNat : Int) + n * off.toInt) = base + off.signExtend 64 * BitVec.ofNat 64 n := by
    rw [BitVec.ofInt_add, BitVec.ofInt_mul, BitVec.ofInt_natCast, BitVec.ofInt_natCast, BitVec.ofNat_toNat, BitVec.setWidth_eq,
      BitVec.mul_comm]
    rfl
  rw [← hsum, BitVec.toNat_ofInt]
  rfl

theorem accessAt_fst {size : MemSize} (h : size ≠ .b4) (base : DWord) (off : BitVec 7) :
    (accessAt size base off).1 = effAddr base off (sizeBytes size) := by
  rw [effAddr_eq, accessAt, if_neg h]

theorem srcMem_length (e : Env) (h : Thread) (d : Code) (size : MemSize) :
    (e.srcMem h d (sizeBytes size)).length = sizeBytes size := by
  unfold Env.srcMem
  split
  · exact bytesLE_length _ _
  · cases size <;> simp [sizeBytes, List.range_succ]

section
variable {s : State} {ag : Agent} {va n : Nat} {b : List Byte} (hb : b.length = n) (y : Sync)
include hb

theorem memWrite_misaligned (hal : va % n ≠ 0) :
    s.memWrite ag va b y = (s, .error { cause := .align, detail := 0, write := true, addr := BitVec.ofNat 64 va }) := by
  subst hb
  unfold State.memWrite misaligned
  rw [if_neg hal]

theorem memWrite_error (hal : va % n = 0) {s1 : State} {x : Bad} (hp : s.place ag va n .write = (s1, .error x)) :
    s.memWrite ag va b y = (s1, .error x) := by
  subst hb
  unfold State.memWrite misaligned
  rw [if_pos hal, hp]

/-- A write whose address is aligned and whose place is found. -/
theorem memWrite_ok (hal : va % n = 0) {s1 : State} {l : Loc} {p : Option Pin} (hp : s.place ag va n .write = (s1, .ok (l, p))) :
    s.memWrite ag va b y =
      ((if y.order.releases then s1.release ag y.scope (s1.guardOf ag va) else s1).storeAt ag va l b y, .ok ()) := by
  subst hb
  unfold State.memWrite misaligned
  rw [if_pos hal, hp]

end

theorem steady_memWrite (s : State) (ag : Agent) (va : Nat) (b : List Byte) (y : Sync) : Steady s (s.memWrite ag va b y).1 := by
  unfold State.memWrite
  split
  · exact .refl s
  · have hp := steady_place s ag va b.length .write
    split
    · next e => rw [e] at hp; exact hp
    · next e =>
      rw [e] at hp
      exact (hp.trans (.ite (steady_release _ _ _ _) (.refl _))).trans (steady_storeAt _ _ _ _ _ _)

/-- What ST does in a thread whose write succeeds. -/
theorem stOne_ok {s s2 : State} {g : Group} {tm : Team} {h : Thread} {d base : Code} {size : MemSize} {off : BitVec 7} {m : Mods}
    (ht : s.team? g.team = some tm) (hh : tm.thread? h.tid = some h)
    (hw : s.memWrite (tm.agent h.tid) (effAddr ((s.env tm).rd64 h base 0) off (sizeBytes size)) ((s.env tm).srcMem h d (sizeBytes size))
      (syncOf m) = (s2, .ok ())) :
    State.stOne d base size off m s g h.tid = s2.ordered g h.tid m Out.none := by
  unfold State.stOne
  rw [withThread_eq _ ht hh]
  dsimp only [Env.addr]
  rw [hw]

/-- What ST does in a thread whose write fails a check. -/
theorem stOne_error {s s2 : State} {g : Group} {tm : Team} {h : Thread} {d base : Code} {size : MemSize} {off : BitVec 7} {m : Mods}
    {b : Bad} (ht : s.team? g.team = some tm) (hh : tm.thread? h.tid = some h)
    (hw : s.memWrite (tm.agent h.tid) (effAddr ((s.env tm).rd64 h base 0) off (sizeBytes size)) ((s.env tm).srcMem h d (sizeBytes size))
      (syncOf m) = (s2, .error b)) :
    State.stOne d base size off m s g h.tid = s2.trap g h.tid b := by
  unfold State.stOne
  rw [withThread_eq _ ht hh]
  dsimp only [Env.addr]
  rw [hw]

/-- An acknowledgement in order is in flight for a thread that a steady step has left. -/
theorem inOrder_ordered {s s2 : State} (hs : Steady s s2) {g : Group} {h : Thread} (hh : s.thread? g.team h.tid = some h) (m : Mods) :
    inOrder (s2.ordered g h.tid m Out.none) g h m [] 0 := by
  have h := thread?_modThread (f := fun th => th.launch
    { Out.none.later .ws none with tie := if (syncOf m).order.releases then .release else .free }) (fun _ => rfl)
    ((hs.thread? _ _).trans hh)
  exact h

/-- A store to a scratchpad writes its bytes in that array and no other. -/
theorem storedAtHome_scrWrite (s : State) (id o : Nat) (b : List Byte) (hinv : s.Inv) (g : Group) (tid : Nat) (m : Mods) (out : Out)
    (ag : Agent) (acq : Bool) :
    storedAtHome s ((s.scrWrite id o b).ordered g tid m out) ag acq (.scr id o) b.length fun i => b.getD i 0 := by
  refine ⟨fun a => .inl rfl, fun tm ht => ?_⟩
  have hteam := team?_modTeam s id id (fun tm => { tm with mem := cellsSet tm.mem o b }) fun _ => rfl
  rw [ht, Option.map_some, if_pos (team?_id ht)] at hteam
  have htm : tm ∈ s.teams := List.mem_of_find?_eq_some ht
  have hthread := team?_modTeam (s.scrWrite id o b) g.team id (·.modThread tid fun th =>
    th.launch { out.later .ws none with tie := if (syncOf m).order.releases then .release else .free }) fun _ => rfl
  rw [show (s.scrWrite id o b).team? id = _ from hteam, Option.map_some] at hthread
  refine ⟨_, hthread, fun a => Eq.trans ?_ (cellGet_cellsSet (hinv.scratch tm htm) o b a)⟩
  split <;> rfl

/-- A store that may not stay in the L1 is at its home. -/
theorem storedAtHome_storeHome {s : State} (hinv : s.Inv) (ag : Agent) (l : Loc) (b : List Byte) (hn : s.paOf l % 64 + b.length ≤ 64)
    (hn0 : b.length < 64) (hup : s.answers l) (g : Group) (tid : Nat) (m : Mods) (out : Out) (acq : Bool) :
    storedAtHome s ((s.storeHome ag l b).ordered g tid m out) ag acq l b.length fun i => b.getD i 0 := by
  by_cases hl : ∀ id o, l ≠ .scr id o
  · exact storedAtHome_of_mem hl (storeHome_mem hl hinv ag b hn hn0 hup)
  · push Not at hl
    obtain ⟨id, o, rfl⟩ := hl
    exact storedAtHome_scrWrite s id o b hinv g tid m out ag acq

section
variable {s : State} {ag : Agent} {l : Loc} {y : Sync}

/-- A store that may stay in the L1. -/
theorem storeAt_l1 (h : s.cacheable ag l y.hint = true ∧ ¬ (y.order.releases = true ∧ (ag.scope y.scope).homeWide = true)) (va : Nat)
    (b : List Byte) : s.storeAt ag va l b y = s.l1Store ag.core ag.team (s.paOf l) (tagVa ag.asid va) b := by
  unfold State.storeAt
  exact if_pos ⟨h.1, by simp only [decide_eq_false h.2, Bool.not_false]⟩

/-- A store that is performed at the home. -/
theorem storeAt_home (h : ¬ (s.cacheable ag l y.hint = true ∧ ¬ (y.order.releases = true ∧ (ag.scope y.scope).homeWide = true)))
    (va : Nat) (b : List Byte) : s.storeAt ag va l b y = s.storeHome ag l b := by
  unfold State.storeAt
  exact if_neg fun k => h ⟨k.1, by simpa only [Bool.not_eq_true', decide_eq_false_iff_not] using k.2⟩

end

theorem coreByte_ordered (s : State) (g : Group) (tid : Nat) (m : Mods) (o : Out) (c va pa : Nat) :
    (s.ordered g tid m o).coreByte c va pa = s.coreByte c va pa := rfl

theorem answers_congr {s t : State} (h : Steady s t) {l : Loc} (hup : s.answers l) : t.answers l := by
  cases l with
  | scr id o => trivial
  | mem _ | vis _ _ | shd _ _ =>
    show t.homeUp (lineOf (t.paOf _)) = true
    rw [h.paOf, h.homeUp]
    exact hup

/-- Settles O23: a store keeps the threads and the map (`Steady`), and is in the dirty bytes (`coreByte_l1Store`) or at its home
(`storedAtHome_storeHome`). -/
theorem storesWriteTheirBytes : Obligations.StoresWriteTheirBytes := by
  intro s₀ g rest d base size off m hg hsize
  refine runsEach_of_eachLane rfl rfl hg fun s tid tm h ht hh => ?_
  obtain rfl := thread?_tid hh
  have hlen := srcMem_length (s.env tm) h d size
  have hsmall : ((s.env tm).srcMem h d (sizeBytes size)).length < 64 := by
    rw [hlen]
    cases size <;> decide
  dsimp only
  rw [accessAt_fst hsize]
  refine ⟨fun hal => stOne_error ht hh (memWrite_misaligned hlen _ hal),
    fun hal s1 x hp => stOne_error ht hh (memWrite_error hlen _ hal hp), fun hal s1 l p hp hline hinv hup => ?_⟩
  have hw := memWrite_ok hlen (syncOf m) hal hp
  have hthread : s.thread? g.team h.tid = some h := by unfold State.thread?; rw [ht]; exact hh
  have hsteady := steady_memWrite s (tm.agent h.tid) (effAddr ((s.env tm).rd64 h base 0) off (sizeBytes size))
    ((s.env tm).srcMem h d (sizeBytes size)) (syncOf m)
  rw [hw] at hsteady
  rw [stOne_ok ht hh hw]
  refine ⟨inOrder_ordered hsteady hthread m, ?_⟩
  generalize hs2 : (if (syncOf m).order.releases = true then s1.release (tm.agent h.tid) (syncOf m).scope
    (s1.guardOf (tm.agent h.tid) (effAddr ((s.env tm).rd64 h base 0) off (sizeBytes size))) else s1) = s2
  have hrel : Steady s1 s2 ∧ s2.Inv := by
    subst hs2
    split
    · exact ⟨steady_release s1 _ _ _, release_inv hinv _ _ _⟩
    · exact ⟨.refl s1, hinv⟩
  obtain ⟨hkeep, hinv2⟩ := hrel
  generalize (s.env tm).srcMem h d (sizeBytes size) = b at hlen hsmall ⊢
  rw [← hkeep.paOf, ← hlen] at hline
  rw [← hlen]
  split
  · next hc =>
    rw [storeAt_l1 hc]
    exact ⟨rfl, fun a v => (coreByte_ordered _ g _ m _ _ v a).trans (coreByte_l1Store s2 _ _ _ _ b hline v a)⟩
  · next hc =>
    rw [storeAt_home hc]
    exact storedAtHome_storeHome hinv2 _ l _ hline hsmall (answers_congr hkeep hup) g _ m _ _

end Sys2Proof.Machine
end

section
/-!
SUPPORT and PROOFS. A load that an epoch change makes see another byte (R123, R128, R195).
-/

namespace Sys2Proof.Machine

/-! ### Two records of one line (refutation of the loads' clause for the L1) -/

/-- A thread that issues. -/
def twinThread : Thread :=
  { tid := 0, ctl := false, v := [0, 0], c := [], p := 0, flags := 0, rm := .rne, fault := 0, faddr := 0, fpc := 0,
    handler := false, pc := 0, word := 0, stack := [], marks := [], dropped := [], arrivals := [], waitAt := none,
    exempt := false, pend := [], age := 0, yielded := false, refile := false, status := .issuing }

/-- Its team, on core 0. -/
def twinTeam : Team :=
  { id := 0, core := 0, slot := 0
    task := { kernel := 0, arg := 0, x := 0, y := 0, z := 0, flags := 0, join := 0, haul := 0, owner := 0, deadline := 0, addr := 0,
              order := 0, launch := none, landing := none, ldesc := 0, set := none, clus := 0 }
    kern := { threads := 1, vregs := 2, kregs := 0, scratch := 0, bars := 0, lands := 0, sup := false, control := 0, handler := 0 }
    vregs := 2, scratch := 0, threads := [twinThread], k := [], kold := [], bars := [], handles := [], guards := [], rings := []
    mem := [], state := .run, susp := false, record := none, recordTid := 0, posted := false, postAt := 0, faultAt := 0, verdict := 0
    since := 0, slotOff := 0, slotLen := 0, cell := none, floor := false, retired := false, stopped := false, images := [] }

/-- Its group. -/
def twinGroup : Group :=
  { ctl := false, unit := 0, pipe := 0, team := 0, handler := false, header := 0, idx := 0, words := [], slots := [0] }

/-- A core asleep since another epoch, at the end of its logical time, with two records of line 0: the first without a dirty
byte, the second with byte 0 dirty. -/
def twinCore : Core :=
  { id := 0, ctime := epochLimit
    lines := [{ pa := 0, data := [], lease := none, vas := [], dirty := [] },
      { pa := 0, data := [], lease := none, vas := [], dirty := [{ off := 0, val := 5, writers := [], carried := [], since := 0 }] }]
    consts := []
    tlb := [{ tenant := 0, asid := 0, base := 0, log := 12, frame := 0, pte := 0, xn := false, psn := false, sup := false, write := false
              dirty := false }]
    asleep := some 1 }

/-- The machine with that group, team and core. -/
def twinState : State := { State.reset with groups := [twinGroup], teams := [twinTeam], cores := [twinCore] }

/-- LD of one byte at address 0 (k31 reads zero). -/
def twinLoad : Instr := .ld 0 127 .b8 0 .none

theorem twin_inv : twinState.Inv := by
  refine .of rfl ?_ ?_
  · intro x hx
    obtain rfl := List.mem_singleton.1 hx
    exact ⟨rfl, fun y hy => by cases hy⟩
  · intro c hc x hx
    obtain rfl := List.mem_singleton.1 hc
    simp only [twinCore, List.mem_cons, List.not_mem_nil, or_false] at hx
    rcases hx with rfl | rfl
    · exact ⟨List.nodup_nil, fun _ h => by cases h⟩
    · exact ⟨List.nodup_singleton _, fun d h => by rw [List.mem_singleton.1 h]; decide⟩

/-- The page of the load. -/
def twinPin : Pin := { tenant := 0, asid := 0, base := 0, log := 12, pte := 0 }

/-- The state after the load's own translation. -/
def twinPlaced : State := (twinState.place (twinTeam.agent 0) 0 1 .read).1

theorem twin_place : twinState.place (twinTeam.agent 0) 0 1 .read = (twinPlaced, .ok (.mem 0, some twinPin)) := rfl

/-- The values that the words in flight of the thread will write. -/
def twinComing (s : State) : Option (List (List DWord)) :=
  (s.thread? 0 0).map fun h => h.pend.map fun p => p.regs.map (·.val)

/-- The load brings the dirty byte of the second record: the epoch change that makes room for its lease clears the first. -/
theorem twin_loads : ∀ t, exec twinLoad twinState = .next t → twinComing t = some [[5]] := by
  intro t ht
  cases ht
  decide +kernel

/-- Refutes O22: the statement's states may hold two records of one line in an L1, which `State.Inv` does not exclude. In
`twinState` the load of byte 0 needs an epoch change before its lease. The epoch change clears the sleeping core, its first
record of line 0 goes, and the load answers the dirty byte 5 of the second, where the statement asks for the byte 0 that was
seen before. -/
theorem not_loads : ¬ Obligations.Loads := by
  intro h
  obtain ⟨t, hexec, hrun⟩ := h.1 twinState twinGroup [] 0 127 .b8 0 .none rfl
  have hcoming : twinComing t = some [[5]] := twin_loads { t with fresh := t.fresh + 1 } hexec
  rw [show twinState.active twinGroup (Instr.ld 0 127 .b8 0 .none).mods = [0] from rfl] at hrun
  cases hrun with
  | cons hstep hrest =>
    cases hrest
    obtain ⟨_, _, hload⟩ := hstep twinTeam twinThread rfl rfl
    have hup : twinPlaced.answers (.mem 0) := show twinPlaced.homeUp 0 = true by decide +kernel
    have hflight := hload rfl twinPlaced (.mem 0) (some twinPin) twin_place (by decide) (place_inv twin_inv _ _ _ _) hup
    have hzero : twinComing t = some [[0]] := by
      unfold twinComing
      rw [show t.thread? 0 0 = _ from hflight]
      decide +kernel
    rw [hcoming] at hzero
    exact absurd hzero (by decide)

end Sys2Proof.Machine
end

section
/-!
SUPPORT and PROOFS. Rounding of m * 2^e to a format (R76, R92, R100).
-/

namespace Sys2Proof.Machine

/-! ### Rounding a quotient to an integer -/

/-- Whether a mode rounds a result of a sign away from zero when it is inexact. -/
abbrev upward (rm : Rm) (neg : Bool) : Prop := rm = .rup ∧ neg = false ∨ rm = .rdn ∧ neg = true

/-- What `k` is to the rational num / den that a mode rounds to it. -/
structure Rounds (rm : Rm) (neg : Bool) (num den k : Nat) : Prop where
  nearest : rm = .rne → 2 * (k * den) ≤ 2 * num + den ∧ 2 * num ≤ 2 * (k * den) + den ∧
    (2 * (k * den) = 2 * num + den ∨ 2 * num = 2 * (k * den) + den → k % 2 = 0)
  above : upward rm neg → num ≤ k * den ∧ k * den < num + den
  below : rm ≠ .rne → ¬ upward rm neg → k * den ≤ num ∧ num < k * den + den

/-- `roundInt` rounds by its mode, and tells whether the quotient was no integer. -/
theorem roundInt_rounds (rm : Rm) (neg : Bool) (num : Nat) {den : Nat} (hd : 0 < den) :
    Rounds rm neg num den (roundInt rm neg num den).1 ∧
      ((roundInt rm neg num den).2 = true ↔ (roundInt rm neg num den).1 * den ≠ num) := by
  have hnum : num / den * den + num % den = num := by rw [Nat.mul_comm]; exact Nat.div_add_mod num den
  have hr := Nat.mod_lt num hd
  have hsucc : (num / den + 1) * den = num / den * den + den := Nat.succ_mul _ _
  unfold roundInt
  generalize num / den = q at *
  generalize num % den = r at *
  by_cases h0 : r = 0
  · rw [if_pos h0]
    exact ⟨⟨fun _ => by dsimp only; omega, fun _ => by dsimp only; omega, fun _ _ => by dsimp only; omega⟩, by simp; omega⟩
  · rw [if_neg h0]
    cases rm with
    | rne =>
      by_cases hup : den < 2 * r ∨ 2 * r = den ∧ q % 2 = 1
      · refine ⟨⟨fun _ => ?_, ?_, ?_⟩, ?_⟩ <;> simp [upward, hup, hsucc] <;> omega
      · refine ⟨⟨fun _ => ?_, ?_, ?_⟩, ?_⟩ <;> simp [upward, hup] <;> omega
    | rtz => exact ⟨⟨by simp, by simp [upward], fun _ _ => by simp; omega⟩, by simp; omega⟩
    | rup => cases neg with
      | false => exact ⟨⟨by simp, fun _ => by simp [hsucc]; omega, by simp [upward]⟩, by simp [hsucc]; omega⟩
      | true => exact ⟨⟨by simp, by simp [upward], fun _ _ => by simp; omega⟩, by simp; omega⟩
    | rdn => cases neg with
      | true => exact ⟨⟨by simp, fun _ => by simp [hsucc]; omega, by simp [upward]⟩, by simp [hsucc]; omega⟩
      | false => exact ⟨⟨by simp, by simp [upward], fun _ _ => by simp; omega⟩, by simp; omega⟩

theorem Rounds.lt {rm : Rm} {neg : Bool} {num den k : Nat} (h : Rounds rm neg num den k) (hd : 0 < den) :
    k * den < num + den ∧ num < k * den + den := by
  by_cases hn : rm = .rne
  · have := h.nearest hn
    omega
  · by_cases hu : upward rm neg
    · have := h.above hu
      omega
    · have := h.below hn hu
      omega

/-! ### Rounding a real number -/

/-- What a multiple of the unit `u` is to the real number that a mode rounds to it (R92). -/
structure RoundsReal (rm : Rm) (neg : Bool) (x u : ℝ) (k : Nat) : Prop where
  nearest : rm = .rne → |k * u - x| ≤ u / 2 ∧ (|k * u - x| = u / 2 → k % 2 = 0)
  above : upward rm neg → x ≤ k * u ∧ k * u < x + u
  below : rm ≠ .rne → ¬ upward rm neg → k * u ≤ x ∧ x < k * u + u
  lt : k * u < x + u ∧ x < k * u + u

/-- A sum of the rounding, the number and the unit, in units of u / den. -/
theorem quotient_scaled {x u : ℝ} {num den : Nat} (hx : x * den = num * u) (a b c k : Nat) :
    (a * (k * u) + b * x + c * u) * den = (a * (k * den) + b * num + c * den : ℕ) * u := by
  push_cast
  linear_combination (b : ℝ) * hx

/-- Such sums compare as the natural numbers that they are in units of u / den. -/
theorem quotient_le {x u : ℝ} {num den : Nat} (hd : 0 < den) (hu : 0 < u) (hx : x * den = num * u) (a b c a' b' c' k : Nat) :
    a * (k * u) + b * x + c * u ≤ a' * (k * u) + b' * x + c' * u ↔
      a * (k * den) + b * num + c * den ≤ a' * (k * den) + b' * num + c' * den := by
  have hd' : (0 : ℝ) < den := by exact_mod_cast hd
  rw [← mul_le_mul_iff_left₀ hd', quotient_scaled hx, quotient_scaled hx, mul_le_mul_iff_left₀ hu, Nat.cast_le]

/-- A rounding of the quotient num / den is one of the real number x = num / den * u. -/
theorem Rounds.real {rm : Rm} {neg : Bool} {num den k : Nat} {x u : ℝ} (h : Rounds rm neg num den k) (hd : 0 < den)
    (hu : 0 < u) (hx : x * den = num * u) : RoundsReal rm neg x u k := by
  have le (a b c a' b' c' : Nat) := quotient_le hd hu hx a b c a' b' c' k
  have hlow : (k : ℝ) * u ≤ x ↔ k * den ≤ num := by simpa using le 1 0 0 0 1 0
  have hhigh : x ≤ (k : ℝ) * u ↔ num ≤ k * den := by simpa using le 0 1 0 1 0 0
  have hup : x + u ≤ (k : ℝ) * u ↔ num + den ≤ k * den := by simpa using le 0 1 1 1 0 0
  have hdown : (k : ℝ) * u + u ≤ x ↔ k * den + den ≤ num := by simpa using le 1 0 1 0 1 0
  have hlt : (k : ℝ) * u < x + u ∧ x < k * u + u := by
    rw [← not_le, ← not_le, hup, hdown, not_le, not_le]
    exact h.lt hd
  refine ⟨fun hn => ?_, fun ha => ?_, fun hn ha => ?_, hlt⟩
  · obtain ⟨h1, h2, h3⟩ := h.nearest hn
    have h1' : 2 * ((k : ℝ) * u) ≤ 2 * x + u := by simpa using (le 2 0 0 0 2 1).2 (by omega)
    have h2' : 2 * x ≤ 2 * ((k : ℝ) * u) + u := by simpa using (le 0 2 0 2 0 1).2 (by omega)
    refine ⟨abs_le.2 ⟨by linarith, by linarith⟩, fun he => h3 ?_⟩
    rcases abs_choice ((k : ℝ) * u - x) with hc | hc <;> rw [hc] at he
    · have : 2 * x + u ≤ 2 * ((k : ℝ) * u) := by linarith
      have : 2 * num + den ≤ 2 * (k * den) := by simpa using (le 0 2 1 2 0 0).1 (by simpa using this)
      omega
    · have : 2 * ((k : ℝ) * u) + u ≤ 2 * x := by linarith
      have : 2 * (k * den) + den ≤ 2 * num := by simpa using (le 2 0 1 0 2 0).1 (by simpa using this)
      omega
  · exact ⟨hhigh.2 (h.above ha).1, hlt.1⟩
  · exact ⟨hlow.2 (h.below hn ha).1, hlt.2⟩

/-- The rounding is the number itself exactly when the quotient is an integer. -/
theorem quotient_eq {x u : ℝ} {num den : Nat} (hd : 0 < den) (hu : 0 < u) (hx : x * den = num * u) (k : Nat) :
    (k : ℝ) * u = x ↔ k * den = num := by
  have hlow : (k : ℝ) * u ≤ x ↔ k * den ≤ num := by simpa using quotient_le hd hu hx 1 0 0 0 1 0 k
  have hhigh : x ≤ (k : ℝ) * u ↔ num ≤ k * den := by simpa using quotient_le hd hu hx 0 1 0 1 0 0 k
  rw [le_antisymm_iff, hlow, hhigh, ← le_antisymm_iff]

/-- m · 2^e in units of 2^q, as the quotient that `roundAt` rounds. -/
theorem scaled_quotient (m : Nat) (e q : Int) :
    (m : ℝ) * 2 ^ e * (2 ^ (q - e).toNat : ℕ) = (m * 2 ^ (e - q).toNat : ℕ) * 2 ^ q := by
  have hexp : e + (q - e).toNat = (e - q).toNat + q := by omega
  push_cast
  rw [← zpow_natCast, ← zpow_natCast, mul_assoc, mul_assoc, ← zpow_add₀ two_ne_zero, ← zpow_add₀ two_ne_zero, hexp]

/-- `roundAt` rounds m · 2^e to a multiple of 2^q, and tells whether that changed it. -/
theorem roundAt_rounds (rm : Rm) (neg : Bool) (m : Nat) (e q : Int) :
    RoundsReal rm neg (m * 2 ^ e) (2 ^ q) (roundAt rm neg m e q).1 ∧
      ((roundAt rm neg m e q).2 = true ↔ ((roundAt rm neg m e q).1 : ℝ) * 2 ^ q ≠ m * 2 ^ e) := by
  have hd : 0 < 2 ^ (q - e).toNat := Nat.two_pow_pos _
  have hu : (0 : ℝ) < 2 ^ q := zpow_pos two_pos q
  have hx := scaled_quotient m e q
  obtain ⟨hr, hi⟩ := roundInt_rounds rm neg (m * 2 ^ (e - q).toNat) hd
  exact ⟨hr.real hd hu hx, by rw [ne_eq, quotient_eq hd hu hx]; exact hi⟩

/-! ### The values of a format's codes -/

/-- The value that a code stands for as a finite magnitude, with no bound on its exponent (R213 to R215). -/
noncomputable def Fmt.value (f : Fmt) (c : Nat) : ℝ :=
  if c / 2 ^ f.man = 0 then (c % 2 ^ f.man : ℕ) * 2 ^ (f.emin - f.man)
  else (2 ^ f.man + c % 2 ^ f.man : ℕ) * 2 ^ (((c / 2 ^ f.man : ℕ) : Int) - f.bias - f.man)

theorem Fmt.value_low (f : Fmt) {c : Nat} (hc : c < 2 ^ f.man) : f.value c = c * 2 ^ (f.emin - f.man) := by
  rw [Fmt.value, if_pos (Nat.div_eq_of_lt hc), Nat.mod_eq_of_lt hc]

theorem Fmt.value_high (f : Fmt) (E r : Nat) (hr : r < 2 ^ f.man) :
    f.value ((E + 1) * 2 ^ f.man + r) = (2 ^ f.man + r : ℕ) * 2 ^ (f.emin - f.man + E) := by
  have hP : 0 < 2 ^ f.man := Nat.two_pow_pos _
  have hdiv : ((E + 1) * 2 ^ f.man + r) / 2 ^ f.man = E + 1 := by
    rw [Nat.add_comm, Nat.add_mul_div_right _ _ hP, Nat.div_eq_of_lt hr, Nat.zero_add]
  have hmod : ((E + 1) * 2 ^ f.man + r) % 2 ^ f.man = r := by
    rw [Nat.add_comm, Nat.add_mul_mod_self_right, Nat.mod_eq_of_lt hr]
  have hexp : ((E + 1 : ℕ) : Int) - f.bias - f.man = f.emin - f.man + E := by
    rw [Fmt.emin]
    push_cast
    ring
  rw [Fmt.value, hdiv, hmod, if_neg (Nat.succ_ne_zero E), hexp]

/-- A rounded significand `k` above an exponent field `E`: where `k` is short or has carried out, the code is still that of
the value (R76). -/
theorem Fmt.value_code (f : Fmt) (E k : Nat) (hk : k ≤ 2 ^ (f.man + 1)) (hE : 0 < E → 2 ^ f.man ≤ k) :
    f.value (E * 2 ^ f.man + k) = k * 2 ^ (f.emin - f.man + E) := by
  have hP : 0 < 2 ^ f.man := Nat.two_pow_pos _
  have hsucc := Nat.add_one_mul E (2 ^ f.man)
  rw [Nat.pow_succ] at hk
  rcases Nat.lt_or_ge k (2 ^ f.man) with hlow | hhigh
  · obtain rfl : E = 0 := by
      by_contra h
      exact absurd (hE (Nat.pos_of_ne_zero h)) (by omega)
    rw [Nat.zero_mul, Nat.zero_add, f.value_low hlow]
    simp
  · rcases Nat.lt_or_eq_of_le hk with hlt | rfl
    · have hc : E * 2 ^ f.man + k = (E + 1) * 2 ^ f.man + (k - 2 ^ f.man) := by omega
      rw [hc, f.value_high E _ (by omega), Nat.add_sub_cancel' hhigh]
    · have hc : E * 2 ^ f.man + 2 ^ f.man * 2 = (E + 1 + 1) * 2 ^ f.man + 0 := by ring
      have hexp : f.emin - f.man + ((E + 1 : ℕ) : Int) = f.emin - f.man + E + 1 := by push_cast; ring
      rw [hc, f.value_high (E + 1) 0 hP, hexp, zpow_add_one₀ two_ne_zero]
      push_cast
      ring

/-- A code as an exponent field and a significand with its leading bit. -/
theorem Fmt.code_split (f : Fmt) (c : Nat) :
    ∃ E k, c = E * 2 ^ f.man + k ∧ k < 2 ^ (f.man + 1) ∧ (0 < E → 2 ^ f.man ≤ k) := by
  have hP : 0 < 2 ^ f.man := Nat.two_pow_pos _
  have hmod := Nat.mod_lt c hP
  have hsum : c / 2 ^ f.man * 2 ^ f.man + c % 2 ^ f.man = c := by rw [Nat.mul_comm]; exact Nat.div_add_mod c _
  rw [Nat.pow_succ]
  cases hE : c / 2 ^ f.man with
  | zero => exact ⟨0, c, by omega, by rw [hE] at hsum; omega, by omega⟩
  | succ E =>
    have hsucc := Nat.add_one_mul E (2 ^ f.man)
    rw [hE] at hsum
    exact ⟨E, 2 ^ f.man + c % 2 ^ f.man, by omega, by omega, by omega⟩

/-- Codes stand in the order of their values. -/
theorem Fmt.value_strictMono (f : Fmt) : StrictMono f.value := by
  refine strictMono_nat_of_lt_succ fun c => ?_
  obtain ⟨E, k, rfl, hk, hE⟩ := f.code_split c
  rw [f.value_code E k hk.le hE, Nat.add_assoc, f.value_code E (k + 1) hk fun h => (hE h).trans (Nat.le_succ k)]
  have hu : (0 : ℝ) < 2 ^ (f.emin - f.man + E) := zpow_pos two_pos _
  push_cast
  linarith

theorem Fmt.value_nonneg (f : Fmt) (c : Nat) : 0 ≤ f.value c := by
  unfold Fmt.value
  split <;> positivity

/-! ### Encodings -/

/-- What the six formats have in common: an exponent field, and a fraction of two bits or more. -/
structure Fmt.Sound (f : Fmt) : Prop where
  exp : 1 ≤ f.exp
  man : 1 ≤ f.man

theorem Fmt.sound_of_mem {f : Fmt} (h : f ∈ fmtE4m3 :: fmtE5m2 :: arithFmts) : f.Sound := by
  simp only [arithFmts, List.mem_cons, List.not_mem_nil, or_false] at h
  rcases h with rfl | rfl | rfl | rfl | rfl | rfl <;> exact ⟨by decide, by decide⟩

theorem Fmt.top_add (f : Fmt) : f.top + 2 ^ f.man = f.signBit := by
  have h1 : 1 ≤ 2 ^ f.exp := Nat.one_le_two_pow
  rw [Fmt.top, Fmt.signBit, Nat.pow_add, Nat.sub_mul, Nat.one_mul, Nat.sub_add_cancel (Nat.le_mul_of_pos_left _ h1)]

theorem Fmt.largest_lt (f : Fmt) (hf : f.Sound) : f.largest < f.signBit := by
  have h2 : 2 ≤ 2 ^ f.man := Nat.le_self_pow (by have := hf.man; omega) 2
  have h := f.top_add
  unfold Fmt.largest
  split <;> omega

theorem signed_div (f : Fmt) (neg : Bool) {c : Nat} (hc : c < f.signBit) : (f.signed neg c / f.signBit % 2 == 1) = neg := by
  have hpos : 0 < f.signBit := Nat.two_pow_pos _
  rw [Fmt.signed, Nat.add_comm, Nat.add_mul_div_right _ _ hpos, Nat.div_eq_of_lt hc]
  cases neg <;> rfl

theorem signed_exp (f : Fmt) (neg : Bool) {c : Nat} (hc : c < f.signBit) :
    f.signed neg c / 2 ^ f.man % 2 ^ f.exp = c / 2 ^ f.man := by
  have hP : 0 < 2 ^ f.man := Nat.two_pow_pos _
  have hx : f.signed neg c = c + 2 ^ f.man * (neg.toNat * 2 ^ f.exp) := by
    rw [Fmt.signed, Fmt.signBit, Nat.pow_add]
    ring
  have hlt : c / 2 ^ f.man < 2 ^ f.exp := by
    rw [Nat.div_lt_iff_lt_mul hP, ← Nat.pow_add]
    exact hc
  rw [hx, Nat.add_mul_div_left _ _ hP, Nat.add_mul_mod_self_right, Nat.mod_eq_of_lt hlt]

theorem signed_frac (f : Fmt) (neg : Bool) (c : Nat) : f.signed neg c % 2 ^ f.man = c % 2 ^ f.man := by
  rw [Fmt.signed, Fmt.signBit, Nat.pow_add, ← Nat.mul_assoc, Nat.add_comm, Nat.add_mul_mod_self_right]

/-- No code up to the largest has the exponent of infinities and NaNs, or the one NaN of a format without infinities. -/
theorem Fmt.finite_code (f : Fmt) (hf : f.Sound) {c : Nat} (hc : c ≤ f.largest) :
    ¬ (f.infs = true ∧ c / 2 ^ f.man = 2 ^ f.exp - 1) ∧
      ¬ ((!f.infs) = true ∧ c / 2 ^ f.man = 2 ^ f.exp - 1 ∧ c % 2 ^ f.man = 2 ^ f.man - 1) := by
  have hP : 2 ≤ 2 ^ f.man := Nat.le_self_pow (by have := hf.man; omega) 2
  have hX : 2 ≤ 2 ^ f.exp := Nat.le_self_pow (by have := hf.exp; omega) 2
  have htop : 2 ^ f.man ≤ f.top := Nat.le_mul_of_pos_left _ (by omega)
  have hsum : c / 2 ^ f.man * 2 ^ f.man + c % 2 ^ f.man = c := by rw [Nat.mul_comm]; exact Nat.div_add_mod c _
  constructor
  · rintro ⟨hi, he⟩
    rw [he, ← Fmt.top] at hsum
    rw [Fmt.largest, if_pos hi] at hc
    omega
  · rintro ⟨hi, he, hm⟩
    rw [he, ← Fmt.top, hm] at hsum
    rw [Fmt.largest, if_neg (by simpa using hi)] at hc
    omega

/-- The number of a finite magnitude with a sign. -/
theorem fin_reads (neg : Bool) (m : Nat) (e : Int) :
    (Num.fin neg m e).isFin = true ∧ |(Num.fin neg m e).toReal| = m * 2 ^ e ∧ (Num.fin neg m e).neg = neg := by
  refine ⟨rfl, ?_, rfl⟩
  have hpos : (0 : ℝ) ≤ m * 2 ^ e := by positivity
  cases neg <;> simp [Num.toReal, abs_mul, abs_of_pos (zpow_pos (two_pos (α := ℝ)) e)]

/-- A finite code with a sign is read as its sign and its value. -/
theorem unpack_signed (f : Fmt) (hf : f.Sound) (neg : Bool) {c : Nat} (hc : c ≤ f.largest) :
    (f.unpack (f.signed neg c)).isFin = true ∧ |(f.unpack (f.signed neg c)).toReal| = f.value c ∧
      (f.unpack (f.signed neg c)).neg = neg := by
  have hlt : c < f.signBit := lt_of_le_of_lt hc (f.largest_lt hf)
  obtain ⟨hinf, hnan⟩ := f.finite_code hf hc
  unfold Fmt.unpack Fmt.value
  rw [signed_div f neg hlt, signed_exp f neg hlt, signed_frac f neg c, if_neg hinf, if_neg hnan]
  split
  · exact fin_reads neg _ _
  · exact fin_reads neg _ _

theorem Num.toReal_nonneg {x : Num} (h : x.neg = false) : 0 ≤ x.toReal := by
  cases x with
  | nan | inf => exact le_refl _
  | fin neg m e =>
    obtain rfl : neg = false := h
    simp only [Num.toReal, Bool.false_eq_true, if_false, one_mul]
    positivity

theorem unpack_largest (f : Fmt) (hf : f.Sound) : (f.unpack f.largest).toReal = f.value f.largest := by
  obtain ⟨_, habs, hneg⟩ := unpack_signed f hf false le_rfl
  have hplain : f.signed false f.largest = f.largest := by simp [Fmt.signed]
  rw [hplain] at habs hneg
  rw [← habs, abs_of_nonneg (Num.toReal_nonneg hneg)]

/-! ### Rounding to a format -/

theorem mul_two_zpow_lt (m : Nat) (e : Int) : (m : ℝ) * 2 ^ e < 2 ^ (e + Nat.log2 m + 1) := by
  have h : (m : ℝ) < 2 ^ (Nat.log2 m + 1) := by exact_mod_cast Nat.lt_log2_self
  have hexp : e + Nat.log2 m + 1 = ((Nat.log2 m + 1 : ℕ) : Int) + e := by push_cast; ring
  rw [hexp, zpow_add₀ two_ne_zero, zpow_natCast]
  exact mul_lt_mul_of_pos_right h (zpow_pos two_pos e)

theorem le_mul_two_zpow {m : Nat} (hm : m ≠ 0) (e : Int) : (2 : ℝ) ^ (e + Nat.log2 m) ≤ m * 2 ^ e := by
  have h : (2 : ℝ) ^ Nat.log2 m ≤ m := by exact_mod_cast Nat.log2_self_le hm
  rw [add_comm, zpow_add₀ two_ne_zero, zpow_natCast]
  exact mul_le_mul_of_nonneg_right h (zpow_pos two_pos e).le

theorem RoundsReal.le_of_lt {rm : Rm} {neg : Bool} {x u : ℝ} {k p : Nat} (h : RoundsReal rm neg x u k) (hu : 0 < u)
    (hx : x < p * u) : k ≤ p := by
  have hk : (k : ℝ) * u < (p + 1) * u := by linarith [h.lt.1]
  have : (k : ℝ) < p + 1 := lt_of_mul_lt_mul_right hk hu.le
  exact Nat.lt_succ_iff.1 (by exact_mod_cast this)

theorem RoundsReal.ge_of_le {rm : Rm} {neg : Bool} {x u : ℝ} {k p : Nat} (h : RoundsReal rm neg x u k) (hu : 0 < u)
    (hx : p * u ≤ x) : p ≤ k := by
  have hk : (p : ℝ) * u < (k + 1) * u := by linarith [h.lt.2]
  have : (p : ℝ) < k + 1 := lt_of_mul_lt_mul_right hk hu.le
  exact Nat.lt_succ_iff.1 (by exact_mod_cast this)

/-- The exponent of the unit in the last place of ± m · 2^e in a format (R76). -/
def Fmt.ulp (f : Fmt) (m : Nat) (e : Int) : Int := max (e + Nat.log2 m) f.emin - f.man

/-- The code of the rounded significand, before it is compared with the largest (R76). -/
def Fmt.roundCode (f : Fmt) (rm : Rm) (neg : Bool) (m : Nat) (e : Int) : Nat :=
  (f.ulp m e + f.man + f.bias - 1).toNat * 2 ^ f.man + (roundAt rm neg m e (f.ulp m e)).1

/-- The code that rounding makes stands for the multiple of the unit that the mode chose. -/
theorem value_roundCode (f : Fmt) (rm : Rm) (neg : Bool) {m : Nat} (hm : m ≠ 0) (e : Int) :
    f.value (f.roundCode rm neg m e) = (roundAt rm neg m e (f.ulp m e)).1 * 2 ^ f.ulp m e := by
  have hr := (roundAt_rounds rm neg m e (f.ulp m e)).1
  have hu : (0 : ℝ) < 2 ^ f.ulp m e := zpow_pos two_pos _
  have hpow (n : Nat) : ((2 ^ n : ℕ) : ℝ) * 2 ^ f.ulp m e = 2 ^ (n + f.ulp m e) := by
    rw [zpow_add₀ two_ne_zero, zpow_natCast]
    push_cast
    rfl
  have hbias : f.emin = 1 - f.bias := rfl
  have hulp : f.ulp m e = max (e + Nat.log2 m) f.emin - f.man := rfl
  have hmax := le_max_right (e + (Nat.log2 m : Int)) f.emin
  rw [Fmt.roundCode, f.value_code]
  · congr 2
    omega
  · refine hr.le_of_lt hu ((mul_two_zpow_lt m e).trans_le ?_)
    rw [hpow]
    exact zpow_le_zpow_right₀ one_le_two (by push_cast; omega)
  · intro hE
    refine hr.ge_of_le hu (le_trans ?_ (le_mul_two_zpow hm e))
    rw [hpow]
    exact zpow_le_zpow_right₀ one_le_two (by omega)

/-- Whether a result is below the least normal number as rounded with no bound on the exponent (log 31). -/
def Fmt.tiny (f : Fmt) (rm : Rm) (neg : Bool) (m : Nat) (e : Int) : Bool :=
  decide (e + Nat.log2 m < f.emin ∧
    ¬ (e + Nat.log2 m + 1 = f.emin ∧ (roundAt rm neg m e (e + Nat.log2 m - f.man)).1 = 2 ^ (f.man + 1)))

/-- What `round` answers: the rounded code, or the format's answer to an overflow. -/
theorem round_eq (f : Fmt) (rm : Rm) (sat neg : Bool) {m : Nat} (hm : m ≠ 0) (e : Int) :
    f.round rm sat neg m e =
      if f.roundCode rm neg m e ≤ f.largest then
        (f.signed neg (f.roundCode rm neg m e),
          flIf (roundAt rm neg m e (f.ulp m e)).2 flNX ||| flIf ((roundAt rm neg m e (f.ulp m e)).2 && f.tiny rm neg m e) flUF)
      else if !f.infs then (f.signed neg f.largest, flSAT ||| flNX)
      else if sat && (decide (rm = .rne ∨ upward rm neg) || f == fmtE5m2) then (f.signed neg f.largest, flSAT ||| flNX)
      else (f.signed neg (if rm = .rne ∨ upward rm neg then f.top else f.largest), flOF ||| flNX) := by
  unfold Fmt.round
  rw [if_neg hm]
  cases rm with
  | rne | rtz => rfl
  | rup | rdn => cases neg <;> rfl

/-- The flags of a result within range: NX when it differs, and UF only with NX. -/
theorem inRange_flags (inexact tiny : Bool) :
    ((flIf inexact flNX ||| flIf (inexact && tiny) flUF).getLsbD 0 = inexact) ∧
      ((flIf inexact flNX ||| flIf (inexact && tiny) flUF).getLsbD 1 = true → inexact = true) ∧
      (flIf inexact flNX ||| flIf (inexact && tiny) flUF).extractLsb' 2 4 = 0 := by
  cases inexact <;> cases tiny <;> decide

theorem infs_iff {f : Fmt} (h : f ∈ fmtE4m3 :: fmtE5m2 :: arithFmts) : f.infs = true ↔ f ≠ fmtE4m3 := by
  simp only [arithFmts, List.mem_cons, List.not_mem_nil, or_false] at h
  rcases h with rfl | rfl | rfl | rfl | rfl | rfl <;> decide

/-- Settles O11: the multiple of the unit is `roundAt`'s (`roundAt_rounds`), its code stands for it (`value_roundCode`), and codes
stand in the order of their values, so that the code is past the largest exactly when the value is. -/
theorem roundingFollowsItsMode : Obligations.RoundingFollowsItsMode := by
  intro f rm sat neg m e hf hm x q u r up
  have hsound := f.sound_of_mem hf
  obtain ⟨hr, hexact⟩ := roundAt_rounds rm neg m e (f.ulp m e)
  have hvalue := value_roundCode f rm neg hm e
  have hle : (roundAt rm neg m e (f.ulp m e)).1 * 2 ^ f.ulp m e ≤ (f.unpack f.largest).toReal ↔
      f.roundCode rm neg m e ≤ f.largest := by
    rw [← hvalue, unpack_largest f hsound, f.value_strictMono.le_iff_le]
  have hround := round_eq f rm sat neg hm e
  refine ⟨(roundAt rm neg m e (f.ulp m e)).1, hr.nearest, hr.above, hr.below, fun h => ?_, fun h => ?_⟩
  · have hin : r = _ := hround.trans (if_pos (hle.1 h))
    obtain ⟨hfin, habs, hneg⟩ := unpack_signed f hsound neg (hle.1 h)
    obtain ⟨hnx, huf, hrest⟩ := inRange_flags (roundAt rm neg m e (f.ulp m e)).2 (f.tiny rm neg m e)
    rw [hin]
    exact ⟨hfin, habs.trans hvalue, hneg, by rw [hnx]; exact hexact, fun h => hexact.1 (huf h), hrest⟩
  · have hout : r = _ := hround.trans (if_neg fun hc => absurd (hle.2 hc) (not_le.2 h))
    rw [hout]
    refine ⟨fun h4 => ?_, fun h4 hs => ?_, fun h4 hs hu => ?_⟩
    · subst h4
      rfl
    · rw [if_neg (by simpa using (infs_iff hf).2 h4), hs]
      rfl
    · rw [if_neg (by simpa using (infs_iff hf).2 h4), hs, decide_eq_true hu]
      rfl

end Sys2Proof.Machine
end

section
/-!
SUPPORT and PROOFS. The integer words: their results in bit vectors (R74 to R91).
-/

namespace Sys2Proof.Machine

/-! ### Elements (R74) -/

theorem ElemTy.isInt4_of_isInt3 {t : ElemTy} (h : t.isInt3 = true) : t.isInt4 = true := by
  cases t <;> simp_all [ElemTy.isInt3, ElemTy.isInt4]

/-- A type without halves has one element, its whole operand. -/
theorem onElems_plain {t : ElemTy} (ht : t.isInt3 = true) (f : (w : Nat) → (Nat → BitVec w) → BitVec w) :
    onElems t f = (f (ElemTy.width t) (BitVec.ofNat (ElemTy.width t))).toNat := by
  cases t <;> simp only [ElemTy.isInt3, Bool.false_eq_true] at ht <;> rfl

theorem lift_plain {t : ElemTy} (ht : t.isInt3 = true) (f : List Nat → Nat × BitVec 6) (xs : List Nat) : lift t f xs = f xs := by
  cases t <;> simp only [ElemTy.isInt3, Bool.false_eq_true] at ht <;> rfl

theorem ofNat_toNat_self {w : Nat} (x : BitVec w) : BitVec.ofNat w x.toNat = x := by rw [BitVec.ofNat_toNat, BitVec.setWidth_eq]

/-- On 32-bit words the elements are the words. -/
theorem elems2_i32 (F : Op2) (x y : Word) : elems2 .i32 F x.toNat y.toNat = (F 32 x y).toNat := by
  show (F 32 (BitVec.ofNat 32 x.toNat) (BitVec.ofNat 32 y.toNat)).toNat = _
  rw [ofNat_toNat_self, ofNat_toNat_self]

theorem elems2_n32 (F : Op2) (x y : Word) : elems2 .n32 F x.toNat y.toNat = (F 32 x y).toNat := elems2_i32 F x y

theorem outT_i32 (h : Thread) (d : Code) (x : Word) (fl : BitVec 6) :
    outT h .i32 d (x.toNat, fl) = { regs := h.dst32 d x true, preds := [], flags := fl } := by
  show ({ regs := h.dst32 d (BitVec.ofNat 32 x.toNat) true, preds := [], flags := fl } : Out) = _
  rw [ofNat_toNat_self]

theorem outT_n32 (h : Thread) (d : Code) (x : Word) (fl : BitVec 6) :
    outT h .n32 d (x.toNat, fl) = { regs := h.dst32 d x false, preds := [], flags := fl } := by
  show ({ regs := h.dst32 d (BitVec.ofNat 32 x.toNat) false, preds := [], flags := fl } : Out) = _
  rw [ofNat_toNat_self]

/-! ### Sums, differences and products (R82) -/

theorem lift_intOp_elems2 {t : ElemTy} {m : Mods} {f : List Int → Int} {F : Op2} {x y : Nat} (hm : modSat m = false)
    (ht : t.isInt4 = true) (hx : t = .n32 → ∀ z ∈ [x, y], z < 2 ^ 32)
    (hF : ∀ w (p q : BitVec w), BitVec.ofInt w (f [exactT t p, exactT t q]) = F w p q) :
    lift t (intOp t m f) [x, y] = (elems2 t F x y, 0) := by
  rw [lift_intOp_wraps t m f [x, y] hm ht hx]
  exact congrArg (·, 0) (onElems_congr t _ _ fun w el => hF w (el x) (el y))

theorem ofInt_add_exact (t : ElemTy) {w : Nat} (p q : BitVec w) : BitVec.ofInt w (exactT t p + exactT t q) = p + q := by
  rw [BitVec.ofInt_add, ofInt_exact, ofInt_exact]

theorem ofInt_sub_exact (t : ElemTy) {w : Nat} (p q : BitVec w) : BitVec.ofInt w (exactT t p - exactT t q) = p - q := by
  rw [ofInt_sub, ofInt_exact, ofInt_exact]

theorem ofInt_mul_exact (t : ElemTy) {w : Nat} (p q : BitVec w) : BitVec.ofInt w (exactT t p * exactT t q) = p * q := by
  rw [BitVec.ofInt_mul, ofInt_exact, ofInt_exact]

/-- A clamped result of two elements. -/
theorem lift_intOp_clamps2 {t : ElemTy} {m : Mods} {f : Int → Int → Int} {k : List Int → Int} {x y : Nat} (hm : modSat m = true)
    (ht : t.isInt4 = true) (hx : t = .n32 → ∀ z ∈ [x, y], z < 2 ^ 32) (hk : ∀ p q, k [p, q] = f p q) :
    lift t (intOp t m (two f)) [x, y] = satElems t [x, y] k := by
  rw [lift_intOp_clamps t m _ _ hm ht hx]
  refine satElems_congr t _ _ _ fun ys hy => ?_
  obtain ⟨p, q, rfl⟩ := List.length_eq_two.1 hy
  exact (hk p q).symm

/-- Settles O1: without SAT the exact result wraps to the same operation on bit vectors, with SAT it is clamped as `sat_eq` says. -/
theorem intArithmetic : Obligations.IntArithmetic := by
  refine ⟨fun s g rest d a b t m lit imm hg hm ht => ?_, fun s g rest d a b t m lit imm hg hm ht => ?_⟩
  · refine ⟨?_, ?_, ?_, ?_, ?_, ?_, fun _ => ?_⟩
    · exact runsNow_of_lane rfl rfl hg fun e h => congrArg (outT h t d)
        (lift_intOp_elems2 hm ht sources2_lt fun _ => ofInt_add_exact t)
    · exact runsNow_of_lane rfl rfl hg fun e h => congrArg (outT h t d)
        (lift_intOp_elems2 hm ht sourceLit_lt fun _ => ofInt_add_exact t)
    · refine runsNow_of_lane (i := .iaddi d a imm m) rfl rfl hg fun e h => ?_
      rw [lift_intOp_elems2 hm rfl sourceLit_lt fun _ => ofInt_add_exact .i32]
      exact (congrArg (fun v => outT h .i32 d (v, 0)) (elems2_i32 _ (e.rd32 h a 0) (imm.signExtend 32))).trans (outT_i32 h d _ 0)
    · exact runsNow_of_lane rfl rfl hg fun e h => congrArg (outT h t d)
        (lift_intOp_elems2 hm ht sources2_lt fun _ => ofInt_sub_exact t)
    · exact runsNow_of_lane rfl rfl hg fun e h => congrArg (outT h t d)
        (lift_intOp_elems2 hm ht sources2_lt fun _ => ofInt_mul_exact t)
    · exact runsNow_of_lane rfl rfl hg fun e h => congrArg (outT h t d)
        (lift_intOp_elems2 hm ht sourceLit_lt fun _ => ofInt_mul_exact t)
    · refine runsNow_of_lane rfl rfl hg fun e h => congrArg (outT h t d) ((lift_intOp_wraps t m _ _ hm ht sources3_lt).trans ?_)
      refine congrArg (·, 0) (onElems_congr t _ _ fun w el => ?_)
      exact (BitVec.ofInt_add _ _).trans (congrArg₂ (· + ·) (ofInt_mul_exact t _ _) (ofInt_exact t _))
  · refine ⟨?_, ?_, ?_, ?_, ?_, ?_, ?_, ?_⟩
    · exact runsNow_of_lane rfl rfl hg fun e h => congrArg (outT h .i32 d)
        (lift_intOp_clamps2 hm rfl sourceLit_lt fun _ _ => rfl)
    · exact runsNow_of_lane rfl rfl hg fun e h => congrArg (outT h t d)
        (lift_intOp_clamps2 hm ht sources2_lt fun _ _ => rfl)
    · exact runsNow_of_lane rfl rfl hg fun e h => congrArg (outT h t d)
        (lift_intOp_clamps2 hm ht sourceLit_lt fun _ _ => rfl)
    · exact runsNow_of_lane rfl rfl hg fun e h => congrArg (outT h t d)
        (lift_intOp_clamps2 hm ht sources2_lt fun _ _ => rfl)
    · exact runsNow_of_lane rfl rfl hg fun e h => congrArg (outT h t d)
        (lift_intOp_clamps2 hm ht sources2_lt fun _ _ => rfl)
    · exact runsNow_of_lane rfl rfl hg fun e h => congrArg (outT h t d)
        (lift_intOp_clamps2 hm ht sourceLit_lt fun _ _ => rfl)
    · refine runsNow_of_lane rfl rfl hg fun e h => congrArg (outT h t d) ((lift_intOp_clamps t m _ _ hm ht sources3_lt).trans ?_)
      refine satElems_congr t _ _ _ fun ys hy => ?_
      obtain ⟨p, q, r, rfl⟩ := List.length_eq_three.1 hy
      rfl
    · refine runsNow_of_lane rfl rfl hg fun e h => congrArg (outT h t d) ((lift_intOp_clamps t m _ _ hm ht sources1_lt).trans ?_)
      refine satElems_congr t _ _ _ fun ys hy => ?_
      obtain ⟨p, rfl⟩ := List.length_eq_one_iff.1 hy
      exact Int.natCast_natAbs p

/-! ### Least, greatest, absolute value, high product, carry (R82, R84) -/

theorem lessT_iff (t : ElemTy) {w : Nat} (x y : BitVec w) : lessT t x y = true ↔ exactT t x < exactT t y := by
  unfold lessT exactT
  split
  · rw [BitVec.ult_iff_lt, BitVec.lt_def, Int.ofNat_lt]
  · exact BitVec.slt_iff_toInt_lt

theorem ofInt_min_exact (t : ElemTy) {w : Nat} (x y : BitVec w) :
    BitVec.ofInt w (min (exactT t x) (exactT t y)) = if lessT t x y then x else y := by
  by_cases h : exactT t x < exactT t y
  · rw [if_pos ((lessT_iff t x y).2 h), min_eq_left h.le, ofInt_exact]
  · rw [if_neg (mt (lessT_iff t x y).1 h), min_eq_right (not_lt.1 h), ofInt_exact]

theorem ofInt_max_exact (t : ElemTy) {w : Nat} (x y : BitVec w) :
    BitVec.ofInt w (max (exactT t x) (exactT t y)) = if lessT t x y then y else x := by
  by_cases h : exactT t x < exactT t y
  · rw [if_pos ((lessT_iff t x y).2 h), max_eq_right h.le, ofInt_exact]
  · rw [if_neg (mt (lessT_iff t x y).1 h), max_eq_left (not_lt.1 h), ofInt_exact]

theorem ofInt_natAbs {w : Nat} (x : BitVec w) : BitVec.ofInt w x.toInt.natAbs = if x.msb then -x else x := by
  by_cases h : x.toInt < 0
  · rw [if_pos (by rw [BitVec.msb_eq_toInt]; exact decide_eq_true h), Int.natCast_natAbs, abs_of_neg h, BitVec.ofInt_neg,
      BitVec.ofInt_toInt]
  · rw [if_neg (by rw [BitVec.msb_eq_toInt]; simpa using h), Int.natCast_natAbs, abs_of_nonneg (not_lt.1 h), BitVec.ofInt_toInt]

/-- The upper half of a product that fits in 64 bits: bits 63:32 of it, whether it is read signed or not. -/
theorem ofInt_fdiv_high (z : Int) : BitVec.ofInt 32 (z.fdiv (2 ^ 32)) = (BitVec.ofInt 64 z).extractLsb' 32 32 := by
  have hf : z.fdiv (2 ^ 32) = z / 2 ^ 32 := Int.fdiv_eq_ediv_of_nonneg _ (by decide)
  rw [hf]
  apply BitVec.eq_of_toNat_eq
  rw [BitVec.extractLsb'_toNat, BitVec.toNat_ofInt, BitVec.toNat_ofInt, Nat.shiftRight_eq_div_pow]
  omega

theorem signExtend_mul (x y : Word) : x.signExtend 64 * y.signExtend 64 = BitVec.ofInt 64 (x.toInt * y.toInt) := by
  rw [BitVec.ofInt_mul]; rfl

theorem setWidth_mul (x y : Word) : x.setWidth 64 * y.setWidth 64 = BitVec.ofInt 64 ((x.toNat : Int) * y.toNat) := by
  rw [BitVec.ofInt_mul, BitVec.ofInt_natCast, BitVec.ofInt_natCast, BitVec.ofNat_toNat, BitVec.ofNat_toNat]

theorem lift_imulh_i32 {m : Mods} (hm : modSat m = false) (x y : Word) :
    lift .i32 (intOp .i32 m (two fun p q => (p * q).fdiv (2 ^ 32))) [x.toNat, y.toNat] =
      (((x.signExtend 64 * y.signExtend 64).extractLsb' 32 32).toNat, 0) := by
  rw [lift_intOp_elems2 (F := fun w p q => BitVec.ofInt w ((p.toInt * q.toInt).fdiv (2 ^ 32))) hm rfl (by simp) fun _ _ _ => rfl,
    elems2_i32, ofInt_fdiv_high, signExtend_mul]

theorem lift_imulh_n32 {m : Mods} (hm : modSat m = false) (x y : Word) :
    lift .n32 (intOp .n32 m (two fun p q => (p * q).fdiv (2 ^ 32))) [x.toNat, y.toNat] =
      (((x.setWidth 64 * y.setWidth 64).extractLsb' 32 32).toNat, 0) := by
  rw [lift_intOp_elems2 (F := fun w p q => BitVec.ofInt w (((p.toNat : Int) * q.toNat).fdiv (2 ^ 32))) hm rfl
    (by simp [x.isLt, y.isLt]) fun _ _ _ => rfl, elems2_n32, ofInt_fdiv_high, setWidth_mul]

/-- A sum of two words with carry, in 33 bits. -/
theorem sum_carry (x y : Word) (c : Bool) :
    (x.setWidth 33 + y.setWidth 33 + BitVec.ofNat 33 c.toNat).toNat = x.toNat + y.toNat + c.toNat := by
  have hx := x.isLt
  have hy := y.isLt
  have hc := c.toNat_le
  simp only [BitVec.toNat_add, BitVec.toNat_setWidth, BitVec.toNat_ofNat]
  omega

theorem sum_carry_bit (x y : Word) (c : Bool) :
    (x.setWidth 33 + y.setWidth 33 + BitVec.ofNat 33 c.toNat).getLsbD 32 = decide (2 ^ 32 ≤ x.toNat + y.toNat + c.toNat) := by
  have hx := x.isLt
  have hy := y.isLt
  have hc := c.toNat_le
  rw [BitVec.getLsbD, sum_carry, Nat.testBit_eq_decide_div_mod_eq, decide_eq_decide]
  omega

/-! ### Division (R83) -/

theorem ofInt_tdiv_exact (t : ElemTy) {w : Nat} (x y : BitVec w) :
    BitVec.ofInt w ((exactT t x).tdiv (exactT t y)) = if t = .n32 then x.udiv y else x.sdiv y := by
  unfold exactT
  split
  · rw [← Int.ofNat_tdiv, BitVec.ofInt_natCast]
    exact BitVec.udiv_def.symm
  · exact BitVec.eq_of_toInt_eq (by rw [BitVec.toInt_ofInt, BitVec.toInt_sdiv])

theorem ofInt_tmod_exact (t : ElemTy) {w : Nat} (x y : BitVec w) :
    BitVec.ofInt w ((exactT t x).tmod (exactT t y)) = if t = .n32 then x.umod y else x.srem y := by
  unfold exactT
  split
  · rw [← Int.ofNat_tmod, BitVec.ofInt_natCast]
    exact BitVec.umod_def.symm
  · rw [← BitVec.toInt_srem, BitVec.ofInt_toInt]

/-- The all-ones pattern of an integer type without halves. -/
theorem elems1_allOnes {t : ElemTy} (ht : t.isInt3 = true) : elems1 t (fun w _ => BitVec.allOnes w) 0 = 2 ^ ElemTy.width t - 1 := by
  rw [elems1, onElems_plain ht, BitVec.toNat_allOnes]

theorem divOp_zero (t : ElemTy) (m : Mods) (rem : Bool) (x : Nat) :
    divOp t m rem [x, 0] = (if rem then x else 2 ^ ElemTy.width t - 1, 8#6) := rfl

theorem divOp_nonzero {t : ElemTy} {m : Mods} {rem : Bool} {x y : Nat} (hy : y ≠ 0) :
    divOp t m rem [x, y] = intOp t m (two fun p q => if rem then p.tmod q else p.tdiv q) [x, y] := if_neg hy

/-- A division in a thread: by zero, or with the result that `hv` gives of its elements. -/
theorem outT_divOp {h : Thread} {t : ElemTy} {d : Code} {m : Mods} {rem : Bool} {x y z : Nat} {v : Nat × BitVec 6}
    (ht : t.isInt3 = true) (hz : z = if rem then x else 2 ^ ElemTy.width t - 1)
    (hv : lift t (intOp t m (two fun p q => if rem then p.tmod q else p.tdiv q)) [x, y] = v) :
    outT h t d (lift t (divOp t m rem) [x, y]) = if y = 0 then outT h t d (z, 8#6) else outT h t d v := by
  rw [lift_plain ht] at hv ⊢
  by_cases hy : y = 0
  · rw [if_pos hy, hy, divOp_zero, hz]
  · rw [if_neg hy, divOp_nonzero hy, hv]

/-- Settles O2: each operation on exact values is the one on bit vectors (`ofInt_min_exact` to `ofInt_tmod_exact`), and a zero
divisor is answered before it. -/
theorem minMaxAbsHighCarryDivision : Obligations.MinMaxAbsHighCarryDivision := by
  refine ⟨fun s g rest d a b t p m hg hm ht => ⟨?_, ?_, fun hn => ?_, ?_, ?_, ?_⟩,
    fun s g rest d a b t m hg ht => ⟨fun hm => ⟨?_, ?_⟩, fun hm => ?_⟩⟩
  · exact runsNow_of_lane rfl rfl hg fun e h => congrArg (outT h t d)
      (lift_intOp_elems2 hm ht sources2_lt fun _ => ofInt_min_exact t)
  · exact runsNow_of_lane rfl rfl hg fun e h => congrArg (outT h t d)
      (lift_intOp_elems2 hm ht sources2_lt fun _ => ofInt_max_exact t)
  · refine runsNow_of_lane rfl rfl hg fun e h => congrArg (outT h t d) ((lift_intOp_wraps t m _ _ hm ht sources1_lt).trans ?_)
    refine congrArg (·, 0) (onElems_congr t _ _ fun w el => ?_)
    show BitVec.ofInt w (exactT t (el (e.rdT h t a 0))).natAbs = _
    rw [exactT, if_neg hn]
    exact ofInt_natAbs _
  · exact runsNow_of_lane rfl rfl hg fun e h =>
      (congrArg (outT h .i32 d) (lift_imulh_i32 hm (e.rd32 h a 0) (e.rd32 h b 2))).trans (outT_i32 h d _ 0)
  · exact runsNow_of_lane rfl rfl hg fun e h =>
      (congrArg (outT h .n32 d) (lift_imulh_n32 hm (e.rd32 h a 0) (e.rd32 h b 2))).trans (outT_n32 h d _ 0)
  · refine runsNow_of_lane rfl rfl hg fun e h => ?_
    dsimp only
    rw [sum_carry_bit, ← BitVec.ofNat_toNat, sum_carry]
  · exact runsLater_of_lane rfl rfl hg fun e h => outT_divOp ht (elems1_allOnes ht)
      (lift_intOp_elems2 hm (ElemTy.isInt4_of_isInt3 ht) sources2_lt fun _ => ofInt_tdiv_exact t)
  · exact runsLater_of_lane rfl rfl hg fun e h => outT_divOp ht rfl
      (lift_intOp_elems2 hm (ElemTy.isInt4_of_isInt3 ht) sources2_lt fun _ => ofInt_tmod_exact t)
  · exact runsLater_of_lane rfl rfl hg fun e h => outT_divOp ht (elems1_allOnes ht)
      (lift_intOp_clamps2 hm (ElemTy.isInt4_of_isInt3 ht) sources2_lt fun _ _ => rfl)

end Sys2Proof.Machine
end

section
/-!
SUPPORT and PROOFS. Bitwise words, shifts, bit counts, fields, comparisons and moves in bit vectors (R81, R85 to R91).
-/

namespace Sys2Proof.Machine

/-! ### Operations on the bits of elements (R74, R86, R87) -/

theorem map_toNat_ofNat {w : Nat} {xs : List Nat} (hx : ∀ x ∈ xs, x < 2 ^ w) :
    (xs.map (BitVec.ofNat w)).map (·.toNat) = xs := by
  rw [List.map_map]
  exact (List.map_congr_left fun x h => by simp [Nat.mod_eq_of_lt (hx x h)]).trans (List.map_id xs)

/-- An operation on elements as numbers is one on bit vectors of the width of an element. -/
theorem lift_elems {t : ElemTy} {f : List Nat → Nat × BitVec 6} {F : (w : Nat) → List (BitVec w) → BitVec w} {xs : List Nat}
    (ht : t.isInt4 = true) (hx : ∀ x ∈ xs, x < 2 ^ (if t.isPair then 64 else 32))
    (hf : ∀ bs : List (BitVec (ElemTy.width t)), bs.length = xs.length → f (bs.map (·.toNat)) = ((F _ bs).toNat, 0)) :
    lift t f xs = (onElems t fun w el => F w (xs.map el), 0) := by
  have plain (hx : ∀ x ∈ xs, x < 2 ^ ElemTy.width t) : f xs = ((F _ (xs.map (BitVec.ofNat (ElemTy.width t)))).toNat, 0) := by
    rw [← hf _ (List.length_map _), map_toNat_ofNat hx]
  cases t with
  | i32 => exact plain hx
  | n32 => exact plain hx
  | i64 => exact plain hx
  | f32 => cases ht
  | f64 => cases ht
  | f16x2 => cases ht
  | bf16x2 => cases ht
  | i16x2 =>
    have low : xs.map (· % 65536) = (xs.map (BitVec.ofNat 16)).map (·.toNat) := by
      rw [List.map_map]
      exact List.map_congr_left fun x _ => (BitVec.toNat_ofNat x 16).symm
    have high : xs.map (· / 65536) = (xs.map fun x => BitVec.ofNat 16 (x / 65536)).map (·.toNat) := by
      rw [List.map_map]
      refine List.map_congr_left fun x h => ?_
      have hlt : x < 2 ^ 32 := hx x h
      exact (Nat.mod_eq_of_lt (show x / 65536 < 2 ^ 16 by omega)).symm
    have hlow : f (xs.map (· % 65536)) = ((F 16 (xs.map (BitVec.ofNat 16))).toNat, 0) :=
      (congrArg f low).trans (hf _ (List.length_map _))
    have hhigh : f (xs.map (· / 65536)) = ((F 16 (xs.map fun x => BitVec.ofNat 16 (x / 65536))).toNat, 0) :=
      (congrArg f high).trans (hf _ (List.length_map _))
    have b (x : BitVec 16) : x.toNat % 65536 = x.toNat := Nat.mod_eq_of_lt x.isLt
    show ((f _).1 % 65536 + (f _).1 % 65536 * 65536, (f _).2 ||| (f _).2) = _
    rw [hlow, hhigh]
    dsimp only
    rw [b (F 16 _), b (F 16 _), Nat.add_comm]
    rfl

theorem lift_elems2 {t : ElemTy} {f : Nat → Nat → Nat} {F : Op2} {x y : Nat} (ht : t.isInt4 = true)
    (hx : x < 2 ^ (if t.isPair then 64 else 32)) (hy : y < 2 ^ (if t.isPair then 64 else 32))
    (hf : ∀ p q : BitVec (ElemTy.width t), f p.toNat q.toNat = (F _ p q).toNat) :
    lift t (bitOp f) [x, y] = (elems2 t F x y, 0) := by
  refine lift_elems (F := fun w bs => F w (bs.getD 0 0) (bs.getD 1 0)) ht (List.forall_mem_cons.2 ⟨hx, List.forall_mem_singleton.2 hy⟩) fun bs hb => ?_
  obtain ⟨p, q, rfl⟩ := List.length_eq_two.1 hb
  exact congrArg (·, 0) (hf p q)

theorem lift_elems1 {t : ElemTy} {f : Nat → Nat} {F : (w : Nat) → BitVec w → BitVec w} {x : Nat} (ht : t.isInt4 = true)
    (hx : x < 2 ^ (if t.isPair then 64 else 32)) (hf : ∀ p : BitVec (ElemTy.width t), f p.toNat = (F _ p).toNat) :
    lift t (fun xs => (f (xs.headD 0), 0)) [x] = (elems1 t F x, 0) := by
  refine lift_elems (F := fun w bs => F w (bs.getD 0 0)) ht (List.forall_mem_singleton.2 hx) fun bs hb => ?_
  obtain ⟨p, rfl⟩ := List.length_eq_one_iff.1 hb
  exact congrArg (·, 0) (hf p)

theorem litVal_lt_pair {t : ElemTy} (ht : t.isInt4 = true) (l : Word) : litVal t l < 2 ^ (if t.isPair then 64 else 32) := by
  cases t with
  | i64 => exact (l.signExtend 64).isLt
  | i32 | n32 | i16x2 => exact l.isLt
  | f32 | f64 | f16x2 | bf16x2 => cases ht

/-! ### Bitwise words and shifts -/

theorem and_toNat {w : Nat} (p q : BitVec w) : p.toNat &&& q.toNat = (p &&& q).toNat := (BitVec.toNat_and p q).symm

theorem or_toNat {w : Nat} (p q : BitVec w) : p.toNat ||| q.toNat = (p ||| q).toNat := (BitVec.toNat_or p q).symm

theorem xor_toNat {w : Nat} (p q : BitVec w) : p.toNat ^^^ q.toNat = (p ^^^ q).toNat := (BitVec.toNat_xor p q).symm

theorem andn_toNat {w : Nat} (p q : BitVec w) : p.toNat &&& (q.toNat ^^^ (2 ^ w - 1)) = (p &&& ~~~q).toNat := by
  rw [← BitVec.toNat_allOnes, ← BitVec.toNat_xor, BitVec.xor_allOnes, BitVec.toNat_and]

theorem shlOp_toNat {w : Nat} (p q : BitVec w) : shlOp w p.toNat q.toNat = (p <<< (q.toNat % w)).toNat := by
  rw [BitVec.toNat_shiftLeft, Nat.shiftLeft_eq]
  rfl

theorem shrOp_toNat {w : Nat} (p q : BitVec w) : shrOp w p.toNat q.toNat = (p >>> (q.toNat % w)).toNat := by
  rw [BitVec.toNat_ushiftRight, Nat.shiftRight_eq_div_pow]
  rfl

theorem sarOp_toNat {w : Nat} (hw : 0 < w) (p q : BitVec w) : sarOp w p.toNat q.toNat = (p.sshiftRight (q.toNat % w)).toNat := by
  have hdiv (z : Int) (n : Nat) : z.fdiv (2 ^ n : Nat) = z >>> n := by
    rw [Int.fdiv_eq_ediv_of_nonneg _ (Int.natCast_nonneg _), Int.shiftRight_eq_div_pow]
  rw [sarOp, wrap_eq, sext_eq _ _ hw, ofNat_toNat_self, hdiv, ← BitVec.toInt_sshiftRight, BitVec.ofInt_toInt]

theorem rotlOp_toNat {w : Nat} (hw : 0 < w) (p q : BitVec w) :
    rotlOp w p.toNat q.toNat = (p.rotateLeft (q.toNat % w)).toNat := by
  have hk : q.toNat % w < w := Nat.mod_lt _ hw
  rw [BitVec.toNat_rotateLeft, rotlOp, Nat.mod_mod]
  generalize q.toNat % w = k at hk
  have hsplit : 2 ^ w = 2 ^ (w - k) * 2 ^ k := by rw [← Nat.pow_add, Nat.sub_add_cancel hk.le]
  have hlow : p.toNat / 2 ^ (w - k) < 2 ^ k := by
    rw [Nat.div_lt_iff_lt_mul (Nat.two_pow_pos _), Nat.mul_comm, ← hsplit]
    exact p.isLt
  rw [Nat.shiftLeft_eq, Nat.shiftRight_eq_div_pow, hsplit, Nat.mul_mod_mul_right, ← Nat.shiftLeft_eq,
    Nat.shiftLeft_add_eq_or_of_lt hlow]

theorem ElemTy.width_pos (t : ElemTy) : 0 < ElemTy.width t := by cases t <;> decide

/-- An immediate shift is the shift by a register whose count is below the width. -/
theorem lift_shiftImm {t : ElemTy} (ht : t.isInt4 = true) {c x : Nat} (hc : c < ElemTy.width t) {f : Nat → Nat → Nat → Nat}
    {F : (n : Nat) → BitVec n → Nat → BitVec n}
    (hf : ∀ n, 0 < n → ∀ p q : BitVec n, f n p.toNat q.toNat = (F n p (q.toNat % n)).toNat)
    (hx : x < 2 ^ (if t.isPair then 64 else 32)) :
    lift t (fun xs => (f (ElemTy.width t) (xs.headD 0) c, 0)) [x] = (elems1 t (fun n p => F n p c) x, 0) := by
  refine lift_elems1 (f := fun y => f (ElemTy.width t) y c) (F := fun n p => F n p c) ht hx fun p => ?_
  have h := hf _ (ElemTy.width_pos t) p (BitVec.ofNat _ c)
  rwa [BitVec.toNat_ofNat, Nat.mod_eq_of_lt (hc.trans Nat.lt_two_pow_self), Nat.mod_eq_of_lt hc] at h

/-- Settles O3. -/
theorem bitwiseWordsAndShifts : Obligations.BitwiseWordsAndShifts := by
  refine ⟨fun s g rest d a b t m lit hg ht => ?_, fun s g rest d a b t w cnt m hg ht hc => ?_⟩
  · have ht4 := ElemTy.isInt4_of_isInt3 ht
    have two {f : Nat → Nat → Nat} {F : Op2} (hf : ∀ p q : BitVec (ElemTy.width t), f p.toNat q.toNat = (F _ p q).toNat)
        (e : Env) (h : Thread) :=
      congrArg (outT h t d) (lift_elems2 ht4 (e.rdT_lt h t a 0) (e.rdT_lt h t b 2) hf)
    have dl {f : Nat → Nat → Nat} {F : Op2} (hf : ∀ p q : BitVec (ElemTy.width t), f p.toNat q.toNat = (F _ p q).toNat)
        (e : Env) (h : Thread) :=
      congrArg (outT h t d) (lift_elems2 ht4 (e.rdT_lt h t a 0) (litVal_lt_pair ht4 lit) hf)
    exact ⟨runsNow_of_lane rfl rfl hg (two and_toNat), runsNow_of_lane rfl rfl hg (dl and_toNat),
      runsNow_of_lane rfl rfl hg (two or_toNat), runsNow_of_lane rfl rfl hg (dl or_toNat),
      runsNow_of_lane rfl rfl hg (two xor_toNat), runsNow_of_lane rfl rfl hg (dl xor_toNat),
      runsNow_of_lane rfl rfl hg (two andn_toNat)⟩
  · have hw := ElemTy.width_pos t
    have two {f : Nat → Nat → Nat} {F : Op2} (hf : ∀ p q : BitVec (ElemTy.width t), f p.toNat q.toNat = (F _ p q).toNat)
        (e : Env) (h : Thread) :=
      congrArg (outT h t d) (lift_elems2 ht (e.rdT_lt h t a 0) (e.rdT_lt h t b 2) hf)
    have hi : (if w then ElemTy.i64 else .i32).isInt4 = true := by cases w <;> rfl
    have hcnt : cnt.toNat < ElemTy.width (if w then ElemTy.i64 else .i32) := by
      cases w with
      | true => exact cnt.isLt
      | false => exact hc.resolve_left (by simp)
    have imm {f : Nat → Nat → Nat → Nat} {F : (n : Nat) → BitVec n → Nat → BitVec n}
        (hf : ∀ n, 0 < n → ∀ p q : BitVec n, f n p.toNat q.toNat = (F n p (q.toNat % n)).toNat) (e : Env) (h : Thread) :=
      congrArg (outT h (if w then .i64 else .i32) d)
        (lift_shiftImm hi hcnt hf (e.rdT_lt h (if w then .i64 else .i32) a 0))
    exact ⟨runsNow_of_lane rfl rfl hg (two shlOp_toNat), runsNow_of_lane rfl rfl hg (two shrOp_toNat),
      runsNow_of_lane rfl rfl hg (two (sarOp_toNat hw)), runsNow_of_lane rfl rfl hg (two (rotlOp_toNat hw)),
      runsNow_of_lane rfl rfl hg (imm fun _ _ => shlOp_toNat), runsNow_of_lane rfl rfl hg (imm fun _ _ => shrOp_toNat),
      runsNow_of_lane rfl rfl hg (imm fun _ => sarOp_toNat)⟩

/-! ### Counting and reversing bits (R88) -/

theorem bitsOf_toNat {w : Nat} (n : Nat) (x : BitVec w) : bitsOf n x.toNat = (List.range n).map x.getLsbD := rfl

theorem count_bitsOf {w : Nat} (x : BitVec w) (n : Nat) : (bitsOf n x.toNat).count true = x.cpopNatRec n 0 := by
  induction n with
  | zero => rfl
  | succ n ih =>
    rw [bitsOf_toNat] at ih ⊢
    rw [List.range_succ, List.map_append, List.count_append, ih, BitVec.cpopNatRec_succ, BitVec.cpopNatRec_eq (0 + _), Nat.zero_add]
    cases h : x.getLsbD n <;> simp [h]

/-- The zeros above the highest one of the bits up to `n` are counted as `clzAuxRec` does. -/
theorem clzAuxRec_eq_takeWhile {w : Nat} (x : BitVec w) (n : Nat) (hn : n < w) :
    (x.clzAuxRec n).toNat = w - 1 - n + ((bitsOf (n + 1) x.toNat).reverse.takeWhile (!·)).length := by
  have small (k : Nat) (hk : k ≤ w) : (BitVec.ofNat w k).toNat = k := by
    rw [BitVec.toNat_ofNat, Nat.mod_eq_of_lt (hk.trans_lt Nat.lt_two_pow_self)]
  induction n with
  | zero =>
    rw [BitVec.clzAuxRec_zero, bitsOf_toNat]
    cases h : x.getLsbD 0 <;> simp [h, small] 
    omega
  | succ n ih =>
    rw [BitVec.clzAuxRec_succ, bitsOf_toNat, List.range_succ, List.map_append, List.reverse_append]
    have ih := ih (by omega)
    rw [bitsOf_toNat] at ih
    cases h : x.getLsbD (n + 1)
    · simp [h, ih]
      omega
    · simp [h, Nat.mod_eq_of_lt ((show w - 1 - (n + 1) < w by omega).trans Nat.lt_two_pow_self)]

theorem clz_toNat {w : Nat} (hw : 0 < w) (x : BitVec w) : ((bitsOf w x.toNat).reverse.takeWhile (!·)).length = x.clz.toNat := by
  rw [BitVec.clz, clzAuxRec_eq_takeWhile x (w - 1) (by omega), Nat.sub_add_cancel hw, Nat.sub_self, Nat.zero_add]

theorem bitsOf_reverse {w : Nat} (x : BitVec w) : bitsOf w x.reverse.toNat = (bitsOf w x.toNat).reverse := by
  rw [bitsOf_toNat, bitsOf_toNat]
  refine List.ext_getElem (by simp) fun i h1 h2 => ?_
  have hi : i < w := by simpa using h1
  simp only [List.getElem_map, List.getElem_range, List.getElem_reverse, List.length_map, List.length_range,
    BitVec.getLsbD_reverse, BitVec.getMsbD, hi, decide_true, Bool.true_and]

theorem ofBits_bitsOf (w x : Nat) (hx : x < 2 ^ w) : ofBits (bitsOf w x) = x := by
  induction w generalizing x with
  | zero => simp only [Nat.pow_zero, Nat.lt_one_iff] at hx; subst hx; rfl
  | succ w ih =>
    have hbits : bitsOf (w + 1) x = x.testBit 0 :: bitsOf w (x / 2) := by
      unfold bitsOf
      rw [List.range_succ_eq_map, List.map_cons, List.map_map]
      congr 1
      exact List.map_congr_left fun i _ => by simp [Nat.testBit_succ]
    rw [hbits, ofBits, ih _ (by omega), Nat.testBit_zero]
    by_cases h : x % 2 = 1 <;> simp [h] <;> omega

theorem reverse_toNat {w : Nat} (x : BitVec w) : ofBits (bitsOf w x.toNat).reverse = x.reverse.toNat := by
  rw [← bitsOf_reverse, ofBits_bitsOf _ _ x.reverse.isLt]

theorem ctz_toNat {w : Nat} (hw : 0 < w) (x : BitVec w) : ((bitsOf w x.toNat).takeWhile (!·)).length = x.ctz.toNat := by
  rw [BitVec.ctz, ← clz_toNat hw, bitsOf_reverse, List.reverse_reverse]

/-! ### Bit fields (R89) -/

theorem fieldOf_eq (y : Word) : fieldOf y.toNat = (fieldPos y, fieldLen y) := by
  simp [fieldOf, fieldPos, fieldLen, BitVec.extractLsb'_toNat, Nat.shiftRight_eq_div_pow]

theorem fieldMask_toNat (y : Word) : (fieldMask y).toNat = 2 ^ fieldLen y - 1 := by
  have hlen : fieldLen y ≤ 32 := (Nat.min_le_right _ _).trans (Nat.sub_le _ _)
  have := Nat.pow_le_pow_right (n := 2) two_pos hlen
  rw [fieldMask, BitVec.toNat_ofNat, Nat.mod_eq_of_lt]
  omega

theorem field_toNat (x y : Word) : ((x >>> fieldPos y) &&& fieldMask y).toNat = x.toNat / 2 ^ fieldPos y % 2 ^ fieldLen y := by
  rw [BitVec.toNat_and, fieldMask_toNat, Nat.and_two_pow_sub_one_eq_mod, BitVec.toNat_ushiftRight, Nat.shiftRight_eq_div_pow]

theorem fieldLen_le (y : Word) : fieldLen y ≤ 32 - fieldPos y := Nat.min_le_right _ _

/-- Sign extension of the low bits of a word, by a shift to the top and back. -/
theorem sext_shift (f : Word) {len : Nat} (h0 : 0 < len) (hl : len ≤ 32) (hf : f.toNat < 2 ^ len) :
    BitVec.ofInt 32 (sext len f.toNat) = (f <<< (32 - len)).sshiftRight (32 - len) := by
  have htop : (f <<< (32 - len)).toInt = sext len f.toNat * (2 ^ (32 - len) : Nat) := by
    have h32 : 2 ^ 32 = 2 ^ len * 2 ^ (32 - len) := by rw [← Nat.pow_add, Nat.add_sub_cancel' hl]
    have hhalf : 2 ^ len = 2 * 2 ^ (len - 1) := by rw [Nat.mul_comm, Nat.two_pow_pred_mul_two h0]
    have hpos : 0 < 2 ^ (32 - len) := Nat.two_pow_pos _
    rw [BitVec.toInt_eq_toNat_cond, BitVec.toNat_shiftLeft, Nat.shiftLeft_eq, h32, Nat.mod_eq_of_lt (Nat.mul_lt_mul_of_pos_right hf hpos),
      ← Nat.mul_assoc, sext, Nat.mod_eq_of_lt hf]
    by_cases h : f.toNat < 2 ^ (len - 1)
    · rw [if_pos h, if_pos (Nat.mul_lt_mul_of_pos_right (by omega) hpos)]
      push_cast
      rfl
    · rw [if_neg h, if_neg (not_lt.2 (Nat.mul_le_mul_right _ (by omega)))]
      push_cast
      ring
  have hback : (sext len f.toNat * (2 ^ (32 - len) : Nat)) >>> (32 - len) = sext len f.toNat := by
    rw [Int.shiftRight_eq_div_pow, Int.mul_ediv_cancel _ (by positivity)]
  rw [← hback, ← htop, ← BitVec.toInt_sshiftRight, BitVec.ofInt_toInt]

/-- BFX on 32 bits, unsigned. -/
theorem bfx_n32 (x y : Word) :
    (if fieldLen y = 0 then 0 else x.toNat / 2 ^ fieldPos y % 2 ^ fieldLen y) = ((x >>> fieldPos y) &&& fieldMask y).toNat := by
  rw [field_toNat]
  split
  · next h => rw [h, Nat.pow_zero, Nat.mod_one]
  · rfl

/-- BFX on 32 bits, signed. -/
theorem bfx_i32 (x y : Word) :
    (if fieldLen y = 0 then 0 else wrap 32 (sext (fieldLen y) (x.toNat / 2 ^ fieldPos y % 2 ^ fieldLen y))) =
      ((((x >>> fieldPos y) &&& fieldMask y) <<< (32 - fieldLen y)).sshiftRight (32 - fieldLen y)).toNat := by
  have hf := field_toNat x y
  generalize (x >>> fieldPos y) &&& fieldMask y = f at hf
  rw [← hf]
  split
  · next h =>
    have h0 : f = 0 := BitVec.eq_of_toNat_eq (by rw [hf, h, Nat.pow_zero, Nat.mod_one]; rfl)
    rw [h0, h]
    decide
  · next h =>
    have hlen := (fieldLen_le y).trans (Nat.sub_le _ _)
    rw [wrap_eq, sext_shift f (Nat.pos_of_ne_zero h) hlen (hf ▸ Nat.mod_lt _ (Nat.two_pow_pos _))]

/-- The bits of a number in which the field of `len` bits at `pos` has been replaced by the low bits of another. -/
theorem testBit_insert (x z pos len i : Nat) :
    (z - z / 2 ^ pos % 2 ^ len * 2 ^ pos + x % 2 ^ len * 2 ^ pos).testBit i =
      if pos ≤ i ∧ i < pos + len then x.testBit (i - pos) else z.testBit i := by
  have hz : z = 2 ^ pos * (2 ^ len * (z / 2 ^ pos / 2 ^ len) + z / 2 ^ pos % 2 ^ len) + z % 2 ^ pos := by
    rw [Nat.div_add_mod, Nat.div_add_mod]
  have hnew : z - z / 2 ^ pos % 2 ^ len * 2 ^ pos + x % 2 ^ len * 2 ^ pos =
      2 ^ pos * (2 ^ len * (z / 2 ^ pos / 2 ^ len) + x % 2 ^ len) + z % 2 ^ pos := by
    have hsub : z - z / 2 ^ pos % 2 ^ len * 2 ^ pos = 2 ^ pos * (2 ^ len * (z / 2 ^ pos / 2 ^ len)) + z % 2 ^ pos := by
      conv_lhs => lhs; rw [hz]
      refine Nat.sub_eq_of_eq_add ?_
      ring
    rw [hsub]
    ring
  rw [hnew, Nat.testBit_two_pow_mul_add _ (Nat.mod_lt _ (Nat.two_pow_pos _)),
    Nat.testBit_two_pow_mul_add _ (Nat.mod_lt _ (Nat.two_pow_pos _)), Nat.testBit_mod_two_pow, Nat.testBit_mod_two_pow,
    Nat.testBit_div_two_pow, Nat.testBit_div_two_pow]
  by_cases hlow : i < pos
  · rw [if_pos hlow, if_neg (by omega), decide_eq_true hlow, Bool.true_and]
  · rw [if_neg hlow]
    by_cases hin : i - pos < len
    · rw [if_pos hin, if_pos (by omega), decide_eq_true hin, Bool.true_and]
    · rw [if_neg hin, if_neg (by omega)]
      congr 1
      omega

/-- The bits that a field covers. -/
theorem getLsbD_fieldMask (y : Word) (i : Nat) :
    (fieldMask y <<< fieldPos y).getLsbD i = decide (fieldPos y ≤ i ∧ i < fieldPos y + fieldLen y) := by
  have hlen := fieldLen_le y
  rw [BitVec.getLsbD_shiftLeft, BitVec.getLsbD, fieldMask_toNat, Nat.testBit_two_pow_sub_one, Bool.eq_iff_iff]
  simp only [Bool.and_eq_true, Bool.not_eq_true', decide_eq_true_eq, decide_eq_false_iff_not]
  omega

/-- BFI: a field put into a word. -/
theorem bfi_i32 (x z y : Word) :
    (if fieldLen y = 0 then z.toNat else
      z.toNat - z.toNat / 2 ^ fieldPos y % 2 ^ fieldLen y * 2 ^ fieldPos y + x.toNat % 2 ^ fieldLen y * 2 ^ fieldPos y) =
      ((z &&& ~~~(fieldMask y <<< fieldPos y)) ||| ((x <<< fieldPos y) &&& (fieldMask y <<< fieldPos y))).toNat := by
  have hlen := fieldLen_le y
  have hplain : (if fieldLen y = 0 then z.toNat else
      z.toNat - z.toNat / 2 ^ fieldPos y % 2 ^ fieldLen y * 2 ^ fieldPos y + x.toNat % 2 ^ fieldLen y * 2 ^ fieldPos y) =
      z.toNat - z.toNat / 2 ^ fieldPos y % 2 ^ fieldLen y * 2 ^ fieldPos y + x.toNat % 2 ^ fieldLen y * 2 ^ fieldPos y := by
    split
    · next h => simp [h, Nat.mod_one]
    · rfl
  refine hplain.trans (Nat.eq_of_testBit_eq fun i => (testBit_insert _ _ _ _ i).trans ?_)
  show _ = BitVec.getLsbD _ i
  rw [BitVec.getLsbD_or, BitVec.getLsbD_and, BitVec.getLsbD_and, BitVec.getLsbD_not, getLsbD_fieldMask]
  by_cases hin : fieldPos y ≤ i ∧ i < fieldPos y + fieldLen y
  · have h1 : i < 32 := by omega
    rw [if_pos hin, decide_eq_true hin, BitVec.getLsbD_shiftLeft]
    simp [h1, hin.1, BitVec.getLsbD]
  · have hz : i < 32 ∨ z.getLsbD i = false := (lt_or_ge i 32).imp_right (z.getLsbD_of_ge i)
    rw [if_neg hin, decide_eq_false hin]
    rcases hz with h | h
    · simp [h, BitVec.getLsbD]
    · simp [h, show z.toNat.testBit i = false from h]

/-- Settles O4: the counts are those of the bits in order (`count_bitsOf`, `clz_toNat`, `ctz_toNat`), and a field is cut out and put
in bit by bit. -/
theorem bitCountsAndFields : Obligations.BitCountsAndFields := by
  intro s g rest d a b t m hg ht
  have ht4 := ElemTy.isInt4_of_isInt3 ht
  have one {f : Nat → Nat} {F : (w : Nat) → BitVec w → BitVec w} (hf : ∀ p : BitVec (ElemTy.width t), f p.toNat = (F _ p).toNat)
      (e : Env) (h : Thread) :=
    congrArg (outT h t d) (lift_elems1 ht4 (e.rdT_lt h t a 0) hf)
  have hw := ElemTy.width_pos t
  refine ⟨?_, ?_, ?_, ?_, ?_, ?_, ?_⟩
  · exact runsNow_of_lane rfl rfl hg
      (one (f := fun x => (bitsOf (ElemTy.width t) x).count true) fun p => (count_bitsOf p _).trans p.toNat_cpop.symm)
  · exact runsNow_of_lane rfl rfl hg
      (one (f := fun x => ((bitsOf (ElemTy.width t) x).reverse.takeWhile (!·)).length) (clz_toNat hw))
  · exact runsNow_of_lane rfl rfl hg (one (f := fun x => ((bitsOf (ElemTy.width t) x).takeWhile (!·)).length) (ctz_toNat hw))
  · exact runsNow_of_lane rfl rfl hg (one (f := fun x => ofBits (bitsOf (ElemTy.width t) x).reverse) reverse_toNat)
  · refine runsNow_of_lane rfl rfl hg fun e h => Eq.trans (congrArg (outT h .n32 d) ?_) (outT_n32 h d _ 0)
    simp only [lift_plain (t := .n32) rfl, bitOp, Env.rdT, ElemTy.isPair, Bool.false_eq_true, if_false, fieldOf_eq]
    exact congrArg (·, 0) (bfx_n32 (e.rd32 h a 0) (e.rd32 h b 2))
  · refine runsNow_of_lane rfl rfl hg fun e h => Eq.trans (congrArg (outT h .i32 d) ?_) (outT_i32 h d _ 0)
    simp only [lift_plain (t := .i32) rfl, bitOp, Env.rdT, ElemTy.isPair, Bool.false_eq_true, if_false, fieldOf_eq]
    exact congrArg (·, 0) (bfx_i32 (e.rd32 h a 0) (e.rd32 h b 2))
  · refine runsNow_of_lane rfl rfl hg fun e h => Eq.trans (congrArg (outT h .i32 d) ?_) (outT_i32 h d _ 0)
    simp only [lift_plain (t := .i32) rfl, Env.rdT, ElemTy.isPair, Bool.false_eq_true, if_false, fieldOf_eq]
    exact congrArg (·, 0) (bfi_i32 (e.rd32 h a 0) (e.rd32 h d 4) (e.rd32 h b 2))

/-! ### Comparisons and moves (R81, R85, R90, R91) -/

/-- An operand without halves as a bit vector of its element's width. -/
theorem cmpVal_eq {t : ElemTy} (u : Bool) {x : Nat} (hx : x < 2 ^ ElemTy.width t) :
    cmpVal t u x = if u || t == .n32 then ((BitVec.ofNat (ElemTy.width t) x).toNat : Int) else (BitVec.ofNat (ElemTy.width t) x).toInt := by
  have hval : ElemTy.value t x = exactT t (BitVec.ofNat (ElemTy.width t) x) := value_eq t x (by rintro rfl; exact hx)
  have hnat : (BitVec.ofNat (ElemTy.width t) x).toNat = x := by rw [BitVec.toNat_ofNat, Nat.mod_eq_of_lt hx]
  unfold cmpVal
  rw [hval, exactT, hnat]
  cases u with
  | true => rfl
  | false => simp

/-- Whether an element is less than another, unsigned under U and for n32. -/
def lessBits (t : ElemTy) (u : Bool) (x y : Nat) : Bool :=
  if u || t == .n32 then (BitVec.ofNat (ElemTy.width t) x).ult (BitVec.ofNat (ElemTy.width t) y)
  else (BitVec.ofNat (ElemTy.width t) x).slt (BitVec.ofNat (ElemTy.width t) y)

theorem relBits_eq {t : ElemTy} (ht : t.isInt3 = true) (u : Bool) (rel : Rel) (x y : Nat) :
    relBits t u rel x y = match rel with
      | .eq => x == y | .ne => x != y | .lt => lessBits t u x y | .le => !lessBits t u y x | .gt => lessBits t u y x
      | .ge => !lessBits t u x y := by
  cases t <;> simp only [ElemTy.isInt3, Bool.false_eq_true] at ht <;> rfl

theorem lessBits_iff {t : ElemTy} (u : Bool) {x y : Nat} (hx : x < 2 ^ ElemTy.width t) (hy : y < 2 ^ ElemTy.width t) :
    lessBits t u x y = true ↔ cmpVal t u x < cmpVal t u y := by
  rw [cmpVal_eq u hx, cmpVal_eq u hy, lessBits]
  split
  · rw [BitVec.ult_iff_lt, BitVec.lt_def, Int.ofNat_lt]
  · exact BitVec.slt_iff_toInt_lt

theorem cmpVal_inj {t : ElemTy} (u : Bool) {x y : Nat} (hx : x < 2 ^ ElemTy.width t) (hy : y < 2 ^ ElemTy.width t) :
    cmpVal t u x = cmpVal t u y ↔ x = y := by
  have hnat {z : Nat} (hz : z < 2 ^ ElemTy.width t) : (BitVec.ofNat (ElemTy.width t) z).toNat = z := by
    rw [BitVec.toNat_ofNat, Nat.mod_eq_of_lt hz]
  refine ⟨fun h => ?_, fun h => by rw [h]⟩
  rw [cmpVal_eq u hx, cmpVal_eq u hy] at h
  rw [← hnat hx, ← hnat hy]
  split at h
  · exact Int.ofNat_inj.1 h
  · rw [BitVec.toInt_inj.1 h]

theorem ElemTy.bits_eq_width {t : ElemTy} (ht : t.isInt3 = true) : (if t.isPair then 64 else 32) = ElemTy.width t := by
  cases t <;> simp only [ElemTy.isInt3, Bool.false_eq_true] at ht <;> rfl

/-- A relation between two elements is that between the values that are compared. -/
theorem relHolds_eq_relBits {t : ElemTy} (ht : t.isInt3 = true) (u : Bool) (rel : Rel) {x y : Nat}
    (hx : x < 2 ^ (if t.isPair then 64 else 32)) (hy : y < 2 ^ (if t.isPair then 64 else 32)) :
    relHolds rel (cmpVal t u x) (cmpVal t u y) = relBits t u rel x y := by
  rw [ElemTy.bits_eq_width ht] at hx hy
  have heq := cmpVal_inj u hx hy
  have hxy := lessBits_iff u hx hy
  have hyx := lessBits_iff u hy hx
  rw [relBits_eq ht, Bool.eq_iff_iff]
  cases rel with
  | eq => simpa [relHolds] using heq
  | ne => simpa [relHolds] using not_congr heq
  | lt => simpa [relHolds] using hxy.symm
  | gt => simpa [relHolds] using hyx.symm
  | le => simpa [relHolds] using (not_congr hyx).symm
  | ge => simpa [relHolds] using (not_congr hxy).symm

theorem shiftLeft_eq_mul_pow {w : Nat} (x : BitVec w) (n : Nat) : x <<< n = x * 2 ^ n := by
  apply BitVec.eq_of_toNat_eq
  have htwo : (2 : BitVec w).toNat = 2 % 2 ^ w := BitVec.toNat_ofNat 2 w
  rw [BitVec.toNat_shiftLeft, Nat.shiftLeft_eq, BitVec.toNat_mul, BitVec.toNat_pow, htwo, ← Nat.pow_mod, Nat.mul_mod_mod]

/-- Settles O5: a comparison is that of bit vectors (`relHolds_eq_relBits`), and each move is its own result. -/
theorem compareMoveSelect : Obligations.CompareMoveSelect := by
  refine ⟨fun s g rest rel u pd a b t lit imm m hg ht => ⟨?_, ?_, ?_⟩, fun s g rest d a b t lit imm p sh m hg => ⟨rfl, ?_, ?_, ?_, ?_, ?_⟩⟩
  · exact runsNow_of_lane rfl rfl hg fun e h =>
      congrArg (Out.pred pd) (relHolds_eq_relBits ht u rel (e.rdT_lt h t a 0) (e.rdT_lt h t b 2))
  · exact runsNow_of_lane rfl rfl hg fun e h =>
      congrArg (Out.pred pd) (relHolds_eq_relBits ht u rel (e.rdT_lt h t a 0) (litVal_lt_pair (ElemTy.isInt4_of_isInt3 ht) lit))
  · refine runsNow_of_lane rfl rfl hg fun e h => congrArg (Out.pred pd) (Eq.trans ?_
      (relHolds_eq_relBits (t := .i32) rfl u rel (e.rd32 h a 0).isLt (if u then imm.setWidth 32 else imm.signExtend 32).isLt))
    cases u with
    | true => exact congrArg (relHolds rel _) (congrArg Int.ofNat (by simp; omega))
    | false =>
      refine congrArg (relHolds rel _) ?_
      show _ = sext 32 (imm.signExtend 32).toNat
      rw [sext_eq _ _ (by decide), ofNat_toNat_self, BitVec.toInt_signExtend_of_le (by decide)]
  · exact runsNow_of_lane rfl rfl hg fun _ _ => rfl
  · refine runsNow_of_lane rfl rfl hg fun e h => congrArg (fun v => outT h t d (v, 0)) ?_
    cases t <;> rfl
  · exact runsNow_of_lane rfl rfl hg fun _ _ => rfl
  · exact runsNow_of_lane rfl rfl hg fun e h => congrArg (fun x => Out.reg (h.dst64 d x)) (congrArg (e.rd64 h a 0 + ·) (shiftLeft_eq_mul_pow _ _))
  · exact runsNow_of_lane rfl rfl hg fun _ _ => rfl

end Sys2Proof.Machine
end

section
/-!
SUPPORT and PROOFS. The float words: each element by its format's operation, between the sign fields and CLAMP (R92 to R99).
-/

namespace Sys2Proof.Machine

/-! ### Words on elements of a format (R92) -/

/-- `lift` sees an operation only on lists of as many elements as there are operands. -/
theorem lift_congr {t : ElemTy} {f k : List Nat → Nat × BitVec 6} {xs : List Nat} (h : ∀ l, l.length = xs.length → f l = k l) :
    lift t f xs = lift t k xs := by
  unfold lift
  rw [h _ (List.length_map _), h _ (List.length_map _), h xs rfl]

/-- A float word on one operand. -/
theorem lift_floatElem1 (h : Thread) (t : ElemTy) (d : Code) (m : Mods) (op : Nat → Nat × BitVec 6) (x : Nat) :
    outT h t d (lift t (floatElem (fmtOf t) m fun l => op (l.headD 0)) [x]) = floatOut h t d m (fun l => op (l.getD 0 0)) [x] := by
  refine congrArg (outT h t d) (lift_congr fun l hl => ?_)
  obtain ⟨p, rfl⟩ := List.length_eq_one_iff.1 hl
  rfl

/-- A float word on two operands. -/
theorem lift_floatElem2 (h : Thread) (t : ElemTy) (d : Code) (m : Mods) (op : Nat → Nat → Nat × BitVec 6) (x y : Nat) :
    outT h t d (lift t (floatElem (fmtOf t) m (twoF op)) [x, y]) = floatOut h t d m (fun l => op (l.getD 0 0) (l.getD 1 0)) [x, y] := by
  refine congrArg (outT h t d) (lift_congr fun l hl => ?_)
  obtain ⟨p, q, rfl⟩ := List.length_eq_two.1 hl
  rfl

/-- Settles O9: `floatElem` is `floatOut`'s operation on lists of the word's operands. -/
theorem floatWordsComplete : Obligations.FloatWordsComplete := by
  intro s g rest d a b t m lit mode hg _ two dl one
  have two (op : Fmt → FOp → Nat → Nat → Nat × BitVec 6) (e : Env) (h : Thread) :=
    lift_floatElem2 h t d m (op (fmtOf t) (fop h m)) (e.rdT h t a 0) (e.rdT h t b 2)
  have dl (op : Fmt → FOp → Nat → Nat → Nat × BitVec 6) (e : Env) (h : Thread) :=
    lift_floatElem2 h t d m (op (fmtOf t) (fop h m)) (e.rdT h t a 0) (litVal t lit)
  have one (op : Fmt → FOp → Nat → Nat × BitVec 6) (e : Env) (h : Thread) :=
    lift_floatElem1 h t d m (op (fmtOf t) (fop h m)) (e.rdT h t a 0)
  refine ⟨runsNow_of_lane rfl rfl hg (two Fmt.add), runsNow_of_lane rfl rfl hg (dl Fmt.add), runsNow_of_lane rfl rfl hg (two Fmt.sub),
    runsNow_of_lane rfl rfl hg (two Fmt.mul), runsNow_of_lane rfl rfl hg (dl Fmt.mul), ?_,
    runsNow_of_lane rfl rfl hg (two fun f _ => f.pick false), runsNow_of_lane rfl rfl hg (two fun f _ => f.pick true),
    runsNow_of_lane rfl rfl hg (dl fun f _ => f.pick false), runsNow_of_lane rfl rfl hg (dl fun f _ => f.pick true),
    runsNow_of_lane rfl rfl hg (one fun f o => f.rnd (rndMode mode o.rm)), runsLater_of_lane rfl rfl hg (one Fmt.rcp),
    runsLater_of_lane rfl rfl hg (one Fmt.sqrt), runsLater_of_lane rfl rfl hg (two Fmt.div), fun _ =>
    ⟨runsLater_of_lane rfl rfl hg (one Fmt.rsq), runsLater_of_lane rfl rfl hg (one Fmt.exp2),
      runsLater_of_lane rfl rfl hg (one Fmt.log2), runsLater_of_lane rfl rfl hg (one Fmt.tanh)⟩⟩
  refine runsNow_of_lane rfl rfl hg fun e h => congrArg (outT h t d) (lift_congr fun l hl => ?_)
  obtain ⟨p, q, r, rfl⟩ := List.length_eq_three.1 hl
  rfl

end Sys2Proof.Machine
end

section
/-!
SUPPORT and PROOFS. The order of floats, their least and greatest, and their class (R95 to R97).
-/

namespace Sys2Proof.Machine

/-! ### The order of numbers (R95, R96) -/

/-- A finite number in units of a power of two at or below its own. -/
theorem toReal_scaled (n : Bool) (m : Nat) {e q : Int} (hq : q ≤ e) :
    (Num.fin n m e).toReal = ((if n then -((m * 2 ^ (e - q).toNat : Nat) : Int) else (m * 2 ^ (e - q).toNat : Nat) : Int) : ℝ) * 2 ^ q := by
  have hexp : (2 : ℝ) ^ e = 2 ^ (e - q).toNat * 2 ^ q := by
    rw [← zpow_natCast, ← zpow_add₀ two_ne_zero]
    congr 1
    omega
  rw [Num.toReal, hexp]
  cases n <;> simp only [Bool.false_eq_true, if_false, if_true] <;> push_cast <;> ring

/-- `Num.cmp` compares the values of numbers that are no NaN. -/
theorem cmp_eq_compare {x y : Num} (hx : x.isNan = false) (hy : y.isNan = false) : x.cmp y = compare x.toEReal y.toEReal := by
  symm
  match x, y with
  | .nan .., _ => cases hx
  | _, .nan .. => cases hy
  | .inf true, .inf true => exact compare_eq_iff_eq.2 rfl
  | .inf false, .inf false => exact compare_eq_iff_eq.2 rfl
  | .inf true, .inf false => exact compare_lt_iff_lt.2 bot_lt_top
  | .inf false, .inf true => exact compare_gt_iff_gt.2 bot_lt_top
  | .inf true, .fin _ _ _ => exact compare_lt_iff_lt.2 (EReal.bot_lt_coe _)
  | .inf false, .fin _ _ _ => exact compare_gt_iff_gt.2 (EReal.coe_lt_top _)
  | .fin _ _ _, .inf true => exact compare_gt_iff_gt.2 (EReal.bot_lt_coe _)
  | .fin _ _ _, .inf false => exact compare_lt_iff_lt.2 (EReal.coe_lt_top _)
  | .fin a m e, .fin b n k =>
    have hx := toReal_scaled a m (min_le_left e k)
    have hy := toReal_scaled b n (min_le_right e k)
    have hu : (0 : ℝ) < 2 ^ min e k := zpow_pos two_pos _
    show compare ((Num.fin a m e).toReal : EReal) ((Num.fin b n k).toReal : EReal) = compare _ _
    rw [hx, hy]
    generalize (if a then _ else _ : Int) = p
    generalize (if b then _ else _ : Int) = q
    rcases lt_trichotomy p q with h | h | h
    · rw [compare_lt_iff_lt.2 h, compare_lt_iff_lt, EReal.coe_lt_coe_iff]
      exact mul_lt_mul_of_pos_right (by exact_mod_cast h) hu
    · rw [h, compare_eq_iff_eq.2 (rfl : q = q), compare_eq_iff_eq]
    · rw [compare_gt_iff_gt.2 h, compare_gt_iff_gt, EReal.coe_lt_coe_iff]
      exact mul_lt_mul_of_pos_right (by exact_mod_cast h) hu

theorem cmp_lt_iff {x y : Num} (hx : x.isNan = false) (hy : y.isNan = false) : x.cmp y = .lt ↔ x.toEReal < y.toEReal := by
  rw [cmp_eq_compare hx hy, compare_lt_iff_lt]

theorem cmp_gt_iff {x y : Num} (hx : x.isNan = false) (hy : y.isNan = false) : x.cmp y = .gt ↔ y.toEReal < x.toEReal := by
  rw [cmp_eq_compare hx hy, compare_gt_iff_gt]

theorem cmp_eq_iff {x y : Num} (hx : x.isNan = false) (hy : y.isNan = false) : x.cmp y = .eq ↔ x.toEReal = y.toEReal := by
  rw [cmp_eq_compare hx hy, compare_eq_iff_eq]

theorem isSnan_of_not_nan {x : Num} (hx : x.isNan = false) : x.isSnan = false := by
  cases x <;> simp_all [Num.isNan, Num.isSnan]

theorem not_nan_of_isFin {x : Num} (hx : x.isFin = true) : x.isNan = false := by
  cases x <;> simp_all [Num.isNan, Num.isFin]

/-- FCMP on numbers. -/
theorem cmp_numbers (f : Fmt) (rel : FRel) {x y : Nat} (hx : (f.unpack x).isNan = false) (hy : (f.unpack y).isNan = false) :
    f.cmp rel x y = (match rel with
      | .eq => (f.unpack x).cmp (f.unpack y) == .eq | .ne => (f.unpack x).cmp (f.unpack y) != .eq
      | .lt => (f.unpack x).cmp (f.unpack y) == .lt | .le => (f.unpack x).cmp (f.unpack y) != .gt
      | .gt => (f.unpack x).cmp (f.unpack y) == .gt | .ge => (f.unpack x).cmp (f.unpack y) != .lt
      | .un => false | .ord => true, 0) := by
  unfold Fmt.cmp
  dsimp only
  rw [hx, hy]
  cases rel <;> rfl

/-- FCMP with a NaN. -/
theorem cmp_nan (f : Fmt) (rel : FRel) {x y : Nat} (h : ((f.unpack x).isNan || (f.unpack y).isNan) = true) :
    f.cmp rel x y = (rel == .ne || rel == .un, if (f.unpack x).isSnan || (f.unpack y).isSnan || rel == .lt || rel == .le ||
      rel == .gt || rel == .ge then 16 else 0) := by
  unfold Fmt.cmp
  dsimp only
  rw [h]
  cases rel <;> cases (f.unpack x).isSnan <;> cases (f.unpack y).isSnan <;> rfl

/-- FMIN and FMAX of numbers. -/
theorem pick_numbers (f : Fmt) (max : Bool) {x y : Nat} (hx : (f.unpack x).isNan = false) (hy : (f.unpack y).isNan = false) :
    f.pick max x y = (if (f.unpack x).below (f.unpack y) != max then x else y, 0) := by
  unfold Fmt.pick
  dsimp only
  rw [hx, hy, isSnan_of_not_nan hx, isSnan_of_not_nan hy]
  rfl

theorem below_of_lt {x y : Num} (hx : x.isNan = false) (hy : y.isNan = false) (h : x.toEReal < y.toEReal) : x.below y = true := by
  rw [Num.below, (cmp_lt_iff hx hy).2 h]

theorem below_of_gt {x y : Num} (hx : x.isNan = false) (hy : y.isNan = false) (h : y.toEReal < x.toEReal) : x.below y = false := by
  rw [Num.below, (cmp_gt_iff hx hy).2 h]

theorem below_of_eq {x y : Num} (hx : x.isNan = false) (hy : y.isNan = false) (h : x.toEReal = y.toEReal) :
    x.below y = (x.neg || !y.neg) := by
  rw [Num.below, (cmp_eq_iff hx hy).2 h]

/-! ### Codes and the numbers they stand for -/

/-- The formats in which arithmetic is done have infinities. -/
theorem infs_of_arith {f : Fmt} (hf : f ∈ arithFmts) : f.infs = true := by
  simp only [arithFmts, List.mem_cons, List.not_mem_nil, or_false] at hf
  rcases hf with rfl | rfl | rfl | rfl <;> rfl

theorem sound_of_arith {f : Fmt} (hf : f ∈ arithFmts) : f.Sound :=
  f.sound_of_mem (List.mem_cons_of_mem _ (List.mem_cons_of_mem _ hf))

/-- An encoding is a sign on a magnitude code. -/
theorem signed_split (f : Fmt) {x : Nat} (hx : x < 2 * f.signBit) :
    ∃ neg c, c < f.signBit ∧ x = f.signed neg c := by
  have hpos : 0 < f.signBit := Nat.two_pow_pos _
  by_cases h : x < f.signBit
  · exact ⟨false, x, h, by simp [Fmt.signed]⟩
  · exact ⟨true, x - f.signBit, by omega, by simp [Fmt.signed]; omega⟩

/-- What a sign on a magnitude code is read as, in a format with infinities. -/
theorem unpack_signed_eq (f : Fmt) (hi : f.infs = true) (neg : Bool) {c : Nat} (hc : c < f.signBit) :
    f.unpack (f.signed neg c) =
      if c / 2 ^ f.man = 2 ^ f.exp - 1 then
        (if c % 2 ^ f.man = 0 then .inf neg else .nan neg (c % 2 ^ f.man / f.quiet % 2 == 0) (c % 2 ^ f.man))
      else if c / 2 ^ f.man = 0 then .fin neg (c % 2 ^ f.man) (f.emin - f.man)
      else .fin neg (2 ^ f.man + c % 2 ^ f.man) ((c / 2 ^ f.man : Nat) - f.bias - f.man) := by
  unfold Fmt.unpack
  rw [signed_div f neg hc, signed_exp f neg hc, signed_frac f neg c]
  simp [hi]

/-- A magnitude code below the infinity's is finite, the infinity's is the infinity, and one above it a NaN. -/
theorem unpack_signed_cases (f : Fmt) (hi : f.infs = true) (neg : Bool) {c : Nat} (hc : c < f.signBit) :
    (c < f.top ∧ (f.unpack (f.signed neg c)).isFin = true) ∨ (c = f.top ∧ f.unpack (f.signed neg c) = .inf neg) ∨
      (f.top < c ∧ (f.unpack (f.signed neg c)).isNan = true) := by
  have hP : 0 < 2 ^ f.man := Nat.two_pow_pos _
  have htop : f.top + 2 ^ f.man = f.signBit := f.top_add
  have hexp : f.top = (2 ^ f.exp - 1) * 2 ^ f.man := rfl
  have hsum : c / 2 ^ f.man * 2 ^ f.man + c % 2 ^ f.man = c := by rw [Nat.mul_comm]; exact Nat.div_add_mod c _
  rw [unpack_signed_eq f hi neg hc]
  by_cases he : c / 2 ^ f.man = 2 ^ f.exp - 1
  · rw [if_pos he]
    rw [he, ← hexp] at hsum
    by_cases hm : c % 2 ^ f.man = 0
    · exact .inr (.inl ⟨by omega, if_pos hm⟩)
    · exact .inr (.inr ⟨by omega, by rw [if_neg hm]; rfl⟩)
  · rw [if_neg he]
    refine .inl ⟨?_, by split <;> rfl⟩
    have hlt : c / 2 ^ f.man < 2 ^ f.exp - 1 := by
      have : c / 2 ^ f.man < 2 ^ f.exp := by
        rw [Nat.div_lt_iff_lt_mul hP, ← Nat.pow_add]
        exact hc
      omega
    rw [hexp]
    exact (Nat.div_lt_iff_lt_mul hP).1 hlt

/-- An encoding that is no NaN is a sign on the code of a finite magnitude, or on that of the infinity. -/
theorem number_cases (f : Fmt) (hf : f ∈ arithFmts) {x : Nat} (hx : x < 2 * f.signBit) (hn : (f.unpack x).isNan = false) :
    ∃ neg c, x = f.signed neg c ∧
      ((f.unpack x = .inf neg ∧ c = f.top) ∨
        ((f.unpack x).isFin = true ∧ |(f.unpack x).toReal| = f.value c ∧ (f.unpack x).neg = neg)) := by
  obtain ⟨neg, c, hc, rfl⟩ := signed_split f hx
  have hs := sound_of_arith hf
  have hi := infs_of_arith hf
  refine ⟨neg, c, rfl, ?_⟩
  rcases unpack_signed_cases f hi neg hc with ⟨h, _⟩ | ⟨h, hinf⟩ | ⟨_, hnan⟩
  · exact .inr (unpack_signed f hs neg (by rw [Fmt.largest, if_pos hi]; omega))
  · exact .inl ⟨hinf, h⟩
  · rw [hnan] at hn
    cases hn

theorem toEReal_of_isFin {x : Num} (hx : x.isFin = true) : x.toEReal = (x.toReal : EReal) := by
  cases x with
  | fin => rfl
  | nan | inf => cases hx

/-- Two encodings of one sign and one value are one. -/
theorem encoding_unique (f : Fmt) (hf : f ∈ arithFmts) {x y : Nat} (hx : x < 2 * f.signBit) (hy : y < 2 * f.signBit)
    (hxn : (f.unpack x).isNan = false) (hyn : (f.unpack y).isNan = false) (hneg : (f.unpack x).neg = (f.unpack y).neg)
    (hv : (f.unpack x).toEReal = (f.unpack y).toEReal) : x = y := by
  obtain ⟨n, c, hxc, hc⟩ := number_cases f hf hx hxn
  obtain ⟨k, e, hye, he⟩ := number_cases f hf hy hyn
  have hinf (n : Bool) (r : ℝ) : (Num.inf n).toEReal ≠ (r : EReal) := by cases n <;> simp [Num.toEReal]
  rcases hc with ⟨hX, rfl⟩ | ⟨hX, hXv, rfl⟩ <;> rcases he with ⟨hY, rfl⟩ | ⟨hY, hYv, rfl⟩
  · rw [hX, hY] at hneg
    rw [hxc, hye, show n = k from hneg]
  · rw [hX, toEReal_of_isFin hY] at hv
    exact absurd hv (hinf _ _)
  · rw [hY, toEReal_of_isFin hX] at hv
    exact absurd hv.symm (hinf _ _)
  · rw [toEReal_of_isFin hX, toEReal_of_isFin hY, EReal.coe_eq_coe_iff] at hv
    rw [hv, hYv] at hXv
    rw [hxc, hye, hneg, f.value_strictMono.injective hXv]

/-! ### Classes (R97) -/

/-- A finite number as it is read: below the least normal one, or with its leading bit. -/
theorem unpack_fin (f : Fmt) {x : Nat} {n : Bool} {m : Nat} {e : Int} (h : f.unpack x = .fin n m e) :
    (m < 2 ^ f.man ∧ e = f.emin - f.man) ∨ (2 ^ f.man ≤ m ∧ m < 2 ^ (f.man + 1) ∧ f.emin - f.man ≤ e) := by
  have hlt : x % 2 ^ f.man < 2 ^ f.man := Nat.mod_lt _ (Nat.two_pow_pos _)
  unfold Fmt.unpack at h
  dsimp only at h
  split at h
  · split at h <;> cases h
  · split at h
    · cases h
    · split at h
      · cases h
        exact .inl ⟨hlt, rfl⟩
      · next he =>
        cases h
        refine .inr ⟨Nat.le_add_right _ _, by rw [Nat.pow_succ]; omega, ?_⟩
        rw [Fmt.emin]
        omega

theorem abs_toReal_fin (n : Bool) (m : Nat) (e : Int) : |(Num.fin n m e).toReal| = m * 2 ^ e := (fin_reads n m e).2.1

/-- A finite number is normal exactly when its significand has the leading bit. -/
theorem normal_iff (f : Fmt) {x : Nat} {n : Bool} {m : Nat} {e : Int} (h : f.unpack x = .fin n m e) :
    (2 : ℝ) ^ f.emin ≤ |(f.unpack x).toReal| ↔ 2 ^ f.man ≤ m := by
  have hmin : (2 : ℝ) ^ f.emin = (2 ^ f.man : ℕ) * 2 ^ (f.emin - f.man) := by
    push_cast
    rw [← zpow_natCast, ← zpow_add₀ two_ne_zero]
    congr 1
    ring
  rw [h, abs_toReal_fin, hmin]
  rcases unpack_fin f h with ⟨hm, rfl⟩ | ⟨hm, _, he⟩
  · rw [mul_le_mul_iff_left₀ (zpow_pos two_pos _), Nat.cast_le]
  · refine ⟨fun _ => hm, fun _ => ?_⟩
    exact mul_le_mul (by exact_mod_cast hm) (zpow_le_zpow_right₀ one_le_two he) (zpow_pos two_pos _).le (Nat.cast_nonneg _)

/-- The number of the bit that FCLASS writes. -/
def Fmt.classBit (f : Fmt) : Num → Nat
  | .nan _ s _ => if s then 8 else 9
  | .inf n => if n then 0 else 7
  | .fin n m _ => if m = 0 then (if n then 3 else 4) else if m < 2 ^ f.man then (if n then 2 else 5) else (if n then 1 else 6)

theorem cls_eq (f : Fmt) (x : Nat) : f.cls x = 2 ^ f.classBit (f.unpack x) := by
  unfold Fmt.cls Fmt.classBit
  cases f.unpack x with
  | nan n s m => cases s <;> rfl
  | inf n => cases n <;> rfl
  | fin n m e =>
    dsimp only
    split
    · cases n <;> rfl
    · split <;> cases n <;> rfl

/-- The bit of a NaN, of an infinity, and of a finite number. -/
theorem classBit_says (f : Fmt) {X : Num} :
    f.classBit X < 10 ∧ (f.classBit X = 9 ↔ X.isNan = true ∧ X.isSnan = false) ∧ (f.classBit X = 8 ↔ X.isSnan = true) ∧
      (f.classBit X = 0 ↔ X = .inf true) ∧ (f.classBit X = 7 ↔ X = .inf false) ∧
      (f.classBit X = 3 ↔ X.isZero = true ∧ X.neg = true) ∧ (f.classBit X = 4 ↔ X.isZero = true ∧ X.neg = false) ∧
      (f.classBit X = 1 ∨ f.classBit X = 6 ↔ ∃ n m e, X = .fin n m e ∧ 2 ^ f.man ≤ m) ∧
      (f.classBit X = 1 ∨ f.classBit X = 2 → X.neg = true) ∧ (f.classBit X = 5 ∨ f.classBit X = 6 → X.neg = false) := by
  have hP : 0 < 2 ^ f.man := Nat.two_pow_pos _
  cases X with
  | nan n s m => cases s <;> simp [Fmt.classBit, Num.isNan, Num.isSnan, Num.isZero]
  | inf n => cases n <;> simp [Fmt.classBit, Num.isNan, Num.isSnan, Num.isZero]
  | fin n m e =>
    by_cases h0 : m = 0
    · subst h0
      cases n <;> simp [Fmt.classBit, Num.isNan, Num.isSnan, Num.isZero, Num.neg]
    · by_cases hm : m < 2 ^ f.man
      · cases n <;> simp [Fmt.classBit, Num.isNan, Num.isSnan, Num.isZero, Num.neg, h0, hm]
      · cases n <;> simp [Fmt.classBit, Num.isNan, Num.isSnan, Num.isZero, Num.neg, h0, hm, not_lt.1 hm]

theorem isFin_iff {X : Num} : X.isFin = true ↔ ∃ n m e, X = .fin n m e := by
  cases X <;> simp [Num.isFin]

theorem normal_iff_exists (f : Fmt) (x : Nat) :
    (∃ n m e, f.unpack x = .fin n m e ∧ 2 ^ f.man ≤ m) ↔ (f.unpack x).isFin = true ∧ (2 : ℝ) ^ f.emin ≤ |(f.unpack x).toReal| := by
  constructor
  · rintro ⟨n, m, e, h, hm⟩
    exact ⟨isFin_iff.2 ⟨n, m, e, h⟩, (normal_iff f h).2 hm⟩
  · rintro ⟨hfin, hr⟩
    obtain ⟨n, m, e, h⟩ := isFin_iff.1 hfin
    exact ⟨n, m, e, h, (normal_iff f h).1 hr⟩

/-! ### The words (R96, R97) -/

theorem packed_iff {t : ElemTy} (ht : t.isFloat = true) : ElemTy.packed t = decide (t = .f16x2 ∨ t = .bf16x2) := by
  cases t <;> simp only [ElemTy.isFloat, Bool.false_eq_true] at ht <;> rfl

/-- FMIN and FMAX where one number is less than the other. -/
theorem pick_of_lt (f : Fmt) {x y : Nat} (hx : (f.unpack x).isNan = false) (hy : (f.unpack y).isNan = false)
    (h : (f.unpack x).toEReal < (f.unpack y).toEReal) :
    f.pick false x y = (x, 0) ∧ f.pick true x y = (y, 0) ∧ f.pick false y x = (x, 0) ∧ f.pick true y x = (y, 0) := by
  rw [pick_numbers f _ hx hy, pick_numbers f _ hx hy, pick_numbers f _ hy hx, pick_numbers f _ hy hx, below_of_lt hx hy h,
    below_of_gt hy hx h]
  exact ⟨rfl, rfl, rfl, rfl⟩

/-- FMIN and FMAX of equal numbers: −0 is the lesser. -/
theorem pick_of_eq (f : Fmt) (hf : f ∈ arithFmts) {x y : Nat} (hxb : x < 2 * f.signBit) (hyb : y < 2 * f.signBit)
    (hx : (f.unpack x).isNan = false) (hy : (f.unpack y).isNan = false) (h : (f.unpack x).toEReal = (f.unpack y).toEReal) :
    f.pick false x y = (if (f.unpack x).neg then x else y, 0) ∧ f.pick true x y = (if (f.unpack x).neg then y else x, 0) := by
  rw [pick_numbers f _ hx hy, pick_numbers f _ hx hy, below_of_eq hx hy h]
  cases hX : (f.unpack x).neg <;> cases hY : (f.unpack y).neg
  · obtain rfl := encoding_unique f hf hxb hyb hx hy (hX.trans hY.symm) h
    exact ⟨rfl, rfl⟩
  all_goals exact ⟨rfl, rfl⟩

/-- Settles O13: numbers are compared by their values (`cmp_eq_compare`), an encoding is known by its sign and value
(`encoding_unique`), and a finite number is normal when its leading bit is there (`normal_iff`). -/
theorem floatOrderAndTests : Obligations.FloatOrderAndTests := by
  refine ⟨fun f x y hf hxb hyb => ⟨fun hx hy => ?_, fun h rel => cmp_nan f rel h, ?_⟩,
    fun s g rest rel any pd d a b t lit m hg ht => ?_⟩
  · have lt := cmp_lt_iff hx hy
    have eq := cmp_eq_iff hx hy
    have gt := cmp_gt_iff hx hy
    refine ⟨?_, ?_, ?_, ?_, ?_, ?_, cmp_numbers f .un hx hy, cmp_numbers f .ord hx hy,
      fun rel => congrArg Prod.snd (cmp_numbers f rel hx hy), pick_of_lt f hx hy, pick_of_eq f hf hxb hyb hx hy⟩
    · rw [cmp_numbers f .lt hx hy, ← lt]
      exact beq_iff_eq
    · rw [cmp_numbers f .le hx hy, ← not_lt, ← gt]
      exact bne_iff_ne
    · rw [cmp_numbers f .eq hx hy, ← eq]
      exact beq_iff_eq
    · rw [cmp_numbers f .ne hx hy, ne_eq, ← eq]
      exact bne_iff_ne
    · rw [cmp_numbers f .gt hx hy, ← gt]
      exact beq_iff_eq
    · rw [cmp_numbers f .ge hx hy, ← not_lt, ← lt]
      exact bne_iff_ne
  · obtain ⟨h10, h9, h8, h0, h7, h3, h4, h16, hneg, hpos⟩ := classBit_says f (X := f.unpack x)
    exact ⟨f.classBit (f.unpack x), h10, cls_eq f x, h9, h8, h0, h7, h3, h4, h16.trans (normal_iff_exists f x), hneg, hpos⟩
  · have hp := packed_iff ht
    refine ⟨runsNow_of_lane rfl rfl hg fun e h => ?_, runsNow_of_lane rfl rfl hg fun e h => ?_, runsNow_of_lane rfl rfl hg fun e h => ?_⟩
    · simp only [outPred, cmpF, hp, decide_eq_true_eq]
    · simp only [outPred, cmpF, hp, decide_eq_true_eq]
    · simp only [hp, decide_eq_true_eq, Nat.mul_comm 65536]

end Sys2Proof.Machine
end

section
/-!
SUPPORT and PROOFS. NaNs, invalid operations, infinities and zeros (R92 to R95, R98, R99).
-/

namespace Sys2Proof.Machine

/-! ### Kinds of numbers -/

theorem isZero_iff {X : Num} : X.isZero = true ↔ ∃ n e, X = .fin n 0 e := by
  cases X <;> simp [Num.isZero]

/-- A number that is no NaN and no zero is an infinity, or finite with a significand. -/
theorem nonzero_cases {X : Num} (hn : X.isNan = false) (hz : X.isZero = false) :
    X = .inf X.neg ∨ ∃ m e, X = .fin X.neg m e ∧ m ≠ 0 := by
  cases X with
  | nan => cases hn
  | inf n => exact .inl rfl
  | fin n m e => exact .inr ⟨m, e, rfl, by simpa [Num.isZero] using hz⟩

theorem not_nan_of_isZero {X : Num} (h : X.isZero = true) : X.isNan = false := by
  obtain ⟨n, e, rfl⟩ := isZero_iff.1 h
  rfl

theorem isFin_of_isZero {X : Num} (h : X.isZero = true) : X.isFin = true := by
  obtain ⟨n, e, rfl⟩ := isZero_iff.1 h
  rfl

/-! ### The NaN rules around an operation (R92) -/

section
variable {f : Fmt} {x y z : Nat} {extra : BitVec 6} {r : Nat × BitVec 6}

theorem withNan_number {ops : List Nat} (h : ∀ v ∈ ops, (f.unpack v).isNan = false) : f.withNan ops extra r = r := by
  have hnone : ops.find? (fun v => (f.unpack v).isNan) = none := List.find?_eq_none.2 fun v hv => by simp [h v hv]
  simp only [Fmt.withNan, hnone]

theorem withNan_first {ops : List Nat} {v : Nat} (h : ops.find? (fun v => (f.unpack v).isNan) = some v) :
    f.withNan ops extra r = (v ||| f.quiet, flIf (ops.any fun v => (f.unpack v).isSnan) flNV ||| extra) := by
  simp only [Fmt.withNan, h]

theorem withNan_first_plain {ops : List Nat} {v : Nat} (h : ops.find? (fun v => (f.unpack v).isNan) = some v) :
    f.withNan ops 0 r = (v ||| f.quiet, if ops.any fun v => (f.unpack v).isSnan then 16#6 else 0#6) :=
  (withNan_first h).trans (congrArg (v ||| f.quiet, ·) BitVec.or_zero)

theorem withNan1 (hx : (f.unpack x).isNan = true) :
    f.withNan [x] 0 r = (x ||| f.quiet, if (f.unpack x).isSnan then 16#6 else 0#6) := by
  rw [withNan_first_plain (List.find?_cons_of_pos hx), List.any_cons, List.any_nil, Bool.or_false]

theorem withNan2_left (hx : (f.unpack x).isNan = true) :
    f.withNan [x, y] 0 r = (x ||| f.quiet, if (f.unpack x).isSnan || (f.unpack y).isSnan then 16#6 else 0#6) := by
  rw [withNan_first_plain (List.find?_cons_of_pos hx), List.any_cons, List.any_cons, List.any_nil, Bool.or_false]

theorem withNan2_right (hx : (f.unpack x).isNan = false) (hy : (f.unpack y).isNan = true) :
    f.withNan [x, y] 0 r = (y ||| f.quiet, if (f.unpack x).isSnan || (f.unpack y).isSnan then 16#6 else 0#6) := by
  rw [withNan_first_plain (v := y) (by simp [hx, hy]), List.any_cons, List.any_cons, List.any_nil, Bool.or_false]

theorem withNan1_number (hx : (f.unpack x).isNan = false) : f.withNan [x] extra r = r :=
  withNan_number (List.forall_mem_singleton.2 hx)

theorem withNan2_number (hx : (f.unpack x).isNan = false) (hy : (f.unpack y).isNan = false) : f.withNan [x, y] extra r = r :=
  withNan_number (List.forall_mem_cons.2 ⟨hx, List.forall_mem_singleton.2 hy⟩)

theorem withNan3_number (hx : (f.unpack x).isNan = false) (hy : (f.unpack y).isNan = false) (hz : (f.unpack z).isNan = false) :
    f.withNan [x, y, z] extra r = r :=
  withNan_number (List.forall_mem_cons.2 ⟨hx, List.forall_mem_cons.2 ⟨hy, List.forall_mem_singleton.2 hz⟩⟩)

/-! ### Operations on numbers -/

variable {o : FOp} {X Y Z : Num}

theorem add_number (hx : f.unpack x = X) (hy : f.unpack y = Y) (hX : X.isNan = false) (hY : Y.isNan = false) :
    f.add o x y = f.sum o X Y := by
  subst hx hy
  exact withNan2_number hX hY

theorem sub_number (hx : f.unpack x = X) (hy : f.unpack y = Y) (hX : X.isNan = false) (hY : Y.isNan = false) :
    f.sub o x y = f.sum o X Y.flip := by
  subst hx hy
  exact withNan2_number hX hY

theorem mul_number (hx : f.unpack x = X) (hy : f.unpack y = Y) (hX : X.isNan = false) (hY : Y.isNan = false) :
    f.mul o x y = if zeroInf X Y then f.invalid else f.ofNum o (product X Y) := by
  subst hx hy
  exact withNan2_number hX hY

theorem fma_number (hx : f.unpack x = X) (hy : f.unpack y = Y) (hz : f.unpack z = Z) (hX : X.isNan = false) (hY : Y.isNan = false)
    (hZ : Z.isNan = false) : f.fma o x y z = if zeroInf X Y then f.invalid else f.sum o (product X Y) Z := by
  subst hx hy hz
  exact withNan3_number hX hY hZ

/-! ### FFMA with a NaN -/

theorem fma_nan_x (hx : (f.unpack x).isNan = true) : f.fma o x y z =
    (x ||| f.quiet, if (f.unpack x).isSnan || (f.unpack y).isSnan || (f.unpack z).isSnan then 16#6 else 0#6) := by
  have hzi : zeroInf (f.unpack x) (f.unpack y) = false := by
    cases h : f.unpack x <;> simp_all [zeroInf, Num.isNan]
  unfold Fmt.fma
  dsimp only
  rw [hzi]
  refine (withNan_first_plain (List.find?_cons_of_pos hx)).trans ?_
  simp [Bool.or_assoc]

theorem fma_nan_y (hx : (f.unpack x).isNan = false) (hy : (f.unpack y).isNan = true) : f.fma o x y z =
    (y ||| f.quiet, if (f.unpack y).isSnan || (f.unpack z).isSnan then 16#6 else 0#6) := by
  have hzi : zeroInf (f.unpack x) (f.unpack y) = false := by
    cases h : f.unpack x <;> cases h' : f.unpack y <;> simp_all [zeroInf, Num.isNan]
  unfold Fmt.fma
  dsimp only
  rw [hzi]
  refine (withNan_first_plain (v := y) (by simp [hx, hy])).trans ?_
  simp [isSnan_of_not_nan hx]

theorem fma_nan_z (hx : (f.unpack x).isNan = false) (hy : (f.unpack y).isNan = false) (hz : (f.unpack z).isNan = true) :
    f.fma o x y z =
      (z ||| f.quiet, if (f.unpack z).isSnan || zeroInf (f.unpack x) (f.unpack y) then 16#6 else 0#6) := by
  unfold Fmt.fma
  refine (withNan_first (v := z) (by simp [hx, hy, hz])).trans (congrArg (z ||| f.quiet, ·) ?_)
  simp only [List.any_cons, List.any_nil, isSnan_of_not_nan hx, isSnan_of_not_nan hy, Bool.false_or, Bool.or_false]
  cases (f.unpack z).isSnan <;> cases zeroInf (f.unpack x) (f.unpack y) <;> rfl

end

section
variable {f : Fmt} {o : FOp} {x y : Nat} {a b : Bool} {m n : Nat} {e k : Int}

/-! ### An equation per case of each operation (R94, R98, R99) -/

theorem div_inf_inf (hx : f.unpack x = .inf a) (hy : f.unpack y = .inf b) : f.div o x y = f.invalid := by
  unfold Fmt.div
  rw [withNan2_number (by rw [hx]; rfl) (by rw [hy]; rfl), hx, hy]

theorem div_inf_fin (hx : f.unpack x = .inf a) (hy : f.unpack y = .fin b n k) : f.div o x y = (f.signed (a != b) f.top, 0) := by
  unfold Fmt.div
  rw [withNan2_number (by rw [hx]; rfl) (by rw [hy]; rfl), hx, hy]
  rfl

theorem div_fin_inf (hx : f.unpack x = .fin a m e) (hy : f.unpack y = .inf b) : f.div o x y = (f.signed (a != b) 0, 0) := by
  unfold Fmt.div
  rw [withNan2_number (by rw [hx]; rfl) (by rw [hy]; rfl), hx, hy]
  rfl

theorem div_fin_fin (hx : f.unpack x = .fin a m e) (hy : f.unpack y = .fin b n k) :
    f.div o x y = if n = 0 then (if m = 0 then f.invalid else (f.signed (a != b) f.top, flDZ))
      else if m = 0 then (f.signed (a != b) 0, 0)
      else f.round o.rm o.sat (a != b) (ratio (f.man + 4) m n (e - k)).1 ((ratio (f.man + 4) m n (e - k)).2 + o.scale) := by
  unfold Fmt.div
  rw [withNan2_number (by rw [hx]; rfl) (by rw [hy]; rfl), hx, hy]

theorem rcp_inf (hx : f.unpack x = .inf a) : f.rcp o x = (f.signed a 0, 0) := by
  unfold Fmt.rcp
  rw [withNan1_number (by rw [hx]; rfl), hx]
  rfl

theorem rcp_fin (hx : f.unpack x = .fin a m e) :
    f.rcp o x = if m = 0 then (f.signed a f.top, flDZ)
      else f.round o.rm o.sat a (ratio (f.man + 4) 1 m (-e)).1 ((ratio (f.man + 4) 1 m (-e)).2 + o.scale) := by
  unfold Fmt.rcp
  rw [withNan1_number (by rw [hx]; rfl), hx]

theorem sqrt_inf (hx : f.unpack x = .inf a) : f.sqrt o x = if a then f.invalid else (f.top, 0) := by
  unfold Fmt.sqrt
  rw [withNan1_number (by rw [hx]; rfl), hx]
  rfl

theorem sqrt_zero (hx : f.unpack x = .fin a 0 e) : f.sqrt o x = (f.signed a 0, 0) := by
  unfold Fmt.sqrt
  rw [withNan1_number (by rw [hx]; rfl), hx]
  rfl

theorem sqrt_negative (hx : f.unpack x = .fin true m e) (hm : m ≠ 0) : f.sqrt o x = f.invalid := by
  unfold Fmt.sqrt
  rw [withNan1_number (by rw [hx]; rfl), hx]
  exact if_neg hm

theorem rsq_inf (hx : f.unpack x = .inf a) : f.rsq o x = if a then f.invalid else (0, 0) := by
  unfold Fmt.rsq
  rw [withNan1_number (by rw [hx]; rfl), hx]
  rfl

theorem rsq_zero (hx : f.unpack x = .fin a 0 e) : f.rsq o x = (f.signed a f.top, flDZ) := by
  unfold Fmt.rsq
  rw [withNan1_number (by rw [hx]; rfl), hx]
  rfl

theorem rsq_negative (hx : f.unpack x = .fin true m e) (hm : m ≠ 0) : f.rsq o x = f.invalid := by
  unfold Fmt.rsq
  rw [withNan1_number (by rw [hx]; rfl), hx]
  exact if_neg hm

theorem exp2_inf (hx : f.unpack x = .inf a) : f.exp2 o x = (if a then 0 else f.top, 0) := by
  unfold Fmt.exp2
  rw [withNan1_number (by rw [hx]; rfl), hx]

/-- 2^0 is exactly 1. -/
theorem exp2_zero (hf : f ∈ arithFmts) (hx : f.unpack x = .fin a 0 e) : f.exp2 o x = (f.bias * 2 ^ f.man, 0) := by
  have hone : f.exp2Of o.sat a (0 * 2 ^ e.toNat) (-e).toNat = f.round .rne o.sat false 1 0 := by
    rw [Nat.zero_mul, Fmt.exp2Of]
    cases a <;> simp
  have hround (sat : Bool) : f.round .rne sat false 1 0 = (f.bias * 2 ^ f.man, 0) := by
    simp only [arithFmts, List.mem_cons, List.not_mem_nil, or_false] at hf
    rcases hf with rfl | rfl | rfl | rfl <;> cases sat <;> decide
  unfold Fmt.exp2
  rw [withNan1_number (by rw [hx]; rfl), hx]
  exact hone.trans (hround o.sat)

theorem log2_inf (hx : f.unpack x = .inf a) : f.log2 o x = if a then f.invalid else (f.top, 0) := by
  unfold Fmt.log2
  rw [withNan1_number (by rw [hx]; rfl), hx]

theorem log2_zero (hx : f.unpack x = .fin a 0 e) : f.log2 o x = (f.signed true f.top, flDZ) := by
  unfold Fmt.log2
  rw [withNan1_number (by rw [hx]; rfl), hx]
  rfl

theorem log2_negative (hx : f.unpack x = .fin true m e) (hm : m ≠ 0) : f.log2 o x = f.invalid := by
  unfold Fmt.log2
  rw [withNan1_number (by rw [hx]; rfl), hx]
  exact if_neg hm

theorem tanh_inf (hx : f.unpack x = .inf a) : f.tanh o x = (f.signed a (f.bias * 2 ^ f.man), 0) := by
  unfold Fmt.tanh
  rw [withNan1_number (by rw [hx]; rfl), hx]

theorem tanh_zero (hx : f.unpack x = .fin a 0 e) : f.tanh o x = (f.signed a 0, 0) := by
  unfold Fmt.tanh
  rw [withNan1_number (by rw [hx]; rfl), hx]
  rfl

theorem rnd_inf {rm : Rm} (hx : f.unpack x = .inf a) : f.rnd rm x = (x, 0) := by
  unfold Fmt.rnd
  rw [withNan1_number (by rw [hx]; rfl), hx]

theorem rnd_fin {rm : Rm} (hx : f.unpack x = .fin a m e) :
    f.rnd rm x = if 0 ≤ e then (x, 0) else ((f.round .rne false a (roundAt rm a m e 0).1 0).1, 0) := by
  unfold Fmt.rnd
  rw [withNan1_number (by rw [hx]; rfl), hx]

end

/-! ### Rounding to an integral value (R76, R99, R101) -/

/-- An integer is what a mode rounds a real number to. -/
def IntRounds (rm : Rm) (q : ℝ) (k : ℤ) : Prop :=
  match rm with
  | .rtz => k = (if q < 0 then ⌈q⌉ else ⌊q⌋)
  | .rup => k = ⌈q⌉
  | .rdn => k = ⌊q⌋
  | .rne => |(k : ℝ) - q| ≤ 1 / 2 ∧ (|(k : ℝ) - q| = 1 / 2 → k % 2 = 0)

/-- A sign on a magnitude. -/
def signedReal (neg : Bool) (r : ℝ) : ℝ := if neg then -r else r

/-- A sign on a natural number. -/
def signedInt (neg : Bool) (n : Nat) : ℤ := if neg then -n else n

theorem signedInt_cast (neg : Bool) (n : Nat) : ((signedInt neg n : ℤ) : ℝ) = signedReal neg n := by
  cases neg <;> simp [signedInt, signedReal]

theorem toReal_fin (neg : Bool) (m : Nat) (e : Int) : (Num.fin neg m e).toReal = signedReal neg (m * 2 ^ e) := by
  cases neg <;> simp [Num.toReal, signedReal]

/-- Rounding a magnitude to a whole number is rounding the signed number to an integer. -/
theorem RoundsReal.int {rm : Rm} {neg : Bool} {r : ℝ} {K : Nat} (h : RoundsReal rm neg r 1 K) (hr : 0 ≤ r) :
    IntRounds rm (signedReal neg r) (signedInt neg K) := by
  obtain ⟨hne, hup, hdown, hlt⟩ := h
  simp only [mul_one] at hne hup hdown hlt
  cases rm with
  | rne =>
    obtain ⟨hle, heven⟩ := hne rfl
    cases neg with
    | false => exact ⟨by simpa [signedInt, signedReal] using hle, fun he => by
        have := heven (by simpa [signedInt, signedReal] using he)
        simp only [signedInt, Bool.false_eq_true, if_false]
        omega⟩
    | true =>
      have habs : |((signedInt true K : ℤ) : ℝ) - signedReal true r| = |(K : ℝ) - r| := by
        rw [← abs_neg]
        congr 1
        simp [signedInt, signedReal]
        ring
      exact ⟨by rw [habs]; exact hle, fun he => by
        have := heven (by rw [← habs]; exact he)
        simp only [signedInt, if_true]
        omega⟩
  | rtz =>
    obtain ⟨h1, h2⟩ := hdown (by simp) (by simp [upward])
    cases neg with
    | false =>
      show (K : ℤ) = if r < 0 then ⌈r⌉ else ⌊r⌋
      rw [if_neg (not_lt.2 hr), eq_comm, Int.floor_eq_iff]
      exact ⟨by exact_mod_cast h1, by exact_mod_cast h2⟩
    | true =>
      show -(K : ℤ) = if -r < 0 then ⌈-r⌉ else ⌊-r⌋
      have hceil : ⌈-r⌉ = -(K : ℤ) := by
        rw [Int.ceil_neg, (Int.floor_eq_iff (z := (K : ℤ))).2 ⟨by exact_mod_cast h1, by exact_mod_cast h2⟩]
      split
      · exact hceil.symm
      · next hn =>
        obtain rfl : r = 0 := by linarith [not_lt.1 hn]
        have : K = 0 := by
          have : (K : ℝ) ≤ 0 := h1
          exact_mod_cast le_antisymm this (Nat.cast_nonneg K)
        simp [this]
  | rup => cases neg with
    | false =>
      obtain ⟨h1, h2⟩ := hup (.inl ⟨rfl, rfl⟩)
      show (K : ℤ) = ⌈r⌉
      rw [eq_comm, Int.ceil_eq_iff]
      exact ⟨by push_cast; linarith, by exact_mod_cast h1⟩
    | true =>
      obtain ⟨h1, h2⟩ := hdown (by simp) (by simp [upward])
      show -(K : ℤ) = ⌈-r⌉
      rw [Int.ceil_neg, (Int.floor_eq_iff (z := (K : ℤ))).2 ⟨by exact_mod_cast h1, by exact_mod_cast h2⟩]
  | rdn => cases neg with
    | true =>
      obtain ⟨h1, h2⟩ := hup (.inr ⟨rfl, rfl⟩)
      show -(K : ℤ) = ⌊-r⌋
      rw [Int.floor_neg, (Int.ceil_eq_iff (z := (K : ℤ))).2 ⟨by push_cast; linarith, by exact_mod_cast h1⟩]
    | false =>
      obtain ⟨h1, h2⟩ := hdown (by simp) (by simp [upward])
      show (K : ℤ) = ⌊r⌋
      rw [eq_comm, Int.floor_eq_iff]
      exact ⟨by exact_mod_cast h1, by exact_mod_cast h2⟩

/-- A multiple of the unit is left as it is. -/
theorem RoundsReal.eq_of_multiple {rm : Rm} {neg : Bool} {x u : ℝ} {k j : Nat} (h : RoundsReal rm neg x u k) (hu : 0 < u)
    (hx : x = j * u) : k = j := by
  refine le_antisymm ?_ (h.ge_of_le hu hx.ge)
  have hlt : (k : ℝ) * u < (j + 1) * u := by linarith [h.lt.1]
  have : (k : ℝ) < j + 1 := lt_of_mul_lt_mul_right hlt hu.le
  exact Nat.lt_succ_iff.1 (by exact_mod_cast this)

/-- Each of the formats holds the whole numbers up to 2^man. -/
theorem two_pow_man_le_largest {f : Fmt} (hf : f ∈ arithFmts) : ((2 ^ f.man : ℕ) : ℝ) ≤ f.value f.largest := by
  have hcode : (f.bias + f.man - 1 + 1) * 2 ^ f.man + 0 ≤ f.largest ∧ 1 ≤ f.bias + f.man := by
    simp only [arithFmts, List.mem_cons, List.not_mem_nil, or_false] at hf
    rcases hf with rfl | rfl | rfl | rfl <;> decide
  have hexp : f.emin - f.man + ((f.bias + f.man - 1 : ℕ) : Int) = 0 := by
    rw [Fmt.emin]
    omega
  have hval := f.value_high (f.bias + f.man - 1) 0 (Nat.two_pow_pos _)
  rw [hexp, zpow_zero, mul_one] at hval
  rw [show 2 ^ f.man = 2 ^ f.man + 0 from rfl, ← hval]
  exact f.value_strictMono.monotone hcode.1

/-- A whole number up to 2^man is a number of its format. -/
theorem round_whole {f : Fmt} (hf : f ∈ arithFmts) (neg : Bool) {K : Nat} (hK : K ≤ 2 ^ f.man) :
    (f.unpack (f.round .rne false neg K 0).1).isFin = true ∧ |(f.unpack (f.round .rne false neg K 0).1).toReal| = K ∧
      (f.unpack (f.round .rne false neg K 0).1).neg = neg := by
  have hs := sound_of_arith hf
  by_cases h0 : K = 0
  · subst h0
    have hzero := unpack_signed f hs neg (Nat.zero_le f.largest)
    have hval : f.value 0 = 0 := by simp [Fmt.value]
    rw [hval] at hzero
    exact_mod_cast hzero
  · have hu : (0 : ℝ) < 2 ^ f.ulp K 0 := zpow_pos two_pos _
    have hq : f.ulp K 0 ≤ 0 := by
      have hlog : Nat.log2 K ≤ f.man := by
        rw [← Nat.lt_succ_iff, Nat.log2_lt h0]
        exact hK.trans_lt (Nat.pow_lt_pow_right (by decide) (Nat.lt_succ_self _))
      have hman := hs.man
      unfold Fmt.ulp Fmt.emin
      omega
    have hmult : (K : ℝ) * 2 ^ (0 : Int) = (K * 2 ^ (-f.ulp K 0).toNat : ℕ) * 2 ^ f.ulp K 0 := by
      push_cast
      rw [mul_assoc, ← zpow_natCast, ← zpow_add₀ two_ne_zero]
      congr 2
      omega
    have hvalue : f.value (f.roundCode .rne neg K 0) = K := by
      rw [value_roundCode f .rne neg h0, (roundAt_rounds .rne neg K 0 (f.ulp K 0)).1.eq_of_multiple hu hmult, ← hmult, zpow_zero, mul_one]
    have hle : f.roundCode .rne neg K 0 ≤ f.largest := by
      rw [← f.value_strictMono.le_iff_le, hvalue]
      exact le_trans (by exact_mod_cast hK) (two_pow_man_le_largest hf)
    rw [round_eq f .rne false neg h0, if_pos hle, ← hvalue]
    exact unpack_signed f hs neg hle

theorem signedReal_abs {X : Num} (hX : X.isFin = true) : X.toReal = signedReal X.neg |X.toReal| := by
  obtain ⟨n, m, e, rfl⟩ := isFin_iff.1 hX
  rw [abs_toReal_fin, toReal_fin]
  rfl

/-- FRND of a finite number: the integral value by the mode, with the number's sign, and no flag (R99). -/
theorem rnd_rounds {f : Fmt} (hf : f ∈ arithFmts) (rm : Rm) {x : Nat} (hx : (f.unpack x).isFin = true) :
    ∃ k : ℤ, IntRounds rm (f.unpack x).toReal k ∧ (f.unpack (f.rnd rm x).1).isFin = true ∧
      (f.unpack (f.rnd rm x).1).toReal = k ∧ (f.unpack (f.rnd rm x).1).neg = (f.unpack x).neg ∧ (f.rnd rm x).2 = 0 := by
  obtain ⟨a, m, e, hX⟩ := isFin_iff.1 hx
  have hr : (0 : ℝ) ≤ m * 2 ^ e := by positivity
  have hround : RoundsReal rm a (m * 2 ^ e) 1 (roundAt rm a m e 0).1 := by simpa using (roundAt_rounds rm a m e 0).1
  have hint := hround.int hr
  rw [← toReal_fin] at hint
  refine ⟨signedInt a (roundAt rm a m e 0).1, by rw [hX]; exact hint, ?_⟩
  rw [rnd_fin hX, signedInt_cast]
  by_cases he : 0 ≤ e
  · rw [if_pos he]
    have hwhole : (m : ℝ) * 2 ^ e = (m * 2 ^ e.toNat : ℕ) * 1 := by
      push_cast
      rw [← zpow_natCast, Int.toNat_of_nonneg he, mul_one]
    refine ⟨hx, ?_, rfl, rfl⟩
    rw [hround.eq_of_multiple one_pos hwhole, hX, toReal_fin, hwhole, mul_one]
  · rw [if_neg he]
    have hsmall : (m : ℝ) * 2 ^ e < (2 ^ f.man : ℕ) * 1 := by
      have hm : m < 2 ^ (f.man + 1) := by
        rcases unpack_fin f hX with ⟨h, _⟩ | ⟨_, h, _⟩
        · exact h.trans (Nat.pow_lt_pow_right (by decide) (Nat.lt_succ_self _))
        · exact h
      calc (m : ℝ) * 2 ^ e < (2 ^ (f.man + 1) : ℕ) * 2 ^ e := mul_lt_mul_of_pos_right (by exact_mod_cast hm) (zpow_pos two_pos _)
        _ ≤ (2 ^ (f.man + 1) : ℕ) * 2 ^ (-1 : Int) :=
          mul_le_mul_of_nonneg_left (zpow_le_zpow_right₀ one_le_two (by omega)) (Nat.cast_nonneg _)
        _ = (2 ^ f.man : ℕ) * 1 := by
          push_cast
          rw [pow_succ, zpow_neg_one]
          ring
    obtain ⟨hfin, habs, hneg⟩ := round_whole hf a (hround.le_of_lt one_pos hsmall)
    refine ⟨hfin, ?_, by rw [hX]; exact hneg, rfl⟩
    rw [signedReal_abs hfin, habs, hneg]

/-! ### The operands that are not rounded as ordinary numbers (R92 to R95, R98, R99) -/

section
variable {f : Fmt} {o : FOp} {x y z : Nat}

/-- FMIN and FMAX with a NaN as the first operand. -/
theorem pick_nan_first (h : (f.unpack x).isNan = true) :
    f.pick false x y = (if (f.unpack y).isNan then f.canon else y, if (f.unpack x).isSnan || (f.unpack y).isSnan then 16#6 else 0#6) ∧
      f.pick true x y = f.pick false x y := by
  unfold Fmt.pick
  dsimp only
  rw [h]
  cases (f.unpack y).isNan <;> exact ⟨rfl, rfl⟩

/-- FMIN and FMAX of a number and a NaN give the number. -/
theorem pick_nan_second (hx : (f.unpack x).isNan = false) (hy : (f.unpack y).isNan = true) (max : Bool) :
    f.pick max x y = (x, if (f.unpack x).isSnan || (f.unpack y).isSnan then 16#6 else 0#6) := by
  unfold Fmt.pick
  dsimp only
  rw [hx, hy]
  rfl

/-- FFMA's product 0 · ∞. -/
theorem fma_zero_inf (hz : (f.unpack z).isNan = false) {n : Bool}
    (h : (f.unpack x = .inf n ∧ (f.unpack y).isZero = true) ∨ ((f.unpack x).isZero = true ∧ f.unpack y = .inf n)) :
    f.fma o x y z = (f.canon, 16) := by
  rcases h with ⟨hx, hy⟩ | ⟨hx, hy⟩
  · obtain ⟨k, e, hy⟩ := isZero_iff.1 hy
    rw [fma_number hx hy rfl rfl rfl hz]
    rfl
  · obtain ⟨k, e, hx⟩ := isZero_iff.1 hx
    rw [fma_number hx hy rfl rfl rfl hz]
    rfl

/-- The product of an infinity and a number that is no zero is an infinity. -/
theorem product_inf {X Y : Num} {a : Bool} (hX : X = .inf a) (hn : Y.isNan = false) (hz : Y.isZero = false) :
    zeroInf X Y = false ∧ product X Y = .inf (a != Y.neg) ∧ zeroInf Y X = false ∧ product Y X = .inf (a != Y.neg) := by
  subst hX
  rcases nonzero_cases hn hz with h | ⟨m, e, h, hm⟩
  · rw [h]
    exact ⟨rfl, rfl, rfl, congrArg Num.inf (bne_comm ..)⟩
  · rw [h]
    exact ⟨by simpa [zeroInf] using hm, rfl, by simpa [zeroInf] using hm, congrArg Num.inf (bne_comm ..)⟩

/-- FFMA's ∞ − ∞. -/
theorem fma_inf_inf {a : Bool}
    (h : (f.unpack x = .inf a ∧ (f.unpack y).isNan = false ∧ (f.unpack y).isZero = false ∧ f.unpack z = .inf (a == (f.unpack y).neg))
      ∨ (f.unpack y = .inf a ∧ (f.unpack x).isNan = false ∧ (f.unpack x).isZero = false ∧ f.unpack z = .inf (a == (f.unpack x).neg))) :
    f.fma o x y z = (f.canon, 16) := by
  have key (b : Bool) : f.sum o (.inf (a != b)) (.inf (a == b)) = (f.canon, 16) := by cases a <;> cases b <;> rfl
  rcases h with ⟨hx, hn, h0, hz⟩ | ⟨hy, hn, h0, hz⟩
  · obtain ⟨hzi, hp, _, _⟩ := product_inf hx hn h0
    rw [fma_number rfl rfl hz (by rw [hx]; rfl) hn rfl, hzi, hp]
    exact key _
  · obtain ⟨_, _, hzi, hp⟩ := product_inf hy hn h0
    rw [fma_number rfl rfl hz hn (by rw [hy]; rfl) rfl, hzi, hp]
    exact key _

/-- A sum with one infinity, a quotient with one, and FFMA with an infinite addend. -/
theorem inf_fin {a : Bool} (hx : f.unpack x = .inf a) (hy : (f.unpack y).isFin = true) :
    f.add o x y = (f.signed a f.top, 0) ∧ f.add o y x = (f.signed a f.top, 0)
      ∧ f.sub o x y = (f.signed a f.top, 0) ∧ f.sub o y x = (f.signed (!a) f.top, 0)
      ∧ f.div o x y = (f.signed (a != (f.unpack y).neg) f.top, 0) ∧ f.div o y x = (f.signed ((f.unpack y).neg != a) 0, 0)
      ∧ ((f.unpack z).isFin = true → f.fma o y z x = (f.signed a f.top, 0)) := by
  obtain ⟨n, m, e, hy⟩ := isFin_iff.1 hy
  rw [add_number hx hy rfl rfl, add_number hy hx rfl rfl, sub_number hx hy rfl rfl, sub_number hy hx rfl rfl, div_inf_fin hx hy,
    div_fin_inf hy hx, hy]
  refine ⟨rfl, rfl, rfl, rfl, rfl, rfl, fun hz => ?_⟩
  obtain ⟨k, p, q, hz⟩ := isFin_iff.1 hz
  rw [fma_number hy hz hx rfl rfl rfl]
  rfl

/-- A product with an infinity that is valid. -/
theorem inf_mul {a : Bool} (hx : f.unpack x = .inf a) (hn : (f.unpack y).isNan = false) (h0 : (f.unpack y).isZero = false) :
    f.mul o x y = (f.signed (a != (f.unpack y).neg) f.top, 0) ∧ f.mul o y x = (f.signed (a != (f.unpack y).neg) f.top, 0)
      ∧ ((f.unpack z).isFin = true ∨ f.unpack z = .inf (a != (f.unpack y).neg) →
        f.fma o x y z = (f.signed (a != (f.unpack y).neg) f.top, 0) ∧ f.fma o y x z = (f.signed (a != (f.unpack y).neg) f.top, 0)) := by
  obtain ⟨hzi, hp, hzi', hp'⟩ := product_inf hx hn h0
  have hxn : (f.unpack x).isNan = false := by rw [hx]; rfl
  rw [mul_number rfl rfl hxn hn, mul_number rfl rfl hn hxn, hzi, hzi', hp, hp']
  refine ⟨rfl, rfl, fun hz => ?_⟩
  have hsum : f.sum o (.inf (a != (f.unpack y).neg)) (f.unpack z) = (f.signed (a != (f.unpack y).neg) f.top, 0) := by
    rcases hz with hz | hz
    · obtain ⟨k, p, q, hz⟩ := isFin_iff.1 hz
      rw [hz]
      rfl
    · rw [hz]
      exact if_pos rfl
  have hzn : (f.unpack z).isNan = false := by
    rcases hz with hz | hz
    · exact not_nan_of_isFin hz
    · rw [hz]; rfl
  rw [fma_number rfl rfl rfl hxn hn hzn, fma_number rfl rfl rfl hn hxn hzn, hzi, hzi', hp, hp']
  exact ⟨hsum, hsum⟩

/-- A product and a quotient that are zero. -/
theorem zero_mul_div (hx : (f.unpack x).isZero = true) (hy : (f.unpack y).isFin = true) :
    f.mul o x y = (f.signed ((f.unpack x).neg != (f.unpack y).neg) 0, 0)
      ∧ f.mul o y x = (f.signed ((f.unpack x).neg != (f.unpack y).neg) 0, 0)
      ∧ ((f.unpack y).isZero = false → f.div o x y = (f.signed ((f.unpack x).neg != (f.unpack y).neg) 0, 0)) := by
  obtain ⟨a, e, hx⟩ := isZero_iff.1 hx
  obtain ⟨b, n, k, hy⟩ := isFin_iff.1 hy
  rw [mul_number hx hy rfl rfl, mul_number hy hx rfl rfl, div_fin_fin hx hy, hx, hy]
  refine ⟨?_, ?_, fun hn => ?_⟩
  · show f.round o.rm o.sat (a != b) (0 * n) (e + k + o.scale) = _
    rw [Nat.zero_mul]
    rfl
  · show f.round o.rm o.sat (b != a) (n * 0) (k + e + o.scale) = (f.signed (a != b) 0, 0)
    rw [Nat.mul_zero, bne_comm]
    rfl
  · rw [if_neg (by simpa [Num.isZero] using hn)]
    rfl

/-- The operations on one operand at zero. -/
theorem ops_zero (hf : f ∈ arithFmts) (hx : (f.unpack x).isZero = true) :
    f.rcp o x = (f.signed (f.unpack x).neg f.top, 8) ∧ f.rsq o x = (f.signed (f.unpack x).neg f.top, 8)
      ∧ f.sqrt o x = (f.signed (f.unpack x).neg 0, 0) ∧ f.log2 o x = (f.signed true f.top, 8)
      ∧ f.tanh o x = (f.signed (f.unpack x).neg 0, 0) ∧ f.exp2 o x = (f.bias * 2 ^ f.man, 0) := by
  obtain ⟨a, e, hx⟩ := isZero_iff.1 hx
  have hneg : (f.unpack x).neg = a := by rw [hx]; rfl
  rw [hneg]
  exact ⟨rcp_fin hx, rsq_zero hx, sqrt_zero hx, log2_zero hx, tanh_zero hx, exp2_zero hf hx⟩

/-- The roots and the logarithm of a negative number. -/
theorem ops_negative (hn : (f.unpack x).isNan = false) (h0 : (f.unpack x).isZero = false) (hneg : (f.unpack x).neg = true) :
    f.sqrt o x = (f.canon, 16) ∧ f.rsq o x = (f.canon, 16) ∧ f.log2 o x = (f.canon, 16) := by
  rcases nonzero_cases hn h0 with hx | ⟨m, e, hx, hm⟩
  · rw [hneg] at hx
    exact ⟨sqrt_inf hx, rsq_inf hx, log2_inf hx⟩
  · rw [hneg] at hx
    exact ⟨sqrt_negative hx hm, rsq_negative hx hm, log2_negative hx hm⟩

/-- The operations on one operand at an infinity. -/
theorem ops_inf {n : Bool} (hx : f.unpack x = .inf n) :
    f.rcp o x = (f.signed n 0, 0) ∧ f.exp2 o x = (if n then 0 else f.top, 0) ∧ f.tanh o x = (f.signed n (f.bias * 2 ^ f.man), 0)
      ∧ (n = false → f.sqrt o x = (f.top, 0) ∧ f.rsq o x = (0, 0) ∧ f.log2 o x = (f.top, 0)) := by
  refine ⟨rcp_inf hx, exp2_inf hx, tanh_inf hx, fun hn => ?_⟩
  subst hn
  exact ⟨sqrt_inf hx, rsq_inf hx, log2_inf hx⟩

end

/-- Settles O12: the NaN rules stand around each operation (`withNan_first`, `withNan_number`), and the operation has an equation
for each kind of operand. -/
theorem floatSpecialOperands : Obligations.FloatSpecialOperands := by
  intro f o x y z hf X Y nv both
  refine ⟨fun hx => ?_, fun hx hy => ?_, fma_nan_x, fma_nan_y, fma_nan_z, fun hz n h => fma_zero_inf hz h, fun a => fma_inf_inf, fun n hx hy => ?_,
    fun n hx hy => ?_, fun n hx hy => ?_, fun hx hy => ?_, fun hx h0 hy => ?_, ops_zero hf, ops_negative, fun a hx => inf_fin hx,
    fun a hx => ⟨fun hy => ?_, fun hy => ?_⟩, fun a hx => inf_mul hx, zero_mul_div, fun n => rnd_inf, fun hx _ => ?_, fun n => ops_inf⟩
  · obtain ⟨hmin, hmax⟩ := pick_nan_first (y := y) hx
    exact ⟨withNan2_left hx, withNan2_left hx, withNan2_left hx, withNan2_left hx, withNan1 hx, withNan1 hx, withNan1 hx, withNan1 hx,
      withNan1 hx, withNan1 hx, withNan1 hx, hmin, hmax⟩
  · exact ⟨withNan2_right hx hy, withNan2_right hx hy, withNan2_right hx hy, withNan2_right hx hy, pick_nan_second hx hy false,
      pick_nan_second hx hy true⟩
  · rw [add_number hx hy rfl rfl]
    cases n <;> rfl
  · rw [sub_number hx hy rfl rfl, div_inf_inf hx hy]
    cases n <;> exact ⟨rfl, rfl⟩
  · obtain ⟨k, e, hy⟩ := isZero_iff.1 hy
    rw [mul_number hx hy rfl rfl, mul_number hy hx rfl rfl]
    exact ⟨rfl, rfl⟩
  · obtain ⟨a, e, hx⟩ := isZero_iff.1 hx
    obtain ⟨b, k, hy⟩ := isZero_iff.1 hy
    exact div_fin_fin hx hy
  · obtain ⟨a, m, e, hx⟩ := isFin_iff.1 hx
    obtain ⟨b, k, hy⟩ := isZero_iff.1 hy
    have hm : m ≠ 0 := by simpa [X, hx, Num.isZero] using h0
    have hsign : (X.neg != Y.neg) = (a != b) := by simp only [X, Y, hx, hy, Num.neg]
    rw [div_fin_fin hx hy, if_pos rfl, if_neg hm, hsign]
    rfl
  · rw [add_number hx hy rfl rfl]
    exact if_pos rfl
  · rw [sub_number hx hy rfl rfl, Num.flip, Bool.not_not]
    exact if_pos rfl
  · obtain ⟨k, hk⟩ := rnd_rounds hf o.rm hx
    exact ⟨k, hk⟩

end Sys2Proof.Machine
end

section
/-!
SUPPORT and PROOFS. Float arithmetic on finite operands is one rounding of the exact result (R76, R92, R94, R98).
-/

namespace Sys2Proof.Machine

/-! ### One rounding -/

/-- A rounding of a number itself. -/
theorem roundsTo_exact (f : Fmt) (rm : Rm) (sat : Bool) {neg : Bool} {m : Nat} {e : Int} {x : ℝ} (hx : |x| = m * 2 ^ e)
    (hneg : neg = decide (x < 0)) : f.roundsTo rm sat x (f.round rm sat neg m e) :=
  ⟨m, e, .inl hx.symm, by rw [hneg]⟩

/-- A number that lies between a whole number `r` of units and the next, with a sticky bit for what it has beyond `r`. -/
theorem standsFor_sticky {p r : Nat} {e : Int} {x y : ℝ} (hx : x = y * 2 ^ (e + 1)) (hlow : r ≤ y) (hhigh : y < r + 1)
    {exact : Prop} [Decidable exact] (hexact : exact ↔ y = r) (hr : 2 ^ (p + 2) ≤ 2 * r) :
    standsFor p (2 * r + if exact then 0 else 1) e x := by
  have hu : (0 : ℝ) < 2 ^ e := zpow_pos two_pos e
  have hx' : x = 2 * y * 2 ^ e := by
    rw [hx, zpow_add_one₀ two_ne_zero]
    ring
  by_cases h : exact
  · left
    rw [if_pos h, hx', hexact.1 h]
    push_cast
    ring
  · right
    have hne : (r : ℝ) < y := lt_of_le_of_ne hlow fun e => h (hexact.2 e.symm)
    rw [if_neg h, hx']
    refine ⟨by omega, by omega, ?_, ?_⟩
    · push_cast
      exact mul_lt_mul_of_pos_right (by linarith) hu
    · push_cast
      exact mul_lt_mul_of_pos_right (by linarith) hu

theorem sign_scaled {x s : ℝ} (hs : 0 < s) : decide (x * s < 0) = decide (x < 0) := by
  rw [decide_eq_decide]
  exact ⟨fun h => by by_contra hn; exact absurd h (not_lt.2 (mul_nonneg (not_lt.1 hn) hs.le)), fun h => mul_neg_of_neg_of_pos h hs⟩

theorem two_zpow_pos (n : Int) : (0 : ℝ) < 2 ^ n := zpow_pos two_pos n

theorem two_zpow_add (a b : Int) : (2 : ℝ) ^ (a + b) = 2 ^ a * 2 ^ b := zpow_add₀ two_ne_zero a b

/-! ### Sums (R94) -/

/-- The whole numbers of the common unit that a sum adds. -/
def scaledInt (n : Bool) (m : Nat) (e q : Int) : ℤ := if n then -((m * 2 ^ (e - q).toNat : Nat) : Int) else (m * 2 ^ (e - q).toNat : Nat)

theorem sum_fin_fin (f : Fmt) (o : FOp) (a b : Bool) (m n : Nat) (e k : Int) :
    f.sum o (.fin a m e) (.fin b n k) =
      if scaledInt a m e (min e k) + scaledInt b n k (min e k) = 0 then (f.signed (if m = 0 ∧ n = 0 ∧ a = b then a else o.rm == .rdn) 0, 0)
      else f.round o.rm o.sat (decide (scaledInt a m e (min e k) + scaledInt b n k (min e k) < 0))
        (scaledInt a m e (min e k) + scaledInt b n k (min e k)).natAbs (min e k + o.scale) := rfl

theorem sum_scaled (a b : Bool) (m n : Nat) (e k : Int) : (Num.fin a m e).toReal + (Num.fin b n k).toReal =
    ((scaledInt a m e (min e k) + scaledInt b n k (min e k) : ℤ) : ℝ) * 2 ^ min e k := by
  rw [toReal_scaled a m (min_le_left e k), toReal_scaled b n (min_le_right e k), ← add_mul, ← Int.cast_add]
  rfl

/-- A sum that is not zero is rounded once. -/
theorem sum_rounds (f : Fmt) (o : FOp) {X Y : Num} (hX : X.isFin = true) (hY : Y.isFin = true) (h : X.toReal + Y.toReal ≠ 0) :
    f.roundsTo o.rm o.sat ((X.toReal + Y.toReal) * 2 ^ o.scale) (f.sum o X Y) := by
  obtain ⟨a, m, e, rfl⟩ := isFin_iff.1 hX
  obtain ⟨b, n, k, rfl⟩ := isFin_iff.1 hY
  rw [sum_fin_fin]
  rw [sum_scaled] at h ⊢
  generalize scaledInt a m e (min e k) + scaledInt b n k (min e k) = v at h ⊢
  have hv : v ≠ 0 := fun hv => h (by rw [hv, Int.cast_zero, zero_mul])
  rw [if_neg hv]
  refine roundsTo_exact f o.rm o.sat ?_ ?_
  · rw [two_zpow_add, mul_assoc, abs_mul, abs_of_pos (mul_pos (two_zpow_pos _) (two_zpow_pos _)), Nat.cast_natAbs, Int.cast_abs]
  · rw [sign_scaled (two_zpow_pos _), sign_scaled (two_zpow_pos _), decide_eq_decide, Int.cast_lt_zero]

/-- A sum of numbers that cancel: +0, or −0 under RDN. -/
theorem sum_cancels (f : Fmt) (o : FOp) {X Y : Num} (hX : X.isFin = true) (hY : Y.isFin = true) (h : X.toReal + Y.toReal = 0)
    (h0 : X.toReal ≠ 0) : f.sum o X Y = (f.signed (o.rm == .rdn) 0, 0) := by
  obtain ⟨a, m, e, rfl⟩ := isFin_iff.1 hX
  obtain ⟨b, n, k, rfl⟩ := isFin_iff.1 hY
  have hm : m ≠ 0 := by
    rintro rfl
    exact h0 (by simp [Num.toReal])
  rw [sum_scaled] at h
  have hv : scaledInt a m e (min e k) + scaledInt b n k (min e k) = 0 := by
    exact_mod_cast (mul_eq_zero.1 h).resolve_right (two_zpow_pos _).ne'
  rw [sum_fin_fin, if_pos hv, if_neg fun hc => hm hc.1]

theorem flip_toReal (X : Num) : X.flip.toReal = -X.toReal := by
  cases X with
  | nan | inf => simp [Num.flip, Num.toReal]
  | fin n m e => cases n <;> simp [Num.flip, Num.toReal]

theorem flip_isFin {X : Num} (h : X.isFin = true) : X.flip.isFin = true := by
  obtain ⟨n, m, e, rfl⟩ := isFin_iff.1 h
  rfl

/-! ### Products (R94) -/

theorem product_fin {X Y : Num} (hX : X.isFin = true) (hY : Y.isFin = true) :
    zeroInf X Y = false ∧ (product X Y).isFin = true ∧ (product X Y).toReal = X.toReal * Y.toReal := by
  obtain ⟨a, m, e, rfl⟩ := isFin_iff.1 hX
  obtain ⟨b, n, k, rfl⟩ := isFin_iff.1 hY
  refine ⟨rfl, rfl, ?_⟩
  show (Num.fin (a != b) (m * n) (e + k)).toReal = _
  rw [Num.toReal, two_zpow_add]
  cases a <;> cases b <;> simp [Num.toReal] <;> ring

theorem fin_sign {n : Bool} {m : Nat} {e : Int} (h : (Num.fin n m e).toReal ≠ 0) : n = decide ((Num.fin n m e).toReal < 0) := by
  have hm : (0 : ℝ) ≤ m * 2 ^ e := by positivity
  rw [toReal_fin] at h ⊢
  cases n with
  | false => simpa [signedReal] using hm
  | true =>
    have hne : (m : ℝ) * 2 ^ e ≠ 0 := by simpa [signedReal] using h
    simpa [signedReal] using lt_of_le_of_ne hm hne.symm

/-- A finite number that is not zero is rounded once, with SCALE. -/
theorem ofNum_rounds (f : Fmt) (o : FOp) {X : Num} (hX : X.isFin = true) (h : X.toReal ≠ 0) :
    f.roundsTo o.rm o.sat (X.toReal * 2 ^ o.scale) (f.ofNum o X) := by
  obtain ⟨n, m, e, rfl⟩ := isFin_iff.1 hX
  refine roundsTo_exact f o.rm o.sat ?_ ?_
  · rw [two_zpow_add, ← mul_assoc, abs_mul, abs_of_pos (two_zpow_pos o.scale), abs_toReal_fin]
  · rw [sign_scaled (two_zpow_pos _)]
    exact fin_sign h

/-! ### Quotients (R94, R98) -/

/-- `ratio` stands for its quotient in a rounding to `p` bits. -/
theorem ratio_standsFor {p bits num den : Nat} {e : Int} (hnum : num ≠ 0) (hden : den ≠ 0) (hp : p + 1 ≤ bits) :
    standsFor p (ratio bits num den e).1 (ratio bits num den e).2 (num / den * 2 ^ e) := by
  have hden' : (0 : ℝ) < den := by exact_mod_cast Nat.pos_of_ne_zero hden
  unfold ratio
  dsimp only
  generalize hk : bits + Nat.log2 den + 1 - Nat.log2 num = k
  have hlow := Nat.div_mul_le_self (num * 2 ^ k) den
  have hhigh := Nat.lt_div_mul_add (a := num * 2 ^ k) (Nat.pos_of_ne_zero hden)
  refine standsFor_sticky (y := (num * 2 ^ k : ℕ) / den) ?_ ?_ ?_ ?_ ?_
  · have hexp : e - k - 1 + 1 = e - k := by ring
    rw [hexp, zpow_sub₀ two_ne_zero, zpow_natCast]
    push_cast
    field_simp
  · rw [le_div_iff₀ hden']
    exact_mod_cast hlow
  · rw [div_lt_iff₀ hden', add_mul, one_mul]
    exact_mod_cast hhigh
  · rw [eq_comm (b := ((num * 2 ^ k / den : ℕ) : ℝ)), eq_div_iff hden'.ne', ← Nat.dvd_iff_mod_eq_zero]
    rw [Nat.dvd_iff_div_mul_eq]
    exact_mod_cast Iff.rfl
  · have hbits : 2 ^ bits * den ≤ num * 2 ^ k := calc
      2 ^ bits * den ≤ 2 ^ bits * 2 ^ (Nat.log2 den + 1) := Nat.mul_le_mul_left _ Nat.lt_log2_self.le
      _ = 2 ^ (bits + Nat.log2 den + 1) := by rw [← Nat.pow_add]; rfl
      _ ≤ 2 ^ (Nat.log2 num + k) := Nat.pow_le_pow_right (by decide) (by omega)
      _ = 2 ^ Nat.log2 num * 2 ^ k := Nat.pow_add ..
      _ ≤ num * 2 ^ k := Nat.mul_le_mul_right _ (Nat.log2_self_le hnum)
    calc 2 ^ (p + 2) = 2 * 2 ^ (p + 1) := Nat.pow_succ' ..
      _ ≤ 2 * 2 ^ bits := Nat.mul_le_mul_left _ (Nat.pow_le_pow_right (by decide) hp)
      _ ≤ 2 * (num * 2 ^ k / den) := Nat.mul_le_mul_left _ ((Nat.le_div_iff_mul_le (Nat.pos_of_ne_zero hden)).2 hbits)

/-- A scale moves the exponent. -/
theorem standsFor.scale {p m : Nat} {e : Int} {x : ℝ} (h : standsFor p m e x) (s : Int) : standsFor p m (e + s) (x * 2 ^ s) := by
  have hs := two_zpow_pos s
  have hassoc (a : ℝ) : a * 2 ^ (e + s) = a * 2 ^ e * 2 ^ s := by rw [two_zpow_add, mul_assoc]
  rcases h with h | ⟨hodd, hlen, h1, h2⟩
  · exact .inl (by rw [hassoc, h])
  · refine .inr ⟨hodd, hlen, ?_, ?_⟩
    · rw [hassoc]
      exact mul_lt_mul_of_pos_right h1 hs
    · rw [hassoc]
      exact mul_lt_mul_of_pos_right h2 hs

/-! ### Square roots (R98) -/

/-- From bit `k` downwards a root whose square is at most `n` becomes the square root. -/
theorem isqrtFrom_eq (n k r : Nat) (hlow : r * r ≤ n) (hhigh : n < (r + 2 ^ k) * (r + 2 ^ k)) : isqrtFrom n k r = Nat.sqrt n := by
  induction k generalizing r with
  | zero => exact Nat.eq_sqrt.2 ⟨hlow, hhigh⟩
  | succ k ih =>
    unfold isqrtFrom
    dsimp only
    by_cases h : (r + 2 ^ k) * (r + 2 ^ k) ≤ n
    · rw [if_pos h]
      refine ih _ h ?_
      rwa [Nat.add_assoc, ← Nat.two_mul, ← Nat.pow_succ']
    · rw [if_neg h]
      exact ih r hlow (not_le.1 h)

theorem isqrt_eq (n : Nat) : isqrt n = Nat.sqrt n := by
  refine isqrtFrom_eq n _ 0 (Nat.zero_le n) ?_
  rw [Nat.zero_add, ← Nat.pow_add]
  exact Nat.lt_log2_self.trans_le (Nat.pow_le_pow_right (by decide) (by omega))

/-- The value of a positive number as an even power of two above a whole number. -/
theorem even_exponent (m : Nat) (e : Int) :
    (m : ℝ) * 2 ^ e = (m * 2 ^ (e % 2).toNat : ℕ) * (2 ^ ((e - (e % 2).toNat) / 2)) ^ 2 := by
  have hexp : e = (e % 2).toNat + ((e - (e % 2).toNat) / 2 + (e - (e % 2).toNat) / 2) := by omega
  conv_lhs => rw [hexp, two_zpow_add, two_zpow_add, zpow_natCast]
  push_cast
  ring

theorem sqrt_value (m : Nat) (e : Int) :
    Real.sqrt (m * 2 ^ e) = Real.sqrt (m * 2 ^ (e % 2).toNat : ℕ) * 2 ^ ((e - (e % 2).toNat) / 2) := by
  rw [even_exponent, Real.sqrt_mul (Nat.cast_nonneg _), Real.sqrt_sq (two_zpow_pos _).le]

/-- The square root of a whole number with a sticky bit stands for the root. -/
theorem isqrt_standsFor {p n : Nat} {e : Int} (h : 2 ^ (p + 1) * 2 ^ (p + 1) ≤ n) :
    standsFor p (2 * isqrt n + if isqrt n * isqrt n = n then 0 else 1) e (Real.sqrt n * 2 ^ (e + 1)) := by
  rw [isqrt_eq]
  refine standsFor_sticky rfl (Real.nat_sqrt_le_real_sqrt) (Real.real_sqrt_lt_nat_sqrt_succ) ?_ ?_
  · rw [Real.sqrt_eq_iff_mul_self_eq (Nat.cast_nonneg _) (Nat.cast_nonneg _), eq_comm]
    exact_mod_cast Iff.rfl
  · rw [Nat.pow_succ']
    exact Nat.mul_le_mul_left _ (Nat.le_sqrt.2 h)

/-- The root of a quotient 4^k / n with a sticky bit stands for 2^k / √n. -/
theorem isqrt_div_standsFor {p n k : Nat} {e : Int} (hn : n ≠ 0) (h : 2 ^ (p + 1) * 2 ^ (p + 1) * n ≤ 4 ^ k) :
    standsFor p (2 * isqrt (4 ^ k / n) + if isqrt (4 ^ k / n) * isqrt (4 ^ k / n) * n = 4 ^ k then 0 else 1) e
      (Real.sqrt (4 ^ k / n) * 2 ^ (e + 1)) := by
  have hpos := Nat.pos_of_ne_zero hn
  have hpos' : (0 : ℝ) < n := by exact_mod_cast hpos
  rw [isqrt_eq]
  generalize hr : Nat.sqrt (4 ^ k / n) = r
  have hlow : r * r * n ≤ 4 ^ k := by
    rw [← Nat.le_div_iff_mul_le hpos, ← hr]
    exact Nat.sqrt_le _
  have hhigh : 4 ^ k < (r + 1) * (r + 1) * n := by
    rw [← Nat.div_lt_iff_lt_mul hpos, ← hr]
    exact Nat.lt_succ_sqrt _
  have hq : (0 : ℝ) ≤ 4 ^ k / n := by positivity
  refine standsFor_sticky rfl ?_ ?_ ?_ ?_
  · refine Real.le_sqrt_of_sq_le ?_
    rw [le_div_iff₀ hpos', sq]
    exact_mod_cast hlow
  · rw [Real.sqrt_lt' (by positivity), div_lt_iff₀ hpos', sq]
    exact_mod_cast hhigh
  · rw [Real.sqrt_eq_iff_mul_self_eq hq (Nat.cast_nonneg _), eq_comm (a := (4 ^ k / n : ℝ)), eq_div_iff hpos'.ne']
    exact_mod_cast Iff.rfl
  · rw [Nat.pow_succ', ← hr]
    exact Nat.mul_le_mul_left _ (Nat.le_sqrt.2 ((Nat.le_div_iff_mul_le hpos).2 h))

/-! ### Each operation (R92, R94, R98) -/

section
variable {f : Fmt} {o : FOp} {x y z : Nat}

theorem add_fin (hx : (f.unpack x).isFin = true) (hy : (f.unpack y).isFin = true) : f.add o x y = f.sum o (f.unpack x) (f.unpack y) :=
  add_number rfl rfl (not_nan_of_isFin hx) (not_nan_of_isFin hy)

theorem sub_fin (hx : (f.unpack x).isFin = true) (hy : (f.unpack y).isFin = true) :
    f.sub o x y = f.sum o (f.unpack x) (f.unpack y).flip :=
  sub_number rfl rfl (not_nan_of_isFin hx) (not_nan_of_isFin hy)

theorem mul_fin (hx : (f.unpack x).isFin = true) (hy : (f.unpack y).isFin = true) :
    f.mul o x y = f.ofNum o (product (f.unpack x) (f.unpack y)) := by
  rw [mul_number rfl rfl (not_nan_of_isFin hx) (not_nan_of_isFin hy), (product_fin hx hy).1]
  rfl

theorem fma_fin (hx : (f.unpack x).isFin = true) (hy : (f.unpack y).isFin = true) (hz : (f.unpack z).isFin = true) :
    f.fma o x y z = f.sum o (product (f.unpack x) (f.unpack y)) (f.unpack z) := by
  rw [fma_number rfl rfl rfl (not_nan_of_isFin hx) (not_nan_of_isFin hy) (not_nan_of_isFin hz), (product_fin hx hy).1]
  rfl

theorem significand_ne_zero {n : Bool} {m : Nat} {e : Int} (h : (Num.fin n m e).toReal ≠ 0) : m ≠ 0 := by
  rintro rfl
  exact h (by simp [Num.toReal])

theorem decide_neg_mul {a b : ℝ} (ha : a ≠ 0) (hb : b ≠ 0) : decide (a * b < 0) = (decide (a < 0) != decide (b < 0)) := by
  rcases lt_or_gt_of_ne ha with h | h <;> rcases lt_or_gt_of_ne hb with k | k
  · simp [h, k, (mul_pos_of_neg_of_neg h k).le]
  · simp [h, k.le, mul_neg_of_neg_of_pos h k]
  · simp [h.le, k, mul_neg_of_pos_of_neg h k]
  · simp [not_lt.2 h.le, not_lt.2 k.le, not_lt.2 (mul_pos h k).le]

theorem decide_neg_inv (b : ℝ) : decide (b⁻¹ < 0) = decide (b < 0) := by rw [decide_eq_decide, inv_lt_zero]

/-- A rounding of what stands for a number. -/
theorem roundsTo_of_standsFor {rm : Rm} {sat neg : Bool} {m : Nat} {e : Int} {r : ℝ} (hs : standsFor (f.man + 1) m e |r|)
    (hneg : neg = decide (r < 0)) : f.roundsTo rm sat r (f.round rm sat neg m e) :=
  ⟨m, e, hs, by rw [hneg]⟩

/-- A quotient is rounded once. -/
theorem div_rounds (hx : (f.unpack x).isFin = true) (hy : (f.unpack y).isFin = true) (hX : (f.unpack x).toReal ≠ 0)
    (hY : (f.unpack y).toReal ≠ 0) :
    f.roundsTo o.rm o.sat ((f.unpack x).toReal / (f.unpack y).toReal * 2 ^ o.scale) (f.div o x y) := by
  obtain ⟨a, m, e, hx⟩ := isFin_iff.1 hx
  obtain ⟨b, n, k, hy⟩ := isFin_iff.1 hy
  rw [hx] at hX ⊢
  rw [hy] at hY ⊢
  have hm := significand_ne_zero hX
  have hn := significand_ne_zero hY
  rw [div_fin_fin hx hy, if_neg hn, if_neg hm]
  refine roundsTo_of_standsFor ?_ ?_
  · have hval : |(Num.fin a m e).toReal / (Num.fin b n k).toReal * 2 ^ o.scale| = m / n * 2 ^ (e - k) * 2 ^ o.scale := by
      rw [abs_mul, abs_div, abs_toReal_fin, abs_toReal_fin, abs_of_pos (two_zpow_pos o.scale), zpow_sub₀ two_ne_zero, mul_div_mul_comm]
    rw [hval]
    exact (ratio_standsFor hm hn (by omega)).scale o.scale
  · rw [sign_scaled (two_zpow_pos _), div_eq_mul_inv, decide_neg_mul hX (inv_ne_zero hY), decide_neg_inv, ← fin_sign hX, ← fin_sign hY]

/-- A reciprocal is rounded once. -/
theorem rcp_rounds (hx : (f.unpack x).isFin = true) (hX : (f.unpack x).toReal ≠ 0) :
    f.roundsTo o.rm o.sat (1 / (f.unpack x).toReal * 2 ^ o.scale) (f.rcp o x) := by
  obtain ⟨a, m, e, hx⟩ := isFin_iff.1 hx
  rw [hx] at hX ⊢
  have hm := significand_ne_zero hX
  rw [rcp_fin hx, if_neg hm]
  refine roundsTo_of_standsFor ?_ ?_
  · have hval : |1 / (Num.fin a m e).toReal * 2 ^ o.scale| = (1 : ℕ) / m * 2 ^ (-e) * 2 ^ o.scale := by
      rw [abs_mul, abs_div, abs_one, abs_toReal_fin, abs_of_pos (two_zpow_pos o.scale), zpow_neg, Nat.cast_one, one_div, one_div, mul_inv]
    rw [hval]
    exact (ratio_standsFor one_ne_zero hm (by omega)).scale o.scale
  · rw [sign_scaled (two_zpow_pos _), one_div, decide_neg_inv, ← fin_sign hX]

theorem sqrt_pos_fin {m : Nat} {e : Int} (hx : f.unpack x = .fin false m e) (hm : m ≠ 0) :
    f.sqrt o x =
      let n := m * 2 ^ (e % 2).toNat * 4 ^ (f.man + 4)
      f.round o.rm o.sat false (2 * isqrt n + if isqrt n * isqrt n = n then 0 else 1)
        ((e - (e % 2).toNat) / 2 - (f.man + 4) - 1 + o.scale) := by
  unfold Fmt.sqrt
  rw [withNan1_number (by rw [hx]; rfl), hx]
  exact if_neg hm

theorem rsq_pos_fin {m : Nat} {e : Int} (hx : f.unpack x = .fin false m e) (hm : m ≠ 0) :
    f.rsq o x =
      let n := m * 2 ^ (e % 2).toNat
      let k := f.man + 4 + Nat.log2 n
      f.round .rne o.sat false (2 * isqrt (4 ^ k / n) + if isqrt (4 ^ k / n) * isqrt (4 ^ k / n) * n = 4 ^ k then 0 else 1)
        (-(e - (e % 2).toNat) / 2 - k - 1) := by
  unfold Fmt.rsq
  rw [withNan1_number (by rw [hx]; rfl), hx]
  exact if_neg hm

/-- A positive number has no sign bit. -/
theorem fin_of_pos (hx : (f.unpack x).isFin = true) (hX : 0 < (f.unpack x).toReal) :
    ∃ m e, f.unpack x = .fin false m e ∧ m ≠ 0 := by
  obtain ⟨a, m, e, hx⟩ := isFin_iff.1 hx
  rw [hx] at hX
  have ha := fin_sign hX.ne'
  rw [decide_eq_false (not_lt.2 hX.le)] at ha
  exact ⟨m, e, ha ▸ hx, significand_ne_zero hX.ne'⟩

theorem toReal_pos_fin (m : Nat) (e : Int) : (Num.fin false m e).toReal = m * 2 ^ e := by rw [toReal_fin]; rfl

theorem four_pow_eq_sq (k : Nat) : (4 : ℝ) ^ k = (2 ^ k) ^ 2 := by rw [← pow_mul, mul_comm, pow_mul]; norm_num

/-- A square root is rounded once. -/
theorem sqrt_rounds (hx : (f.unpack x).isFin = true) (hX : 0 < (f.unpack x).toReal) :
    f.roundsTo o.rm o.sat (Real.sqrt (f.unpack x).toReal * 2 ^ o.scale) (f.sqrt o x) := by
  obtain ⟨m, e, hx, hm⟩ := fin_of_pos hx hX
  have hpos : 0 ≤ Real.sqrt (f.unpack x).toReal * 2 ^ o.scale := mul_nonneg (Real.sqrt_nonneg _) (two_zpow_pos _).le
  rw [sqrt_pos_fin hx hm]
  refine roundsTo_of_standsFor ?_ (decide_eq_false (not_lt.2 hpos)).symm
  rw [abs_of_nonneg hpos, hx, toReal_pos_fin, sqrt_value]
  generalize (e - (e % 2).toNat) / 2 = t
  have hn : 0 < m * 2 ^ (e % 2).toNat := Nat.mul_pos (Nat.pos_of_ne_zero hm) (by positivity)
  generalize m * 2 ^ (e % 2).toNat = n at hn
  have hroot : Real.sqrt n * 2 ^ t = Real.sqrt (n * 4 ^ (f.man + 4) : ℕ) * 2 ^ (t - (f.man + 4) - 1 + 1) := by
    have hexp : t - (f.man + 4) - 1 + 1 = t - ((f.man + 4 : ℕ) : ℤ) := by push_cast; ring
    rw [hexp, zpow_sub₀ two_ne_zero, zpow_natCast]
    push_cast
    rw [four_pow_eq_sq, Real.sqrt_mul (Nat.cast_nonneg _), Real.sqrt_sq (by positivity)]
    field_simp
  rw [hroot]
  refine (isqrt_standsFor ?_).scale o.scale
  calc 2 ^ (f.man + 1 + 1) * 2 ^ (f.man + 1 + 1) = 4 ^ (f.man + 1 + 1) := by rw [← Nat.mul_pow]
    _ ≤ 4 ^ (f.man + 4) := Nat.pow_le_pow_right (by decide) (by omega)
    _ ≤ n * 4 ^ (f.man + 4) := Nat.le_mul_of_pos_left _ hn

/-- A reciprocal square root is rounded once, to nearest. -/
theorem rsq_rounds (hx : (f.unpack x).isFin = true) (hX : 0 < (f.unpack x).toReal) :
    f.roundsTo .rne o.sat (1 / Real.sqrt (f.unpack x).toReal) (f.rsq o x) := by
  obtain ⟨m, e, hx, hm⟩ := fin_of_pos hx hX
  have hpos : 0 ≤ 1 / Real.sqrt (f.unpack x).toReal := one_div_nonneg.2 (Real.sqrt_nonneg _)
  rw [rsq_pos_fin hx hm]
  refine roundsTo_of_standsFor ?_ (decide_eq_false (not_lt.2 hpos)).symm
  rw [abs_of_nonneg hpos, hx, toReal_pos_fin, sqrt_value]
  have ht : -(e - (e % 2).toNat) / 2 = -((e - (e % 2).toNat) / 2) := by omega
  rw [ht]
  generalize (e - (e % 2).toNat) / 2 = t
  have hn : 0 < m * 2 ^ (e % 2).toNat := Nat.mul_pos (Nat.pos_of_ne_zero hm) (by positivity)
  generalize m * 2 ^ (e % 2).toNat = n at hn
  have hn' : (0 : ℝ) < n := by exact_mod_cast hn
  generalize hk : f.man + 4 + Nat.log2 n = k
  have hroot : 1 / (Real.sqrt n * 2 ^ t) = Real.sqrt (4 ^ k / n) * 2 ^ (-t - (k : ℤ) - 1 + 1) := by
    have hexp : -t - (k : ℤ) - 1 + 1 = -t - (k : ℤ) := by ring
    rw [hexp, zpow_sub₀ two_ne_zero, zpow_natCast, zpow_neg, Real.sqrt_div' _ hn'.le, four_pow_eq_sq, Real.sqrt_sq (by positivity)]
    have := (Real.sqrt_pos.2 hn').ne'
    field_simp
  rw [hroot]
  refine isqrt_div_standsFor hn.ne' ?_
  calc 2 ^ (f.man + 1 + 1) * 2 ^ (f.man + 1 + 1) * n ≤ 2 ^ (f.man + 1 + 1) * 2 ^ (f.man + 1 + 1) * 2 ^ (Nat.log2 n + 1) :=
        Nat.mul_le_mul_left _ Nat.lt_log2_self.le
    _ = 2 ^ (f.man + 1 + 1 + (f.man + 1 + 1) + (Nat.log2 n + 1)) := by rw [← Nat.pow_add, ← Nat.pow_add]
    _ ≤ 2 ^ (2 * k) := Nat.pow_le_pow_right (by decide) (by omega)
    _ = 4 ^ k := Nat.pow_mul ..

end

/-- Settles O10: each operation is the rounding of a number that stands for its exact result. -/
theorem floatResultsRoundOnce : Obligations.FloatResultsRoundOnce := by
  intro f o x y z _ hx hy hz X Y Z S
  obtain ⟨-, hp, hpr⟩ := product_fin hx hy
  refine ⟨fun h => ?_, fun h h0 => ?_, fun h => ?_, fun h => ?_, fun h => ?_, div_rounds hx hy, rcp_rounds hx, sqrt_rounds hx,
    rsq_rounds hx⟩
  · rw [add_fin hx hy]
    exact sum_rounds f o hx hy h
  · rw [add_fin hx hy]
    exact sum_cancels f o hx hy h h0
  · rw [sub_fin hx hy]
    have hflip : X - Y = X + (f.unpack y).flip.toReal := by rw [flip_toReal, sub_eq_add_neg]
    rw [hflip] at h ⊢
    exact sum_rounds f o hx (flip_isFin hy) h
  · rw [mul_fin hx hy]
    rw [← hpr] at h ⊢
    exact ofNum_rounds f o hp h
  · rw [fma_fin hx hy hz]
    rw [← hpr] at h ⊢
    exact sum_rounds f o hp hz h

end Sys2Proof.Machine
end

section
/-!
SUPPORT and PROOFS. Control transfers: branches, indirect calls and returns (R61, R112 to R116).
-/

namespace Sys2Proof.Machine

/-! ### Targets and guards -/

/-- The target of a branch as arithmetic on 48 bits. -/
theorem target_eq (g : Group) (off : BitVec 19) :
    g.target off = (BitVec.ofNat 48 g.header + 4 * off.signExtend 48).toNat := by
  have hoff : off.signExtend 48 = BitVec.ofInt 48 off.toInt := by
    rw [← BitVec.toInt_inj, BitVec.toInt_signExtend_of_le (by decide), BitVec.toInt_ofInt]
    have := off.le_two_mul_toInt
    have := off.two_mul_toInt_lt
    rw [Int.bmod_eq_of_le] <;> omega
  have hsum : BitVec.ofNat 48 g.header + 4 * off.signExtend 48 = BitVec.ofInt 48 (g.header + 4 * off.toInt) := by
    rw [hoff, BitVec.ofInt_add, BitVec.ofInt_mul, BitVec.ofInt_natCast]
    rfl
  rw [hsum, BitVec.toNat_ofInt]
  rfl

theorem takes_iff (e : Env) (h : Thread) (gd : Guard) :
    e.takes h gd = true ↔ gd.en = false ∨ e.pred h gd.pred 63 = gd.sense := by
  simp [Env.takes]

/-- The thread's own view of a group's agreement on a predicate. -/
theorem all_sense_iff (e : Env) (g : Group) (sense : Bool) (p : P3) :
    (e.tm.threads.all fun x => !g.holds x || e.pred x p 63 == sense) = true ↔
      ∀ x ∈ e.tm.threads, g.holds x = true → e.pred x p 63 = sense := by
  simp [List.all_eq_true, imp_iff_not_or]

theorem aligned_iff (x : DWord) : x.toNat % 4 ≠ 0 ↔ ¬x.extractLsb' 0 2 = 0 := by
  rw [not_iff_not, ← BitVec.toNat_inj, BitVec.extractLsb'_toNat]
  rfl

/-! ### Branches (R112, R113, R116) -/

/-- BRA sends each thread whose guard holds to its target. -/
theorem bra_runs {s : State} {g : Group} {rest : List Group} (hg : s.groups = g :: rest) (gd : Guard) (off : BitVec 19) :
    RunsAs (.bra gd off) s g fun e h =>
      if gd.en = false ∨ e.pred h gd.pred 63 = gd.sense then
        { h with pc := (BitVec.ofNat 48 g.header + 4 * off.signExtend 48).toNat }
      else h := by
  have he : exec (.bra gd off) s =
      .next (own .none (fun e th => if e.takes th gd then { th with pc := g.target off } else th) s) := by
    show execBra gd off s = _
    rw [execBra, hg]
  refine runsAs_of_own he rfl hg (fun e h => ?_) (fun e h => ?_)
  · rw [target_eq]
    exact if_congr (takes_iff e h gd) rfl rfl
  · by_cases ht : e.takes h gd = true
    · simp only [if_pos ht]
    · simp only [if_neg ht]

/-- BRC sends the whole group to its target, or none of it. -/
theorem brc_runs {s : State} {g : Group} {rest : List Group} (hg : s.groups = g :: rest) (sense : Bool) (p : P3) (off : BitVec 19) :
    RunsAs (.brc sense p off) s g fun e h =>
      if ∀ x ∈ e.tm.threads, g.holds x = true → e.pred x p 63 = sense then
        { h with pc := (BitVec.ofNat 48 g.header + 4 * off.signExtend 48).toNat }
      else h := by
  have he : exec (.brc sense p off) s = .next (own .none (fun e th =>
      if e.tm.threads.all fun x => !g.holds x || e.pred x p 63 == sense then { th with pc := g.target off } else th) s) := by
    show execBrc sense p off s = _
    rw [execBrc, hg]
  refine runsAs_of_own he rfl hg (fun e h => ?_) (fun e h => ?_)
  · rw [target_eq]
    exact if_congr (all_sense_iff e g sense p) rfl rfl
  · by_cases ht : (e.tm.threads.all fun x => !g.holds x || e.pred x p 63 == sense) = true
    · simp only [if_pos ht]
    · simp only [if_neg ht]

/-- Settles O17: the branches by their guards; REFORM and YIELD mark the threads themselves. -/
theorem branchesSetNextPc : Obligations.BranchesSetNextPc := by
  intro s g rest gd sense p off hg
  exact ⟨bra_runs hg gd off, brc_runs hg sense p off, runsAs_of_own rfl rfl hg (fun _ _ => rfl) (fun _ _ => rfl),
    runsAs_of_own rfl rfl hg (fun _ _ => rfl) (fun _ _ => rfl)⟩

/-! ### Calls and returns (R114, R115) -/

/-- A call pushes the clause that follows, or traps at a full stack. -/
theorem call_eq (s : State) (g : Group) {tm : Team} {tid : Nat} {h : Thread} (hh : tm.thread? tid = some h) (target : Nat) :
    if h.stack.length < 16 then
      s.call g tid h target = s.modThread g.team h.tid fun x =>
        { x with stack := ((g.header + 4 * g.words.length) % 2 ^ 48) :: x.stack, pc := target }
    else s.call g tid h target = s.trap g h.tid (bad .stack 1) := by
  rw [thread?_tid hh]
  by_cases hl : h.stack.length < 16
  · rw [if_pos hl]
    exact if_neg (not_le.2 hl)
  · rw [if_neg hl]
    exact if_pos (not_lt.1 hl)

/-- Settles O18: one thread's transfer at a time. -/
theorem indirectCallsAndReturns : Obligations.IndirectCallsAndReturns := by
  intro s g rest a gd off hg called
  refine ⟨runsEach_of_eachLane (f := State.brxOne a) rfl rfl hg fun s tid tm h ht hh => ?_,
    runsEach_of_eachLane (f := fun s g tid => s.withThread g tid fun _ th e => if e.takes th gd then s.call g tid th (g.target off) else s)
      rfl rfl hg fun s tid tm h ht hh => ?_,
    runsEach_of_eachLane (f := State.callxOne a) rfl rfl hg fun s tid tm h ht hh => ?_,
    runsEach_of_eachLane rfl rfl hg fun s tid tm h ht hh => ?_⟩
  case refine_1 =>
    unfold State.brxOne
    rw [withThread_eq _ ht hh, team?_id ht]
    by_cases hx : ((s.env tm).rd64 h a 0).extractLsb' 0 2 = 0
    · simp only [if_pos hx, if_neg (mt (aligned_iff _).1 (not_not.2 hx)), thread?_tid hh]
    · simp only [if_neg hx, if_pos ((aligned_iff _).2 hx), thread?_tid hh]
  case refine_2 =>
    rw [withThread_eq _ ht hh, target_eq]
    by_cases hp : gd.en = false ∨ (s.env tm).pred h gd.pred 63 = gd.sense
    · rw [if_pos hp, if_pos ((takes_iff _ _ _).2 hp)]
      exact call_eq s g hh _
    · rw [if_neg hp, if_neg (mt (takes_iff _ _ _).1 hp)]
  case refine_3 =>
    unfold State.callxOne
    rw [withThread_eq _ ht hh]
    by_cases hx : ((s.env tm).rd64 h a 0).extractLsb' 0 2 = 0
    · simp only [if_pos hx, if_neg (mt (aligned_iff _).1 (not_not.2 hx))]
      exact call_eq s g hh _
    · simp only [if_neg hx, if_pos ((aligned_iff _).2 hx), thread?_tid hh]
  case refine_4 =>
    rw [withThread_eq _ ht hh]
    simp only [thread?_tid hh, team?_id ht]
    cases h.stack with
    | nil => rfl
    | cons x l => rfl

end Sys2Proof.Machine
end

section
/-!
SUPPORT and PROOFS. What writes at the homes, saves and halts leave of every team, and TLBI (R120, R348).
-/

namespace Sys2Proof.Machine

/-! ### What performed writes, saves and halts leave as it was -/

/-- A team without what a verdict, a halt or a save records of it. -/
def Team.standing (tm : Team) : Team := { tm with state := .run, since := 0, images := [], verdict := 0 }

/-- A step that leaves of every team all but that record, and the engine commands. -/
structure Calm (s t : State) : Prop where
  standing : ∀ id, (t.team? id).map Team.standing = (s.team? id).map Team.standing
  cmds : t.cmds = s.cmds

theorem Calm.refl (s : State) : Calm s s := ⟨fun _ => rfl, rfl⟩

theorem Calm.trans {s t u : State} (h : Calm s t) (k : Calm t u) : Calm s u :=
  ⟨fun id => (k.standing id).trans (h.standing id), k.cmds.trans h.cmds⟩

theorem Calm.foldl {β : Type} {f : State → β → State} (hf : ∀ s b, Calm s (f s b)) (l : List β) (s : State) : Calm s (l.foldl f s) := by
  induction l generalizing s with
  | nil => exact .refl s
  | cons b l ih => exact (hf s b).trans (ih _)

/-- A step whose state differs elsewhere. -/
theorem Calm.same {s t : State} (ht : t.teams = s.teams) (hc : t.cmds = s.cmds) : Calm s t :=
  ⟨fun id => by unfold State.team?; rw [ht], hc⟩

/-- A state that differs elsewhere from one that a calm step has reached. -/
theorem Calm.elsewhere {s t u : State} (h : Calm s t) (ht : u.teams = t.teams) (hc : u.cmds = t.cmds) : Calm s u :=
  h.trans (.same ht hc)

theorem Calm.ite {c : Prop} [Decidable c] {s t u : State} (ht : Calm s t) (hu : Calm s u) : Calm s (if c then t else u) := by
  split
  · exact ht
  · exact hu

/-- A change of every team that a standing does not show. -/
theorem Calm.map {s t : State} {f : Team → Team} (ht : t.teams = s.teams.map f) (hc : t.cmds = s.cmds) (hid : ∀ x, (f x).id = x.id)
    (hf : ∀ x, (f x).standing = x.standing) : Calm s t := by
  refine ⟨fun id => ?_, hc⟩
  unfold State.team?
  rw [ht, List.find?_map, Option.map_map]
  simp only [Function.comp_def, hid, hf]

/-- The team after a calm step. -/
theorem Calm.team? {s t : State} (h : Calm s t) {id : Nat} {tm : Team} (ht : s.team? id = some tm) :
    ∃ tm', t.team? id = some tm' ∧ tm'.standing = tm.standing := by
  have := h.standing id
  rw [ht, Option.map_some] at this
  exact Option.map_eq_some_iff.1 this

theorem calm_modDie (s : State) (d : Nat) (f : Die → Die) : Calm s (s.modDie d f) := .same rfl rfl

theorem calm_modCore (s : State) (c : Nat) (f : Core → Core) : Calm s (s.modCore c f) := .same rfl rfl

theorem calm_setStamp (s : State) (x : Stamp) : Calm s (s.setStamp x) := .same rfl rfl

theorem calm_roomFor (s : State) (die x : Nat) : Calm s (s.roomFor die x) := .ite (.same rfl rfl) (.refl s)

theorem calm_dropCopies (s : State) (sel : Stamp → Bool) : Calm s (s.dropCopies sel) := by
  unfold State.dropCopies
  dsimp only
  refine (Calm.foldl (fun s x => ?_) _ s).trans (.same rfl rfl)
  split
  · exact calm_modDie s _ _
  · exact .refl s

theorem calm_settleFor (s : State) (team : Nat) : Calm s (s.settleFor team) := calm_dropCopies s _

theorem calm_directory (s : State) (line : Nat) (w : Option Nat) (due : Nat) (teams : List Nat) :
    Calm s (s.directory line w due teams) := by
  unfold State.directory
  dsimp only
  exact ((Calm.ite (calm_modDie s _ _) (.refl s)).trans (calm_dropCopies _ _)).trans (.same rfl rfl)

theorem calm_stampWrite (s : State) (line : Nat) (core : Option Nat) (due : Nat) (teams : List Nat) :
    Calm s (s.stampWrite line core due teams).2 := by
  unfold State.stampWrite
  split
  · exact ((calm_roomFor s _ _).trans (calm_setStamp _ _)).trans (calm_directory _ _ _ _ _)
  · exact .refl s

theorem seeVerdict_keeps (pa : Nat) (b : List Byte) (x : Team) :
    (x.seeVerdict pa b).id = x.id ∧ (x.seeVerdict pa b).standing = x.standing := by
  unfold Team.seeVerdict
  repeat' split
  all_goals exact ⟨rfl, rfl⟩

theorem calm_homeWrite (s : State) (pa : Nat) (b : List Byte) : Calm s (s.homeWrite pa b) :=
  .map rfl rfl (fun x => (seeVerdict_keeps pa b x).1) fun x => (seeVerdict_keeps pa b x).2

theorem calm_coreHomeWrite (s : State) (c pa due : Nat) (teams : List Nat) (b : List Byte) :
    Calm s (s.coreHomeWrite c pa due teams b) := by
  unfold State.coreHomeWrite
  exact ((calm_stampWrite s (lineOf pa) (some c) due teams).trans (calm_homeWrite _ pa b)).trans (calm_modCore _ c _)

theorem calm_agentWrite (s : State) (pa : Nat) (b : List Byte) : Calm s (s.agentWrite pa b) := by
  induction b generalizing s pa with
  | nil => exact .refl s
  | cons x b ih => exact ((calm_stampWrite s _ _ _ _).trans (calm_homeWrite _ pa [x])).trans (ih _ _)

theorem calm_writeBackLine (s : State) (c pa : Nat) (sel : DirtyByte → Bool) : Calm s (s.writeBackLine c pa sel) := by
  unfold State.writeBackLine
  dsimp only
  exact .ite (.refl s) ((Calm.foldl (fun s d => calm_coreHomeWrite s _ _ _ _ _) _ s).trans (calm_modCore _ c _))

theorem calm_writeBack (s : State) (c : Nat) (sel : DirtyByte → Bool) : Calm s (s.writeBack c sel) :=
  .foldl (fun s pa => calm_writeBackLine s c pa sel) _ s

theorem calm_release (s : State) (ag : Agent) (sc : Scope) (g : Option GuardWord) : Calm s (s.release ag sc g) := by
  unfold State.release
  refine .ite (.refl s) (Calm.trans (.ite (.refl s) ?_) (calm_settleFor _ _))
  split
  · exact calm_writeBack s _ _
  · exact calm_writeBack s _ _

/-! ### TLBI (R120, R348) -/

section
variable {op : TlbiOp} {asid va : Nat}

/-- What a TLBI of `op` with an address and an address space covers. -/
def tlbiHits (op : TlbiOp) (asid va easid base log : Nat) : Prop :=
  match op with
  | .page => easid = asid ∧ va / 2 ^ log * 2 ^ log = base
  | .asid => easid = asid
  | .all => True

/-- The model reads the address of a page only, and no address space for all. -/
theorem covered_iff (easid base log : Nat) :
    covered op (if op = .all then 0 else asid) (if op = .page then va else 0) easid base log = true ↔ tlbiHits op asid va easid base log := by
  cases op <;> simp [covered, tlbiHits]

theorem tlbiWalk_iff (w : WalkEntry) (h : op ≠ .page) :
    tlbiWalk op (if op = .all then 0 else asid) w = false ↔ op = .asid ∧ w.asid ≠ asid := by
  cases op <;> simp_all [tlbiWalk]

end

/-- What `dropTlb` leaves in the TLBs and the walk caches. -/
theorem dropTlb_drops (s : State) (hit : TlbEntry → Bool) (walk : WalkEntry → Bool) :
    (∀ c ∈ (s.dropTlb hit walk).cores, ∀ x ∈ c.tlb, hit x = false) ∧ (∀ c ∈ (s.dropTlb hit walk).clusters, ∀ x ∈ c.tlb, hit x = false) ∧
      ∀ d ∈ (s.dropTlb hit walk).dies, ∀ w ∈ d.walks, walk w = false := by
  refine ⟨fun c hc x hx => ?_, fun c hc x hx => ?_, fun d hd w hw => ?_⟩
  · obtain ⟨c, -, rfl⟩ := List.mem_map.1 hc
    simpa using (List.mem_filter.1 hx).2
  · obtain ⟨c, -, rfl⟩ := List.mem_map.1 hc
    simpa using (List.mem_filter.1 hx).2
  · obtain ⟨d, -, rfl⟩ := List.mem_map.1 hd
    simpa using (List.mem_filter.1 hw).2

/-- Whether an engine command pins a page that a predicate picks. -/
def EngCmd.pinsSome (hit : Nat → Nat → Nat → Bool) (c : EngCmd) : Bool := c.pins.any fun p => hit p.asid p.base p.log

/-- The result of a TLBI, which waits for a number of commands to end or for none. -/
def tlbiResult (s : State) (g : Group) (tid : Nat) (pinned : EngCmd → Bool) : State :=
  if s.cmds.any pinned then
    { s with ids := s.ids + 1, cmds := s.cmds.map fun c => if pinned c then { c with waiters := s.ids :: c.waiters } else c }.results g tid
      .ws Out.none (some s.ids)
  else s.results g tid .ws Out.none none

theorem tlbiResult_caches (s : State) (g : Group) (tid : Nat) (pinned : EngCmd → Bool) :
    (tlbiResult s g tid pinned).cores = s.cores ∧ (tlbiResult s g tid pinned).clusters = s.clusters ∧
      (tlbiResult s g tid pinned).dies = s.dies := by
  unfold tlbiResult
  split
  · exact ⟨rfl, rfl, rfl⟩
  · exact ⟨rfl, rfl, rfl⟩

theorem thread?_results {s : State} {g : Group} {tid : Nat} {h : Thread} (hh : s.thread? g.team tid = some h) (c : Ctr) (o : Out)
    (hold : Option Nat) : (s.results g tid c o hold).thread? g.team tid = some { h with pend := h.pend ++ [o.later c hold] } :=
  thread?_modThread (f := fun th => th.launch (o.later c hold)) (fun _ => rfl) hh

/-- The result is in flight on WS, held back exactly while a command pins what is dropped. -/
theorem tlbiResult_thread {s : State} {g : Group} {tid : Nat} {h : Thread} (hh : s.thread? g.team tid = some h) (pinned : EngCmd → Bool) :
    ∃ p, (tlbiResult s g tid pinned).thread? g.team tid = some { h with pend := h.pend ++ [p] } ∧ p.ctr = .ws ∧ p.regs = [] ∧ p.preds = []
      ∧ (p.hold = none ↔ s.cmds.any pinned = false) := by
  unfold tlbiResult
  by_cases hp : s.cmds.any pinned = true
  · rw [if_pos hp]
    refine ⟨Out.none.later .ws (some s.ids), thread?_results hh .ws Out.none (some s.ids), rfl, rfl, rfl, ?_⟩
    rw [hp]
    exact ⟨nofun, nofun⟩
  · rw [if_neg hp]
    exact ⟨Out.none.later .ws none, thread?_results hh .ws Out.none none, rfl, rfl, rfl, iff_of_true rfl (by simpa using hp)⟩

/-- The translations that a TLBI drops, as the model tests them. -/
def tlbiCovers (op : TlbiOp) (asid va : Nat) : Nat → Nat → Nat → Bool :=
  covered op (if op = .all then 0 else asid) (if op = .page then va else 0)

/-- The state in which a TLBI has dropped its translations. -/
def State.tlbiDrop (s : State) (ag : Agent) (op : TlbiOp) (asid va : Nat) : State :=
  (s.release ag .dom none).dropTlb (fun x => tlbiCovers op asid va x.asid x.base x.log) (tlbiWalk op (if op = .all then 0 else asid))

/-- TLBI in one thread: its team's writes are performed, the translations dropped, and the result is launched. -/
theorem tlbiOne_eq {s : State} {g : Group} {tid : Nat} {tm : Team} {h : Thread} (a b : Code) (op : TlbiOp) (ht : s.team? g.team = some tm)
    (hh : tm.thread? tid = some h) :
    s.tlbiOne a b op g tid =
      tlbiResult (s.tlbiDrop (tm.agent tid) op (((s.env tm).rd32 h b 2).toNat % 4096) ((s.env tm).rd64 h a 0).toNat) g tid
        (EngCmd.pinsSome (tlbiCovers op (((s.env tm).rd32 h b 2).toNat % 4096) ((s.env tm).rd64 h a 0).toNat)) := by
  unfold State.tlbiOne
  rw [withThread_eq _ ht hh]
  rfl

/-- A release changes neither a thread nor an engine command. -/
theorem tlbiDrop_keeps (s : State) (ag : Agent) (op : TlbiOp) (asid va id tid : Nat) :
    (s.tlbiDrop ag op asid va).thread? id tid = s.thread? id tid ∧ (s.tlbiDrop ag op asid va).cmds = s.cmds :=
  ⟨(steady_release s ag .dom none).thread? id tid, (calm_release s ag .dom none).cmds⟩

/-- Settles O21: the translations are dropped after a release, which changes no thread and no engine command. -/
theorem tlbiDropsTranslations : Obligations.TlbiDropsTranslations := by
  intro s g rest a b op m hg
  refine runsEach_of_eachLane (f := State.tlbiOne a b op) rfl rfl hg fun s tid tm h ht hh => ?_
  obtain rfl := thread?_tid hh
  rw [tlbiOne_eq a b op ht hh]
  generalize ((s.env tm).rd64 h a 0).toNat = va
  generalize ((s.env tm).rd32 h b 2).toNat % 4096 = asid
  intro _ _ hit
  have hcov (x y z : Nat) : tlbiCovers op asid va x y z = false ↔ ¬hit x y z := by
    have hhit : hit x y z = tlbiHits op asid va x y z := by cases op <;> rfl
    rw [hhit, ← covered_iff, Bool.not_eq_true]
    rfl
  obtain ⟨hcores, hclusters, hdies⟩ := dropTlb_drops (s.release (tm.agent h.tid) .dom none)
    (fun x => tlbiCovers op asid va x.asid x.base x.log) (tlbiWalk op (if op = .all then 0 else asid))
  obtain ⟨ecores, eclusters, edies⟩ := tlbiResult_caches (s.tlbiDrop (tm.agent h.tid) op asid va) g h.tid (EngCmd.pinsSome (tlbiCovers op asid va))
  obtain ⟨hthread, hcmds⟩ := tlbiDrop_keeps s (tm.agent h.tid) op asid va g.team h.tid
  have hown : s.thread? g.team h.tid = some h := by
    unfold State.thread?
    rw [ht]
    exact hh
  obtain ⟨p, hp, hctr, hregs, hpreds, hhold⟩ := tlbiResult_thread (hthread.trans hown) (EngCmd.pinsSome (tlbiCovers op asid va))
  refine ⟨fun c hc x hx => (hcov _ _ _).1 (hcores c (ecores ▸ hc) x hx), fun c hc x hx => (hcov _ _ _).1 (hclusters c (eclusters ▸ hc) x hx),
    fun hop d hd w hw => (tlbiWalk_iff w hop).1 (hdies d (edies ▸ hd) w hw), p, hp, hctr, hregs, hpreds, hhold.trans ?_⟩
  rw [hcmds]
  simp only [EngCmd.pinsSome, List.any_eq_false, Bool.not_eq_true, hcov]

end Sys2Proof.Machine
end

section
/-!
SUPPORT and PROOFS. A blocked thread that goes on, CARVEs that are judged, barriers that are left, and EXIT, TRAP and ERET
(R43, R110, R117 to R119, R137 to R140).
-/

namespace Sys2Proof.Machine

/-! ### Saves and halts are calm -/

theorem calm_modTeam (s : State) (id : Nat) {f : Team → Team} (hid : ∀ x, (f x).id = x.id) (hf : ∀ x, (f x).standing = x.standing) :
    Calm s (s.modTeam id f) := by
  refine .map (f := fun tm => if tm.id = id then f tm else tm) rfl rfl (fun x => ?_) fun x => ?_
  · split
    · exact hid x
    · rfl
  · split
    · exact hf x
    · rfl

theorem calm_flushCore (s : State) (c : Nat) : Calm s (s.flushCore c) := calm_writeBack s c _

theorem calm_touched (s : State) (tn asid va : Nat) (w : Bool) : Calm s (s.touched tn asid va w) := by
  unfold State.touched
  split
  · exact .ite (.refl s) (calm_agentWrite s _ _)
  · exact .refl s

theorem calm_slotStore {t : Team} {fuel va : Nat} {b : List Byte} {s s' : State} (h : s.slotStore t fuel va b = .ok s') : Calm s s' := by
  induction fuel generalizing s va b with
  | zero =>
    cases h
    exact .refl _
  | succ fuel ih =>
    unfold State.slotStore at h
    split at h
    · cases h
      exact .refl _
    · dsimp only at h
      split at h
      · cases h
      · exact ((calm_touched _ _ _ _ _).trans (calm_agentWrite _ _ _)).trans (ih h)

theorem calm_refreshSlot (s : State) (id : Nat) : Calm s (s.refreshSlot id) := by
  unfold State.refreshSlot
  split
  · refine .ite (.refl s) ?_
    split
    · next h => exact calm_slotStore h
    · exact .refl s
  · exact .refl s

theorem calm_raiseTask (s : State) (c : Cause) (d : Nat) (o : Word) (a k : DWord) (core slot : Nat) :
    Calm s (s.raiseTask c d o a k core slot) := .same rfl rfl

theorem calm_saveTeam (s : State) (id : Nat) : Calm s (s.saveTeam id) := by
  unfold State.saveTeam
  split
  · next t _ =>
    refine .ite ?_ (.refl s)
    have hflush := (calm_flushCore s t.core).trans (calm_settleFor _ id)
    dsimp only
    refine .ite ((hflush.trans (calm_modTeam _ id (f := fun x => { x with state := .saved }) (fun _ => rfl) fun _ => rfl)).elsewhere rfl rfl) ?_
    split
    · next h =>
      exact ((hflush.trans (calm_slotStore h)).trans (calm_modTeam _ id
        (f := fun x => { x with state := .saved, images := x.image _ :: x.images }) (fun _ => rfl) fun _ => rfl)).elsewhere rfl rfl
    · exact hflush.trans (calm_raiseTask _ _ _ _ _ _ _ _)
  · exact .refl s

theorem calm_claim (c keep : Nat) (ok : State → Bool) (fuel : Nat) (s : State) : Calm s (State.claim c keep ok fuel s) := by
  induction fuel generalizing s with
  | zero => exact .refl s
  | succ fuel ih =>
    unfold State.claim
    refine .ite (.refl s) ?_
    split
    · exact (calm_saveTeam s _).trans (ih _)
    · exact .refl s

theorem calm_setTeamState (s : State) (id : Nat) {f : Team → Team} (hid : ∀ x, (f x).id = x.id) (hf : ∀ x, (f x).standing = x.standing) :
    Calm s (s.setTeamState id f) := (calm_modTeam s id hid hf).trans (calm_refreshSlot _ _)

theorem calm_haltSet (s : State) (tm : Team) : Calm s (s.haltSet tm) := by
  refine Calm.foldl (fun s t => ?_) _ s
  exact .ite (calm_setTeamState s _ (fun _ => rfl) fun _ => rfl) (.refl s)

theorem calm_trimL1 (s : State) (c : Nat) : Calm s (s.trimL1 c) := by
  unfold State.trimL1
  exact .ite (.refl s) ((Calm.foldl (fun s pa => calm_writeBackLine s c pa _) _ s).trans (calm_modCore _ c _))

theorem calm_acquire (s : State) (ag : Agent) (sc : Scope) : Calm s (s.acquire ag sc none) := by
  unfold State.acquire
  refine .ite (.refl s) (Calm.trans (.ite (calm_flushCore s _) ?_) (.same rfl rfl))
  exact .ite (.same rfl rfl) (calm_modCore s _ _)

/-! ### A thread that is filed, and a blocked one that goes on (R55, R122) -/

theorem modThread_modThread (s : State) (id tid : Nat) {f : Thread → Thread} (g : Thread → Thread) (hf : ∀ h, (f h).tid = h.tid) :
    (s.modThread id tid f).modThread id tid g = s.modThread id tid (g ∘ f) := by
  have hteam (tm : Team) : (tm.modThread tid f).modThread tid g = tm.modThread tid (g ∘ f) := by
    unfold Team.modThread
    simp only [List.map_map]
    congr 1
    refine List.map_congr_left fun h _ => ?_
    by_cases e : h.tid = tid
    · simp [e, hf]
    · simp [e]
  unfold State.modThread State.modTeam
  simp only [List.map_map]
  congr 1
  refine List.map_congr_left fun tm _ => ?_
  by_cases e : tm.id = id
  · have e' : (tm.modThread tid f).id = id := e
    simp [e, e', hteam]
  · simp [e]

theorem modThread_id (s : State) (id tid : Nat) : s.modThread id tid (fun h => h) = s := by
  unfold State.modThread State.modTeam Team.modThread
  simp

/-- A thread as it is once it was filed or resumed: its status, where it goes on, and how long it has waited. No thread is blocked
by it. -/
def Refiled (h h' : Thread) : Prop :=
  h' = { h with status := h'.status, pc := h'.pc, word := h'.word, yielded := h'.yielded, age := h'.age, refile := h'.refile }
  ∧ ∀ y, h'.status = .blocked y → h.status = .blocked y

theorem Refiled.refl (h : Thread) : Refiled h h := ⟨rfl, fun _ e => e⟩

theorem Refiled.trans {h k l : Thread} (a : Refiled h k) (b : Refiled k l) : Refiled h l :=
  ⟨by rw [b.1, a.1], fun y e => a.2 y (b.2 y e)⟩

theorem Refiled.tid {h h' : Thread} (a : Refiled h h') : h'.tid = h.tid := by rw [a.1]

/-- What is done to a state is a filing of one thread. -/
def Files (id tid : Nat) (s t : State) : Prop := ∃ F, t = s.modThread id tid F ∧ ∀ h, Refiled h (F h)

theorem Files.refl (id tid : Nat) (s : State) : Files id tid s s := ⟨fun h => h, (modThread_id s id tid).symm, .refl⟩

theorem Files.trans {id tid : Nat} {s t u : State} (a : Files id tid s t) (b : Files id tid t u) : Files id tid s u := by
  obtain ⟨F, rfl, hF⟩ := a
  obtain ⟨G, rfl, hG⟩ := b
  exact ⟨G ∘ F, modThread_modThread s id tid G fun h => (hF h).tid, fun h => (hF h).trans (hG _)⟩

theorem file_files (s : State) (id tid : Nat) : Files id tid s (s.file id tid) := by
  unfold State.file
  split
  · next tm th _ _ =>
    refine ⟨_, rfl, fun h => ⟨rfl, fun y e => absurd e ?_⟩⟩
    dsimp only
    repeat' split
    all_goals exact Status.noConfusion
  · exact .refl id tid s

theorem yielded_files (s : State) (id tid : Nat) (y : Bool) : Files id tid s (s.modThread id tid fun h => { h with yielded := y }) :=
  ⟨_, rfl, fun _ => ⟨rfl, fun _ e => e⟩⟩

theorem unpark_files (s : State) (id tid : Nat) : Files id tid s (s.unpark id tid) := by
  unfold State.unpark
  split
  · split
    · split
      · exact (yielded_files s id tid true).trans (file_files _ id tid)
      · exact (yielded_files s id tid false).trans (file_files _ id tid)
    · exact .refl id tid s
  · exact .refl id tid s

/-- A blocked thread that goes on is blocked no more. -/
theorem goOn_eq (s : State) (id tid : Nat) (b : Block) :
    ∃ F, s.goOn id tid b = s.modThread id tid F ∧ ∀ h, Refiled h (F h) ∧ ∀ y, (F h).status ≠ .blocked y := by
  unfold State.goOn
  dsimp only
  generalize (!(b.wait.ctr.isNone && b.more)) = last
  have hleave (h : Thread) : Refiled h (if last then h.leave b else h.goOn b) ∧
      ∀ y, (if last then h.leave b else h.goOn b).status ≠ .blocked y := by
    cases last
    · exact ⟨⟨rfl, nofun⟩, nofun⟩
    · cases hp : b.park <;> exact ⟨⟨rfl, by simp [Thread.leave, hp]⟩, by simp [Thread.leave, hp]⟩
  have hfile (t : State) : Files id tid t (if last && b.park then t.unpark id tid else t.file id tid) := by
    split
    · exact unpark_files t id tid
    · exact file_files t id tid
  obtain ⟨G, hG, hfiled⟩ := hfile (s.modThread id tid fun th => if last then th.leave b else th.goOn b)
  refine ⟨_, hG.trans (modThread_modThread s id tid G fun h => (hleave h).1.tid), fun h => ⟨(hleave h).1.trans (hfiled _), fun y e => ?_⟩⟩
  exact (hleave h).2 y ((hfiled _).2 y e)

/-- A thread with the results of a blocked word. -/
def landed (n : Nat) (o : Out) (h : Thread) : Thread := { h with pend := h.pend.map (o.later .wq none).passedBy }.land n (o.later .wq none)

theorem landed_keeps (n : Nat) (o : Out) (h : Thread) :
    (landed n o h).tid = h.tid ∧ (landed n o h).status = h.status := by
  have hreg (l : List (RegWrite × Nat)) (t : Thread) :
      (l.foldl (fun t x => t.landReg (nth n x.2) x.1) t).tid = t.tid ∧ (l.foldl (fun t x => t.landReg (nth n x.2) x.1) t).status = t.status := by
    induction l generalizing t with
    | nil => exact ⟨rfl, rfl⟩
    | cons x l ih =>
      obtain ⟨h1, h2⟩ := ih (t.landReg (nth n x.2) x.1)
      rw [List.foldl_cons, h1, h2]
      unfold Thread.landReg
      dsimp only
      rw [Thread.setRaw_frame]
      exact ⟨rfl, rfl⟩
  have hpred (l : List (PredWrite × Nat)) (t : Thread) :
      (l.foldl (fun t x => t.landPred (nth n (32 + x.2)) x.1) t).tid = t.tid ∧
        (l.foldl (fun t x => t.landPred (nth n (32 + x.2)) x.1) t).status = t.status := by
    induction l generalizing t with
    | nil => exact ⟨rfl, rfl⟩
    | cons x l ih =>
      obtain ⟨h1, h2⟩ := ih (t.landPred (nth n (32 + x.2)) x.1)
      rw [List.foldl_cons, h1, h2]
      unfold Thread.landPred
      dsimp only
      rw [Thread.setRawPred_frame]
      exact ⟨rfl, rfl⟩
  unfold landed Thread.land
  dsimp only
  obtain ⟨h1, h2⟩ := hreg _ { h with pend := h.pend.map (o.later .wq none).passedBy }
  obtain ⟨h3, h4⟩ := hpred ((o.later .wq none).preds.zipIdx) _
  exact ⟨h3.trans h1, h4.trans h2⟩

/-- A blocked thread goes on with its results; nothing else changes but the model's own counter. -/
theorem unblock_eq {s : State} {id tid : Nat} {th : Thread} {b : Block} (o : Out) (ht : s.thread? id tid = some th)
    (hb : th.status = .blocked b) :
    ∃ F, s.unblock id tid o = { s.modThread id tid F with fresh := s.fresh + 1 } ∧
      ∀ h, Refiled (landed (choiceAt s.fresh tid 0) o h) (F h) ∧ ∀ y, (F h).status ≠ .blocked y := by
  obtain ⟨G, hG, hfiled⟩ := goOn_eq (s.modThread id tid (landed (choiceAt s.fresh tid 0) o)) id tid b
  refine ⟨G ∘ landed (choiceAt s.fresh tid 0) o, ?_, fun h => hfiled _⟩
  rw [← modThread_modThread s id tid G fun h => (landed_keeps _ o h).1, ← hG]
  unfold State.unblock
  rw [ht, Option.map_some, hb]
  rfl

theorem unblock_not_blocked {s : State} {id tid : Nat} (o : Out) (h : ∀ th b, s.thread? id tid = some th → th.status ≠ .blocked b) :
    s.unblock id tid o = s := by
  unfold State.unblock
  split
  · next b hb =>
    obtain ⟨th, ht, hs⟩ := Option.map_eq_some_iff.1 hb
    exact absurd hs (h th b ht)
  · rfl

/-! ### What a change of state makes of each team -/

/-- Every team is there afterwards, as a relation on teams says. -/
def Goes (R : Team → Team → Prop) (s t : State) : Prop := ∀ id tm, s.team? id = some tm → ∃ tm', t.team? id = some tm' ∧ R tm tm'

section
variable {R : Team → Team → Prop}

theorem Goes.trans {s t u : State} (hR : ∀ {a b c}, R a b → R b c → R a c) (h : Goes R s t) (k : Goes R t u) : Goes R s u := by
  intro id tm ht
  obtain ⟨tm', ht', hr⟩ := h id tm ht
  obtain ⟨tm'', ht'', hr'⟩ := k id tm' ht'
  exact ⟨tm'', ht'', hR hr hr'⟩

theorem Goes.mono {R' : Team → Team → Prop} {s t : State} (h : Goes R s t) (hR : ∀ {a b}, R a b → R' a b) : Goes R' s t := by
  intro id tm ht
  obtain ⟨tm', ht', hr⟩ := h id tm ht
  exact ⟨tm', ht', hR hr⟩

theorem goes_modTeam (s : State) (id : Nat) {f : Team → Team} (hid : ∀ x, (f x).id = x.id) (hrefl : ∀ tm, R tm tm)
    (hf : ∀ tm, s.team? id = some tm → R tm (f tm)) : Goes R s (s.modTeam id f) := by
  intro k tm ht
  refine ⟨if tm.id = id then f tm else tm, by rw [team?_modTeam s id k f hid, ht, Option.map_some], ?_⟩
  by_cases e : tm.id = id
  · rw [if_pos e]
    rw [team?_id ht] at e
    exact hf tm (e ▸ ht)
  · rw [if_neg e]
    exact hrefl tm

theorem goes_modThread (s : State) (id tid : Nat) {f : Thread → Thread} (hrefl : ∀ tm, R tm tm)
    (hf : ∀ tm, s.team? id = some tm → R tm (tm.modThread tid f)) : Goes R s (s.modThread id tid f) :=
  goes_modTeam s id (fun _ => rfl) hrefl hf

end

/-- The threads of a team, each as a relation on threads says. -/
def Threads (T : Thread → Thread → Prop) (tm tm' : Team) : Prop :=
  tm'.threads.map (·.tid) = tm.threads.map (·.tid) ∧ ∀ tid h, tm.thread? tid = some h → ∃ h', tm'.thread? tid = some h' ∧ T h h'

section
variable {T : Thread → Thread → Prop}

theorem Threads.same (hT : ∀ h, T h h) {tm tm' : Team} (ht : tm'.threads = tm.threads) : Threads T tm tm' := by
  refine ⟨by rw [ht], fun tid h hh => ⟨h, ?_, hT h⟩⟩
  unfold Team.thread? at hh ⊢
  rwa [ht]

theorem Threads.trans (hT : ∀ {a b c}, T a b → T b c → T a c) {a b c : Team} (h : Threads T a b) (k : Threads T b c) : Threads T a c := by
  refine ⟨k.1.trans h.1, fun tid x hx => ?_⟩
  obtain ⟨y, hy, hxy⟩ := h.2 tid x hx
  obtain ⟨z, hz, hyz⟩ := k.2 tid y hy
  exact ⟨z, hz, hT hxy hyz⟩

/-- Every thread changed in one way. -/
theorem threads_map (tm : Team) {f : Thread → Thread} (hid : ∀ h, (f h).tid = h.tid) {tm' : Team} (ht : tm'.threads = tm.threads.map f)
    (hf : ∀ tid h, tm.thread? tid = some h → T h (f h)) : Threads T tm tm' := by
  refine ⟨by rw [ht, List.map_map]; exact List.map_congr_left fun h _ => hid h, fun tid h hh => ⟨f h, ?_, hf tid h hh⟩⟩
  unfold Team.thread? at hh ⊢
  rw [ht, find_thread_map _ _ hid, hh]
  rfl

/-- One thread changed. -/
theorem threads_modThread (hT : ∀ h, T h h) (tm : Team) (tid : Nat) {f : Thread → Thread} (hid : ∀ h, (f h).tid = h.tid)
    (hf : ∀ h, tm.thread? tid = some h → T h (f h)) : Threads T tm (tm.modThread tid f) := by
  refine threads_map tm (f := fun h => if h.tid = tid then f h else h) (fun h => ?_) rfl fun k h hh => ?_
  · split
    · exact hid h
    · rfl
  · split
    · next e =>
      rw [thread?_tid hh] at e
      exact hf h (e ▸ hh)
    · exact hT h

end

theorem standing_fields {tm tm' : Team} (h : tm'.standing = tm.standing) :
    tm'.threads = tm.threads ∧ tm'.bars = tm.bars ∧ tm'.vregs = tm.vregs ∧ tm'.scratch = tm.scratch ∧ tm'.slotOff = tm.slotOff :=
  ⟨congrArg (·.threads) h, congrArg (·.bars) h, congrArg (·.vregs) h, congrArg (·.scratch) h, congrArg (·.slotOff) h⟩

/-! ### Steps that block no thread and leave what has exited (R117) -/

/-- A thread that is not newly blocked, and stays exited, with its words in flight, where it was. -/
def Loosens (h h' : Thread) : Prop :=
  (∀ y, h'.status = .blocked y → h.status = .blocked y) ∧ (h.status = .exited → h'.status = .exited ∧ h'.pend = h.pend)

theorem Loosens.refl (h : Thread) : Loosens h h := ⟨fun _ e => e, fun e => ⟨e, rfl⟩⟩

theorem Loosens.trans {a b c : Thread} (h : Loosens a b) (k : Loosens b c) : Loosens a c := by
  refine ⟨fun y e => h.1 y (k.1 y e), fun e => ?_⟩
  obtain ⟨h1, h2⟩ := h.2 e
  obtain ⟨k1, k2⟩ := k.2 h1
  exact ⟨k1, k2.trans h2⟩

/-- A change of other things than the status and the words in flight. -/
theorem Loosens.same {h h' : Thread} (hs : h'.status = h.status) (hp : h'.pend = h.pend) : Loosens h h' :=
  ⟨fun _ e => hs ▸ e, fun e => ⟨hs ▸ e, hp⟩⟩

/-- The barriers as they were, and every thread loosened at most. -/
def Eases (tm tm' : Team) : Prop := tm'.bars = tm.bars ∧ Threads Loosens tm tm'

theorem Eases.same {tm tm' : Team} (hb : tm'.bars = tm.bars) (ht : tm'.threads = tm.threads) : Eases tm tm' := ⟨hb, .same Loosens.refl ht⟩

theorem Eases.refl (tm : Team) : Eases tm tm := .same rfl rfl

theorem Eases.trans {a b c : Team} (h : Eases a b) (k : Eases b c) : Eases a c := ⟨k.1.trans h.1, .trans (T := Loosens) Loosens.trans h.2 k.2⟩

theorem Goes.refl (s : State) : Goes Eases s s := fun _ tm ht => ⟨tm, ht, .refl tm⟩

theorem Goes.then {s t u : State} (h : Goes Eases s t) (k : Goes Eases t u) : Goes Eases s u := h.trans Eases.trans k

theorem Goes.ite {c : Prop} [Decidable c] {s t u : State} (ht : Goes Eases s t) (hu : Goes Eases s u) : Goes Eases s (if c then t else u) := by
  split
  · exact ht
  · exact hu

theorem Goes.foldl {β : Type} {f : State → β → State} (hf : ∀ s b, Goes Eases s (f s b)) (l : List β) (s : State) :
    Goes Eases s (l.foldl f s) := by
  induction l generalizing s with
  | nil => exact .refl s
  | cons b l ih => exact (hf s b).then (ih _)

theorem Calm.eases {s t : State} (h : Calm s t) : Goes Eases s t := by
  intro id tm ht
  obtain ⟨tm', ht', hs⟩ := h.team? ht
  obtain ⟨hth, hb, -⟩ := standing_fields hs
  exact ⟨tm', ht', .same hb hth⟩

theorem eases_modThread (s : State) (id tid : Nat) {f : Thread → Thread} (hid : ∀ h, (f h).tid = h.tid)
    (hf : ∀ h, s.thread? id tid = some h → Loosens h (f h)) : Goes Eases s (s.modThread id tid f) := by
  refine goes_modThread s id tid .refl fun tm ht => ⟨rfl, threads_modThread Loosens.refl tm tid hid fun h hh => hf h ?_⟩
  unfold State.thread?
  rw [ht]
  exact hh

theorem eases_unblock (s : State) (id tid : Nat) (o : Out) : Goes Eases s (s.unblock id tid o) := by
  by_cases hb : ∃ th b, s.thread? id tid = some th ∧ th.status = .blocked b
  · obtain ⟨th, b, ht, hs⟩ := hb
    obtain ⟨F, he, hF⟩ := unblock_eq o ht hs
    rw [he]
    refine eases_modThread s id tid (f := F) (fun h => (hF h).1.tid.trans (landed_keeps _ o h).1) fun h hh => ?_
    refine ⟨fun y e => absurd e ((hF h).2 y), fun e => ?_⟩
    rw [ht] at hh
    cases hh
    rw [hs] at e
    cases e
  · rw [unblock_not_blocked o fun th b ht hs => hb ⟨th, b, ht, hs⟩]
    exact .refl s

theorem eases_trapBlocked (s : State) (id tid c d : Nat) (a : DWord) : Goes Eases s (s.trapBlocked id tid c d a) := by
  refine eases_modThread s id tid (fun h => ?_) fun h _ => ?_
  · dsimp only
    split <;> rfl
  · dsimp only
    split
    · next b hb => exact ⟨nofun, fun e => by rw [hb] at e; cases e⟩
    · exact .refl h

/-! ### CARVEs (R43, R110) -/

theorem Thread.resize_keeps (old new : Nat) (h : Thread) :
    (h.resize old new).tid = h.tid ∧ (h.resize old new).status = h.status ∧ (h.resize old new).pend = h.pend := by
  unfold Thread.resize
  split
  · exact ⟨rfl, rfl, rfl⟩
  · exact ⟨rfl, rfl, rfl⟩

theorem resize_eases (v n : Nat) (tm tm' : Team) (hb : tm'.bars = tm.bars) (ht : tm'.threads = (tm.resize v n).threads) : Eases tm tm' :=
  ⟨hb, threads_map tm (fun h => (h.resize_keeps tm.vregs v).1) ht fun _ h _ =>
    .same (h.resize_keeps tm.vregs v).2.1 (h.resize_keeps tm.vregs v).2.2⟩

/-- The bytes of the save slot that a team with a new carve-out needs. -/
def carveLen (tm : Team) (v n : Nat) : Nat :=
  slotBytes tm.kern.threads (loadOf tm.kern.threads v n tm.kern.bars tm.kern.lands).granules

/-- A team with a new carve-out and its save slot. -/
def Team.regrow (v n off len : Nat) (t : Team) : Team := { t.resize v n with slotOff := off, slotLen := max len t.slotLen }

/-- The threads of a team that wait in a CARVE go on. -/
def State.resumeAll (s : State) (tm : Team) : State :=
  tm.threads.foldl (fun s h => if h.carving.isSome then s.unblock tm.id h.tid Out.none else s) s

/-- The state once a CARVE has taken effect, the save slot of the team being at `off`. -/
def State.carved (s : State) (tm : Team) (v n off : Nat) : State :=
  let t := (State.claim tm.core tm.id (fun s => (s.usage tm.core false).ok) 17
    (s.modTeam tm.id (Team.regrow v n off (carveLen tm v n)))).resumeAll tm
  if (t.usage tm.core false).ok then (t.refreshSlot tm.id).trimL1 tm.core else t.haltSet tm

theorem eases_carved (s : State) (tm : Team) (v n off : Nat) : Goes Eases s (s.carved tm v n off) := by
  have hgrow := goes_modTeam s tm.id (f := Team.regrow v n off (carveLen tm v n)) (fun _ => rfl) Eases.refl
    fun x _ => resize_eases v n x _ rfl rfl
  have hclaim := (calm_claim tm.core tm.id (fun s => (s.usage tm.core false).ok) 17
    (s.modTeam tm.id (Team.regrow v n off (carveLen tm v n)))).eases
  have hresume (u : State) : Goes Eases u (u.resumeAll tm) :=
    .foldl (fun s h => .ite (eases_unblock s _ _ _) (.refl s)) _ u
  refine ((hgrow.then hclaim).then (hresume _)).then ?_
  exact .ite ((calm_refreshSlot _ _).trans (calm_trimL1 _ _)).eases (calm_haltSet _ _).eases

theorem eases_applyCarve (s : State) (tm : Team) (v n : Nat) : Goes Eases s (s.applyCarve tm v n) := by
  unfold State.applyCarve
  dsimp only
  split
  · exact .refl s
  · exact (calm_raiseTask s _ _ _ _ _ _ _).eases
  · exact eases_carved s tm v n _

theorem eases_judgeCarve (s : State) (team : Nat) {take : State → Team → Nat → Nat → State}
    (ht : ∀ s tm v n, Goes Eases s (take s tm v n)) : Goes Eases s (s.judgeCarve team take) := by
  unfold State.judgeCarve
  split
  · exact .refl s
  · dsimp only
    split
    · refine .ite (.ite (.ite (.refl s) (ht s _ _ _)) ?_) (.refl s)
      exact .foldl (fun s h => eases_trapBlocked s _ _ _ _ _) _ s
    · exact .refl s

theorem eases_checkCarves (n : Nat) (s : State) (team : Nat) : Goes Eases s (s.checkCarves n team) := by
  induction n generalizing s team with
  | zero => exact .refl s
  | succ n ih =>
    refine eases_judgeCarve s team fun s tm v b => ?_
    dsimp only
    split
    · exact (eases_applyCarve s tm v b).then (.foldl (fun s id => ih s id) _ _)
    · exact eases_applyCarve s tm v b

theorem eases_checkCarve (s : State) (team : Nat) : Goes Eases s (s.checkCarve team) := eases_checkCarves _ s team

/-! ### Barriers (R137 to R140) -/

/-- A thread that waits in a BSYNC or BWAIT for the end of a phase of barrier `n`. -/
def Thread.waitsFor (n : Nat) (phase : BitVec 16) (h : Thread) : Prop :=
  ∃ y, h.status = .blocked y ∧ ((∃ c w, y.wait = .bsync n phase c w) ∨ ∃ c, y.wait = .bwait n phase c)

theorem waitsFor_blocked {n : Nat} {phase : BitVec 16} {h : Thread} {b : Block} (hb : h.status = .blocked b) :
    h.waitsFor n phase ↔ (∃ c w, b.wait = .bsync n phase c w) ∨ ∃ c, b.wait = .bwait n phase c := by
  unfold Thread.waitsFor
  rw [hb]
  simp

theorem Loosens.waitsFor {n : Nat} {phase : BitVec 16} {h h' : Thread} (k : Loosens h h') (hw : h'.waitsFor n phase) : h.waitsFor n phase := by
  obtain ⟨y, hs, hy⟩ := hw
  exact ⟨y, k.1 y hs, hy⟩

theorem Threads.back {T : Thread → Thread → Prop} {tm tm' : Team} (ht : Threads T tm tm') {tid : Nat} {h' : Thread}
    (hh : tm'.thread? tid = some h') : ∃ h, tm.thread? tid = some h ∧ T h h' := by
  have hmem : tid ∈ tm.threads.map (·.tid) := by
    rw [← ht.1]
    exact List.mem_map.2 ⟨h', List.mem_of_find?_eq_some hh, thread?_tid hh⟩
  obtain ⟨x, hx, hxt⟩ := List.mem_map.1 hmem
  cases hfind : tm.thread? tid with
  | none => exact absurd hxt (by simpa using List.find?_eq_none.1 hfind x hx)
  | some h =>
    obtain ⟨h'', hh'', hT⟩ := ht.2 tid h hfind
    rw [hh] at hh''
    cases hh''
    exact ⟨h, rfl, hT⟩

theorem eases_passBar (s : State) (tm : Team) (tid n : Nat) (phase : BitVec 16) : Goes Eases s (s.passBar tm tid n phase) :=
  (calm_acquire s _ _).eases.then (goes_modTeam _ tm.id (f := Team.learns tid n phase) (fun _ => rfl) Eases.refl fun _ _ => .same rfl rfl)

/-- A thread is found among the threads of its team. -/
theorem thread?_of_threads {s t : State} {id : Nat} (h : (t.team? id).map (·.threads) = (s.team? id).map (·.threads)) (tid : Nat) :
    t.thread? id tid = s.thread? id tid := by
  have key (u : State) : u.thread? id tid = ((u.team? id).map (·.threads)).bind (·.find? (·.tid = tid)) := by
    unfold State.thread?
    cases u.team? id <;> rfl
  rw [key, key, h]

theorem Calm.thread? {s t : State} (h : Calm s t) (id tid : Nat) : t.thread? id tid = s.thread? id tid := by
  refine thread?_of_threads ?_ tid
  have := congrArg (Option.map Team.threads) (h.standing id)
  rwa [Option.map_map, Option.map_map] at this

theorem thread?_modTeam (s : State) (id : Nat) {f : Team → Team} (hid : ∀ x, (f x).id = x.id) (hf : ∀ x, (f x).threads = x.threads)
    (k tid : Nat) : (s.modTeam id f).thread? k tid = s.thread? k tid := by
  refine thread?_of_threads ?_ tid
  rw [team?_modTeam _ _ _ _ hid, Option.map_map]
  congr 1
  funext tm
  simp only [Function.comp_apply]
  split
  · exact hf tm
  · rfl

theorem thread?_passBar (s : State) (tm : Team) (tid n : Nat) (phase : BitVec 16) (id k : Nat) :
    (s.passBar tm tid n phase).thread? id k = s.thread? id k :=
  (thread?_modTeam _ tm.id (f := Team.learns tid n phase) (fun _ => rfl) (fun _ => rfl) id k).trans ((calm_acquire s _ _).thread? id k)

/-- A thread that waits for the phase that ends goes on after an acquire; no other thread's word ends. -/
theorem wakeBar_cases (team n : Nat) (phase : BitVec 16) (x : Word) (s : State) (tid : Nat) :
    let u := s.modThread team tid (Thread.record n phase x)
    (s.wakeBar team n phase x tid = u ∧ ∀ h, u.thread? team tid = some h → ¬h.waitsFor n phase)
    ∨ ∃ tm th b o, u.team? team = some tm ∧ u.thread? team tid = some th ∧ th.status = .blocked b
        ∧ s.wakeBar team n phase x tid = (u.passBar tm tid n phase).unblock team tid o := by
  intro u
  have hu : s.modThread team tid (Thread.record n phase x) = u := rfl
  unfold State.wakeBar
  dsimp only
  rw [hu]
  split
  case h_1 tm th htm hth =>
    have hother (hno : ¬th.waitsFor n phase) : ∀ h, u.thread? team tid = some h → ¬h.waitsFor n phase := fun h hh => by
      rw [hth] at hh
      cases hh
      exact hno
    split
    case h_1 b hb =>
      have hwaits := waitsFor_blocked (n := n) (phase := phase) hb
      split
      case h_1 k p d w hw =>
        split
        case isTrue => exact .inr ⟨tm, th, b, _, htm, hth, hb, rfl⟩
        case isFalse hne => exact .inl ⟨rfl, hother (by simpa [hwaits, hw] using hne)⟩
      case h_2 k p d hw =>
        split
        case isTrue => exact .inr ⟨tm, th, b, _, htm, hth, hb, rfl⟩
        case isFalse hne => exact .inl ⟨rfl, hother (by simpa [hwaits, hw] using hne)⟩
      case h_3 h1 h2 =>
        refine .inl ⟨rfl, hother ?_⟩
        rw [hwaits]
        rintro (⟨c, v, he⟩ | ⟨c, he⟩)
        · exact h1 _ _ _ _ he
        · exact h2 _ _ _ he
    case h_2 hnb =>
      refine .inl ⟨rfl, hother ?_⟩
      rintro ⟨y, hy, -⟩
      exact hnb y hy
  case h_2 hnone =>
    refine .inl ⟨rfl, fun h hh => ?_⟩
    obtain ⟨tm, htm, -⟩ := Option.bind_eq_some_iff.1 hh
    exact (hnone tm h htm hh).elim

theorem eases_record (s : State) (team n : Nat) (phase : BitVec 16) (x : Word) (tid : Nat) :
    Goes Eases s (s.modThread team tid (Thread.record n phase x)) :=
  eases_modThread s team tid (fun _ => rfl) fun _ _ => .same rfl rfl

theorem eases_wakeBar (team n : Nat) (phase : BitVec 16) (x : Word) (s : State) (tid : Nat) :
    Goes Eases s (s.wakeBar team n phase x tid) := by
  rcases wakeBar_cases team n phase x s tid with ⟨he, -⟩ | ⟨tm, th, b, o, -, -, -, he⟩
  · rw [he]
    exact eases_record s team n phase x tid
  · rw [he]
    exact ((eases_record s team n phase x tid).then (eases_passBar _ tm tid n phase)).then (eases_unblock _ team tid o)

/-- The thread that was woken waits no more. -/
theorem wakeBar_wakes (team n : Nat) (phase : BitVec 16) (x : Word) (s : State) (tid : Nat) {h : Thread}
    (hh : (s.wakeBar team n phase x tid).thread? team tid = some h) : ¬h.waitsFor n phase := by
  rcases wakeBar_cases team n phase x s tid with ⟨he, hno⟩ | ⟨tm, th, b, o, -, hth, hb, he⟩
  · rw [he] at hh
    exact hno h hh
  · have hpass := (thread?_passBar (s.modThread team tid (Thread.record n phase x)) tm tid n phase team tid).trans hth
    obtain ⟨F, hF, hdone⟩ := unblock_eq o hpass hb
    rw [he, hF] at hh
    have hnew := thread?_modThread (f := F) (fun k => (hdone k).1.tid.trans (landed_keeps _ o k).1) hpass
    have := hnew.symm.trans hh
    cases this
    rintro ⟨y, hy, -⟩
    exact (hdone th).2 y hy

/-- After every thread of a list has been woken none of them waits. -/
theorem wakeAll_wakes (team n : Nat) (phase : BitVec 16) (x : Word) (l : List Nat) {s : State} {tm : Team} (ht : s.team? team = some tm) :
    ∃ tm', (l.foldl (State.wakeBar team n phase x) s).team? team = some tm' ∧ Eases tm tm' ∧
      ∀ tid ∈ l, ∀ h, tm'.thread? tid = some h → ¬h.waitsFor n phase := by
  induction l generalizing s tm with
  | nil => exact ⟨tm, ht, .refl tm, nofun⟩
  | cons a l ih =>
    obtain ⟨tm1, ht1, he1⟩ := eases_wakeBar team n phase x s a team tm ht
    obtain ⟨tm2, ht2, he2, hl⟩ := ih ht1
    refine ⟨tm2, ht2, he1.trans he2, fun tid hmem h hh => ?_⟩
    rcases List.mem_cons.1 hmem with rfl | hmem
    · obtain ⟨k, hk, hloose⟩ := he2.2.back hh
      have hwoken : (s.wakeBar team n phase x tid).thread? team tid = some k := by
        unfold State.thread?
        rw [ht1]
        exact hk
      exact mt hloose.waitsFor (wakeBar_wakes team n phase x s tid hwoken)
    · exact hl tid hmem h hh

/-- A barrier whose members and engine arrivals are all there. -/
def Barrier.Full (b : Barrier) : Prop := b.arrived = b.members ∧ b.members ≠ 0 ∧ b.pending = 0

/-- What the check of barrier `n`, which was `b`, makes of it in a team. -/
def Outcome (n : Nat) (b : Barrier) (tm' : Team) : Prop :=
  (b.Full → (∃ p, tm'.bars[n]? = some (b.complete p)) ∧ ∀ tid h, tm'.thread? tid = some h → ¬h.waitsFor n b.phase)
  ∧ (¬b.Full → tm'.bars[n]? = some b)

theorem Outcome.mono {n : Nat} {b : Barrier} {tm tm' : Team} (h : Outcome n b tm) (hb : tm'.bars[n]? = tm.bars[n]?)
    (ht : Threads Loosens tm tm') : Outcome n b tm' := by
  refine ⟨fun hf => ?_, fun hf => hb.trans (h.2 hf)⟩
  obtain ⟨⟨p, hp⟩, hno⟩ := h.1 hf
  refine ⟨⟨p, hb.trans hp⟩, fun tid x hx => ?_⟩
  obtain ⟨y, hy, hloose⟩ := ht.back hx
  exact mt hloose.waitsFor (hno tid y hy)

/-- A team after barriers with numbers in `l` were checked. -/
structure Checked (l : List Nat) (tm tm' : Team) : Prop where
  threads : Threads Loosens tm tm'
  length : tm'.bars.length = tm.bars.length
  other : ∀ k, k ∉ l → tm'.bars[k]? = tm.bars[k]?
  done : ∀ k ∈ l, ∀ b, tm.bars[k]? = some b → Outcome k b tm'

theorem bar_eq {tm : Team} {n : Nat} {b : Barrier} (h : tm.bars[n]? = some b) : tm.bar n = b := by
  unfold Team.bar
  rw [List.getD_eq_getElem?_getD, h]
  rfl

/-- A team in which the phase of barrier `n` has completed, with the engine arrivals due in the next. -/
def Team.completed (n due : Nat) (phase : BitVec 16) (x : Team) : Team := { x.modBar n (·.complete due) with kold := x.oldKs n phase }

theorem completed_bars (n due : Nat) (phase : BitVec 16) (x : Team) (k : Nat) :
    (x.completed n due phase).bars[k]? = if n = k ∧ n < x.bars.length then some ((x.bar n).complete due) else x.bars[k]? := by
  show (x.bars.set n ((x.bar n).complete due))[k]? = _
  rw [List.getElem?_set]
  by_cases h : n = k
  · by_cases hl : n < x.bars.length
    · simp [h, h ▸ hl]
    · simp [h, h ▸ hl]
  · simp [h]

theorem checkBar_full {s : State} {id n : Nat} {tm : Team} (ht : s.team? id = some tm) (hf : n < tm.bars.length ∧ (tm.bar n).Full) :
    State.checkBar id s n = (tm.threads.map (·.tid)).foldl (State.wakeBar id n (tm.bar n).phase (tm.bar n).value)
      (s.modTeam id (Team.completed n (s.engineDue id n ((tm.bar n).phase + 1)) (tm.bar n).phase)) := by
  unfold State.checkBar
  rw [ht]
  exact if_pos hf

theorem checkBar_not_full {s : State} {id n : Nat} {tm : Team} (ht : s.team? id = some tm) (hf : ¬(n < tm.bars.length ∧ (tm.bar n).Full)) :
    State.checkBar id s n = s := by
  unfold State.checkBar
  rw [ht]
  exact if_neg hf

theorem checkBar_checked {s : State} {id n : Nat} {tm : Team} (ht : s.team? id = some tm) :
    ∃ tm', (State.checkBar id s n).team? id = some tm' ∧ Checked [n] tm tm' := by
  by_cases hf : n < tm.bars.length ∧ (tm.bar n).Full
  · rw [checkBar_full ht hf]
    generalize s.engineDue id n ((tm.bar n).phase + 1) = due
    have hcomp := team?_modTeam s id id (Team.completed n due (tm.bar n).phase) fun _ => rfl
    rw [ht, Option.map_some, if_pos (team?_id ht)] at hcomp
    obtain ⟨tm', ht', ⟨hbars, hthreads⟩, hwoken⟩ := wakeAll_wakes id n (tm.bar n).phase (tm.bar n).value (tm.threads.map (·.tid)) hcomp
    have hbar (k : Nat) : tm'.bars[k]? = if n = k then some ((tm.bar n).complete due) else tm.bars[k]? := by
      rw [hbars, completed_bars]
      simp only [hf.1, and_true]
    have hsame : Threads Loosens tm (tm.completed n due (tm.bar n).phase) := .same Loosens.refl rfl
    refine ⟨tm', ht', .trans (T := Loosens) Loosens.trans hsame hthreads, ?_, fun k hk => ?_, fun k hk b hb => ?_⟩
    · rw [hbars]
      exact List.length_set ..
    · rw [hbar, if_neg fun e => hk (List.mem_singleton.2 e.symm)]
    · cases List.mem_singleton.1 hk
      rw [← bar_eq hb]
      refine ⟨fun _ => ⟨⟨due, (hbar n).trans (if_pos rfl)⟩, fun tid h hh => hwoken tid ?_ h hh⟩, fun hn => absurd hf.2 hn⟩
      have hmem : tid ∈ tm'.threads.map (·.tid) := List.mem_map.2 ⟨h, List.mem_of_find?_eq_some hh, thread?_tid hh⟩
      exact hthreads.1 ▸ hmem
  · rw [checkBar_not_full ht hf]
    refine ⟨tm, ht, .same Loosens.refl rfl, rfl, fun _ _ => rfl, fun k hk b hb => ?_⟩
    cases List.mem_singleton.1 hk
    rw [bar_eq hb] at hf
    exact ⟨fun h => absurd ⟨(List.getElem?_eq_some_iff.1 hb).1, h⟩ hf, fun _ => hb⟩

theorem checkBars_checked {id : Nat} (l : List Nat) (hl : l.Nodup) {s : State} {tm : Team} (ht : s.team? id = some tm) :
    ∃ tm', (l.foldl (State.checkBar id) s).team? id = some tm' ∧ Checked l tm tm' := by
  induction l generalizing s tm with
  | nil => exact ⟨tm, ht, .same Loosens.refl rfl, rfl, fun _ _ => rfl, nofun⟩
  | cons n l ih =>
    obtain ⟨hn, hl⟩ := List.nodup_cons.1 hl
    obtain ⟨tm1, ht1, h1⟩ := checkBar_checked (n := n) ht
    obtain ⟨tm2, ht2, h2⟩ := ih hl ht1
    refine ⟨tm2, ht2, .trans (T := Loosens) Loosens.trans h1.threads h2.threads, h2.length.trans h1.length, fun k hk => ?_, fun k hk b hb => ?_⟩
    · rw [List.mem_cons, not_or] at hk
      exact (h2.other k hk.2).trans (h1.other k (by simpa using hk.1))
    · rcases List.mem_cons.1 hk with rfl | hk
      · exact (h1.done k (List.mem_singleton.2 rfl) b hb).mono (h2.other k hn) h2.threads
      · have hne : k ≠ n := fun e => hn (e ▸ hk)
        exact h2.done k hk b ((h1.other k (by simpa using hne)).trans hb)

/-! ### EXIT (R117, R140) -/

/-- A thread that has executed EXIT. -/
def Thread.exits (h : Thread) : Thread := { h with status := .exited, pend := h.pend.map Pending.orphan }

/-- A team of which a thread has executed EXIT and left the barriers. -/
def Team.exits (tm : Team) (tid : Nat) : Team :=
  { tm.modThread tid Thread.exits with bars := tm.bars.map (Barrier.leave tid) }

theorem exits_thread? {tm : Team} {tid : Nat} {h : Thread} (hh : tm.thread? tid = some h) : (tm.exits tid).thread? tid = some h.exits := by
  unfold Team.thread? at hh ⊢
  have hmap := find_thread_map tm.threads (fun h => if h.tid = tid then h.exits else h) (fun h => by split <;> rfl) tid
  refine hmap.trans ?_
  rw [hh, Option.map_some, if_pos (thread?_tid (tm := tm) hh)]

theorem leave_eq (tid : Nat) (b : Barrier) :
    b.leave tid = { b with members := b.members - 1, arr := b.arr.erase tid, arrived := if tid ∈ b.arr then b.arrived - 1 else b.arrived } := by
  unfold Barrier.leave
  by_cases h : tid ∈ b.arr
  · simp [h]
  · simp [h, List.erase_of_not_mem h]

/-- The state in which a thread has exited, before the barriers are checked. -/
def State.exited (s : State) (id tid : Nat) : State :=
  (s.modThread id tid Thread.exits).modTeam id fun tm => { tm with bars := tm.bars.map (Barrier.leave tid) }

theorem exitOne_eq (s : State) (g : Group) (tid : Nat) :
    s.exitOne g tid = ((List.range 16).foldl (State.checkBar g.team) (s.exited g.team tid)).checkCarve g.team := rfl

theorem exited_team? {s : State} {id tid : Nat} {tm : Team} (ht : s.team? id = some tm) : (s.exited id tid).team? id = some (tm.exits tid) := by
  have h1 := team?_modTeam s id id (·.modThread tid Thread.exits) fun _ => rfl
  rw [ht, Option.map_some, if_pos (team?_id ht)] at h1
  have h2 := team?_modTeam (s.modThread id tid Thread.exits) id id (fun tm => { tm with bars := tm.bars.map (Barrier.leave tid) }) fun _ => rfl
  unfold State.exited
  rw [h2]
  unfold State.modThread
  rw [h1, Option.map_some]
  exact congrArg some (if_pos (team?_id ht))

/-- What EXIT of one thread makes of its team. -/
theorem exitOne_checked {s : State} {g : Group} (tid : Nat) {tm : Team} (ht : s.team? g.team = some tm) :
    ∃ tm', (s.exitOne g tid).team? g.team = some tm' ∧ Checked (List.range 16) (tm.exits tid) tm' := by
  obtain ⟨tm1, ht1, h1⟩ := checkBars_checked (List.range 16) List.nodup_range (exited_team? (tid := tid) ht)
  obtain ⟨tm2, ht2, hbars, hthreads⟩ := eases_checkCarve _ g.team g.team tm1 ht1
  refine ⟨tm2, ht2, .trans (T := Loosens) Loosens.trans h1.threads hthreads, by rw [hbars, h1.length], fun k hk => ?_, fun k hk b hb => ?_⟩
  · rw [hbars, h1.other k hk]
  · exact (h1.done k hk b hb).mono (by rw [hbars]) hthreads

/-- A CARVE is not judged while no thread of the team waits in one. -/
theorem checkCarve_none {s : State} {id : Nat} {tm : Team} (ht : s.team? id = some tm) (h : ∀ x ∈ tm.threads, x.carving = none) :
    s.checkCarve id = s := by
  unfold State.checkCarve State.checkCarves State.judgeCarve
  rw [ht]
  dsimp only
  split
  case h_1 v n hops =>
    obtain ⟨x, hx, hc⟩ := List.mem_map.1 (List.mem_of_head? hops)
    rw [h x (List.mem_of_mem_filter hx)] at hc
    cases hc
  case h_2 => rfl

theorem exits_carving {tm : Team} (h : ∀ x ∈ tm.threads, x.carving = none) (tid : Nat) : ∀ x ∈ (tm.exits tid).threads, x.carving = none := by
  intro x hx
  obtain ⟨y, hy, rfl⟩ := List.mem_map.1 hx
  split
  · rfl
  · exact h y hy

/-- Without barriers there is none to check. -/
theorem checkBars_none {s : State} {id : Nat} {tm : Team} (ht : s.team? id = some tm) (hb : tm.bars = []) (l : List Nat) :
    l.foldl (State.checkBar id) s = s := by
  induction l with
  | nil => rfl
  | cons n l ih => rw [List.foldl_cons, checkBar_not_full ht (by simp [hb]), ih]

theorem thread?_of_mem {tm : Team} (h : (tm.threads.map (·.tid)).Nodup) {x : Thread} (hx : x ∈ tm.threads) : tm.thread? x.tid = some x := by
  cases hfind : tm.thread? x.tid with
  | none => exact absurd (List.find?_eq_none.1 hfind x hx) (by simp)
  | some y => rw [List.inj_on_of_nodup_map h (List.mem_of_find?_eq_some hfind) hx (thread?_tid hfind)]

theorem exits_tids (tm : Team) (tid : Nat) : (tm.exits tid).threads.map (·.tid) = tm.threads.map (·.tid) := by
  show (tm.threads.map fun h => if h.tid = tid then h.exits else h).map (·.tid) = _
  rw [List.map_map]
  refine List.map_congr_left fun h _ => ?_
  simp only [Function.comp_apply]
  split <;> rfl

/-- Where nothing is left to check, EXIT changes its team alone. -/
theorem exitOne_alone {s : State} {g : Group} (tid : Nat) {tm : Team} (ht : s.team? g.team = some tm) (hb : tm.bars = [])
    (hc : ∀ x ∈ tm.threads, x.carving = none) : s.exitOne g tid = s.exited g.team tid := by
  have hexit := exited_team? (tid := tid) ht
  rw [exitOne_eq, checkBars_none hexit (by rw [Team.exits, hb]; rfl), checkCarve_none hexit (exits_carving hc tid)]

/-- What a phase that EXIT completes looks like afterwards. -/
theorem outcome_full {k : Nat} {b : Barrier} {tm : Team} (h : Outcome k b tm) (hf : b.Full) (hnd : (tm.threads.map (·.tid)).Nodup) :
    (tm.bar k).phase = b.phase + 1 ∧ (tm.bar k).members = b.members ∧ (tm.bar k).arrived = 0 ∧ (tm.bar k).arr = []
    ∧ (tm.bar k).done1 = b.value ∧ (tm.bar k).done2 = b.done1
    ∧ ∀ x ∈ tm.threads, ∀ y, x.status = .blocked y → ∀ c w, y.wait ≠ .bsync k b.phase c w ∧ y.wait ≠ .bwait k b.phase c := by
  obtain ⟨⟨p, hp⟩, hno⟩ := h.1 hf
  rw [bar_eq hp]
  refine ⟨rfl, rfl, rfl, rfl, rfl, rfl, fun x hx y hy c w => ?_⟩
  have hnot := hno x.tid x (thread?_of_mem hnd hx)
  rw [waitsFor_blocked hy, not_or] at hnot
  exact ⟨fun e => hnot.1 ⟨c, w, e⟩, fun e => hnot.2 ⟨c, e⟩⟩

/-- EXIT of one thread: the thread, the state where there is nothing to check, and the barriers. -/
theorem exitOne_exits {s : State} {g : Group} {tm : Team} {h : Thread} (ht : s.team? g.team = some tm) (hh : tm.thread? h.tid = some h) :
    (∃ h', (s.exitOne g h.tid).thread? g.team h.tid = some h' ∧ h'.status = .exited ∧ h'.pend = h.pend.map Pending.orphan)
    ∧ (tm.bars = [] → (∀ x ∈ tm.threads, x.carving = none) → (∃ l, s.exitOne g h.tid = { s with teams := l }) ∧
        (s.exitOne g h.tid).team? g.team = some (tm.modThread h.tid Thread.exits)) := by
  refine ⟨?_, fun hb hc => ?_⟩
  · obtain ⟨tm', ht', hchecked⟩ := exitOne_checked h.tid ht
    obtain ⟨h', hh', hloose⟩ := hchecked.threads.2 _ _ (exits_thread? hh)
    obtain ⟨hs, hp⟩ := hloose.2 rfl
    refine ⟨h', ?_, hs, hp⟩
    unfold State.thread?
    rw [ht']
    exact hh'
  · rw [exitOne_alone h.tid ht hb hc]
    refine ⟨⟨_, rfl⟩, (exited_team? ht).trans (congrArg some ?_)⟩
    unfold Team.exits
    rw [hb, List.map_nil, ← hb]
    rfl

/-! ### TRAP and ERET (R118, R119) -/

/-- The address that FPC names, a multiple of 4 below 2^48. -/
theorem fpc_pc (x : DWord) : x.toNat % 2 ^ 48 / 4 * 4 = (x &&& 0xFFFFFFFFFFFC#64).toNat := by
  have hmask : ∀ i : Fin 64, (0xFFFFFFFFFFFC#64).getLsbD i = (decide (2 ≤ i.val) && decide (i.val < 48)) := by decide
  have heq : x &&& 0xFFFFFFFFFFFC#64 = x <<< 16 >>> 18 <<< 2 := by
    ext i hi
    have hbit := hmask ⟨i, hi⟩
    rw [BitVec.getLsbD_eq_getElem hi] at hbit
    rw [BitVec.getElem_and, hbit]
    by_cases h2 : 2 ≤ i
    · have hplace : 18 + (i - 2) - 16 = i := by omega
      have hlow : ¬i ≤ 1 ∧ ¬18 + (i - 2) < 16 ∧ (18 + (i - 2) < 64 ↔ i < 48) := by omega
      simp [hplace, hlow, h2, Bool.and_comm, BitVec.getLsbD_eq_getElem hi]
    · simp [h2, show i ≤ 1 by omega]
  rw [heq]
  simp only [BitVec.toNat_shiftLeft, BitVec.toNat_ushiftRight, Nat.shiftLeft_eq, Nat.shiftRight_eq_div_pow]
  omega

theorem fpc_word (x : DWord) : x.toNat / 2 ^ 48 % 16 = (x.extractLsb' 48 4).toNat := by
  rw [BitVec.extractLsb'_toNat, Nat.shiftRight_eq_div_pow]

/-- Settles O19: EXIT by the checks that follow it, TRAP and ERET by what they write. -/
theorem leavingAndTraps : Obligations.LeavingAndTraps := by
  intro s g rest imm hg
  refine ⟨runsEach_of_eachLane (f := State.exitOne) rfl rfl hg fun s tid tm h ht hh => ?_,
    runsEach_of_eachLane (R := _) rfl rfl hg fun s tid tm h ht hh => ?_, runsAs_of_own rfl rfl hg (fun e h => ?_) fun e h => rfl⟩
  · obtain rfl := thread?_tid hh
    obtain ⟨hthread, halone⟩ := exitOne_exits ht hh
    refine ⟨hthread, halone, fun hlen hnd => ?_⟩
    obtain ⟨tm', ht', hchecked⟩ := exitOne_checked h.tid ht
    have hnd' : (tm'.threads.map (·.tid)).Nodup := by rwa [hchecked.threads.1, exits_tids]
    refine ⟨tm', ht', hchecked.length.trans (List.length_map _), fun k b hb => ?_⟩
    have hk : k ∈ List.range 16 := List.mem_range.2 ((List.getElem?_eq_some_iff.1 hb).1.trans_le hlen)
    have hout : Outcome k (b.leave h.tid) tm' := hchecked.done k hk _ (by
      show (tm.bars.map (Barrier.leave h.tid))[k]? = _
      rw [List.getElem?_map, hb]
      rfl)
    rw [leave_eq] at hout
    intro b'
    by_cases hf : b'.arrived = b'.members ∧ b'.members ≠ 0 ∧ b'.pending = 0
    · rw [if_pos hf]
      exact outcome_full hout hf hnd'
    · rw [if_neg hf]
      exact hout.2 hf
  · rw [thread?_tid hh]
    rfl
  · unfold Thread.leaveHandler
    rw [fpc_pc, fpc_word]

end Sys2Proof.Machine
end

section
/-!
SUPPORT and PROOFS. KSET and what threads may still read of k registers; CARVE (R43, R81, R110).
-/

namespace Sys2Proof.Machine

/-! ### KSET (R81) -/

section
variable (tm : Team) (n i : Nat) (who : List Nat) (x : Word)

/-- A KSET reaches what the threads `who` know of the old values of its register. -/
def OldK.reached (i : Nat) (who : List Nat) (y : OldK) : OldK := if y.idx = i then { y with know := (who ++ y.know).dedup } else y

/-- The old values that other threads than those that know of all later ones may have written. -/
def Team.racedK (tm : Team) (i : Nat) (who : List Nat) : List OldK := tm.kold.filter fun y => y.idx = i && !(who.all y.know.contains)

/-- A KSET leaves the old value of its register, known to its group, and writes it; or, of two that race, the value of the other. -/
theorem writeK_cases :
    tm.writeK n i who x = { tm with
      k := tm.k.set i x, kold := tm.keepOld (⟨i, tm.k.getD i 0, who, []⟩ :: tm.kold.map (OldK.reached i who)) }
    ∨ ((tm.racedK i who).isEmpty = false ∧ tm.writeK n i who x = { tm with
        kold := tm.keepOld (⟨i, x, tm.knowAll (tm.racedK i who), []⟩ :: tm.kold.map (OldK.reached i who)) }) := by
  unfold Team.writeK
  dsimp only
  by_cases h : ((tm.racedK i who).isEmpty || choose n true [true, false]) = true
  · exact .inl (if_pos h)
  · refine .inr ⟨?_, if_neg h⟩
    simp only [Bool.or_eq_true, not_or, Bool.not_eq_true] at h
    exact h.1

/-- A thread of the group that a KSET's barrier rules count. -/
def Team.liveUser (tm : Team) (u : Nat) : Prop := ∃ h ∈ tm.threads, h.tid = u ∧ h.ctl = false ∧ h.status ≠ .exited

/-- What a live thread may still read is kept. -/
theorem stale_keepOld {u : Nat} (hu : tm.liveUser u) (l : List OldK) (j : Nat) :
    ((tm.keepOld l).filter fun x => x.idx = j && !x.know.contains u) = l.filter fun x => x.idx = j && !x.know.contains u := by
  unfold Team.keepOld
  rw [List.filter_filter]
  refine List.filter_congr fun y _ => ?_
  by_cases hy : y.know.contains u = true
  · simp [List.contains_iff_mem.1 hy]
  · obtain ⟨h, hmem, rfl, hctl, hst⟩ := hu
    have : (tm.threads.any fun h => !h.ctl && h.status != .exited && !y.know.contains h.tid) = true :=
      List.any_eq_true.2 ⟨h, hmem, by simp [hctl, hst, mt List.contains_iff_mem.2 hy]⟩
    rw [this, Bool.and_true]

theorem reached_idx (y : OldK) : (y.reached i who).idx = y.idx ∧ (y.reached i who).val = y.val := by
  unfold OldK.reached
  split <;> exact ⟨rfl, rfl⟩

/-- Of another register a KSET changes nothing that a live thread may read. -/
theorem stale_other {j u : Nat} (hj : j ≠ i) (hu : tm.liveUser u) (v : Word) (know : List Nat) :
    (((tm.keepOld (⟨i, v, know, []⟩ :: tm.kold.map (OldK.reached i who))).filter fun x => x.idx = j && !x.know.contains u).map (·.val)) =
      tm.staleK u j := by
  rw [stale_keepOld tm hu, List.filter_cons_of_neg (by simp [hj.symm]), List.filter_map, List.map_map]
  unfold Team.staleK
  have hsame (y : OldK) : y.idx = j → y.reached i who = y := fun h => if_neg fun e => hj (h.symm.trans e)
  have hfilter : tm.kold.filter ((fun x => x.idx = j && !x.know.contains u) ∘ OldK.reached i who) =
      tm.kold.filter fun x => x.idx = j && !x.know.contains u := by
    refine List.filter_congr fun y _ => ?_
    by_cases h : y.idx = j
    · simp only [Function.comp_apply, hsame y h]
    · simp [reached_idx i who y, h]
  rw [hfilter]
  exact List.map_congr_left fun y _ => (reached_idx i who y).2

/-- Other registers than the one that a KSET writes. -/
theorem writeK_other {j : Nat} (hj : j ≠ i) :
    (tm.writeK n i who x).k[j]? = tm.k[j]? ∧ ∀ u, tm.liveUser u → (tm.writeK n i who x).staleK u j = tm.staleK u j := by
  rcases writeK_cases tm n i who x with h | ⟨-, h⟩
  · rw [h]
    exact ⟨List.getElem?_set_ne hj.symm, fun u hu => stale_other tm i who hj hu _ _⟩
  · rw [h]
    exact ⟨rfl, fun u hu => stale_other tm i who hj hu _ _⟩

/-- Where the group knows every old value, no KSET races. -/
theorem racedK_of_known (h : ∀ y ∈ tm.kold, y.idx = i → ∀ u ∈ who, u ∈ y.know) : (tm.racedK i who).isEmpty = true := by
  rw [List.isEmpty_iff, Team.racedK, List.filter_eq_nil_iff]
  intro y hy
  by_cases hi : y.idx = i
  · simpa [hi] using h y hy hi
  · simp [hi]

/-- What a thread may read of the register that a KSET writes, beside the new value. -/
theorem stale_written {u : Nat} {v y : Word}
    (hy : y ∈ ((tm.keepOld (⟨i, v, who, []⟩ :: tm.kold.map (OldK.reached i who))).filter fun x => x.idx = i && !x.know.contains u).map (·.val)) :
    u ∉ who ∧ (y = v ∨ y ∈ tm.staleK u i) := by
  obtain ⟨z, hz, rfl⟩ := List.mem_map.1 hy
  obtain ⟨hz, hcond⟩ := List.mem_filter.1 hz
  have hnew : z ∈ (⟨i, v, who, []⟩ :: tm.kold.map (OldK.reached i who) : List OldK) := List.mem_of_mem_filter hz
  simp only [Bool.and_eq_true, decide_eq_true_eq, Bool.not_eq_true', List.contains_eq_mem, decide_eq_false_iff_not] at hcond
  rcases List.mem_cons.1 hnew with rfl | hold
  · exact ⟨hcond.2, .inl rfl⟩
  · obtain ⟨w, hw, rfl⟩ := List.mem_map.1 hold
    have hidx : w.idx = i := (reached_idx i who w).1 ▸ hcond.1
    have hknow : u ∉ who ∧ u ∉ w.know := by
      have := hcond.2
      rw [OldK.reached, if_pos hidx] at this
      simpa using this
    refine ⟨hknow.1, .inr (List.mem_map.2 ⟨w, List.mem_filter.2 ⟨hw, by simp [hidx, hknow.2]⟩, ((reached_idx i who w).2).symm⟩)⟩

/-- Where the group knows every old value, the register holds the new one, and other threads may read it or what they could. -/
theorem writeK_known (hi : i < tm.k.length) (h : ∀ y ∈ tm.kold, y.idx = i → ∀ u ∈ who, u ∈ y.know) :
    (tm.writeK n i who x).k[i]? = some x ∧ (∀ u ∈ who, (tm.writeK n i who x).staleK u i = []) ∧
      ∀ u y, y ∈ (tm.writeK n i who x).staleK u i → y = tm.k.getD i 0 ∨ y ∈ tm.staleK u i := by
  rcases writeK_cases tm n i who x with he | ⟨hraced, -⟩
  · rw [he]
    refine ⟨List.getElem?_set_self hi, fun u hu => List.eq_nil_iff_forall_not_mem.2 fun y hy => ?_, fun u y hy => ?_⟩
    · exact (stale_written tm i who hy).1 hu
    · exact (stale_written tm i who hy).2
  · rw [racedK_of_known tm i who h] at hraced
    cases hraced

/-- The register holds the new value or the one of the KSET it races with. -/
theorem writeK_either (hi : i < tm.k.length) : (tm.writeK n i who x).k[i]? = some x ∨ (tm.writeK n i who x).k[i]? = tm.k[i]? := by
  rcases writeK_cases tm n i who x with he | ⟨-, he⟩
  · rw [he]
    exact .inl (List.getElem?_set_self hi)
  · rw [he]
    exact .inr rfl

/-- An old value once a thread that knows its successors has arrived in a phase. -/
def OldK.arrivedIn (u b : Nat) (ph : BitVec 16) (y : OldK) : OldK := if y.know.contains u then { y with arrived := (b, ph) :: y.arrived } else y

/-- An old value once a thread goes on after a phase. -/
def OldK.learnt (v b : Nat) (ph : BitVec 16) (y : OldK) : OldK := if y.arrived.contains (b, ph) then { y with know := (v :: y.know).dedup } else y

/-- An old value that a thread has not learnt in a phase is none that one which arrived there knew to be old. -/
theorem learnt_know (u v b : Nat) (ph : BitVec 16) (y : OldK) :
    ((y.arrivedIn u b ph).learnt v b ph).idx = y.idx ∧ ((y.arrivedIn u b ph).learnt v b ph).val = y.val ∧
      (v ∉ ((y.arrivedIn u b ph).learnt v b ph).know → u ∉ y.know) := by
  unfold OldK.arrivedIn OldK.learnt
  by_cases hu : y.know.contains u = true
  · rw [if_pos hu, if_pos (by simp)]
    exact ⟨rfl, rfl, by simp⟩
  · rw [if_neg hu]
    have hu' : u ∉ y.know := by simpa using hu
    split
    · exact ⟨rfl, rfl, fun _ => hu'⟩
    · exact ⟨rfl, rfl, fun _ => hu'⟩

/-- A thread that goes on after a phase knows what those that arrived in it knew. -/
theorem learns_stale (b u v j : Nat) (ph : BitVec 16) (y : Word)
    (hy : y ∈ ((tm.arrives u b ph (tm.bar b)).learns v b ph).staleK v j) : y ∈ tm.staleK u j := by
  obtain ⟨z, hz, rfl⟩ := List.mem_map.1 hy
  obtain ⟨hz, hcond⟩ := List.mem_filter.1 hz
  obtain ⟨w, hw, rfl⟩ := List.mem_map.1 hz
  obtain ⟨o, ho, rfl⟩ := List.mem_map.1 hw
  obtain ⟨hidx, hval, hknow⟩ := learnt_know u v b ph o
  change (decide (((o.arrivedIn u b ph).learnt v b ph).idx = j) && !((o.arrivedIn u b ph).learnt v b ph).know.contains v) = true at hcond
  simp only [Bool.and_eq_true, decide_eq_true_eq, Bool.not_eq_true', List.contains_eq_mem, decide_eq_false_iff_not] at hcond
  exact List.mem_map.2 ⟨o, List.mem_filter.2 ⟨ho, by simp [← hidx, hcond.1, hknow hcond.2]⟩, hval.symm⟩

end

/-- The value of a KSET and of its pair. -/
theorem setK_word (n code : Nat) (who : List Nat) (x : Word) (tm : Team) :
    tm.setK n code false who x.toNat = tm.writeK n (code - 96) who x := by
  unfold Team.setK
  rw [ofNat_toNat_self]
  rfl

theorem setK_pair (n code : Nat) (who : List Nat) (x : DWord) (tm : Team) :
    tm.setK n code true who x.toNat =
      (tm.writeK n (code - 96) who (x.extractLsb' 0 32)).writeK (nth n 1) (code - 95) who (x.extractLsb' 32 32) := by
  have hlow : BitVec.ofNat 32 x.toNat = x.extractLsb' 0 32 := rfl
  have hhigh : BitVec.ofNat 32 (x.toNat / 2 ^ 32) = x.extractLsb' 32 32 := by
    rw [← Nat.shiftRight_eq_div_pow]
    rfl
  unfold Team.setK
  rw [hlow, hhigh]
  rfl

/-- What KSET does to the team of its group. -/
theorem kset_runs {s : State} {g : Group} {rest : List Group} (hg : s.groups = g :: rest) (d a : Code) (m : Mods) :
    RunsOnce (.kset d a .i32 m) s g (fun s tm h t =>
      ∃ n, t = s.modTeam g.team (Team.writeK n (d.toNat - 96) (s.present g) ((s.env tm).rd32 h a 0)))
    ∧ RunsOnce (.kset d a .i64 m) s g (fun s tm h t =>
      ∃ n n', t = s.modTeam g.team fun x =>
        (x.writeK n (d.toNat - 96) (s.present g) (((s.env tm).rd64 h a 0).extractLsb' 0 32)).writeK n' (d.toNat - 95) (s.present g)
          (((s.env tm).rd64 h a 0).extractLsb' 32 32)) := by
  refine ⟨runsOnce_of_onceLane rfl rfl hg fun tid tm h ht hh => ?_, runsOnce_of_onceLane rfl rfl hg fun tid tm h ht hh => ?_⟩
  · rw [withThread_eq _ ht hh]
    exact ⟨_, congrArg (s.modTeam g.team) (funext fun x => setK_word _ _ _ _ x)⟩
  · rw [withThread_eq _ ht hh]
    exact ⟨_, _, congrArg (s.modTeam g.team) (funext fun x => setK_pair _ _ _ _ x)⟩

/-! ### CARVE (R43, R110) -/

/-- A thread that keeps its registers and is not newly blocked. -/
def KeepsRegs (h h' : Thread) : Prop := h'.v = h.v ∧ h'.ctl = h.ctl ∧ ∀ y, h'.status = .blocked y → h.status = .blocked y

theorem KeepsRegs.refl (h : Thread) : KeepsRegs h h := ⟨rfl, rfl, fun _ e => e⟩

theorem KeepsRegs.trans {a b c : Thread} (h : KeepsRegs a b) (k : KeepsRegs b c) : KeepsRegs a c :=
  ⟨k.1.trans h.1, k.2.1.trans h.2.1, fun y e => h.2.2 y (k.2.2 y e)⟩

/-- The carve-out and the save slot as they were, and every thread with its registers. -/
def KeepsCarve (tm tm' : Team) : Prop :=
  (tm'.vregs = tm.vregs ∧ tm'.scratch = tm.scratch ∧ tm'.slotOff = tm.slotOff) ∧ Threads KeepsRegs tm tm'

theorem KeepsCarve.refl (tm : Team) : KeepsCarve tm tm := ⟨⟨rfl, rfl, rfl⟩, .same KeepsRegs.refl rfl⟩

theorem KeepsCarve.trans {a b c : Team} (h : KeepsCarve a b) (k : KeepsCarve b c) : KeepsCarve a c := by
  obtain ⟨⟨hv, hs, ho⟩, ht⟩ := h
  obtain ⟨⟨kv, ks, ko⟩, kt⟩ := k
  exact ⟨⟨kv.trans hv, ks.trans hs, ko.trans ho⟩, .trans (T := KeepsRegs) KeepsRegs.trans ht kt⟩

theorem Calm.keepsCarve {s t : State} (h : Calm s t) : Goes KeepsCarve s t := by
  intro id tm ht
  obtain ⟨tm', ht', hs⟩ := h.team? ht
  obtain ⟨hth, -, hv, hn, ho⟩ := standing_fields hs
  exact ⟨tm', ht', ⟨hv, hn, ho⟩, .same KeepsRegs.refl hth⟩

theorem landed_none (n : Nat) (h : Thread) : (landed n Out.none h).v = h.v ∧ (landed n Out.none h).ctl = h.ctl := ⟨rfl, rfl⟩

/-- A thread that goes on without a result keeps its registers, and is blocked no more. -/
theorem unblock_keepsCarve (s : State) (id tid : Nat) :
    Goes KeepsCarve s (s.unblock id tid Out.none) ∧
      ∀ k y, (s.unblock id tid Out.none).thread? id tid = some k → k.status ≠ .blocked y := by
  by_cases hb : ∃ th b, s.thread? id tid = some th ∧ th.status = .blocked b
  · obtain ⟨th, b, ht, hs⟩ := hb
    obtain ⟨F, he, hF⟩ := unblock_eq Out.none ht hs
    generalize choiceAt s.fresh tid 0 = n at hF
    have hid (h : Thread) : (F h).tid = h.tid := (hF h).1.tid.trans (landed_keeps n Out.none h).1
    have hregs (h : Thread) : (F h).v = h.v ∧ (F h).ctl = h.ctl := by
      rw [(hF h).1.1]
      exact landed_none n h
    rw [he]
    constructor
    · refine goes_modThread s id tid (f := F) KeepsCarve.refl fun tm htm => ⟨⟨rfl, rfl, rfl⟩, ?_⟩
      exact threads_modThread KeepsRegs.refl tm tid hid fun h hh => ⟨(hregs h).1, (hregs h).2, fun y e => absurd e ((hF h).2 y)⟩
    · intro k y hk
      have := (thread?_modThread hid ht).symm.trans hk
      cases this
      exact (hF th).2 y
  · rw [unblock_not_blocked Out.none fun th b ht hs => hb ⟨th, b, ht, hs⟩]
    exact ⟨fun k tm htm => ⟨tm, htm, .refl tm⟩, fun k y hk hs => hb ⟨k, y, hk, hs⟩⟩

/-- Once the threads of a list that wait in a CARVE have gone on, none of them is blocked. -/
theorem resume_keepsCarve (id : Nat) (l : List Thread) {s : State} {tm : Team} (ht : s.team? id = some tm) :
    ∃ tm', (l.foldl (fun s h => if h.carving.isSome then s.unblock id h.tid Out.none else s) s).team? id = some tm' ∧ KeepsCarve tm tm' ∧
      ∀ h ∈ l, h.carving.isSome = true → ∀ k y, tm'.thread? h.tid = some k → k.status ≠ .blocked y := by
  induction l generalizing s tm with
  | nil => exact ⟨tm, ht, .refl tm, fun h hmem => absurd hmem List.not_mem_nil⟩
  | cons a l ih =>
    rw [List.foldl_cons]
    by_cases ha : a.carving.isSome = true
    · rw [if_pos ha]
      obtain ⟨hkeep, hfree⟩ := unblock_keepsCarve s id a.tid
      obtain ⟨tm1, ht1, h1⟩ := hkeep id tm ht
      obtain ⟨tm2, ht2, h2, hl⟩ := ih ht1
      refine ⟨tm2, ht2, h1.trans h2, fun h hmem hc k y hk hs => ?_⟩
      rcases List.mem_cons.1 hmem with rfl | hmem
      · obtain ⟨j, hj, -, -, hstat⟩ := h2.2.back hk
        refine hfree j y ?_ (hstat y hs)
        unfold State.thread?
        rw [ht1]
        exact hj
      · exact hl h hmem hc k y hk hs
    · rw [if_neg ha]
      obtain ⟨tm2, ht2, h2, hl⟩ := ih ht
      refine ⟨tm2, ht2, h2, fun h hmem hc => ?_⟩
      rcases List.mem_cons.1 hmem with rfl | hmem
      · exact absurd hc ha
      · exact hl h hmem hc

/-- A register of a thread under a new count. -/
theorem resize_getD {old new i : Nat} (h : Thread) (hc : h.ctl = false) :
    (h.resize old new).v.getD i 0 = if i < min old new then h.v.getD i 0 else 0 := by
  unfold Thread.resize
  rw [if_neg (by simp [hc])]
  show (h.v.take (min old new) ++ List.replicate (new - old) 0).getD i 0 = _
  rw [List.getD_eq_getElem?_getD, List.getD_eq_getElem?_getD, List.getElem?_append, List.length_take, List.getElem?_take]
  by_cases hi : i < min old new
  · rw [if_pos hi, if_pos hi]
    by_cases hl : i < h.v.length
    · rw [if_pos (lt_min hi hl)]
    · rw [if_neg (by omega), List.getElem?_eq_none (not_lt.1 hl), List.getElem?_replicate]
      split <;> rfl
  · rw [if_neg hi, if_neg (by omega), List.getElem?_replicate]
    split <;> rfl

theorem regrow_thread? {tm : Team} (v n off len tid : Nat) {h : Thread} (hh : tm.thread? tid = some h) :
    (tm.regrow v n off len).thread? tid = some (h.resize tm.vregs v) := by
  unfold Team.thread? at hh ⊢
  refine (find_thread_map tm.threads (Thread.resize tm.vregs v) (fun h => (h.resize_keeps tm.vregs v).1) tid).trans ?_
  rw [hh]
  rfl

theorem carving_blocked {h : Thread} (hc : h.carving.isSome = true) : ∃ y, h.status = .blocked y := by
  unfold Thread.carving at hc
  split at hc
  · exact ⟨_, by assumption⟩
  · cases hc

theorem carving_of_status {h k : Thread} (hs : h.status = k.status) : h.carving = k.carving := by
  unfold Thread.carving
  rw [hs]

/-- What a CARVE that takes effect makes of its team. -/
theorem carved_team {s : State} {tm : Team} (ht : s.team? tm.id = some tm) (v n off : Nat) :
    ∃ y, (s.carved tm v n off).team? tm.id = some y ∧ y.vregs = v ∧ y.scratch = n ∧ y.slotOff = off ∧
      ∀ tid k, tm.thread? tid = some k → ∃ k', y.thread? tid = some k' ∧ k'.carving = none ∧
        (k.ctl = false → ∀ i, k'.v.getD i 0 = if i < min tm.vregs v then k.v.getD i 0 else 0) := by
  have hgrow := team?_modTeam s tm.id tm.id (Team.regrow v n off (carveLen tm v n)) fun _ => rfl
  rw [ht, Option.map_some, if_pos rfl] at hgrow
  obtain ⟨t1, ht1, h1⟩ := (calm_claim tm.core tm.id (fun s => (s.usage tm.core false).ok) 17 _).keepsCarve _ _ hgrow
  obtain ⟨t2, ht2, h2, hfree⟩ := resume_keepsCarve tm.id tm.threads ht1
  have hend (u : State) : Calm u (if (u.usage tm.core false).ok then (u.refreshSlot tm.id).trimL1 tm.core else u.haltSet tm) :=
    .ite ((calm_refreshSlot _ _).trans (calm_trimL1 _ _)) (calm_haltSet _ _)
  obtain ⟨y, hy, h3⟩ := (hend _).keepsCarve _ _ ht2
  obtain ⟨⟨hv, hn, ho⟩, hthreads⟩ := (h1.trans h2).trans h3
  refine ⟨y, hy, hv, hn, ho, fun tid k hk => ?_⟩
  obtain ⟨k', hk', hregs, -, hstat⟩ := hthreads.2 tid _ (regrow_thread? v n off (carveLen tm v n) tid hk)
  refine ⟨k', hk', ?_, fun hc i => by rw [hregs, resize_getD k hc]⟩
  by_contra hcarve
  obtain ⟨b, hb⟩ := carving_blocked (Option.isSome_iff_ne_none.2 hcarve)
  have hkb := ((k.resize_keeps tm.vregs v).2.1).symm.trans (hstat b hb)
  obtain ⟨j, hj, -, -, hjs⟩ := h3.2.back hk'
  have hkc : k.carving.isSome = true := by
    rw [carving_of_status (hkb.trans hb.symm)]
    exact Option.isSome_iff_ne_none.2 hcarve
  rw [← thread?_tid hk] at hj
  exact hfree k (List.mem_of_find?_eq_some hk) hkc j b hj (hjs b hb)

section
variable {s : State} {tm : Team}

/-- A CARVE is not judged while a live thread of the team does not wait in one. -/
theorem checkCarve_waits (ht : s.team? tm.id = some tm) (h : tm.liveThreads.any (·.carving.isNone) = true) : s.checkCarve tm.id = s := by
  have hall : (tm.liveThreads.map (·.carving)).all (·.isSome) = false := by
    obtain ⟨x, hx, hc⟩ := List.any_eq_true.1 h
    rw [List.all_eq_false]
    exact ⟨x.carving, List.mem_map.2 ⟨x, hx, rfl⟩, by simpa using hc⟩
  unfold State.checkCarve State.checkCarves State.judgeCarve
  rw [ht]
  dsimp only
  rw [hall]
  split <;> rfl

/-- A CARVE for which the save slot is long enough takes effect. -/
theorem applyCarve_fits {v n : Nat} (h : carveLen tm v n ≤ tm.slotLen) : s.applyCarve tm v n = s.carved tm v n tm.slotOff := by
  have hif (c : SlotAnswer) : (if carveLen tm v n ≤ tm.slotLen then SlotAnswer.fits tm.slotOff else c) = .fits tm.slotOff := if_pos h
  unfold carveLen at hif
  unfold State.applyCarve
  dsimp only
  rw [hif]
  rfl

/-- A CARVE that all live threads ask for alike, within range and with nothing outstanding, takes effect. -/
theorem checkCarve_takes {v n : Nat} (ht : s.team? tm.id = some tm) (hne : tm.liveThreads ≠ [])
    (hall : ∀ y ∈ tm.liveThreads, y.carving = some (v, n)) (hv : 1 ≤ v) (hv' : v ≤ 96) (hn : n ≤ 1441792) (hbusy : s.scrBusy tm = false)
    (hlen : carveLen tm v n ≤ tm.slotLen) : s.checkCarve tm.id = s.carved tm v n tm.slotOff := by
  have hops : tm.liveThreads.map (·.carving) = List.replicate tm.liveThreads.length (some (v, n)) :=
    List.eq_replicate_iff.2 ⟨List.length_map _, fun o ho => by obtain ⟨y, hy, rfl⟩ := List.mem_map.1 ho; exact hall y hy⟩
  obtain ⟨k, hk⟩ := Nat.exists_eq_succ_of_ne_zero (mt List.length_eq_zero_iff.1 hne)
  rw [hk, List.replicate_succ] at hops
  obtain ⟨y, hy, -, -, hoff, -⟩ := carved_team ht v n tm.slotOff
  have hstays : ((s.carved tm v n tm.slotOff).team? tm.id).any (fun x => x.slotOff != tm.slotOff) = false := by
    rw [hy]
    simp [hoff]
  unfold State.checkCarve State.checkCarves State.judgeCarve
  rw [ht]
  dsimp only
  rw [hops, List.head?_cons]
  dsimp only
  rw [applyCarve_fits hlen, hstays]
  simp [hv, hv', hn, hbusy]

end

theorem carveOne_eq {s : State} {g : Group} {tid : Nat} {tm : Team} {h : Thread} (a b : Code) (ht : s.team? g.team = some tm)
    (hh : tm.thread? tid = some h) :
    s.carveOne a b g tid = if tm.hasStream then s.trap g tid (bad .barrier 3)
      else (s.block g tid (.carve ((s.env tm).rd32 h a 0).toNat ((s.env tm).rd32 h b 2).toNat)).checkCarve tm.id := by
  unfold State.carveOne
  rw [withThread_eq _ ht hh]

/-- Settles O8: KSET by what `writeK` keeps of old values, CARVE by what its check does. -/
theorem teamRegistersAndCarve : Obligations.TeamRegistersAndCarve := by
  refine ⟨fun s g rest d a m hg _ => ⟨(kset_runs hg d a m).1, (kset_runs hg d a m).2, fun tm n i who x hi => ?_⟩,
    fun s g rest a b hg => runsEach_of_eachLane (f := State.carveOne a b) rfl rfl hg fun s tid tm h ht hh => ?_⟩
  · exact ⟨Team.writeK_frame n i who x tm, fun j hj => writeK_other tm n i who x hj, fun c j u => Team.readK_mem _ c u j,
      fun hknown => writeK_known tm n i who x hi hknown, fun _ => writeK_either tm n i who x hi,
      fun b u v j ph y hy => learns_stale tm b u v j ph y hy⟩
  · rw [carveOne_eq a b ht hh]
    intro v n
    by_cases hs : tm.hasStream = true
    · rw [if_pos hs, if_pos hs, thread?_tid hh]
    · rw [if_neg hs, if_neg hs]
      rw [thread?_tid hh]
      refine ⟨fun x hx hwait => ?_, fun x hx hne hall hv hv' hn hbusy hlen => ?_⟩
      · have hid := team?_id hx
        rw [← hid] at hx ⊢
        exact checkCarve_waits hx hwait
      · have hid := team?_id hx
        rw [← hid] at hx ⊢
        rw [checkCarve_takes hx hne hall hv hv' hn hbusy hlen]
        obtain ⟨y, hy, hyv, hyn, -, hthreads⟩ := carved_team hx v n x.slotOff
        refine ⟨y, hy, hyv, hyn, fun k th hk => ?_⟩
        obtain ⟨k', hk', hc, hregs⟩ := hthreads k th hk
        exact ⟨k', hk', hc, fun hctl i _ => hregs hctl i⟩

end Sys2Proof.Machine
end

section
/-!
SUPPORT and PROOFS. Group words: shuffles, broadcasts, votes, reductions and scans (R102 to R106).
-/

namespace Sys2Proof.Machine

/-! ### What a group word leaves in each thread -/

/-- A group word runs, where it runs, as what it computes from all threads of the group. -/
theorem runsLater_of_groupLane {i : Instr} {s : State} {g : Group} {rest : List Group} {f : List (Nat × Thread) → Env → Thread → Out}
    {k : Env → Thread → Out} (he : exec i s = .next (groupLane f s)) (hm : guardOf i.mods = Guard.off) (hg : s.groups = g :: rest)
    (hf : ∀ tm tid h, tm.thread? tid = some h → g.holds h = true → f (g.members tm) (s.env tm) h = k (s.env tm) h) :
    RunsLater i s g .wa k := by
  have hlane : groupLane f s = lane .none (some .wa) (fun e h => f (g.members e.tm) e h) s := by
    unfold groupLane
    rw [hg]
  have hlanes := lane_lanes s g rest .none (some .wa) (fun e h => f (g.members e.tm) e h) hg
  have hruns (tm : Team) (h : Thread) : runsIn s g i.mods tm h = runsIn s g .none tm h := by
    unfold runsIn Env.guardTrue
    rw [hm]
    rfl
  refine ⟨_, he.trans (congrArg _ hlane), fun id tid tm h ht hh => ?_, hlanes.absent, hlanes.team, hlanes.rest⟩
  rw [hlanes.thread id tid tm h ht hh, hruns]
  by_cases hr : runsIn s g .none tm h = true
  · rw [if_pos hr, if_pos hr]
    have hholds : g.holds h = true := by
      unfold runsIn at hr
      simp only [Bool.and_eq_true] at hr
      exact hr.1.2
    show some (h.launch ((f (g.members tm) (s.env tm) h).later .wa none)) = _
    rw [hf tm tid h hh hholds]
  · rw [if_neg hr, if_neg hr]

/-! ### The members of a group and their slots -/

section
variable {g : Group} {tm : Team}

theorem mem_members {k : Nat} {x : Thread} :
    (k, x) ∈ g.members tm ↔ ∃ tid, g.slots[k]? = some tid ∧ tm.thread? tid = some x ∧ x.status = .issuing := by
  unfold Group.members
  rw [List.mem_filterMap]
  constructor
  · rintro ⟨⟨tid, j⟩, hp, hx⟩
    have hslot := List.mem_zipIdx_iff_getElem?.1 hp
    dsimp only at hx
    split at hx
    · next th hth =>
      split at hx
      · next hs =>
        cases hx
        exact ⟨tid, hslot, hth, hs⟩
      · cases hx
    · cases hx
  · rintro ⟨tid, hslot, hth, hs⟩
    refine ⟨(tid, k), List.mem_zipIdx_iff_getElem?.2 hslot, ?_⟩
    simp only [hth, if_pos hs]

/-- Members stand in slot order. -/
theorem members_ascend : (g.members tm).Pairwise fun p q => p.1 < q.1 := by
  have hidx : g.slots.zipIdx.Pairwise fun p q => p.2 < q.2 := by
    rw [List.pairwise_iff_getElem]
    intro i j hi hj hij
    simpa using hij
  have hslot (p : Nat × Nat) (x : Nat × Thread) (hx : (match tm.thread? p.1 with
      | some th => if th.status = .issuing then some (p.2, th) else none
      | none => none) = some x) : x.1 = p.2 := by
    split at hx
    · split at hx
      · cases hx
        rfl
      · cases hx
    · cases hx
  unfold Group.members
  rw [List.pairwise_filterMap]
  exact hidx.imp fun {p q} hpq x hx y hy => by rw [hslot p x hx, hslot q y hy]; exact hpq

/-- The slot of a thread that is in the group is the first that holds its number. -/
theorem own_slot {tid : Nat} {h : Thread} (hh : tm.thread? tid = some h) (hg : g.holds h = true) :
    (g.slots.idxOf h.tid, h) ∈ g.members tm ∧ ∀ j x, (j, x) ∈ g.members tm → x.tid = h.tid → g.slots.idxOf h.tid ≤ j := by
  obtain rfl := thread?_tid hh
  unfold Group.holds at hg
  simp only [Bool.and_eq_true, beq_iff_eq, List.contains_eq_mem, decide_eq_true_eq] at hg
  refine ⟨mem_members.2 ⟨h.tid, ?_, hh, hg.2⟩, fun j x hx he => ?_⟩
  · rw [List.getElem?_eq_getElem (List.idxOf_lt_length_iff.2 hg.1), List.getElem_idxOf]
  · obtain ⟨tid, hslot, hth, -⟩ := mem_members.1 hx
    obtain ⟨hj, hslot⟩ := List.getElem?_eq_some_iff.1 hslot
    have hown : g.slots[j] = h.tid := by rw [hslot, ← thread?_tid hth, he]
    by_contra hlt
    have hnot := List.not_of_lt_findIdx (p := (· == h.tid)) (not_le.1 hlt)
    rw [beq_iff_eq.2 hown] at hnot
    cases hnot

end

/-! ### Slots among members in slot order -/

section
variable {l : List (Nat × Thread)} {tid k : Nat} {h : Thread}

/-- A thread's own place among members in slot order. -/
theorem find_own (hl : l.Pairwise fun p q => p.1 < q.1) (hmem : (k, h) ∈ l) (ht : h.tid = tid)
    (hfirst : ∀ j x, (j, x) ∈ l → x.tid = tid → k ≤ j) : ((l.find? fun p => p.2.tid = tid).map (·.1)) = some k := by
  induction l with
  | nil => exact absurd hmem List.not_mem_nil
  | cons p l ih =>
    obtain ⟨hp, hl⟩ := List.pairwise_cons.1 hl
    by_cases he : p.2.tid = tid
    · rw [List.find?_cons_of_pos (by simpa using he), Option.map_some]
      rcases List.mem_cons.1 hmem with rfl | hmem
      · rfl
      · exact absurd (hp _ hmem) (not_lt.2 (hfirst p.1 p.2 List.mem_cons_self he))
    · rw [List.find?_cons_of_neg (by simpa using he)]
      rcases List.mem_cons.1 hmem with rfl | hmem
      · exact absurd ht he
      · exact ih hl hmem fun j x hx => hfirst j x (List.mem_cons_of_mem p hx)

/-- A scan covers the slots below a thread's own, and its own unless EXCL. -/
theorem scanSlots_eq (excl : Bool) (hl : l.Pairwise fun p q => p.1 < q.1) (hmem : (k, h) ∈ l) (ht : h.tid = tid)
    (hfirst : ∀ j x, (j, x) ∈ l → x.tid = tid → k ≤ j) :
    scanSlots excl tid l = l.filter fun p => p.1 < k || (p.1 == k && !excl) := by
  induction l with
  | nil => exact absurd hmem List.not_mem_nil
  | cons p l ih =>
    obtain ⟨hp, hl⟩ := List.pairwise_cons.1 hl
    unfold scanSlots
    by_cases he : p.2.tid = tid
    · have hk : p.1 = k := by
        rcases List.mem_cons.1 hmem with rfl | hmem
        · rfl
        · exact absurd (hp _ hmem) (not_lt.2 (hfirst p.1 p.2 List.mem_cons_self he))
      have htail : (l.filter fun p => p.1 < k || (p.1 == k && !excl)) = [] := by
        rw [List.filter_eq_nil_iff]
        intro q hq
        have := hp q hq
        have hne : ¬q.1 = k ∧ ¬q.1 < k := by omega
        simp [hne]
      rw [if_pos he, List.filter_cons, htail, hk]
      cases excl <;> simp
    · have hmem' : (k, h) ∈ l := (List.mem_cons.1 hmem).resolve_left fun e => he (e ▸ ht)
      rw [if_neg he, List.filter_cons_of_pos (by simp [hp _ hmem'])]
      rw [ih hl hmem' fun j x hx => hfirst j x (List.mem_cons_of_mem p hx)]

/-- A scan that covers a slot begins at the lowest. -/
theorem scanSlots_head (excl : Bool) (tid : Nat) (l : List (Nat × Thread)) :
    scanSlots excl tid l = [] ∨ (scanSlots excl tid l).head? = l.head? := by
  cases l with
  | nil => exact .inl rfl
  | cons p l =>
    unfold scanSlots
    split
    · cases excl
      · exact .inr rfl
      · exact .inl rfl
    · exact .inr rfl

end

/-! ### GSHF and GBCST (R103, R104) -/

/-- What a thread receives from the thread with a number. -/
theorem gotFrom_eq (l : List (Nat × Thread)) (e : Env) (a : Code) (fill : Word) (u : Int) :
    gotFrom l e a fill (some u) =
      if u < 0 ∨ (e.tm.kern.threads : Int) ≤ u then fill
      else match l.find? fun p => (p.2.tid : Int) = u with
        | some p => e.rd32 p.2 a 0
        | none => fill := by
  unfold gotFrom member
  by_cases h : 0 ≤ u ∧ u < e.tm.kern.threads
  · have hfind : (l.find? fun p => (p.2.tid : Int) == u) = l.find? fun p => (p.2.tid : Int) = u := rfl
    dsimp only
    rw [if_pos h, if_neg (by omega), hfind]
    cases l.find? fun p => (p.2.tid : Int) = u <;> rfl
  · dsimp only
    rw [if_neg h, if_pos (by omega)]

/-- The offset that GSHF reads in bits 15:0. -/
theorem gshf_offset (y : Word) : sext 16 y.toNat = (y.extractLsb' 0 16).toInt := sext_eq 16 y.toNat (by decide)

theorem gshf_tid (t : Nat) (y : Word) : gshfSource .tid t y.toNat = some ((y.extractLsb' 0 10).toNat : Int) := rfl

theorem gshf_off (t : Nat) (y : Word) : gshfSource .off t y.toNat = some ((t : Int) + (y.extractLsb' 0 16).toInt) := by
  rw [← gshf_offset]
  rfl

theorem gshf_rot (t : Nat) (y : Word) : gshfSource .rot t y.toNat =
    if 1 ≤ (y.extractLsb' 16 4).toNat ∧ (y.extractLsb' 16 4).toNat ≤ 10 then
      some ((t : Int) - (t : Int) % 2 ^ (y.extractLsb' 16 4).toNat +
        ((t : Int) % 2 ^ (y.extractLsb' 16 4).toNat + (y.extractLsb' 0 16).toInt) % 2 ^ (y.extractLsb' 16 4).toNat)
    else none := by
  have hz : (y.extractLsb' 16 4).toNat = y.toNat / 65536 % 16 := by
    rw [BitVec.extractLsb'_toNat, Nat.shiftRight_eq_div_pow]
  rw [← gshf_offset, hz]
  show (if _ then _ else _) = _
  have hle := Nat.mod_le t (2 ^ (y.toNat / 65536 % 16))
  push_cast [Nat.cast_sub hle]
  rfl

theorem gshf_rev (t : Nat) (y : Word) : gshfSource .rev t y.toNat =
    if 1 ≤ (y.extractLsb' 0 4).toNat ∧ (y.extractLsb' 0 4).toNat ≤ 10 then
      some ((t : Int) - (t : Int) % 2 ^ (y.extractLsb' 0 4).toNat + (2 ^ (y.extractLsb' 0 4).toNat - 1 - (t : Int) % 2 ^ (y.extractLsb' 0 4).toNat))
    else none := by
  have hz : (y.extractLsb' 0 4).toNat = y.toNat % 16 := rfl
  rw [hz]
  show (if _ then _ else _) = _
  have hle := Nat.mod_le t (2 ^ (y.toNat % 16))
  push_cast [Nat.cast_sub hle]
  rfl

/-! ### GVOTE (R105) -/

/-- The sum of different powers of two is the mask of their exponents. -/
theorem sum_powers_testBit (l : List (Nat × Thread)) (hl : l.Pairwise fun p q => p.1 < q.1) (m : Nat) (hm : ∀ p ∈ l, m < 2 ^ p.1) (k : Nat) :
    (l.foldl (fun m p => m + 2 ^ p.1) m).testBit k = (m.testBit k || l.any fun p => p.1 == k) := by
  induction l generalizing m with
  | nil => simp
  | cons p l ih =>
    obtain ⟨hp, hl⟩ := List.pairwise_cons.1 hl
    have hbit : m + 2 ^ p.1 = 2 ^ p.1 ||| m := by
      have := Nat.two_pow_add_eq_or_of_lt (hm p List.mem_cons_self) 1
      rw [Nat.mul_one] at this
      rw [← this, Nat.add_comm]
    have hnext : ∀ q ∈ l, m + 2 ^ p.1 < 2 ^ q.1 := fun q hq => by
      have hpow : 2 ^ (p.1 + 1) ≤ 2 ^ q.1 := Nat.pow_le_pow_right (by decide) (hp q hq)
      have := hm p List.mem_cons_self
      rw [Nat.pow_succ] at hpow
      omega
    rw [List.foldl_cons, ih hl _ hnext, hbit, Nat.testBit_or, Nat.testBit_two_pow, List.any_cons]
    cases m.testBit k <;> by_cases h : p.1 = k <;> simp [h]

/-- A mask gathered slot by slot. -/
theorem gather_getLsbD (yes : Nat → Bool) (n : Nat) (hn : n ≤ 32) (k : Nat) :
    ((List.range n).foldl (fun w k => if yes k then w ||| 1#32 <<< k else w) 0).getLsbD k = (decide (k < n) && yes k) := by
  induction n with
  | zero => simp
  | succ n ih =>
    have hbit : (1#32 <<< n).getLsbD k = decide (k = n) := by
      rw [← BitVec.twoPow_eq, BitVec.getLsbD_twoPow]
      have : n < 32 := by omega
      simp [this, eq_comm]
    rw [List.range_succ, List.foldl_append, List.foldl_cons, List.foldl_nil]
    have hlast : decide (k < n + 1) = (decide (k < n) || decide (k = n)) := by
      rw [← Bool.decide_or, decide_eq_decide]
      omega
    rw [hlast, Bool.and_or_distrib_right]
    by_cases hy : yes n = true
    · rw [if_pos hy, BitVec.getLsbD_or, ih (by omega), hbit]
      by_cases hk : k = n
      · rw [hk, hy, Bool.and_true, Bool.and_true]
      · simp [hk]
    · rw [if_neg hy, ih (by omega)]
      by_cases hk : k = n
      · simp [hk, hy]
      · simp [hk]

/-- The mask of the slots of the threads that vote yes. -/
theorem vote_slots (l : List (Nat × Thread)) (hl : l.Pairwise fun p q => p.1 < q.1) :
    BitVec.ofNat 32 (l.foldl (fun m p => m + 2 ^ p.1) 0) =
      (List.range 32).foldl (fun w k => if l.any fun p => p.1 == k then w ||| 1#32 <<< k else w) 0 := by
  refine BitVec.eq_of_getLsbD_eq fun k hk => ?_
  rw [gather_getLsbD (fun k => l.any fun p => p.1 == k) 32 le_rfl, BitVec.getLsbD_ofNat, sum_powers_testBit l hl 0 fun p _ => by positivity]
  simp

/-- Whether all threads agree. -/
theorem vote_same (l : List (Nat × Thread)) (f : Thread → Word) :
    BitVec.ofNat 32 (match l with | [] => 1 | p :: _ => (l.all fun q => f q.2 == f p.2).toNat) =
      if ∀ p ∈ l, ∀ q ∈ l, f p.2 = f q.2 then 1 else 0 := by
  cases l with
  | nil => simp
  | cons p l =>
    have hall : ((p :: l).all fun q => f q.2 == f p.2) = true ↔ ∀ q ∈ p :: l, ∀ r ∈ p :: l, f q.2 = f r.2 := by
      rw [List.all_eq_true]
      refine ⟨fun h q hq r hr => (beq_iff_eq.1 (h q hq)).trans (beq_iff_eq.1 (h r hr)).symm, fun h q hq => ?_⟩
      exact beq_iff_eq.2 (h q hq p List.mem_cons_self)
    dsimp only
    by_cases h : ((p :: l).all fun q => f q.2 == f p.2) = true
    · rw [if_pos (hall.1 h), h]
      rfl
    · rw [if_neg (mt hall.2 h), (Bool.not_eq_true _).mp h]
      rfl

/-- GVOTE in a thread of the group. -/
theorem gvote_runs {s : State} {g : Group} {rest : List Group} (hg : s.groups = g :: rest) (d a : Code) (op : VoteOp) {k : Env → Thread → Word}
    (hk : ∀ tm tid h, tm.thread? tid = some h → g.holds h = true →
      BitVec.ofNat 32 (voteOf op (g.members tm) (s.env tm) a h.tid) = k (s.env tm) h) :
    RunsLater (.gvote d a op) s g .wa (fun e h => Out.reg (h.dst32 d (k e h) false)) :=
  runsLater_of_groupLane (f := fun l e th => Out.reg (th.dst32 d (BitVec.ofNat 32 (voteOf op l e a th.tid)) false)) rfl rfl hg
    fun tm tid h hh hold => by rw [hk tm tid h hh hold]

/-- The count of the votes below a thread's own slot. -/
theorem vote_below {g : Group} {tm : Team} {tid : Nat} {h : Thread} (hh : tm.thread? tid = some h) (hold : g.holds h = true) (e : Env)
    (a : Code) : voteOf .below (g.members tm) e a h.tid =
      ((g.members tm).filter fun p => e.rd32 p.2 a 0 != 0).countP fun p => p.1 < g.slots.idxOf h.tid := by
  obtain ⟨hmem, hfirst⟩ := own_slot hh hold
  have hme := find_own members_ascend hmem rfl hfirst
  unfold voteOf
  dsimp only
  rw [hme, Option.getD_some, List.countP_eq_length_filter]

/-! ### GRED and GSCAN (R106) -/

section
variable {t : ElemTy} (op : FoldOp) (rm : Rm)

/-- One step of an integer fold on elements. -/
def foldElem (t : ElemTy) (op : FoldOp) {w : Nat} (x y : BitVec w) : BitVec w :=
  match op with
  | .add => x + y | .and => x &&& y | .or => x ||| y | .xor => x ^^^ y
  | .min => if lessT t x y then x else y
  | .max => if lessT t x y then y else x

/-- What an integer fold of nothing gives. -/
def foldUnit (t : ElemTy) (op : FoldOp) (w : Nat) : BitVec w :=
  match op with
  | .add | .or | .xor => 0#w
  | .and => BitVec.allOnes w
  | .min => if t = .n32 then BitVec.allOnes w else BitVec.intMax w
  | .max => if t = .n32 then 0#w else BitVec.intMin w

theorem value_toNat (t : ElemTy) (x : BitVec (ElemTy.width t)) : ElemTy.value t x.toNat = exactT t x := by
  rw [value_eq t x.toNat fun h => by subst h; exact x.isLt, ofNat_toNat_self]

theorem foldStep_int (ht : t.isInt3 = true) (x y : BitVec (ElemTy.width t)) :
    foldStep op t rm x.toNat y.toNat = ((foldElem t op x y).toNat, 0) := by
  have hf : t ≠ .f32 := by
    rintro rfl
    cases ht
  have hint (f : Int → Int → Int) : wrap (ElemTy.width t) (f (ElemTy.value t x.toNat) (ElemTy.value t y.toNat)) =
      (BitVec.ofInt (ElemTy.width t) (f (exactT t x) (exactT t y))).toNat := by rw [wrap_eq, value_toNat, value_toNat]
  cases op with
  | add =>
    refine (if_neg hf).trans ?_
    rw [hint (· + ·), ofInt_add_exact]
    rfl
  | min =>
    refine (if_neg hf).trans ?_
    rw [hint min, ofInt_min_exact]
    rfl
  | max =>
    refine (if_neg hf).trans ?_
    rw [hint max, ofInt_max_exact]
    rfl
  | and => exact congrArg (·, 0) (BitVec.toNat_and x y).symm
  | or => exact congrArg (·, 0) (BitVec.toNat_or x y).symm
  | xor => exact congrArg (·, 0) (BitVec.toNat_xor x y).symm

theorem foldIdentity_int (ht : t.isInt3 = true) : foldIdentity op t = (foldUnit t op (ElemTy.width t)).toNat := by
  cases t <;> simp only [ElemTy.isInt3, Bool.false_eq_true] at ht <;> cases op <;> rfl

/-- An integer fold of whole operands is the fold of their elements. -/
theorem foldAll_int (ht : t.isInt3 = true) (l : List (BitVec (ElemTy.width t))) :
    foldAll op t rm (l.map BitVec.toNat) =
      ((match l with | [] => foldUnit t op (ElemTy.width t) | x :: l => l.foldl (foldElem t op) x).toNat, 0) := by
  have hfold (l : List (BitVec (ElemTy.width t))) (x : BitVec (ElemTy.width t)) :
      (l.map BitVec.toNat).foldl (fun r y => ((foldStep op t rm r.1 y).1, r.2 ||| (foldStep op t rm r.1 y).2)) (x.toNat, 0) =
        ((l.foldl (foldElem t op) x).toNat, (0 : BitVec 6)) := by
    induction l generalizing x with
    | nil => rfl
    | cons y l ih =>
      rw [List.map_cons, List.foldl_cons, foldStep_int op rm ht]
      dsimp only
      rw [BitVec.or_self]
      exact ih (foldElem t op x y)
  cases l with
  | nil => exact congrArg (·, 0) (foldIdentity_int op ht)
  | cons x l => exact hfold l x

/-- An integer fold over the threads of a list. -/
theorem foldAll_threads (ht : t.isInt3 = true) (e : Env) (a : Code) (l : List (Nat × Thread)) :
    foldAll op t rm (l.map fun p => e.rdT p.2 t a 0) =
      (onElems t fun w el => match l with
        | [] => foldUnit t op w
        | p :: l => l.foldl (fun r q => foldElem t op r (el (e.rdT q.2 t a 0))) (el (e.rdT p.2 t a 0)), 0) := by
  have hw : ElemTy.width t = if t.isPair then 64 else 32 := by
    cases t <;> simp only [ElemTy.isInt3, Bool.false_eq_true] at ht <;> rfl
  have hread (p : Nat × Thread) : e.rdT p.2 t a 0 = (BitVec.ofNat (ElemTy.width t) (e.rdT p.2 t a 0)).toNat := by
    rw [BitVec.toNat_ofNat, Nat.mod_eq_of_lt (hw ▸ e.rdT_lt p.2 t a 0)]
  have hmap : (l.map fun p => e.rdT p.2 t a 0) = (l.map fun p => BitVec.ofNat (ElemTy.width t) (e.rdT p.2 t a 0)).map BitVec.toNat := by
    rw [List.map_map]
    exact List.map_congr_left fun p _ => hread p
  rw [hmap, foldAll_int op rm ht, onElems_plain ht]
  cases l with
  | nil => rfl
  | cons p l =>
    rw [List.map_cons]
    dsimp only
    rw [List.foldl_map]

/-- The operation of a float fold. -/
def foldFloat (op : FoldOp) (rm : Rm) (x y : Nat) : Nat × BitVec 6 :=
  match op with
  | .min => fmtF32.pick false x y
  | .max => fmtF32.pick true x y
  | _ => fmtF32.add { rm := rm, sat := false, scale := 0 } x y

/-- A float fold over the threads of a list. -/
theorem foldAll_floats (hop : op = .add ∨ op = .min ∨ op = .max) (e : Env) (a : Code) (l : List (Nat × Thread)) :
    foldAll op .f32 rm (l.map fun p => e.rdT p.2 .f32 a 0) =
      match l with
      | [] => (match op with | .min => 0x7F800000 | .max => 0xFF800000 | _ => 0, 0)
      | p :: l => l.foldl (fun r q => ((foldFloat op rm r.1 (e.rdT q.2 .f32 a 0)).1, r.2 ||| (foldFloat op rm r.1 (e.rdT q.2 .f32 a 0)).2))
          (e.rdT p.2 .f32 a 0, (0 : BitVec 6)) := by
  have hstep : foldStep op .f32 rm = foldFloat op rm := by rcases hop with rfl | rfl | rfl <;> rfl
  cases l with
  | nil => rcases hop with rfl | rfl | rfl <;> rfl
  | cons p l =>
    rw [List.map_cons]
    show List.foldl _ _ (List.map _ l) = _
    rw [List.foldl_map, hstep]

/-- The mode of a scan is that of the lowest slot of the group. -/
theorem foldOf_scan (excl : Bool) (tid : Nat) (l : List (Nat × Thread)) (e : Env) (a : Code) :
    foldOf (scanSlots excl tid l) e a op t =
      foldAll op t ((l.head?.map (·.2.rm)).getD .rne) ((scanSlots excl tid l).map fun p => e.rdT p.2 t a 0) := by
  unfold foldOf
  rcases scanSlots_head excl tid l with h | h
  · rw [h]
    rfl
  · rw [h]

end

/-- Settles O15: each group word by what it computes from the members in slot order. -/
theorem groupWords : Obligations.GroupWords := by
  refine ⟨fun s g rest d a b mode u m hg hm => ?_, fun s g rest d a hg => ?_, fun s g rest d a op t excl hg ht => ?_⟩
  case refine_1 =>
    intro fill got
    have hfill : fillOf m = fill := by cases m <;> rfl
    have hgot (tm : Team) (src : Int) : gotFrom (g.members tm) (s.env tm) a (fillOf m) (some src) = got (s.env tm) src := by
      rw [hfill, gotFrom_eq]
      rfl
    have hseg (tm : Team) (z : Nat) (src : Int) : gotFrom (g.members tm) (s.env tm) a (fillOf m) (if 1 ≤ z ∧ z ≤ 10 then some src else none) =
        if 1 ≤ z ∧ z ≤ 10 then got (s.env tm) src else fill := by
      split
      · exact hgot tm src
      · exact hfill
    refine ⟨runsLater_of_groupLane (f := fun l e th => Out.reg (th.dst32 d (gotFrom l e a (fillOf m) (some u.toNat)) false)) rfl hm hg
        fun tm tid h hh hold => by rw [hgot],
      runsLater_of_groupLane (f := fun l e th =>
          Out.reg (th.dst32 d (gotFrom l e a (fillOf m) (gshfSource mode th.tid (e.rd32 th b 2).toNat)) false)) rfl hm hg
        fun tm tid h hh hold => ?_⟩
    cases mode with
    | tid => rw [gshf_tid, hgot]
    | off => rw [gshf_off, hgot]
    | rot => rw [gshf_rot, hseg]
    | rev => rw [gshf_rev, hseg]
  case refine_2 =>
    intro yes vote
    refine ⟨gvote_runs hg d a .count fun tm tid h hh hold => rfl, gvote_runs hg d a .below fun tm tid h hh hold => ?_,
      gvote_runs hg d a .slots fun tm tid h hh hold => ?_, gvote_runs hg d a .same fun tm tid h hh hold => ?_,
      gvote_runs hg d a .first fun tm tid h hh hold => ?_⟩
    · rw [vote_below hh hold]
      rfl
    · exact vote_slots _ (members_ascend.filter _)
    · exact vote_same (g.members tm) fun x => (s.env tm).rd32 x a 0
    · show BitVec.ofNat 32 (match (g.members tm).filter fun p => (s.env tm).rd32 p.2 a 0 != 0 with | p :: _ => p.2.tid | [] => 0xFFFFFFFF) = _
      have hyes : yes (s.env tm) = (g.members tm).filter fun p => (s.env tm).rd32 p.2 a 0 != 0 := rfl
      rw [hyes]
      cases (g.members tm).filter fun p => (s.env tm).rd32 p.2 a 0 != 0 <;> rfl
  case refine_3 =>
    intro step ident fold low
    have hfold (e : Env) (rm : Rm) (l : List (Nat × Thread)) : foldAll op t rm (l.map fun p => e.rdT p.2 t a 0) = fold e rm l := by
      rcases ht with ht | ⟨rfl, hop⟩
      · have hf : t ≠ .f32 := by
          rintro rfl
          cases ht
        have hstep : step = fun w => foldElem t op (w := w) := by
          funext w x y
          cases op <;> rfl
        have hident : ident = foldUnit t op := by
          funext w
          cases op <;> rfl
        rw [foldAll_threads op rm ht]
        show _ = if t = .f32 then _ else _
        rw [if_neg hf, hstep, hident] <;> cases l <;> rfl
      · rw [foldAll_floats op rm hop]
        show _ = if (ElemTy.f32 = .f32) then _ else _
        rw [if_pos rfl]
        rcases hop with rfl | rfl | rfl <;> rfl
    refine ⟨runsLater_of_groupLane (f := fun l e th => outT th t d (foldOf l e a op t)) rfl rfl hg fun tm tid h hh hold => ?_,
      runsLater_of_groupLane (f := fun l e th => outT th t d (foldOf (scanSlots excl th.tid l) e a op t)) rfl rfl hg
        fun tm tid h hh hold => ?_⟩
    · exact congrArg (outT h t d) (hfold _ _ _)
    · obtain ⟨hmem, hfirst⟩ := own_slot hh hold
      refine congrArg (outT h t d) ?_
      rw [foldOf_scan, hfold, scanSlots_eq excl members_ascend hmem rfl hfirst]
      rfl

end Sys2Proof.Machine
end

section
/-!
SUPPORT and PROOFS. Conversions (R100): a packed destination with an f64 source, which no well-formed FCVT has.
-/

namespace Sys2Proof.Machine

/-- FCVT of an f64 pair to f16x2: R100 converts a packed format to a packed one only. -/
def pairToHalves : Instr := .fcvt 0 0 .f16x2 .f64 0 .none

theorem pairToHalves_not_wf : pairToHalves.wf = false := by decide

/-- A thread that issues with the number 1.0 of f64 in its pair v0: v0 itself is zero. -/
def pairThread : Thread := { twinThread with v := [0, 0x3FF00000] }

/-- Its team. -/
def pairTeam : Team := { twinTeam with threads := [pairThread] }

/-- The machine with that thread's group and team. -/
def pairState : State := { State.reset with groups := [twinGroup], teams := [pairTeam] }

theorem pairState_runs : pairState.team? 0 = some pairTeam ∧ pairTeam.thread? 0 = some pairThread ∧
    runsIn pairState twinGroup .none pairTeam pairThread = true := by decide +kernel

/-- The flags of the thread. -/
def pairFlags (s : State) : Option (BitVec 6) := (s.thread? 0 0).map (·.flags)

/-- FCVT reads the pair, whose bits 63:16 are a subnormal number of f64, and raises NX. -/
theorem pair_raises : ∀ t, exec pairToHalves pairState = .next t → pairFlags t ≠ some 0 := by
  intro t ht
  cases ht
  decide +kernel

/-- The conversion of both halves of v0 raises nothing. -/
theorem halves_of_v0 : (convert .f16x2 .f64 (fop pairThread .none) false false
    (((pairState.env pairTeam).rd32 pairThread 0 0).toNat % 65536)).2 |||
    (convert .f16x2 .f64 (fop pairThread .none) false false (((pairState.env pairTeam).rd32 pairThread 0 0).toNat / 65536)).2 = 0 := by
  decide +kernel

theorem now_flags (o : Out) (h : Thread) (hp : o.preds = []) : (o.now h).flags = h.flags ||| o.flags := by
  have hwrite (l : List (Nat × DWord)) (t : Thread) : (l.foldl (fun t r => t.write r.1 r.2) t).flags = t.flags := by
    induction l generalizing t with
    | nil => rfl
    | cons r l ih =>
      rw [List.foldl_cons, ih, Thread.write]
      show (t.setRaw r.1 r.2).flags = _
      rw [Thread.setRaw_frame]
  unfold Out.now
  rw [hp]
  exact congrArg (· ||| o.flags) (hwrite o.regs h)

/-- Refutes O14: its clause on a packed destination takes the source to be one 32-bit register for every source format, f64 too,
where the model reads the pair. In `pairState` FCVT from f64 to f16x2 converts the upper bits of the pair and raises NX; the
statement asks for the conversion of v0, which is zero and raises nothing. Such a word is not well formed (R100,
`pairToHalves_not_wf`), but the statement does not exclude it. -/
theorem not_conversions : ¬ Obligations.Conversions := by
  intro h
  obtain ⟨hteam, hthread, hruns⟩ := pairState_runs
  obtain ⟨t, hexec, hlanes⟩ := (h pairState twinGroup [] 0 0 .f16x2 .f64 .f32 .i32 0 .none rfl).1 rfl
  have hafter := hlanes.thread 0 0 _ _ hteam hthread
  rw [show (Instr.fcvt 0 0 .f16x2 .f64 0 .none).mods = .none from rfl, if_pos hruns] at hafter
  refine pair_raises t hexec ?_
  unfold pairFlags
  rw [hafter, Option.map_some, now_flags _ _ rfl]
  exact congrArg (fun x => some (0#6 ||| x)) halves_of_v0

end Sys2Proof.Machine
end

section
/-!
SUPPORT and PROOFS. The order of an access's checks (R128).
-/

namespace Sys2Proof.Machine

/-- A translation whose leaf is found ends as the checks of the leaf say. -/
theorem translate_of_leaf {s s1 : State} {ag : Agent} {va : Nat} {kind : Kind} {e : TlbEntry}
    (hl : s.leafFor ag.core ag.direct ag.tenant ag.asid va kind = (s1, .ok e)) :
    s.translate ag va kind = (s1, match s1.checkLeaf ag.tenant ag.asid va ag.sup kind e with
      | .error x => .error { cause := x.1, detail := x.2, write := kind.writes, addr := BitVec.ofNat 64 va }
      | .ok l => .ok (l, { tenant := ag.tenant, asid := ag.asid, base := e.base, log := e.log, pte := e.pte })) := by
  unfold State.translate
  rw [hl]
  dsimp only
  cases s1.checkLeaf ag.tenant ag.asid va ag.sup kind e <;> rfl

/-- The checks of a leaf where no page is bound or exchanged, in the order of R128. -/
theorem checkLeaf_unbound {s : State} (hb : s.bindings = []) (hr : s.remaps = []) (tenant asid va : Nat) (sup : Bool) (kind : Kind)
    (e : TlbEntry) :
    s.checkLeaf tenant asid va sup kind e =
      if kind.writes = true ∧ e.write = false then .error (.perm, 1 + (kind == .fetch).toNat * 16)
      else if e.sup = true ∧ sup = false then .error (.perm, 2 + (kind == .fetch).toNat * 16)
      else if kind = .fetch ∧ e.xn = true then .error (.perm, 3 + (kind == .fetch).toNat * 16)
      else if e.psn = true then .error (.poison, 0)
      else if s.homeUp (e.frame + va % 2 ^ e.log) = false then .error (.homedown, 0)
      else .ok (.mem (e.frame + va % 2 ^ e.log)) := by
  unfold State.checkLeaf State.bindingAt State.remapped
  rw [hb, hr]
  simp only [Bool.not_eq_true', List.find?_nil, Option.map_none]

theorem passes {a b : Bool} (h : a = false ∨ b = true) : ¬(a = true ∧ b = false) := by
  rintro ⟨ha, hb⟩
  rcases h with h | h
  · exact Bool.noConfusion (h.symm.trans ha)
  · exact Bool.noConfusion (h.symm.trans hb)

theorem fetchBit (kind : Kind) : (kind == .fetch).toNat * 16 = if kind = .fetch then 16 else 0 := by cases kind <;> rfl

/-- Settles O28: a translation is its leaf's checks (`translate_of_leaf`), and these stand in the order of `checkLeaf_unbound`. -/
theorem checksComeInOrder : Obligations.ChecksComeInOrder := by
  intro s s1 ag va kind e hl hb hr
  dsimp only
  rw [translate_of_leaf hl, checkLeaf_unbound hb hr, fetchBit]
  refine ⟨fun hw he => by rw [if_pos ⟨hw, he⟩]; cases kind <;> [cases hw; rfl; rfl; cases hw], fun hw => ?_⟩
  rw [if_neg (passes hw)]
  refine ⟨fun he hs => by rw [if_pos ⟨he, hs⟩], fun hs => ?_⟩
  rw [if_neg (passes hs)]
  refine ⟨fun hf hx => by rw [if_pos ⟨hf, hx⟩, if_pos hf], fun hx => ?_⟩
  rw [if_neg fun h => hx.elim (· h.1) fun hx => Bool.noConfusion (hx.symm.trans h.2)]
  exact ⟨fun hp => by rw [if_pos hp], fun hp hu => by rw [hp, if_neg nofun, if_pos hu],
    fun hp hu => ⟨_, by rw [hp, if_neg nofun, hu, if_neg nofun]⟩⟩

end Sys2Proof.Machine
end

section
/-!
SUPPORT and PROOFS. A fence whose acquire uncovers a dirty byte that its release has not written back (R133, R195, R197).
-/

namespace Sys2Proof.Machine

/-- A byte that team 0 has written. -/
def ownByte : DirtyByte := { off := 0, val := 5, writers := [(0, 0)], carried := [], since := 0 }

/-- A core asleep since another epoch, past the end of its logical time, with two records of line 0: the first without a dirty byte,
the second with a byte of team 0. -/
def coveredCore : Core :=
  { id := 0, ctime := epochLimit + 1
    lines := [{ pa := 0, data := [], lease := none, vas := [], dirty := [] }, { pa := 0, data := [], lease := none, vas := [], dirty := [ownByte] }]
    consts := [], tlb := [], asleep := some 1 }

/-- The machine with the group and the team of `twinState` on that core. -/
def coveredState : State := { State.reset with groups := [twinGroup], teams := [twinTeam], cores := [coveredCore] }

/-- FENCE of order ACQREL at domain scope. -/
def fullFence : Mods := .f1 { order := .acqrel, scope := .dom, hint := .normal, guard := Guard.off }

theorem covered_inv : coveredState.Inv := by
  refine .of rfl ?_ ?_
  · intro x hx
    obtain rfl := List.mem_singleton.1 hx
    exact ⟨rfl, fun y hy => by cases hy⟩
  · intro c hc x hx
    obtain rfl := List.mem_singleton.1 hc
    simp only [coveredCore, List.mem_cons, List.not_mem_nil, or_false] at hx
    rcases hx with rfl | rfl
    · exact ⟨List.nodup_nil, fun _ h => by cases h⟩
    · exact ⟨List.nodup_singleton _, fun d h => by rw [List.mem_singleton.1 h]; decide⟩

/-- Whether the home of line 0 answers after an outcome, and the dirty bytes that core 0 then holds in it. -/
def heldInLine0 (o : Host.Outcome State Fault Refusal) : Option (Bool × List DirtyByte) :=
  match o with
  | .next t => some (t.homeUp 0, (t.line 0 0).dirty)
  | _ => none

/-- The release looks at the first record only; the acquire's epoch change clears the sleeping core of it, and the second stands for
the line. -/
theorem covered_keeps : heldInLine0 (exec (.fence fullFence) coveredState) = some (true, [{ ownByte with carried := [0] }]) := by
  decide +kernel

/-- Refutes O26: the statement's states may hold two records of one line in an L1, which `State.Inv` does not exclude
(`covered_inv`). In `coveredState` the fence's release finds nothing in the first record of line 0, its acquire changes the epoch,
which clears that record, and the byte of the second, which the fence's own team wrote, is still dirty after the fence. -/
theorem not_fencesPrefetchGuards : ¬ Obligations.FencesPrefetchGuards := by
  intro h
  obtain ⟨t, hexec, hrun⟩ := h.1 coveredState twinGroup [] fullFence rfl
  have hheld := covered_keeps
  rw [hexec] at hheld
  obtain ⟨hup, hdirty⟩ := Prod.mk.inj (Option.some.inj hheld)
  rw [show coveredState.active twinGroup (Instr.fence fullFence).mods = [0] from rfl] at hrun
  cases hrun with
  | cons hstep hrest =>
    cases hrest
    obtain ⟨-, hrel, -⟩ := hstep twinTeam twinThread rfl rfl
    have hclean := hrel rfl rfl rfl 0 hup { ownByte with carried := [0] }
    exact hclean (hdirty ▸ List.mem_singleton.2 rfl) (0, 0) (List.mem_singleton.2 rfl) rfl

end Sys2Proof.Machine
end

section
/-!
SUPPORT and PROOFS. A record that is posted into a memory whose cells name an address twice (R335, R336, R354).
-/

namespace Sys2Proof.Machine

/-- The supervisor's cause, with an empty record. -/
def blankFatal : Fatal := { tenant := 0, record := List.replicate 64 0, sup := true }

/-- A device log at address 64 and a memory that is not in the canonical form: two cells of address 128. -/
def twiceState : State :=
  { State.reset with mem := [(128, 1), (128, 2)], fatals := [blankFatal], regs := { ModRegs.reset with devlog := 64 } }

theorem twice_quiet : quietOwner twiceState rtWindow :=
  ⟨fun _ hc => absurd hc List.not_mem_nil, fun _ hx => absurd hx List.not_mem_nil⟩

/-- The byte at address 128 that an outcome leaves. -/
def byte128 (o : Host.Outcome State Fault Refusal) : Option Byte :=
  match o with
  | .next t => some (cellGet 128 t.mem)
  | _ => none

/-- The first byte of the log's first record after the reset: the write of its zero takes away one of the two cells. -/
theorem twice_keeps : byte128 (exec .deviceRuntimeReset twiceState) = some 2 := by decide +kernel

/-- Refutes O47: the statement's states may hold a memory that is not in the canonical form (`State.Inv` is no hypothesis of it). In
`twiceState` address 128, where the log's first record goes, has two cells; the record's zero removes one of them, the other is
read, and the statement asks for the record's byte. -/
theorem not_watchdogStopsAndResets : ¬ Obligations.WatchdogStopsAndResets := by
  intro h
  obtain ⟨-, -, hreset, -⟩ := h
  obtain ⟨t, hexec, -, -, -, hlogs, -⟩ := (hreset twiceState).2 ⟨blankFatal, List.mem_singleton.2 rfl, rfl⟩
  obtain ⟨-, hposted⟩ := hlogs twice_quiet
  have hrecord := (hposted (by decide) (by decide) (by decide) (by decide)).1 0 blankFatal.record rfl 0 (by decide)
  have hzero : byte128 (.next t) = some 0 := congrArg some hrecord
  rw [← hexec, twice_keeps] at hzero
  exact absurd hzero (by decide)

end Sys2Proof.Machine
end

section
/-!
SUPPORT and PROOFS. Read-modify-writes at the home: STSB, ATOM, ARED and ACAS (R124, R127, R129 to R131, R183, R184).
-/

namespace Sys2Proof.Machine

/-! ### Acquires leave threads and the map as they were -/

theorem steady_acquireCore (s : State) (c : Nat) : Steady s (s.acquireCore c) := .ite (steady_changeEpoch s _) (steady_modCore s c _)

theorem steady_coverLease (s : State) (die line last : Nat) : Steady s (s.coverLease die line last) := by
  unfold State.coverLease
  exact .ite (steady_setStamp s _) (steady_modDie s die (fun _ => rfl) fun _ => rfl)

theorem steady_coverLeases (s : State) (c : Nat) : Steady s (s.coverLeases c) := by
  unfold State.coverLeases
  refine Steady.foldl (fun s l => ?_) _ s
  split
  · exact .ite (steady_coverLease s _ _ _) (.refl s)
  · exact .refl s

theorem steady_acquireLines (s : State) (c : Nat) (sel : L1Line → Bool) : Steady s (s.acquireLines c sel) :=
  .ite (steady_changeEpoch s _) ((steady_modCore s c _).trans (steady_coverLeases _ c))

theorem steady_acquire (s : State) (ag : Agent) (sc : Scope) (g : Option GuardWord) : Steady s (s.acquire ag sc g) := by
  unfold State.acquire
  refine .ite (.refl s) (Steady.elsewhere (Steady.ite (steady_writeBack s _ _) ?_) rfl rfl rfl rfl rfl rfl)
  split
  · exact steady_acquireCore s _
  · exact steady_acquireLines s _ _

theorem calm_coverLeases (s : State) (c : Nat) : Calm s (s.coverLeases c) := by
  unfold State.coverLeases
  refine Calm.foldl (fun s l => ?_) _ s
  split
  · exact .ite (.ite (calm_setStamp s _) (calm_modDie s _ _)) (.refl s)
  · exact .refl s

/-- An acquire under a guard word is as calm as one outside. -/
theorem calm_acquire_guarded (s : State) (ag : Agent) (sc : Scope) (g : Option GuardWord) : Calm s (s.acquire ag sc g) := by
  cases g with
  | none => exact calm_acquire s ag sc
  | some w =>
    unfold State.acquire
    refine .ite (.refl s) (Calm.trans (.ite (calm_flushCore s _) ?_) (.same rfl rfl))
    exact .ite (.same rfl rfl) ((calm_modCore s _ _).trans (calm_coverLeases _ _))

/-! ### What a core's write-back takes to memory -/

/-- The dirty bytes that a core holds are among those that it held before. -/
def Sheds (c : Nat) (s t : State) : Prop := ∀ x ∈ (t.core c).lines, ∀ d ∈ x.dirty, ∃ y ∈ (s.core c).lines, y.pa = x.pa ∧ d ∈ y.dirty

section
variable {c : Nat} {s t u : State}

theorem Sheds.refl (c : Nat) (s : State) : Sheds c s s := fun x hx _ hd => ⟨x, hx, rfl, hd⟩

theorem Sheds.trans (h : Sheds c s t) (k : Sheds c t u) : Sheds c s u := by
  intro x hx d hd
  obtain ⟨y, hy, hpa, hdy⟩ := k x hx d hd
  obtain ⟨z, hz, hpa', hdz⟩ := h y hy d hdy
  exact ⟨z, hz, hpa'.trans hpa, hdz⟩

/-- The lines of a core that is on record, or none. -/
theorem lines_core (s : State) (c : Nat) : (s.core c).lines = ((s.cores.find? (·.id = c)).map (·.lines)).getD [] := by
  unfold State.core
  cases s.cores.find? (·.id = c) <;> rfl

theorem Sheds.of_lines (h : (t.core c).lines = (s.core c).lines) : Sheds c s t := by
  intro x hx d hd
  rw [h] at hx
  exact ⟨x, hx, rfl, hd⟩

theorem Sheds.of_cores (h : t.cores = s.cores) : Sheds c s t := .of_lines (by rw [lines_core, lines_core, h])

theorem Sheds.ite {p : Prop} [Decidable p] (ht : Sheds c s t) (hu : Sheds c s u) : Sheds c s (if p then t else u) := by
  split
  · exact ht
  · exact hu

end

theorem newEpoch_id (e : Nat) (x : Core) : (x.newEpoch e).id = x.id := by
  unfold Core.newEpoch
  split
  · rfl
  · split <;> rfl

theorem newEpoch_lines {e : Nat} {x : Core} {l : L1Line} (hl : l ∈ (x.newEpoch e).lines) : ∃ y ∈ x.lines, y.pa = l.pa ∧ y.dirty = l.dirty := by
  have hexp : ∀ {l}, l ∈ x.expired → ∃ y ∈ x.lines, y.pa = l.pa ∧ y.dirty = l.dirty := by
    intro l hl
    obtain ⟨y, hy, rfl⟩ := List.mem_map.1 hl
    exact ⟨y, hy, rfl, rfl⟩
  unfold Core.newEpoch at hl
  split at hl
  · exact hexp hl
  · split at hl
    · exact hexp hl
    · exact hexp (List.mem_filter.1 hl).1

theorem changeEpoch_sheds (s : State) (die c : Nat) : Sheds c s (s.changeEpoch die) := by
  have hfind : (s.changeEpoch die).cores.find? (·.id = c) =
      (s.cores.find? (·.id = c)).map fun x => if dieOfCore x.id = die then x.newEpoch (s.die die).epoch else x := by
    show (s.cores.map _).find? _ = _
    rw [List.find?_map]
    congr 2
    funext x
    simp only [Function.comp_apply]
    split <;> [rw [newEpoch_id]; rfl]
  intro l hl d hd
  rw [lines_core, hfind] at hl
  rw [lines_core]
  cases h : s.cores.find? (·.id = c) with
  | none =>
    rw [h] at hl
    cases hl
  | some x =>
    rw [h] at hl
    dsimp only [Option.map_some, Option.getD_some] at hl ⊢
    split at hl
    · obtain ⟨y, hy, hpa, hdirty⟩ := newEpoch_lines hl
      exact ⟨y, hy, hpa, hdirty ▸ hd⟩
    · exact ⟨l, hl, rfl, hd⟩

theorem dropCopies_cores (s : State) (sel : Stamp → Bool) : (s.dropCopies sel).cores = s.cores := by
  unfold State.dropCopies
  dsimp only
  generalize s.stamps.filter (fun x => x.die.isSome && sel x) = l
  induction l generalizing s with
  | nil => rfl
  | cons x l ih =>
    rw [List.foldl_cons, ih]
    split <;> rfl

theorem directory_cores (s : State) (line : Nat) (w : Option Nat) (due : Nat) (teams : List Nat) :
    (s.directory line w due teams).cores = s.cores := by
  unfold State.directory
  refine (dropCopies_cores (ite _ _ _) _).trans ?_
  split <;> rfl

theorem stampWrite_sheds (s : State) (line : Nat) (core : Option Nat) (due : Nat) (teams : List Nat) (c : Nat) :
    Sheds c s (s.stampWrite line core due teams).2 := by
  unfold State.stampWrite
  split
  · exact Sheds.trans (.ite (changeEpoch_sheds s _ c) (.refl c s)) (.of_cores (directory_cores _ _ _ _ _))
  · exact .refl c s

theorem agentWrite_sheds (s : State) (pa : Nat) (b : List Byte) (c : Nat) : Sheds c s (s.agentWrite pa b) := by
  induction b generalizing s pa with
  | nil => exact .refl c s
  | cons x b ih => exact ((stampWrite_sheds s _ _ _ _ c).trans (.of_cores rfl)).trans (ih _ _)

theorem coreHomeWrite_sheds (s : State) (c pa due : Nat) (teams : List Nat) (b : List Byte) :
    Sheds c s (s.coreHomeWrite c pa due teams b) := by
  have hcore (u : State) (f : Core → Core) (hid : ∀ x, (f x).id = x.id) (hf : ∀ x, (f x).lines = x.lines) : Sheds c u (u.modCore c f) :=
    .of_lines (by rw [core_modCore _ _ _ _ hid, if_pos rfl, hf])
  unfold State.coreHomeWrite
  exact ((stampWrite_sheds s (lineOf pa) (some c) due teams c).trans (.of_cores rfl)).trans
    (hcore (State.homeWrite _ pa b) _ (fun _ => rfl) fun _ => rfl)

/-- A line is one of its core's, or has no dirty byte. -/
theorem line_mem (s : State) (c pa : Nat) : s.line c pa ∈ (s.core c).lines ∨ (s.line c pa).dirty = [] := by
  unfold State.line
  cases h : (s.core c).lines.find? (·.pa = lineOf pa) with
  | none => exact .inr rfl
  | some x => exact .inl (List.mem_of_find?_eq_some h)

/-- What changes of memory are a core's dirty bytes, and the core holds no new ones. -/
structure Empties (c : Nat) (s t : State) : Prop where
  sheds : Sheds c s t
  wrote : ∀ a, cellGet a t.mem = cellGet a s.mem ∨
    ∃ x ∈ (s.core c).lines, ∃ d ∈ x.dirty, lineOf x.pa + d.off = a ∧ cellGet a t.mem = d.val

theorem Empties.trans {c : Nat} {s t u : State} (h : Empties c s t) (k : Empties c t u) : Empties c s u where
  sheds := h.sheds.trans k.sheds
  wrote a := by
    rcases k.wrote a with e | ⟨x, hx, d, hd, ha, e⟩
    · rw [e]
      exact h.wrote a
    · obtain ⟨y, hy, hpa, hdy⟩ := h.sheds x hx d hd
      exact .inr ⟨y, hy, d, hdy, hpa ▸ ha, e⟩

/-- The state in which some dirty bytes of a line have gone home. -/
def State.wentHome (s : State) (c l : Nat) (out : List DirtyByte) : State :=
  out.foldl (fun s d => s.coreHomeWrite c (l + d.off) (d.since + writeBackCycles) (d.writers.map (·.1) ++ d.carried) [d.val]) s

theorem wentHome_sheds (s : State) (c l : Nat) (out : List DirtyByte) : Sheds c s (s.wentHome c l out) := by
  unfold State.wentHome
  induction out generalizing s with
  | nil => exact .refl c s
  | cons d out ih => exact (coreHomeWrite_sheds s c _ _ _ _).trans (ih _)

/-- The dirty bytes of a line that leave it. -/
def L1Line.leaving (x : L1Line) (sel : DirtyByte → Bool) (d : DirtyByte) : Bool :=
  (x.wholes 8 ((x.dirty.filter sel).map (·.off))).contains d.off

/-- A write-back of a line: its leaving bytes go home, and the others stay dirty. -/
theorem writeBackLine_eq (s : State) (c pa : Nat) (sel : DirtyByte → Bool) :
    let x := s.line c pa
    let out := x.dirty.filter (x.leaving sel)
    ∃ y : L1Line, y.pa = lineOf pa ∧ y.dirty = x.dirty.filter (fun d => !x.leaving sel d) ∧
      s.writeBackLine c pa sel = if (out.isEmpty || !s.homeUp pa) = true then s else (s.wentHome c (lineOf pa) out).setLine c y := by
  intro x out
  refine ⟨{ x with lease := ((s.wentHome c (lineOf pa) out).line c pa).lease, dirty := x.dirty.filter (fun d => !x.leaving sel d)
                   data := out.foldl (fun l d => l.set d.off d.val) x.data }, line_pa s c pa, rfl, ?_⟩
  unfold State.writeBackLine
  dsimp only
  rw [List.partition_eq_filter_filter]
  rfl

theorem setLine_sheds {s t : State} {c : Nat} {x : L1Line} (h : Sheds c s t)
    (hx : ∀ d ∈ x.dirty, ∃ y ∈ (s.core c).lines, y.pa = x.pa ∧ d ∈ y.dirty) : Sheds c s (t.setLine c x) := by
  have hcore := core_modCore t c c (fun y => { y with lines := put (·.pa) x y.lines }) fun _ => rfl
  rw [if_pos rfl] at hcore
  intro z hz d hd
  unfold State.setLine at hz
  rw [hcore] at hz
  rcases mem_put hz with rfl | hz
  · exact hx d hd
  · exact h z hz d hd

theorem writeBackLine_empties {s : State} (h : s.Inv) (c pa : Nat) (sel : DirtyByte → Bool) : Empties c s (s.writeBackLine c pa sel) := by
  obtain ⟨y, hpa, hdirty, he⟩ := writeBackLine_eq s c pa sel
  rw [he]
  split
  · exact ⟨.refl c s, fun _ => .inl rfl⟩
  have hown : ∀ d ∈ (s.line c pa).dirty, s.line c pa ∈ (s.core c).lines := fun d hd =>
    (line_mem s c pa).resolve_right fun hnil => by rw [hnil] at hd; cases hd
  refine ⟨setLine_sheds (wentHome_sheds s c _ _) fun d hd => ?_, fun a => ?_⟩
  · rw [hdirty] at hd
    have hd := (List.mem_filter.1 hd).1
    exact ⟨_, hown d hd, (line_pa s c pa).trans hpa.symm, hd⟩
  · have hmem := writtenBack_mem c (lineOf pa) ((s.line c pa).dirty.filter ((s.line c pa).leaving sel))
      ((List.filter_sublist.map _).nodup (line_tidy h c pa).nodup) a h
    rw [State.setLine_mem, State.wentHome, hmem]
    cases hf : ((s.line c pa).dirty.filter ((s.line c pa).leaving sel)).find? fun d => lineOf pa + d.off = a with
    | none => exact .inl rfl
    | some d =>
      have hd := (List.mem_filter.1 (List.mem_of_find?_eq_some hf)).1
      refine .inr ⟨_, hown d hd, d, hd, ?_, rfl⟩
      have hat : lineOf pa + d.off = a := by simpa using List.find?_some hf
      rw [line_pa, show lineOf (lineOf pa) = lineOf pa by unfold lineOf; omega, hat]

theorem flushCore_empties {s : State} (h : s.Inv) (c : Nat) : Empties c s (s.flushCore c) := by
  unfold State.flushCore State.writeBack
  generalize (s.core c).lines.map (·.pa) = l
  induction l generalizing s with
  | nil => exact ⟨.refl c s, fun _ => .inl rfl⟩
  | cons pa l ih => exact (writeBackLine_empties h c pa _).trans (ih (writeBackLine_inv h c pa _))

theorem acquireCore_mem (s : State) (c : Nat) : (s.acquireCore c).mem = s.mem := by
  unfold State.acquireCore
  dsimp only
  split <;> rfl

theorem coverLeases_mem (s : State) (c : Nat) : (s.coverLeases c).mem = s.mem := by
  unfold State.coverLeases
  generalize (s.core c).lines = l
  dsimp only
  induction l generalizing s with
  | nil => rfl
  | cons x l ih =>
    rw [List.foldl_cons, ih]
    unfold State.coverLease
    dsimp only
    repeat' split
    all_goals rfl

theorem acquireLines_mem (s : State) (c : Nat) (sel : L1Line → Bool) : (s.acquireLines c sel).mem = s.mem := by
  unfold State.acquireLines
  dsimp only
  split
  · rfl
  · rw [coverLeases_mem]
    rfl

/-- An acquire of a core's thread changes no memory, a control stream's writes back the dirty bytes of its core (R187). -/
theorem acquire_writes {s : State} (h : s.Inv) (ag : Agent) (sc : Scope) (g : Option GuardWord) (a : Nat) :
    cellGet a (s.acquire ag sc g).mem = cellGet a s.mem ∨ ag.stream = true ∧
      ∃ x ∈ (s.core ag.core).lines, ∃ d ∈ x.dirty, lineOf x.pa + d.off = a ∧ cellGet a (s.acquire ag sc g).mem = d.val := by
  unfold State.acquire
  split
  · exact .inl rfl
  · dsimp only
    rw [State.sees_mem, State.carry_mem]
    cases hs : ag.stream with
    | true => exact ((flushCore_empties h ag.core).wrote a).imp id fun hw => ⟨rfl, hw⟩
    | false =>
      refine .inl (congrArg (cellGet a) ?_)
      cases g with
      | none => exact acquireCore_mem s _
      | some w => exact acquireLines_mem s _ _

/-! ### The home once a core's dirty bytes are there -/

/-- The core holds no dirty byte of what it has had written back. -/
theorem writeBackLine_clean {s : State} (c l : Nat) (hl : lineOf l = l) (hup : s.homeUp l = true) {R : Nat → Bool}
    (hR : ∀ a b, a / 8 = b / 8 → R a = R b) {a : Nat} (ha : lineOf a = l) (hRa : R (a % 64) = true) :
    (s.writeBackLine c l fun d => R d.off).dirtyByte c a = none := by
  have hleaves : ∀ d ∈ (s.line c l).dirty, (s.line c l).leaving (fun d => R d.off) d = R d.off := by
    refine fun d hd => contains_wholes hR 8 ?_ ?_ d hd
    · intro o ho
      obtain ⟨e, he, rfl⟩ := List.mem_map.1 ho
      exact (List.mem_filter.1 he).2
    · exact fun e he hRe => List.mem_map.2 ⟨e, List.mem_filter.2 ⟨he, hRe⟩, rfl⟩
  obtain ⟨y, hpa, hdirty, he⟩ := writeBackLine_eq s c l fun d => R d.off
  have hkept : ∀ d ∈ (s.line c l).dirty.filter (fun d => !(s.line c l).leaving (fun d => R d.off) d), d.off ≠ a % 64 := by
    intro d hd hoff
    obtain ⟨hd, hstay⟩ := List.mem_filter.1 hd
    rw [hleaves d hd, hoff, hRa] at hstay
    cases hstay
  rw [he, hup, dirtyByte_eq]
  split
  · next hnone =>
    rw [line_congr s c (ha.trans hl.symm), L1Line.dirtyVal, List.find?_eq_none.2, Option.map_none]
    intro d hd hoff
    have hnone : (s.line c l).dirty.filter ((s.line c l).leaving fun d => R d.off) = [] := by simpa using hnone
    have hstay := List.filter_eq_nil_iff.1 hnone d hd
    rw [hleaves d hd, of_decide_eq_true hoff] at hstay
    exact hstay hRa
  · rw [line_setLine, if_pos (by rw [hpa, hl, ha]), L1Line.dirtyVal, hdirty, List.find?_eq_none.2, Option.map_none]
    exact fun d hd hoff => hkept d hd (of_decide_eq_true hoff)

/-- An access within a line has the dirty bytes of that line written back only. -/
theorem flushBytes_eq (s : State) (c : Nat) {pa n : Nat} (hn : pa % 64 + n ≤ 64) (hn0 : n < 64) :
    s.flushBytes c pa n = s.writeBackLine c (lineOf pa) fun d =>
      decide (pa / 8 * 8 ≤ lineOf pa + d.off) && decide (lineOf pa + d.off < (pa + n + 7) / 8 * 8) := by
  unfold State.flushBytes
  rw [Nat.div_eq_of_lt hn0]
  refine (writeBackLine_none _ c (lineOf pa + 64 * 1) fun d => ?_).trans rfl
  unfold lineOf
  simp only [Bool.and_eq_false_iff, decide_eq_false_iff_not]
  omega

section
variable {s : State} {ag : Agent} {l : Loc} {n : Nat} (hinv : s.Inv) (hn : s.paOf l % 64 + n ≤ 64) (hn0 : n < 64) (hup : s.answers l)
  (hl : ∀ id o, l ≠ .scr id o)
include hinv hn hn0 hup hl

/-- Once an access has been prepared at the home, memory there is what the agent meets. -/
theorem toHome_homeMem {a : Nat} (ha : s.paOf l / 8 * 8 ≤ a ∧ a < (s.paOf l + n + 7) / 8 * 8) : (s.toHome ag l n).homeMem ag a = s.homeMem ag a := by
  have hmem := toHome_mem hl hinv ag n hn hn0 hup a
  rw [if_pos ha] at hmem
  have hup' := (answers_iff hl s).1 hup
  unfold State.homeMem at hmem ⊢
  cases hs : ag.stream with
  | true => simpa only [hs, if_true] using hmem
  | false =>
    rw [hs] at hmem
    have hclean : (s.toHome ag l n).dirtyByte ag.core a = none := by
      have hcores : (s.toHome ag l n).dirtyByte ag.core a = (s.flushBytes ag.core (s.paOf l) n).dirtyByte ag.core a := by
        rw [toHome_of_mem hl, hs]
        unfold State.dirtyByte
        rw [lines_core, lines_core]
        exact congrArg (fun z : List Core => (((z.find? (·.id = ag.core)).map (·.lines)).getD []).find? (·.pa = lineOf a) |>.bind fun x =>
          (x.dirty.find? (·.off = a % 64)).map (·.val)) (dropCopies_cores _ _)
      rw [hcores, flushBytes_eq s ag.core hn hn0]
      refine writeBackLine_clean ag.core (lineOf (s.paOf l)) (by unfold lineOf; omega) hup' (R := fun o =>
        decide (s.paOf l / 8 * 8 ≤ lineOf (s.paOf l) + o) && decide (lineOf (s.paOf l) + o < (s.paOf l + n + 7) / 8 * 8)) ?_ ?_ ?_
      · intro x y hxy
        rw [Bool.eq_iff_iff]
        simp only [Bool.and_eq_true, decide_eq_true_eq]
        unfold lineOf
        omega
      · unfold lineOf
        omega
      · simp only [Bool.and_eq_true, decide_eq_true_eq]
        unfold lineOf
        omega
    rw [hclean]
    exact hmem

end

theorem cellsGet_eq_map (m : List Host.Cell) (a n : Nat) : cellsGet m a n = (List.range n).map fun i => cellGet (a + i) m := by
  refine List.ext_getElem (by simp) fun i h1 h2 => ?_
  have hi : i < n := by simpa using h1
  have hget := cellsGet_getD m a n i hi
  rw [List.getD_eq_getElem _ _ h1] at hget
  rw [hget, List.getElem_map, List.getElem_range]

/-- The bytes that a read-modify-write meets at the home. -/
def State.metAt (s : State) (ag : Agent) (l : Loc) (n : Nat) : List Byte := (List.range n).map (s.homeByte ag l)

theorem locRead_toHome {s : State} {ag : Agent} {l : Loc} {n : Nat} (hinv : s.Inv) (hn : s.paOf l % 64 + n ≤ 64) (hn0 : n < 64)
    (hup : s.answers l) : (s.toHome ag l n).locRead l n = s.metAt ag l n := by
  unfold State.metAt
  by_cases hl : ∀ id o, l ≠ .scr id o
  · have hread : (s.toHome ag l n).locRead l n = cellsGet (s.toHome ag l n).mem (s.paOf l) n := by
      rw [← (steady_toHome s ag l n).paOf]
      cases l with
      | scr id o => exact absurd rfl (hl id o)
      | mem _ | vis _ _ | shd _ _ => rfl
    rw [hread, cellsGet_eq_map]
    refine List.map_congr_left fun i hi => ?_
    have hi := List.mem_range.1 hi
    rw [toHome_mem hl hinv ag n hn hn0 hup, if_pos (by omega)]
    cases l with
    | scr id o => exact absurd rfl (hl id o)
    | mem _ | vis _ _ | shd _ _ => rfl
  · push Not at hl
    obtain ⟨id, o, rfl⟩ := hl
    show s.scrRead id o n = (List.range n).map fun i => ((s.team? id).map fun tm => cellGet (o + i) tm.mem).getD 0
    unfold State.scrRead
    cases s.team? id with
    | none => simp
    | some tm => exact cellsGet_eq_map tm.mem o n

/-- A read-modify-write at the home, after its release and before its acquire. -/
def State.rmw (s : State) (ag : Agent) (l : Loc) (n : Nat) (f : List Byte → Option (List Byte)) : State :=
  match f ((s.toHome ag l n).locRead l n) with
  | some b => (s.toHome ag l n).storeHome ag l b
  | none => (s.toHome ag l n).fromHome ag l n

/-- The bytes that a read-modify-write leaves. -/
def leftBy (f : List Byte → Option (List Byte)) (old : List Byte) : List Byte := (f old).getD old

theorem rmw_inv {s : State} (h : s.Inv) (ag : Agent) (l : Loc) (n : Nat) (f : List Byte → Option (List Byte)) : (s.rmw ag l n f).Inv := by
  unfold State.rmw
  split
  · exact storeHome_inv (toHome_inv h _ _ _) _ _ _
  · exact fromHome_inv (toHome_inv h _ _ _) _ _ _

theorem steady_rmw (s : State) (ag : Agent) (l : Loc) (n : Nat) (f : List Byte → Option (List Byte)) : Steady s (s.rmw ag l n f) := by
  unfold State.rmw
  split
  · exact (steady_toHome s _ _ _).trans (steady_storeHome _ _ _ _)
  · exact (steady_toHome s _ _ _).trans (steady_fromHome _ _ _ _)

/-- A control stream's read-modify-write puts no dirty byte in its core's L1. -/
theorem rmw_sheds (s : State) {ag : Agent} (hs : ag.stream = true) (l : Loc) (n : Nat) (f : List Byte → Option (List Byte)) (c : Nat) :
    Sheds c s (s.rmw ag l n f) := by
  have hto (s : State) (k : Nat) : Sheds c s (s.toHome ag l k) := by
    unfold State.toHome
    split
    · exact .refl c s
    · rw [hs]
      exact .of_cores (dropCopies_cores _ _)
  have hfrom (s : State) (k : Nat) : Sheds c s (s.fromHome ag l k) := by
    unfold State.fromHome
    split
    · exact .refl c s
    · rw [hs]
      exact .refl c s
  have hput (s : State) (b : List Byte) : Sheds c s (s.putAt ag l b) := by
    unfold State.putAt
    split
    · exact .of_cores rfl
    · rw [hs]
      exact agentWrite_sheds s _ _ c
  unfold State.rmw
  split
  · exact (hto s n).trans (((hto _ _).trans (hput _ _)).trans (hfrom _ _))
  · exact (hto s n).trans (hfrom _ n)

section
variable {s : State} {ag : Agent} {l : Loc} {n : Nat} (hinv : s.Inv) (hn : s.paOf l % 64 + n ≤ 64) (hn0 : n < 64) (hup : s.answers l)
  {f : List Byte → Option (List Byte)} (hf : ∀ old b, f old = some b → b.length = n)
include hinv hn hn0 hup hf

/-- What memory is after a read-modify-write. -/
theorem rmw_mem (hl : ∀ id o, l ≠ .scr id o) (a : Nat) :
    cellGet a (s.rmw ag l n f).mem = if s.paOf l ≤ a ∧ a < s.paOf l + n then (leftBy f (s.metAt ag l n)).getD (a - s.paOf l) 0
      else if s.paOf l / 8 * 8 ≤ a ∧ a < (s.paOf l + n + 7) / 8 * 8 then s.homeMem ag a else cellGet a s.mem := by
  have hpa := (steady_toHome s ag l n).paOf l
  have hmem := toHome_mem hl hinv ag n hn hn0 hup a
  unfold State.rmw leftBy
  rw [locRead_toHome hinv hn hn0 hup]
  cases hfo : f (s.metAt ag l n) with
  | some b =>
    have hb := hf _ b hfo
    dsimp only [Option.getD_some]
    subst hb
    rw [storeHome_mem hl (toHome_inv hinv ag l _) ag b (hpa.symm ▸ hn) hn0 (answers_congr (steady_toHome s ag l _) hup), hpa]
    refine if_congr Iff.rfl rfl ?_
    split
    · next ha => exact toHome_homeMem hinv hn hn0 hup hl ha
    · next ha => rw [hmem, if_neg ha]
  | none =>
    dsimp only [Option.getD_none]
    rw [fromHome_mem hl, hmem]
    by_cases ha : s.paOf l ≤ a ∧ a < s.paOf l + n
    · have hi : a - s.paOf l < n := by omega
      rw [if_pos ha, if_pos (by omega), State.metAt, List.getD_eq_getElem?_getD, List.getElem?_map, List.getElem?_range hi]
      cases l with
      | scr id o => exact absurd rfl (hl id o)
      | mem _ | vis _ _ | shd _ _ =>
        show _ = s.homeMem ag (s.paOf _ + (a - s.paOf _))
        rw [Nat.add_sub_cancel' ha.1]
    · rw [if_neg ha]

/-- What a scratchpad is after a read-modify-write. -/
theorem rmw_scr {id o : Nat} (hl : l = .scr id o) {tm : Team} (ht : s.team? id = some tm) :
    ∃ tm', (s.rmw ag l n f).team? id = some tm' ∧
      ∀ a, cellGet a tm'.mem = if o ≤ a ∧ a < o + n then (leftBy f (s.metAt ag l n)).getD (a - o) 0 else cellGet a tm.mem := by
  subst hl
  have hread := locRead_toHome (ag := ag) hinv hn hn0 hup
  unfold State.rmw leftBy
  rw [hread]
  cases hfo : f (s.metAt ag (.scr id o) n) with
  | some b =>
    have hb := hf _ b hfo
    subst hb
    have hteam := team?_modTeam s id id (fun tm => { tm with mem := cellsSet tm.mem o b }) fun _ => rfl
    rw [ht, Option.map_some, if_pos (team?_id ht)] at hteam
    exact ⟨_, hteam, cellGet_cellsSet (hinv.scratch tm (List.mem_of_find?_eq_some ht)) o b⟩
  | none =>
    refine ⟨tm, ht, fun a => ?_⟩
    split
    · next ha =>
      dsimp only [Option.getD_none]
      rw [State.metAt, List.getD_eq_getElem?_getD, List.getElem?_map, List.getElem?_range (by omega)]
      show _ = ((s.team? id).map fun tm => cellGet (o + (a - o)) tm.mem).getD 0
      rw [ht, Nat.add_sub_cancel' ha.1]
      rfl
    · rfl

end

/-! ### Read-modify-writes in a thread -/

/-- The state in which a memory word's release, if it is one, has been performed. -/
def State.released (s : State) (ag : Agent) (va : Nat) (y : Sync) : State :=
  if y.order.releases then s.release ag y.scope (s.guardOf ag va) else s

theorem steady_released (s : State) (ag : Agent) (va : Nat) (y : Sync) : Steady s (s.released ag va y) :=
  .ite (steady_release s _ _ _) (.refl s)

theorem released_inv {s : State} (h : s.Inv) (ag : Agent) (va : Nat) (y : Sync) : (s.released ag va y).Inv := by
  unfold State.released
  split
  · exact release_inv h _ _ _
  · exact h

section
variable {s s1 : State} {ag : Agent} {va n : Nat} (y : Sync) (w : Bool) (f : List Byte → Option (List Byte)) (hal : va % n = 0)
include hal

theorem memRmw_error {x : Bad} (hp : s.place ag va n .write = (s1, .error x)) : s.memRmw ag va n y w f = (s1, .error x) := by
  unfold State.memRmw misaligned
  rw [if_pos hal, hp]

/-- A read-modify-write whose place is found: its release, its access at the home, its acquire. -/
theorem memRmw_ok {l : Loc} {p : Option Pin} (hp : s.place ag va n .write = (s1, .ok (l, p))) :
    s.memRmw ag va n y w f =
      (if y.order.acquires then ((s1.released ag va y).rmw ag l n f).acquire ag y.scope (s1.guardOf ag va)
        else (s1.released ag va y).rmw ag l n f, .ok (((s1.released ag va y).toHome ag l n).locRead l n)) := by
  unfold State.memRmw misaligned
  rw [if_pos hal, hp]
  rfl

end

/-- What a word that read-modify-writes leaves at its home and in its thread. -/
theorem rmw_stored {s : State} {ag : Agent} {l : Loc} {n : Nat} (hinv : s.Inv) (hn : s.paOf l % 64 + n ≤ 64) (hn0 : n < 64)
    (hup : s.answers l) {f : List Byte → Option (List Byte)} (hf : ∀ old b, f old = some b → b.length = n) (acq : Bool) (sc : Scope)
    (w : Option GuardWord) (g : Group) (tid : Nat) (m : Mods) (out : Out) :
    storedAtHome s ((if acq then (s.rmw ag l n f).acquire ag sc w else s.rmw ag l n f).ordered g tid m out) ag acq l n
      fun i => (leftBy f (s.metAt ag l n)).getD i 0 := by
  have hwrote (a : Nat) : cellGet a (if acq then (s.rmw ag l n f).acquire ag sc w else s.rmw ag l n f).mem = cellGet a (s.rmw ag l n f).mem
      ∨ wroteBack s ((if acq then (s.rmw ag l n f).acquire ag sc w else s.rmw ag l n f).ordered g tid m out) ag acq a := by
    cases acq with
    | false => exact .inl rfl
    | true =>
      refine (acquire_writes (rmw_inv hinv ag l n f) ag sc w a).imp id fun ⟨hs, x, hx, d, hd, ha, hval⟩ => ?_
      obtain ⟨z, hz, hpa, hdz⟩ := rmw_sheds s hs l n f ag.core x hx d hd
      exact ⟨hs, rfl, z, hz, d, hdz, hpa ▸ ha, hval⟩
  by_cases hl : ∀ id o, l ≠ .scr id o
  · have hspec := rmw_mem (ag := ag) hinv hn hn0 hup hf hl
    have hall : ∀ a, _ ∨ wroteBack s _ ag acq a := fun a => (hwrote a).imp (fun h => h.trans (hspec a)) fun h => h
    cases l with
    | scr id o => exact absurd rfl (hl id o)
    | mem _ | vis _ _ | shd _ _ => exact hall
  · push Not at hl
    obtain ⟨id, o, rfl⟩ := hl
    have hmem : (s.rmw ag (.scr id o) n f).mem = s.mem := by
      unfold State.rmw
      split <;> rfl
    refine ⟨fun a => (hwrote a).imp (fun h => h.trans (congrArg (cellGet a) hmem)) fun h => h, fun tm ht => ?_⟩
    obtain ⟨tm', ht', hspec⟩ := rmw_scr (ag := ag) hinv hn hn0 hup hf rfl ht
    have hcalm : Calm (s.rmw ag (.scr id o) n f) (if acq then (s.rmw ag (.scr id o) n f).acquire ag sc w else s.rmw ag (.scr id o) n f) :=
      .ite (calm_acquire_guarded _ ag sc w) (.refl _)
    obtain ⟨tm2, ht2, hst⟩ := hcalm.team? ht'
    have hthread := team?_modTeam (if acq then (s.rmw ag (.scr id o) n f).acquire ag sc w else s.rmw ag (.scr id o) n f) g.team id
      (·.modThread tid fun th => th.launch { out.later .ws none with tie := if (syncOf m).order.releases then .release else .free }) fun _ => rfl
    rw [ht2, Option.map_some] at hthread
    refine ⟨_, hthread, fun a => Eq.trans ?_ (hspec a)⟩
    rw [← show tm2.mem = tm'.mem from congrArg (·.mem) hst]
    split <;> rfl

/-- What is stored at a home is known by its bytes. -/
theorem storedAtHome_congr {s t : State} {ag : Agent} {acq : Bool} {l : Loc} {n : Nat} {new new' : Nat → Byte} (h : ∀ i, i < n → new i = new' i)
    (hs : storedAtHome s t ag acq l n new) : storedAtHome s t ag acq l n new' := by
  have key (k : Nat) (b : Byte) (a : Nat) : (if k ≤ a ∧ a < k + n then new (a - k) else b) = if k ≤ a ∧ a < k + n then new' (a - k) else b := by
    split
    · next ha => exact h _ (by omega)
    · rfl
  cases l with
  | scr id o =>
    refine ⟨hs.1, fun tm ht => ?_⟩
    obtain ⟨tm', ht', hmem⟩ := hs.2 tm ht
    exact ⟨tm', ht', fun a => (hmem a).trans (key o _ a)⟩
  | mem _ | vis _ _ | shd _ _ => exact fun a => (hs a).imp (fun e => e.trans (key _ _ a)) fun e => e

/-- A word in order that writes registers and raises flags is in flight for a thread that a steady step has left. -/
theorem inOrder_results {s s2 : State} (hs : Steady s s2) {g : Group} {h : Thread} (hh : s.thread? g.team h.tid = some h) (m : Mods)
    (regs : List (Nat × DWord)) (fl : BitVec 6) :
    inOrder (s2.ordered g h.tid m { regs := regs, preds := [], flags := fl }) g h m regs fl :=
  thread?_modThread (f := fun th => th.launch
    { ({ regs := regs, preds := [], flags := fl } : Out).later .ws none with tie := if (syncOf m).order.releases then .release else .free })
    (fun _ => rfl) ((hs.thread? _ _).trans hh)

/-- A read-modify-write whose place is found: the bytes that it met, what it leaves as it was, and what it leaves at the home. -/
theorem memRmw_acts {s s1 : State} {ag : Agent} {va n : Nat} {l : Loc} {p : Option Pin} (y : Sync) (hal : va % n = 0)
    (hp : s.place ag va n .write = (s1, .ok (l, p))) (hn : s1.paOf l % 64 + n ≤ 64) (hn0 : n < 64) (hinv : s1.Inv) (hup : s1.answers l)
    {f : List Byte → Option (List Byte)} (hf : ∀ old b, f old = some b → b.length = n) :
    ∃ s3, s.memRmw ag va n y true f = (s3, .ok ((s1.released ag va y).metAt ag l n)) ∧ Steady s s3 ∧ ∀ g tid m out,
      storedAtHome (s1.released ag va y) (s3.ordered g tid m out) ag y.order.acquires l n
        fun i => (leftBy f ((s1.released ag va y).metAt ag l n)).getD i 0 := by
  have hrel := steady_released s1 ag va y
  have hplace := steady_place s ag va n .write
  rw [hp] at hplace
  have hinv2 := released_inv hinv ag va y
  have hn2 : (s1.released ag va y).paOf l % 64 + n ≤ 64 := by rw [hrel.paOf]; exact hn
  have hup2 := answers_congr hrel hup
  rw [memRmw_ok _ _ _ hal hp, locRead_toHome hinv2 hn2 hn0 hup2]
  exact ⟨_, rfl, (hplace.trans hrel).trans (.ite ((steady_rmw _ _ _ _ _).trans (steady_acquire _ _ _ _)) (steady_rmw _ _ _ _ _)),
    rmw_stored hinv2 hn2 hn0 hup2 hf y.order.acquires y.scope (s1.guardOf ag va)⟩

/-! ### STSB (R60, R124, R127) -/

/-- The byte address of a nibble, as a sum of 64-bit numbers, and the nibble (R60). -/
theorem effNibble_eq (base : DWord) (off : BitVec 7) :
    effNibble base off = ((base + (off.signExtend 64).sshiftRight 1).toNat, (off.getLsbD 0).toNat) := by
  have hbit : ∀ off : BitVec 7, (off.toInt % 2).toNat = (off.getLsbD 0).toNat := by decide
  have hhalf : ((off.signExtend 64).sshiftRight 1).toInt = off.toInt / 2 := by
    rw [BitVec.toInt_sshiftRight, BitVec.toInt_signExtend_of_le (by decide), Int.shiftRight_eq_div_pow]
    rfl
  have hsum : BitVec.ofInt 64 ((base.toNat : Int) + off.toInt / 2) = base + (off.signExtend 64).sshiftRight 1 := by
    rw [← hhalf, BitVec.ofInt_add, BitVec.ofInt_natCast, BitVec.ofNat_toNat, BitVec.setWidth_eq, BitVec.ofInt_toInt]
  have hdiv : (((2 * base.toNat : Nat) : Int) + off.toInt).fdiv 2 = base.toNat + off.toInt / 2 := by
    rw [Int.fdiv_eq_ediv_of_nonneg _ (by decide)]
    omega
  have hmod : (((2 * base.toNat : Nat) : Int) + off.toInt) % 2 = off.toInt % 2 := by omega
  unfold effNibble
  dsimp only
  rw [hdiv, hmod, hbit, ← hsum, BitVec.toNat_ofInt]

/-- The address of a byte or nibble that STSB replaces. -/
theorem subByte_at {size : MemSize} (h : size = .b8 ∨ size = .b4) (base : DWord) (off : BitVec 7) :
    (if size = .b4 then effNibble base off else (effAddr base off 1, 0)) = accessAt size base off := by
  rcases h with rfl | rfl
  · rw [if_neg (by decide), effAddr_eq]
    rfl
  · rw [if_pos rfl, effNibble_eq]
    rfl

/-- What STSB makes of the byte at its address. -/
def subByte (size : MemSize) (nib x : Nat) (old : List Byte) : List Byte :=
  [BitVec.ofNat 8 (if size = .b4 then (old.headD 0).toNat - (old.headD 0).toNat / 16 ^ nib % 16 * 16 ^ nib + x % 16 * 16 ^ nib else x)]

theorem low_nibble (old : Byte) (x : Word) :
    BitVec.ofNat 8 (old.toNat - old.toNat / 16 ^ 0 % 16 * 16 ^ 0 + x.toNat % 16 * 16 ^ 0) = old.extractLsb' 4 4 ++ x.extractLsb' 0 4 := by
  refine BitVec.eq_of_toNat_eq ?_
  rw [BitVec.toNat_append, ← Nat.shiftLeft_add_eq_or_of_lt (BitVec.isLt _), BitVec.extractLsb'_toNat, BitVec.extractLsb'_toNat,
    BitVec.toNat_ofNat, Nat.shiftLeft_eq, Nat.shiftRight_eq_div_pow, Nat.shiftRight_eq_div_pow]
  have := old.isLt
  omega

theorem high_nibble (old : Byte) (x : Word) :
    BitVec.ofNat 8 (old.toNat - old.toNat / 16 ^ 1 % 16 * 16 ^ 1 + x.toNat % 16 * 16 ^ 1) = x.extractLsb' 0 4 ++ old.extractLsb' 0 4 := by
  refine BitVec.eq_of_toNat_eq ?_
  rw [BitVec.toNat_append, ← Nat.shiftLeft_add_eq_or_of_lt (BitVec.isLt _), BitVec.extractLsb'_toNat, BitVec.extractLsb'_toNat,
    BitVec.toNat_ofNat, Nat.shiftLeft_eq, Nat.shiftRight_eq_div_pow, Nat.shiftRight_eq_div_pow]
  have := old.isLt
  omega

/-- The byte that STSB leaves is that of the statement. -/
theorem subByte_eq {size : MemSize} (h : size = .b8 ∨ size = .b4) (base : DWord) (off : BitVec 7) (old : Byte) (x : Word) :
    subByte size (accessAt size base off).2 x.toNat [old] = [if size = .b8 then x.setWidth 8
      else if (accessAt size base off).2 = 0 then old.extractLsb' 4 4 ++ x.extractLsb' 0 4 else x.extractLsb' 0 4 ++ old.extractLsb' 0 4] := by
  unfold subByte
  rcases h with rfl | rfl
  · rw [if_neg (by decide), if_pos rfl, BitVec.ofNat_toNat]
  · rw [if_pos rfl, if_neg (by decide)]
    dsimp only [List.headD_cons]
    unfold accessAt
    rw [if_pos rfl]
    cases off.getLsbD 0 with
    | false => exact congrArg (fun b => [b]) (low_nibble old x)
    | true => exact congrArg (fun b => [b]) (high_nibble old x)

section
variable {s s2 : State} {g : Group} {tm : Team} {h : Thread} {d base : Code} {size : MemSize} {off : BitVec 7} {m : Mods}
  (ht : s.team? g.team = some tm) (hh : tm.thread? h.tid = some h) (hsize : size = .b8 ∨ size = .b4)
include ht hh hsize

/-- STSB in one thread, by the result of its access. -/
theorem stsbOne_eq : State.stsbOne d base size off m s g h.tid =
    match s.memRmw (tm.agent h.tid) (accessAt size ((s.env tm).rd64 h base 0) off).1 1 (syncOf m) true fun old =>
        some (subByte size (accessAt size ((s.env tm).rd64 h base 0) off).2 ((s.env tm).rd32 h d 8).toNat old) with
    | (s, .error x) => s.trap g h.tid x
    | (s, .ok _) => s.ordered g h.tid m Out.none := by
  unfold State.stsbOne
  rw [withThread_eq _ ht hh, ← subByte_at hsize]
  rfl

end

/-- Settles O24: STSB is a read-modify-write of one byte (`stsbOne_eq`, `memRmw_acts`) by `subByte`. -/
theorem subByteStoresAtHome : Obligations.SubByteStoresAtHome := by
  intro s₀ g rest d base size off m hg hsize
  refine runsEach_of_eachLane rfl rfl hg fun s tid tm h ht hh => ?_
  obtain rfl := thread?_tid hh
  rw [stsbOne_eq ht hh hsize]
  have hthread : s.thread? g.team h.tid = some h := by unfold State.thread?; rw [ht]; exact hh
  have hbyte := subByte_eq hsize ((s.env tm).rd64 h base 0) off
  generalize accessAt size ((s.env tm).rd64 h base 0) off = at' at hbyte ⊢
  dsimp only
  refine ⟨fun s1 b hp => by rw [memRmw_error _ _ _ (Nat.mod_one _) hp], fun s1 l p hp hinv hup => ?_⟩
  obtain ⟨s3, he, hsteady, hstored⟩ := memRmw_acts (syncOf m) (Nat.mod_one _) hp (Nat.mod_lt _ (by decide)) (by decide) hinv hup
    (f := fun old => some (subByte size at'.2 ((s.env tm).rd32 h d 8).toNat old)) fun _ _ e => by cases e; rfl
  rw [he]
  refine ⟨inOrder_ordered hsteady hthread m, storedAtHome_congr (fun i hi => ?_) (hstored g h.tid m Out.none)⟩
  obtain rfl : i = 0 := by omega
  exact congrArg (List.getD · 0 0) (hbyte _ _)

/-! ### The operations of ATOM and ARED (R129) -/

theorem wrap_add {w : Nat} (hw : 0 < w) (x y : Nat) : wrap w (sext w x + sext w y) = (BitVec.ofNat w x + BitVec.ofNat w y).toNat := by
  rw [wrap_eq, sext_eq w x hw, sext_eq w y hw, BitVec.ofInt_add, BitVec.ofInt_toInt, BitVec.ofInt_toInt]

theorem wrap_add_nat (w x y : Nat) : wrap w ((x : Int) + y) = (BitVec.ofNat w x + BitVec.ofNat w y).toNat := by
  rw [wrap_eq, BitVec.ofInt_add, BitVec.ofInt_natCast, BitVec.ofInt_natCast]

theorem wrap_sext {w x : Nat} (hw : 0 < w) (hx : x < 2 ^ w) : wrap w (sext w x) = x := by
  rw [wrap_eq, sext_eq w x hw, BitVec.ofInt_toInt, BitVec.toNat_ofNat, Nat.mod_eq_of_lt hx]

theorem wrap_natCast {w x : Nat} (hx : x < 2 ^ w) : wrap w (x : Int) = x := by
  rw [wrap_eq, BitVec.ofInt_natCast, BitVec.toNat_ofNat, Nat.mod_eq_of_lt hx]

section
variable {w x y : Nat} (hw : 0 < w) (hx : x < 2 ^ w) (hy : y < 2 ^ w)
include hw hx hy

theorem wrap_min : wrap w (min (sext w x) (sext w y)) = if (BitVec.ofNat w x).toInt ≤ (BitVec.ofNat w y).toInt then x else y := by
  rw [min_def, sext_eq w x hw, sext_eq w y hw, ← sext_eq w x hw, ← sext_eq w y hw]
  split
  · exact wrap_sext hw hx
  · exact wrap_sext hw hy

theorem wrap_max : wrap w (max (sext w x) (sext w y)) = if (BitVec.ofNat w x).toInt ≤ (BitVec.ofNat w y).toInt then y else x := by
  rw [max_def, sext_eq w x hw, sext_eq w y hw, ← sext_eq w x hw, ← sext_eq w y hw]
  split
  · exact wrap_sext hw hy
  · exact wrap_sext hw hx

end

theorem wrap_min_nat {w x y : Nat} (hx : x < 2 ^ w) (hy : y < 2 ^ w) : wrap w (min (x : Int) y) = min x y := by
  rw [← Nat.cast_min]
  exact wrap_natCast (by omega)

theorem wrap_max_nat {w x y : Nat} (hx : x < 2 ^ w) (hy : y < 2 ^ w) : wrap w (max (x : Int) y) = max x y := by
  rw [← Nat.cast_max]
  exact wrap_natCast (by omega)

theorem halves_eq (f : Nat → Nat → Nat × BitVec 6) (x y : Nat) :
    halves f x y = ((f (x % 65536) (y % 65536)).1 + 65536 * (f (x / 65536) (y / 65536)).1,
      (f (x % 65536) (y % 65536)).2 ||| (f (x / 65536) (y / 65536)).2) := by
  rw [Nat.mul_comm]
  rfl

/-- The bytes of an atomic's type. -/
def atomBytes (t : AtomTy) : Nat := if atomWide t then 8 else 4

theorem atomBytes_eq (t : AtomTy) : atomBytes t = if t = .i64 ∨ t = .n64 then 8 else 4 := by cases t <;> rfl

theorem atomSrc_eq (e : Env) (h : Thread) (t : AtomTy) (d : Code) :
    e.atomSrc h t d = if t = .i64 ∨ t = .n64 then (e.rd64 h d 8).toNat else (e.rd32 h d 8).toNat := by cases t <;> rfl

theorem atomSrc_lt (e : Env) (h : Thread) (t : AtomTy) (d : Code) : e.atomSrc h t d < 2 ^ (8 * atomBytes t) := by
  cases t
  case i64 | n64 => exact (e.rd64 h d 8).isLt
  case i32 | n32 | f32 | f16x2 | bf16x2 => exact (e.rd32 h d 8).isLt

section
variable {s : State} {g : Group} {tm : Team} {h : Thread} {d a : Code} {t : AtomTy} {op : AtomOp} {m : Mods}
  (ht : s.team? g.team = some tm) (hh : tm.thread? h.tid = some h)
include ht hh

/-- ATOM or ARED in one thread, by the result of its access. -/
theorem atomOne_eq (back : Bool) : State.atomOne back d a t op m s g h.tid =
    match s.memRmw (tm.agent h.tid) ((s.env tm).rd64 h a 0).toNat (atomBytes t) (syncOf m) true fun old =>
        some (bytesLE (atomBytes t) (atomNew op t (leNat old) ((s.env tm).atomSrc h t d)).1) with
    | (s', .error x) => s'.trap g h.tid x
    | (s', .ok old) => s'.ordered g h.tid m { regs := if back then h.dstAtom (choiceAt (s.env tm).step h.tid 9) t d (leNat old) else []
                                              preds := [], flags := (atomNew op t (leNat old) ((s.env tm).atomSrc h t d)).2 } := by
  unfold State.atomOne
  rw [withThread_eq _ ht hh]
  rfl

/-- ACAS in one thread, by the result of its access. -/
theorem acasOne_eq : State.acasOne d a t m s g h.tid =
    match s.memRmw (tm.agent h.tid) ((s.env tm).rd64 h a 0).toNat (atomBytes t) (syncOf m) true fun old =>
        if leNat old = (s.env tm).atomSrc h t d then some (bytesLE (atomBytes t) ((s.env tm).acasNew h t d)) else none with
    | (s', .error x) => s'.trap g h.tid x
    | (s', .ok old) => s'.ordered g h.tid m (Out.reg (h.dstAtom (choiceAt (s.env tm).step h.tid 9) t d (leNat old))) := by
  unfold State.acasOne
  rw [withThread_eq _ ht hh]
  rfl

end

/-- What R129's table gives for an old value and an operand, in bit-vector arithmetic. -/
def atomSpec (op : AtomOp) (t : AtomTy) (old x : Nat) : Nat × BitVec 6 :=
  let signed := fun (w k : Nat) => (BitVec.ofNat w k).toInt
  let el : Fmt → Nat → Nat → Nat × BitVec 6 := fun f => match op with
    | .min => f.pick false
    | .max => f.pick true
    | _ => f.add { rm := .rne, sat := false, scale := 0 }
  let two := fun (f : Fmt) => ((el f (old % 65536) (x % 65536)).1 + 65536 * (el f (old / 65536) (x / 65536)).1,
    (el f (old % 65536) (x % 65536)).2 ||| (el f (old / 65536) (x / 65536)).2)
  match op, t with
  | .add, .i32 | .add, .n32 => ((BitVec.ofNat 32 old + BitVec.ofNat 32 x).toNat, 0)
  | .add, .i64 | .add, .n64 => ((BitVec.ofNat 64 old + BitVec.ofNat 64 x).toNat, 0)
  | .exch, _ => (x, 0)
  | .inc, _ => (if x ≤ old then 0 else old + 1, 0)
  | .and, _ => (old &&& x, 0)
  | .or, _ => (old ||| x, 0)
  | .xor, _ => (old ^^^ x, 0)
  | .min, .i32 => (if signed 32 old ≤ signed 32 x then old else x, 0)
  | .max, .i32 => (if signed 32 old ≤ signed 32 x then x else old, 0)
  | .min, .i64 => (if signed 64 old ≤ signed 64 x then old else x, 0)
  | .max, .i64 => (if signed 64 old ≤ signed 64 x then x else old, 0)
  | .min, .n32 | .min, .n64 => (min old x, 0)
  | .max, .n32 | .max, .n64 => (max old x, 0)
  | _, .f32 => el fmtF32 old x
  | _, .f16x2 => two fmtF16
  | _, .bf16x2 => two fmtBf16

/-- The model's exact arithmetic gives the table's. -/
theorem atomNew_eq_spec (op : AtomOp) (t : AtomTy) {old x : Nat} (ho : old < 2 ^ (8 * atomBytes t)) (hx : x < 2 ^ (8 * atomBytes t)) :
    atomNew op t old x = atomSpec op t old x := by
  cases op with
  | exch | inc | and | or | xor => cases t <;> rfl
  | add =>
    cases t with
    | f32 => rfl
    | f16x2 | bf16x2 => exact halves_eq _ _ _
    | i32 | i64 => exact congrArg (·, 0) (wrap_add (by decide) _ _)
    | n32 | n64 => exact congrArg (·, 0) (wrap_add_nat _ _ _)
  | min =>
    cases t with
    | f32 => rfl
    | f16x2 | bf16x2 => exact halves_eq _ _ _
    | i32 | i64 => exact congrArg (·, 0) (wrap_min (by decide) ho hx)
    | n32 | n64 => exact congrArg (·, 0) (wrap_min_nat ho hx)
  | max =>
    cases t with
    | f32 => rfl
    | f16x2 | bf16x2 => exact halves_eq _ _ _
    | i32 | i64 => exact congrArg (·, 0) (wrap_max (by decide) ho hx)
    | n32 | n64 => exact congrArg (·, 0) (wrap_max_nat ho hx)

theorem metAt_lt (s : State) (ag : Agent) (l : Loc) (n : Nat) : leNat (s.metAt ag l n) < 2 ^ (8 * n) := by
  have h := leNat_lt (s.metAt ag l n)
  rwa [State.metAt, List.length_map, List.length_range, show 256 = 2 ^ 8 from rfl, ← Nat.pow_mul] at h

theorem bytesLE_leNat (b : List Byte) : bytesLE b.length (leNat b) = b := by
  induction b with
  | nil => rfl
  | cons x b ih =>
    have hx := x.isLt
    rw [List.length_cons, bytesLE, leNat, show (x.toNat + 256 * leNat b) / 256 = leNat b by omega, ih]
    congr 1
    refine BitVec.eq_of_toNat_eq ?_
    rw [BitVec.toNat_ofNat]
    omega

theorem atomBytes_lt (t : AtomTy) : atomBytes t < 64 := by cases t <;> decide

section
variable {s : State} {g : Group} {tm : Team} {h : Thread} (ht : s.team? g.team = some tm) (hh : tm.thread? h.tid = some h)
  (d a : Code) (t : AtomTy) (m : Mods)
include ht hh

/-- ATOM and ARED, by R129's table. -/
theorem atomOne_acts (op : AtomOp) (back : Bool) {s1 : State} {l : Loc} {p : Option Pin} (hal : ((s.env tm).rd64 h a 0).toNat % atomBytes t = 0)
    (hp : s.place (tm.agent h.tid) ((s.env tm).rd64 h a 0).toNat (atomBytes t) .write = (s1, .ok (l, p)))
    (hn : s1.paOf l % 64 + atomBytes t ≤ 64) (hinv : s1.Inv) (hup : s1.answers l) :
    let s2 := s1.released (tm.agent h.tid) ((s.env tm).rd64 h a 0).toNat (syncOf m)
    let old := leNat (s2.metAt (tm.agent h.tid) l (atomBytes t))
    let new := atomSpec op t old ((s.env tm).atomSrc h t d)
    inOrder (State.atomOne back d a t op m s g h.tid) g h m (if back then h.dstAtom (choiceAt (s.env tm).step h.tid 9) t d old else []) new.2
    ∧ storedAtHome s2 (State.atomOne back d a t op m s g h.tid) (tm.agent h.tid) (syncOf m).order.acquires l (atomBytes t)
        fun i => (bytesLE (atomBytes t) new.1).getD i 0 := by
  intro s2 old new
  have hthread : s.thread? g.team h.tid = some h := by unfold State.thread?; rw [ht]; exact hh
  obtain ⟨s3, he, hsteady, hstored⟩ := memRmw_acts (syncOf m) hal hp hn (atomBytes_lt t) hinv hup
    (f := fun old => some (bytesLE (atomBytes t) (atomNew op t (leNat old) ((s.env tm).atomSrc h t d)).1))
    fun _ _ e => by cases e; exact bytesLE_length _ _
  have hnew : atomNew op t old ((s.env tm).atomSrc h t d) = new := atomNew_eq_spec op t (metAt_lt _ _ _ _) (atomSrc_lt _ _ _ _)
  rw [atomOne_eq ht hh, he, ← hnew]
  exact ⟨inOrder_results hsteady hthread m _ _, hstored g h.tid m _⟩

/-- ACAS stores its new value, or what it met. -/
theorem acasOne_acts {s1 : State} {l : Loc} {p : Option Pin} (hal : ((s.env tm).rd64 h a 0).toNat % atomBytes t = 0)
    (hp : s.place (tm.agent h.tid) ((s.env tm).rd64 h a 0).toNat (atomBytes t) .write = (s1, .ok (l, p)))
    (hn : s1.paOf l % 64 + atomBytes t ≤ 64) (hinv : s1.Inv) (hup : s1.answers l) :
    let s2 := s1.released (tm.agent h.tid) ((s.env tm).rd64 h a 0).toNat (syncOf m)
    let old := leNat (s2.metAt (tm.agent h.tid) l (atomBytes t))
    inOrder (State.acasOne d a t m s g h.tid) g h m (h.dstAtom (choiceAt (s.env tm).step h.tid 9) t d old) 0
    ∧ storedAtHome s2 (State.acasOne d a t m s g h.tid) (tm.agent h.tid) (syncOf m).order.acquires l (atomBytes t)
        fun i => (bytesLE (atomBytes t) (if old = (s.env tm).atomSrc h t d then (s.env tm).acasNew h t d else old)).getD i 0 := by
  intro s2 old
  have hthread : s.thread? g.team h.tid = some h := by unfold State.thread?; rw [ht]; exact hh
  obtain ⟨s3, he, hsteady, hstored⟩ := memRmw_acts (syncOf m) hal hp hn (atomBytes_lt t) hinv hup
    (f := fun old => if leNat old = (s.env tm).atomSrc h t d then some (bytesLE (atomBytes t) ((s.env tm).acasNew h t d)) else none)
    fun _ b e => by
      split at e <;> cases e
      exact bytesLE_length _ _
  have hlen : (s2.metAt (tm.agent h.tid) l (atomBytes t)).length = atomBytes t := by simp [State.metAt]
  have hleft : leftBy (fun old => if leNat old = (s.env tm).atomSrc h t d then some (bytesLE (atomBytes t) ((s.env tm).acasNew h t d)) else none)
      (s2.metAt (tm.agent h.tid) l (atomBytes t)) =
      bytesLE (atomBytes t) (if old = (s.env tm).atomSrc h t d then (s.env tm).acasNew h t d else old) := by
    unfold leftBy
    dsimp only
    split
    · rfl
    · exact ((congrArg (bytesLE · old) hlen.symm).trans (bytesLE_leNat _)).symm
  rw [acasOne_eq ht hh, he, ← hleft]
  exact ⟨inOrder_results hsteady hthread m _ _, hstored g h.tid m _⟩

end

/-- Settles O25: ATOM and ARED are read-modify-writes by R129's table (`atomOne_acts`), ACAS one that may leave what it met
(`acasOne_acts`). -/
theorem atomics : Obligations.Atomics := by
  refine ⟨fun s₀ g rest d a t op m back hg => ?_, fun s₀ g rest d a t m hg => ?_⟩
  · have hrun : exec (if back then .atom d a t op m else .ared d a t op m) s₀ = .next (eachLane m (State.atomOne back d a t op m) s₀) := by
      cases back <;> rfl
    refine runsEach_of_eachLane hrun (by cases back <;> rfl) hg fun s tid tm h ht hh => ?_
    obtain rfl := thread?_tid hh
    dsimp only
    rw [← atomBytes_eq, ← atomSrc_eq]
    refine ⟨fun hal s1 b hp => ?_, fun hal s1 l p hp hn hinv hup => atomOne_acts ht hh d a t m op back hal hp hn hinv hup⟩
    rw [atomOne_eq ht hh, memRmw_error _ _ _ hal hp]
  · refine runsEach_of_eachLane rfl rfl hg fun s tid tm h ht hh => ?_
    obtain rfl := thread?_tid hh
    dsimp only
    rw [← atomBytes_eq]
    exact fun hal s1 l p hp hn hinv hup => acasOne_acts ht hh d a t m hal hp hn hinv hup

end Sys2Proof.Machine
end

section
/-!
SUPPORT and PROOFS. What a blocked thread is when its word has ended: the registers and predicates written, and where it goes on
(R54 to R56, R122).
-/

namespace Sys2Proof.Machine

/-! ### Results that land (R54, R56) -/

/-- A thread after some results have landed: registers, predicates, flags and marks of the words in flight have changed only, and there
are as many of each. -/
structure Lands (h h' : Thread) : Prop where
  rest : h' = { h with v := h'.v, c := h'.c, p := h'.p, flags := h'.flags, pend := h'.pend }
  vs : h'.v.length = h.v.length
  cs : h'.c.length = h.c.length
  pends : h'.pend.length = h.pend.length

theorem Lands.refl (h : Thread) : Lands h h := ⟨rfl, rfl, rfl, rfl⟩

theorem Lands.trans {h k l : Thread} (a : Lands h k) (b : Lands k l) : Lands h l :=
  ⟨by rw [b.rest, a.rest], b.vs.trans a.vs, b.cs.trans a.cs, b.pends.trans a.pends⟩

theorem Lands.foldl {β : Type} {f : Thread → β → Thread} (hf : ∀ h x, Lands h (f h x)) (l : List β) (h : Thread) : Lands h (l.foldl f h) := by
  induction l generalizing h with
  | nil => exact .refl h
  | cons x l ih => exact (hf h x).trans (ih _)

theorem Lands.ctl {h h' : Thread} (k : Lands h h') : h'.ctl = h.ctl := congrArg (·.ctl) k.rest

theorem setRaw_lengths (h : Thread) (i : Nat) (x : DWord) : (h.setRaw i x).v.length = h.v.length ∧ (h.setRaw i x).c.length = h.c.length := by
  unfold Thread.setRaw
  split
  · split
    · exact ⟨rfl, rfl⟩
    · exact ⟨rfl, List.length_set ..⟩
  · exact ⟨List.length_set .., rfl⟩

theorem landReg_lands (h : Thread) (n : Nat) (r : RegWrite) : Lands h (h.landReg n r) := by
  unfold Thread.landReg
  dsimp only
  generalize (if r.clash = true then choose n r.val [h.raw r.idx, r.val] else r.val) = x
  exact ⟨by rw [h.setRaw_frame], (setRaw_lengths h _ x).1, (setRaw_lengths h _ x).2, List.length_map _⟩

theorem landPred_lands (h : Thread) (n : Nat) (r : PredWrite) : Lands h (h.landPred n r) := by
  unfold Thread.landPred
  dsimp only
  generalize (if r.clash = true then choose n r.val [h.rawPred r.idx, r.val] else r.val) = x
  refine ⟨by rw [h.setRawPred_frame], ?_, ?_, List.length_map _⟩
  · exact congrArg (·.v.length) (h.setRawPred_frame r.idx x)
  · exact congrArg (·.c.length) (h.setRawPred_frame r.idx x)

/-- Whether a thread has a register that keeps what is written. -/
def Thread.keeps (h : Thread) (i : Nat) : Prop := i < (if h.ctl then h.c.length else h.v.length) ∧ (h.ctl = true → i ≠ 0)

/-- What a register keeps of a value. -/
def Thread.kept (h : Thread) (x : DWord) : DWord := if h.ctl then x else (x.setWidth 32).setWidth 64

theorem setRaw_raw_kept {h : Thread} {i : Nat} (hk : h.keeps i) (x : DWord) : (h.setRaw i x).raw i = h.kept x := by
  obtain ⟨hi, h0⟩ := hk
  unfold Thread.kept
  cases hc : h.ctl with
  | false =>
    rw [hc] at hi
    exact Thread.setRaw_raw_v hc hi x
  | true =>
    rw [hc] at hi
    rw [Thread.setRaw_raw_c hc hi, if_neg (h0 hc)]
    rfl

theorem Lands.keeps {h h' : Thread} (k : Lands h h') {i : Nat} (hk : h.keeps i) : h'.keeps i := by
  unfold Thread.keeps at hk ⊢
  rwa [k.ctl, k.vs, k.cs]

theorem Lands.kept {h h' : Thread} (k : Lands h h') (x : DWord) : h'.kept x = h.kept x := by
  unfold Thread.kept
  rw [k.ctl]

theorem landReg_raw (h : Thread) (n : Nat) {r : RegWrite} (hr : r.clash = false) (j : Nat) :
    (h.landReg n r).raw j = (h.setRaw r.idx r.val).raw j := by
  unfold Thread.landReg
  rw [hr]
  rfl

theorem landPred_raw (h : Thread) (n : Nat) (r : PredWrite) (j : Nat) : (h.landPred n r).raw j = h.raw j :=
  congrArg (·.raw j) (h.setRawPred_frame r.idx _)

section
variable (f : Nat → Nat)

/-- Registers written one after another: those that are not among them are as they were. -/
theorem landRegs_raw_ne (l : List (RegWrite × Nat)) (hl : ∀ x ∈ l, x.1.clash = false) (h : Thread) {j : Nat} (hj : ∀ x ∈ l, x.1.idx ≠ j) :
    (l.foldl (fun t x => t.landReg (f x.2) x.1) h).raw j = h.raw j := by
  induction l generalizing h with
  | nil => rfl
  | cons x l ih =>
    rw [List.foldl_cons, ih (fun y hy => hl y (List.mem_cons_of_mem _ hy)) _ fun y hy => hj y (List.mem_cons_of_mem _ hy),
      landReg_raw _ _ (hl x List.mem_cons_self), Thread.setRaw_raw_ne _ (hj x List.mem_cons_self).symm]

/-- Registers written one after another, none twice: each of them keeps its value. -/
theorem landRegs_raw (l : List (RegWrite × Nat)) (hl : ∀ x ∈ l, x.1.clash = false) (hnd : (l.map (·.1.idx)).Nodup) (h : Thread)
    {r : RegWrite × Nat} (hr : r ∈ l) (hk : h.keeps r.1.idx) :
    (l.foldl (fun t x => t.landReg (f x.2) x.1) h).raw r.1.idx = h.kept r.1.val := by
  induction l generalizing h with
  | nil => cases hr
  | cons x l ih =>
    obtain ⟨hx, hnd⟩ := List.nodup_cons.1 hnd
    have hland := landReg_lands h (f x.2) x.1
    rw [List.foldl_cons]
    rcases List.mem_cons.1 hr with rfl | hr
    · rw [landRegs_raw_ne f l (fun y hy => hl y (List.mem_cons_of_mem _ hy)) _ fun y hy e => hx (List.mem_map.2 ⟨y, hy, e⟩),
        landReg_raw _ _ (hl r List.mem_cons_self), setRaw_raw_kept hk]
    · rw [ih (fun y hy => hl y (List.mem_cons_of_mem _ hy)) hnd _ hr (hland.keeps hk), hland.kept]

theorem landPreds_raw (l : List (PredWrite × Nat)) (h : Thread) (j : Nat) :
    (l.foldl (fun t x => t.landPred (f x.2) x.1) h).raw j = h.raw j := by
  induction l generalizing h with
  | nil => rfl
  | cons x l ih => rw [List.foldl_cons, ih, landPred_raw]

end

/-- A thread before the results of a blocked word land. -/
def Thread.passed (h : Thread) (p : Pending) : Thread := { h with pend := h.pend.map p.passedBy }

theorem passed_lands (h : Thread) (p : Pending) : Lands h (h.passed p) := ⟨rfl, rfl, rfl, List.length_map _⟩

theorem landed_eq (n : Nat) (o : Out) (h : Thread) :
    landed n o h = { ((o.later .wq none).preds.zipIdx.foldl (fun t x => t.landPred (nth n (32 + x.2)) x.1)
        ((o.later .wq none).regs.zipIdx.foldl (fun t x => t.landReg (nth n x.2) x.1) (h.passed (o.later .wq none)))) with
      flags := ((o.later .wq none).preds.zipIdx.foldl (fun t x => t.landPred (nth n (32 + x.2)) x.1)
        ((o.later .wq none).regs.zipIdx.foldl (fun t x => t.landReg (nth n x.2) x.1) (h.passed (o.later .wq none)))).flags ||| o.flags } := rfl

theorem landed_lands (n : Nat) (o : Out) (h : Thread) : Lands h (landed n o h) := by
  have k := ((passed_lands h (o.later .wq none)).trans (.foldl (f := fun t (x : RegWrite × Nat) => t.landReg (nth n x.2) x.1)
    (fun t x => landReg_lands t _ _) (o.later .wq none).regs.zipIdx _)).trans (.foldl (f := fun t (x : PredWrite × Nat) =>
    t.landPred (nth n (32 + x.2)) x.1) (fun t x => landPred_lands t _ _) (o.later .wq none).preds.zipIdx _)
  rw [landed_eq]
  exact ⟨by rw [k.rest], k.vs, k.cs, k.pends⟩

/-- Each register among the results of a blocked word keeps its value. -/
theorem landed_raw (n : Nat) {o : Out} (hnd : (o.regs.map (·.1)).Nodup) (h : Thread) {w : Nat × DWord} (hw : w ∈ o.regs) (hk : h.keeps w.1) :
    (landed n o h).raw w.1 = h.kept w.2 := by
  have hclash : ∀ x ∈ (o.later .wq none).regs.zipIdx, x.1.clash = false := by
    intro x hx
    obtain ⟨y, -, hy⟩ := List.mem_map.1 (List.fst_mem_of_mem_zipIdx hx)
    rw [← hy]
  have hidx : (o.later .wq none).regs.zipIdx.map (·.1.idx) = o.regs.map (·.1) := by
    rw [← Function.comp_def (fun r : RegWrite => r.idx) Prod.fst, ← List.map_map, List.zipIdx_map_fst]
    exact List.map_map
  have hmem : ({ idx := w.1, val := w.2, clash := false } : RegWrite) ∈ (o.later .wq none).regs := List.mem_map.2 ⟨w, hw, rfl⟩
  rw [← List.zipIdx_map_fst 0 (o.later .wq none).regs] at hmem
  obtain ⟨⟨-, i⟩, hi, rfl⟩ := List.mem_map.1 hmem
  have hregs := landRegs_raw (nth n) _ hclash (hidx ▸ hnd) (h.passed (o.later .wq none)) hi ((passed_lands h _).keeps hk)
  rw [landed_eq]
  exact (landPreds_raw (fun k => nth n (32 + k)) (o.later .wq none).preds.zipIdx _ w.1).trans hregs

/-- Without registers among the results, the v and c registers stay. -/
theorem landed_v (n : Nat) {o : Out} (ho : o.regs = []) (h : Thread) : (landed n o h).v = h.v := by
  have hpreds (l : List (PredWrite × Nat)) (t : Thread) : (l.foldl (fun t x => t.landPred (nth n (32 + x.2)) x.1) t).v = t.v := by
    induction l generalizing t with
    | nil => rfl
    | cons x l ih => exact (ih _).trans (congrArg (·.v) (t.setRawPred_frame x.1.idx _))
  rw [landed_eq]
  refine (hpreds _ _).trans ?_
  rw [Out.later, ho]
  rfl

/-- The predicate among the results of a blocked word; p7 is always true. -/
theorem landed_rawPred (n : Nat) {o : Out} {p : P3} {x : Bool} (ho : o.preds = [(p.toNat, x)]) (h : Thread) :
    (landed n o h).rawPred p.toNat = if p = 7 then true else x := by
  rw [landed_eq, Out.later, ho]
  refine (Thread.setRawPred_rawPred _ p.isLt p.toNat x).trans ?_
  rw [if_pos rfl]
  exact if_congr ⟨fun h => BitVec.eq_of_toNat_eq h, fun h => by rw [h]; rfl⟩ rfl rfl

end Sys2Proof.Machine
end

section
/-!
SUPPORT and PROOFS. What accesses, releases and acquires leave as it was outside the memory system (R133, R180 to R197, R346).
-/

namespace Sys2Proof.Machine

/-! ### Steps of the memory system -/

/-- A state with the memory, the caches and the teams of another. -/
def State.withMemory (s t : State) : State :=
  { s with mem := t.mem, stamps := t.stamps, teams := t.teams, cores := t.cores, clusters := t.clusters, dies := t.dies }

/-- A step within the memory system: calm, and with nothing else changed. -/
structure Within (s t : State) : Prop where
  calm : Calm s t
  rest : t = s.withMemory t

theorem Within.refl (s : State) : Within s s := ⟨.refl s, rfl⟩

theorem Within.trans {s t u : State} (h : Within s t) (k : Within t u) : Within s u := by
  have hu : t.withMemory u = (s.withMemory t).withMemory u := congrArg (State.withMemory · u) h.rest
  exact ⟨h.calm.trans k.calm, k.rest.trans hu⟩

theorem Within.ite {c : Prop} [Decidable c] {s t u : State} (ht : Within s t) (hu : Within s u) : Within s (if c then t else u) := by
  split
  · exact ht
  · exact hu

theorem Within.foldl {β : Type} {f : State → β → State} (hf : ∀ s b, Within s (f s b)) (l : List β) (s : State) : Within s (l.foldl f s) := by
  induction l generalizing s with
  | nil => exact .refl s
  | cons b l ih => exact (hf s b).trans (ih _)

/-- A step that changes no team. -/
theorem Within.same {s t : State} (ht : t.teams = s.teams) (hr : t = s.withMemory t) : Within s t :=
  ⟨.same ht (by rw [hr]; rfl), hr⟩

section
variable {s t : State} (h : Within s t)
include h

theorem Within.landings : t.landings = s.landings := by rw [h.rest]; rfl

theorem Within.clock : t.clock = s.clock := by rw [h.rest]; rfl

theorem Within.landing? (id : Nat) : t.landing? id = s.landing? id := by
  unfold State.landing?
  rw [h.landings]

end

theorem within_modDie (s : State) (d : Nat) (f : Die → Die) : Within s (s.modDie d f) := .same rfl rfl

theorem within_modCore (s : State) (c : Nat) (f : Core → Core) : Within s (s.modCore c f) := .same rfl rfl

theorem within_modCluster (s : State) (c : Nat) (f : Cluster → Cluster) : Within s (s.modCluster c f) := .same rfl rfl

theorem within_setStamp (s : State) (x : Stamp) : Within s (s.setStamp x) := .same rfl rfl

theorem within_changeEpoch (s : State) (die : Nat) : Within s (s.changeEpoch die) := .same rfl rfl

theorem within_homeWrite (s : State) (pa : Nat) (b : List Byte) : Within s (s.homeWrite pa b) := ⟨calm_homeWrite s pa b, rfl⟩

theorem within_dropCopies (s : State) (sel : Stamp → Bool) : Within s (s.dropCopies sel) := by
  unfold State.dropCopies
  dsimp only
  refine (Within.foldl (fun s x => ?_) _ s).trans (.same rfl rfl)
  split
  · exact within_modDie s _ _
  · exact .refl s

theorem within_stampWrite (s : State) (line : Nat) (core : Option Nat) (due : Nat) (teams : List Nat) :
    Within s (s.stampWrite line core due teams).2 := by
  unfold State.stampWrite State.roomFor State.directory
  refine dite (s.isLocal line = true) (fun h => ?_) fun h => ?_
  · rw [if_pos h]
    exact (((Within.ite (within_changeEpoch s _) (.refl s)).trans (within_setStamp _ _)).trans (.ite (within_modDie _ _ _) (.refl _))).trans
      ((within_dropCopies _ _).trans (.same rfl rfl))
  · rw [if_neg h]
    exact .refl s

theorem within_coreHomeWrite (s : State) (c pa due : Nat) (teams : List Nat) (b : List Byte) :
    Within s (s.coreHomeWrite c pa due teams b) := by
  unfold State.coreHomeWrite
  exact ((within_stampWrite s (lineOf pa) (some c) due teams).trans (within_homeWrite _ pa b)).trans (within_modCore _ c _)

theorem within_agentWrite (s : State) (pa : Nat) (b : List Byte) : Within s (s.agentWrite pa b) := by
  induction b generalizing s pa with
  | nil => exact .refl s
  | cons x b ih => exact ((within_stampWrite s _ _ _ _).trans (within_homeWrite _ pa [x])).trans (ih _ _)

theorem within_writeBackLine (s : State) (c pa : Nat) (sel : DirtyByte → Bool) : Within s (s.writeBackLine c pa sel) := by
  unfold State.writeBackLine
  dsimp only
  exact .ite (.refl s) ((Within.foldl (fun s d => within_coreHomeWrite s _ _ _ _ _) _ s).trans (within_modCore _ c _))

theorem within_writeBack (s : State) (c : Nat) (sel : DirtyByte → Bool) : Within s (s.writeBack c sel) :=
  .foldl (fun s pa => within_writeBackLine s c pa sel) _ s

/-! ### Releases and acquires -/

theorem within_release (s : State) (ag : Agent) (sc : Scope) (g : Option GuardWord) : Within s (s.release ag sc g) := by
  unfold State.release
  refine .ite (.refl s) (Within.trans (.ite (.refl s) ?_) (within_dropCopies _ _))
  split
  · exact within_writeBack s _ _
  · exact within_writeBack s _ _

theorem within_coverLeases (s : State) (c : Nat) : Within s (s.coverLeases c) := by
  unfold State.coverLeases
  refine Within.foldl (fun s l => ?_) _ s
  split
  · exact .ite (.ite (within_setStamp s _) (within_modDie s _ _)) (.refl s)
  · exact .refl s

theorem within_acquire (s : State) (ag : Agent) (sc : Scope) (g : Option GuardWord) : Within s (s.acquire ag sc g) := by
  unfold State.acquire
  refine .ite (.refl s) (Within.trans (.ite (within_writeBack s _ _) ?_) ((within_modCore _ _ _).trans (.same rfl rfl)))
  split
  · exact .ite (within_changeEpoch s _) (within_modCore s _ _)
  · exact .ite (within_changeEpoch s _) ((within_modCore s _ _).trans (within_coverLeases _ _))

/-! ### Translations and structures that a word reads -/

theorem within_toHome (s : State) (ag : Agent) (l : Loc) (n : Nat) : Within s (s.toHome ag l n) := by
  have hflush (pa : Nat) : Within s (s.flushBytes ag.core pa n) := .foldl (fun s i => within_writeBackLine s _ _ _) _ s
  cases l with
  | scr => exact .refl s
  | mem | vis | shd => exact (Within.ite (.refl s) (hflush _)).trans (within_dropCopies _ _)

theorem within_fromHome (s : State) (ag : Agent) (l : Loc) (n : Nat) : Within s (s.fromHome ag l n) := by
  cases l with
  | scr => exact .refl s
  | mem | vis | shd => exact .ite (.refl s) (within_modCore s _ _)

theorem within_setPte (s : State) (pte mask : Nat) : Within s (s.setPte pte mask) := within_agentWrite s pte _

theorem within_install (s : State) (core : Nat) (direct w : Bool) (e : TlbEntry) : Within s (s.install core direct w e).1 :=
  ((within_setPte s e.pte _).trans (within_modCluster _ _ _)).trans (.ite (.refl _) (within_modCore _ _ _))

theorem within_walked (s : State) (die tn asid va : Nat) : Within s (s.walked die tn asid va) := by
  unfold State.walked
  split
  · exact .refl s
  · exact .ite (.refl s) (within_modDie s _ _)

theorem within_pageWalk (s : State) (core : Nat) (direct : Bool) (tn asid va : Nat) (w : Bool) :
    Within s (s.pageWalk core direct tn asid va w).1 := by
  unfold State.pageWalk
  split
  · exact (within_walked s _ _ _ _).trans (within_install _ _ _ _ _)
  · exact .refl s

theorem within_leafFor (s : State) (core : Nat) (direct : Bool) (tn asid va : Nat) (k : Kind) :
    Within s (s.leafFor core direct tn asid va k).1 := by
  unfold State.leafFor
  split
  · split
    · exact .ite (.refl s) (within_modCore s _ _)
    · exact within_pageWalk s _ _ _ _ _ _
  · exact within_pageWalk s _ _ _ _ _ _

theorem within_place (s : State) (ag : Agent) (va n : Nat) (k : Kind) : Within s (s.place ag va n k).1 := by
  rw [place_fst, translate_fst]
  exact .ite (.refl s) (within_leafFor s _ _ _ _ _ _)

theorem within_rangeFrom (s : State) (ag : Agent) (kind : Kind) (fuel va n : Nat) : Within s (s.rangeFrom ag kind fuel va n).1 := by
  induction fuel generalizing s va n with
  | zero => exact .refl s
  | succ fuel ih =>
    unfold State.rangeFrom
    split
    · exact .refl s
    · dsimp only
      generalize (if inWindow va = true then n else min n (4096 - va % 4096)) = k
      have hplace := within_place s ag va k kind
      split
      · next heq => rwa [heq] at hplace
      · next t l p heq =>
        rw [heq] at hplace
        have hrest := ih t (va + k) (n - k)
        split
        · next heq' =>
          rw [heq'] at hrest
          exact hplace.trans hrest
        · next heq' =>
          rw [heq'] at hrest
          exact hplace.trans hrest

/-- Reading a structure stays within the memory system. -/
theorem within_readStruct (s : State) (ag : Agent) (va n align : Nat) : Within s (s.readStruct ag va n align).1 := by
  unfold State.readStruct
  split
  · exact .refl s
  · have hrange : Within s (s.range ag va n .read).1 := by
      have h := within_rangeFrom s ag .read (n / 4096 + 2) va n
      unfold State.range
      rw [if_neg (by decide)]
      split
      · next heq => rwa [heq] at h
      · next heq => rwa [heq] at h
    split
    · next heq => rwa [heq] at hrange
    · next heq =>
      rw [heq] at hrange
      exact (hrange.trans (.foldl (fun s x => within_toHome s ag _ _) _ _)).trans (.foldl (fun s x => within_fromHome s ag _ _) _ _)

end Sys2Proof.Machine
end

section
/-!
SUPPORT. What the operations on landings leave of threads and handles, and which landings they change (R144 to R151, R246 to R252).
-/

namespace Sys2Proof.Machine

/-! ### Threads and handles -/

/-- The threads and the handles of a team. -/
def State.crew (s : State) (id : Nat) : Option (List Thread × List (Option Handle)) := (s.team? id).map fun tm => (tm.threads, tm.handles)

/-- A step that changes no thread and no handle. -/
def Alike (s t : State) : Prop := ∀ id, t.crew id = s.crew id

theorem Alike.refl (s : State) : Alike s s := fun _ => rfl

theorem Alike.trans {s t u : State} (h : Alike s t) (k : Alike t u) : Alike s u := fun id => (k id).trans (h id)

theorem Alike.same {s t : State} (h : t.teams = s.teams) : Alike s t := fun id => by unfold State.crew State.team?; rw [h]

theorem Alike.ite {c : Prop} [Decidable c] {s t u : State} (ht : Alike s t) (hu : Alike s u) : Alike s (if c then t else u) := by
  split
  · exact ht
  · exact hu

theorem Calm.alike {s t : State} (h : Calm s t) : Alike s t := by
  have key (u : State) (id : Nat) : u.crew id = ((u.team? id).map Team.standing).map fun tm => (tm.threads, tm.handles) := by
    rw [Option.map_map]
    rfl
  intro id
  rw [key, key, h.standing]

theorem Within.alike {s t : State} (h : Within s t) : Alike s t := h.calm.alike

section
variable {s t : State} (h : Alike s t)
include h

theorem Alike.thread? (id tid : Nat) : t.thread? id tid = s.thread? id tid := by
  have key (u : State) : u.thread? id tid = (u.crew id).bind fun x => x.1.find? (·.tid = tid) := by
    unfold State.thread? State.crew
    cases u.team? id <;> rfl
  rw [key, key, h]

theorem Alike.team? {id : Nat} {tm : Team} (ht : s.team? id = some tm) :
    ∃ tm', t.team? id = some tm' ∧ tm'.threads = tm.threads ∧ tm'.handles = tm.handles := by
  have hcrew := h id
  unfold State.crew at hcrew
  rw [ht, Option.map_some] at hcrew
  obtain ⟨tm', ht', e⟩ := Option.map_eq_some_iff.1 hcrew
  exact ⟨tm', ht', congrArg Prod.fst e, congrArg Prod.snd e⟩

end

theorem alike_modLanding (s : State) (id : Nat) (f : Landing → Landing) : Alike s (s.modLanding id f) := .same rfl

theorem alike_trimFloors (s : State) : Alike s s.trimFloors := by
  unfold State.trimFloors State.keepFloors
  refine .ite (.refl s) fun id => ?_
  unfold State.crew State.team?
  dsimp only
  rw [List.find?_map, Option.map_map]
  rfl

theorem within_descWrite (s : State) (tn asid : Nat) (l : Landing) (addr : DWord) (off : Nat) (b : List Byte) :
    Within s (s.descWrite tn asid l addr off b) := by
  unfold State.descWrite
  refine Within.trans ?_ (within_agentWrite _ _ b)
  split
  · exact .ite (.refl s) (within_setPte s _ _)
  · exact .refl s

theorem alike_releaseLanding (s : State) (id : Nat) : Alike s (s.releaseLanding id) := by
  unfold State.releaseLanding
  split
  · refine Alike.trans ?_ (alike_trimFloors _)
    exact ((within_descWrite s _ _ _ _ _ _).trans (within_descWrite _ _ _ _ _ _ _)).alike.trans (.ite (.same rfl) (alike_modLanding _ _ _))
  · exact .refl s

theorem alike_checkRelease (s : State) (id : Nat) : Alike s (s.checkRelease id) := by
  unfold State.checkRelease
  split
  · exact .ite (alike_releaseLanding s id) (.refl s)
  · exact .refl s

theorem alike_takeRecord (s : State) (id k : Nat) : Alike s (s.takeRecord id k) :=
  (alike_modLanding s id _).trans (alike_checkRelease _ id)

theorem alike_spillTask {s u : State} {cl : Nat} {t : Task} (h : s.spillTask cl t = some u) : Alike s u := by
  unfold State.spillTask at h
  dsimp only at h
  split at h
  · cases h
    exact (within_agentWrite s _ _).alike.trans (.same rfl)
  · cases h

theorem alike_pushTask (s : State) (cl : Nat) (t : Task) : Alike s (s.pushTask cl t) := by
  have hid : Alike s s.newId.2 := .same rfl
  refine hid.trans ?_
  unfold State.pushTask
  dsimp only
  split
  · exact .same rfl
  · generalize hspill : s.newId.2.spillTask cl _ = o
    cases o with
    | none => exact .same rfl
    | some u => exact alike_spillTask hspill

/-- A task is pushed, or TASKREC is posted for it (R28). -/
theorem alike_haulTask (s : State) (cl : Nat) (t : Task) :
    Alike s (if ((s.seenKernel t).taskKernel t).isSome then (s.seenKernel t).pushTask cl t else (s.seenKernel t).raiseTaskRec t) :=
  Alike.trans (calm_touched s _ _ _ _).alike (.ite (alike_pushTask _ _ _) (.same rfl))

theorem alike_formHaul (s : State) (id cause : Nat) : Alike s (s.formHaul id cause) := by
  unfold State.formHaul
  split
  · split
    · dsimp only
      refine .ite (Alike.trans ?_ (alike_checkRelease _ id)) ?_
      all_goals exact (alike_modLanding s id _).trans (alike_haulTask _ _ _)
    · exact .refl s
  · exact .refl s

theorem alike_sealHauls (id fuel : Nat) (s : State) : Alike s (State.sealHauls id fuel s) := by
  induction fuel generalizing s with
  | zero => exact .refl s
  | succ fuel ih =>
    unfold State.sealHauls
    split
    · exact .ite ((alike_formHaul s id 3).trans (ih _)) (.refl s)
    · exact .refl s

theorem alike_sealLanding (s : State) (id : Nat) : Alike s (s.sealLanding id) := by
  unfold State.sealLanding
  split
  · exact .ite (((alike_modLanding s id _).trans (alike_sealHauls id _ _)).trans (alike_checkRelease _ id)) (.refl s)
  · exact .refl s

/-! ### Landings -/

theorem landing?_id {s : State} {id : Nat} {l : Landing} (h : s.landing? id = some l) : l.id = id := by
  have := List.find?_some h
  simpa using this

theorem landing?_congr {s t : State} (h : t.landings = s.landings) (id : Nat) : t.landing? id = s.landing? id := by
  unfold State.landing?
  rw [h]

/-- A landing after a change of it. -/
theorem landing?_modLanding (s : State) (id : Nat) {f : Landing → Landing} (hf : ∀ l, (f l).id = l.id) :
    (s.modLanding id f).landing? id = (s.landing? id).map f := by
  unfold State.landing? State.modLanding
  dsimp only
  rw [List.find?_map]
  have hid : ((fun l => decide (l.id = id)) ∘ fun l : Landing => if l.id = id then f l else l) = fun l => decide (l.id = id) := by
    funext l
    simp only [Function.comp_apply]
    split
    · rw [hf]
    · rfl
  rw [hid]
  cases h : s.landings.find? (fun l => decide (l.id = id)) with
  | none => rfl
  | some l =>
    have hl : l.id = id := landing?_id h
    simp [hl]

/-- A landing that is no expert landing forms no haul. -/
theorem refill_plain {s : State} {id : Nat} {l : Landing} (hl : s.landing? id = some l) (he : l.expert = none) : s.refill id = s := by
  unfold State.refill State.fillHauls
  rw [hl]
  dsimp only
  rw [he]

theorem sealHauls_plain {s : State} {id : Nat} {l : Landing} (fuel : Nat) (hl : s.landing? id = some l) (he : l.expert = none) :
    State.sealHauls id fuel s = s := by
  cases fuel with
  | zero => rfl
  | succ fuel =>
    unfold State.sealHauls
    rw [hl]
    dsimp only
    rw [he]
    rfl

/-- A landing with a record put in. -/
def Landing.with (l : Landing) (data : List Byte) (clock : Nat) : Landing :=
  { l with waiting := l.waiting ++ [{ data := data, clock := clock, ovf := decide (l.slots ≤ l.inSlots) }] }

theorem putRecord_plain {s : State} {id : Nat} {l : Landing} (data : List Byte) (hl : s.landing? id = some l) (he : l.expert = none) :
    ∃ f, s.putRecord id data = s.modLanding id f ∧ (s.modLanding id f).landing? id = some (l.with data s.clock) := by
  have hput := landing?_modLanding s id (f := fun l =>
    { l with waiting := l.waiting ++ [{ data := data, clock := s.clock, ovf := !(decide (l.inSlots < l.slots)) }] }) fun _ => rfl
  rw [hl, Option.map_some] at hput
  refine ⟨_, refill_plain hput he, hput.trans ?_⟩
  unfold Landing.with
  simp only [← decide_not, Nat.not_lt]

/-- A landing that a handle names is not released. -/
theorem checkRelease_named {s : State} {id : Nat} (h : s.named id = true) : s.checkRelease id = s := by
  unfold State.checkRelease
  split
  · rw [h, if_neg (by simp)]
  · rfl

theorem named_of_handle {s : State} {team : Nat} {tm : Team} {n : P3} {x : Handle} (ht : s.team? team = some tm)
    (hx : tm.handle n = some x) : s.named x.landing = true := by
  refine List.any_eq_true.2 ⟨tm, List.mem_of_find?_eq_some ht, List.any_eq_true.2 ⟨some x, ?_, by simp⟩⟩
  unfold Team.handle at hx
  rw [List.getD_eq_getElem?_getD] at hx
  cases h : tm.handles[n.toNat]? with
  | none =>
    rw [h] at hx
    cases hx
  | some y =>
    rw [h] at hx
    exact hx ▸ List.mem_of_getElem? h

/-! ### What a landing says to a push (R148) -/

section
variable {l : Landing}

theorem ask_refused (h : l.state ≠ .opened) : l.ask = .refused := by
  unfold Landing.ask
  rw [if_pos (by simpa using h)]

theorem ask_room (h : l.state = .opened) (hroom : l.inSlots < l.slots ∨ l.l2 = true ∧ l.ovf ≠ 0 ∧ l.inOvf < l.ovf) : l.ask = .room := by
  unfold Landing.ask
  rw [h]
  rcases hroom with hs | ⟨h2, h0, ho⟩
  · simp [hs]
  · simp [h2, h0, ho]

theorem ask_spill (h : l.state = .opened) (hs : l.slots ≤ l.inSlots) (h2 : l.l2 = true) (h0 : l.ovf ≠ 0) (ho : l.ovf ≤ l.inOvf) :
    l.ask = .spill := by
  unfold Landing.ask
  rw [h]
  simp [h2, h0, Nat.not_lt.2 hs, Nat.not_lt.2 ho]

theorem ask_full (h : l.state = .opened) (hs : l.slots ≤ l.inSlots) (h2 : l.l2 = false ∨ l.ovf = 0) : l.ask = .full := by
  unfold Landing.ask
  rw [h]
  rcases h2 with h2 | h2 <;> simp [h2, Nat.not_lt.2 hs]

end

end Sys2Proof.Machine
end

section
/-!
SUPPORT and PROOFS. A blocked word that ends lets its thread go on; blocked LPUSH and LPOP (R55, R122, R148, R149).
-/

namespace Sys2Proof.Machine

/-! ### Where a thread goes on (R39, R55) -/

/-- A thread in another status, and otherwise as it was but for its age and the marks of a yield. -/
def Moved (h h' : Thread) : Prop := h' = { h with status := h'.status, yielded := h'.yielded, age := h'.age, refile := h'.refile }

theorem Moved.trans {h k l : Thread} (a : Moved h k) (b : Moved k l) : Moved h l := by
  have : l = { k with status := l.status, yielded := l.yielded, age := l.age, refile := l.refile } := b
  unfold Moved
  rw [this, show k = _ from a]

/-- The statuses in which a thread waits to be issued. -/
def Status.filed (x : Status) : Prop := x = .ready ∨ x = .spill ∨ ∃ n, x = .bin n

theorem file_moves {s : State} {id tid : Nat} {h : Thread} (hh : s.thread? id tid = some h) :
    ∃ h', (s.file id tid).thread? id tid = some h' ∧ Moved h h' ∧ h'.status.filed := by
  obtain ⟨tm, ht, -⟩ := Option.bind_eq_some_iff.1 hh
  unfold State.file
  rw [ht, hh]
  dsimp only
  generalize hplace : (if h.ctl = true then Status.ready else match s.binFor tm.core (h.key id) with
    | some n => Status.bin n
    | none => .spill) = place
  refine ⟨_, thread?_modThread (f := fun h => { h with status := place, age := s.clock, refile := false }) (fun _ => rfl) hh, rfl, ?_⟩
  subst hplace
  dsimp only
  split
  · exact .inl rfl
  · split
    · exact .inr (.inr ⟨_, rfl⟩)
    · exact .inr (.inl rfl)

theorem yield_file_moves {s : State} {id tid : Nat} {h : Thread} (hh : s.thread? id tid = some h) (y : Bool) :
    ∃ h', ((s.modThread id tid fun h => { h with yielded := y }).file id tid).thread? id tid = some h' ∧ Moved h h' ∧ h'.status.filed := by
  obtain ⟨h', hh', hmoved, hfiled⟩ := file_moves (thread?_modThread (f := fun h => { h with yielded := y }) (fun _ => rfl) hh)
  exact ⟨h', hh', Moved.trans (k := { h with yielded := y }) rfl hmoved, hfiled⟩

theorem unpark_moves {s : State} {id tid : Nat} {h : Thread} (hh : s.thread? id tid = some h) (hp : h.status = .parked) :
    ∃ h', (s.unpark id tid).thread? id tid = some h' ∧ Moved h h' ∧ (h'.status.filed ∨ h'.status = .parked ∧ h'.pend ≠ []) := by
  unfold State.unpark
  rw [hh]
  dsimp only
  split
  · split
    · obtain ⟨h', hh', hmoved, hfiled⟩ := yield_file_moves hh true
      exact ⟨h', hh', hmoved, .inl hfiled⟩
    · obtain ⟨h', hh', hmoved, hfiled⟩ := yield_file_moves hh false
      exact ⟨h', hh', hmoved, .inl hfiled⟩
  · next hno => exact ⟨h, hh, rfl, .inr ⟨hp, fun e => hno ⟨hp, by rw [e]; rfl⟩⟩⟩

/-- A thread whose blocked word counts on a counter, and so ends its clause, is filed, or parks with words in flight. -/
theorem goOn_moves {s : State} {id tid : Nat} {h : Thread} (hh : s.thread? id tid = some h) {b : Block} (hc : b.wait.ctr.isSome = true) :
    ∃ h', (s.goOn id tid b).thread? id tid = some h' ∧ Moved h h' ∧
      (h'.status.filed ∨ h'.status = .parked ∧ h'.pend ≠ [] ∧ b.park = true) := by
  have hlast : (!(b.wait.ctr.isNone && b.more)) = true := by
    cases hctr : b.wait.ctr with
    | none => rw [hctr] at hc; cases hc
    | some c => rfl
  have hleave := thread?_modThread (f := fun th => th.leave b) (fun _ => rfl) hh
  have hmoved : Moved h (h.leave b) := rfl
  unfold State.goOn
  rw [hlast]
  dsimp only
  cases hp : b.park with
  | false =>
    obtain ⟨h', hh', hm, hf⟩ := file_moves hleave
    exact ⟨h', hh', hmoved.trans hm, .inl hf⟩
  | true =>
    obtain ⟨h', hh', hm, hf⟩ := unpark_moves hleave (by simp [Thread.leave, hp])
    exact ⟨h', hh', hmoved.trans hm, hf.imp (fun e => e) fun ⟨e, hne⟩ => ⟨e, hne, rfl⟩⟩

/-- A blocked word that ends leaves its thread with its results, on its way at its next PC. -/
theorem unblock_moves {s : State} {id tid : Nat} {h : Thread} {b : Block} (o : Out) (hh : s.thread? id tid = some h)
    (hb : h.status = .blocked b) (hc : b.wait.ctr.isSome = true) :
    ∃ h', (s.unblock id tid o).thread? id tid = some h' ∧ Moved (landed (choiceAt s.fresh tid 0) o h) h' ∧
      (h'.status.filed ∨ h'.status = .parked ∧ h'.pend ≠ [] ∧ b.park = true) := by
  have hland := thread?_modThread (f := landed (choiceAt s.fresh tid 0) o) (fun h => (landed_keeps _ o h).1) hh
  obtain ⟨h', hh', hmoved⟩ := goOn_moves hland hc
  refine ⟨h', ?_, hmoved⟩
  unfold State.unblock
  rw [hh, Option.map_some, hb]
  exact hh'

theorem unblock_landings {s : State} {id tid : Nat} {h : Thread} {b : Block} (o : Out) (hh : s.thread? id tid = some h)
    (hb : h.status = .blocked b) : (s.unblock id tid o).landings = s.landings := by
  obtain ⟨F, he, -⟩ := unblock_eq o hh hb
  rw [he]
  rfl

/-- What a thread is that a word with results `o` has let go on. -/
theorem unblock_resumes {s : State} {id tid : Nat} {h : Thread} {b : Block} (o : Out) (hh : s.thread? id tid = some h)
    (hb : h.status = .blocked b) (hc : b.wait.ctr.isSome = true) :
    resumed (s.unblock id tid o) id tid h b.park ∧
      ∀ h', (s.unblock id tid o).thread? id tid = some h' → Moved (landed (choiceAt s.fresh tid 0) o h) h' := by
  obtain ⟨h', hh', hmoved, hstatus⟩ := unblock_moves o hh hb hc
  have hland := (landed_lands (choiceAt s.fresh tid 0) o h).rest
  refine ⟨⟨h', hh', ?_, ?_⟩, fun k hk => by rw [hh'] at hk; cases hk; exact hmoved⟩
  · rcases hstatus with (e | e | e) | e
    · exact .inl e
    · exact .inr (.inl e)
    · exact .inr (.inr (.inl e))
    · exact .inr (.inr (.inr e))
  · have hm : h' = { landed (choiceAt s.fresh tid 0) o h with status := h'.status, yielded := h'.yielded, age := h'.age, refile := h'.refile } := hmoved
    rw [hm, hland]
    exact ⟨rfl, rfl, rfl, rfl⟩

theorem Moved.regs {h h' : Thread} (k : Moved h h') : h'.v = h.v ∧ h'.c = h.c ∧ h'.ctl = h.ctl ∧ ∀ i, h'.rawPred i = h.rawPred i := by
  have e : h' = { h with status := h'.status, yielded := h'.yielded, age := h'.age, refile := h'.refile } := k
  rw [e]
  exact ⟨rfl, rfl, rfl, fun _ => rfl⟩

/-- A blocked word that answers with a predicate only. -/
theorem unblock_pred {s : State} {id tid : Nat} {h : Thread} {b : Block} (p : P3) (x : Bool) (hh : s.thread? id tid = some h)
    (hb : h.status = .blocked b) (hc : b.wait.ctr.isSome = true) :
    resumed (s.unblock id tid (Out.pred p x)) id tid h b.park ∧
      ∀ h', (s.unblock id tid (Out.pred p x)).thread? id tid = some h' →
        h'.rawPred p.toNat = (if p = 7 then true else x) ∧ h'.v = h.v := by
  obtain ⟨hres, hland⟩ := unblock_resumes (Out.pred p x) hh hb hc
  refine ⟨hres, fun h' hh' => ?_⟩
  obtain ⟨hv, -, -, hp⟩ := (hland h' hh').regs
  exact ⟨(hp _).trans (landed_rawPred _ rfl h), hv.trans (landed_v _ rfl h)⟩

/-! ### Words that are turned away at a landing (R148, R149) -/

/-- A blocked word whose landing takes or gives no record any more: it traps where its predicate is p7, and answers false. -/
def State.turnAway (s : State) (team tid : Nat) (ag : Agent) (pd : P3) (sc : Scope) (detail : Nat) (addr : DWord) : State :=
  if pd = 7 then s.trapBlocked team tid Cause.lsealed.code detail addr
  else (s.acquire ag sc none).unblock team tid (Out.pred pd false)

theorem trapBlocked_thread {s : State} {team tid : Nat} {h : Thread} {b : Block} (hh : s.thread? team tid = some h)
    (hb : h.status = .blocked b) (cause detail : Nat) (addr : DWord) :
    ∃ x, (s.trapBlocked team tid cause detail addr).thread? team tid = some { h with status := .trapped x } ∧
      x.cause = BitVec.ofNat 8 cause ∧ x.detail = BitVec.ofNat 20 detail ∧ x.addr = addr ∧ x.header = b.header ∧ x.word = b.word := by
  unfold State.trapBlocked
  dsimp only
  rw [thread?_modThread (fun h => by split <;> rfl) hh, hb]
  exact ⟨_, rfl, rfl, rfl, rfl, rfl, rfl⟩

section
variable {s : State} {team tid : Nat} {h : Thread} {b : Block} (hh : s.thread? team tid = some h) (hb : h.status = .blocked b)
include hh hb

theorem turnAway_landings (ag : Agent) (pd : P3) (sc : Scope) (detail : Nat) (addr : DWord) :
    (s.turnAway team tid ag pd sc detail addr).landings = s.landings := by
  have hacq := within_acquire s ag sc none
  unfold State.turnAway
  split
  · rfl
  · rw [unblock_landings _ ((hacq.calm.thread? team tid).trans hh) hb, hacq.landings]

theorem turnAway_trap (ag : Agent) (sc : Scope) (detail : Nat) (addr : DWord) :
    ∃ x, (s.turnAway team tid ag 7 sc detail addr).thread? team tid = some { h with status := .trapped x } ∧ x.cause = 8 ∧
      x.detail = BitVec.ofNat 20 detail ∧ x.addr = addr ∧ x.header = b.header ∧ x.word = b.word := trapBlocked_thread hh hb _ detail addr

theorem turnAway_pred (hc : b.wait.ctr.isSome = true) (ag : Agent) {pd : P3} (hpd : pd ≠ 7) (sc : Scope) (detail : Nat) (addr : DWord) :
    resumed (s.turnAway team tid ag pd sc detail addr) team tid h b.park ∧
      ∀ h', (s.turnAway team tid ag pd sc detail addr).thread? team tid = some h' → h'.rawPred pd.toNat = false ∧ h'.v = h.v := by
  have hacq := within_acquire s ag sc none
  unfold State.turnAway
  rw [if_neg hpd]
  obtain ⟨hres, hland⟩ := unblock_pred pd false ((hacq.calm.thread? team tid).trans hh) hb hc
  refine ⟨hres, fun h' hh' => ?_⟩
  rw [if_neg hpd] at hland
  exact hland h' hh'

end

/-! ### The home serves a blocked LPUSH or LPOP -/

section
variable {s : State} {team tid : Nat} {tm : Team} {h : Thread} {b : Block} {id : Nat} {pd : P3} {l : Landing} {addr : DWord}
  (ht : s.team? team = some tm) (hh : tm.thread? tid = some h) (hb : h.status = .blocked b) (hrun : tm.state = .run)
  (hl : s.landing? id = some l) (hup : s.landDown l = false)
include ht hh hb hrun hl hup

theorem servePush_eq {data : List Byte} (hw : b.wait = .lpush id addr pd data) :
    s.servePush team tid = if l.state != .opened then s.turnAway team tid (tm.agent tid) pd l.scope 1 addr
      else if (firstOf (s.waiters id true)).map (·.2) = some (team, tid) ∧ l.ask = .room then
        (s.putRecord id data).unblock team tid (Out.pred pd true)
      else s := by
  have hthread : s.thread? team tid = some h := by unfold State.thread?; rw [ht]; exact hh
  unfold State.servePush
  rw [ht, hthread]
  dsimp only
  rw [hb]
  dsimp only
  rw [hw]
  dsimp only
  rw [if_neg (not_not.2 hrun), hl]
  dsimp only
  rw [hup, if_neg Bool.false_ne_true]
  rfl

theorem servePop_eq {a : Code} (hw : b.wait = .lpop id addr pd a) :
    s.servePop team tid = if l.expert.isSome = true then s.trapBlocked team tid Cause.lsealed.code 6 addr
      else match l.waiting with
        | r :: _ =>
            if (firstOf (s.waiters id false)).map (·.2) = some (team, tid) then
              ((s.takeRecord id 0).acquire (tm.agent tid) l.scope none).unblock team tid (outRecord a pd r.data)
            else s
        | [] => if l.state = .ended then s.turnAway team tid (tm.agent tid) pd l.scope 2 addr else s := by
  have hthread : s.thread? team tid = some h := by unfold State.thread?; rw [ht]; exact hh
  unfold State.servePop
  rw [ht, hthread]
  dsimp only
  rw [hb]
  dsimp only
  rw [hw]
  dsimp only
  rw [if_neg (not_not.2 hrun), hl]
  dsimp only
  rw [hup, if_neg Bool.false_ne_true]
  rfl

end

theorem landed_outRecord {h : Thread} (hctl : h.ctl = false) (n : Nat) (a : Code) (pd : P3) (data : List Byte) {i : Nat} (hi : i < 16)
    (hlen : a.toNat + i < h.v.length) :
    (landed n (outRecord a pd data) h).v[a.toNat + i]? = some (BitVec.ofNat 32 (leNat ((data.drop (4 * i)).take 4))) := by
  have hmem : (a.toNat + i, BitVec.ofNat 64 (leNat ((data.drop (4 * i)).take 4))) ∈ (outRecord a pd data).regs :=
    List.mem_map.2 ⟨i, List.mem_range.2 hi, rfl⟩
  have hnd : ((outRecord a pd data).regs.map (·.1)).Nodup := by
    unfold outRecord
    rw [List.map_map]
    exact List.Nodup.map (fun x y e => by simpa using e) List.nodup_range
  have hk : h.keeps (a.toNat + i) := ⟨by rw [hctl]; exact hlen, fun e => by rw [hctl] at e; cases e⟩
  have hraw := landed_raw n hnd h hmem hk
  have hland := landed_lands n (outRecord a pd data) h
  unfold Thread.raw Thread.kept at hraw
  rw [hland.ctl, hctl, if_neg Bool.false_ne_true, if_neg Bool.false_ne_true, List.getD_eq_getElem?_getD,
    List.getElem?_eq_getElem (hland.vs ▸ hlen), Option.getD_some] at hraw
  rw [List.getElem?_eq_getElem (hland.vs ▸ hlen)]
  refine congrArg some ?_
  have hlow := congrArg (BitVec.setWidth 32) hraw
  dsimp only at hlow
  rw [BitVec.setWidth_setWidth_of_le _ (by decide), BitVec.setWidth_eq] at hlow
  rw [hlow]
  simp

/-- Settles O31: a served word ends by `unblock_resumes`, one that is turned away by `turnAway_pred` and `turnAway_trap`. -/
theorem blockedLandingWordsAreServed : Obligations.BlockedLandingWordsAreServed := by
  intro s team tid tm h b id pd l ht hh hb hrun hl hup first
  have hthread : s.thread? team tid = some h := by unfold State.thread?; rw [ht]; exact hh
  refine ⟨fun data addr hw => ?_, fun a addr hw => ?_⟩
  · have hc : b.wait.ctr.isSome = true := by rw [hw]; rfl
    have hserve : exec (.lpushBlockedServe team tid) s = .next (s.servePush team tid) := rfl
    rw [servePush_eq ht hh hb hrun hl hup hw] at hserve
    refine ⟨fun hopen hfirst hexp hroom => ?_, fun hclosed => ?_⟩
    · rw [if_neg (by simp [hopen]), if_pos ⟨hfirst, ask_room hopen hroom⟩] at hserve
      obtain ⟨f, hput, hland⟩ := putRecord_plain data hl hexp
      rw [hput] at hserve
      obtain ⟨hres, hpred⟩ := unblock_pred (s := s.modLanding id f) pd true hthread hb hc
      refine ⟨_, hserve, hres, fun h' hh' => ?_, ?_⟩
      · obtain ⟨hp, hv⟩ := hpred h' hh'
        exact ⟨hp.trans (ite_self true), hv⟩
      · exact (landing?_congr (unblock_landings (s := s.modLanding id f) _ hthread hb) id).trans hland
    · rw [if_pos (by simpa using hclosed)] at hserve
      refine ⟨_, hserve, (landing?_congr (turnAway_landings hthread hb _ _ _ _ _) id).trans hl, fun hpd => ?_, fun hpd => ?_⟩
      · exact turnAway_pred hthread hb hc _ hpd _ _ _
      · subst hpd
        exact turnAway_trap hthread hb _ _ _ _
  · have hc : b.wait.ctr.isSome = true := by rw [hw]; rfl
    have hserve : exec (.lpopBlockedServe team tid) s = .next (s.servePop team tid) := rfl
    rw [servePop_eq ht hh hb hrun hl hup hw] at hserve
    refine ⟨fun r w hwait hexp hfirst hctl => ?_, fun hexp => ?_, fun hwait hexp hended => ?_⟩
    · rw [hexp, hwait, if_neg (by simp)] at hserve
      dsimp only at hserve
      rw [if_pos hfirst] at hserve
      have hsame := (alike_takeRecord s id 0).trans (within_acquire _ (tm.agent tid) l.scope none).alike
      obtain ⟨hres, hland⟩ := unblock_resumes (outRecord a pd r.data) ((hsame.thread? team tid).trans hthread) hb hc
      refine ⟨_, hserve, hres, fun h' hh' => ?_⟩
      obtain ⟨hv, -, -, hp⟩ := (hland h' hh').regs
      refine ⟨(hp _).trans ((landed_rawPred _ rfl h).trans (ite_self true)), fun i hi hlen => ?_⟩
      rw [hv]
      exact landed_outRecord hctl _ a pd r.data hi hlen
    · rw [if_pos hexp] at hserve
      obtain ⟨x, hx, hcause, hdetail, haddr, -⟩ := trapBlocked_thread hthread hb Cause.lsealed.code 6 addr
      exact ⟨_, x, hserve, hx, hcause, hdetail, haddr⟩
    · rw [hexp, hwait, if_neg (by simp)] at hserve
      dsimp only at hserve
      rw [if_pos hended] at hserve
      refine ⟨_, hserve, fun hpd => turnAway_pred hthread hb hc _ hpd _ _ _, fun hpd => ?_⟩
      subst hpd
      obtain ⟨x, hx, hcause, hdetail, haddr, -⟩ := turnAway_trap hthread hb (tm.agent tid) l.scope 2 addr
      exact ⟨x, hx, hcause, hdetail, haddr⟩

end Sys2Proof.Machine
end

section
/-!
SUPPORT and PROOFS. LPUSH, LPOP, LTRYPOP, LSEAL and LSTAT on a landing that a handle names (R146 to R151).
-/

namespace Sys2Proof.Machine

/-! ### Results and blocked words -/

theorem gets_results {s : State} {g : Group} {h : Thread} (hh : s.thread? g.team h.tid = some h) (c : Ctr) (o : Out) :
    gets (s.results g h.tid c o none) g h c o := thread?_results hh c o none

/-- What a thread that blocks in the word being issued records (R122). -/
def State.blockFor (s : State) (g : Group) (w : Wait) : Block :=
  { wait := w, header := g.header, word := g.idx, park := g.park, yield := g.yields, more := decide (g.idx + 1 < g.words.length)
    opcode := (g.words.getD g.idx 0).toNat / 2 ^ 24, since := s.clock, order := s.ids }

theorem block_eq (s : State) (g : Group) (tid : Nat) (w : Wait) :
    s.block g tid w = s.newId.2.modThread g.team tid fun th => { th with status := .blocked (s.blockFor g w) } := rfl

theorem block_thread {s : State} {g : Group} {tid : Nat} {h : Thread} (hh : s.thread? g.team tid = some h) (w : Wait) :
    ∃ y, (s.block g tid w).thread? g.team tid = some { h with status := .blocked y } ∧ y.wait = w ∧ y.header = g.header ∧ y.word = g.idx := by
  have hblock := thread?_modThread (s := s.newId.2) (f := fun th => { th with status := .blocked (s.blockFor g w) }) (fun _ => rfl) hh
  exact ⟨s.blockFor g w, hblock, rfl, rfl, rfl⟩

/-! ### The landing that a handle names -/

/-- A word on the landing that handle `n` names (R147, R361). -/
def State.onLanding (s : State) (g : Group) (tid : Nat) (tm : Team) (n : P3) (write : Bool) (k : Handle → Landing → State) : State :=
  match tm.handle n with
  | none => s.trap g tid (sealed 3 0 write)
  | some h =>
      match s.landing? h.landing with
      | none => s.trap g tid (sealed 3 0 write)
      | some l => if s.landDown l then s.trap g tid (homeDown h.addr write) else k h l

/-- What such a word does: it traps without a handle, and with the home out of service; otherwise it acts by `r`. -/
def OnLanding (g : Group) (n : P3) (write : Bool) (r : State → Team → Thread → State → Handle → Landing → Prop)
    (s : State) (tm : Team) (h : Thread) (t : State) : Prop :=
  (tm.handle n = none → t = s.trap g h.tid (sealed 3 0 write))
  ∧ ∀ x, tm.handle n = some x → ∀ l, s.landing? x.landing = some l →
    (s.landDown l = true → t = s.trap g h.tid (homeDown x.addr write)) ∧ (s.landDown l = false → r s tm h t x l)

theorem onLanding_acts {s : State} {g : Group} {tm : Team} {h : Thread} {n : P3} {write : Bool} {k : Handle → Landing → State}
    {r : State → Team → Thread → State → Handle → Landing → Prop}
    (hk : ∀ x l, tm.handle n = some x → x.landing = l.id → s.landing? l.id = some l → r s tm h (k x l) x l) :
    OnLanding g n write r s tm h (s.onLanding g h.tid tm n write k) := by
  unfold OnLanding State.onLanding
  refine ⟨fun hx => by rw [hx], fun x hx l hl => ?_⟩
  rw [hx]
  dsimp only
  rw [hl]
  dsimp only
  refine ⟨fun hdown => if_pos hdown, fun hup => ?_⟩
  rw [if_neg (by simp [hup])]
  have hid := landing?_id hl
  exact hk x l hx hid.symm (hid ▸ hl)

section
variable {s : State} {g : Group} {tm : Team} {h : Thread} {n pd : P3} {a : Code} (ht : s.team? g.team = some tm)
  (hh : tm.thread? h.tid = some h)

section
include ht hh

theorem lpushOne_eq : State.lpushOne pd n a s g h.tid = s.onLanding g h.tid tm n true fun x l =>
    match l.ask with
    | .refused =>
        if pd = 7 then s.trap g h.tid (sealed 1 x.addr true)
        else (s.acquire (tm.agent h.tid) l.scope none).results g h.tid .wq (Out.pred pd false) none
    | .spill => s.trap g h.tid { cause := .lspill, detail := 0, write := true, addr := x.addr }
    | .full => (s.release (tm.agent h.tid) l.scope none).block g h.tid (.lpush l.id x.addr pd ((s.env tm).regs16 h a))
    | .room =>
        if (s.waiters l.id true).isEmpty then
          ((s.release (tm.agent h.tid) l.scope none).putRecord l.id ((s.env tm).regs16 h a)).results g h.tid .wq (Out.pred pd true) none
        else (s.release (tm.agent h.tid) l.scope none).block g h.tid (.lpush l.id x.addr pd ((s.env tm).regs16 h a)) := by
  unfold State.lpushOne
  rw [withThread_eq _ ht hh]
  rfl

theorem lpopOne_eq (wait : Bool) : State.lpopOne wait pd n a s g h.tid = s.onLanding g h.tid tm n false fun x l =>
    if l.expert.isSome then s.trap g h.tid (sealed 6 x.addr false)
    else match l.waiting[(s.waiters l.id false).length]? with
      | some r => ((s.takeRecord l.id (s.waiters l.id false).length).acquire (tm.agent h.tid) l.scope none).results g h.tid .wq
          (outRecord a pd r.data) none
      | none =>
          if l.state = .opened then
            if wait then s.block g h.tid (.lpop l.id x.addr pd a) else s.results g h.tid .wq (Out.pred pd false) none
          else if wait ∧ pd = 7 then s.trap g h.tid (sealed 2 x.addr false)
          else (s.acquire (tm.agent h.tid) l.scope none).results g h.tid .wq (Out.pred pd false) none := by
  unfold State.lpopOne
  rw [withThread_eq _ ht hh]
  rfl

theorem lsealOne_eq : State.lsealOne n s g h.tid = s.onLanding g h.tid tm n false fun _ l =>
    ((s.release (tm.agent h.tid) l.scope none).sealLanding l.id).results g h.tid .wq Out.none none := by
  unfold State.lsealOne
  rw [withThread_eq _ ht hh]
  rfl

theorem lstatOne_eq : State.lstatOne n a s g h.tid = s.onLanding g h.tid tm n false fun _ l =>
    s.results g h.tid .wq (Out.reg (h.dst32 a l.stat false)) none := by
  unfold State.lstatOne
  rw [withThread_eq _ ht hh]
  rfl

end

/-! ### LPUSH (R148) -/

section
variable {l : Landing} {va : DWord} {data : List Byte} (hthread : s.thread? g.team h.tid = some h) (hl : s.landing? l.id = some l)
include hthread hl

/-- A push that finds no room, or pushes before it, has released and blocks. -/
theorem push_blocks (ag : Agent) :
    (∃ y, ((s.release ag l.scope none).block g h.tid (.lpush l.id va pd data)).thread? g.team h.tid = some { h with status := .blocked y } ∧
      y.wait = .lpush l.id va pd data ∧ y.header = g.header ∧ y.word = g.idx) ∧
      ((s.release ag l.scope none).block g h.tid (.lpush l.id va pd data)).landing? l.id = some l := by
  have hrel := within_release s ag l.scope none
  exact ⟨block_thread ((hrel.calm.thread? _ _).trans hthread) _, (hrel.landing? l.id).trans hl⟩

/-- A push into a landing that is no longer open has acquired and answers false. -/
theorem push_refused (ag : Agent) :
    gets ((s.acquire ag l.scope none).results g h.tid .wq (Out.pred pd false) none) g h .wq (Out.pred pd false) ∧
      ((s.acquire ag l.scope none).results g h.tid .wq (Out.pred pd false) none).landing? l.id = some l := by
  have hacq := within_acquire s ag l.scope none
  exact ⟨gets_results ((hacq.calm.thread? _ _).trans hthread) _ _, (hacq.landing? l.id).trans hl⟩

/-- A push with room has released and puts its record in. -/
theorem push_puts (ag : Agent) (he : l.expert = none) :
    gets (((s.release ag l.scope none).putRecord l.id data).results g h.tid .wq (Out.pred pd true) none) g h .wq (Out.pred pd true) ∧
      (((s.release ag l.scope none).putRecord l.id data).results g h.tid .wq (Out.pred pd true) none).landing? l.id =
        some (l.with data s.clock) := by
  have hrel := within_release s ag l.scope none
  obtain ⟨f, hput, hland⟩ := putRecord_plain data ((hrel.landing? l.id).trans hl) he
  rw [hput]
  exact ⟨gets_results (s := (s.release ag l.scope none).modLanding l.id f) ((hrel.calm.thread? _ _).trans hthread) _ _,
    hrel.clock ▸ hland⟩

end

/-! ### LPOP and LTRYPOP (R149) -/

section
variable {l : Landing} (hl : s.landing? l.id = some l) (hnamed : s.named l.id = true)
include hl hnamed

/-- A pop that finds a record takes it, and has acquired. -/
theorem pop_takes (hthread : s.thread? g.team h.tid = some h) (ag : Agent) (sc : Scope) (k : Nat) (o : Out) :
    gets (((s.takeRecord l.id k).acquire ag sc none).results g h.tid .wq o none) g h .wq o ∧
      (((s.takeRecord l.id k).acquire ag sc none).results g h.tid .wq o none).landing? l.id =
        some { l with waiting := l.waiting.eraseIdx k
                      state := if l.state = .sealed ∧ l.waiting.eraseIdx k = [] then .ended else l.state } := by
  have hacq := within_acquire (s.takeRecord l.id k) ag sc none
  refine ⟨gets_results ((hacq.calm.thread? _ _).trans (((alike_takeRecord s l.id k).thread? _ _).trans hthread)) _ _, ?_⟩
  refine (hacq.landing? l.id).trans ?_
  unfold State.takeRecord
  dsimp only
  rw [checkRelease_named (by exact hnamed), landing?_modLanding, hl, Option.map_some]
  · simp only [List.isEmpty_iff]
  · exact fun _ => rfl

/-- A sealed landing that is no expert landing has ended, or ends with its records. -/
theorem seal_lands (he : l.expert = none) : (s.sealLanding l.id).landing? l.id =
    some { l with state := if l.state = .opened then (if l.waiting = [] then .ended else .sealed) else l.state } := by
  unfold State.sealLanding
  rw [hl]
  dsimp only
  by_cases hopen : l.state = .opened
  · have hmod := landing?_modLanding s l.id (f := fun l => { l with state := if l.waiting.isEmpty then .ended else .sealed }) fun _ => rfl
    rw [hl, Option.map_some] at hmod
    rw [if_pos hopen, sealHauls_plain _ hmod he, checkRelease_named (by exact hnamed), hmod, if_pos hopen]
    simp only [List.isEmpty_iff]
  · rw [if_neg hopen, if_neg hopen, hl]

end

end

/-! ### LSTAT (R151, R258) -/

theorem toNat_append_eq {m n : Nat} (x : BitVec m) (y : BitVec n) : (x ++ y).toNat = x.toNat * 2 ^ n + y.toNat := by
  rw [BitVec.toNat_append, ← Nat.shiftLeft_add_eq_or_of_lt y.isLt, Nat.shiftLeft_eq]

/-- The state of a landing as LSTAT reports it. -/
def LandState.code : LandState → BitVec 2
  | .opened => 1#2
  | .sealed => 2#2
  | .ended => 3#2

/-- The upper bits of LSTAT's word. -/
def Landing.statHigh (l : Landing) : BitVec 11 :=
  match l.expert with
  | none => l.state.code ++ BitVec.ofBool (decide (0 < l.inOvf)) ++ 0#8
  | some e => l.state.code ++ BitVec.ofBool (decide (0 < l.inOvf)) ++ 1#1 ++ e.ctl.extractLsb' 8 2
      ++ BitVec.ofBool l.readySince.isSome ++ BitVec.ofNat 4 (min l.hauls.length 15)

/-- The word of LSTAT, field by field. -/
theorem stat_eq (l : Landing) : l.stat = l.statHigh ++ BitVec.ofNat 21 l.waiting.length := by
  have hovf := Bool.toNat_lt (decide (0 < l.inOvf))
  have hready := Bool.toNat_lt l.readySince.isSome
  have hhauls : min l.hauls.length 15 ≤ 15 := Nat.min_le_right _ _
  refine BitVec.eq_of_toNat_eq ?_
  unfold Landing.stat Landing.statHigh
  cases l.expert with
  | none =>
    cases l.state
    all_goals
      simp only [toNat_append_eq, BitVec.toNat_ofNat, BitVec.toNat_ofBool, LandState.code]
      omega
  | some e =>
    have hcls := (e.ctl.extractLsb' 8 2).isLt
    cases l.state
    all_goals
      simp only [toNat_append_eq, BitVec.toNat_ofNat, BitVec.toNat_ofBool, LandState.code, Expert.cls]
      omega

end Sys2Proof.Machine
end

section
/-!
SUPPORT and PROOFS. LOPEN, and the words on landings (R142 to R151).
-/

namespace Sys2Proof.Machine

/-! ### Handles that are bound (R147) -/

theorem team?_modThread {s : State} {id tid : Nat} {tm : Team} (f : Thread → Thread) (ht : s.team? id = some tm) :
    (s.modThread id tid f).team? id = some (tm.modThread tid f) := by
  have h := team?_modTeam s id id (·.modThread tid f) fun _ => rfl
  rw [ht, Option.map_some, if_pos (team?_id ht)] at h
  exact h

/-- A handle that is bound, whatever it named before. -/
theorem bindHandle_binds {s : State} {team n : Nat} {tm : Team} (x : Handle) (ht : s.team? team = some tm) :
    ∃ tm', (s.bindHandle team n x).team? team = some tm' ∧ tm'.threads = tm.threads ∧ tm'.handles = tm.handles.set n (some x) := by
  have hset : (s.modTeam team fun t => { t with handles := t.handles.set n (some x) }).team? team =
      some { tm with handles := tm.handles.set n (some x) } := by
    rw [team?_modTeam _ _ _ _ (by exact fun _ => rfl), ht, Option.map_some, if_pos (team?_id ht)]
  unfold State.bindHandle
  dsimp only
  split
  · split
    · exact ⟨_, hset, rfl, rfl⟩
    · exact (alike_checkRelease _ _).team? hset
  · exact ⟨_, hset, rfl, rfl⟩

theorem bindHandle_fresh {s : State} {team n : Nat} {tm : Team} (x : Handle) (ht : s.team? team = some tm)
    (hnone : tm.handles.getD n none = none) : (s.bindHandle team n x).landings = s.landings := by
  unfold State.bindHandle
  rw [ht]
  dsimp only [Option.bind_some]
  rw [hnone]
  rfl

theorem handle_set {tm : Team} {n : P3} {x : Handle} {l : List (Option Handle)} (h : tm.handles = l.set n.toNat (some x))
    (hn : n.toNat < l.length) : tm.handle n = some x := by
  unfold Team.handle
  rw [h, List.getD_eq_getElem?_getD, List.getElem?_set_self hn]
  rfl

/-! ### LOPEN (R147) -/

/-- LOPEN binds its handle. -/
def State.opened (s : State) (g : Group) (tid : Nat) (tm : Team) (n : P3) (va : DWord) (id : Nat) : State :=
  (s.bindHandle tm.id n.toNat { landing := id, addr := va }).results g tid .wq Out.none none

/-- LOPEN once its descriptor has been read and stands at `pa`. -/
def State.openAt (s : State) (g : Group) (tid : Nat) (tm : Team) (n : P3) (va : DWord) (pa : Nat) (b : List Byte) : State :=
  match s.landings.find? fun l => l.desc = pa ∧ !l.released with
  | some l => if !l.l2 && clusOf l.home != clusOf tm.core then s.trap g tid (badAt .scope 3 va) else s.opened g tid tm n va l.id
  | none =>
      match s.activate tm pa va b with
      | .error k => s.trap g tid (sealed k va false)
      | .ok (id, s) => s.opened g tid tm n va id

section
variable {s : State} {g : Group} {tm : Team} {h : Thread} {n : P3} {a : Code} (ht : s.team? g.team = some tm)
  (hh : tm.thread? h.tid = some h)
include ht hh

theorem lopenOne_error {s1 : State} {b : Bad} (hr : s.readStruct (tm.agent h.tid) ((s.env tm).addr h a).toNat 64 64 = (s1, .error b)) :
    State.lopenOne n a s g h.tid = s1.trap g h.tid b := by
  unfold State.lopenOne
  rw [withThread_eq _ ht hh]
  dsimp only
  rw [hr]

theorem lopenOne_eq {s1 s2 : State} {b : List Byte} {l : Loc} {p : Option Pin}
    (hr : s.readStruct (tm.agent h.tid) ((s.env tm).addr h a).toNat 64 64 = (s1, .ok b))
    (hp : s1.place (tm.agent h.tid) ((s.env tm).addr h a).toNat 64 .read = (s2, .ok (l, p))) (hl : ∀ k o, l ≠ .scr k o) :
    State.lopenOne n a s g h.tid = s2.openAt g h.tid tm n ((s.env tm).addr h a) (s2.paOf l) b := by
  unfold State.lopenOne
  rw [withThread_eq _ ht hh]
  dsimp only
  rw [hr]
  dsimp only
  rw [hp]
  cases l with
  | scr k o => exact absurd rfl (hl k o)
  | mem | vis | shd => rfl

end

section
variable {s : State} {g : Group} {tm : Team} {h : Thread} {n : P3}

/-- What LOPEN leaves when it has bound its handle. -/
def Bound (t : State) (g : Group) (tm : Team) (h : Thread) (n : P3) (va : DWord) (id : Nat) : Prop :=
  gets t g h .wq Out.none ∧
    ∃ tm', t.team? tm.id = some tm' ∧ (n.toNat < tm.handles.length → tm'.handle n = some { landing := id, addr := va })

theorem opened_bound {u : State} (ht : s.team? g.team = some tm) (hh : tm.thread? h.tid = some h) (hu : Alike s u) (va : DWord) (id : Nat) :
    Bound (u.opened g h.tid tm n va id) g tm h n va id := by
  obtain ⟨tm', ht', hthreads, hhandles⟩ := hu.team? ht
  have hid := team?_id ht
  obtain ⟨tm'', ht'', hthreads', hset⟩ := bindHandle_binds (n := n.toNat) { landing := id, addr := va } ht'
  have hthread : (u.bindHandle g.team n.toNat { landing := id, addr := va }).thread? g.team h.tid = some h := by
    unfold State.thread?
    rw [ht'', Option.bind_some]
    unfold Team.thread? at hh ⊢
    rw [hthreads', hthreads]
    exact hh
  unfold State.opened
  rw [hid]
  refine ⟨gets_results hthread _ _, ?_⟩
  rw [hid]
  refine ⟨_, team?_modThread _ ht'', fun hlen => handle_set (l := tm.handles) ?_ hlen⟩
  rw [← hhandles, ← hset]
  rfl

theorem opened_landing {u : State} (ht : s.team? g.team = some tm) (hu : Alike s u) (va : DWord) (id k : Nat) (hnone : tm.handle n = none) :
    (u.opened g h.tid tm n va id).landing? k = u.landing? k := by
  obtain ⟨tm', ht', -, hhandles⟩ := hu.team? ht
  refine landing?_congr ?_ k
  have hid := team?_id ht
  unfold State.opened
  rw [hid]
  exact bindHandle_fresh (n := n.toNat) _ ht' (hhandles ▸ hnone)

end

/-! ### Landings that are activated (R144) -/

/-- A landing as it is activated. -/
def Landing.fresh (s : State) (tm : Team) (pa : Nat) (va : DWord) (l2 : Bool) (slots ovf : Nat) : Landing :=
  let home := if l2 then homeOf pa else tm.core
  { id := s.ids, desc := pa, addr := va, tenant := ownerId tm.task.owner, asid := tm.asid, l2 := l2, home := home
    lslot := if l2 then ((List.range 32).find? fun n => (s.landings.filter fun l => l.l2 && l.home == home).all (·.lslot ≠ n)).getD 0 else 0
    slots := slots, ovf := ovf, state := .opened, waiting := [], hauls := [], seq := 0, expert := none, readySince := none, released := false }

/-- The state with a landing activated. -/
def State.activated (s : State) (l : Landing) (va : DWord) : State :=
  ({ s with ids := s.ids + 1, landings := s.landings ++ [l] }).descWrite l.tenant l.asid l va 4 (bytesLE 4 (2 ^ 31 + l.home))

/-- Whether there is room for a landing. -/
def State.landingRoom (s : State) (tm : Team) (pa : Nat) (l2 : Bool) (slots : Nat) : Bool :=
  if l2 then s.isLocal pa && decide ((s.landings.filter fun l => l.l2 && l.home == homeOf pa).length < 32)
    && decide ((s.landings.filter (·.l2)).length < 4096)
  else decide ((s.usage tm.core false).granules + granules (slots * 64) ≤ 352)

section
variable {s : State} {tm : Team} {pa : Nat} {va : DWord} {b : List Byte}

theorem activate_none (h : landingOf b = none) : s.activate tm pa va b = .error 4 := by
  unfold State.activate
  rw [h]

theorem activate_some {l2 : Bool} {slots ovf : Nat} (h : landingOf b = some (l2, slots, ovf)) :
    s.activate tm pa va b = if s.landingRoom tm pa l2 slots = true then
      .ok (s.ids, s.activated (Landing.fresh s tm pa va l2 slots ovf) va) else .error 5 := by
  unfold State.activate
  rw [h]
  cases l2 <;> rfl

theorem activated_alike (l : Landing) : Alike s (s.activated l va) := by
  have hadd : Alike s { s with ids := s.ids + 1, landings := s.landings ++ [l] } := .same rfl
  exact hadd.trans (within_descWrite _ _ _ _ _ _ _).alike

theorem activated_landing {l : Landing} (hfree : s.landing? l.id = none) : (s.activated l va).landing? l.id = some l := by
  refine ((within_descWrite _ _ _ _ _ _ _).landing? l.id).trans ?_
  unfold State.landing? at hfree ⊢
  dsimp only
  rw [List.find?_append, hfree, List.find?_cons, decide_eq_true rfl]
  rfl

end

section
variable {s s2 : State} {g : Group} {tm : Team} {h : Thread} {n : P3} {va : DWord} {pa : Nat} {b : List Byte}

theorem openAt_found {x : Landing} (hx : (s2.landings.find? fun l => l.desc = pa ∧ !l.released) = some x) :
    s2.openAt g h.tid tm n va pa b = if !x.l2 && clusOf x.home != clusOf tm.core then s2.trap g h.tid (badAt .scope 3 va)
      else s2.opened g h.tid tm n va x.id := by
  unfold State.openAt
  rw [hx]

section
variable (hnone : (s2.landings.find? fun l => l.desc = pa ∧ !l.released) = none)
include hnone

theorem openAt_malformed (hb : landingOf b = none) : s2.openAt g h.tid tm n va pa b = s2.trap g h.tid (sealed 4 va false) := by
  unfold State.openAt
  rw [hnone]
  dsimp only
  rw [activate_none hb]

section
variable {l2 : Bool} {slots ovf : Nat} (hb : landingOf b = some (l2, slots, ovf))
include hb

theorem openAt_full (hroom : s2.landingRoom tm pa l2 slots = false) :
    s2.openAt g h.tid tm n va pa b = s2.trap g h.tid (sealed 5 va false) := by
  unfold State.openAt
  rw [hnone]
  dsimp only
  rw [activate_some hb, hroom]
  rfl

/-- A landing for which there is room is activated, and the handle bound to it. -/
theorem openAt_activates (ht : s.team? g.team = some tm) (hh : tm.thread? h.tid = some h) (hsame : Alike s s2)
    (hfree : s2.landing? s2.ids = none) (hroom : s2.landingRoom tm pa l2 slots = true) :
    Bound (s2.openAt g h.tid tm n va pa b) g tm h n va s2.ids ∧
      (tm.handle n = none → (s2.openAt g h.tid tm n va pa b).landing? s2.ids = some (Landing.fresh s2 tm pa va l2 slots ovf)) := by
  have heq : s2.openAt g h.tid tm n va pa b =
      (s2.activated (Landing.fresh s2 tm pa va l2 slots ovf) va).opened g h.tid tm n va s2.ids := by
    unfold State.openAt
    rw [hnone]
    dsimp only
    rw [activate_some hb, if_pos hroom]
  have hact := hsame.trans (activated_alike (va := va) (Landing.fresh s2 tm pa va l2 slots ovf))
  rw [heq]
  exact ⟨opened_bound ht hh hact va _, fun hn => (opened_landing ht hact va _ _ hn).trans (activated_landing hfree)⟩

end

end

end

/-- Settles O30: LOPEN by `openAt_found` and `openAt_activates`, the words on a landing by what each does there. -/
theorem landingsOpenAndRecord : Obligations.LandingsOpenAndRecord := by
  refine ⟨fun s g rest n a m hg => ?_, fun s₀ g rest pd n a m hg => ?_⟩
  · refine runsOnce_of_onceLane rfl rfl hg fun tid tm h ht hh => ?_
    obtain rfl := thread?_tid hh
    intro va ag
    refine ⟨fun s1 b hr => lopenOne_error ht hh hr, fun s1 b s2 l p hr hp hscr hfree => ?_⟩
    have hread := within_readStruct s ag va.toNat 64 64
    have hplace := within_place s1 ag va.toNat 64 .read
    rw [hr] at hread
    rw [hp] at hplace
    have hsame : Alike s s2 := hread.alike.trans hplace.alike
    rw [lopenOne_eq ht hh hr hp hscr]
    refine ⟨fun x hx => ⟨fun h2 hc => ?_, fun hc => ?_⟩, fun hnone => ⟨fun hb => openAt_malformed hnone hb, fun slots ovf hb => ?_,
      fun slots ovf hb hn hloc hall hhome => ?_, fun slots ovf hb hno => openAt_full hnone hb ?_⟩⟩
    · rw [openAt_found hx, if_pos (by simp [h2, hc])]
    · rw [openAt_found hx, if_neg (by rcases hc with hc | hc <;> simp [hc])]
      exact opened_bound ht hh hsame va _
    · split
      · next hroom =>
        obtain ⟨hbound, hland⟩ := openAt_activates hnone hb ht hh hsame hfree (decide_eq_true hroom)
        exact ⟨hbound, fun hn => ⟨_, hland hn, rfl, rfl, rfl, rfl, rfl, rfl, rfl, rfl⟩⟩
      · next hroom => exact openAt_full hnone hb (decide_eq_false hroom)
    · have hroom : s2.landingRoom tm (s2.paOf l) true slots = true := by
        unfold State.landingRoom
        rw [if_pos rfl, hloc, decide_eq_true hhome, decide_eq_true hall]
        rfl
      obtain ⟨hbound, hland⟩ := openAt_activates hnone hb ht hh hsame hfree hroom
      exact ⟨hbound, _, hland hn, rfl, rfl, rfl, rfl, rfl, rfl, rfl, rfl⟩
    · unfold State.landingRoom
      rw [if_pos rfl]
      rcases hno with hno | hno | hno
      · rw [hno, Bool.false_and, Bool.false_and]
      · rw [decide_eq_false (Nat.not_lt.2 hno), Bool.and_false]
      · rw [decide_eq_false (Nat.not_lt.2 hno), Bool.and_false, Bool.false_and]
  · intro on
    have hon : on = OnLanding g n := rfl
    clear_value on
    subst hon
    have hthread {s : State} {tm : Team} {h : Thread} (ht : s.team? g.team = some tm) (hh : tm.thread? h.tid = some h) :
        s.thread? g.team h.tid = some h := by unfold State.thread?; rw [ht]; exact hh
    refine ⟨runsEach_of_eachLane rfl rfl hg fun s tid tm h ht hh => ?_, fun wait => ?_, runsEach_of_eachLane rfl rfl hg fun s tid tm h ht hh => ?_,
      runsEach_of_eachLane rfl rfl hg fun s tid tm h ht hh => ?_⟩
    · obtain rfl := thread?_tid hh
      rw [lpushOne_eq ht hh]
      refine onLanding_acts fun x l hx hid hl => ?_
      dsimp only
      refine ⟨fun hc hp => ?_, fun hc hp => ?_, fun ho hs h2 h0 hv => ?_, fun ho hs h2 => ?_, fun ho hroom hw => ?_, fun ho he hw hroom => ?_⟩
      · rw [ask_refused hc]
        exact if_pos hp
      · rw [ask_refused hc]
        dsimp only
        rw [if_neg hp]
        exact push_refused (hthread ht hh) hl _
      · rw [ask_spill ho hs h2 h0 hv]
      · rw [ask_full ho hs h2]
        exact push_blocks (hthread ht hh) hl _
      · rw [ask_room ho hroom]
        dsimp only
        rw [if_neg (by simpa using hw)]
        exact push_blocks (hthread ht hh) hl _
      · rw [ask_room ho hroom]
        dsimp only
        rw [if_pos (by simpa using hw)]
        exact push_puts (hthread ht hh) hl _ he
    · have hrun : exec (if wait then .lpop pd n a m else .ltrypop pd n a m) s₀ = .next (eachLane m (State.lpopOne wait pd n a) s₀) := by
        cases wait <;> rfl
      refine runsEach_of_eachLane hrun (by cases wait <;> rfl) hg fun s tid tm h ht hh => ?_
      obtain rfl := thread?_tid hh
      rw [lpopOne_eq ht hh]
      refine onLanding_acts fun x l hx hid hl => ?_
      dsimp only
      have hnamed : s.named l.id = true := hid ▸ named_of_handle ht hx
      refine ⟨fun he => if_pos he, fun he => ?_⟩
      rw [if_neg (by simp [he])]
      refine ⟨fun r hr => ?_, fun hk ho hw => ?_, fun hk hc => ?_, fun hk ho hw hp => ?_⟩
      · rw [hr]
        exact pop_takes hl hnamed (hthread ht hh) _ _ _ _
      all_goals rw [List.getElem?_eq_none hk]; dsimp only
      · rw [if_pos ho, if_pos hw]
        obtain ⟨y, hy, hwait, -⟩ := block_thread (hthread ht hh) (.lpop l.id x.addr pd a)
        exact ⟨y, hy, hwait⟩
      · rcases hc with ⟨ho, hw⟩ | ⟨ho, hw⟩
        · rw [if_pos ho, hw, if_neg Bool.false_ne_true]
          exact gets_results (hthread ht hh) _ _
        · rw [if_neg ho, if_neg fun hc => hw.elim (fun e => Bool.false_ne_true (e.symm.trans hc.1)) fun e => e hc.2]
          exact (push_refused (hthread ht hh) hl _).1
      · rw [if_neg ho, if_pos ⟨hw, hp⟩]
    · obtain rfl := thread?_tid hh
      rw [lsealOne_eq ht hh]
      refine onLanding_acts fun x l hx hid hl => ?_
      have hrel := within_release s (tm.agent h.tid) l.scope none
      obtain ⟨tm', ht', -, hhandles⟩ := hrel.alike.team? ht
      have hx' : tm'.handle n = some x := by
        unfold Team.handle at hx ⊢
        rw [hhandles]
        exact hx
      have hsealed := hrel.alike.trans (alike_sealLanding _ l.id)
      refine ⟨gets_results ((hsealed.thread? _ _).trans (hthread ht hh)) _ _, fun he => ?_⟩
      exact seal_lands ((hrel.landing? l.id).trans hl) (hid ▸ named_of_handle ht' hx') he
    · obtain rfl := thread?_tid hh
      rw [lstatOne_eq ht hh]
      refine onLanding_acts fun x l hx hid hl => ?_
      dsimp only
      rw [stat_eq]
      rfl

end Sys2Proof.Machine
end

section
/-!
SUPPORT. The end of a barrier's phase: what it makes of each thread (R137 to R139).
-/

namespace Sys2Proof.Machine

/-! ### A thread that is woken, and the others -/

theorem thread?_modThread_ne {s : State} {id tid k : Nat} {f : Thread → Thread} (hf : ∀ h, (f h).tid = h.tid) (hk : k ≠ tid) :
    (s.modThread id tid f).thread? id k = s.thread? id k := by
  have hteam := team?_modTeam s id id (·.modThread tid f) fun _ => rfl
  unfold State.thread? State.modThread
  rw [hteam]
  cases hs : s.team? id with
  | none => rfl
  | some tm =>
    rw [Option.map_some, if_pos (team?_id hs), Option.bind_some, Option.bind_some]
    unfold Team.thread? Team.modThread
    dsimp only
    rw [find_thread_map _ _ fun h => by split <;> [exact hf h; rfl]]
    cases hh : tm.threads.find? (·.tid = k) with
    | none => rfl
    | some h => rw [Option.map_some, if_neg fun e => hk ((thread?_tid (tm := tm) hh).symm.trans e)]

section
variable {team n : Nat} {phase : BitVec 16} {x : Word} {s : State}

/-- Waking one thread changes no other. -/
theorem wakeBar_other {tid k : Nat} (hk : k ≠ tid) : (s.wakeBar team n phase x tid).thread? team k = s.thread? team k := by
  have hrec := thread?_modThread_ne (s := s) (id := team) (f := Thread.record n phase x) (fun _ => rfl) hk
  rcases wakeBar_cases team n phase x s tid with ⟨he, -⟩ | ⟨tm, th, b, o, -, hth, hb, he⟩
  · rw [he]
    exact hrec
  · have hpass (k : Nat) := thread?_passBar (s.modThread team tid (Thread.record n phase x)) tm tid n phase team k
    obtain ⟨F, hF, hdone⟩ := unblock_eq o ((hpass tid).trans hth) hb
    rw [he, hF]
    exact (thread?_modThread_ne (f := F) (fun h => (hdone h).1.tid.trans (landed_keeps _ o h).1) hk).trans ((hpass k).trans hrec)

/-- A thread with other recorded arrivals, that is not blocked. -/
def Noted (h h' : Thread) : Prop := h' = { h with arrivals := h'.arrivals } ∧ ∀ y, h'.status ≠ .blocked y

theorem Noted.trans {h k l : Thread} (a : Noted h k) (b : Noted k l) : Noted h l := ⟨by rw [b.1, a.1], b.2⟩

theorem wakeBar_idle {tid k : Nat} {h : Thread} (hh : s.thread? team k = some h) (hs : ∀ y, h.status ≠ .blocked y) :
    ∃ h', (s.wakeBar team n phase x tid).thread? team k = some h' ∧ Noted h h' := by
  by_cases hk : k = tid
  · subst hk
    have hrec := thread?_modThread (f := Thread.record n phase x) (fun _ => rfl) hh
    rcases wakeBar_cases team n phase x s k with ⟨he, -⟩ | ⟨tm, th, b, o, -, hth, hb, -⟩
    · rw [he]
      exact ⟨_, hrec, rfl, hs⟩
    · rw [hrec] at hth
      cases hth
      exact absurd hb (hs b)
  · exact ⟨h, (wakeBar_other hk).trans hh, rfl, hs⟩

theorem wakeAll_idle (l : List Nat) {s : State} {k : Nat} {h : Thread} (hh : s.thread? team k = some h) (hs : ∀ y, h.status ≠ .blocked y) :
    ∃ h', (l.foldl (State.wakeBar team n phase x) s).thread? team k = some h' ∧ Noted h h' := by
  induction l generalizing s h with
  | nil => exact ⟨h, hh, rfl, hs⟩
  | cons a l ih =>
    obtain ⟨h1, hh1, hn1⟩ := wakeBar_idle (tid := a) hh hs
    obtain ⟨h2, hh2, hn2⟩ := ih hh1 hn1.2
    exact ⟨h2, hh2, hn1.trans hn2⟩

/-! ### The result of the phase in a thread's destination -/

/-- Whether a thread holds a value in the lower half of a register that it has. -/
def Thread.got (h h' : Thread) (c : Code) (v : Word) : Prop :=
  c.toNat < (if h.ctl then h.c.length else h.v.length) → (h.ctl = true → c ≠ 0) → (h'.raw c.toNat).setWidth 32 = v

theorem kept_dstFree (h : Thread) (n : Nat) (v : Word) :
    (h.kept (if h.ctl then Config.freeWord n ++ v else v.setWidth 64)).setWidth 32 = v := by
  unfold Thread.kept
  cases h.ctl with
  | true => exact BitVec.setWidth_append_eq_right
  | false =>
    rw [if_neg Bool.false_ne_true, if_neg Bool.false_ne_true]
    ext i hi
    simp

theorem landed_got (h : Thread) (k n : Nat) (c : Code) (v : Word) : h.got (landed k (Out.reg (h.dstFree n c v)) h) c v := by
  intro hi h0
  have hk : h.keeps c.toNat := ⟨hi, fun e hz => h0 e (BitVec.eq_of_toNat_eq hz)⟩
  have hraw := landed_raw k (o := Out.reg (h.dstFree n c v)) (List.nodup_singleton _) h List.mem_cons_self hk
  rw [hraw]
  exact kept_dstFree h n v

theorem Moved.raw {h h' : Thread} (k : Moved h h') (i : Nat) : h'.raw i = h.raw i := by
  obtain ⟨hv, hc, hctl, -⟩ := k.regs
  unfold Thread.raw
  rw [hv, hc, hctl]

/-- A thread that waits for the phase that ends gets its result. -/
theorem wakeBar_self {tid : Nat} {h : Thread} {y : Block} {c : Code} (hh : s.thread? team tid = some h) (hb : h.status = .blocked y)
    (hw : y.wait = .bwait n phase c ∨ y.wait = .bsync n phase c true) :
    ∃ h', (s.wakeBar team n phase x tid).thread? team tid = some h' ∧ h.got h' c x ∧ ∀ y, h'.status ≠ .blocked y := by
  have hrec := thread?_modThread (f := Thread.record n phase x) (fun _ => rfl) hh
  have hwake : ∃ tm k, s.wakeBar team n phase x tid =
      ((s.modThread team tid (Thread.record n phase x)).passBar tm tid n phase).unblock team tid
        (Out.reg ((h.record n phase x).dstFree k c x)) := by
    obtain ⟨tm, htm, -⟩ := Option.bind_eq_some_iff.1 hrec
    have hb' : (h.record n phase x).status = .blocked y := hb
    unfold State.wakeBar
    dsimp only
    rw [htm, hrec]
    dsimp only
    rw [hb']
    dsimp only
    rcases hw with hw | hw
    · rw [hw]
      dsimp only
      rw [if_pos ⟨rfl, rfl⟩]
      exact ⟨tm, _, rfl⟩
    · rw [hw]
      dsimp only
      rw [if_pos ⟨rfl, rfl⟩]
      exact ⟨tm, _, rfl⟩
  obtain ⟨tm, k, he⟩ := hwake
  have hpass := (thread?_passBar _ tm tid n phase team tid).trans hrec
  have hctr : y.wait.ctr.isSome = true := by rcases hw with hw | hw <;> (rw [hw]; rfl)
  obtain ⟨h', hh', hmoved, hstatus⟩ := unblock_moves (Out.reg ((h.record n phase x).dstFree k c x)) hpass hb hctr
  refine ⟨h', by rw [he]; exact hh', fun hi h0 => ?_, fun z hz => ?_⟩
  · rw [hmoved.raw]
    exact landed_got (h.record n phase x) _ k c x hi h0
  · rw [hz] at hstatus
    rcases hstatus with (e | e | ⟨_, e⟩) | ⟨e, -⟩ <;> cases e

/-- Once all threads of a list are woken, one among them that waited for the phase holds its result. -/
theorem wakeAll_got (l : List Nat) {s : State} {tid : Nat} {h : Thread} {y : Block} {c : Code} (hh : s.thread? team tid = some h)
    (hb : h.status = .blocked y) (hw : y.wait = .bwait n phase c ∨ y.wait = .bsync n phase c true) (hmem : tid ∈ l) :
    ∃ h', (l.foldl (State.wakeBar team n phase x) s).thread? team tid = some h' ∧ h.got h' c x := by
  induction l generalizing s with
  | nil => cases hmem
  | cons a l ih =>
    by_cases ha : tid = a
    · subst ha
      obtain ⟨h1, hh1, hgot, hs1⟩ := wakeBar_self (x := x) hh hb hw
      obtain ⟨h2, hh2, hnoted⟩ := wakeAll_idle (n := n) (phase := phase) (x := x) l hh1 hs1
      refine ⟨h2, hh2, fun hi h0 => ?_⟩
      rw [hnoted.1]
      exact hgot hi h0
    · exact ih ((wakeBar_other ha).trans hh) ((List.mem_cons.1 hmem).resolve_left ha)

end

/-! ### A barrier that is checked -/

section
variable {s : State} {id n : Nat} {tm : Team} (ht : s.team? id = some tm)
include ht

/-- A thread that is not blocked keeps all but its recorded arrivals when a barrier is checked. -/
theorem checkBar_idle {k : Nat} {h : Thread} (hh : tm.thread? k = some h) (hs : ∀ y, h.status ≠ .blocked y) :
    ∃ h', (State.checkBar id s n).thread? id k = some h' ∧ Noted h h' := by
  have hthread : s.thread? id k = some h := by unfold State.thread?; rw [ht]; exact hh
  by_cases hf : n < tm.bars.length ∧ (tm.bar n).Full
  · rw [checkBar_full ht hf]
    exact wakeAll_idle _ ((thread?_modTeam s id (f := Team.completed n _ _) (fun _ => rfl) (fun _ => rfl) id k).trans hthread) hs
  · rw [checkBar_not_full ht hf]
    exact ⟨h, hthread, rfl, hs⟩

/-- A thread that waits for a phase that completes holds its result. -/
theorem checkBar_got (hn : n < tm.bars.length) (hf : (tm.bar n).Full) {tid : Nat} {h : Thread} {y : Block} {c : Code}
    (hh : tm.thread? tid = some h) (hb : h.status = .blocked y)
    (hw : y.wait = .bwait n (tm.bar n).phase c ∨ y.wait = .bsync n (tm.bar n).phase c true) :
    ∃ h', (State.checkBar id s n).thread? id tid = some h' ∧ h.got h' c (tm.bar n).value := by
  have hthread : s.thread? id tid = some h := by unfold State.thread?; rw [ht]; exact hh
  rw [checkBar_full ht ⟨hn, hf⟩]
  refine wakeAll_got _ ((thread?_modTeam s id (f := Team.completed n _ _) (fun _ => rfl) (fun _ => rfl) id tid).trans hthread) hb hw ?_
  exact List.mem_map.2 ⟨h, List.mem_of_find?_eq_some hh, thread?_tid hh⟩

end

end Sys2Proof.Machine
end

section
/-!
SUPPORT and PROOFS. The barrier words (R137 to R140).
-/

namespace Sys2Proof.Machine

/-! ### Arrivals (R138, R139) -/

theorem redIdentity_eq (op : RedOp) : redIdentity op = if op = .and then BitVec.allOnes 32 else 0 := by cases op <;> rfl

section
variable {b b' : Barrier} {tid : Nat} {op : RedOp} {x : Word}

theorem arrive_twice (h : tid ∈ b.arr) : b.arrive tid op x = .error 5 := if_pos h

theorem arrive_mixed (h : tid ∉ b.arr) (h0 : b.arrived ≠ 0) (hop : op ≠ b.op) : b.arrive tid op x = .error 7 := by
  unfold Barrier.arrive
  rw [if_neg h, if_neg h0, if_pos hop]

/-- A barrier with an arrival of an operation that fits. -/
def Barrier.joined (b : Barrier) (tid : Nat) (op : RedOp) (x : Word) : Barrier :=
  { b with arr := tid :: b.arr, arrived := b.arrived + 1, op := op, value := redFold op (if b.arrived = 0 then redIdentity op else b.value) x }

theorem arrive_joins (h : tid ∉ b.arr) (hop : b.arrived = 0 ∨ op = b.op) : b.arrive tid op x = .ok (b.joined tid op x) := by
  unfold Barrier.arrive Barrier.joined
  rw [if_neg h]
  by_cases h0 : b.arrived = 0
  · simp [h0]
  · have hop : op = b.op := hop.resolve_left h0
    simp [h0, hop]

/-- What an arrival that does not trap leaves. -/
theorem arrive_ok (h : b.arrive tid op x = .ok b') : b' = b.joined tid op x := by
  by_cases hin : tid ∈ b.arr
  · rw [arrive_twice hin] at h
    cases h
  · by_cases hop : b.arrived = 0 ∨ op = b.op
    · rw [arrive_joins hin hop] at h
      exact (Except.ok.inj h).symm
    · rw [not_or] at hop
      rw [arrive_mixed hin hop.1 hop.2] at h
      cases h

end

theorem redFold_eq (op : RedOp) (v x : Word) : redFold op v x = match op with
    | .none => v | .and => v &&& x | .or => v ||| x | .sum => v + x | .popc => v + (if x = 0 then 0 else 1) := by
  cases op with
  | popc => by_cases hx : x = 0#32 <;> simp [redFold, hx]
  | none | and | or | sum => rfl

/-! ### A team in which a member has arrived -/

theorem thread?_of_team {s : State} {id : Nat} {tm : Team} (ht : s.team? id = some tm) (k : Nat) : s.thread? id k = tm.thread? k := by
  unfold State.thread?
  rw [ht]
  rfl

/-- A team `tm'` whose barrier `n` is `b` and whose thread `h` is `k`, and which is otherwise as `tm` in its barriers and threads. -/
structure Arrived (tm : Team) (n : Nat) (b : Barrier) (h k : Thread) (tm' : Team) : Prop where
  bars : tm'.bars = tm.bars.set n b
  own : tm'.thread? h.tid = some k
  others : ∀ j, j ≠ h.tid → tm'.thread? j = tm.thread? j
  tids : tm'.threads.map (·.tid) = tm.threads.map (·.tid)

/-- The state in which a member of a team has arrived. -/
def State.arrival (s : State) (tm : Team) (tid n : Nat) (b : Barrier) : State :=
  (s.release (tm.agent tid) .team none).modTeam tm.id (Team.arrives tid n (tm.bar n).phase b)

section
variable {s u : State} {g : Group} {tm : Team} {h : Thread} {n : Nat} {b : Barrier} (ht : s.team? g.team = some tm)
  (hh : tm.thread? h.tid = some h)
include ht

theorem arrival_team : ∃ tm1, (s.arrival tm h.tid n b).team? g.team = some tm1 ∧ tm1.threads = tm.threads ∧ tm1.bars = tm.bars.set n b := by
  obtain ⟨tm0, ht0, hstanding⟩ := (calm_release s (tm.agent h.tid) .team none).team? ht
  obtain ⟨hthreads, hbars, -⟩ := standing_fields hstanding
  refine ⟨Team.arrives h.tid n (tm.bar n).phase b tm0, ?_, hthreads, congrArg (·.set n b) hbars⟩
  unfold State.arrival
  rw [team?_id ht, team?_modTeam _ _ _ _ (by exact fun _ => rfl), ht0, Option.map_some, if_pos (team?_id ht0)]

include hh

/-- A member has arrived, and its own thread has changed. -/
theorem arrival_arrives (hu : u.teams = (s.arrival tm h.tid n b).teams) {f : Thread → Thread} (hf : ∀ h, (f h).tid = h.tid) :
    ∃ tm', (u.modThread g.team h.tid f).team? g.team = some tm' ∧ Arrived tm n b h (f h) tm' := by
  obtain ⟨tm1, ht1, hthreads, hbars⟩ := arrival_team (h := h) (n := n) (b := b) ht
  have hteam : u.team? g.team = some tm1 := by
    unfold State.team? at ht1 ⊢
    rwa [hu]
  have hsame (k : Nat) : u.thread? g.team k = tm.thread? k := by
    rw [thread?_of_team hteam]
    unfold Team.thread?
    rw [hthreads]
  have hnew := team?_modThread (tid := h.tid) f hteam
  refine ⟨_, hnew, hbars, ?_, fun j hj => ?_, ?_⟩
  · rw [← thread?_of_team hnew]
    exact thread?_modThread hf ((hsame _).trans hh)
  · rw [← thread?_of_team hnew, thread?_modThread_ne hf hj, hsame]
  · rw [← hthreads]
    refine (List.map_map ..).trans (List.map_congr_left fun k _ => ?_)
    simp only [Function.comp_apply]
    split
    · exact hf k
    · rfl

end

section
variable {s : State} {id n : Nat} {tm tm1 : Team} {b : Barrier} {h k : Thread} (ht : s.team? id = some tm1) (ha : Arrived tm n b h k tm1)
  (hn : n < tm.bars.length)
include ha hn

theorem Arrived.length : n < tm1.bars.length := by
  rw [ha.bars, List.length_set]
  exact hn

theorem Arrived.getBar : tm1.bars[n]? = some b := by
  rw [ha.bars]
  exact List.getElem?_set_self hn

theorem Arrived.bar : tm1.bar n = b := bar_eq (ha.getBar hn)

include ht

/-- An arrival that is not the last leaves the phase running. -/
theorem arrived_waits (hf : ¬(b.arrived = b.members ∧ b.pending = 0)) : State.checkBar id s n = s :=
  checkBar_not_full ht fun ⟨_, hfull⟩ => by
    rw [ha.bar hn] at hfull
    exact hf ⟨hfull.1, hfull.2.2⟩

/-- A thread that waits for a phase holds its result once the last arrival has come. -/
theorem arrived_got (hf : b.Full) {tid : Nat} {x : Thread} {y : Block} {c : Code} (hx : tm1.thread? tid = some x) (hb : x.status = .blocked y)
    (hw : y.wait = .bwait n b.phase c ∨ y.wait = .bsync n b.phase c true) :
    ∃ x', (State.checkBar id s n).thread? id tid = some x' ∧ x.got x' c b.value := by
  have hbar := ha.bar hn
  obtain ⟨x', hx', hgot⟩ := checkBar_got (n := n) ht (ha.length hn) (hbar ▸ hf) hx hb (hbar ▸ hw)
  exact ⟨x', hx', hbar ▸ hgot⟩

/-- The last arrival completes the phase. -/
theorem arrived_completes (hf : b.Full) : ∃ tm', (State.checkBar id s n).team? id = some tm' ∧
    ((tm'.bar n).phase = b.phase + 1 ∧ (tm'.bar n).arrived = 0 ∧ (tm'.bar n).done1 = b.value ∧ (tm'.bar n).done2 = b.done1 ∧
      (tm'.bar n).arr = []) ∧
    ((tm.threads.map (·.tid)).Nodup →
      (∀ x ∈ tm.threads, x.tid ≠ h.tid → ∀ y c, x.status = .blocked y → (y.wait = .bwait n b.phase c ∨ y.wait = .bsync n b.phase c true) →
        ∃ x', tm'.thread? x.tid = some x' ∧ x.got x' c b.value) ∧
      ∀ x ∈ tm'.threads, ∀ y, x.status = .blocked y → ∀ c w, y.wait ≠ .bsync n b.phase c w ∧ y.wait ≠ .bwait n b.phase c) := by
  obtain ⟨tm', ht', hchecked⟩ := checkBar_checked (n := n) ht
  have hout := hchecked.done n (List.mem_singleton.2 rfl) b (ha.getBar hn)
  obtain ⟨p, hp⟩ := (hout.1 hf).1
  refine ⟨tm', ht', by rw [bar_eq hp]; exact ⟨rfl, rfl, rfl, rfl, rfl⟩, fun hnd => ⟨fun x hx hne y c hb hw => ?_, ?_⟩⟩
  · obtain ⟨x', hx', hgot⟩ := arrived_got ht ha hn hf ((ha.others _ hne).trans (thread?_of_mem hnd hx)) hb hw
    exact ⟨x', (thread?_of_team ht' x.tid).symm.trans hx', hgot⟩
  · obtain ⟨-, -, -, -, -, -, hno⟩ := outcome_full hout hf (by rw [hchecked.threads.1, ha.tids]; exact hnd)
    exact hno

end

/-! ### BARV (R139) -/

section
variable {s : State} {g : Group} {tm : Team} {h : Thread} {d a : Code} {n : BitVec 4} {op : RedOp}

/-- The word in flight by which BARV answers. -/
def barvToken (s : State) (tm : Team) (h : Thread) (d : Code) (b : Barrier) : Pending :=
  (Out.reg (h.dstFree (choiceAt (s.env tm).step h.tid 9) d (b.phase.setWidth 32))).later .wq none

/-- BARV in one thread that exists. -/
def State.barv (s : State) (g : Group) (tm : Team) (h : Thread) (d a : Code) (n : Nat) (op : RedOp) : State :=
  match (tm.bar n).arrive h.tid op (if op = .none then 0 else (s.env tm).rd32 h a 0) with
  | .error k => s.trap g h.tid (bad .barrier k)
  | .ok b' => State.checkBar tm.id ((s.arrival tm h.tid n b').modThread g.team h.tid (·.launch (barvToken s tm h d (tm.bar n)))) n

theorem barvOne_eq (ht : s.team? g.team = some tm) (hh : tm.thread? h.tid = some h) :
    State.barvOne d a n op s g h.tid = s.barv g tm h d a n.toNat op := by
  unfold State.barvOne
  rw [withThread_eq _ ht hh]
  rfl

end

/-! ### Threads that no BARV blocks -/

/-- A step that newly blocks no thread. -/
def Tames (s t : State) : Prop := Goes (Threads fun h h' => ∀ y, h'.status = .blocked y → h.status = .blocked y) s t

theorem Tames.trans {s t u : State} (h : Tames s t) (k : Tames t u) : Tames s u :=
  Goes.trans (fun a b => .trans (T := fun h h' => ∀ y, h'.status = .blocked y → h.status = .blocked y) (fun p q y e => p y (q y e)) a b) h k

theorem Goes.tames {s t : State} (h : Goes Eases s t) : Tames s t :=
  h.mono fun k => ⟨k.2.1, fun tid x hx => by
    obtain ⟨x', hx', hloose⟩ := k.2.2 tid x hx
    exact ⟨x', hx', hloose.1⟩⟩

theorem tames_modTeam (s : State) (id : Nat) {f : Team → Team} (hid : ∀ x, (f x).id = x.id) (hf : ∀ x, (f x).threads = x.threads) :
    Tames s (s.modTeam id f) :=
  goes_modTeam s id hid (fun _ => .same (fun _ _ e => e) rfl) fun tm _ => .same (fun _ _ e => e) (hf tm)

theorem tames_modThread (s : State) (id tid : Nat) {f : Thread → Thread} (hid : ∀ x, (f x).tid = x.tid)
    (hf : ∀ x y, (f x).status = .blocked y → x.status = .blocked y) : Tames s (s.modThread id tid f) :=
  goes_modThread s id tid (fun _ => .same (fun _ _ e => e) rfl) fun tm _ =>
    threads_modThread (T := fun h h' => ∀ y, h'.status = .blocked y → h.status = .blocked y) (fun _ _ e => e) tm tid hid fun x _ => hf x

theorem tames_checkBar (s : State) (id n : Nat) : Tames s (State.checkBar id s n) := by
  cases ht : s.team? id with
  | none =>
    unfold State.checkBar
    rw [ht]
    exact (Goes.refl s).tames
  | some tm =>
    by_cases hf : n < tm.bars.length ∧ (tm.bar n).Full
    · rw [checkBar_full ht hf]
      generalize s.engineDue id n ((tm.bar n).phase + 1) = due
      have hcomp := tames_modTeam s id (f := Team.completed n due (tm.bar n).phase) (fun _ => rfl) fun _ => rfl
      exact hcomp.trans (Goes.foldl (fun s tid => eases_wakeBar id n _ _ s tid) _ _).tames
    · rw [checkBar_not_full ht hf]
      exact (Goes.refl s).tames

theorem tames_trap (s : State) (g : Group) (tid : Nat) (b : Bad) : Tames s (s.trap g tid b) := by
  unfold State.trap State.trapAs
  refine tames_modThread s g.team tid (fun _ => rfl) fun x y e => ?_
  cases e

theorem tames_arrival (s : State) (tm : Team) (tid n : Nat) (b : Barrier) : Tames s (s.arrival tm tid n b) :=
  (calm_release s (tm.agent tid) .team none).eases.tames.trans
    (tames_modTeam _ tm.id (f := Team.arrives tid n (tm.bar n).phase b) (fun _ => rfl) fun _ => rfl)

theorem tames_barv (s : State) (g : Group) (tm : Team) (h : Thread) (d a : Code) (n : Nat) (op : RedOp) :
    Tames s (s.barv g tm h d a n op) := by
  unfold State.barv
  split
  · exact tames_trap s g h.tid _
  · next b _ =>
    have hlaunch := tames_modThread (s.arrival tm h.tid n b) g.team h.tid (f := (·.launch (barvToken s tm h d (tm.bar n))))
      (fun _ => rfl) fun _ _ e => e
    exact ((tames_arrival s tm h.tid n b).trans hlaunch).trans (tames_checkBar _ tm.id n)

/-- The threads of the issuing group's team with numbers in a list are not blocked. -/
def Unblocked (g : Group) (l : List Nat) (s : State) : Prop := ∀ tid ∈ l, ∀ h, s.thread? g.team tid = some h → ∀ y, h.status ≠ .blocked y

theorem active_unblocked (s : State) (g : Group) (m : Mods) : Unblocked g (s.active g m) s := by
  intro tid htid h hh y hy
  obtain ⟨tm, ht, hth⟩ := Option.bind_eq_some_iff.1 hh
  unfold State.active at htid
  rw [ht] at htid
  have hissuing := (List.mem_filter.1 htid).2
  rw [hth] at hissuing
  change (h.status == .issuing && _) = true at hissuing
  rw [hy] at hissuing
  cases hissuing

theorem Tames.unblocked {s t : State} {g : Group} {tm : Team} {l : List Nat} (h : Tames s t) (ht : s.team? g.team = some tm)
    (hs : Unblocked g l s) : Unblocked g l t := by
  intro tid htid x hx y hy
  obtain ⟨tm', ht', hthreads⟩ := h _ _ ht
  rw [thread?_of_team ht'] at hx
  obtain ⟨x0, hx0, hback⟩ := hthreads.back hx
  exact hs tid htid x0 ((thread?_of_team ht tid).trans hx0) y (hback y hy)

/-- BARV blocks no thread. -/
theorem barvOne_unblocked {s : State} {g : Group} {l : List Nat} (d a : Code) (n : BitVec 4) (op : RedOp) (tid : Nat) (hs : Unblocked g l s) :
    Unblocked g l (State.barvOne d a n op s g tid) := by
  cases ht : s.team? g.team with
  | none =>
    unfold State.barvOne State.withThread
    rw [ht]
    exact hs
  | some tm =>
    cases hh : tm.thread? tid with
    | none =>
      unfold State.barvOne State.withThread
      rw [ht]
      dsimp only
      rw [hh]
      exact hs
    | some h =>
      obtain rfl := thread?_tid hh
      rw [barvOne_eq ht hh]
      exact (tames_barv s g tm h d a n.toNat op).unblocked ht hs

/-- A fold over threads that keep what the acts of the later ones need. -/
theorem oneByOne_foldl_of (R : State → Nat → State → Prop) (f : State → Nat → State) (P : State → Prop) (l : List Nat)
    (hR : ∀ s, ∀ tid ∈ l, P s → R s tid (f s tid)) (hP : ∀ s tid, P s → P (f s tid)) {s : State} (hs : P s) : OneByOne R s l (l.foldl f s) := by
  induction l generalizing s with
  | nil => exact .nil s
  | cons x l ih =>
    exact .cons (hR s x List.mem_cons_self hs) (ih (fun s tid htid => hR s tid (List.mem_cons_of_mem _ htid)) (hP s x hs))

/-- A word performed thread by thread, where no thread's act blocks another. -/
theorem runsEach_of_unblocked {i : Instr} {s : State} {g : Group} {rest : List Group} {f : State → Group → Nat → State}
    {R : State → Team → Thread → State → Prop} (he : exec i s = .next (eachLane i.mods f s)) (hg : s.groups = g :: rest)
    (hf : ∀ s tid tm h, s.team? g.team = some tm → tm.thread? tid = some h → (∀ y, h.status ≠ .blocked y) → R s tm h (f s g tid))
    (hkeep : ∀ l s tid, Unblocked g l s → Unblocked g l (f s g tid)) : RunsEach i s g R := by
  refine ⟨(s.active g i.mods).foldl (fun s tid => f s g tid) s, ?_, ?_⟩
  · rw [he]
    unfold eachLane
    rw [hg]
  · refine oneByOne_foldl_of _ _ (Unblocked g (s.active g i.mods)) _ (fun u tid htid hu tm h ht hh => ?_) (fun u tid => hkeep _ u tid)
      (active_unblocked s g i.mods)
    exact hf u tid tm h ht hh (hu tid htid h ((thread?_of_team ht tid).trans hh))

/-! ### What BARV and BSYNC do -/

section
variable {s : State} {g : Group} {tm : Team} {h : Thread} {d a : Code} {n : Nat} {op : RedOp} (ht : s.team? g.team = some tm)
  (hh : tm.thread? h.tid = some h)

theorem barv_error {k : Nat} (he : (tm.bar n).arrive h.tid op (if op = .none then 0 else (s.env tm).rd32 h a 0) = .error k) :
    s.barv g tm h d a n op = s.trap g h.tid (bad .barrier k) := by
  unfold State.barv
  rw [he]

section
variable {b : Barrier} (hb : (tm.bar n).arrive h.tid op (if op = .none then 0 else (s.env tm).rd32 h a 0) = .ok b)
include ht hh hb

/-- BARV of a member whose arrival does not trap: the state in which its barrier is checked. -/
theorem barv_arrives : ∃ u tm1, s.barv g tm h d a n op = State.checkBar g.team u n ∧ u.team? g.team = some tm1 ∧
    Arrived tm n b h (h.launch (barvToken s tm h d (tm.bar n))) tm1 := by
  obtain ⟨tm1, ht1, ha⟩ := arrival_arrives (n := n) (b := b) (u := s.arrival tm h.tid n b) (f := (·.launch (barvToken s tm h d (tm.bar n))))
    ht hh rfl fun _ => rfl
  refine ⟨_, tm1, ?_, ht1, ha⟩
  unfold State.barv
  rw [hb, team?_id ht]

end

end

end Sys2Proof.Machine
end

section
/-!
SUPPORT and PROOFS. BSYNC, BINIT, BTEST and BWAIT, and the barriers' statement (R122, R137 to R140).
-/

namespace Sys2Proof.Machine

/-! ### BSYNC (R137 to R139) -/

theorem isAt_iff (r : Arrival) (n : Nat) (g : Group) : r.isAt n g = true ↔ r.bar = n ∧ r.header = g.header ∧ r.word = g.idx := by
  simp [Arrival.isAt, and_assoc]

/-- A thread without the recorded arrivals of the word being issued. -/
def Thread.taken (h : Thread) (n : Nat) (g : Group) : Thread := { h with arrivals := h.arrivals.filter fun x => !x.isAt n g }

theorem taken_eq (h : Thread) (n : Nat) (g : Group) :
    h.taken n g = { h with arrivals := h.arrivals.filter fun x => ¬(x.bar = n ∧ x.header = g.header ∧ x.word = g.idx) } := by
  have hsame : (fun x : Arrival => !x.isAt n g) = fun x => decide ¬(x.bar = n ∧ x.header = g.header ∧ x.word = g.idx) := by
    funext x
    rw [Bool.eq_iff_iff, Bool.not_eq_true', decide_eq_true_iff, ← isAt_iff, Bool.not_eq_true]
  unfold Thread.taken
  rw [hsame]

section
variable {s : State} {g : Group} {tm : Team} {h : Thread} {d a : Code} {n : BitVec 4} {op : RedOp} (ht : s.team? g.team = some tm)
  (hh : tm.thread? h.tid = some h)
include ht hh

/-- A BSYNC whose arrival is recorded waits for the phase of that arrival, or has its result. -/
theorem bsyncOne_recorded {r : Arrival} (hr : h.arrivals.find? (·.isAt n.toNat g) = some r) :
    State.bsyncOne d a n op s g h.tid = match r.value with
      | some v => ((s.modThread tm.id h.tid fun h => h.taken n.toNat g).passBar tm h.tid n.toNat r.phase).results g h.tid .wq
          (barOut h (choiceAt (s.env tm).step h.tid 9) d (op != .none) v) none
      | none => (s.modThread tm.id h.tid fun h => h.taken n.toNat g).block g h.tid (.bsync n.toNat r.phase d (op != .none)) := by
  unfold State.bsyncOne
  rw [withThread_eq _ ht hh]
  dsimp only
  rw [hr]
  rfl

/-- A BSYNC with no recorded arrival arrives and blocks. -/
theorem bsyncOne_arrives (hr : h.arrivals.find? (·.isAt n.toNat g) = none) :
    State.bsyncOne d a n op s g h.tid =
      match (tm.bar n.toNat).arrive h.tid op (if op != .none then (s.env tm).rd32 h a 0 else 0) with
      | .error k => s.trap g h.tid (bad .barrier k)
      | .ok b' => State.checkBar tm.id
          ((s.arrival tm h.tid n.toNat b').block g h.tid (.bsync n.toNat (tm.bar n.toNat).phase d (op != .none))) n.toNat := by
  unfold State.bsyncOne
  rw [withThread_eq _ ht hh]
  dsimp only
  rw [hr]
  rfl

theorem bsync_recorded {r : Arrival} (hr : h.arrivals.find? (·.isAt n.toNat g) = some r) :
    (∃ tm', (State.bsyncOne d a n op s g h.tid).team? tm.id = some tm' ∧ tm'.bars = tm.bars)
    ∧ (∀ v, r.value = some v → gets (State.bsyncOne d a n op s g h.tid) g (h.taken n.toNat g) .wq
        (barOut h (choiceAt (s.env tm).step h.tid 9) d (op != .none) v))
    ∧ (r.value = none → ∃ y, (State.bsyncOne d a n op s g h.tid).thread? g.team h.tid = some { h.taken n.toNat g with status := .blocked y } ∧
        y.wait = .bsync n.toNat r.phase d (op != .none) ∧ y.header = g.header ∧ y.word = g.idx) := by
  have hid := team?_id ht
  have hteam := team?_modThread (tid := h.tid) (fun h => h.taken n.toNat g) ht
  have hthread := thread?_modThread (f := fun h => h.taken n.toNat g) (fun _ => rfl) ((thread?_of_team ht h.tid).trans hh)
  rw [bsyncOne_recorded ht hh hr, hid]
  cases hv : r.value with
  | some v =>
    dsimp only
    obtain ⟨tm1, ht1, hbars, -⟩ := eases_passBar (s.modThread g.team h.tid fun h => h.taken n.toNat g) tm h.tid n.toNat r.phase _ _ hteam
    refine ⟨⟨_, team?_modThread _ ht1, hbars⟩, fun v' e => ?_, nofun⟩
    cases e
    exact gets_results (h := h.taken n.toNat g) ((thread?_passBar _ tm h.tid n.toNat r.phase _ _).trans hthread) _ _
  | none =>
    dsimp only
    rw [block_eq]
    refine ⟨⟨_, team?_modThread (s := (s.modThread g.team h.tid fun h => h.taken n.toNat g).newId.2) _ hteam, rfl⟩, nofun, fun _ => ?_⟩
    exact block_thread hthread _

/-- A BSYNC whose arrival does not trap: the state in which its barrier is checked. -/
theorem bsync_arrives (hr : h.arrivals.find? (·.isAt n.toNat g) = none) {b : Barrier}
    (hb : (tm.bar n.toNat).arrive h.tid op (if op != .none then (s.env tm).rd32 h a 0 else 0) = .ok b) :
    ∃ u tm1 y, State.bsyncOne d a n op s g h.tid = State.checkBar g.team u n.toNat ∧ u.team? g.team = some tm1 ∧
      Arrived tm n.toNat b h { h with status := .blocked y } tm1 ∧ y.wait = .bsync n.toNat (tm.bar n.toNat).phase d (op != .none) ∧
      y.header = g.header ∧ y.word = g.idx := by
  obtain ⟨tm1, ht1, ha⟩ := arrival_arrives (n := n.toNat) (b := b) (u := (s.arrival tm h.tid n.toNat b).newId.2)
    (f := fun th => { th with status := .blocked ((s.arrival tm h.tid n.toNat b).blockFor g
                                                 (.bsync n.toNat (tm.bar n.toNat).phase d (op != .none))) }) ht hh rfl fun _ => rfl
  refine ⟨_, tm1, _, ?_, ht1, ha, rfl, rfl, rfl⟩
  rw [bsyncOne_arrives ht hh hr, hb, team?_id ht]
  dsimp only
  rw [block_eq]

end

/-! ### BINIT (R140) -/

/-- A thread at a BWAIT of a barrier: it is blocked there, or it was saved there. -/
theorem awaits_iff (n : Nat) (x : Thread) : x.awaits n = true ↔ (∃ y p c, x.status = .blocked y ∧ y.wait = .bwait n p c) ∨
    (x.waitAt = some n ∧ x.status ≠ .exited ∧ ∀ y, x.status ≠ .blocked y) := by
  unfold Thread.awaits
  cases hs : x.status with
  | blocked y => cases hw : y.wait <;> simp [hw]
  | exited => simp
  | ready | issuing | parked | spill | bin | held | trapped | faulted => simp

section
variable {s : State} {g : Group} {tm : Team} {h : Thread} {d a : Code} {pd : P3} {n : BitVec 4} (ht : s.team? g.team = some tm)
  (hh : tm.thread? h.tid = some h)
include ht hh

theorem binitOne_eq : State.binitOne n s g h.tid =
    if (tm.bar n.toNat).arrived ≠ 0 ∨ (tm.bar n.toNat).pending ≠ 0 ∨ tm.threads.any (·.awaits n.toNat) then s.trap g h.tid (bad .barrier 4)
    else (s.modTeam tm.id (Team.restart n.toNat)).results g h.tid .wq Out.none none := by
  unfold State.binitOne
  exact withThread_eq _ ht hh

/-- A barrier that is initialised is in its task-start state, the others as they were. -/
theorem restart_results (hn : n.toNat < tm.bars.length) :
    (∃ tm', ((s.modTeam tm.id (Team.restart n.toNat)).results g h.tid .wq Out.none none).team? tm.id = some tm' ∧
      tm'.bar n.toNat = Barrier.start tm.members ∧ ∀ k, k ≠ n.toNat → tm'.bars[k]? = tm.bars[k]?) ∧
    gets ((s.modTeam tm.id (Team.restart n.toNat)).results g h.tid .wq Out.none none) g h .wq Out.none := by
  have hteam := team?_modTeam s g.team g.team (Team.restart n.toNat) fun _ => rfl
  rw [ht, Option.map_some, if_pos (team?_id ht)] at hteam
  have hthread := thread?_modTeam s g.team (f := Team.restart n.toNat) (fun _ => rfl) (fun _ => rfl) g.team h.tid
  rw [team?_id ht]
  refine ⟨⟨_, team?_modThread _ hteam, ?_, fun k hk => ?_⟩, gets_results (hthread.trans ((thread?_of_team ht _).trans hh)) _ _⟩
  · exact bar_eq (List.getElem?_set_self hn)
  · exact List.getElem?_set_ne hk.symm

/-! ### BTEST and BWAIT (R139) -/

theorem btestOne_eq : State.btestOne pd a n s g h.tid =
    if ((s.env tm).rd32 h a 0).setWidth 16 = (tm.bar n.toNat).phase then s.results g h.tid .wq (Out.pred pd false) none
    else if ((tm.bar n.toNat).result (((s.env tm).rd32 h a 0).setWidth 16)).isSome then s.results g h.tid .wq (Out.pred pd true) none
    else s.trap g h.tid (bad .barrier 6) := by
  unfold State.btestOne
  exact withThread_eq _ ht hh

theorem bwaitOne_eq : State.bwaitOne d a n s g h.tid =
    if ((s.env tm).rd32 h a 0).setWidth 16 = (tm.bar n.toNat).phase then
      (s.modThread tm.id h.tid fun h => { h with waitAt := none }).block g h.tid (.bwait n.toNat (((s.env tm).rd32 h a 0).setWidth 16) d)
    else match (tm.bar n.toNat).result (((s.env tm).rd32 h a 0).setWidth 16) with
      | some x => ((s.modThread tm.id h.tid fun h => { h with waitAt := none }).passBar tm h.tid n.toNat
          (((s.env tm).rd32 h a 0).setWidth 16)).results g h.tid .wq (Out.reg (h.dstFree (choiceAt (s.env tm).step h.tid 9) d x)) none
      | none => (s.modThread tm.id h.tid fun h => { h with waitAt := none }).trap g h.tid (bad .barrier 6) := by
  unfold State.bwaitOne
  exact withThread_eq _ ht hh

end

section
variable {b : Barrier} {k : BitVec 16}

theorem result_last (h : k = b.phase - 1) : b.result k = some b.done1 := if_pos h

theorem result_before (h1 : k ≠ b.phase - 1) (h2 : k = b.phase - 2) : b.result k = some b.done2 := (if_neg h1).trans (if_pos h2)

theorem result_unknown (h1 : k ≠ b.phase - 1) (h2 : k ≠ b.phase - 2) : b.result k = none := (if_neg h1).trans (if_neg h2)

end

/-! ### Each word -/

section
variable {s : State} {g : Group} {tm : Team} {h : Thread} {d a : Code} {pd : P3} {n : BitVec 4} {op : RedOp}
  (ht : s.team? g.team = some tm) (hh : tm.thread? h.tid = some h)
include ht hh

theorem btestOne_answers :
    if ((s.env tm).rd32 h a 0).setWidth 16 = (tm.bar n.toNat).phase then gets (State.btestOne pd a n s g h.tid) g h .wq (Out.pred pd false)
    else if ((s.env tm).rd32 h a 0).setWidth 16 = (tm.bar n.toNat).phase - 1 ∨
      ((s.env tm).rd32 h a 0).setWidth 16 = (tm.bar n.toNat).phase - 2 then gets (State.btestOne pd a n s g h.tid) g h .wq (Out.pred pd true)
    else State.btestOne pd a n s g h.tid = s.trap g h.tid (bad .barrier 6) := by
  have hthread := (thread?_of_team ht h.tid).trans hh
  rw [btestOne_eq ht hh]
  generalize ((s.env tm).rd32 h a 0).setWidth 16 = k
  by_cases h0 : k = (tm.bar n.toNat).phase
  · rw [if_pos h0, if_pos h0]
    exact gets_results hthread _ _
  rw [if_neg h0, if_neg h0]
  by_cases h1 : k = (tm.bar n.toNat).phase - 1
  · rw [if_pos (.inl h1), result_last h1]
    exact gets_results hthread _ _
  by_cases h2 : k = (tm.bar n.toNat).phase - 2
  · rw [if_pos (.inr h2), result_before h1 h2]
    exact gets_results hthread _ _
  · rw [if_neg (not_or.2 ⟨h1, h2⟩), result_unknown h1 h2]
    rfl

theorem bwaitOne_answers :
    if ((s.env tm).rd32 h a 0).setWidth 16 = (tm.bar n.toNat).phase then
      ∃ y, (State.bwaitOne d a n s g h.tid).thread? g.team h.tid = some { h with waitAt := none, status := .blocked y } ∧
        y.wait = .bwait n.toNat (((s.env tm).rd32 h a 0).setWidth 16) d ∧ y.header = g.header ∧ y.word = g.idx
    else if ((s.env tm).rd32 h a 0).setWidth 16 = (tm.bar n.toNat).phase - 1 then
      gets (State.bwaitOne d a n s g h.tid) g { h with waitAt := none } .wq
        (Out.reg (h.dstFree (choiceAt (s.env tm).step h.tid 9) d (tm.bar n.toNat).done1))
    else if ((s.env tm).rd32 h a 0).setWidth 16 = (tm.bar n.toNat).phase - 2 then
      gets (State.bwaitOne d a n s g h.tid) g { h with waitAt := none } .wq
        (Out.reg (h.dstFree (choiceAt (s.env tm).step h.tid 9) d (tm.bar n.toNat).done2))
    else State.bwaitOne d a n s g h.tid = (s.modThread tm.id h.tid fun h => { h with waitAt := none }).trap g h.tid (bad .barrier 6) := by
  have hclear := thread?_modThread (f := fun h => { h with waitAt := none }) (fun _ => rfl) ((thread?_of_team ht h.tid).trans hh)
  have hpass (k : BitVec 16) := (thread?_passBar (s.modThread g.team h.tid fun h => { h with waitAt := none }) tm h.tid n.toNat k
    g.team h.tid).trans hclear
  rw [bwaitOne_eq ht hh, team?_id ht]
  generalize ((s.env tm).rd32 h a 0).setWidth 16 = k
  by_cases h0 : k = (tm.bar n.toNat).phase
  · rw [if_pos h0, if_pos h0]
    exact block_thread hclear _
  rw [if_neg h0, if_neg h0]
  by_cases h1 : k = (tm.bar n.toNat).phase - 1
  · rw [if_pos h1, result_last h1]
    exact gets_results (h := { h with waitAt := none }) (hpass k) _ _
  rw [if_neg h1]
  by_cases h2 : k = (tm.bar n.toNat).phase - 2
  · rw [if_pos h2, result_before h1 h2]
    exact gets_results (h := { h with waitAt := none }) (hpass k) _ _
  · rw [if_neg h2, result_unknown h1 h2]

end

/-! ### The last arrival -/

theorem full_of_arrive {b b' : Barrier} {tid : Nat} {op : RedOp} {x : Word} (hb : b.arrive tid op x = .ok b') (hall : b'.arrived = b'.members)
    (hpending : b'.pending = 0) : b'.Full := by
  refine ⟨hall, ?_, hpending⟩
  rw [← hall, arrive_ok hb]
  exact Nat.succ_ne_zero _

/-- Settles O29: arrivals by `arrive_joins`, and the words by the state in which their barrier is checked (`barv_arrives`,
`bsync_arrives`), which completes the phase (`arrived_completes`) or leaves it running (`arrived_waits`). -/
theorem barriersArriveAndRelease : Obligations.BarriersArriveAndRelease := by
  refine ⟨fun b tid op x => ⟨arrive_twice, fun h h0 hop => arrive_mixed h h0 hop, fun h hop => ?_⟩, fun s₀ g rest d a pd n op m hg => ?_,
    fun s₀ g rest d a n op m hg => ?_⟩
  · refine ⟨_, arrive_joins h hop, rfl, rfl, rfl, rfl, rfl, rfl, rfl, rfl, ?_⟩
    dsimp only
    rw [← redIdentity_eq]
    exact redFold_eq op _ x
  · intro woken
    refine ⟨runsOnce_of_onceLane rfl rfl hg fun tid tm h ht hh => ?_, ?_, runsEach_of_eachLane rfl rfl hg fun s tid tm h ht hh => ?_,
      runsEach_of_eachLane rfl rfl hg fun s tid tm h ht hh => ?_⟩
    · obtain rfl := thread?_tid hh
      rw [binitOne_eq ht hh]
      intro b waits
      have hwaits : (tm.threads.any (·.awaits n.toNat)) = true ↔ waits := by
        simp only [List.any_eq_true, awaits_iff, waits]
      rw [← hwaits]
      refine ⟨fun h => if_pos h, fun h0 hp hno hn => ?_⟩
      rw [if_neg (by rw [not_or, not_or]; exact ⟨not_not.2 h0, not_not.2 hp, hno⟩)]
      exact restart_results ht hh hn
    · refine runsEach_of_unblocked rfl hg (fun s tid tm h ht hh hs => ?_) fun l s tid hs => barvOne_unblocked d a n op tid hs
      obtain rfl := thread?_tid hh
      rw [barvOne_eq ht hh]
      refine ⟨fun k hk => barv_error hk, fun b' hb hn => ?_⟩
      obtain ⟨u, tm1, he, ht1, harr⟩ := barv_arrives ht hh hb
      rw [he, team?_id ht]
      refine ⟨?_, fun hnot => ?_, fun hall _ hpending => ?_⟩
      · obtain ⟨h', hh', hnoted⟩ := checkBar_idle (n := n.toNat) ht1 harr.own hs
        refine ⟨h', hh', barvToken s tm h d (tm.bar n.toNat), ?_, rfl, rfl, rfl⟩
        rw [hnoted.1]
        exact List.mem_append_right _ List.mem_cons_self
      · rw [arrived_waits ht1 harr hn hnot]
        exact ⟨tm1, ht1, harr.bar hn⟩
      · obtain ⟨tm', ht', ⟨hphase, h0, hdone1, hdone2, harr0⟩, hwoken⟩ := arrived_completes ht1 harr hn (full_of_arrive hb hall hpending)
        have hb' := arrive_ok hb
        have hphase' : b'.phase = (tm.bar n.toNat).phase := by rw [hb']; rfl
        have hdone' : b'.done1 = (tm.bar n.toNat).done1 := by rw [hb']; rfl
        rw [hphase'] at hphase hwoken
        refine ⟨tm', ht', hphase, h0, hdone1, hdone2.trans hdone', harr0, fun hnd => ?_⟩
        obtain ⟨hgot, hnone⟩ := hwoken hnd
        refine ⟨fun k hk hne y c hy hw hi hc => ?_, fun k hk y hy c w => (hnone k hk y hy c w).symm⟩
        obtain ⟨k', hk', hv⟩ := hgot k hk hne y c hy hw
        exact ⟨k', hk', hv hi hc⟩
    · obtain rfl := thread?_tid hh
      exact btestOne_answers ht hh
    · obtain rfl := thread?_tid hh
      exact bwaitOne_answers ht hh
  · refine runsEach_of_eachLane rfl rfl hg fun s tid tm h ht hh => ?_
    obtain rfl := thread?_tid hh
    intro b x got its
    have hits (r : Arrival) : r.isAt n.toNat g = true ↔ its r := isAt_iff r n.toNat g
    have hx : (if op != .none then (s.env tm).rd32 h a 0 else 0) = x := by cases op <;> rfl
    refine ⟨fun r l l' hl hr hbefore => ?_, fun hno => ?_⟩
    · have hfind : h.arrivals.find? (·.isAt n.toNat g) = some r := by
        refine List.find?_eq_some_iff_append.2 ⟨(hits r).2 hr, l, l', hl, fun y hy => ?_⟩
        rw [Bool.not_eq_true', ← Bool.not_eq_true, hits]
        exact hbefore y hy
      obtain ⟨hbars, hvalue, hwait⟩ := bsync_recorded (d := d) (a := a) (op := op) ht hh hfind
      rw [taken_eq] at hvalue hwait
      refine ⟨hbars, fun v hv => ?_, hwait⟩
      have hout := hvalue v hv
      cases op <;> exact hout
    · have hfind : h.arrivals.find? (·.isAt n.toNat g) = none :=
        List.find?_eq_none.2 fun r hr => mt (hits r).1 (hno r hr)
      refine ⟨fun k hk => ?_, fun b' hb hn => ?_⟩
      · rw [bsyncOne_arrives ht hh hfind, hx, hk]
      · rw [← hx] at hb
        obtain ⟨u, tm1, y, he, ht1, harr, hwait, hheader, hword⟩ := bsync_arrives ht hh hfind hb
        rw [he, team?_id ht]
        have hphase' : b'.phase = b.phase := by rw [arrive_ok hb]; rfl
        refine ⟨fun hnot => ?_, fun hall _ hpending hnd => ?_⟩
        · rw [arrived_waits ht1 harr hn hnot]
          exact ⟨⟨tm1, ht1, harr.bar hn⟩, _, y, (thread?_of_team ht1 h.tid).trans harr.own, rfl, hwait, hheader, hword⟩
        · have hfull := full_of_arrive hb hall hpending
          obtain ⟨tm', ht', ⟨hphase, h0, hdone1, -, -⟩, hwoken⟩ := arrived_completes ht1 harr hn hfull
          obtain ⟨hgot, hnone⟩ := hwoken hnd
          rw [hphase'] at hphase hgot hnone
          refine ⟨tm', ht', hphase, h0, hdone1, fun hop hi hc => ?_, fun k hk hne z c hz hw hi hc => ?_, hnone⟩
          · have hown : y.wait = .bsync n.toNat b'.phase d true := by
              rw [hwait, hphase']
              exact congrArg _ (by simpa using hop)
            obtain ⟨k', hk', hv⟩ := arrived_got ht1 harr hn hfull harr.own rfl (.inr hown)
            exact ⟨k', by rw [he, team?_id ht]; exact hk', hv hi hc⟩
          · obtain ⟨k', hk', hv⟩ := hgot k hk hne z c hz hw.symm
            exact ⟨k', by rw [he, team?_id ht, thread?_of_team ht']; exact hk', hv hi hc⟩

end Sys2Proof.Machine
end
